-- ==== Sys2Proof/Word.lean ====
section
/-! DEFINITION. The word types of the ZD-8064 model. -/

namespace Sys2Proof

/-- A byte of a capsule, a record, a header or buffer memory. -/
abbrev Byte := BitVec 8

/-- A 32-bit register or descriptor word. -/
abbrev Word32 := BitVec 32

/-- A 64-bit item of an event, a record or an address. -/
abbrev Word64 := BitVec 64

/-- The value of the 48-bit tick counter (R7). -/
abbrev TickCount := BitVec 48

/-- Records keyed by number, in strictly rising order of the key. -/
abbrev Table (α : Type) := List (Nat × α)

end Sys2Proof
end

