-- ==== Sys2Proof/Syntax.lean ====
section
/-! DEFINITION. The commands of the ZD-8064: one constructor of `Instr` for each row of the opcode table, with the
operands that the row's rules name. A command is either something that arrives from outside (a capsule, a packet,
a register write, a doorbell, a frame, a pin) or one of the device's own steps and events, named by the object it
acts on. The fields are raw: `WellFormed` says which values the manual admits. -/

namespace Sys2Proof

/-- Where a capsule comes from: a RoCE connection or a PCIe record ring (R26, R65). -/
inductive Src where
  | conn (c : Nat)
  | ring (r : Nat)
  deriving DecidableEq, Repr

/-- What the always-on domain reads at a boundary: the 24 junction sensors in °C (R477) and whether the core
regulator acknowledges the AVSBus write of this tick (R466). -/
structure TickIn where
  sensors : List Int
  avsOk : Bool
  deriving DecidableEq, Repr

/-- A block of a link lane (R170): its 64 content bits, or a control block with its type and its 56 bits. -/
inductive LinkBlock where
  | data (w : BitVec 64)
  | ctrl (type : BitVec 8) (bits : BitVec 56)
  deriving DecidableEq, Repr

/-- What a status frame of a member on a peer reports: the wrap that its transport is on (R131), and, when it says WRITTEN, the time on
tape of the data set in ns (R67). -/
structure PeerReport where
  wrap : Nat
  written : Option Nat
  deriving DecidableEq, Repr

/-- One upstream cycle as its three lanes carry it, each from its CYCLE_START on (R171, R179), and the time from the downstream
CYCLE_START to it in 10 ns (R195). -/
structure UpCycle where
  lanes : List (List LinkBlock)
  rtt : Nat
  deriving DecidableEq, Repr

/-- A fabric frame (R400): its 32-byte header, its payload, and the payload CRC as received. -/
structure Frame where
  header : List Byte
  payload : List Byte
  crc : BitVec 32
  deriving DecidableEq, Repr

/-- A fabric link or tunnel as R404 counts them: links 0 to 7 are FAB0 to FAB7, links 8 to 11 FAB_TUN0 to
FAB_TUN3 (R403). -/
abbrev LinkNo := Nat

/-- A measurement of R438 as the control cores collect it. -/
inductive Measure where
  | wear (w : Nat) (degr : Nat)
  | eye (lane : Nat) (height width : Nat)
  | head (ch : Nat) (snr : Nat)
  | retries
  deriving DecidableEq, Repr

/-- A TAP instruction of R442. -/
inductive TapInstr where
  | bypass | idcode | samplePreload | extest | extestPulse | extestTrain | clamp | highz
  deriving DecidableEq, Repr

/-- A RoCE operation outside R26's table of what the device accepts. -/
inductive RoceOp where
  | rdmaRead | atomic | other (code : Nat)
  deriving DecidableEq, Repr

/-- What the tenant answers to a packet the device sent as requester (R397, R424). -/
inductive AckKind where
  | ack | nakSequence | nakOther | rnrNak
  deriving DecidableEq, Repr

/-- The commands, in the order of the opcode table. -/
inductive Instr where
  /-- TICK_BOUNDARY (R10). -/
  | tickBoundary (i : TickIn)
  /-- OVERRUN (R16): block code, instance, STEP code, excess cycles, other steps deferred. -/
  | overrun (block inst : Nat) (step : BitVec 8) (excess : BitVec 32) (deferred : BitVec 16)
  /-- WRITE_LEAD_EXHAUSTED (R21). -/
  | writeLeadExhausted (tp : Nat)
  /-- CTL_WINDOW (R24): core, address. -/
  | ctlWindow (core : Nat) (addr : Nat)
  /-- OPEN_SESSION (R38): the SEND's bytes. -/
  | openSession (src : Src) (cap : List Byte)
  /-- CLOSE_SESSION (R39). -/
  | closeSession (src : Src) (cap : List Byte)
  /-- WRITE_RECORDS (R40). -/
  | writeRecords (src : Src) (cap : List Byte)
  /-- WRITE_MARK (R37). -/
  | writeMark (src : Src) (cap : List Byte)
  /-- SYNC (R48). -/
  | sync (src : Src) (cap : List Byte)
  /-- READ_RECORDS (R52). -/
  | readRecords (src : Src) (cap : List Byte)
  /-- LOCATE_HINT (R58). -/
  | locateHint (src : Src) (cap : List Byte)
  /-- QUERY_SESSION (R60). -/
  | querySession (src : Src) (cap : List Byte)
  /-- QUERY_SLOTS (R60). -/
  | querySlots (src : Src) (cap : List Byte)
  /-- ABORT (R62). -/
  | abort (src : Src) (cap : List Byte)
  /-- PUSH_DATA (R66): the descriptor on record ring `ring`. -/
  | pushData (ring : Nat) (desc : List Byte)
  /-- UNSUPPORTED_OPERATION (R26). -/
  | unsupportedOperation (conn : Nat) (op : RoceOp)
  /-- RDMA_WRITE (R43). -/
  | rdmaWrite (conn : Nat) (rkey : BitVec 32) (va : BitVec 64) (data : List Byte)
  /-- RDMA_WRITE_WITH_IMMEDIATE (R43). -/
  | rdmaWriteWithImmediate (conn : Nat) (rkey : BitVec 32) (va : BitVec 64) (data : List Byte) (imm : BitVec 32)
  /-- CNP_RECEIVE (R28). -/
  | cnpReceive (conn : Nat)
  /-- CE_MARKED_PACKET (R29). -/
  | ceMarkedPacket (conn : Nat)
  /-- RATE_RECOVER (R28). -/
  | rateRecover (conn : Nat)
  /-- COMMAND_ADMISSION (R71). -/
  | commandAdmission (src : Src) (tag : BitVec 16)
  /-- READY_GRANT (R41). -/
  | readyGrant (src : Src) (tag : BitVec 16)
  /-- BUFFERED_RESPONSE (R47). -/
  | bufferedResponse (src : Src) (tag : BitVec 16)
  /-- ON_TAPE_RESPONSE (R48). -/
  | onTapeResponse (src : Src) (tag : BitVec 16)
  /-- READ_DELIVERY (R54). -/
  | readDelivery (src : Src) (tag : BitVec 16)
  /-- GRANT_TIMEOUT (R80). -/
  | grantTimeout (grant : BitVec 32)
  /-- GRANT_DRAIN_END (R80). -/
  | grantDrainEnd (grant : BitVec 32)
  /-- METERING_SNAPSHOT (R68). -/
  | meteringSnapshot
  /-- METERING_RECORD_POST (R68). -/
  | meteringRecordPost
  /-- CHUNK_FILL (R93). -/
  | chunkFill (session : Nat)
  /-- CHUNK_CLOSE (R95). -/
  | chunkClose (session : Nat)
  /-- CHUNK_HOLD_EXPIRY (R95). -/
  | chunkHoldExpiry (session : Nat)
  /-- CHUNK_AGE_EXPIRY (R95). -/
  | chunkAgeExpiry (session : Nat)
  /-- CHUNK_DISPATCH (R113). -/
  | chunkDispatch (chunk : Nat)
  /-- CHUNK_SEAL (R99). -/
  | chunkSeal (chunk : Nat)
  /-- CHUNK_REFETCH (R127): the original stream as the partner returns it; none when its copy is poisoned or
  unreachable. -/
  | chunkRefetch (chunk : Nat) (stream : Option (List Byte))
  /-- KEY_FETCH (R123): the 64-byte entry read from host memory. -/
  | keyFetch (index : Nat) (entry : List Byte)
  /-- RESERVE_EPOCH_WRITTEN (R119). -/
  | reserveEpochWritten (slot : Nat)
  /-- CHUNK_PLACE (R137). -/
  | chunkPlace (chunk : Nat)
  /-- ROW_CLOSE (R138). -/
  | rowClose (slot : Nat)
  /-- ROW_AGE_EXPIRY (R138). -/
  | rowAgeExpiry (slot : Nat)
  /-- PAYLOAD_WORD_REFETCH (R340): the word address and the word from the partner's mirror. -/
  | payloadWordRefetch (addr : Nat) (word : Option (List Byte))
  /-- VERIFY_RESULT (R201): transport, channel, and the stream position of the row block. -/
  | verifyResult (tp ch : Nat) (pos : Nat)
  /-- UPSTREAM_CYCLE (R173). -/
  | upstreamCycle (tp : Nat) (c : UpCycle)
  /-- UNDERRUN_PERSIST (R210). -/
  | underrunPersist (tp : Nat)
  /-- PORT_UP (R186). -/
  | portUp (tp : Nat)
  /-- PORT_DOWN (R186). -/
  | portDown (tp : Nat)
  /-- IDENTITY_CHECK (R190): the 256 bytes that the EEPROM returns, and the two-byte address from which they were read. -/
  | identityCheck (tp : Nat) (record : List Byte) (addr : Nat)
  /-- LINK_RESPONSE (R188): RSP_ID, RSP_STATUS and RSP_DATA of the response that the transport's status carries. -/
  | linkResponse (tp : Nat) (id status : BitVec 8) (data : List Byte)
  /-- LINK_REQUEST_TIMEOUT (R188). -/
  | linkRequestTimeout (tp : Nat)
  /-- BACKHITCH_RESUME (R214). -/
  | backhitchResume (tp : Nat)
  /-- WRAP_TURN (R276). -/
  | wrapTurn (tp : Nat)
  /-- SDS_LATE_ROUND (R245). -/
  | sdsLateRound (tp sds : Nat)
  /-- READ_RETRY (R251). -/
  | readRetry (tp : Nat)
  /-- SPAN_RECONSTRUCT (R316): slot and row. -/
  | spanReconstruct (slot row : Nat)
  /-- READ_AHEAD_RESUME (R253). -/
  | readAheadResume (tp : Nat)
  /-- MOT_START (R266): direction, false for A to B. -/
  | motStart (tp : Nat) (dir : Bool)
  /-- MOT_STOP (R275). -/
  | motStop (tp : Nat)
  /-- MOT_FLOAT (R294). -/
  | motFloat (tp : Nat)
  /-- MOT_CLEAR_FAULT (R287). -/
  | motClearFault (tp : Nat)
  /-- ALIGN_END (R266). -/
  | alignEnd (tp : Nat)
  /-- HAND_OVER (R266): reel 0 is A, reel 1 is B. -/
  | handOver (tp reel : Nat)
  /-- START_FAIL (R267). -/
  | startFail (tp reel : Nat)
  /-- START_RETRY (R267). -/
  | startRetry (tp : Nat)
  /-- STOP_HOLD (R275). -/
  | stopHold (tp : Nat)
  /-- CLAMP_CLEAR (R274). -/
  | clampClear (tp : Nat)
  /-- LOST_ROTOR (R286). -/
  | lostRotor (tp reel : Nat)
  /-- MOT_REACQUIRED (R286). -/
  | motReacquired (tp reel : Nat)
  /-- PREDICT_EXHAUSTED (R286). -/
  | predictExhausted (tp reel : Nat)
  /-- PAUSE_END (R285). -/
  | pauseEnd (tp : Nat)
  /-- OFF_TRACK (R281). -/
  | offTrack (tp : Nat)
  /-- ON_TRACK (R281). -/
  | onTrack (tp : Nat)
  /-- SERVO_LOSS (R281). -/
  | servoLoss (tp : Nat)
  /-- SERVO_LOSS_STOP (R281). -/
  | servoLossStop (tp : Nat)
  /-- MOT_CHOP_FAULT (R287). -/
  | motChopFault (tp : Nat)
  /-- SLOW_MEMBER_TIMEOUT (R310). -/
  | slowMemberTimeout (slot member : Nat)
  /-- JOURNAL_PERIOD (R305). -/
  | journalPeriod (slot : Nat)
  /-- REBUILD (R317): the admin descriptor. -/
  | rebuild (desc : List Byte)
  /-- REBUILD_ROW (R317). -/
  | rebuildRow (slot : Nat)
  /-- SHAPE_CHANGE_START (R321): the admin descriptor and the 256-byte span descriptor it points to. -/
  | shapeChangeStart (desc : List Byte) (span : List Byte)
  /-- SHAPE_CHANGE_CANCEL (R322). -/
  | shapeChangeCancel (desc : List Byte)
  /-- SHAPE_ACTIVE (R322). -/
  | shapeActive (slot : Nat)
  /-- PATROL_ROW (R324). -/
  | patrolRow (slot : Nat)
  /-- MEMBER_STATUS_FRAME (R326): span slot, row, member; what the peer reports of the member; VERIFIED; the read return. -/
  | memberStatusFrame (slot row member : Nat) (report : PeerReport) (verified : Bool) (payload : Option (List Byte))
  /-- BUCKET_LEAK (R346). -/
  | bucketLeak
  /-- MASH_WRITE_OUT (R343): the word address. -/
  | mashWriteOut (word : Nat)
  /-- FILL (R337): the admin descriptor. -/
  | fill (desc : List Byte)
  /-- FILL_COMPLETE (R337). -/
  | fillComplete
  /-- QUEUE_RESET (R370): queue and cause (1 pointer mismatch, 2 double-bit error). -/
  | queueReset (q cause : Nat)
  /-- QUEUE_CFG_WRITE (R365): queue and the value written to QUE_Qq_CFG. -/
  | queueCfgWrite (q : Nat) (value : BitVec 32)
  /-- QUEUE_FLUSH (R369). -/
  | queueFlush (q : Nat)
  /-- PFC_REPEAT (R373): Ethernet port. -/
  | pfcRepeat (port : Nat)
  /-- SQ_DOORBELL (R378): page, offset in the page (0 is SQ_DB), value, and how many of the descriptors that the device
  reads behind it arrive poisoned (R379). -/
  | sqDoorbell (ring off : Nat) (value : BitVec 32) (poisoned : Nat)
  /-- CQ_DOORBELL (R378). -/
  | cqDoorbell (ring : Nat) (value : BitVec 32)
  /-- COMPLETION_POST (R384). -/
  | completionPost (ring : Nat)
  /-- MSIX_COALESCE_TIMEOUT (R388). -/
  | msixCoalesceTimeout (ring : Nat)
  /-- EVENT_POST (R384). -/
  | eventPost
  /-- CREATE_CONN (R385). -/
  | createConn (desc : List Byte)
  /-- DESTROY_CONN (R385). -/
  | destroyConn (desc : List Byte)
  /-- BIND_RING (R385). -/
  | bindRing (desc : List Byte)
  /-- SET_TENANT (R385). -/
  | setTenant (desc : List Byte)
  /-- SPAN_LOAD (R297): the admin descriptor and the 256-byte span descriptor it points to. -/
  | spanLoad (desc : List Byte) (span : List Byte)
  /-- SPAN_MAP (R315): the admin descriptor and the extents it points to. -/
  | spanMap (desc : List Byte) (extents : List Byte)
  /-- SPAN_LIST_LOSS (R320). -/
  | spanListLoss (desc : List Byte)
  /-- SPAN_LIST_SUSPECT (R325). -/
  | spanListSuspect (desc : List Byte)
  /-- SPAN_LIST_ROW_MAP (R315). -/
  | spanListRowMap (desc : List Byte)
  /-- SPAN_UNLOAD (R385). -/
  | spanUnload (desc : List Byte)
  /-- INIT_CARTRIDGE (R387). -/
  | initCartridge (desc : List Byte)
  /-- MOUNT (R390). -/
  | mount (desc : List Byte)
  /-- MOUNT_CLAIM_TIMEOUT (R390). -/
  | mountClaimTimeout (tp : Nat)
  /-- DISMOUNT (R391). -/
  | dismount (desc : List Byte)
  /-- FW_STAGE (R393): the admin descriptor and the segment's bytes. -/
  | fwStage (desc : List Byte) (segment : List Byte)
  /-- FW_ACTIVATE (R393). -/
  | fwActivate (desc : List Byte)
  /-- FW_ACTIVATED (R394). -/
  | fwActivated
  /-- FW_ACT_FAIL (R394): a core that missed its checkpoint. -/
  | fwActFail (core : Nat)
  /-- CELLAR_READ (R385). -/
  | cellarRead (desc : List Byte)
  /-- BOOT_GO (R389). -/
  | bootGo
  /-- BOOT_LOADED (R389): the image as read from host memory. -/
  | bootLoaded (image : List Byte)
  /-- SETUP_LOCK (R389). -/
  | setupLock
  /-- KEK_LOAD (R122). -/
  | kekLoad
  /-- FAILING_CLEAR (R227). -/
  | failingClear (tp : Nat)
  /-- RETIRE_WRITE (R218): transport, high word or low word, value. -/
  | retireWrite (tp : Nat) (high : Bool) (value : BitVec 32)
  /-- TICK_LO_READ (R9). -/
  | tickLoRead
  /-- ETH_MODE_WRITE (R485): lane group and the value written to ETH_GRPg_CFG. -/
  | ethModeWrite (group : Nat) (value : BitVec 32)
  /-- FAB_LINK_CFG_WRITE (R427): port and the value written to FABn_CFG. -/
  | fabLinkCfgWrite (port : Nat) (value : BitVec 32)
  /-- AVS_OFFSET_WRITE (R466): the value written to HLT_AVS_STAT. -/
  | avsOffsetWrite (value : BitVec 32)
  /-- BAD_BAR_ACCESS (R377): write or read, bytes enabled. -/
  | badBarAccess (write : Bool) (bytes : Nat)
  /-- REGISTER_WRITE (R12): BAR0 offset and value. -/
  | registerWrite (offset : Nat) (value : BitVec 32)
  /-- FRAME_RECEIVE (R401). -/
  | frameReceive (link : LinkNo) (f : Frame)
  /-- LINK_REPLAY (R401). -/
  | linkReplay (link : LinkNo)
  /-- FAB_LINK_UP (R402). -/
  | fabLinkUp (link : LinkNo)
  /-- FAB_LINK_DOWN (R402): cause 1 silence, 2 lock, 3 replay. -/
  | fabLinkDown (link : LinkNo) (cause : Nat)
  /-- LSA_RECEIVE (R404): link and what the advertisement carries. -/
  | lsaReceive (link : LinkNo) (serial : BitVec 64) (addr : BitVec 7) (seq : BitVec 32) (source : Option Nat) (taken : BitVec 8) (adj : List (Nat × Nat))
  /-- LSA_REFRESH (R404). -/
  | lsaRefresh
  /-- LSA_EXPIRE (R404): the advertisement of one address and serial number. -/
  | lsaExpire (addr : BitVec 7) (serial : BitVec 64)
  /-- ROUTE_COMPUTE (R406). -/
  | routeCompute
  /-- E2E_GAP_TIMEOUT (R407): source and class. -/
  | e2eGapTimeout (src cls : Nat)
  /-- E2E_RESEND_TIMEOUT (R407): destination and class. -/
  | e2eResendTimeout (dst cls : Nat)
  /-- TICK_FRAME_RECEIVE (R410): link, the neighbour's address, its count, s, b, the arrival offset a, s′, and whether
  the neighbour is aligned (R412). -/
  | tickFrameReceive (link : LinkNo) (nbr : BitVec 7) (count : BitVec 48) (sent b a prev : Int) (aligned : Bool)
  /-- FAB_SOURCE (R409). -/
  | fabSource
  /-- MIRROR_BATCH_COMMIT (R416): the batch named by its tick, complete with its CRC, and whether buffers of
  owner 10 can be had. -/
  | mirrorBatchCommit (batch : BitVec 48)
  /-- MIRROR_ACK (R417). -/
  | mirrorAck (batch : BitVec 48)
  /-- MIRROR_NAK (R416). -/
  | mirrorNak (batch : BitVec 48)
  /-- HEARTBEAT_RECEIVE (R419): the tick it carries, the last batch committed, the last acknowledgement taken. -/
  | heartbeatReceive (tick committed acked : BitVec 48)
  /-- PAIR_TAKEOVER (R420). -/
  | pairTakeover
  /-- PAIR_PARTITION (R422). -/
  | pairPartition
  /-- PAIR_SOLO (R422). -/
  | pairSolo
  /-- TAKEOVER_COMPLETE (R421). -/
  | takeoverComplete
  /-- TAKEOVER_DEADLINE (R421): a transport. -/
  | takeoverDeadline (tp : Nat)
  /-- ARP_REPEAT (R421). -/
  | arpRepeat
  /-- PAIR_RESYNC (R423). -/
  | pairResync
  /-- PAIR_PROTECTED (R423). -/
  | pairProtected
  /-- SMB_STATUS (R430). -/
  | smbStatus
  /-- SMB_CELLAR_SELECT (R430). -/
  | smbCellarSelect (index : BitVec 16) (pecOk : Bool)
  /-- SMB_CELLAR_READ (R430). -/
  | smbCellarRead
  /-- SMB_RESET_WARM (R430). -/
  | smbResetWarm (pecOk : Bool)
  /-- SMB_RESET_COLD (R430). -/
  | smbResetCold (pecOk : Bool)
  /-- SMB_CLEAR_PIN (R430): the byte written. -/
  | smbClearPin (value : BitVec 8) (pecOk : Bool)
  /-- CELLAR_SCAN_DONE (R436). -/
  | cellarScanDone
  /-- POWER_FAIL (R470). -/
  | powerFail
  /-- AGE_MEASURE (R438). -/
  | ageMeasure (m : Measure)
  /-- TREND_SNAPSHOT (R438). -/
  | trendSnapshot
  /-- REPLAN_EVALUATION (R439). -/
  | replanEvaluation
  /-- SB_HEAD_SEND (R446). -/
  | sbHeadSend
  /-- SB_DEVICE_FRAME (R446): the 13 bytes received. -/
  | sbDeviceFrame (bytes : List Byte)
  /-- SB_END_FRAME (R446): the 4 bytes received. -/
  | sbEndFrame (bytes : List Byte)
  /-- SB_END_TIMEOUT (R446). -/
  | sbEndTimeout
  /-- TAP_INSTRUCTION_LOAD (R443). -/
  | tapInstructionLoad (i : TapInstr)
  /-- THERMAL_TRIP (R477). -/
  | thermalTrip
  /-- SUPPLY_FAULT (R464): 1 VCORE, 2 VSRD, 3 VSRDH, 4 VHBM, 5 VIO. -/
  | supplyFault (supply : Nat)
  /-- POWER_UP (R8): the value strapped on SMB_ADDR[1:0]. -/
  | powerUp (strap : BitVec 2)
  /-- POWER_DOWN (R464). -/
  | powerDown
  /-- COLD_RESET (R468): the value strapped on SMB_ADDR[1:0]. -/
  | coldReset (strap : BitVec 2)
  /-- WARM_RESET (R468). -/
  | warmReset
  /-- RESET_RELEASE (R468). -/
  | resetRelease
  /-- FUNCTION_LEVEL_RESET (R395). -/
  | functionLevelReset
  /-- READ_INTERRUPT (R451). -/
  | readInterrupt (tp : Nat)
  /-- READ_INTERRUPT_END (R451). -/
  | readInterruptEnd (tp : Nat)
  /-- ETH_PORT_LINK_UP (R373). -/
  | ethPortLinkUp (port : Nat)
  /-- ETH_PORT_LINK_DOWN (R403). -/
  | ethPortLinkDown (port : Nat)
  /-- PCIE_LINK_DOWN (R439). -/
  | pcieLinkDown
  /-- TENANT_ACK_RECEIVE (R424). -/
  | tenantAckReceive (conn : Nat) (kind : AckKind) (psn : BitVec 24)
  /-- LOCAL_ACK_TIMEOUT (R397). -/
  | localAckTimeout (conn : Nat)
  /-- CAPSULE_OPCODE_INVALID (R488). -/
  | capsuleOpcodeInvalid (src : Src) (cap : List Byte)
  /-- PUSH_DATA_DMA_COMPLETE (R66): ring, grant, the host's bytes, poisoned or not. -/
  | pushDataDmaComplete (ring : Nat) (grant : BitVec 32) (data : List Byte) (poisoned : Bool)
  /-- PFC_FRAME_RECEIVE (R486): port, priority enable vector and the eight quanta. -/
  | pfcFrameReceive (port : Nat) (enable : BitVec 8) (quanta : List (BitVec 16))
  /-- ARP_REQUEST_RECEIVE (R421): port, IPv6 or not, the address asked for. -/
  | arpRequestReceive (port : Nat) (v6 : Bool) (addr : BitVec 128)
  /-- MSIX_VECTOR_UNMASK (R388). -/
  | msixVectorUnmask (vec : Nat)
  deriving DecidableEq, Repr

end Sys2Proof
end

