-- ==== Sys2Proof/Decode.lean ====
section
/-! DEFINITION. The block has no instruction words: the opcode table gives no row any bits, so no word spells a
command. -/

namespace Sys2Proof

/-- The command that a word spells by the opcode table's bits. The table gives bits to none of its rows. -/
def decodeTableWord (nbits w : Nat) : Option Instr :=
  match nbits, w with
  | _, _ => none

end Sys2Proof
end

