-- ==== Sys2Proof/Config.lean ====
section
/-! DEFINITION. What an implementation fixes and the manual leaves open: values fused at test and the free
values. Each is an opaque constant, so that no proof can rest on a value of it. -/

namespace Sys2Proof

/-- HLT_PWR_STAT.VBASE as fused at test, 0 to 20 steps of 5 mV (R465, R478): the manual gives no value. -/
opaque Config.vbaseRaw : Nat

/-- VBASE in its stated range 0 to 20 (R478). -/
def Config.vbase : Nat := Config.vbaseRaw % 21

/-- The part's own 64-bit serial number (R484): fused, no value is representative. -/
opaque Config.serial : BitVec 64

/-- A fresh free value: the n-th value the device chooses without the manual saying which (grant identifiers and
windows of R42, context slots of R331, …). -/
opaque Config.freeValue : Nat → BitVec 64

/-- How the motion loops turn a real quantity into an integer field: up or down. The manual states no rounding for
R264, R271 to R273, R278, R282, R283 and R286. -/
opaque Config.roundUp : Rat → Bool

/-- The value that the motion loops use for π (R266, R272). -/
opaque Config.pi : Rat

/-- What a servo stripe begins (R278), from the time of the stripe before it and its own: 1 the first burst of a frame, 2
the second burst, anything else neither. The manual gives no rule that separates bursts. -/
opaque Config.burst : Rat → Rat → Nat

/-- The check byte of an 8-byte lane under the (72,64) SEC-DED code of large queues (R370); the manual does not give its matrix. -/
opaque Config.laneCheck : BitVec 64 → Byte

/-- A boot or firmware image passes its checks (R389, R393): header, length field and Tvedsol signature, none of which the
manual lays out. -/
opaque Config.imageOk : List Byte → Bool

/-- The version that an image carries (R393). -/
opaque Config.imageVersion : List Byte → BitVec 32

/-- The value that a word of the signal path holds for a quantity computed (R228): restored samples 0, resampled ones 1, equalised
ones 2, baseline 3, phase 4, frequency 5, taps 6, metrics 7. The manual states no word lengths. -/
opaque Config.signalWord : Nat → Rat → Rat

/-- The sample value of a 1 in the units of the target response (R228). -/
opaque Config.sampleUnit : Rat

/-- The coefficient of the 8-tap interpolation filter for a phase, 0 to 63, and a tap (R228). -/
opaque Config.interpTap : Nat → Nat → Rat

/-- How the noise predictor adapts (R228): from its two taps and the last three noise samples, newest first. -/
opaque Config.predictNext : Rat × Rat → List Rat → Rat × Rat

/-- The scaling of a metric difference to a reliability (R228). -/
opaque Config.relScale : Rat → Nat

/-- The bits by which the detector's decision follows its newest path bit (R228). -/
opaque Config.detectDelay : Nat

end Sys2Proof
end

