-- ==== Sys2Proof/Machine/Bytes.lean ====
section
/-! DEFINITION. Bytes, little-endian fields, keyed tables and the cyclic redundancy checks of the manual. -/

namespace Sys2Proof.Machine

/-- `n` bytes of `v`, little-endian (R35). -/
def leBytes : Nat → Nat → List Byte
  | 0, _ => []
  | n + 1, v => BitVec.ofNat 8 v :: leBytes n (v / 256)

/-- The number that little-endian bytes spell (R35). -/
def leNat : List Byte → Nat
  | [] => 0
  | b :: bs => b.toNat + 256 * leNat bs

/-- `n` bytes of `v`, big-endian. -/
def beBytes (n v : Nat) : List Byte := (leBytes n v).reverse

/-- The number that big-endian bytes spell. -/
def beNat (bs : List Byte) : Nat := leNat bs.reverse

/-- `len` bytes from offset `off`. -/
def slice (bs : List Byte) (off len : Nat) : List Byte := (bs.drop off).take len

/-- The little-endian field of `n` bytes at byte offset `off`. -/
def leAt (bs : List Byte) (off n : Nat) : Nat := leNat (slice bs off n)

/-- `n` zero bytes. -/
def zeros (n : Nat) : List Byte := List.replicate n 0#8

/-- `bs` cut or padded with zeros to `n` bytes. -/
def padTo (n : Nat) (bs : List Byte) : List Byte := bs.take n ++ zeros (n - bs.length)

/-- Every byte is zero. -/
def allZero (bs : List Byte) : Bool := bs.all (· == 0#8)

/-- `src` written over `dst` from offset `off`. -/
def overwrite (dst : List Byte) (off : Nat) (src : List Byte) : List Byte :=
  dst.take off ++ src ++ dst.drop (off + src.length)

/-- Bytewise exclusive-or of two lists of one length. -/
def xorBytes (a b : List Byte) : List Byte := List.zipWith (· ^^^ ·) a b

/-- `n` cut into pieces of `k` elements; `fuel` bounds the pieces. -/
def chunksOf {α : Type} (k : Nat) : Nat → List α → List (List α)
  | 0, _ => []
  | _, [] => []
  | fuel + 1, xs => xs.take k :: chunksOf k fuel (xs.drop k)

/-- The pieces of `k` elements of `xs`. -/
def pieces {α : Type} (k : Nat) (xs : List α) : List (List α) := chunksOf k xs.length xs

/-! ### Tables -/

/-- The entry of key `k`. -/
def tget {α : Type} (t : Table α) (k : Nat) : Option α := (t.find? fun p => p.1 == k).map (·.2)

/-- The entry of key `k`, or `d`. -/
def tgetD {α : Type} (t : Table α) (k : Nat) (d : α) : α := (tget t k).getD d

/-- Put `v` at key `k`, keeping the keys rising. -/
def tput {α : Type} : Table α → Nat → α → Table α
  | [], k, v => [(k, v)]
  | (j, w) :: t, k, v =>
    if k < j then (k, v) :: (j, w) :: t
    else if k = j then (k, v) :: t
    else (j, w) :: tput t k v

/-- Remove key `k`. -/
def tdel {α : Type} (t : Table α) (k : Nat) : Table α := t.filter fun p => p.1 != k

/-- Change the entry of key `k`, if there is one. -/
def tmod {α : Type} (t : Table α) (k : Nat) (f : α → α) : Table α :=
  t.map fun p => if p.1 == k then (p.1, f p.2) else p

/-- Put `v` at key `k`, or remove the key when `v` is the value that an absent key reads as. -/
def tputD {α : Type} [DecidableEq α] (t : Table α) (k : Nat) (d v : α) : Table α :=
  if v = d then tdel t k else tput t k v

/-- Keys strictly rising. -/
def Rising {α : Type} : Table α → Bool
  | [] => true
  | [_] => true
  | a :: b :: t => decide (a.1 < b.1) && Rising (b :: t)

/-- The `i`-th element changed by `f`. -/
def lmod {α : Type} (l : List α) (i : Nat) (f : α → α) : List α := l.modify i f

/-! ### Bits and numbers -/

/-- Bits `lo + width - 1` to `lo` of `v`. -/
def bits (v lo width : Nat) : Nat := v / 2 ^ lo % 2 ^ width

/-- Bit `i` of `v`. -/
def bitOf (v i : Nat) : Bool := v / 2 ^ i % 2 == 1

/-- 1 for true. -/
def b2n (b : Bool) : Nat := if b then 1 else 0

/-- `x` plus `d`, no further than `top`. -/
def satAdd (x d top : Nat) : Nat := min (x + d) top

/-- The two's complement reading of a `w`-bit number. -/
def toSigned (w v : Nat) : Int := if v % 2 ^ w < 2 ^ (w - 1) then ((v % 2 ^ w : Nat) : Int) else ((v % 2 ^ w : Nat) : Int) - (2 ^ w : Nat)

/-- The `w`-bit two's complement number of `x`. -/
def ofSigned (w : Nat) (x : Int) : Nat := (x % ((2 ^ w : Nat) : Int)).toNat

/-- ⌈a / b⌉. -/
def ceilDiv (a b : Nat) : Nat := (a + b - 1) / b

/-! ### Checks -/

/-- One bit step of a reflected CRC. -/
def crcStepR {w : Nat} (poly crc : BitVec w) : BitVec w :=
  if crc.getLsbD 0 then (crc >>> 1) ^^^ poly else crc >>> 1

/-- One bit step of a CRC taken from the top bit. -/
def crcStepL {w : Nat} (poly crc : BitVec w) : BitVec w :=
  if crc.getLsbD (w - 1) then (crc <<< 1) ^^^ poly else crc <<< 1

/-- `f` applied `n` times. -/
def iter {α : Type} (f : α → α) : Nat → α → α
  | 0, a => a
  | n + 1, a => iter f n (f a)

/-- The register of CRC-32C after `bs` (R98): reflected, polynomial 0x1EDC6F41. -/
def crc32cFold (init : BitVec 32) (bs : List Byte) : BitVec 32 :=
  bs.foldl (fun c b => iter (crcStepR 0x82F63B78#32) 8 (c ^^^ b.setWidth 32)) init

/-- CRC-32C (R98): initial value 0xFFFF_FFFF, final exclusive-or 0xFFFF_FFFF. -/
def crc32c (bs : List Byte) : BitVec 32 := crc32cFold 0xFFFFFFFF#32 bs ^^^ 0xFFFFFFFF#32

/-- The row header CRC (R147): 0x1021, initial value 0xFFFF, from bit 7 to bit 0, no final exclusive-or. -/
def crc16 (bs : List Byte) : BitVec 16 :=
  bs.foldl (fun c b => iter (crcStepL 0x1021#16) 8 (c ^^^ BitVec.shiftLeft (b.setWidth 16) 8)) 0xFFFF#16

/-- The sideband CRC-8 (R445): polynomial 0x07, initial value 0x00. -/
def crc8 (bs : List Byte) : BitVec 8 :=
  bs.foldl (fun c b => iter (crcStepL 0x07#8) 8 (c ^^^ b)) 0#8

/-- `bs` followed by its CRC-32C, little-endian. -/
def withCrc32c (bs : List Byte) : List Byte := bs ++ leBytes 4 (crc32c bs).toNat

/-- The last four bytes are the CRC-32C of those before them. -/
def crc32cOk (bs : List Byte) : Bool :=
  decide (4 ≤ bs.length) && decide (leAt bs (bs.length - 4) 4 = (crc32c (bs.take (bs.length - 4))).toNat)

end Sys2Proof.Machine
end

