-- ==== Sys2Proof/Machine/Codes.lean ====
section
/-! DEFINITION. GF(2^8), Reed-Solomon coding and decoding, the memory word code and the channel modulation
(R142, R145, R158 to R161, R332 to R335). -/

namespace Sys2Proof.Machine

/-! ### GF(2^8) of R142 and R332 -/

/-- Multiplication by α = 0x02 with the polynomial 0x11D (R142). -/
def gx (a : Byte) : Byte := if a.getLsbD 7 then (a <<< 1) ^^^ 0x1D#8 else a <<< 1

/-- The low `n` bits of `b`, each weighing `a` times a power of α. -/
def gmulGo : Nat → Byte → Byte → Byte
  | 0, _, _ => 0#8
  | n + 1, a, b => (if b.getLsbD 0 then a else 0#8) ^^^ gmulGo n (gx a) (b >>> 1)

/-- The product in GF(2^8) (R142). -/
def gmul (a b : Byte) : Byte := gmulGo 8 a b

/-- The `n`-th power of `a`. -/
def gpow (a : Byte) : Nat → Byte
  | 0 => 1#8
  | n + 1 => gmul a (gpow a n)

/-- α to the power `n` (R142). -/
def alpha (n : Nat) : Byte := iter gx (n % 255) 1#8

/-- The inverse, 0 for 0. -/
def ginv (a : Byte) : Byte :=
  let a2 := gmul a a; let a4 := gmul a2 a2; let a8 := gmul a4 a4; let a16 := gmul a8 a8
  let a32 := gmul a16 a16; let a64 := gmul a32 a32; let a128 := gmul a64 a64
  gmul a128 (gmul a64 (gmul a32 (gmul a16 (gmul a8 (gmul a4 a2)))))

/-- a / b. -/
def gdiv (a b : Byte) : Byte := gmul a (ginv b)

/-- A polynomial, lowest coefficient first, at `x`. -/
def polyEval (p : List Byte) (x : Byte) : Byte := p.foldr (fun c acc => c ^^^ gmul x acc) 0#8

/-- The sum of two polynomials. -/
def polyAdd : List Byte → List Byte → List Byte
  | [], q => q
  | p, [] => p
  | a :: p, b :: q => (a ^^^ b) :: polyAdd p q

/-- A polynomial times a constant. -/
def polyScale (c : Byte) (p : List Byte) : List Byte := p.map (gmul c)

/-- The product of two polynomials. -/
def polyMul : List Byte → List Byte → List Byte
  | [], _ => []
  | a :: p, q => polyAdd (polyScale a q) (0#8 :: polyMul p q)

/-- The formal derivative: odd coefficients move down, the others vanish. -/
def polyDeriv (p : List Byte) : List Byte :=
  (p.drop 1).zipIdx.map fun (c, i) => if i % 2 = 0 then c else 0#8

/-- The polynomial without zero coefficients at its top. -/
def polyTrim (p : List Byte) : List Byte := (p.reverse.dropWhile (· == 0#8)).reverse

/-- g(x) = (x − α^0) … (x − α^(m−1)), lowest coefficient first (R142, R332). -/
def rsGen (m : Nat) : List Byte := (List.range m).foldl (fun g i => polyMul g [alpha i, 1#8]) [1#8]

/-- The `m` check symbols of the data symbols `d` (R142): the remainder of x^m·d(x) divided by g(x). -/
def rsChecks (m : Nat) (d : List Byte) : List Byte :=
  let g := (rsGen m).reverse.drop 1
  d.foldl (fun st c =>
    let fb := c ^^^ st.headD 0#8
    polyAdd (st.drop 1 ++ [0#8]) (polyScale fb g)) (zeros m)

/-- The `m` syndromes of a codeword whose first symbol comes first (R142). -/
def rsSyndromes (m : Nat) (c : List Byte) : List Byte :=
  (List.range m).map fun j => c.foldl (fun acc s => gmul acc (alpha j) ^^^ s) 0#8

/-- One step of the Berlekamp-Massey recursion that starts from the erasure locator. -/
def bmStep (syn : List Byte) (e r : Nat) (st : List Byte × List Byte × Nat) : List Byte × List Byte × Nat :=
  let (lam, b, l) := st
  let d := (lam.zipIdx.foldl (fun acc (c, j) => if j ≤ r then acc ^^^ gmul c (syn.getD (r - j) 0#8) else acc) 0#8)
  let b' := 0#8 :: b
  if d = 0#8 then (lam, b', l)
  else
    let t := polyAdd lam (polyScale d b')
    if 2 * l ≤ r + e then (t, polyScale (ginv d) lam, r + 1 + e - l) else (t, b', l)

/-- Errors and erasures decoding of an RS code with `m` checks: the corrected codeword and the number of
corrected symbols that were not erased; none when the word lies in no decoding sphere. -/
def rsDecode (m : Nat) (c : List Byte) (erased : List Nat) : Option (List Byte × Nat) :=
  let n := c.length
  let syn := rsSyndromes m c
  if syn.all (· == 0#8) then some (c, 0)
  else if m < erased.length then none
  else
    let e := erased.length
    let gam := erased.foldl (fun g i => polyMul g [1#8, alpha (n - 1 - i)]) [1#8]
    let (lam0, _, l) := (List.range (m - e)).foldl (fun st k => bmStep syn e (e + k) st) (gam, gam, e)
    let lam := polyTrim lam0
    let roots := (List.range n).filter fun i => polyEval lam (ginv (alpha (n - 1 - i))) == 0#8
    if lam.length = l + 1 ∧ roots.length = l then
      let om := (polyMul syn lam).take m
      let dl := polyDeriv lam
      let fixed := roots.foldl (fun w i =>
        let x := alpha (n - 1 - i)
        let xi := ginv x
        let ev := gmul x (gdiv (polyEval om xi) (polyEval dl xi))
        w.modify i (· ^^^ ev)) c
      if (rsSyndromes m fixed).all (· == 0#8) ∧ 2 * (l - e) + e ≤ m then
        some (fixed, (roots.filter fun i => ! erased.contains i).length)
      else none
    else none

/-! ### The memory word code (R332 to R335) -/

/-- V1 and V0 of word address `w` (R333), in codeword order. -/
def virtualSymbols (w : Nat) : List Byte :=
  [BitVec.ofNat 8 (bits w 8 8) ^^^ BitVec.ofNat 8 (bits w 24 7), BitVec.ofNat 8 (bits w 0 8) ^^^ BitVec.ofNat 8 (bits w 16 8)]

/-- The poison mask of R334. -/
def poisonMask : List Byte := [0x5A#8, 0xA5#8, 0x5A#8, 0xA5#8]

/-- The four stored check bytes of 32 data bytes at word address `w`, with the mask when poisoned (R332 to R334). -/
def wordChecks (w : Nat) (data : List Byte) (poison : Bool) : List Byte :=
  let c := rsChecks 4 (virtualSymbols w ++ data)
  if poison then xorBytes c poisonMask else c

/-- The classes of R335, in its order. -/
inductive MemClass where
  | unwritten | clean | corrected | poison | addressFault | uncorrectable
  deriving DecidableEq, Repr

/-- The number of a class in R335. -/
def MemClass.code : MemClass → Nat
  | .unwritten => 1 | .clean => 2 | .corrected => 3 | .poison => 4 | .addressFault => 5 | .uncorrectable => 6

/-- The only error of a 38-symbol codeword with four checks, its symbol number and its value, when its syndromes
are those of exactly one error. -/
def singleError (syn : List Byte) : Option (Nat × Byte) :=
  let s0 := syn.getD 0 0#8; let s1 := syn.getD 1 0#8; let s2 := syn.getD 2 0#8; let s3 := syn.getD 3 0#8
  if s0 = 0#8 then none
  else
    let x := gdiv s1 s0
    if gmul s1 x = s2 ∧ gmul s2 x = s3 then
      ((List.range 38).find? fun i => alpha (37 - i) == x).map fun i => (i, s0)
    else none

/-- The syndromes are those of errors in c_0 and c_1 only (R335). -/
def virtualOnly (syn : List Byte) : Bool :=
  let s0 := syn.getD 0 0#8; let s1 := syn.getD 1 0#8
  let x := alpha 37; let y := alpha 36
  let b := gdiv (s1 ^^^ gmul s0 x) (x ^^^ y)
  let a := s0 ^^^ b
  (List.range 4).all fun j => syn.getD j 0#8 == gmul a (gpow x j) ^^^ gmul b (gpow y j)

/-- Classification of the stored word (32 data bytes, 4 check bytes) at word address `w` of a marked page: its
class, the data delivered and the poison bit delivered (R335). -/
def classifyWord (w : Nat) (data chk : List Byte) : MemClass × List Byte × Bool :=
  let cw := virtualSymbols w ++ data ++ chk
  let syn := rsSyndromes 4 cw
  if syn.all (· == 0#8) then (.clean, data, false)
  else
    let syn' := rsSyndromes 4 (virtualSymbols w ++ data ++ xorBytes chk poisonMask)
    let fix (i : Nat) (v : Byte) : List Byte := if i < 34 then data.modify (i - 2) (· ^^^ v) else data
    match singleError syn with
    | some (i, v) => if 2 ≤ i then (.corrected, fix i v, false) else
        if syn'.all (· == 0#8) then (.poison, data, true) else
        match singleError syn' with
        | some (j, u) => if 2 ≤ j then (.poison, fix j u, true) else (.addressFault, data, true)
        | none => (.addressFault, data, true)
    | none =>
        if syn'.all (· == 0#8) then (.poison, data, true) else
        match singleError syn' with
        | some (j, u) => if 2 ≤ j then (.poison, fix j u, true) else
            if virtualOnly syn then (.addressFault, data, true) else (.uncorrectable, data, true)
        | none => if virtualOnly syn then (.addressFault, data, true) else (.uncorrectable, data, true)

/-! ### The tape codes (R141 to R147) -/

/-- The 16 check symbols of a C2 or C1 codeword (R142 to R144). -/
def tapeChecks (d : List Byte) : List Byte := rsChecks 16 d

/-- The even-numbered elements. -/
def evens {α : Type} : List α → List α
  | [] => []
  | [a] => [a]
  | a :: _ :: t => a :: evens t

/-- The odd-numbered elements. -/
def odds {α : Type} (l : List α) : List α := evens (l.drop 1)

/-- Two lists taken in turn. -/
def interleave {α : Type} : List α → List α → List α
  | [], bs => bs
  | a :: as, bs => a :: (match bs with | [] => as | b :: bs' => b :: interleave as bs')

/-- The 496-byte row body of 464 bytes: C1 in two interleaved codewords (R144). -/
def c1Body (d : List Byte) : List Byte := d ++ interleave (tapeChecks (evens d)) (tapeChecks (odds d))

/-- The 16 parity rows of the 112 data rows of a sub data set, 464 bytes each (R143). -/
def c2Rows (rows : List (List Byte)) : List (List Byte) :=
  let cols := (List.range 464).map fun j => tapeChecks (rows.map fun r => r.getD j 0#8)
  (List.range 16).map fun i => cols.map fun c => c.getD i 0#8

/-! ### Bits on tape (R157 to R161) -/

/-- The bits of bytes, each from bit 7 to bit 0 (R157). -/
def bitsMsb (bs : List Byte) : List Bool := bs.flatMap fun b => (List.range 8).map fun i => b.getLsbD (7 - i)

/-- The bytes that bits spell, each from bit 7 to bit 0. -/
def bytesMsb (bs : List Bool) : List Byte :=
  (pieces 8 bs).map fun o => BitVec.ofNat 8 (o.foldl (fun a b => 2 * a + b2n b) 0)

/-- The sync mark, from bit 63 to bit 0 (R158). -/
def syncMark : List Bool := (List.range 64).map fun i => (0xFFFFFFFFF08B53A5 : BitVec 64).getLsbD (63 - i)

/-- The scrambler's load for a channel (R159). -/
def scrambleSeed (ch : Nat) : BitVec 15 := 0x7FFF#15 ^^^ BitVec.ofNat 15 (ch * 256)

/-- Scrambling, its own inverse (R159). -/
def scrambleGo : BitVec 15 → List Bool → List Bool
  | _, [] => []
  | s, b :: bs =>
    let o := s.getLsbD 14 ^^ s.getLsbD 13
    (b ^^ o) :: scrambleGo ((s <<< 1) ||| (if o then 1#15 else 0#15)) bs

/-- The bits of a row block scrambled for channel `ch` (R159). -/
def scramble (ch : Nat) (bs : List Bool) : List Bool := scrambleGo (scrambleSeed ch) bs

/-- After each group of 32 bits, the complement of the group's last bit (R160). -/
def modulate (bs : List Bool) : List Bool :=
  (pieces 32 bs).flatMap fun g => g ++ [! g.getLastD false]

/-- The bits without the inserted ones (R160). -/
def demodulate (bs : List Bool) : List Bool := (pieces 33 bs).flatMap fun g => g.take 32

/-- The 4,288 channel bits of a row block of 512 bytes on channel `ch` (R157). -/
def rowBlockBits (ch : Nat) (block : List Byte) : List Bool := syncMark ++ modulate (scramble ch (bitsMsb block))

/-- One position of gap fill on channel `ch` (R161): one repetition and the first 64 bits of the next. R161 gives the bits of one
position; whether the repetition runs on through the next position it does not say: here every position begins it anew (DESIGN
CHOICE, notes/assumptions/173.md). -/
def gapFillBits (ch : Nat) : List Bool :=
  let r := modulate (scramble ch (bitsMsb (zeros 512)))
  r ++ r.take 64

end Sys2Proof.Machine
end

