-- ==== Sys2Proof/Machine/TypesBase.lean ====
section
/-! DEFINITION. The parts of the state that every block shares: what the device emits, events, cellar records,
buffer memory, pools, queues, rings, and the health block. -/

namespace Sys2Proof.Machine

/-- Whatever leaves the device. A run's emissions stand in `State.out`, newest first. -/
inductive Out where
  /-- A SEND of a response or READY capsule on a RoCE connection (R42, R59). -/
  | send (conn : Nat) (bytes : List Byte)
  /-- A response or READY capsule written to slot `idx` of a record ring's capsule area (R65, R382). -/
  | capsule (ring idx : Nat) (bytes : List Byte)
  /-- A NAK: its AETH meaning and, for an RNR NAK, the timer code (R26, R27, R43). -/
  | nakInvalid (conn : Nat)
  | nakAccess (conn : Nat)
  | rnrNak (conn timer : Nat)
  /-- The acknowledgement of a tenant's packet (R424). -/
  | ack (conn : Nat) (psn : BitVec 24)
  /-- An RDMA WRITE to tenant memory (R48, R53). -/
  | rdmaWrite (conn : Nat) (rkey : BitVec 32) (addr : BitVec 64) (bytes : List Byte)
  /-- A congestion notification packet (R29). -/
  | cnp (conn : Nat)
  /-- A memory-write TLP to host memory, poisoned or not (R57). -/
  | hostWrite (addr : BitVec 64) (bytes : List Byte) (poison : Bool)
  /-- A completion entry written at index `idx` of a ring's completion ring (R382). -/
  | completion (ring idx : Nat) (bytes : List Byte)
  /-- A submission entry that the device writes on an output pair (R380). -/
  | submission (ring idx : Nat) (bytes : List Byte)
  /-- A DMA read of host memory that the device issues (R66, R123, R389). -/
  | hostRead (addr : BitVec 64) (len : Nat)
  /-- An MSI-X message of a vector (R388). -/
  | msix (vec : Nat)
  /-- A PFC frame on a port: priority and quanta (R373). -/
  | pfc (port pri quanta : Nat)
  /-- A fabric frame on a link (R400). -/
  | frame (link : Nat) (header payload : List Byte) (crc : BitVec 32)
  /-- A fabric frame in an Ethernet frame of a tunnel (R403): port, destination MAC address, EtherType and the whole frame. -/
  | tunnelFrame (port : Nat) (mac : BitVec 48) (etype : BitVec 16) (bytes : List Byte)
  /-- A TICK frame on a link (R410): the count and the s, b fields. -/
  | tickFrame (link : Nat) (count : BitVec 48) (s b : Int)
  /-- A downstream cycle of a port: the 56 bits of its CYCLE_START, and its content in content order (R171, R174). -/
  | cycle (tp : Nat) (start : BitVec 56) (bytes : List Byte)
  /-- IDLE blocks that fill a port's lane (R171, R195). -/
  | idle (tp blocks : Nat)
  /-- A read of `len` bytes that a port's SMBus controller makes at an address of a 7-bit device (R190). -/
  | smbusRead (tp dev addr len : Nat)
  /-- An ARP announcement or reply, or its IPv6 counterpart, for a service address (R421). -/
  | arp (port : Nat) (v6 : Bool) (addr : BitVec 128) (mac : BitVec 48)
  /-- The value that a register or BAR read returns (R9, R377). -/
  | readData (value : List Byte)
  /-- What the SMBus target returns or how it answers (R429, R430). -/
  | smbData (bytes : List Byte)
  | smbNack
  | smbAck
  /-- Bytes sent on SB_OUT (R445). -/
  | sideband (bytes : List Byte)
  /-- An AVSBus voltage write: steps of 5 mV above 0.700 V (R465, R466). -/
  | avsWrite (code : Nat)
  deriving DecidableEq, Repr

/-- An event as it was committed (R396), with the number of events dropped just before it (R384). -/
structure EvRec where
  before : Nat
  code : Nat
  block : Nat
  inst : Nat
  seq : BitVec 32
  tick : TickCount
  items : List Word64
  deriving DecidableEq, Repr

/-- A cellar record before HLT completes it (R432): CRC and FLAGS are added when it is written. -/
structure CellarRec where
  block : Nat
  inst : Nat
  code : Nat
  seq : BitVec 32
  tick : TickCount
  payload : List Byte
  deriving DecidableEq, Repr

/-- The range of pages that FILL has marked with one pattern (R337). -/
structure FillRun where
  first : Nat
  last : Nat
  pattern : BitVec 32
  poison : Bool
  deriving DecidableEq, Repr

/-- Buffer memory (R329): data bytes by address, check bytes by 4 × word address + check number, and the fill map
as the runs that FILL wrote. `data` and `chk` list only what differs from the runs' contents. -/
structure Hbm where
  data : List Host.Cell := []
  chk : List Host.Cell := []
  runs : List FillRun := []
  deriving DecidableEq, Repr

/-- Bytes that stand in words of buffer memory, with the poison bit of each word (R6). -/
structure Words where
  bytes : List Byte := []
  poison : List Bool := []
  deriving DecidableEq, Repr

/-- An entry of the mash buffer (R342): its word address, bytes, mask, poison bit and the tick that created it. -/
structure MashEntry where
  word : Nat
  bytes : List Byte
  mask : List Bool
  poison : Bool
  born : Nat
  deriving DecidableEq, Repr

/-- A FILL in progress (R337): pages done, and the admin command that waits for it. -/
structure FillJob where
  first : Nat
  pages : Nat
  done : Nat
  pattern : BitVec 32
  poison : Bool
  tag : BitVec 16
  deriving DecidableEq, Repr

/-- The memory system beside HBM itself (R337 to R347). -/
structure Mem where
  mash : List MashEntry := []
  fills : List FillJob := []
  /-- Pages whose MEM_UNFILLED_WRITE has been posted (R338). -/
  unfilledPosted : List Nat := []
  /-- Groups that posted MEM_UE and MEM_ADDR_FAULT in this tick (R347). -/
  uePosted : List Nat := []
  afPosted : List Nat := []
  /-- Corrections and uncorrectable words of the scrub pass under way (R348). -/
  passCe : Nat := 0
  passUe : Nat := 0
  deriving DecidableEq, Repr

/-- One buffer of a pool (R359). -/
structure BufSt where
  owner : Nat
  releaser : Nat
  share : Nat
  pendRel : Bool
  deriving DecidableEq, Repr

/-- What a request's handle is for. -/
inductive PoolUse where
  | grant (cmd : Nat)
  | original (session : Nat)
  | stored (chunk : Nat)
  | nextStored (session : Nat)
  | overflow (chunk : Nat)
  | payload (slot row member : Nat)
  | sample (tp : Nat)
  | peer (src tp row : Nat)
  deriving DecidableEq, Repr

/-- A request to the pool manager (R355, R356). -/
structure PoolReq where
  size : Nat
  owner : Nat
  releaser : Nat
  upgrade : Bool
  purpose : PoolUse
  vis : Nat
  deriving DecidableEq, Repr

/-- A release or SHARE (R359), with the owner it is issued for. -/
structure PoolOp where
  share : Bool
  handle : BitVec 32
  owner : Nat
  vis : Nat
  deriving DecidableEq, Repr

/-- One pool (R350, R358): buffers created, the number of them never yet allocated since creation, and the handles
freed since, oldest first. The free list is the never-allocated buffers in index order, then `freed`. -/
structure PoolSt where
  created : Nat := 0
  fresh : Nat := 0
  freed : List Nat := []
  bufs : Table BufSt := []
  deriving DecidableEq, Repr

/-- The pool manager (R350 to R361). -/
structure Pool where
  made : Bool := false
  pools : List PoolSt := [{}, {}, {}, {}, {}]
  reqs : List PoolReq := []
  ops : List PoolOp := []
  /-- Handles committed and not yet taken by their requester. -/
  done : List (PoolUse × BitVec 32) := []
  deriving DecidableEq, Repr

/-- One item of a queue (R368): its entries' bytes, the entries it counts, whether its frame word is filled, and
the producer's item number. -/
structure QItem where
  body : List Byte
  n : Nat
  closed : Bool
  deriving DecidableEq, Repr

/-- One queue (R362 to R371). -/
structure QueSt where
  items : List QItem := []
  head : Nat := 0
  drop : Nat := 0
  dropTick : TickCount := 0
  /-- A pointer mismatch (1) or double-bit error (2) was found, and the queue is reset at the next boundary (R370). -/
  broken : Nat := 0
  flush : Bool := false
  deriving DecidableEq, Repr

/-- The queue system: queues by number, and what large queues have written this tick, each as an address of buffer memory and bytes
(R364). -/
structure Que where
  qs : Table QueSt := []
  out : List (Nat × List Byte) := []
  deriving DecidableEq, Repr

/-- A completion that fell due on a ring (R382, R384); `cap` is its response or READY capsule. -/
structure Cpl where
  kind : Nat
  tag : BitVec 16
  status : Nat
  count : Nat
  info : BitVec 32
  cap : List Byte
  /-- The submission entries written with it on an output pair. -/
  item : List (List Byte)
  deriving DecidableEq, Repr

/-- One ring pair (R380 to R384, R388). -/
structure Ring where
  sqHead : Nat := 0
  sqTail : Nat := 0
  cqHead : Nat := 0
  cqTail : Nat := 0
  phase : Bool := true
  wait : List Cpl := []
  /-- Completions since the last message, and when the first of them was written (R388). -/
  pend : Nat := 0
  pendSince : Nat := 0
  /-- Cellar copies dropped and not yet reported (R384). -/
  drop : Nat := 0
  /-- Doorbells that wait for their boundary (R378), and descriptors that arrive poisoned behind the first (R379). -/
  sqDb : Option Nat := none
  cqDb : Option Nat := none
  poison : Nat := 0
  /-- The tenant that BIND-RING bound (R65). -/
  tenant : Option Nat := none
  deriving DecidableEq, Repr

/-- An admin command in progress (R385). -/
structure AdminCmd where
  tag : BitVec 16
  op : Nat
  /-- The transport, slot or member the command waits on, as its row uses them. -/
  a : Nat := 0
  b : Nat := 0
  c : Nat := 0
  addr : BitVec 64 := 0
  stage : Nat := 0
  since : Nat := 0
  /-- The descriptor, and whether a function level reset has taken its completion away (R395). -/
  desc : List Byte := []
  quiet : Bool := false
  deriving DecidableEq, Repr

/-- The control plane (R376 to R396). -/
structure Ctl where
  rings : Table Ring := []
  /-- MSI-X table words and pending bits (R388, R482). -/
  msixWords : Table Word32 := []
  msixPend : List Nat := []
  evSeq : BitVec 32 := 0
  evq : List EvRec := []
  evDrop : Nat := 0
  admin : List AdminCmd := []
  /-- Staged firmware (R393): segments by offset. -/
  staged : Table (List Byte) := []
  /-- A firmware activation in progress: the new version, the admin tag, and the boundary at which it was taken. -/
  activating : Option (BitVec 32 × BitVec 16 × Nat) := none
  /-- Metering records that wait for their ring (R68). -/
  metq : List (List Byte) := []
  /-- Admin commands held during a firmware activation (R90, R394), oldest first. -/
  held : List Instr := []
  /-- Of those held, the first whose completion a function level reset has taken away (R395), and whether the command at
  work completes without a completion. -/
  heldQuiet : Nat := 0
  mute : Bool := false
  /-- Set-up was locked at the last boundary, and the pools are created at the next (R389). -/
  lockPending : Bool := false
  deriving DecidableEq, Repr

/-- The outcome of a request for a core or always-on reset (R468). -/
inductive ResetKind where
  | none | warm | cold
  deriving DecidableEq, Repr

/-- The health block (R428 to R448, R464 to R478). -/
structure Hlt where
  /-- MRAM slots by index, as written; an absent slot is all zero (R431). -/
  mram : Table (List Byte) := []
  /-- The next cellar sequence number (R432). -/
  seq : BitVec 32 := 0
  /-- Records that go ahead of the feed (R48, R437). -/
  ahead : List CellarRec := []
  /-- The boot scan runs, and the cause that its BOOT record will carry (R436). -/
  scanning : Bool := true
  bootCause : Nat := 1
  /-- The highest SEQ that the last scan found. -/
  lastFound : Nat := 0
  /-- A record written to the main region whose pinned copy is still to be written (R434, R435). -/
  pinDue : Option CellarRec := none
  /-- Copies of records that found the cellar ring full and are not reported yet (R384). -/
  copyDrop : Nat := 0
  /-- SMBus: record selected and byte offset in it (R430). -/
  smbIndex : Nat := 0
  smbOff : Nat := 0
  /-- Supplies and reset (R428, R464, R467, R468): VAON, VCORE and the others, RESET_N. -/
  vaon : Bool := true
  vcore : Bool := true
  resetN : Bool := true
  kek : Option (List Byte) := none
  /-- The offset that the regulator has taken, the one written to it in this tick, and failures of that write (R466). -/
  avsNow : Nat := 0
  avsSent : Option Nat := none
  avsTries : Nat := 0
  strap : BitVec 2 := 0
  deriving DecidableEq, Repr

/-- What the control cores have measured and kept between evaluations (R438, R439). -/
structure Age where
  /-- MOT_CLAMP events per transport since the last evaluation. -/
  clamps : List Nat := List.replicate 8 0
  /-- The profile of each recorded retry, newest first, at most 256, and those of retries completed since, oldest first. -/
  retries : List Nat := []
  done : List Nat := []
  /-- HLT_AGE_LIMIT posted: kind, instance, tick of the post (R440). -/
  limits : List (Nat × Nat × Nat) := []
  /-- Lanes whose eye has been measured since the reset (R438). -/
  eyes : List Nat := []
  /-- Lanes that wait for re-training at the next link-down (R439). -/
  retrain : List Nat := []
  /-- Sideband: position being forwarded, the last DEVICE frame's POS and when it arrived (R446). -/
  sbLast : Option (Nat × Nat) := none
  sbNextHead : Nat := 0
  /-- The TAP's instruction (R442), and whether one has been refused in this tick (R13). -/
  tap : TapInstr := .bypass
  refused : Bool := false
  deriving DecidableEq, Repr

end Sys2Proof.Machine
end

