-- ==== Sys2Proof/Machine/TypesTape.lean ====
section
/-! DEFINITION. The parts of the state on the tape side: transport ports, the write stream and its verify, the read
channel and decoder, motion, and span sets. Lists of eight stand for the transports TP0 to TP7. -/

namespace Sys2Proof.Machine

/-! ### Transport port (R169 to R195) -/

/-- What a transport request is for (R188). -/
inductive ReqUse where
  /-- Link identity read at port up (R190). -/
  | identity
  /-- Read of a copy of the volume record for an admin command: copy 0 or 1. -/
  | readVol (copy : Nat)
  /-- Write of the updated record: the 128 bytes and the copy. -/
  | writeVol (copy : Nat) (rec : List Byte)
  deriving DecidableEq, Repr

/-- A request in the header (R188): the bytes still to transfer follow in `rest`. -/
structure Req where
  use : ReqUse
  op : Nat
  id : BitVec 8
  addr : Nat
  len : Nat
  data : List Byte
  since : Nat
  tried : Option (BitVec 8) := none
  lastStatus : BitVec 8 := 0xFF
  /-- The first try's bytes, for the retry. -/
  firstAddr : Nat := 0
  /-- Bytes received so far of a read. -/
  got : List Byte := []
  deriving DecidableEq, Repr

/-- A write of the volume record that has to be made (R194, R216): the fields it changes. -/
structure VolUpd where
  eod : Option Nat := none
  epoch : Option Nat := none
  whole : Option (List Byte) := none
  deriving DecidableEq, Repr

/-- One sampling interval as the device takes it (R173, R179 to R182): whether its status was taken, whether it came one tick late,
ZC_OVF, its zero crossings, SMP_COUNT, and its samples unless they were discarded. -/
structure UpIn where
  valid : Bool := false
  late : Bool := false
  zcOvf : Bool := false
  zc : List (BitVec 16) := []
  count : Nat := 0
  read : Option (List (List Int)) := none
  servo : Option (List (List Int)) := none
  power : Option (List (List Int)) := none
  deriving DecidableEq, Repr

/-- A response as the status carries it (R180, R188). -/
structure Rsp where
  id : BitVec 8 := 0
  status : BitVec 8 := 0xFF
  data : List Byte := []
  deriving DecidableEq, Repr

/-- One transport port. -/
structure Tp where
  /-- Consecutive valid upstream cycles (up to 8) and consecutive ticks without one (R186). -/
  good : Nat := 0
  miss : Nat := 0
  /-- A valid upstream cycle was taken in this tick, in time. -/
  took : Bool := false
  /-- The intervals that have come in this tick; whether the interval due at the last boundary is still to come (R173); the tick that
  the downstream cycle sent last named. -/
  ins : List UpIn := []
  owed : Bool := false
  sent : TickCount := 0
  /-- Status fields as last taken (R180). -/
  curEpoch : BitVec 32 := 0
  ownerPort : Option Bool := none
  myPort : Bool := false
  fifo : Nat := 0
  wrDiscard : Nat := 0
  pwrFault : Bool := false
  rsp : Rsp := {}
  /-- Consecutive ticks of UNDERRUN (R210). -/
  under : Nat := 0
  /-- Next stream offset to send, the offset reached by each of the latest cycles, newest first, WR_EXPECT as last
  reported (R178), and whether RESUME is due. -/
  off : Nat := 0
  kept : List (Nat × Nat) := []
  expect : Nat := 0
  resume : Bool := false
  /-- The header sent last (R187), and whether this tick's cycle repeats it (R16, R20, R186). -/
  header : List Byte := zeros 96
  rep : Bool := false
  /-- Requests: the one in the header, those waiting, the last identifier used. -/
  req : Option Req := none
  waiting : List Req := []
  lastId : BitVec 8 := 0
  /-- A request has failed after its retry (R188). -/
  reqFail : Bool := false
  /-- The link identity as read (R189), and the identity record accepted (R190). -/
  link : List Byte := []
  ident : List Byte := []
  /-- The two copies of the volume record as last read or written (R193, R194), and updates to make. -/
  vol : List (List Byte) := [[], []]
  upd : List VolUpd := []
  /-- The span set slot and member mounted on the transport, and its mode (R390). -/
  mounted : Option (Nat × Nat × Bool) := none
  deriving DecidableEq, Repr

/-! ### Writing (R196 to R227) -/

/-- A row that a rewrite repeats: its data set, sub data set, row and attempt. -/
structure RowId where
  ds : Nat
  sds : Nat
  row : Nat
  attempt : Nat
  deriving DecidableEq, Repr

/-- What stands between and in regions (R152, R161 to R164, R213). -/
inductive PosKind where
  | region | hold | flush | gap
  deriving DecidableEq, Repr

/-- One position of the write stream (R196): its number in the stream, its kind, the data set, attempt, member and
VOL_TAG it belongs to, its number in its region or structure, the wrap, the retired channels, SPLICE, and, for rewrite
slots and flush positions, the row that a channel carries again. `judged`: channels whose verify result is committed. -/
structure Position where
  num : Nat := 0
  kind : PosKind
  ds : Nat
  attempt : Nat
  member : Nat
  tag : BitVec 16
  q : Nat
  wrap : Nat
  retired : BitVec 64
  splice : Bool
  rw : List (Nat × RowId) := []
  judged : BitVec 64 := 0
  deriving DecidableEq, Repr

/-- A row that failed verify (R203, R205): the channel of its failed copy, whether its rewrite has been placed, and
whether it counts as a late failure. -/
structure FailRow where
  sds : Nat
  row : Nat
  ch : Nat
  placed : Bool := false
  passed : Bool := false
  late : Bool := false
  deriving DecidableEq, Repr

/-- A data set on its transport (R203 to R208, R303). -/
structure DsWr where
  no : Nat
  slot : Nat
  row : Nat
  member : Nat
  payload : BitVec 32
  attempt : Nat := 0
  /-- Sub data sets whose C2 parity has been computed (R145): 16 parity rows of each. -/
  parity : List (List (List Byte)) := []
  /-- The boundary at which its region began; one past its last position in the stream, rewrites included. -/
  started : Bool := false
  begun : Nat := 0
  last : Nat := 0
  /-- Rows that failed; their slots are fixed (R203). -/
  fails : List FailRow := []
  fixed : Bool := false
  /-- Region rows, and rewrites, whose results are still to come. -/
  left : Nat := 8192
  rwLeft : Nat := 0
  encoded : Bool := false
  written : Bool := false
  verified : Bool := false
  /-- The transport has reported UNDERRUN while the data set was being written (R206). -/
  under : Bool := false
  /-- Written by a rebuild (R317), or for a peer (R326): its payload stands whole in its buffer. -/
  rebuilt : Bool := false
  deriving DecidableEq, Repr

/-- What the writing control does with its stream (R198, R210, R214, R215). -/
inductive WrMode where
  /-- Not mounted for writing. -/
  | idle
  /-- The stream carries content. -/
  | streaming
  /-- The content has ended; the last results are awaited before a backhitch. -/
  | runout
  /-- Parked at the append point, or on the way to it. -/
  | parked
  /-- Moving forward to the append point. -/
  | approach
  /-- The wrap has ended; the transport runs to the end of tape and turns. -/
  | turning
  /-- A pause, brake or stop has ended the stream; the transport has to be repositioned. -/
  | stopped
  deriving DecidableEq, Repr

/-- The writing control of one transport. -/
structure Wr where
  mode : WrMode := .idle
  staged : List DsWr := []
  /-- Data sets whose region has started and that are not yet decided, oldest first. -/
  live : List DsWr := []
  /-- Positions encoded and still held, in order; the number of the next, and the stream offset of position 0. -/
  stream : List Position := []
  next : Nat := 0
  base : Nat := 0
  /-- Positions still to encode of the present region or structure, and the row blocks of the next one encoded so far (R15). -/
  todo : List Position := []
  credit : Nat := 0
  lastKind : PosKind := .gap
  /-- The next region has filler slots (R199), or carries SPLICE (R166). -/
  plain : Bool := true
  splice : Bool := false
  /-- Data sets abandoned and to be written again, in increasing number, and whether the skip gap before them is still
  to come (R208). -/
  again : List DsWr := []
  gapDue : Bool := false
  lastDs : Option DsWr := none
  wrap : Nat := 0
  /-- Append point (R214) and the position at which the content ended, in nm. -/
  append : Int := 0
  ended : Int := 0
  /-- A chopper fault acts as the end of the wrap (R287); the stream ends after a flush region and the transport stops
  (R311, R391) or parks for a read (R451). -/
  chopEnd : Bool := false
  stopReq : Bool := false
  /-- The flush region before a wrap turn has been chosen (R198). -/
  turnDue : Bool := false
  /-- One above the highest data set number whose region has been started (R216). -/
  eod : Nat := 0
  /-- Speed matching (R220). -/
  since : Nat := 0
  upZone : Bool := false
  downZone : Bool := false
  /-- The achieved step when MOT set its clamp flag (R221), and whether a data set has been staged since the last speed target (R222). -/
  clampStep : Option Nat := none
  arrived : Bool := false
  /-- Row blocks verified, those that failed and their C1 corrections, per channel and of every kind (R202); row blocks and
  corrections of the region being verified, and of the last 64 regions, newest first (R438). -/
  stats : List (Nat × Nat × Nat) := List.replicate 64 (0, 0, 0)
  checked : List Nat := List.replicate 64 0
  regions : List (List (Nat × Nat)) := []
  /-- Failed region row blocks and C1 corrections of the region per channel, and consecutive regions above the
  limit (R202, R217). -/
  failCnt : List Nat := List.replicate 64 0
  corr : List Nat := List.replicate 64 0
  badRegions : List Nat := List.replicate 64 0
  deriving DecidableEq, Repr

/-! ### Read channel and decoder (R228 to R256) -/

/-- The best path of the detector into one of its 16 states (R228): its metric, none where known bits exclude it, and for each bit not
decided yet, newest first, the metrics of the best paths into the state with a 0 and with a 1 there. -/
structure TPath where
  metric : Option Rat := some 0
  alts : List (Option Rat × Option Rat) := []
  deriving DecidableEq, Repr

/-- What a channel stream carries from sample to sample (R228, R229): the baseline; the last eight restored samples, oldest first, the place
of the next bit behind the fourth of them in samples, and the frequency term once a cycle has given it; the equaliser's taps, the resampled
samples in it and the last equalised ones, newest first; the predictor; the last tentative decisions, newest first; and the paths. -/
structure Sig where
  base : Rat := 0
  win : List Rat := []
  place : Rat := 0
  freq : Option Rat := none
  taps : List Rat := [0, 0, 0, 0, 0, 0, 1, 0, 0, 0, 0, 0]
  line : List Rat := []
  eq : List Rat := []
  pred : Rat × Rat := (0, 0)
  dec : List Bool := []
  paths : List TPath := List.replicate 16 {}
  deriving DecidableEq, Repr

/-- A retry profile's fields as they are in force (R251, R256). -/
structure Profile where
  mu : Nat := 0
  freeze : Bool := false
  kp : Nat := 0
  ki : Nat := 0
  thr : Nat := 0
  chase : Nat := 0
  offset : Nat := 0
  speed : Nat := 31
  deriving DecidableEq, Repr

/-- One channel's stream (R228, R232, R235): the detector's carried state, the bits with reliabilities not yet
consumed and the number of the first of them, the expected start of the next mark, the accepted row block whose bits
are still to come, consecutive erased positions, acquisition, and the start of the last accepted mark. A bit of an
interval that was lost has reliability 255 (R231). -/
structure Chan where
  det : Sig := {}
  bits : List (Bool × Nat) := []
  start : Nat := 0
  pexp : Nat := 0
  pend : Option Nat := none
  miss : Nat := 0
  acq : Bool := true
  accAt : Nat := 0
  deriving DecidableEq, Repr

/-- A row block found on a channel (R236): the bit at which it starts, its header, and its body with the reliability
of each byte. -/
structure Found where
  ch : Nat
  at_ : Nat
  head : List Byte
  body : List Byte
  rel : List Nat
  deriving DecidableEq, Repr

/-- A sub data set being decoded (R241 to R246): C1-decoded rows by number, columns decoded so far by number (128
symbols each), rounds begun and iterations of the present one, and whether a copy has added a row since the last
round. -/
structure Sds where
  rows : Table (List Byte) := []
  cols : Table (List Byte) := []
  rounds : Nat := 0
  iters : Nat := 0
  grown : Bool := false
  done : Bool := false
  deriving DecidableEq, Repr

/-- A data set being read: its highest attempt seen, and whether that attempt's region has passed in an earlier run of the tape; `bad`
once every profile has failed, `given` the payload that reconstruction supplied (R251). -/
structure DsRd where
  no : Nat
  attempt : Nat := 0
  past : Bool := false
  sds : List Sds := List.replicate 64 {}
  bad : Bool := false
  given : Option (List Byte) := none
  deriving DecidableEq, Repr

/-- A row that waits for C1 (R240), and the half rows of its work that earlier ticks have done. -/
structure C1Work where
  ds : Nat
  found : Found
  paid : Nat := 0
  deriving DecidableEq, Repr

/-- A region that has been met in the present run of the tape (R241, R245): the bit at which it begins, by the first row block that showed
it, and on each channel that has shown it. A hold region and a further attempt are regions of their own attempt. -/
structure Seg where
  no : Nat
  attempt : Nat
  first : Int
  starts : Table Int := []
  deriving DecidableEq, Repr

/-- An interval in the sample ring (R244): what had been written before it, its samples per channel (none when it was lost), and the
number of each channel's bit at its start. -/
structure RingRec where
  total : Nat
  count : Nat
  bits : List Nat
  deriving DecidableEq, Repr

/-- What a transport reads for (R449): the end-of-data search, a command, reconstruction, a rebuild, patrol, a hint. -/
inductive RdGoal where
  | none | eod | records (cmd : Nat) | recon (slot row : Nat) | rebuild (slot : Nat) | patrol (slot : Nat) | hint
  deriving DecidableEq, Repr

/-- How far a reading transport has got: nothing, waiting to stand, moving to the point of R248, reading, parked for
AHEAD (R253), or back on the way to the append point (R451). -/
inductive RdPhase where
  | off | wait | move | run | ahead | home
  deriving DecidableEq, Repr

/-- The reading side of one transport. -/
structure Rd where
  /-- Intervals taken at a boundary and not yet detected, oldest first (R231). -/
  inp : List UpIn := []
  goal : RdGoal := .none
  phase : RdPhase := .off
  /-- The data set sought, and the longitudinal point that the transport moves to. -/
  target : Nat := 0
  point : Int := 0
  /-- Locate (R248): headers are only resolved; the data set located, corrections made, the last number found below it. -/
  locating : Bool := false
  seek : Nat := 0
  corrections : Nat := 0
  below : Option Nat := none
  chans : List Chan := List.replicate 64 {}
  found : List Found := []
  work : List C1Work := []
  /-- Half-row decodes left to this tick (R15, R240). -/
  c1Left : Nat := 0
  sets : List DsRd := []
  /-- Regions met in this run of the tape, the highest attempt of each data set in it, the last data set that began, and whether one
  followed whose number was not above it (R249). -/
  segs : List Seg := []
  seen : Table Nat := []
  prev : Option Nat := none
  stale : Bool := false
  /-- Wrap and end of the last accepted row block (R249). -/
  lastEnd : Option (Nat × Int) := none
  /-- Data sets sought and not found (R248). -/
  absent : List Nat := []
  /-- The highest data set number accepted since the read began. -/
  lastNo : Option Nat := none
  /-- Locate map (R247): data set ↦ wrap and longitudinal position; the end of data. -/
  map : Table (Nat × Int) := []
  eodAt : Option (Nat × Int) := none
  /-- Retry (R251): the profile in use, the next slot, profiles used, RDC_RETRY_ORDER as the retry began, and whether reconstruction was
  asked for. -/
  profile : Nat := 0
  slot : Nat := 1
  used : List Nat := []
  order : Option Nat := none
  asked : Bool := false
  /-- The fields of the profile in force, and the region in which they came into force (R256). -/
  prof : Profile := {}
  profAt : Option (Nat × Nat) := none
  /-- The sample ring's Hogsheads, the bytes written to it, and its intervals, newest first (R244). -/
  ring : List (BitVec 32) := []
  ringTotal : Nat := 0
  ringLog : List RingRec := []
  /-- Identity parts decoded while the volume is mounted (R250), void ranges (VOID_FROM, DATA_SET_NO, KEEP_MAP), data
  sets decoded, and whether the end-of-data search has ended. -/
  idents : Table (List Byte) := []
  voids : List (Nat × Nat × BitVec 64) := []
  decoded : List Nat := []
  eodDone : Bool := false
  /-- A LOCATE-HINT that waits or runs (R58). -/
  hint : Option Nat := none
  /-- A read interrupts writing or took a parked transport (R451): since when; since when a read has waited; and
  whether the slow-member count is held (R310). -/
  took : Option Nat := none
  waitSince : Option Nat := none
  held : Option Nat := none
  deriving DecidableEq, Repr

/-! ### Motion (R257 to R294) -/

/-- A commutation step as the schedule ran it (R263, R264): when it began, its number, the period then in force, the
predicted commutations before it, the crossing accepted in it, whether its window can count as missed, whether the
window has been judged, and whether it is a step at which the reel is only held. Times are absolute, in 10 ns (R258). -/
structure StepRec where
  begun : Rat
  step : Nat
  period : Rat
  predicted : Nat := 0
  zc : Option Rat := none
  excused : Bool := false
  judged : Bool := false
  held : Bool := false
  deriving DecidableEq, Repr

/-- One reel (R261 to R275). -/
structure Reel where
  /-- The gate word of the cycle computed last (R175). -/
  mode : Nat := 0
  step : Nat := 0
  nextStep : Nat := 7
  at_ : Nat := 0
  duty : Nat := 0
  /-- Ascending sense, step period T, the next scheduled commutation, the tape speed at the latest one (R286), the latest steps
  (newest first), and whether the present step holds a hold advance (R275). -/
  up : Bool := true
  period : Rat := 4000
  nextAt : Rat := 0
  vAt : Rat := 0
  adv : Bool := false
  hist : List StepRec := []
  /-- Consecutive accepted and missed windows, and both counts of the interval taken last. -/
  hit : Nat := 0
  missed : Nat := 0
  accCnt : Nat := 0
  missCnt : Nat := 0
  /-- Forced steps taken at HAND_T, and hand-over done (R266, R267). -/
  atMin : Nat := 0
  handed : Bool := false
  /-- Lost rotor: declared, predicted commutations used, the last predicted window missed (R286). -/
  lost : Bool := false
  predicted : Nat := 0
  exhausted : Bool := false
  /-- Radius in µm, I_meas and I in mA in the winding sense, and the sum of I_meas over align (R272, R273, R291). -/
  radius : Rat := 0
  meas : Rat := 0
  cur : Rat := 0
  alignSum : Rat := 0
  alignN : Nat := 0
  deriving DecidableEq, Repr

/-- The reasons that hold a motion pause (R285), in the order of MOT_PAUSE's causes. -/
inductive PauseCause where
  | lostRotor | offTrack | servoLoss
  deriving DecidableEq, Repr

/-- One servo channel's demodulator (R278): the sums over the stripe being read, the last stripe, the first stripe of
the present frame's first burst, and t_x of the present frame. -/
structure SrvCh where
  sum : Nat := 0
  moment : Nat := 0
  last : Option Rat := none
  frame : Option Rat := none
  tx : Option Rat := none
  deriving DecidableEq, Repr

/-- The lateral servo (R278 to R281). -/
structure Lat where
  chans : List SrvCh := [{}, {}, {}, {}]
  act : Int := 0
  acc : Int := 0
  sat : Bool := false
  err : Int := 0
  inTrack : Nat := 0
  out : Nat := 0
  noFrame : Nat := 0
  loss : Bool := false
  lossTicks : Nat := 0
  /-- ACT_BASE of each data band (R279), and the band whose ACT_BASE is sought with the two commands that enclose it. -/
  base : List Int := []
  cal : Option (Nat × Int × Int) := none
  deriving DecidableEq, Repr

/-- The drive's bus and chopper (R282, R287, R288), in mV. -/
structure Bus where
  mean : Rat := 0
  hi : Rat := 0
  prev : Option Rat := none
  chopMode : Nat := 0
  chopDuty : Nat := 0
  rising : Nat := 0
  /-- Power samples have been taken since the last update, and V_hi has reached BUS_MAX in them. -/
  fresh : Bool := false
  reached : Bool := false
  deriving DecidableEq, Repr

/-- What a transport is being moved for (R270, R275 to R277). -/
inductive Travel where
  | none | write | read | locate (lpos : Int) | turn | backhitch (stage : Nat) | park
  deriving DecidableEq, Repr

/-- Why a ratio brake is in force or due (R284, R286, R288, R289, R470). -/
inductive BrakeCause where
  | none | port | bus | lost | power
  deriving DecidableEq, Repr

/-- What MOT puts into a downstream cycle (R174, R257): the gate words of both reels, CHOP, ACT and RESUME. -/
structure MotOut where
  gates : List Nat := [224, 224]
  chop : Nat := 0
  act : Int := 0
  resume : Bool := false
  deriving DecidableEq, Repr

/-- One motion controller. -/
structure Mot where
  /-- The content committed for the next cycle, and that of the cycles sent last, newest first (R257). -/
  out : MotOut := {}
  sent : List MotOut := []
  reels : List Reel := [{}, {}]
  lat : Lat := {}
  bus : Bus := {}
  /-- Tape direction: false A to B. Speed, reference and target in nm/s along it, acceleration in µm/s² (R270). -/
  dir : Bool := false
  v : Rat := 0
  /-- Speed and position as the intervals taken at the last boundary give them; an update commits them. -/
  vIn : Rat := 0
  lposIn : Int := 0
  vref : Int := 0
  vtgt : Int := 0
  acc : Int := 0
  /-- Longitudinal position in nm, and whether its origin has been read in this mount (R269). -/
  lpos : Int := 0
  origin : Bool := false
  travel : Travel := .none
  /-- The wrap that the head is on. -/
  wrap : Nat := 0
  /-- Ticks spent in the present STATE; the present start is the repeat; ticks of MODE 0 since a failed start. -/
  age : Nat := 0
  retried : Bool := false
  off : Option Nat := none
  /-- The forced period of the faster reel in ticks (R266). -/
  forced : Nat := 0
  slow : Nat := 0
  sumV : Rat := 0
  sumT : Rat := 0
  fric : Rat := 0
  steady : Nat := 0
  tEst : Rat := 0
  /-- v_ref when the clamp was set, and ticks within the clearing margins (R274). -/
  clampV : Int := 0
  clampOk : Nat := 0
  /-- What holds a motion pause, and the boundary at which other blocks see it. -/
  pauses : List PauseCause := []
  pauseVis : Nat := 0
  clear : Nat := 0
  brake : BrakeCause := .none
  /-- A controlled stop is due (R20, R281, R286, R290). -/
  stopDue : Bool := false
  deriving DecidableEq, Repr

/-! ### Span sets (R295 to R328) -/

/-- The states of a row (R132, R301). -/
inductive RowSt where
  | unused | gathering | writing | complete | lost
  deriving DecidableEq, Repr

/-- A stripe row (R131, R132, R136 to R139, R300 to R304). Lists are by member. -/
structure Row where
  st : RowSt
  written : BitVec 32 := 0
  verified : BitVec 32 := 0
  missing : BitVec 32 := 0
  /-- The chunks placed in each data member's data set, in placement order, and when the first was placed. -/
  chunks : List (List Nat) := []
  firstAt : Option Nat := none
  /-- At closure: flags, data set numbers, payload buffers, identity parts, closing tick. -/
  short : Bool := false
  sync : Bool := false
  nos : List Nat := []
  bufs : List (Option (BitVec 32)) := []
  idents : List (List Byte) := []
  tick : TickCount := 0
  /-- Payload bytes assembled so far across members (R139), sub data sets of parity produced (R300). -/
  assembled : Nat := 0
  parity : Nat := 0
  /-- Its data sets have entered the staging queues of their transports (R303). -/
  staged : Bool := false
  released : Bool := false
  /-- The boundary at which the first live member's VERIFIED was committed (R310). -/
  firstVer : Option Nat := none
  /-- Time on tape of each member's data set in ns (R67); whether a JOURNAL record that shows the row complete has been produced
  ahead of the feed (R305), and whether one has been written (R48). -/
  times : List Nat := []
  told : Bool := false
  shown : Bool := false
  deriving DecidableEq, Repr

/-- An extent of a row map (R315). -/
structure Extent where
  ds : Nat
  row : Nat
  count : Nat
  deriving DecidableEq, Repr

/-- A loss-list entry (R320). -/
structure Loss where
  row : Nat
  members : BitVec 32
  cause : Nat
  deriving DecidableEq, Repr

/-- A suspect-list entry (R324). -/
structure Suspect where
  slot : Nat
  row : Nat
  p : Bool
  q : Bool
  sds : Nat
  cause : Nat
  deriving DecidableEq, Repr

/-- A rebuild (R317 to R319): the member, the spare's transport, the replacement volume and the cursor; whether its
volume record has been written. -/
structure Rebuild where
  member : Nat
  tp : Nat
  vol : BitVec 64
  row : Nat
  ready : Bool := false
  /-- Next data set number and row map of the replacement volume, rows done since the last checkpoint, rows whose data
  sets are verified. -/
  next : Nat := 0
  map : List Extent := []
  fresh : Bool := true
  mark : Nat := 0
  done : Nat := 0
  /-- Rows of the cursor's payload regenerated so far, once its sources have been had (R300). -/
  made : Option Nat := none
  /-- An interruption has stopped it, and it goes on from its checkpoint (R319). -/
  resume : Bool := false
  deriving DecidableEq, Repr

/-- A volume that was a member before a rebuild (R316). -/
structure OldVol where
  vol : BitVec 64
  member : Nat
  map : List Extent
  deriving DecidableEq, Repr

/-- A row that is being reconstructed (R316): for which member, the payload once it is supplied, or its failure. -/
structure Recon where
  slot : Nat
  row : Nat
  member : Nat
  out : Option (List Byte) := none
  failed : Bool := false
  /-- Rows regenerated so far, once k data sets have been had (R300). -/
  made : Option Nat := none
  deriving DecidableEq, Repr

/-- The write epoch of a span set (R119). -/
structure Epoch where
  cur : Nat := 0
  count : Nat := 0
  /-- The value that has been written, or is being written, to every member, and the members that hold it. -/
  reserve : Nat := 0
  have_ : BitVec 32 := 0
  waiting : Bool := false
  exhausted : Bool := false
  deriving DecidableEq, Repr

/-- A descriptor as loaded (R297). -/
structure Desc where
  id : Nat := 0
  k : Nat := 0
  p : Nat := 0
  epoch : Nat := 0
  salt : BitVec 32 := 0
  members : List Nat := []
  spares : List Nat := []
  deriving DecidableEq, Repr

/-- A member's volume (R193, R308): its identifier, next data set number, splice to write, row map. -/
structure Member where
  vol : BitVec 64 := 0
  next : Nat := 0
  mounted : Bool := false
  write : Bool := false
  splice : Option (Nat × BitVec 64) := none
  map : List Extent := []
  /-- Ticks for which the member has lacked VERIFIED of row C (R310). -/
  slow : Nat := 0
  /-- The wrap that the peer of a member on a peer last reported (R131). -/
  wrap : Option Nat := none
  /-- The next data set begins an extent (R315: a join); the volume record of a shape change is written again (R323). -/
  fresh : Bool := false
  redo : Bool := false
  deriving DecidableEq, Repr

/-- One span set slot. -/
structure Span where
  desc : Desc := {}
  members : List Member := []
  rows : Table Row := []
  /-- The open row and C (R302). -/
  openRow : Nat := 0
  c : Nat := 0
  lastMember : Option Nat := none
  epoch : Epoch := {}
  failed : BitVec 32 := 0
  readOnly : Bool := false
  full : Bool := false
  writing : Bool := false
  dismount : Bool := false
  /-- Last JOURNAL record (R305). -/
  jrnlAt : Nat := 0
  jrnlC : Nat := 0
  rebuild : Option Rebuild := none
  phase : Nat := 0
  newDesc : Option Desc := none
  newMembers : List Member := []
  /-- The control plane closes the open row (R138). -/
  closeReq : Bool := false
  boundary : Nat := 0
  loss : List Loss := []
  patrol : Nat := 0
  patrolAt : Nat := 0
  /-- Volumes listed before a rebuild that still count as mounted (R316). -/
  oldVols : List OldVol := []
  /-- Payloads that peers have returned: row, member, bytes (R326). -/
  peerData : List (Nat × Nat × List Byte) := []
  recovered : Bool := false
  /-- Rows that recovery or a takeover has voided (R308). -/
  voidRows : List Nat := []
  deriving DecidableEq, Repr

/-- The packer and span engine. -/
structure Spn where
  slots : Table Span := []
  suspects : List Suspect := []
  recons : List Recon := []
  /-- Placements made in this tick (R15). -/
  placed : Nat := 0
  deriving DecidableEq, Repr

end Sys2Proof.Machine
end

