-- ==== Sys2Proof/Machine/Detect.lean ====
section
/-! DEFINITION. The signal path of one channel stream (R228, R229): DC restore, interpolating timing recovery, adaptive
equaliser and 16-state noise-predictive detector. What R228 leaves open (word lengths, filter coefficients, the predictor's
adaptation, the scale of samples and reliabilities, the decision delay) is in Config; notes/assumptions/59.md. -/

namespace Sys2Proof.Machine

/-- The settings of the path (R228, R256): DC_GAIN, the target's G1 and G2, and the profile's KP, KI, MU and FREEZE. -/
structure SigSet where
  dc : Nat
  g1 : Rat
  g2 : Rat
  kp : Nat
  ki : Nat
  mu : Nat
  freeze : Bool
  deriving DecidableEq, Repr

/-- The level of a bit: 1 and −1. -/
def level (b : Bool) : Rat := if b then 1 else -1

/-- The sample that the target response 1 + G1·D + G2·D² predicts from a bit and the two before it (R228). -/
def SigSet.ideal (p : SigSet) (a b c : Bool) : Rat := level a + p.g1 * level b + p.g2 * level c

/-- `x` times 2 to the power −n. -/
def scaleDown (x : Rat) (n : Nat) : Rat := x / (2 ^ n : Nat)

/-- The sign of a number. -/
def signOf (x : Rat) : Rat := if x < 0 then -1 else if x = 0 then 0 else 1

/-- The sum of the products of two lists. -/
def dot (a b : List Rat) : Rat := (List.zipWith (· * ·) a b).foldl (· + ·) 0

/-! ### The detector (R228, step 4) -/

/-- The smaller of two metrics, of which either may be missing. -/
def bestOf : Option Rat → Option Rat → Option Rat
  | none, y => y
  | x, none => x
  | some x, some y => some (min x y)

/-- The path into a state over its two predecessors. -/
def TPath.join (a b : TPath) : TPath :=
  { metric := bestOf a.metric b.metric, alts := List.zipWith (fun x y => (bestOf x.1 y.1, bestOf x.2 y.2)) a.alts b.alts }

/-- A path goes on over a branch of metric `m`. -/
def TPath.extend (a : TPath) (m : Rat) : TPath :=
  let f : Option Rat → Option Rat := Option.map fun x => Config.signalWord 7 (x + m)
  { metric := f a.metric, alts := a.alts.map fun x => (f x.1, f x.2) }

/-- The noise of an equalised sample under three bits. -/
def SigSet.noise (p : SigSet) (z : Rat) (a b c : Bool) : Rat := z - p.ideal a b c

/-- The path into the state whose four bits, the newest first, are those of `s` from bit 0 on: over the two states before it, with the
square of what the predictor leaves of the noise as branch metric. A known bit excludes the states that contradict it (R243). -/
def SigSet.into (p : SigSet) (z : List Rat) (pred : Rat × Rat) (known : Option Bool) (paths : List TPath) (s : Nat) : TPath :=
  let a := bitOf s
  let from_ (old : Bool) : TPath :=
    let e := p.noise (z.getD 0 0) (a 0) (a 1) (a 2) - pred.1 * p.noise (z.getD 1 0) (a 1) (a 2) (a 3) - pred.2 * p.noise (z.getD 2 0) (a 2) (a 3) old
    (paths.getD (s / 2 + (if old then 8 else 0)) {}).extend (e * e)
  let t := (from_ false).join (from_ true)
  let t : TPath := if known = some (! a 0) then { metric := none, alts := t.alts.map fun _ => (none, none) } else t
  { t with alts := (if a 0 then (none, t.metric) else (t.metric, none)) :: t.alts }

/-- The hard decision and the reliability of the oldest bit not decided yet (R228): the difference of the best metrics with either value,
scaled and at most 31. -/
def decideOldest (paths : List TPath) : Option (Bool × Nat) :=
  if paths.all fun t => t.alts == [] then none
  else
    let m0 := paths.foldl (fun b t => bestOf b (t.alts.getLast?.bind (·.1))) none
    let m1 := paths.foldl (fun b t => bestOf b (t.alts.getLast?.bind (·.2))) none
    match m0, m1 with
    | some x, some y => some (decide (y < x), min 31 (Config.relScale (if y < x then x - y else y - x)))
    | some _, none => some (false, 31)
    | none, some _ => some (true, 31)
    | none, none => some (false, 0)

/-- The oldest bit leaves the paths. -/
def dropOldest (paths : List TPath) : List TPath := paths.map fun t => { t with alts := t.alts.dropLast }

/-- Every bit not decided yet, the oldest first. -/
def decideAll : Nat → List TPath → List (Bool × Nat)
  | 0, _ => []
  | n + 1, paths =>
    match decideOldest paths with
    | some b => b :: decideAll n (dropOldest paths)
    | none => []

/-- The tentative decision: the newest bit of the best path. -/
def tentative (paths : List TPath) : Bool :=
  let best (b : Bool) : Option Rat := (paths.zipIdx.filter fun x => bitOf x.2 0 == b).foldl (fun m x => bestOf m x.1.metric) none
  match best false, best true with
  | some x, some y => decide (y < x)
  | none, some _ => true
  | _, none => false

/-! ### One bit (R228, steps 1 to 3) -/

/-- A sample enters, less the baseline (R228, step 1). -/
def Sig.enter (s : Sig) (x : Int) : Sig :=
  let y := Config.signalWord 0 ((x : Rat) / Config.sampleUnit - s.base)
  if s.win.length < 8 then { s with win := s.win ++ [y] } else { s with win := s.win.drop 1 ++ [y], place := s.place - 1 }

/-- One channel bit (R228): resampled, equalised and detected; then the baseline, the loop, the taps and the predictor follow the
decision. -/
def Sig.bit (s : Sig) (p : SigSet) (known : Option Bool) : Sig × Option (Bool × Nat) :=
  let phase := min 63 (64 * s.place).floor.toNat
  let y := Config.signalWord 1 (dot ((List.range 8).map (Config.interpTap phase)) s.win)
  let line := (y :: s.line).take 12
  let z := Config.signalWord 2 (dot s.taps line)
  let eq := (z :: s.eq).take 4
  let paths := (List.range 16).map (p.into eq s.pred known s.paths)
  let a := tentative paths
  let dec := (a :: s.dec).take 5
  let bit (i : Nat) : Bool := dec.getD i false
  let want := p.ideal a (bit 1) (bit 2)
  let off := z - want
  let timing := z * level (bit 1) - eq.getD 1 0 * level a
  let freq := s.freq.getD 0
  let noises := (List.range 3).map fun i => p.noise (eq.getD i 0) (bit i) (bit (i + 1)) (bit (i + 2))
  let s' : Sig := { s with
    base := Config.signalWord 3 (s.base + scaleDown (line.getD 6 0 - want) p.dc)
    place := Config.signalWord 4 (s.place + freq + scaleDown timing p.kp)
    freq := s.freq.map fun f => Config.signalWord 5 (f + scaleDown timing p.ki)
    taps := if p.freeze then s.taps else List.zipWith (fun c x => Config.signalWord 6 (c - scaleDown (signOf off * x) (8 + p.mu))) s.taps (line ++ List.replicate (12 - line.length) 0)
    line := line, eq := eq, dec := dec, pred := Config.predictNext s.pred noises, paths := paths }
  if (paths.getD 0 {}).alts.length ≤ Config.detectDelay then (s', none) else ({ s' with paths := dropOldest paths }, decideOldest paths)

/-- The path over a run of samples; `known` are the bits that are known, from the first bit on. The first argument bounds the bits and
samples taken. -/
def Sig.run (p : SigSet) : Nat → List Int → List (Option Bool) → Sig → Sig × List (Bool × Nat)
  | 0, _, _, s => (s, [])
  | n + 1, raw, known, s =>
    if s.win.length < 8 ∨ 1 ≤ s.place then
      match raw with
      | [] => (s, [])
      | x :: xs => Sig.run p n xs known (s.enter x)
    else
      let (s, b) := s.bit p (known.headD none)
      let (s, bs) := Sig.run p n raw known.tail s
      (s, b.toList ++ bs)

/-- Samples and bits that a run of `n` samples may take. -/
def runFuel (n : Nat) : Nat := 4 * n + 64

/-- The bits that the paths still hold. -/
def Sig.held (s : Sig) : Nat := (s.paths.getD 0 {}).alts.length

/-- The bits that the paths still hold are decided, and none is held. -/
def Sig.flush (s : Sig) : Sig × List (Bool × Nat) :=
  ({ s with paths := s.paths.map fun t => { t with alts := [] } }, decideAll s.held s.paths)

end Sys2Proof.Machine
end

