-- ==== Sys2Proof/Machine/Registers.lean ====
section
/-! DEFINITION. The register map of BAR0: every register of R480's table, with its base, stride and
instance count, and every field of the layout tables with its bits, access type, reset value and reset
domain (R4, R22, R480, R483 and the layout rule named beside each register). -/

namespace Sys2Proof

/-- The access types of R4. -/
inductive Access where
  | rw | ro | wo | w1c | rws | rwl
  deriving DecidableEq, Repr

/-- One field of a register layout table. `warm`: the field keeps its value across a warm reset (R4, R22,
R483); `cold`: it keeps it across a cold reset as well (the always-on RO fields of R483). -/
structure FieldInfo where
  lo : Nat
  width : Nat
  access : Access
  reset : Nat
  warm : Bool
  cold : Bool
  deriving DecidableEq, Repr

/-- Where a register group stands in BAR0 (R480): base offset, stride and instances. -/
structure RegInfo where
  base : Nat
  stride : Nat
  count : Nat
  deriving DecidableEq, Repr

/-- The registers of R480, one constructor for each register of a group; the number of an instance stands beside it. -/
inductive RegId where
  /-- ID_PART (R484). -/
  | idPart
  /-- ID_STEP (R484). -/
  | idStep
  /-- ID_SERIAL_LO (R484). -/
  | idSerialLo
  /-- ID_SERIAL_HI (R484). -/
  | idSerialHi
  /-- RTE_CONN_CFG (R30). -/
  | rteConnCfg
  /-- RTE_ECN_CFG (R30). -/
  | rteEcnCfg
  /-- RTE_BAD_CAPSULE_CNT (R30). -/
  | rteBadCapsuleCnt
  /-- RTE_OVR_CNT (R19). -/
  | rteOvrCnt
  /-- SCH_TICK_CFG (R79). -/
  | schTickCfg
  /-- SCH_CLASS_WT (R79). -/
  | schClassWt
  /-- SCH_GRANT_CFG (R79). -/
  | schGrantCfg
  /-- SCH_U_CAP_CNT (R79). -/
  | schUCapCnt
  /-- SCH_OVR_CNT (R19). -/
  | schOvrCnt
  /-- SES_CHUNK_CFG (R129). -/
  | sesChunkCfg
  /-- SES_OVR_CNT (R19). -/
  | sesOvrCnt
  /-- DRU_ROLE_LO (R129). -/
  | druRoleLo
  /-- DRU_ROLE_HI (R129). -/
  | druRoleHi
  /-- DRU_ERR_CNT (R129). -/
  | druErrCnt
  /-- DRU_ARB_CFG (R458). -/
  | druArbCfg
  /-- DRUi_OVR_CNT (R19). -/
  | druOvrCnt
  /-- CIP_KT_BASE_LO (R129). -/
  | cipKtBaseLo
  /-- CIP_KT_BASE_HI (R129). -/
  | cipKtBaseHi
  /-- CIP_KEK_W (R129). -/
  | cipKekW
  /-- CIP_KEK_CTL (R129). -/
  | cipKekCtl
  /-- CIP_KC_MISS_CNT (R129). -/
  | cipKcMissCnt
  /-- CIPu_OVR_CNT (R19). -/
  | cipOvrCnt
  /-- PKR_DS_CFG (R140). -/
  | pkrDsCfg
  /-- PKR_OVR_CNT (R19). -/
  | pkrOvrCnt
  /-- SPN_JRNL_CFG (R328). -/
  | spnJrnlCfg
  /-- SPN_PATROL_CFG (R328). -/
  | spnPatrolCfg
  /-- SPN_LOSS_CNT (R328). -/
  | spnLossCnt
  /-- SPN_SUSPECT_CNT (R328). -/
  | spnSuspectCnt
  /-- SPN_OVR_CNT (R19). -/
  | spnOvrCnt
  /-- SPN_SETs_CFG (R328). -/
  | spnSetCfg
  /-- SPN_SETs_STAT (R328). -/
  | spnSetStat
  /-- SPN_SETs_FAILED (R328). -/
  | spnSetFailed
  /-- SPN_SETs_ROW_LO (R328). -/
  | spnSetRowLo
  /-- SPN_SETs_ROW_HI (R328). -/
  | spnSetRowHi
  /-- SPN_SETs_CUR_LO (R328). -/
  | spnSetCurLo
  /-- SPN_SETs_CUR_HI (R328). -/
  | spnSetCurHi
  /-- SPN_SETs_PAT_LO (R328). -/
  | spnSetPatLo
  /-- SPN_SETs_PAT_HI (R328). -/
  | spnSetPatHi
  /-- ENC_VFY_CFG (R227). -/
  | encVfyCfg
  /-- ENC_OVR_CNT (R19). -/
  | encOvrCnt
  /-- TPn_LINK_CFG (R195). -/
  | tpLinkCfg
  /-- TPn_TOKEN (R195). -/
  | tpToken
  /-- TPn_TOKEN_EPOCH (R195). -/
  | tpTokenEpoch
  /-- TPn_LINK_STAT (R195). -/
  | tpLinkStat
  /-- TPn_LINK_ERR (R195). -/
  | tpLinkErr
  /-- TPn_SPD_CTL (R227). -/
  | tpSpdCtl
  /-- TPn_SPD_STAT (R227). -/
  | tpSpdStat
  /-- TPn_RETIRE_LO (R227). -/
  | tpRetireLo
  /-- TPn_RETIRE_HI (R227). -/
  | tpRetireHi
  /-- TPn_RET_CFG (R227). -/
  | tpRetCfg
  /-- TPn_BH_CFG (R227). -/
  | tpBhCfg
  /-- TPn_WR_STAT (R227). -/
  | tpWrStat
  /-- TPn_WR_CNT0 (R227). -/
  | tpWrCnt0
  /-- TPn_WR_CNT1 (R227). -/
  | tpWrCnt1
  /-- TPn_WR_CNT2 (R227). -/
  | tpWrCnt2
  /-- TPn_RD_CFG (R256). -/
  | tpRdCfg
  /-- TPn_RD_CNT0 (R256). -/
  | tpRdCnt0
  /-- TPn_RD_CNT1 (R256). -/
  | tpRdCnt1
  /-- TPn_ARB_CFG (R458). -/
  | tpArbCfg
  /-- TPn_OVR_CNT (R19). -/
  | tpOvrCnt
  /-- RDC_CTL (R256). -/
  | rdcCtl
  /-- RDC_TARGET (R256). -/
  | rdcTarget
  /-- RDC_RETRY_ORDER (R256). -/
  | rdcRetryOrder
  /-- RDC_OVR_CNT (R19). -/
  | rdcOvrCnt
  /-- RDC_PROFk_A (R256). -/
  | rdcProfA
  /-- RDC_PROFk_B (R256). -/
  | rdcProfB
  /-- RDC_CHc_SNR (R487). -/
  | rdcChSnr
  /-- RDC_CHc_BER (R487). -/
  | rdcChBer
  /-- DEC_CODE_CFG (R256). -/
  | decCodeCfg
  /-- DEC_RETRY_CFG (R256). -/
  | decRetryCfg
  /-- DEC_OVR_CNT (R19). -/
  | decOvrCnt
  /-- MOT_EVT_CFG (R294). -/
  | motEvtCfg
  /-- MOTn_CMD (R294). -/
  | motCmd
  /-- MOTn_STAT (R294). -/
  | motStat
  /-- MOTn_START_CFG (R294). -/
  | motStartCfg
  /-- MOTn_FORCE_CFG (R294). -/
  | motForceCfg
  /-- MOTn_ZC_CFG (R294). -/
  | motZcCfg
  /-- MOTn_RAMP_CFG (R294). -/
  | motRampCfg
  /-- MOTn_TENS_CFG (R294). -/
  | motTensCfg
  /-- MOTn_LIM_CFG (R294). -/
  | motLimCfg
  /-- MOTn_BUS_CFG (R294). -/
  | motBusCfg
  /-- MOTn_SPD_GAIN (R294). -/
  | motSpdGain
  /-- MOTn_TENS_GAIN (R294). -/
  | motTensGain
  /-- MOTn_INERTIA (R294). -/
  | motInertia
  /-- MOTn_DIR_CFG (R294). -/
  | motDirCfg
  /-- MOTn_LAT_CFG (R294). -/
  | motLatCfg
  /-- MOTn_SRV_CFG (R294). -/
  | motSrvCfg
  /-- MOTn_MEAS_V (R294). -/
  | motMeasV
  /-- MOTn_MEAS_R (R294). -/
  | motMeasR
  /-- MOTn_MEAS_T (R294). -/
  | motMeasT
  /-- MOTn_LAT_STAT (R294). -/
  | motLatStat
  /-- MOTn_AGE (R294). -/
  | motAge
  /-- MOTn_FRIC (R294). -/
  | motFric
  /-- MOTn_ERR_CNT (R294). -/
  | motErrCnt
  /-- MOTn_OVR_CNT (R19). -/
  | motOvrCnt
  /-- MEM_FILL_CFG (R349). -/
  | memFillCfg
  /-- MEM_FILL_STAT (R349). -/
  | memFillStat
  /-- MEM_SCRUB_CFG (R349). -/
  | memScrubCfg
  /-- MEM_SCRUB_POS_LO (R349). -/
  | memScrubPosLo
  /-- MEM_SCRUB_POS_HI (R349). -/
  | memScrubPosHi
  /-- MEM_SCRUB_STAT (R349). -/
  | memScrubStat
  /-- MEM_BKT_CFG (R349). -/
  | memBktCfg
  /-- MEM_ERR_CNT0 (R349). -/
  | memErrCnt0
  /-- MEM_ERR_CNT1 (R349). -/
  | memErrCnt1
  /-- MEM_LAST_ERR_LO (R349). -/
  | memLastErrLo
  /-- MEM_LAST_ERR_HI (R349). -/
  | memLastErrHi
  /-- MEM_MASH_STAT (R349). -/
  | memMashStat
  /-- MEM_BKTg_STAT (R349). -/
  | memBktStat
  /-- MEMi_OVR_CNT (R19). -/
  | memOvrCnt
  /-- POOL_ERR_CNT (R375). -/
  | poolErrCnt
  /-- POOL_OVR_CNT (R19). -/
  | poolOvrCnt
  /-- POOL_Pp_CFG (R375). -/
  | poolPCfg
  /-- POOL_Pp_STAT (R375). -/
  | poolPStat
  /-- POOL_Pp_FREE (R375). -/
  | poolPFree
  /-- POOL_RSVo_Pp (R375). -/
  | poolRsvP
  /-- POOL_HELDo_Pp (R375). -/
  | poolHeldP
  /-- QUE_QF_STAT (R375). -/
  | queQfStat
  /-- QUE_OVR_CNT (R19). -/
  | queOvrCnt
  /-- QUE_Qq_CFG (R375). -/
  | queQCfg
  /-- QUE_Qq_WM (R375). -/
  | queQWm
  /-- QUE_Qq_CTL (R375). -/
  | queQCtl
  /-- QUE_Qq_STAT (R375). -/
  | queQStat
  /-- QUE_Qq_CNT (R375). -/
  | queQCnt
  /-- CTL_OVR_CFG (R19). -/
  | ctlOvrCfg
  /-- CTL_BOOT_ADDR_LO (R398). -/
  | ctlBootAddrLo
  /-- CTL_BOOT_ADDR_HI (R398). -/
  | ctlBootAddrHi
  /-- CTL_BOOT_LEN (R398). -/
  | ctlBootLen
  /-- CTL_BOOT_CTL (R398). -/
  | ctlBootCtl
  /-- CTL_BOOT_STAT (R398). -/
  | ctlBootStat
  /-- CTL_FW_VER (R398). -/
  | ctlFwVer
  /-- CTL_SETUP_LOCK (R398). -/
  | ctlSetupLock
  /-- CTL_OVR_CNT (R19). -/
  | ctlOvrCnt
  /-- PCI_ERR_CNT (R398). -/
  | pciErrCnt
  /-- PCI_OVR_CNT (R19). -/
  | pciOvrCnt
  /-- PCI_RINGr_SQ_LO (R398). -/
  | pciRingSqLo
  /-- PCI_RINGr_SQ_HI (R398). -/
  | pciRingSqHi
  /-- PCI_RINGr_CQ_LO (R398). -/
  | pciRingCqLo
  /-- PCI_RINGr_CQ_HI (R398). -/
  | pciRingCqHi
  /-- PCI_RINGr_CAP_LO (R398). -/
  | pciRingCapLo
  /-- PCI_RINGr_CAP_HI (R398). -/
  | pciRingCapHi
  /-- PCI_RINGr_CFG (R398). -/
  | pciRingCfg
  /-- PCI_RINGr_IRQ (R398). -/
  | pciRingIrq
  /-- PCI_RINGr_STAT (R398). -/
  | pciRingStat
  /-- ETH_GRPg_CFG (R486). -/
  | ethGrpCfg
  /-- ETH_GRPg_STAT (R486). -/
  | ethGrpStat
  /-- ETHg_OVR_CNT (R19). -/
  | ethOvrCnt
  /-- ETH_PORTp_CFG (R486). -/
  | ethPortCfg
  /-- ETH_PORTp_STAT (R486). -/
  | ethPortStat
  /-- ETH_PORTp_MAC_LO (R486). -/
  | ethPortMacLo
  /-- ETH_PORTp_MAC_HI (R486). -/
  | ethPortMacHi
  /-- ETH_PORTp_IP4 (R486). -/
  | ethPortIp4
  /-- ETH_PORTp_IP6_0 (R486). -/
  | ethPortIp60
  /-- ETH_PORTp_IP6_1 (R486). -/
  | ethPortIp61
  /-- ETH_PORTp_IP6_2 (R486). -/
  | ethPortIp62
  /-- ETH_PORTp_IP6_3 (R486). -/
  | ethPortIp63
  /-- ETH_PORTp_FEC_CNT (R486). -/
  | ethPortFecCnt
  /-- FAB_CFG (R427). -/
  | fabCfg
  /-- FAB_TIME_STAT (R427). -/
  | fabTimeStat
  /-- FAB_TIME_OFS_LO (R427). -/
  | fabTimeOfsLo
  /-- FAB_TIME_OFS_HI (R427). -/
  | fabTimeOfsHi
  /-- FAB_PAIR_CFG (R427). -/
  | fabPairCfg
  /-- FAB_PAIR_STAT (R427). -/
  | fabPairStat
  /-- FAB_TUN_ETYPE (R427). -/
  | fabTunEtype
  /-- FAB_OVR_CNT (R19). -/
  | fabOvrCnt
  /-- FABn_CFG (R427). -/
  | fabPortCfg
  /-- FABn_STAT (R427). -/
  | fabPortStat
  /-- FABn_ERR (R427). -/
  | fabPortErr
  /-- FAB_SVCj_CFG (R427). -/
  | fabSvcCfg
  /-- FAB_SVCj_IP0 (R427). -/
  | fabSvcIp0
  /-- FAB_SVCj_IP1 (R427). -/
  | fabSvcIp1
  /-- FAB_SVCj_IP2 (R427). -/
  | fabSvcIp2
  /-- FAB_SVCj_IP3 (R427). -/
  | fabSvcIp3
  /-- FAB_SVCj_MAC_LO (R427). -/
  | fabSvcMacLo
  /-- FAB_SVCj_MAC_HI (R427). -/
  | fabSvcMacHi
  /-- FAB_TUNj_CFG (R427). -/
  | fabTunCfg
  /-- FAB_TUNj_MAC_LO (R427). -/
  | fabTunMacLo
  /-- FAB_TUNj_MAC_HI (R427). -/
  | fabTunMacHi
  /-- HLT_TICK_LO (R9). -/
  | hltTickLo
  /-- HLT_TICK_HI (R9). -/
  | hltTickHi
  /-- HLT_CELLAR_STAT (R448). -/
  | hltCellarStat
  /-- HLT_CELLAR_ERR (R448). -/
  | hltCellarErr
  /-- HLT_BOOT_CNT (R448). -/
  | hltBootCnt
  /-- HLT_AGE_CFG (R448). -/
  | hltAgeCfg
  /-- HLT_AGE_THR0 (R448). -/
  | hltAgeThr0
  /-- HLT_AGE_THR1 (R448). -/
  | hltAgeThr1
  /-- HLT_AVS_STAT (R448). -/
  | hltAvsStat
  /-- HLT_TEST_STAT (R448). -/
  | hltTestStat
  /-- HLT_SB_CFG (R448). -/
  | hltSbCfg
  /-- HLT_SB_STAT (R448). -/
  | hltSbStat
  /-- HLT_PWR_STAT (R478). -/
  | hltPwrStat
  /-- HLT_RESET_STAT (R478). -/
  | hltResetStat
  /-- HLT_PF_CFG (R478). -/
  | hltPfCfg
  /-- HLT_THERM_STAT (R478). -/
  | hltThermStat
  /-- HLT_THERM_CFG (R478). -/
  | hltThermCfg
  /-- HLT_OVR_CNT (R19). -/
  | hltOvrCnt
  /-- HLT_WEARw_STAT (R487). -/
  | hltWearStat
  /-- HLT_LANEl_EYE (R487). -/
  | hltLaneEye
  deriving DecidableEq, Repr

/-- Base, stride and instances of each register (R480). The owner and pool registers of POOL take instance 8 × o + p. -/
def RegId.info : RegId → RegInfo
  | .idPart => ⟨0x00000000, 0x0, 1⟩
  | .idStep => ⟨0x00000004, 0x0, 1⟩
  | .idSerialLo => ⟨0x00000008, 0x0, 1⟩
  | .idSerialHi => ⟨0x0000000C, 0x0, 1⟩
  | .rteConnCfg => ⟨0x00100000, 0x0, 1⟩
  | .rteEcnCfg => ⟨0x00100004, 0x0, 1⟩
  | .rteBadCapsuleCnt => ⟨0x00100008, 0x0, 1⟩
  | .rteOvrCnt => ⟨0x0010000C, 0x0, 1⟩
  | .schTickCfg => ⟨0x00200000, 0x0, 1⟩
  | .schClassWt => ⟨0x00200004, 0x0, 1⟩
  | .schGrantCfg => ⟨0x00200008, 0x0, 1⟩
  | .schUCapCnt => ⟨0x0020000C, 0x0, 1⟩
  | .schOvrCnt => ⟨0x00200010, 0x0, 1⟩
  | .sesChunkCfg => ⟨0x00300000, 0x0, 1⟩
  | .sesOvrCnt => ⟨0x00300004, 0x0, 1⟩
  | .druRoleLo => ⟨0x00400000, 0x0, 1⟩
  | .druRoleHi => ⟨0x00400004, 0x0, 1⟩
  | .druErrCnt => ⟨0x00400008, 0x0, 1⟩
  | .druArbCfg => ⟨0x0040000C, 0x0, 1⟩
  | .druOvrCnt => ⟨0x00401000, 0x4, 48⟩
  | .cipKtBaseLo => ⟨0x00500000, 0x0, 1⟩
  | .cipKtBaseHi => ⟨0x00500004, 0x0, 1⟩
  | .cipKekW => ⟨0x00500008, 0x4, 8⟩
  | .cipKekCtl => ⟨0x00500028, 0x0, 1⟩
  | .cipKcMissCnt => ⟨0x0050002C, 0x0, 1⟩
  | .cipOvrCnt => ⟨0x00501000, 0x4, 16⟩
  | .pkrDsCfg => ⟨0x00600000, 0x0, 1⟩
  | .pkrOvrCnt => ⟨0x00600004, 0x0, 1⟩
  | .spnJrnlCfg => ⟨0x00700000, 0x0, 1⟩
  | .spnPatrolCfg => ⟨0x00700004, 0x0, 1⟩
  | .spnLossCnt => ⟨0x00700008, 0x0, 1⟩
  | .spnSuspectCnt => ⟨0x0070000C, 0x0, 1⟩
  | .spnOvrCnt => ⟨0x00700010, 0x0, 1⟩
  | .spnSetCfg => ⟨0x00701000, 0x40, 16⟩
  | .spnSetStat => ⟨0x00701004, 0x40, 16⟩
  | .spnSetFailed => ⟨0x00701008, 0x40, 16⟩
  | .spnSetRowLo => ⟨0x0070100C, 0x40, 16⟩
  | .spnSetRowHi => ⟨0x00701010, 0x40, 16⟩
  | .spnSetCurLo => ⟨0x00701014, 0x40, 16⟩
  | .spnSetCurHi => ⟨0x00701018, 0x40, 16⟩
  | .spnSetPatLo => ⟨0x0070101C, 0x40, 16⟩
  | .spnSetPatHi => ⟨0x00701020, 0x40, 16⟩
  | .encVfyCfg => ⟨0x00800000, 0x0, 1⟩
  | .encOvrCnt => ⟨0x00800004, 0x0, 1⟩
  | .tpLinkCfg => ⟨0x00900000, 0x100, 8⟩
  | .tpToken => ⟨0x00900004, 0x100, 8⟩
  | .tpTokenEpoch => ⟨0x00900008, 0x100, 8⟩
  | .tpLinkStat => ⟨0x0090000C, 0x100, 8⟩
  | .tpLinkErr => ⟨0x00900010, 0x100, 8⟩
  | .tpSpdCtl => ⟨0x00900014, 0x100, 8⟩
  | .tpSpdStat => ⟨0x00900018, 0x100, 8⟩
  | .tpRetireLo => ⟨0x0090001C, 0x100, 8⟩
  | .tpRetireHi => ⟨0x00900020, 0x100, 8⟩
  | .tpRetCfg => ⟨0x00900024, 0x100, 8⟩
  | .tpBhCfg => ⟨0x00900028, 0x100, 8⟩
  | .tpWrStat => ⟨0x0090002C, 0x100, 8⟩
  | .tpWrCnt0 => ⟨0x00900030, 0x100, 8⟩
  | .tpWrCnt1 => ⟨0x00900034, 0x100, 8⟩
  | .tpWrCnt2 => ⟨0x00900038, 0x100, 8⟩
  | .tpRdCfg => ⟨0x0090003C, 0x100, 8⟩
  | .tpRdCnt0 => ⟨0x00900040, 0x100, 8⟩
  | .tpRdCnt1 => ⟨0x00900044, 0x100, 8⟩
  | .tpArbCfg => ⟨0x00900048, 0x100, 8⟩
  | .tpOvrCnt => ⟨0x0090004C, 0x100, 8⟩
  | .rdcCtl => ⟨0x00A00000, 0x0, 1⟩
  | .rdcTarget => ⟨0x00A00004, 0x0, 1⟩
  | .rdcRetryOrder => ⟨0x00A00008, 0x0, 1⟩
  | .rdcOvrCnt => ⟨0x00A0000C, 0x0, 1⟩
  | .rdcProfA => ⟨0x00A01000, 0x8, 8⟩
  | .rdcProfB => ⟨0x00A01004, 0x8, 8⟩
  | .rdcChSnr => ⟨0x00A02000, 0x8, 512⟩
  | .rdcChBer => ⟨0x00A02004, 0x8, 512⟩
  | .decCodeCfg => ⟨0x00B00000, 0x0, 1⟩
  | .decRetryCfg => ⟨0x00B00004, 0x0, 1⟩
  | .decOvrCnt => ⟨0x00B00008, 0x0, 1⟩
  | .motEvtCfg => ⟨0x00C00000, 0x0, 1⟩
  | .motCmd => ⟨0x00C01000, 0x100, 8⟩
  | .motStat => ⟨0x00C01004, 0x100, 8⟩
  | .motStartCfg => ⟨0x00C01008, 0x100, 8⟩
  | .motForceCfg => ⟨0x00C0100C, 0x100, 8⟩
  | .motZcCfg => ⟨0x00C01010, 0x100, 8⟩
  | .motRampCfg => ⟨0x00C01014, 0x100, 8⟩
  | .motTensCfg => ⟨0x00C01018, 0x100, 8⟩
  | .motLimCfg => ⟨0x00C0101C, 0x100, 8⟩
  | .motBusCfg => ⟨0x00C01020, 0x100, 8⟩
  | .motSpdGain => ⟨0x00C01024, 0x100, 8⟩
  | .motTensGain => ⟨0x00C01028, 0x100, 8⟩
  | .motInertia => ⟨0x00C0102C, 0x100, 8⟩
  | .motDirCfg => ⟨0x00C01030, 0x100, 8⟩
  | .motLatCfg => ⟨0x00C01034, 0x100, 8⟩
  | .motSrvCfg => ⟨0x00C01038, 0x100, 8⟩
  | .motMeasV => ⟨0x00C0103C, 0x100, 8⟩
  | .motMeasR => ⟨0x00C01040, 0x100, 8⟩
  | .motMeasT => ⟨0x00C01044, 0x100, 8⟩
  | .motLatStat => ⟨0x00C01048, 0x100, 8⟩
  | .motAge => ⟨0x00C0104C, 0x100, 8⟩
  | .motFric => ⟨0x00C01050, 0x100, 8⟩
  | .motErrCnt => ⟨0x00C01054, 0x100, 8⟩
  | .motOvrCnt => ⟨0x00C01058, 0x100, 8⟩
  | .memFillCfg => ⟨0x00D00000, 0x0, 1⟩
  | .memFillStat => ⟨0x00D00004, 0x0, 1⟩
  | .memScrubCfg => ⟨0x00D00008, 0x0, 1⟩
  | .memScrubPosLo => ⟨0x00D0000C, 0x0, 1⟩
  | .memScrubPosHi => ⟨0x00D00010, 0x0, 1⟩
  | .memScrubStat => ⟨0x00D00014, 0x0, 1⟩
  | .memBktCfg => ⟨0x00D00018, 0x0, 1⟩
  | .memErrCnt0 => ⟨0x00D0001C, 0x0, 1⟩
  | .memErrCnt1 => ⟨0x00D00020, 0x0, 1⟩
  | .memLastErrLo => ⟨0x00D00024, 0x0, 1⟩
  | .memLastErrHi => ⟨0x00D00028, 0x0, 1⟩
  | .memMashStat => ⟨0x00D0002C, 0x0, 1⟩
  | .memBktStat => ⟨0x00D01000, 0x4, 32⟩
  | .memOvrCnt => ⟨0x00D02000, 0x4, 2⟩
  | .poolErrCnt => ⟨0x00E00000, 0x0, 1⟩
  | .poolOvrCnt => ⟨0x00E00004, 0x0, 1⟩
  | .poolPCfg => ⟨0x00E01000, 0x10, 5⟩
  | .poolPStat => ⟨0x00E01004, 0x10, 5⟩
  | .poolPFree => ⟨0x00E01008, 0x10, 5⟩
  | .poolRsvP => ⟨0x00E02000, 0x8, 256⟩
  | .poolHeldP => ⟨0x00E02004, 0x8, 256⟩
  | .queQfStat => ⟨0x00F00000, 0x0, 1⟩
  | .queOvrCnt => ⟨0x00F00004, 0x0, 1⟩
  | .queQCfg => ⟨0x00F01000, 0x20, 256⟩
  | .queQWm => ⟨0x00F01004, 0x20, 256⟩
  | .queQCtl => ⟨0x00F01008, 0x20, 256⟩
  | .queQStat => ⟨0x00F0100C, 0x20, 256⟩
  | .queQCnt => ⟨0x00F01010, 0x20, 256⟩
  | .ctlOvrCfg => ⟨0x01000000, 0x0, 1⟩
  | .ctlBootAddrLo => ⟨0x01000004, 0x0, 1⟩
  | .ctlBootAddrHi => ⟨0x01000008, 0x0, 1⟩
  | .ctlBootLen => ⟨0x0100000C, 0x0, 1⟩
  | .ctlBootCtl => ⟨0x01000010, 0x0, 1⟩
  | .ctlBootStat => ⟨0x01000014, 0x0, 1⟩
  | .ctlFwVer => ⟨0x01000018, 0x0, 1⟩
  | .ctlSetupLock => ⟨0x0100001C, 0x0, 1⟩
  | .ctlOvrCnt => ⟨0x01000020, 0x0, 1⟩
  | .pciErrCnt => ⟨0x01100000, 0x0, 1⟩
  | .pciOvrCnt => ⟨0x01100004, 0x0, 1⟩
  | .pciRingSqLo => ⟨0x01101000, 0x40, 256⟩
  | .pciRingSqHi => ⟨0x01101004, 0x40, 256⟩
  | .pciRingCqLo => ⟨0x01101008, 0x40, 256⟩
  | .pciRingCqHi => ⟨0x0110100C, 0x40, 256⟩
  | .pciRingCapLo => ⟨0x01101010, 0x40, 256⟩
  | .pciRingCapHi => ⟨0x01101014, 0x40, 256⟩
  | .pciRingCfg => ⟨0x01101018, 0x40, 256⟩
  | .pciRingIrq => ⟨0x0110101C, 0x40, 256⟩
  | .pciRingStat => ⟨0x01101020, 0x40, 256⟩
  | .ethGrpCfg => ⟨0x01200000, 0x10, 4⟩
  | .ethGrpStat => ⟨0x01200004, 0x10, 4⟩
  | .ethOvrCnt => ⟨0x01200008, 0x10, 4⟩
  | .ethPortCfg => ⟨0x01201000, 0x40, 16⟩
  | .ethPortStat => ⟨0x01201004, 0x40, 16⟩
  | .ethPortMacLo => ⟨0x01201008, 0x40, 16⟩
  | .ethPortMacHi => ⟨0x0120100C, 0x40, 16⟩
  | .ethPortIp4 => ⟨0x01201010, 0x40, 16⟩
  | .ethPortIp60 => ⟨0x01201014, 0x40, 16⟩
  | .ethPortIp61 => ⟨0x01201018, 0x40, 16⟩
  | .ethPortIp62 => ⟨0x0120101C, 0x40, 16⟩
  | .ethPortIp63 => ⟨0x01201020, 0x40, 16⟩
  | .ethPortFecCnt => ⟨0x01201024, 0x40, 16⟩
  | .fabCfg => ⟨0x01300000, 0x0, 1⟩
  | .fabTimeStat => ⟨0x01300004, 0x0, 1⟩
  | .fabTimeOfsLo => ⟨0x01300008, 0x0, 1⟩
  | .fabTimeOfsHi => ⟨0x0130000C, 0x0, 1⟩
  | .fabPairCfg => ⟨0x01300010, 0x0, 1⟩
  | .fabPairStat => ⟨0x01300014, 0x0, 1⟩
  | .fabTunEtype => ⟨0x01300018, 0x0, 1⟩
  | .fabOvrCnt => ⟨0x0130001C, 0x0, 1⟩
  | .fabPortCfg => ⟨0x01301000, 0x10, 8⟩
  | .fabPortStat => ⟨0x01301004, 0x10, 8⟩
  | .fabPortErr => ⟨0x01301008, 0x10, 8⟩
  | .fabSvcCfg => ⟨0x01302000, 0x20, 16⟩
  | .fabSvcIp0 => ⟨0x01302004, 0x20, 16⟩
  | .fabSvcIp1 => ⟨0x01302008, 0x20, 16⟩
  | .fabSvcIp2 => ⟨0x0130200C, 0x20, 16⟩
  | .fabSvcIp3 => ⟨0x01302010, 0x20, 16⟩
  | .fabSvcMacLo => ⟨0x01302014, 0x20, 16⟩
  | .fabSvcMacHi => ⟨0x01302018, 0x20, 16⟩
  | .fabTunCfg => ⟨0x01303000, 0x10, 4⟩
  | .fabTunMacLo => ⟨0x01303004, 0x10, 4⟩
  | .fabTunMacHi => ⟨0x01303008, 0x10, 4⟩
  | .hltTickLo => ⟨0x01400000, 0x0, 1⟩
  | .hltTickHi => ⟨0x01400004, 0x0, 1⟩
  | .hltCellarStat => ⟨0x01400008, 0x0, 1⟩
  | .hltCellarErr => ⟨0x0140000C, 0x0, 1⟩
  | .hltBootCnt => ⟨0x01400010, 0x0, 1⟩
  | .hltAgeCfg => ⟨0x01400014, 0x0, 1⟩
  | .hltAgeThr0 => ⟨0x01400018, 0x0, 1⟩
  | .hltAgeThr1 => ⟨0x0140001C, 0x0, 1⟩
  | .hltAvsStat => ⟨0x01400020, 0x0, 1⟩
  | .hltTestStat => ⟨0x01400024, 0x0, 1⟩
  | .hltSbCfg => ⟨0x01400028, 0x0, 1⟩
  | .hltSbStat => ⟨0x0140002C, 0x0, 1⟩
  | .hltPwrStat => ⟨0x01400030, 0x0, 1⟩
  | .hltResetStat => ⟨0x01400034, 0x0, 1⟩
  | .hltPfCfg => ⟨0x01400038, 0x0, 1⟩
  | .hltThermStat => ⟨0x0140003C, 0x0, 1⟩
  | .hltThermCfg => ⟨0x01400040, 0x0, 1⟩
  | .hltOvrCnt => ⟨0x01400044, 0x0, 1⟩
  | .hltWearStat => ⟨0x01401000, 0x4, 96⟩
  | .hltLaneEye => ⟨0x01402000, 0x4, 88⟩

/-- The fields of each register, least significant first, reserved fields included (the layout tables). -/
def RegId.fields : RegId → List FieldInfo
  | .idPart => [⟨0, 16, .ro, 0x8064, true, true⟩,
      ⟨16, 11, .ro, 0x537, true, true⟩,
      ⟨27, 5, .ro, 0x00, true, true⟩]
  | .idStep => [⟨0, 8, .ro, 0xA1, true, true⟩,
      ⟨8, 24, .ro, 0x000000, true, true⟩]
  | .idSerialLo => [⟨0, 32, .ro, (Config.serial.toNat % 4294967296), true, true⟩]
  | .idSerialHi => [⟨0, 32, .ro, (Config.serial.toNat / 4294967296), true, true⟩]
  | .rteConnCfg => [⟨0, 13, .rwl, 0x0100, true, false⟩,
      ⟨13, 3, .ro, 0x0, false, false⟩,
      ⟨16, 4, .rw, 0x4, false, false⟩,
      ⟨20, 4, .ro, 0x0, false, false⟩,
      ⟨24, 5, .rw, 0x01, false, false⟩,
      ⟨29, 3, .ro, 0x0, false, false⟩]
  | .rteEcnCfg => [⟨0, 3, .rw, 0x1, false, false⟩,
      ⟨3, 1, .ro, 0x0, false, false⟩,
      ⟨4, 8, .rw, 0x32, false, false⟩,
      ⟨12, 4, .rw, 0x2, false, false⟩,
      ⟨16, 8, .rw, 0x05, false, false⟩,
      ⟨24, 5, .rw, 0x03, false, false⟩,
      ⟨29, 3, .ro, 0x0, false, false⟩]
  | .rteBadCapsuleCnt => [⟨0, 32, .ro, 0x00000000, true, false⟩]
  | .rteOvrCnt => [⟨0, 32, .ro, 0x00000000, true, false⟩]
  | .schTickCfg => [⟨0, 12, .rw, 0x0A0, false, false⟩,
      ⟨12, 4, .ro, 0x0, false, false⟩,
      ⟨16, 8, .rw, 0x10, false, false⟩,
      ⟨24, 8, .ro, 0x00, false, false⟩]
  | .schClassWt => [⟨0, 8, .rw, 0x40, false, false⟩,
      ⟨8, 8, .rw, 0x20, false, false⟩,
      ⟨16, 8, .rw, 0x10, false, false⟩,
      ⟨24, 8, .rw, 0x08, false, false⟩]
  | .schGrantCfg => [⟨0, 20, .rw, 0x0C350, false, false⟩,
      ⟨20, 12, .rw, 0x1F4, false, false⟩]
  | .schUCapCnt => [⟨0, 32, .ro, 0x00000000, false, false⟩]
  | .schOvrCnt => [⟨0, 32, .ro, 0x00000000, true, false⟩]
  | .sesChunkCfg => [⟨0, 16, .rw, 0x0032, false, false⟩,
      ⟨16, 16, .rw, 0x09C4, false, false⟩]
  | .sesOvrCnt => [⟨0, 32, .ro, 0x00000000, true, false⟩]
  | .druRoleLo => [⟨0, 32, .rw, 0x03FFFFFF, false, false⟩]
  | .druRoleHi => [⟨0, 16, .rw, 0x0000, false, false⟩,
      ⟨16, 16, .ro, 0x0000, false, false⟩]
  | .druErrCnt => [⟨0, 8, .ro, 0x00, true, false⟩,
      ⟨8, 8, .ro, 0x00, true, false⟩,
      ⟨16, 8, .ro, 0x00, true, false⟩,
      ⟨24, 8, .ro, 0x00, true, false⟩]
  | .druArbCfg => [⟨0, 1, .rw, 0x1, false, false⟩,
      ⟨1, 31, .ro, 0x00000000, false, false⟩]
  | .druOvrCnt => [⟨0, 32, .ro, 0x00000000, true, false⟩]
  | .cipKtBaseLo => [⟨0, 6, .ro, 0x00, false, false⟩,
      ⟨6, 26, .rwl, 0x0000000, true, false⟩]
  | .cipKtBaseHi => [⟨0, 32, .rwl, 0x00000000, true, false⟩]
  | .cipKekW => [⟨0, 32, .wo, 0x00000000, false, false⟩]
  | .cipKekCtl => [⟨0, 1, .wo, 0x0, false, false⟩,
      ⟨1, 1, .ro, 0x0, false, false⟩,
      ⟨2, 30, .ro, 0x00000000, false, false⟩]
  | .cipKcMissCnt => [⟨0, 32, .ro, 0x00000000, true, false⟩]
  | .cipOvrCnt => [⟨0, 32, .ro, 0x00000000, true, false⟩]
  | .pkrDsCfg => [⟨0, 20, .rw, 0x0C350, false, false⟩,
      ⟨20, 12, .ro, 0x000, false, false⟩]
  | .pkrOvrCnt => [⟨0, 32, .ro, 0x00000000, true, false⟩]
  | .spnJrnlCfg => [⟨0, 20, .rw, 0x0C350, false, false⟩,
      ⟨20, 12, .ro, 0x000, false, false⟩]
  | .spnPatrolCfg => [⟨0, 16, .rw, 0x01F4, false, false⟩,
      ⟨16, 1, .rw, 0x0, false, false⟩,
      ⟨17, 15, .ro, 0x0000, false, false⟩]
  | .spnLossCnt => [⟨0, 32, .ro, 0x00000000, true, false⟩]
  | .spnSuspectCnt => [⟨0, 32, .ro, 0x00000000, true, false⟩]
  | .spnOvrCnt => [⟨0, 32, .ro, 0x00000000, true, false⟩]
  | .spnSetCfg => [⟨0, 19, .rw, 0x030D4, false, false⟩,
      ⟨19, 1, .rw, 0x0, false, false⟩,
      ⟨20, 12, .ro, 0x000, false, false⟩]
  | .spnSetStat => [⟨0, 3, .ro, 0x0, false, false⟩,
      ⟨3, 3, .ro, 0x0, false, false⟩,
      ⟨6, 2, .ro, 0x0, false, false⟩,
      ⟨8, 24, .ro, 0x000000, false, false⟩]
  | .spnSetFailed => [⟨0, 32, .ro, 0x00000000, false, false⟩]
  | .spnSetRowLo => [⟨0, 32, .ro, 0x00000000, false, false⟩]
  | .spnSetRowHi => [⟨0, 16, .ro, 0x0000, false, false⟩,
      ⟨16, 16, .ro, 0x0000, false, false⟩]
  | .spnSetCurLo => [⟨0, 32, .ro, 0xFFFFFFFF, false, false⟩]
  | .spnSetCurHi => [⟨0, 16, .ro, 0xFFFF, false, false⟩,
      ⟨16, 16, .ro, 0x0000, false, false⟩]
  | .spnSetPatLo => [⟨0, 32, .ro, 0x00000000, false, false⟩]
  | .spnSetPatHi => [⟨0, 16, .ro, 0x0000, false, false⟩,
      ⟨16, 16, .ro, 0x0000, false, false⟩]
  | .encVfyCfg => [⟨0, 4, .rw, 0x3, false, false⟩,
      ⟨4, 4, .rw, 0x4, false, false⟩,
      ⟨8, 24, .ro, 0x000000, false, false⟩]
  | .encOvrCnt => [⟨0, 32, .ro, 0x00000000, true, false⟩]
  | .tpLinkCfg => [⟨0, 1, .rw, 0x0, false, false⟩,
      ⟨1, 4, .rw, 0xA, false, false⟩,
      ⟨5, 1, .rw, 0x0, false, false⟩,
      ⟨6, 26, .ro, 0x0000000, false, false⟩]
  | .tpToken => [⟨0, 1, .rw, 0x0, false, false⟩,
      ⟨1, 31, .ro, 0x00000000, false, false⟩]
  | .tpTokenEpoch => [⟨0, 32, .rws, 0x00000000, true, false⟩]
  | .tpLinkStat => [⟨0, 1, .ro, 0x0, false, false⟩,
      ⟨1, 1, .ro, 0x0, false, false⟩,
      ⟨2, 1, .ro, 0x0, false, false⟩,
      ⟨3, 1, .ro, 0x0, false, false⟩,
      ⟨4, 1, .ro, 0x0, false, false⟩,
      ⟨5, 1, .ro, 0x0, false, false⟩,
      ⟨6, 1, .ro, 0x0, false, false⟩,
      ⟨7, 9, .ro, 0x000, false, false⟩,
      ⟨16, 16, .ro, 0x0000, false, false⟩]
  | .tpLinkErr => [⟨0, 8, .ro, 0x00, true, false⟩,
      ⟨8, 8, .ro, 0x00, true, false⟩,
      ⟨16, 8, .ro, 0x00, true, false⟩,
      ⟨24, 8, .ro, 0x00, true, false⟩]
  | .tpSpdCtl => [⟨0, 1, .rw, 0x1, false, false⟩,
      ⟨1, 5, .rw, 0x00, false, false⟩,
      ⟨6, 5, .rw, 0x1C, false, false⟩,
      ⟨11, 5, .ro, 0x00, false, false⟩,
      ⟨16, 16, .rw, 0x09C4, false, false⟩]
  | .tpSpdStat => [⟨0, 5, .ro, 0x00, false, false⟩,
      ⟨5, 5, .ro, 0x00, false, false⟩,
      ⟨10, 1, .ro, 0x0, false, false⟩,
      ⟨11, 1, .ro, 0x0, false, false⟩,
      ⟨12, 1, .ro, 0x0, false, false⟩,
      ⟨13, 3, .ro, 0x0, false, false⟩,
      ⟨16, 7, .ro, 0x00, false, false⟩,
      ⟨23, 9, .ro, 0x000, false, false⟩]
  | .tpRetireLo => [⟨0, 32, .rws, 0x00000000, true, false⟩]
  | .tpRetireHi => [⟨0, 32, .rws, 0x00000000, true, false⟩]
  | .tpRetCfg => [⟨0, 8, .rw, 0x20, false, false⟩,
      ⟨8, 4, .rw, 0x3, false, false⟩,
      ⟨12, 1, .rw, 0x1, false, false⟩,
      ⟨13, 19, .ro, 0x00000, false, false⟩]
  | .tpBhCfg => [⟨0, 8, .rw, 0x10, false, false⟩,
      ⟨8, 24, .ro, 0x000000, false, false⟩]
  | .tpWrStat => [⟨0, 1, .rws, 0x0, true, false⟩,
      ⟨1, 4, .ro, 0x0, false, false⟩,
      ⟨5, 27, .ro, 0x0000000, false, false⟩]
  | .tpWrCnt0 => [⟨0, 32, .ro, 0x00000000, true, false⟩]
  | .tpWrCnt1 => [⟨0, 16, .ro, 0x0000, true, false⟩,
      ⟨16, 16, .ro, 0x0000, true, false⟩]
  | .tpWrCnt2 => [⟨0, 16, .ro, 0x0000, true, false⟩,
      ⟨16, 12, .ro, 0x000, true, false⟩,
      ⟨28, 4, .ro, 0x0, true, false⟩]
  | .tpRdCfg => [⟨0, 5, .rw, 0x1C, false, false⟩,
      ⟨5, 3, .ro, 0x0, false, false⟩,
      ⟨8, 4, .rw, 0x4, false, false⟩,
      ⟨12, 20, .ro, 0x00000, false, false⟩]
  | .tpRdCnt0 => [⟨0, 32, .ro, 0x00000000, true, false⟩]
  | .tpRdCnt1 => [⟨0, 16, .ro, 0x0000, true, false⟩,
      ⟨16, 16, .ro, 0x0000, true, false⟩]
  | .tpArbCfg => [⟨0, 20, .rw, 0x0C350, false, false⟩,
      ⟨20, 12, .rw, 0x0C4, false, false⟩]
  | .tpOvrCnt => [⟨0, 32, .ro, 0x00000000, true, false⟩]
  | .rdcCtl => [⟨0, 4, .rw, 0x6, false, false⟩,
      ⟨4, 4, .rw, 0x4, false, false⟩,
      ⟨8, 24, .ro, 0x000000, false, false⟩]
  | .rdcTarget => [⟨0, 8, .rw, 0x20, false, false⟩,
      ⟨8, 8, .rw, 0xE0, false, false⟩,
      ⟨16, 16, .ro, 0x0000, false, false⟩]
  | .rdcRetryOrder => [⟨0, 24, .rw, 0xFAC688, false, false⟩,
      ⟨24, 8, .ro, 0x00, false, false⟩]
  | .rdcOvrCnt => [⟨0, 32, .ro, 0x00000000, true, false⟩]
  | .rdcProfA => [⟨0, 4, .rw, 0, false, false⟩,
      ⟨4, 1, .rw, 0, false, false⟩,
      ⟨5, 3, .ro, 0x0, false, false⟩,
      ⟨8, 4, .rw, 0, false, false⟩,
      ⟨12, 4, .rw, 0, false, false⟩,
      ⟨16, 5, .rw, 0, false, false⟩,
      ⟨21, 3, .ro, 0x0, false, false⟩,
      ⟨24, 3, .rw, 0, false, false⟩,
      ⟨27, 5, .ro, 0x00, false, false⟩]
  | .rdcProfB => [⟨0, 8, .rw, 0, false, false⟩,
      ⟨8, 5, .rw, 0, false, false⟩,
      ⟨13, 19, .ro, 0x00000, false, false⟩]
  | .rdcChSnr => [⟨0, 8, .ro, 0x00, false, false⟩,
      ⟨8, 8, .ro, 0x00, false, false⟩,
      ⟨16, 16, .ro, 0x0000, false, false⟩]
  | .rdcChBer => [⟨0, 32, .ro, 0x00000000, false, false⟩]
  | .decCodeCfg => [⟨0, 4, .rw, 0x6, false, false⟩,
      ⟨4, 4, .rw, 0x6, false, false⟩,
      ⟨8, 24, .ro, 0x000000, false, false⟩]
  | .decRetryCfg => [⟨0, 4, .rw, 0x2, false, false⟩,
      ⟨4, 28, .ro, 0x0000000, false, false⟩]
  | .decOvrCnt => [⟨0, 32, .ro, 0x00000000, true, false⟩]
  | .motEvtCfg => [⟨0, 8, .rwl, 0xFF, true, false⟩,
      ⟨8, 8, .rwl, 0xFF, true, false⟩,
      ⟨16, 8, .rw, 0x00, false, false⟩,
      ⟨24, 8, .ro, 0x00, false, false⟩]
  | .motCmd => [⟨0, 3, .wo, 0x0, false, false⟩,
      ⟨3, 1, .wo, 0x0, false, false⟩,
      ⟨4, 28, .ro, 0x0000000, false, false⟩]
  | .motStat => [⟨0, 4, .ro, 0x0, false, false⟩,
      ⟨4, 1, .ro, 0x0, false, false⟩,
      ⟨5, 1, .ro, 0x0, false, false⟩,
      ⟨6, 1, .ro, 0x0, false, false⟩,
      ⟨7, 1, .ro, 0x0, false, false⟩,
      ⟨8, 1, .ro, 0x0, false, false⟩,
      ⟨9, 1, .ro, 0x0, false, false⟩,
      ⟨10, 22, .ro, 0x000000, false, false⟩]
  | .motStartCfg => [⟨0, 16, .rw, 0x09C4, false, false⟩,
      ⟨16, 10, .rw, 0x080, false, false⟩,
      ⟨26, 6, .ro, 0x00, false, false⟩]
  | .motForceCfg => [⟨0, 12, .rw, 0x7D0, false, false⟩,
      ⟨12, 12, .rw, 0x190, false, false⟩,
      ⟨24, 4, .rw, 0x6, false, false⟩,
      ⟨28, 4, .rw, 0x6, false, false⟩]
  | .motZcCfg => [⟨0, 10, .rw, 0x0C8, false, false⟩,
      ⟨10, 6, .rw, 0x10, false, false⟩,
      ⟨16, 4, .rw, 0x2, false, false⟩,
      ⟨20, 8, .rw, 0x06, false, false⟩,
      ⟨28, 4, .rw, 0x3, false, false⟩]
  | .motRampCfg => [⟨0, 8, .rw, 0x50, false, false⟩,
      ⟨8, 8, .rw, 0xC8, false, false⟩,
      ⟨16, 8, .rw, 0x14, false, false⟩,
      ⟨24, 6, .rw, 0x28, false, false⟩,
      ⟨30, 2, .ro, 0x0, false, false⟩]
  | .motTensCfg => [⟨0, 16, .rw, 0x0320, false, false⟩,
      ⟨16, 8, .rw, 0x14, false, false⟩,
      ⟨24, 8, .ro, 0x00, false, false⟩]
  | .motLimCfg => [⟨0, 10, .rw, 0x3D4, false, false⟩,
      ⟨10, 10, .rw, 0x064, false, false⟩,
      ⟨20, 12, .ro, 0x000, false, false⟩]
  | .motBusCfg => [⟨0, 4, .rw, 0x4, false, false⟩,
      ⟨4, 4, .rw, 0xC, false, false⟩,
      ⟨8, 4, .rw, 0x3, false, false⟩,
      ⟨12, 12, .rw, 0x032, false, false⟩,
      ⟨24, 8, .ro, 0x00, false, false⟩]
  | .motSpdGain => [⟨0, 16, .rw, 0x0190, false, false⟩,
      ⟨16, 16, .rw, 0x1F40, false, false⟩]
  | .motTensGain => [⟨0, 16, .rw, 0x0010, false, false⟩,
      ⟨16, 16, .rw, 0x0040, false, false⟩]
  | .motInertia => [⟨0, 16, .rw, 0x0000, false, false⟩,
      ⟨16, 16, .rw, 0x0000, false, false⟩]
  | .motDirCfg => [⟨0, 1, .rw, 0x0, false, false⟩,
      ⟨1, 1, .rw, 0x0, false, false⟩,
      ⟨2, 30, .ro, 0x00000000, false, false⟩]
  | .motLatCfg => [⟨0, 8, .rw, 0x10, false, false⟩,
      ⟨8, 8, .rw, 0x04, false, false⟩,
      ⟨16, 16, .rw, 0x03E8, false, false⟩]
  | .motSrvCfg => [⟨0, 11, .rw, 0x100, false, false⟩,
      ⟨11, 1, .ro, 0x0, false, false⟩,
      ⟨12, 4, .rw, 0xF, false, false⟩,
      ⟨16, 16, .rw, 0x0032, false, false⟩]
  | .motMeasV => [⟨0, 32, .ro, 0x00000000, false, false⟩]
  | .motMeasR => [⟨0, 16, .ro, 0x0000, false, false⟩,
      ⟨16, 16, .ro, 0x0000, false, false⟩]
  | .motMeasT => [⟨0, 16, .ro, 0x0000, false, false⟩,
      ⟨16, 16, .ro, 0x0000, false, false⟩]
  | .motLatStat => [⟨0, 16, .ro, 0x0000, false, false⟩,
      ⟨16, 16, .ro, 0x0000, false, false⟩]
  | .motAge => [⟨0, 16, .rws, 0x0000, true, false⟩,
      ⟨16, 16, .rws, 0x0000, true, false⟩]
  | .motFric => [⟨0, 16, .ro, 0x0000, false, false⟩,
      ⟨16, 16, .ro, 0x0000, false, false⟩]
  | .motErrCnt => [⟨0, 8, .ro, 0x00, true, false⟩,
      ⟨8, 8, .ro, 0x00, true, false⟩,
      ⟨16, 8, .ro, 0x00, true, false⟩,
      ⟨24, 8, .ro, 0x00, true, false⟩]
  | .motOvrCnt => [⟨0, 32, .ro, 0x00000000, true, false⟩]
  | .memFillCfg => [⟨0, 7, .rw, 0x10, false, false⟩,
      ⟨7, 25, .ro, 0x0000000, false, false⟩]
  | .memFillStat => [⟨0, 24, .ro, 0x000000, true, false⟩,
      ⟨24, 8, .ro, 0x00, true, false⟩]
  | .memScrubCfg => [⟨0, 1, .rw, 0x1, false, false⟩,
      ⟨1, 5, .ro, 0x00, false, false⟩,
      ⟨6, 11, .rw, 0x040, false, false⟩,
      ⟨17, 15, .ro, 0x0000, false, false⟩]
  | .memScrubPosLo => [⟨0, 32, .ro, 0x00000000, true, false⟩]
  | .memScrubPosHi => [⟨0, 4, .ro, 0x0, true, false⟩,
      ⟨4, 28, .ro, 0x0000000, true, false⟩]
  | .memScrubStat => [⟨0, 32, .ro, 0x00000000, true, false⟩]
  | .memBktCfg => [⟨0, 20, .rw, 0x0C350, false, false⟩,
      ⟨20, 8, .rw, 0x10, false, false⟩,
      ⟨28, 4, .ro, 0x0, false, false⟩]
  | .memErrCnt0 => [⟨0, 32, .ro, 0x00000000, true, false⟩]
  | .memErrCnt1 => [⟨0, 12, .ro, 0x000, true, false⟩,
      ⟨12, 10, .ro, 0x000, true, false⟩,
      ⟨22, 10, .ro, 0x000, true, false⟩]
  | .memLastErrLo => [⟨0, 32, .ro, 0x00000000, false, false⟩]
  | .memLastErrHi => [⟨0, 4, .ro, 0x0, false, false⟩,
      ⟨4, 3, .ro, 0x0, false, false⟩,
      ⟨7, 25, .ro, 0x0000000, false, false⟩]
  | .memMashStat => [⟨0, 7, .ro, 0x00, false, false⟩,
      ⟨7, 1, .ro, 0x0, false, false⟩,
      ⟨8, 24, .ro, 0x000000, true, false⟩]
  | .memBktStat => [⟨0, 8, .ro, 0x00, false, false⟩,
      ⟨8, 24, .ro, 0x000000, false, false⟩]
  | .memOvrCnt => [⟨0, 32, .ro, 0x00000000, true, false⟩]
  | .poolErrCnt => [⟨0, 8, .ro, 0x00, true, false⟩,
      ⟨8, 8, .ro, 0x00, true, false⟩,
      ⟨16, 8, .ro, 0x00, true, false⟩,
      ⟨24, 8, .ro, 0x00, false, false⟩]
  | .poolOvrCnt => [⟨0, 32, .ro, 0x00000000, true, false⟩]
  | .poolPCfg => [⟨0, 29, .rwl, 0x00000000, true, false⟩,
      ⟨29, 3, .ro, 0x0, false, false⟩]
  | .poolPStat => [⟨0, 29, .ro, 0x00000000, true, false⟩,
      ⟨29, 3, .ro, 0x0, true, false⟩]
  | .poolPFree => [⟨0, 29, .ro, 0x00000000, true, false⟩,
      ⟨29, 3, .ro, 0x0, true, false⟩]
  | .poolRsvP => [⟨0, 29, .rw, 0x00000000, false, false⟩,
      ⟨29, 3, .ro, 0x0, false, false⟩]
  | .poolHeldP => [⟨0, 29, .ro, 0x00000000, true, false⟩,
      ⟨29, 3, .ro, 0x0, true, false⟩]
  | .queQfStat => [⟨0, 8, .ro, 0x00, false, false⟩,
      ⟨8, 24, .ro, 0x000000, false, false⟩]
  | .queOvrCnt => [⟨0, 32, .ro, 0x00000000, true, false⟩]
  | .queQCfg => [⟨0, 1, .rw, 0x0, false, false⟩,
      ⟨1, 4, .rw, 0x0, false, false⟩,
      ⟨5, 1, .rw, 0x0, false, false⟩,
      ⟨6, 1, .rw, 0x0, false, false⟩,
      ⟨7, 1, .rw, 0x0, false, false⟩,
      ⟨8, 3, .rw, 0x0, false, false⟩,
      ⟨11, 4, .rw, 0x8, false, false⟩,
      ⟨15, 1, .ro, 0x0, false, false⟩,
      ⟨16, 12, .rw, 0x000, false, false⟩,
      ⟨28, 4, .ro, 0x0, false, false⟩]
  | .queQWm => [⟨0, 16, .rw, 0x0000, false, false⟩,
      ⟨16, 16, .rw, 0x0000, false, false⟩]
  | .queQCtl => [⟨0, 1, .wo, 0x0, false, false⟩,
      ⟨1, 31, .ro, 0x00000000, false, false⟩]
  | .queQStat => [⟨0, 17, .ro, 0x00000, false, false⟩,
      ⟨17, 1, .ro, 0x0, false, false⟩,
      ⟨18, 14, .ro, 0x0000, false, false⟩]
  | .queQCnt => [⟨0, 16, .ro, 0x0000, true, false⟩,
      ⟨16, 8, .ro, 0x00, true, false⟩,
      ⟨24, 8, .ro, 0x00, true, false⟩]
  | .ctlOvrCfg => [⟨0, 8, .rwl, 0xFF, true, false⟩,
      ⟨8, 1, .rwl, 0x1, true, false⟩,
      ⟨9, 23, .ro, 0x0000000, false, false⟩]
  | .ctlBootAddrLo => [⟨0, 32, .rw, 0x00000000, false, false⟩]
  | .ctlBootAddrHi => [⟨0, 32, .rw, 0x00000000, false, false⟩]
  | .ctlBootLen => [⟨0, 24, .rw, 0x000000, false, false⟩,
      ⟨24, 8, .ro, 0x00, false, false⟩]
  | .ctlBootCtl => [⟨0, 1, .wo, 0x0, false, false⟩,
      ⟨1, 31, .ro, 0x00000000, false, false⟩]
  | .ctlBootStat => [⟨0, 2, .ro, 0x0, false, false⟩,
      ⟨2, 30, .ro, 0x00000000, false, false⟩]
  | .ctlFwVer => [⟨0, 32, .ro, 0x00000000, false, false⟩]
  | .ctlSetupLock => [⟨0, 1, .rws, 0x0, true, false⟩,
      ⟨1, 31, .ro, 0x00000000, false, false⟩]
  | .ctlOvrCnt => [⟨0, 32, .ro, 0x00000000, true, false⟩]
  | .pciErrCnt => [⟨0, 8, .ro, 0x00, true, false⟩,
      ⟨8, 8, .ro, 0x00, true, false⟩,
      ⟨16, 8, .ro, 0x00, true, false⟩,
      ⟨24, 8, .ro, 0x00, false, false⟩]
  | .pciOvrCnt => [⟨0, 32, .ro, 0x00000000, true, false⟩]
  | .pciRingSqLo => [⟨0, 32, .rw, 0x00000000, false, false⟩]
  | .pciRingSqHi => [⟨0, 32, .rw, 0x00000000, false, false⟩]
  | .pciRingCqLo => [⟨0, 32, .rw, 0x00000000, false, false⟩]
  | .pciRingCqHi => [⟨0, 32, .rw, 0x00000000, false, false⟩]
  | .pciRingCapLo => [⟨0, 32, .rw, 0x00000000, false, false⟩]
  | .pciRingCapHi => [⟨0, 32, .rw, 0x00000000, false, false⟩]
  | .pciRingCfg => [⟨0, 1, .rw, 0x0, false, false⟩,
      ⟨1, 3, .rw, 0x0, false, false⟩,
      ⟨4, 4, .rw, 0x4, false, false⟩,
      ⟨8, 11, .rw, 0x000, false, false⟩,
      ⟨19, 13, .ro, 0x0000, false, false⟩]
  | .pciRingIrq => [⟨0, 8, .rw, 0x01, false, false⟩,
      ⟨8, 16, .rw, 0x0002, false, false⟩,
      ⟨24, 8, .ro, 0x00, false, false⟩]
  | .pciRingStat => [⟨0, 16, .ro, 0x0000, false, false⟩,
      ⟨16, 16, .ro, 0x0000, false, false⟩]
  | .ethGrpCfg => [⟨0, 3, .rw, 0x0, false, false⟩,
      ⟨3, 1, .rw, 0x0, false, false⟩,
      ⟨4, 28, .ro, 0x0000000, false, false⟩]
  | .ethGrpStat => [⟨0, 4, .ro, 0x0, false, false⟩,
      ⟨4, 28, .ro, 0x0000000, false, false⟩]
  | .ethOvrCnt => [⟨0, 32, .ro, 0x00000000, true, false⟩]
  | .ethPortCfg => [⟨0, 1, .rw, 0x0, false, false⟩,
      ⟨1, 1, .rw, 0x1, false, false⟩,
      ⟨2, 6, .rw, 0x1A, false, false⟩,
      ⟨8, 3, .rw, 0x3, false, false⟩,
      ⟨11, 1, .rw, 0x0, false, false⟩,
      ⟨12, 12, .rw, 0x000, false, false⟩,
      ⟨24, 8, .ro, 0x00, false, false⟩]
  | .ethPortStat => [⟨0, 1, .ro, 0x0, false, false⟩,
      ⟨1, 1, .ro, 0x0, false, false⟩,
      ⟨2, 2, .ro, 0x0, false, false⟩,
      ⟨4, 28, .ro, 0x0000000, false, false⟩]
  | .ethPortMacLo => [⟨0, 32, .rw, 0x00000000, false, false⟩]
  | .ethPortMacHi => [⟨0, 16, .rw, 0x0000, false, false⟩,
      ⟨16, 16, .ro, 0x0000, false, false⟩]
  | .ethPortIp4 => [⟨0, 32, .rw, 0x00000000, false, false⟩]
  | .ethPortIp60 => [⟨0, 32, .rw, 0x00000000, false, false⟩]
  | .ethPortIp61 => [⟨0, 32, .rw, 0x00000000, false, false⟩]
  | .ethPortIp62 => [⟨0, 32, .rw, 0x00000000, false, false⟩]
  | .ethPortIp63 => [⟨0, 32, .rw, 0x00000000, false, false⟩]
  | .ethPortFecCnt => [⟨0, 16, .ro, 0x0000, true, false⟩,
      ⟨16, 16, .ro, 0x0000, true, false⟩]
  | .fabCfg => [⟨0, 7, .rwl, 0x00, true, false⟩,
      ⟨7, 1, .rwl, 0x1, true, false⟩,
      ⟨8, 24, .ro, 0x000000, false, false⟩]
  | .fabTimeStat => [⟨0, 1, .ro, 0x0, false, false⟩,
      ⟨1, 1, .ro, 0x0, false, false⟩,
      ⟨2, 6, .ro, 0x00, false, false⟩,
      ⟨8, 7, .ro, 0x00, false, false⟩,
      ⟨15, 1, .ro, 0x0, false, false⟩,
      ⟨16, 16, .ro, 0x0000, false, false⟩]
  | .fabTimeOfsLo => [⟨0, 32, .ro, 0x00000000, false, false⟩]
  | .fabTimeOfsHi => [⟨0, 16, .ro, 0x0000, false, false⟩,
      ⟨16, 16, .ro, 0x0000, false, false⟩]
  | .fabPairCfg => [⟨0, 7, .rwl, 0x00, true, false⟩,
      ⟨7, 1, .rwl, 0x0, true, false⟩,
      ⟨8, 8, .ro, 0x00, false, false⟩,
      ⟨16, 16, .rw, 0x01F4, false, false⟩]
  | .fabPairStat => [⟨0, 3, .ro, 0x0, false, false⟩,
      ⟨3, 5, .ro, 0x00, false, false⟩,
      ⟨8, 24, .ro, 0x000000, false, false⟩]
  | .fabTunEtype => [⟨0, 16, .rwl, 0x88B5, true, false⟩,
      ⟨16, 16, .ro, 0x0000, false, false⟩]
  | .fabOvrCnt => [⟨0, 32, .ro, 0x00000000, true, false⟩]
  | .fabPortCfg => [⟨0, 1, .rw, 0x0, false, false⟩,
      ⟨1, 1, .rw, 0x0, false, false⟩,
      ⟨2, 6, .ro, 0x00, false, false⟩,
      ⟨8, 8, .rw, 0x0A, false, false⟩,
      ⟨16, 16, .ro, 0x0000, false, false⟩]
  | .fabPortStat => [⟨0, 1, .ro, 0x0, false, false⟩,
      ⟨1, 4, .ro, 0x0, false, false⟩,
      ⟨5, 3, .ro, 0x0, false, false⟩,
      ⟨8, 7, .ro, 0x00, false, false⟩,
      ⟨15, 1, .ro, 0x0, false, false⟩,
      ⟨16, 16, .ro, 0x0000, false, false⟩]
  | .fabPortErr => [⟨0, 8, .ro, 0x00, true, false⟩,
      ⟨8, 8, .ro, 0x00, true, false⟩,
      ⟨16, 8, .ro, 0x00, true, false⟩,
      ⟨24, 8, .ro, 0x00, false, false⟩]
  | .fabSvcCfg => [⟨0, 1, .rw, 0x0, false, false⟩,
      ⟨1, 1, .rw, 0x0, false, false⟩,
      ⟨2, 4, .rw, 0x0, false, false⟩,
      ⟨6, 26, .ro, 0x0000000, false, false⟩]
  | .fabSvcIp0 => [⟨0, 32, .rw, 0x00000000, false, false⟩]
  | .fabSvcIp1 => [⟨0, 32, .rw, 0x00000000, false, false⟩]
  | .fabSvcIp2 => [⟨0, 32, .rw, 0x00000000, false, false⟩]
  | .fabSvcIp3 => [⟨0, 32, .rw, 0x00000000, false, false⟩]
  | .fabSvcMacLo => [⟨0, 32, .rw, 0x00000000, false, false⟩]
  | .fabSvcMacHi => [⟨0, 16, .rw, 0x0000, false, false⟩,
      ⟨16, 16, .ro, 0x0000, false, false⟩]
  | .fabTunCfg => [⟨0, 1, .rw, 0x0, false, false⟩,
      ⟨1, 4, .rw, 0x0, false, false⟩,
      ⟨5, 3, .ro, 0x0, false, false⟩,
      ⟨8, 7, .rw, 0x00, false, false⟩,
      ⟨15, 1, .ro, 0x0, false, false⟩,
      ⟨16, 8, .rw, 0x28, false, false⟩,
      ⟨24, 8, .ro, 0x00, false, false⟩]
  | .fabTunMacLo => [⟨0, 32, .rw, 0x00000000, false, false⟩]
  | .fabTunMacHi => [⟨0, 16, .rw, 0x0000, false, false⟩,
      ⟨16, 16, .ro, 0x0000, false, false⟩]
  | .hltTickLo => [⟨0, 32, .ro, 0x00000000, true, true⟩]
  | .hltTickHi => [⟨0, 16, .ro, 0x0000, true, true⟩,
      ⟨16, 16, .ro, 0x0000, true, true⟩]
  | .hltCellarStat => [⟨0, 16, .ro, 0x1000, true, true⟩,
      ⟨16, 13, .ro, 0x0000, true, true⟩,
      ⟨29, 3, .ro, 0x0, true, true⟩]
  | .hltCellarErr => [⟨0, 16, .ro, 0x0000, true, true⟩,
      ⟨16, 16, .ro, 0x0000, true, false⟩]
  | .hltBootCnt => [⟨0, 32, .ro, 0x00000000, true, true⟩]
  | .hltAgeCfg => [⟨0, 5, .rw, 0x1F, false, false⟩,
      ⟨5, 3, .ro, 0x0, true, true⟩,
      ⟨8, 8, .rw, 0x3C, false, false⟩,
      ⟨16, 16, .ro, 0x0000, true, true⟩]
  | .hltAgeThr0 => [⟨0, 16, .rw, 0x07D0, false, false⟩,
      ⟨16, 8, .rw, 0x14, false, false⟩,
      ⟨24, 8, .ro, 0x00, true, true⟩]
  | .hltAgeThr1 => [⟨0, 8, .rw, 0x30, false, false⟩,
      ⟨8, 4, .rw, 0xA, false, false⟩,
      ⟨12, 20, .ro, 0x00000, true, true⟩]
  | .hltAvsStat => [⟨0, 4, .rws, 0x0, true, false⟩,
      ⟨4, 28, .ro, 0x0000000, true, true⟩]
  | .hltTestStat => [⟨0, 1, .w1c, 0x0, false, false⟩,
      ⟨1, 31, .ro, 0x00000000, true, true⟩]
  | .hltSbCfg => [⟨0, 1, .rw, 0x0, false, false⟩,
      ⟨1, 31, .ro, 0x00000000, true, true⟩]
  | .hltSbStat => [⟨0, 8, .ro, 0xFF, true, true⟩,
      ⟨8, 8, .ro, 0x00, true, false⟩,
      ⟨16, 16, .ro, 0x0000, true, true⟩]
  | .hltPwrStat => [⟨0, 5, .ro, Config.vbase, true, true⟩,
      ⟨5, 1, .ro, 0x0, true, true⟩,
      ⟨6, 1, .ro, 0x0, true, true⟩,
      ⟨7, 25, .ro, 0x0000000, true, true⟩]
  | .hltResetStat => [⟨0, 3, .ro, 0x1, true, true⟩,
      ⟨3, 3, .ro, 0x0, true, true⟩,
      ⟨6, 26, .ro, 0x0000000, true, true⟩]
  | .hltPfCfg => [⟨0, 1, .rw, 0x1, false, false⟩,
      ⟨1, 31, .ro, 0x00000000, true, true⟩]
  | .hltThermStat => [⟨0, 8, .ro, 0x00, true, true⟩,
      ⟨8, 1, .ro, 0x0, true, true⟩,
      ⟨9, 7, .ro, 0x00, true, true⟩,
      ⟨16, 8, .ro, 0x00, true, true⟩,
      ⟨24, 8, .ro, 0x00, true, true⟩]
  | .hltThermCfg => [⟨0, 8, .rw, 0x69, false, false⟩,
      ⟨8, 4, .rw, 0x5, false, false⟩,
      ⟨12, 20, .ro, 0x00000, true, true⟩]
  | .hltOvrCnt => [⟨0, 32, .ro, 0x00000000, true, false⟩]
  | .hltWearStat => [⟨0, 24, .ro, 0x000000, true, true⟩,
      ⟨24, 8, .ro, 0x00, true, true⟩]
  | .hltLaneEye => [⟨0, 10, .ro, 0x000, true, true⟩,
      ⟨10, 7, .ro, 0x00, true, true⟩,
      ⟨17, 7, .ro, 0x00, true, true⟩,
      ⟨24, 8, .ro, 0x00, true, false⟩]

/-- Every register, in the order of R480. -/
def RegId.all : List RegId :=
  List.flatten [
    [.idPart, .idStep, .idSerialLo, .idSerialHi, .rteConnCfg, .rteEcnCfg, .rteBadCapsuleCnt, .rteOvrCnt, .schTickCfg, .schClassWt],
    [.schGrantCfg, .schUCapCnt, .schOvrCnt, .sesChunkCfg, .sesOvrCnt, .druRoleLo, .druRoleHi, .druErrCnt, .druArbCfg, .druOvrCnt],
    [.cipKtBaseLo, .cipKtBaseHi, .cipKekW, .cipKekCtl, .cipKcMissCnt, .cipOvrCnt, .pkrDsCfg, .pkrOvrCnt, .spnJrnlCfg, .spnPatrolCfg],
    [.spnLossCnt, .spnSuspectCnt, .spnOvrCnt, .spnSetCfg, .spnSetStat, .spnSetFailed, .spnSetRowLo, .spnSetRowHi, .spnSetCurLo, .spnSetCurHi],
    [.spnSetPatLo, .spnSetPatHi, .encVfyCfg, .encOvrCnt, .tpLinkCfg, .tpToken, .tpTokenEpoch, .tpLinkStat, .tpLinkErr, .tpSpdCtl],
    [.tpSpdStat, .tpRetireLo, .tpRetireHi, .tpRetCfg, .tpBhCfg, .tpWrStat, .tpWrCnt0, .tpWrCnt1, .tpWrCnt2, .tpRdCfg],
    [.tpRdCnt0, .tpRdCnt1, .tpArbCfg, .tpOvrCnt, .rdcCtl, .rdcTarget, .rdcRetryOrder, .rdcOvrCnt, .rdcProfA, .rdcProfB],
    [.rdcChSnr, .rdcChBer, .decCodeCfg, .decRetryCfg, .decOvrCnt, .motEvtCfg, .motCmd, .motStat, .motStartCfg, .motForceCfg],
    [.motZcCfg, .motRampCfg, .motTensCfg, .motLimCfg, .motBusCfg, .motSpdGain, .motTensGain, .motInertia, .motDirCfg, .motLatCfg],
    [.motSrvCfg, .motMeasV, .motMeasR, .motMeasT, .motLatStat, .motAge, .motFric, .motErrCnt, .motOvrCnt, .memFillCfg],
    [.memFillStat, .memScrubCfg, .memScrubPosLo, .memScrubPosHi, .memScrubStat, .memBktCfg, .memErrCnt0, .memErrCnt1, .memLastErrLo, .memLastErrHi],
    [.memMashStat, .memBktStat, .memOvrCnt, .poolErrCnt, .poolOvrCnt, .poolPCfg, .poolPStat, .poolPFree, .poolRsvP, .poolHeldP],
    [.queQfStat, .queOvrCnt, .queQCfg, .queQWm, .queQCtl, .queQStat, .queQCnt, .ctlOvrCfg, .ctlBootAddrLo, .ctlBootAddrHi],
    [.ctlBootLen, .ctlBootCtl, .ctlBootStat, .ctlFwVer, .ctlSetupLock, .ctlOvrCnt, .pciErrCnt, .pciOvrCnt, .pciRingSqLo, .pciRingSqHi],
    [.pciRingCqLo, .pciRingCqHi, .pciRingCapLo, .pciRingCapHi, .pciRingCfg, .pciRingIrq, .pciRingStat, .ethGrpCfg, .ethGrpStat, .ethOvrCnt],
    [.ethPortCfg, .ethPortStat, .ethPortMacLo, .ethPortMacHi, .ethPortIp4, .ethPortIp60, .ethPortIp61, .ethPortIp62, .ethPortIp63, .ethPortFecCnt],
    [.fabCfg, .fabTimeStat, .fabTimeOfsLo, .fabTimeOfsHi, .fabPairCfg, .fabPairStat, .fabTunEtype, .fabOvrCnt, .fabPortCfg, .fabPortStat],
    [.fabPortErr, .fabSvcCfg, .fabSvcIp0, .fabSvcIp1, .fabSvcIp2, .fabSvcIp3, .fabSvcMacLo, .fabSvcMacHi, .fabTunCfg, .fabTunMacLo],
    [.fabTunMacHi, .hltTickLo, .hltTickHi, .hltCellarStat, .hltCellarErr, .hltBootCnt, .hltAgeCfg, .hltAgeThr0, .hltAgeThr1, .hltAvsStat],
    [.hltTestStat, .hltSbCfg, .hltSbStat, .hltPwrStat, .hltResetStat, .hltPfCfg, .hltThermStat, .hltThermCfg, .hltOvrCnt, .hltWearStat],
    [.hltLaneEye]]

/-- Reset contents of RDC_PROFk_A, from the profile table of R252. -/
def profAReset : List Nat :=
  [0x0204B506, 0x0306A405, 0x0304B506, 0x0304B506, 0x0304B506, 0x0408B516, 0x0406A405, 0x0408A405]

/-- Reset contents of RDC_PROFk_B, from the profile table of R252. -/
def profBReset : List Nat :=
  [0x00001F00, 0x00001F00, 0x00001F19, 0x00001FE7, 0x00000800, 0x00001F00, 0x0000080D, 0x000000F3]

/-- The 32-bit reset value of instance `i` of a register: its fields' reset values in their places; the read
profiles take R252's table. -/
def RegId.resetValue (r : RegId) (i : Nat) : BitVec 32 :=
  match r with
  | .rdcProfA => BitVec.ofNat 32 (profAReset.getD i 0)
  | .rdcProfB => BitVec.ofNat 32 (profBReset.getD i 0)
  | .queQCfg =>
    -- R375: EN 1 and SIZE 4, with FRAMED and NOSTALL for queue 0xF8, EN 1 for queue 0xFF, all 0 between, and QF 8 elsewhere
    if i < 0xF0 then 0x4000#32 else if i < 0xF8 then 0x4009#32 else if i = 0xF8 then 0x4069#32 else if i < 0xFF then 0#32 else 0x4001#32
  | _ => BitVec.ofNat 32 ((r.fields.map fun f => (f.reset % 2 ^ f.width) * 2 ^ f.lo).foldl (· + ·) 0)

/-- BAR0 offset of instance `i` of a register (R480). -/
def RegId.offset (r : RegId) (i : Nat) : Nat := r.info.base + i * r.info.stride

/-- Whether instance `i` of a register exists: below the count of R480, and for the owner and pool registers of
POOL with a pool code of 0 to 4. -/
def RegId.valid (r : RegId) (i : Nat) : Bool :=
  decide (i < r.info.count) &&
    (match r with
     | .poolRsvP | .poolHeldP => decide (i % 8 < 5)
     | _ => true)

/-- The instance of register `r` that stands at BAR0 offset `off`, if any. -/
def RegId.instAt (r : RegId) (off : Nat) : Option Nat :=
  let b := r.info.base
  if off < b then none
  else
    let i := if r.info.stride = 0 then 0 else (off - b) / r.info.stride
    if r.offset i = off && r.valid i then some i else none

/-- The register that stands at BAR0 offset `off` (R480); none in a hole (R481). -/
def regAt (off : Nat) : Option (RegId × Nat) :=
  RegId.all.findSome? fun r => (r.instAt off).map fun i => (r, i)

/-- A register field: its register and its bits. -/
structure Fld where
  reg : RegId
  lo : Nat
  width : Nat
  deriving DecidableEq, Repr

namespace Fld

def idPartPart : Fld := ⟨.idPart, 0, 16⟩
def idPartVendor : Fld := ⟨.idPart, 16, 11⟩
def idStepStep : Fld := ⟨.idStep, 0, 8⟩
def idSerialLoSerial : Fld := ⟨.idSerialLo, 0, 32⟩
def idSerialHiSerial : Fld := ⟨.idSerialHi, 0, 32⟩
def rteConnCfgMaxCmds : Fld := ⟨.rteConnCfg, 0, 13⟩
def rteConnCfgGrantDepth : Fld := ⟨.rteConnCfg, 16, 4⟩
def rteConnCfgRnrTimer : Fld := ⟨.rteConnCfg, 24, 5⟩
def rteEcnCfgCut : Fld := ⟨.rteEcnCfg, 0, 3⟩
def rteEcnCfgRecover : Fld := ⟨.rteEcnCfg, 4, 8⟩
def rteEcnCfgStep : Fld := ⟨.rteEcnCfg, 12, 4⟩
def rteEcnCfgMin : Fld := ⟨.rteEcnCfg, 16, 8⟩
def rteEcnCfgCnpGap : Fld := ⟨.rteEcnCfg, 24, 5⟩
def rteBadCapsuleCntCount : Fld := ⟨.rteBadCapsuleCnt, 0, 32⟩
def rteOvrCntCount : Fld := ⟨.rteOvrCnt, 0, 32⟩
def schTickCfgBytes : Fld := ⟨.schTickCfg, 0, 12⟩
def schTickCfgQuantum : Fld := ⟨.schTickCfg, 16, 8⟩
def schClassWtW0 : Fld := ⟨.schClassWt, 0, 8⟩
def schClassWtW1 : Fld := ⟨.schClassWt, 8, 8⟩
def schClassWtW2 : Fld := ⟨.schClassWt, 16, 8⟩
def schClassWtW3 : Fld := ⟨.schClassWt, 24, 8⟩
def schGrantCfgTimeout : Fld := ⟨.schGrantCfg, 0, 20⟩
def schGrantCfgDrain : Fld := ⟨.schGrantCfg, 20, 12⟩
def schUCapCntCount : Fld := ⟨.schUCapCnt, 0, 32⟩
def schOvrCntCount : Fld := ⟨.schOvrCnt, 0, 32⟩
def sesChunkCfgHold : Fld := ⟨.sesChunkCfg, 0, 16⟩
def sesChunkCfgAge : Fld := ⟨.sesChunkCfg, 16, 16⟩
def sesOvrCntCount : Fld := ⟨.sesOvrCnt, 0, 32⟩
def druRoleLoWrite : Fld := ⟨.druRoleLo, 0, 32⟩
def druRoleHiWrite : Fld := ⟨.druRoleHi, 0, 16⟩
def druErrCntIllegal : Fld := ⟨.druErrCnt, 0, 8⟩
def druErrCntDistance : Fld := ⟨.druErrCnt, 8, 8⟩
def druErrCntOverrun : Fld := ⟨.druErrCnt, 16, 8⟩
def druErrCntShort : Fld := ⟨.druErrCnt, 24, 8⟩
def druArbCfgLend : Fld := ⟨.druArbCfg, 0, 1⟩
def druOvrCntCount : Fld := ⟨.druOvrCnt, 0, 32⟩
def cipKtBaseLoAddr : Fld := ⟨.cipKtBaseLo, 6, 26⟩
def cipKtBaseHiAddr : Fld := ⟨.cipKtBaseHi, 0, 32⟩
def cipKekWKey : Fld := ⟨.cipKekW, 0, 32⟩
def cipKekCtlLoad : Fld := ⟨.cipKekCtl, 0, 1⟩
def cipKekCtlLoaded : Fld := ⟨.cipKekCtl, 1, 1⟩
def cipKcMissCntCount : Fld := ⟨.cipKcMissCnt, 0, 32⟩
def cipOvrCntCount : Fld := ⟨.cipOvrCnt, 0, 32⟩
def pkrDsCfgAge : Fld := ⟨.pkrDsCfg, 0, 20⟩
def pkrOvrCntCount : Fld := ⟨.pkrOvrCnt, 0, 32⟩
def spnJrnlCfgPeriod : Fld := ⟨.spnJrnlCfg, 0, 20⟩
def spnPatrolCfgGap : Fld := ⟨.spnPatrolCfg, 0, 16⟩
def spnPatrolCfgEn : Fld := ⟨.spnPatrolCfg, 16, 1⟩
def spnLossCntCount : Fld := ⟨.spnLossCnt, 0, 32⟩
def spnSuspectCntCount : Fld := ⟨.spnSuspectCnt, 0, 32⟩
def spnOvrCntCount : Fld := ⟨.spnOvrCnt, 0, 32⟩
def spnSetCfgTimeout : Fld := ⟨.spnSetCfg, 0, 19⟩
def spnSetCfgPatrol : Fld := ⟨.spnSetCfg, 19, 1⟩
def spnSetStatState : Fld := ⟨.spnSetStat, 0, 3⟩
def spnSetStatMissing : Fld := ⟨.spnSetStat, 3, 3⟩
def spnSetStatPhase : Fld := ⟨.spnSetStat, 6, 2⟩
def spnSetFailedMap : Fld := ⟨.spnSetFailed, 0, 32⟩
def spnSetRowLoC : Fld := ⟨.spnSetRowLo, 0, 32⟩
def spnSetRowHiC : Fld := ⟨.spnSetRowHi, 0, 16⟩
def spnSetCurLoRow : Fld := ⟨.spnSetCurLo, 0, 32⟩
def spnSetCurHiRow : Fld := ⟨.spnSetCurHi, 0, 16⟩
def spnSetPatLoRow : Fld := ⟨.spnSetPatLo, 0, 32⟩
def spnSetPatHiRow : Fld := ⟨.spnSetPatHi, 0, 16⟩
def encVfyCfgC1Limit : Fld := ⟨.encVfyCfg, 0, 4⟩
def encVfyCfgLateMax : Fld := ⟨.encVfyCfg, 4, 4⟩
def encOvrCntCount : Fld := ⟨.encOvrCnt, 0, 32⟩
def tpLinkCfgEnable : Fld := ⟨.tpLinkCfg, 0, 1⟩
def tpLinkCfgLead : Fld := ⟨.tpLinkCfg, 1, 4⟩
def tpLinkCfgShadow : Fld := ⟨.tpLinkCfg, 5, 1⟩
def tpTokenClaim : Fld := ⟨.tpToken, 0, 1⟩
def tpTokenEpochEpoch : Fld := ⟨.tpTokenEpoch, 0, 32⟩
def tpLinkStatUp : Fld := ⟨.tpLinkStat, 0, 1⟩
def tpLinkStatOwner : Fld := ⟨.tpLinkStat, 1, 1⟩
def tpLinkStatSafeHold : Fld := ⟨.tpLinkStat, 2, 1⟩
def tpLinkStatHoldover : Fld := ⟨.tpLinkStat, 3, 1⟩
def tpLinkStatCart : Fld := ⟨.tpLinkStat, 4, 1⟩
def tpLinkStatUnderrun : Fld := ⟨.tpLinkStat, 5, 1⟩
def tpLinkStatIdOk : Fld := ⟨.tpLinkStat, 6, 1⟩
def tpLinkStatRtt : Fld := ⟨.tpLinkStat, 16, 16⟩
def tpLinkErrBadStatus : Fld := ⟨.tpLinkErr, 0, 8⟩
def tpLinkErrBadSamples : Fld := ⟨.tpLinkErr, 8, 8⟩
def tpLinkErrLate : Fld := ⟨.tpLinkErr, 16, 8⟩
def tpLinkErrDiscard : Fld := ⟨.tpLinkErr, 24, 8⟩
def tpSpdCtlAuto : Fld := ⟨.tpSpdCtl, 0, 1⟩
def tpSpdCtlStep : Fld := ⟨.tpSpdCtl, 1, 5⟩
def tpSpdCtlCap : Fld := ⟨.tpSpdCtl, 6, 5⟩
def tpSpdCtlDwell : Fld := ⟨.tpSpdCtl, 16, 16⟩
def tpSpdStatTarget : Fld := ⟨.tpSpdStat, 0, 5⟩
def tpSpdStatAchieved : Fld := ⟨.tpSpdStat, 5, 5⟩
def tpSpdStatClamped : Fld := ⟨.tpSpdStat, 10, 1⟩
def tpSpdStatStarved : Fld := ⟨.tpSpdStat, 11, 1⟩
def tpSpdStatParked : Fld := ⟨.tpSpdStat, 12, 1⟩
def tpSpdStatLevel : Fld := ⟨.tpSpdStat, 16, 7⟩
def tpRetireLoMap : Fld := ⟨.tpRetireLo, 0, 32⟩
def tpRetireHiMap : Fld := ⟨.tpRetireHi, 0, 32⟩
def tpRetCfgFailRows : Fld := ⟨.tpRetCfg, 0, 8⟩
def tpRetCfgFailRegions : Fld := ⟨.tpRetCfg, 8, 4⟩
def tpRetCfgAuto : Fld := ⟨.tpRetCfg, 12, 1⟩
def tpBhCfgGap : Fld := ⟨.tpBhCfg, 0, 8⟩
def tpWrStatFailing : Fld := ⟨.tpWrStat, 0, 1⟩
def tpWrStatRetired : Fld := ⟨.tpWrStat, 1, 4⟩
def tpWrCnt0Rewrites : Fld := ⟨.tpWrCnt0, 0, 32⟩
def tpWrCnt1Abandon : Fld := ⟨.tpWrCnt1, 0, 16⟩
def tpWrCnt1Late : Fld := ⟨.tpWrCnt1, 16, 16⟩
def tpWrCnt2Backhitch : Fld := ⟨.tpWrCnt2, 0, 16⟩
def tpWrCnt2Holds : Fld := ⟨.tpWrCnt2, 16, 12⟩
def tpWrCnt2Forced : Fld := ⟨.tpWrCnt2, 28, 4⟩
def tpRdCfgStep : Fld := ⟨.tpRdCfg, 0, 5⟩
def tpRdCfgAhead : Fld := ⟨.tpRdCfg, 8, 4⟩
def tpRdCnt0C1Fail : Fld := ⟨.tpRdCnt0, 0, 32⟩
def tpRdCnt1Iter : Fld := ⟨.tpRdCnt1, 0, 16⟩
def tpRdCnt1Retry : Fld := ⟨.tpRdCnt1, 16, 16⟩
def tpArbCfgRdWait : Fld := ⟨.tpArbCfg, 0, 20⟩
def tpArbCfgRdMax : Fld := ⟨.tpArbCfg, 20, 12⟩
def tpOvrCntCount : Fld := ⟨.tpOvrCnt, 0, 32⟩
def rdcCtlDcGain : Fld := ⟨.rdcCtl, 0, 4⟩
def rdcCtlAcqMiss : Fld := ⟨.rdcCtl, 4, 4⟩
def rdcTargetG1 : Fld := ⟨.rdcTarget, 0, 8⟩
def rdcTargetG2 : Fld := ⟨.rdcTarget, 8, 8⟩
def rdcRetryOrderSlot : Fld := ⟨.rdcRetryOrder, 0, 24⟩
def rdcOvrCntCount : Fld := ⟨.rdcOvrCnt, 0, 32⟩
def rdcProfAMu : Fld := ⟨.rdcProfA, 0, 4⟩
def rdcProfAFreeze : Fld := ⟨.rdcProfA, 4, 1⟩
def rdcProfAKp : Fld := ⟨.rdcProfA, 8, 4⟩
def rdcProfAKi : Fld := ⟨.rdcProfA, 12, 4⟩
def rdcProfAThr : Fld := ⟨.rdcProfA, 16, 5⟩
def rdcProfAChase : Fld := ⟨.rdcProfA, 24, 3⟩
def rdcProfBOffset : Fld := ⟨.rdcProfB, 0, 8⟩
def rdcProfBSpeed : Fld := ⟨.rdcProfB, 8, 5⟩
def rdcChSnrSnr : Fld := ⟨.rdcChSnr, 0, 8⟩
def rdcChSnrFailed : Fld := ⟨.rdcChSnr, 16, 16⟩
def rdcChBerRate : Fld := ⟨.rdcChBer, 0, 32⟩
def decCodeCfgC1Max : Fld := ⟨.decCodeCfg, 0, 4⟩
def decCodeCfgC2Max : Fld := ⟨.decCodeCfg, 4, 4⟩
def decRetryCfgBeforeSpan : Fld := ⟨.decRetryCfg, 0, 4⟩
def decOvrCntCount : Fld := ⟨.decOvrCnt, 0, 32⟩
def motEvtCfgSafeQ : Fld := ⟨.motEvtCfg, 0, 8⟩
def motEvtCfgTelQ : Fld := ⟨.motEvtCfg, 8, 8⟩
def motEvtCfgTelEn : Fld := ⟨.motEvtCfg, 16, 8⟩
def motCmdOp : Fld := ⟨.motCmd, 0, 3⟩
def motCmdDir : Fld := ⟨.motCmd, 3, 1⟩
def motStatState : Fld := ⟨.motStat, 0, 4⟩
def motStatClamped : Fld := ⟨.motStat, 4, 1⟩
def motStatChopFault : Fld := ⟨.motStat, 5, 1⟩
def motStatPause : Fld := ⟨.motStat, 6, 1⟩
def motStatLostA : Fld := ⟨.motStat, 7, 1⟩
def motStatLostB : Fld := ⟨.motStat, 8, 1⟩
def motStatOnTrack : Fld := ⟨.motStat, 9, 1⟩
def motStartCfgAlignT : Fld := ⟨.motStartCfg, 0, 16⟩
def motStartCfgAlignDuty : Fld := ⟨.motStartCfg, 16, 10⟩
def motForceCfgT0 : Fld := ⟨.motForceCfg, 0, 12⟩
def motForceCfgHandT : Fld := ⟨.motForceCfg, 12, 12⟩
def motForceCfgHandN : Fld := ⟨.motForceCfg, 24, 4⟩
def motForceCfgHandMax : Fld := ⟨.motForceCfg, 28, 4⟩
def motZcCfgBlank : Fld := ⟨.motZcCfg, 0, 10⟩
def motZcCfgWin : Fld := ⟨.motZcCfg, 10, 6⟩
def motZcCfgLostN : Fld := ⟨.motZcCfg, 16, 4⟩
def motZcCfgPredMax : Fld := ⟨.motZcCfg, 20, 8⟩
def motZcCfgReacqN : Fld := ⟨.motZcCfg, 28, 4⟩
def motRampCfgAcc : Fld := ⟨.motRampCfg, 0, 8⟩
def motRampCfgJerk : Fld := ⟨.motRampCfg, 8, 8⟩
def motRampCfgLrDecel : Fld := ⟨.motRampCfg, 16, 8⟩
def motRampCfgLocSpeed : Fld := ⟨.motRampCfg, 24, 6⟩
def motTensCfgTref : Fld := ⟨.motTensCfg, 0, 16⟩
def motTensCfgTratio : Fld := ⟨.motTensCfg, 16, 8⟩
def motLimCfgDutyLim : Fld := ⟨.motLimCfg, 0, 10⟩
def motLimCfgReelMax : Fld := ⟨.motLimCfg, 10, 10⟩
def motBusCfgOn : Fld := ⟨.motBusCfg, 0, 4⟩
def motBusCfgFull : Fld := ⟨.motBusCfg, 4, 4⟩
def motBusCfgFaultN : Fld := ⟨.motBusCfg, 8, 4⟩
def motBusCfgRise : Fld := ⟨.motBusCfg, 12, 12⟩
def motSpdGainKp : Fld := ⟨.motSpdGain, 0, 16⟩
def motSpdGainKi : Fld := ⟨.motSpdGain, 16, 16⟩
def motTensGainKp : Fld := ⟨.motTensGain, 0, 16⟩
def motTensGainKi : Fld := ⟨.motTensGain, 16, 16⟩
def motInertiaPackA : Fld := ⟨.motInertia, 0, 16⟩
def motInertiaPackB : Fld := ⟨.motInertia, 16, 16⟩
def motDirCfgA : Fld := ⟨.motDirCfg, 0, 1⟩
def motDirCfgB : Fld := ⟨.motDirCfg, 1, 1⟩
def motLatCfgKp : Fld := ⟨.motLatCfg, 0, 8⟩
def motLatCfgKi : Fld := ⟨.motLatCfg, 8, 8⟩
def motLatCfgOfftrack : Fld := ⟨.motLatCfg, 16, 16⟩
def motSrvCfgThr : Fld := ⟨.motSrvCfg, 0, 11⟩
def motSrvCfgChEn : Fld := ⟨.motSrvCfg, 12, 4⟩
def motSrvCfgLossT : Fld := ⟨.motSrvCfg, 16, 16⟩
def motMeasVV : Fld := ⟨.motMeasV, 0, 32⟩
def motMeasRRA : Fld := ⟨.motMeasR, 0, 16⟩
def motMeasRRB : Fld := ⟨.motMeasR, 16, 16⟩
def motMeasTTEst : Fld := ⟨.motMeasT, 0, 16⟩
def motMeasTBus : Fld := ⟨.motMeasT, 16, 16⟩
def motLatStatErr : Fld := ⟨.motLatStat, 0, 16⟩
def motLatStatAct : Fld := ⟨.motLatStat, 16, 16⟩
def motAgeRwA : Fld := ⟨.motAge, 0, 16⟩
def motAgeRwB : Fld := ⟨.motAge, 16, 16⟩
def motFricF : Fld := ⟨.motFric, 0, 16⟩
def motErrCntLost : Fld := ⟨.motErrCnt, 0, 8⟩
def motErrCntChop : Fld := ⟨.motErrCnt, 8, 8⟩
def motErrCntStart : Fld := ⟨.motErrCnt, 16, 8⟩
def motErrCntPause : Fld := ⟨.motErrCnt, 24, 8⟩
def motOvrCntCount : Fld := ⟨.motOvrCnt, 0, 32⟩
def memFillCfgRate : Fld := ⟨.memFillCfg, 0, 7⟩
def memFillStatPages : Fld := ⟨.memFillStat, 0, 24⟩
def memScrubCfgEn : Fld := ⟨.memScrubCfg, 0, 1⟩
def memScrubCfgRate : Fld := ⟨.memScrubCfg, 6, 11⟩
def memScrubPosLoAddr : Fld := ⟨.memScrubPosLo, 0, 32⟩
def memScrubPosHiAddr : Fld := ⟨.memScrubPosHi, 0, 4⟩
def memScrubStatPasses : Fld := ⟨.memScrubStat, 0, 32⟩
def memBktCfgLeak : Fld := ⟨.memBktCfg, 0, 20⟩
def memBktCfgThresh : Fld := ⟨.memBktCfg, 20, 8⟩
def memErrCnt0Ce : Fld := ⟨.memErrCnt0, 0, 32⟩
def memErrCnt1Ue : Fld := ⟨.memErrCnt1, 0, 12⟩
def memErrCnt1Addr : Fld := ⟨.memErrCnt1, 12, 10⟩
def memErrCnt1Unfilled : Fld := ⟨.memErrCnt1, 22, 10⟩
def memLastErrLoAddr : Fld := ⟨.memLastErrLo, 0, 32⟩
def memLastErrHiAddr : Fld := ⟨.memLastErrHi, 0, 4⟩
def memLastErrHiClass : Fld := ⟨.memLastErrHi, 4, 3⟩
def memMashStatUsed : Fld := ⟨.memMashStat, 0, 7⟩
def memMashStatRmw : Fld := ⟨.memMashStat, 8, 24⟩
def memBktStatLevel : Fld := ⟨.memBktStat, 0, 8⟩
def memOvrCntCount : Fld := ⟨.memOvrCnt, 0, 32⟩
def poolErrCntRange : Fld := ⟨.poolErrCnt, 0, 8⟩
def poolErrCntOversize : Fld := ⟨.poolErrCnt, 8, 8⟩
def poolErrCntOverflow : Fld := ⟨.poolErrCnt, 16, 8⟩
def poolOvrCntCount : Fld := ⟨.poolOvrCnt, 0, 32⟩
def poolPCfgCount : Fld := ⟨.poolPCfg, 0, 29⟩
def poolPStatCreated : Fld := ⟨.poolPStat, 0, 29⟩
def poolPFreeCount : Fld := ⟨.poolPFree, 0, 29⟩
def poolRsvPMin : Fld := ⟨.poolRsvP, 0, 29⟩
def poolHeldPCount : Fld := ⟨.poolHeldP, 0, 29⟩
def queQfStatPin : Fld := ⟨.queQfStat, 0, 8⟩
def queOvrCntCount : Fld := ⟨.queOvrCnt, 0, 32⟩
def queQCfgEn : Fld := ⟨.queQCfg, 0, 1⟩
def queQCfgSize : Fld := ⟨.queQCfg, 1, 4⟩
def queQCfgFramed : Fld := ⟨.queQCfg, 5, 1⟩
def queQCfgNostall : Fld := ⟨.queQCfg, 6, 1⟩
def queQCfgPfcEn : Fld := ⟨.queQCfg, 7, 1⟩
def queQCfgPfcPri : Fld := ⟨.queQCfg, 8, 3⟩
def queQCfgQf : Fld := ⟨.queQCfg, 11, 4⟩
def queQCfgBase : Fld := ⟨.queQCfg, 16, 12⟩
def queQWmHigh : Fld := ⟨.queQWm, 0, 16⟩
def queQWmLow : Fld := ⟨.queQWm, 16, 16⟩
def queQCtlFlush : Fld := ⟨.queQCtl, 0, 1⟩
def queQStatLevel : Fld := ⟨.queQStat, 0, 17⟩
def queQStatAbove : Fld := ⟨.queQStat, 17, 1⟩
def queQCntDrops : Fld := ⟨.queQCnt, 0, 16⟩
def queQCntCe : Fld := ⟨.queQCnt, 16, 8⟩
def queQCntResets : Fld := ⟨.queQCnt, 24, 8⟩
def ctlOvrCfgQueue : Fld := ⟨.ctlOvrCfg, 0, 8⟩
def ctlOvrCfgEvt : Fld := ⟨.ctlOvrCfg, 8, 1⟩
def ctlBootAddrLoAddr : Fld := ⟨.ctlBootAddrLo, 0, 32⟩
def ctlBootAddrHiAddr : Fld := ⟨.ctlBootAddrHi, 0, 32⟩
def ctlBootLenBytes : Fld := ⟨.ctlBootLen, 0, 24⟩
def ctlBootCtlGo : Fld := ⟨.ctlBootCtl, 0, 1⟩
def ctlBootStatState : Fld := ⟨.ctlBootStat, 0, 2⟩
def ctlFwVerVersion : Fld := ⟨.ctlFwVer, 0, 32⟩
def ctlSetupLockLock : Fld := ⟨.ctlSetupLock, 0, 1⟩
def ctlOvrCntCount : Fld := ⟨.ctlOvrCnt, 0, 32⟩
def pciErrCntBar : Fld := ⟨.pciErrCnt, 0, 8⟩
def pciErrCntDoorbell : Fld := ⟨.pciErrCnt, 8, 8⟩
def pciErrCntPoison : Fld := ⟨.pciErrCnt, 16, 8⟩
def pciOvrCntCount : Fld := ⟨.pciOvrCnt, 0, 32⟩
def pciRingSqLoAddr : Fld := ⟨.pciRingSqLo, 0, 32⟩
def pciRingSqHiAddr : Fld := ⟨.pciRingSqHi, 0, 32⟩
def pciRingCqLoAddr : Fld := ⟨.pciRingCqLo, 0, 32⟩
def pciRingCqHiAddr : Fld := ⟨.pciRingCqHi, 0, 32⟩
def pciRingCapLoAddr : Fld := ⟨.pciRingCapLo, 0, 32⟩
def pciRingCapHiAddr : Fld := ⟨.pciRingCapHi, 0, 32⟩
def pciRingCfgEn : Fld := ⟨.pciRingCfg, 0, 1⟩
def pciRingCfgKind : Fld := ⟨.pciRingCfg, 1, 3⟩
def pciRingCfgSize : Fld := ⟨.pciRingCfg, 4, 4⟩
def pciRingCfgVec : Fld := ⟨.pciRingCfg, 8, 11⟩
def pciRingIrqCoalCnt : Fld := ⟨.pciRingIrq, 0, 8⟩
def pciRingIrqCoalTicks : Fld := ⟨.pciRingIrq, 8, 16⟩
def pciRingStatSqHead : Fld := ⟨.pciRingStat, 0, 16⟩
def pciRingStatCqTail : Fld := ⟨.pciRingStat, 16, 16⟩
def ethGrpCfgMode : Fld := ⟨.ethGrpCfg, 0, 3⟩
def ethGrpCfgElec : Fld := ⟨.ethGrpCfg, 3, 1⟩
def ethGrpStatLock : Fld := ⟨.ethGrpStat, 0, 4⟩
def ethOvrCntCount : Fld := ⟨.ethOvrCnt, 0, 32⟩
def ethPortCfgEn : Fld := ⟨.ethPortCfg, 0, 1⟩
def ethPortCfgPfcRx : Fld := ⟨.ethPortCfg, 1, 1⟩
def ethPortCfgDscp : Fld := ⟨.ethPortCfg, 2, 6⟩
def ethPortCfgPcp : Fld := ⟨.ethPortCfg, 8, 3⟩
def ethPortCfgVlanEn : Fld := ⟨.ethPortCfg, 11, 1⟩
def ethPortCfgVlanId : Fld := ⟨.ethPortCfg, 12, 12⟩
def ethPortStatUp : Fld := ⟨.ethPortStat, 0, 1⟩
def ethPortStatPresent : Fld := ⟨.ethPortStat, 1, 1⟩
def ethPortStatSpeed : Fld := ⟨.ethPortStat, 2, 2⟩
def ethPortMacLoMac : Fld := ⟨.ethPortMacLo, 0, 32⟩
def ethPortMacHiMac : Fld := ⟨.ethPortMacHi, 0, 16⟩
def ethPortIp4Addr : Fld := ⟨.ethPortIp4, 0, 32⟩
def ethPortIp60Addr : Fld := ⟨.ethPortIp60, 0, 32⟩
def ethPortIp61Addr : Fld := ⟨.ethPortIp61, 0, 32⟩
def ethPortIp62Addr : Fld := ⟨.ethPortIp62, 0, 32⟩
def ethPortIp63Addr : Fld := ⟨.ethPortIp63, 0, 32⟩
def ethPortFecCntCorr : Fld := ⟨.ethPortFecCnt, 0, 16⟩
def ethPortFecCntUncorr : Fld := ⟨.ethPortFecCnt, 16, 16⟩
def fabCfgAddr : Fld := ⟨.fabCfg, 0, 7⟩
def fabCfgCand : Fld := ⟨.fabCfg, 7, 1⟩
def fabTimeStatAligned : Fld := ⟨.fabTimeStat, 0, 1⟩
def fabTimeStatSourceOk : Fld := ⟨.fabTimeStat, 1, 1⟩
def fabTimeStatSource : Fld := ⟨.fabTimeStat, 8, 7⟩
def fabTimeStatPhase : Fld := ⟨.fabTimeStat, 16, 16⟩
def fabTimeOfsLoOffset : Fld := ⟨.fabTimeOfsLo, 0, 32⟩
def fabTimeOfsHiOffset : Fld := ⟨.fabTimeOfsHi, 0, 16⟩
def fabPairCfgPartner : Fld := ⟨.fabPairCfg, 0, 7⟩
def fabPairCfgEn : Fld := ⟨.fabPairCfg, 7, 1⟩
def fabPairCfgSoloT : Fld := ⟨.fabPairCfg, 16, 16⟩
def fabPairStatState : Fld := ⟨.fabPairStat, 0, 3⟩
def fabPairStatMissed : Fld := ⟨.fabPairStat, 3, 5⟩
def fabTunEtypeType : Fld := ⟨.fabTunEtype, 0, 16⟩
def fabOvrCntCount : Fld := ⟨.fabOvrCnt, 0, 32⟩
def fabPortCfgEn : Fld := ⟨.fabPortCfg, 0, 1⟩
def fabPortCfgRate : Fld := ⟨.fabPortCfg, 1, 1⟩
def fabPortCfgCost : Fld := ⟨.fabPortCfg, 8, 8⟩
def fabPortStatUp : Fld := ⟨.fabPortStat, 0, 1⟩
def fabPortStatLanes : Fld := ⟨.fabPortStat, 1, 4⟩
def fabPortStatNeighbour : Fld := ⟨.fabPortStat, 8, 7⟩
def fabPortStatDelay : Fld := ⟨.fabPortStat, 16, 16⟩
def fabPortErrCrc : Fld := ⟨.fabPortErr, 0, 8⟩
def fabPortErrReplay : Fld := ⟨.fabPortErr, 8, 8⟩
def fabPortErrDown : Fld := ⟨.fabPortErr, 16, 8⟩
def fabSvcCfgEn : Fld := ⟨.fabSvcCfg, 0, 1⟩
def fabSvcCfgIpv6 : Fld := ⟨.fabSvcCfg, 1, 1⟩
def fabSvcCfgPort : Fld := ⟨.fabSvcCfg, 2, 4⟩
def fabSvcIp0Addr : Fld := ⟨.fabSvcIp0, 0, 32⟩
def fabSvcIp1Addr : Fld := ⟨.fabSvcIp1, 0, 32⟩
def fabSvcIp2Addr : Fld := ⟨.fabSvcIp2, 0, 32⟩
def fabSvcIp3Addr : Fld := ⟨.fabSvcIp3, 0, 32⟩
def fabSvcMacLoMac : Fld := ⟨.fabSvcMacLo, 0, 32⟩
def fabSvcMacHiMac : Fld := ⟨.fabSvcMacHi, 0, 16⟩
def fabTunCfgEn : Fld := ⟨.fabTunCfg, 0, 1⟩
def fabTunCfgPort : Fld := ⟨.fabTunCfg, 1, 4⟩
def fabTunCfgPeer : Fld := ⟨.fabTunCfg, 8, 7⟩
def fabTunCfgCost : Fld := ⟨.fabTunCfg, 16, 8⟩
def fabTunMacLoMac : Fld := ⟨.fabTunMacLo, 0, 32⟩
def fabTunMacHiMac : Fld := ⟨.fabTunMacHi, 0, 16⟩
def hltTickLoCount : Fld := ⟨.hltTickLo, 0, 32⟩
def hltTickHiCount : Fld := ⟨.hltTickHi, 0, 16⟩
def hltCellarStatNext : Fld := ⟨.hltCellarStat, 0, 16⟩
def hltCellarStatPinned : Fld := ⟨.hltCellarStat, 16, 13⟩
def hltCellarErrBadSlots : Fld := ⟨.hltCellarErr, 0, 16⟩
def hltCellarErrBusyTicks : Fld := ⟨.hltCellarErr, 16, 16⟩
def hltBootCntCount : Fld := ⟨.hltBootCnt, 0, 32⟩
def hltAgeCfgEn : Fld := ⟨.hltAgeCfg, 0, 5⟩
def hltAgeCfgSnap : Fld := ⟨.hltAgeCfg, 8, 8⟩
def hltAgeThr0WearStep : Fld := ⟨.hltAgeThr0, 0, 16⟩
def hltAgeThr0EyeMin : Fld := ⟨.hltAgeThr0, 16, 8⟩
def hltAgeThr1SnrMin : Fld := ⟨.hltAgeThr1, 0, 8⟩
def hltAgeThr1RateExp : Fld := ⟨.hltAgeThr1, 8, 4⟩
def hltAvsStatOffset : Fld := ⟨.hltAvsStat, 0, 4⟩
def hltTestStatRefused : Fld := ⟨.hltTestStat, 0, 1⟩
def hltSbCfgHead : Fld := ⟨.hltSbCfg, 0, 1⟩
def hltSbStatPos : Fld := ⟨.hltSbStat, 0, 8⟩
def hltSbStatErr : Fld := ⟨.hltSbStat, 8, 8⟩
def hltPwrStatVbase : Fld := ⟨.hltPwrStat, 0, 5⟩
def hltPwrStatAvsErr : Fld := ⟨.hltPwrStat, 5, 1⟩
def hltPwrStatPf : Fld := ⟨.hltPwrStat, 6, 1⟩
def hltResetStatCause : Fld := ⟨.hltResetStat, 0, 3⟩
def hltResetStatSupply : Fld := ⟨.hltResetStat, 3, 3⟩
def hltPfCfgBrake : Fld := ⟨.hltPfCfg, 0, 1⟩
def hltThermStatTj : Fld := ⟨.hltThermStat, 0, 8⟩
def hltThermStatWarn : Fld := ⟨.hltThermStat, 8, 1⟩
def hltThermStatPeak : Fld := ⟨.hltThermStat, 16, 8⟩
def hltThermCfgWarn : Fld := ⟨.hltThermCfg, 0, 8⟩
def hltThermCfgHyst : Fld := ⟨.hltThermCfg, 8, 4⟩
def hltOvrCntCount : Fld := ⟨.hltOvrCnt, 0, 32⟩
def hltWearStatDegr : Fld := ⟨.hltWearStat, 0, 24⟩
def hltLaneEyeHeight : Fld := ⟨.hltLaneEye, 0, 10⟩
def hltLaneEyeWidth : Fld := ⟨.hltLaneEye, 10, 7⟩
def hltLaneEyeTrains : Fld := ⟨.hltLaneEye, 24, 8⟩

end Fld

end Sys2Proof
end

