-- ==== Sys2Proof/Machine/TypesRte.lean ====
section
/-! DEFINITION. The parts of the state on the tenants' side: connections, commands, windows, the scheduler, sessions,
chunks, drupelets, cipher units and the key cache. A connection key is the connection number for RoCE, and
16,384 plus the ring number for a PCIe record ring (R31, R65). `vis` and the stamps that name a boundary count the
boundaries the device has passed (R10); they are not the tick counter, which alignment may change. -/

namespace Sys2Proof.Machine

/-- A tenant entry and its meters (R67, R68, R386). -/
structure Tenant where
  weight : Nat := 1
  classes : Nat := 0
  rx : Nat := 0
  cmp : Nat := 0
  tape : Nat := 0
  chanNs : Nat := 0
  records : Nat := 0
  seq : Nat := 0
  /-- WEIGHT and CLASSES that a SET-TENANT of the present tick has set: they take effect at the next boundary (R385). -/
  next : Option (Nat × Nat) := none
  /-- The counters at the previous snapshot, and whether the next record carries RESTART. -/
  changed : Bool := false
  restart : Bool := true
  deriving DecidableEq, Repr

/-- A RoCE connection (R28, R29, R31, R385, R424). -/
structure Conn where
  tenant : Nat := 0
  port : Nat := 0
  v6 : Bool := false
  localQpn : Nat := 0
  remoteQpn : Nat := 0
  rqPsn : BitVec 24 := 0
  sqPsn : BitVec 24 := 0
  mtu : Nat := 0
  remoteIp : BitVec 128 := 0
  remoteMac : BitVec 48 := 0
  retry : Nat := 0
  timeout : Nat := 0
  err : Bool := false
  /-- The send rate R in Gbit/s (R28). -/
  rate : Rat := 0
  /-- Bytes sent beyond what R has paid for so far (R28). -/
  debt : Rat := 0
  /-- The boundary of the last rate cut, of the last CNP taken or recovery step, and of the last CNP sent. -/
  cutAt : Option Nat := none
  quietFrom : Nat := 0
  cnpSentAt : Option Nat := none
  /-- Packets sent and not yet acknowledged, oldest first (R397, R424): each message stands beside its last packet. -/
  unacked : List (BitVec 24 × Option Out) := []
  /-- Packets received whose acknowledgement waits for a batch of the mirror (R417): the PSN and the batch's tick. -/
  ackWait : List (BitVec 24 × TickCount) := []
  tries : Nat := 0
  rnrTries : Nat := 0
  deriving DecidableEq, Repr

/-- A READY window (R42, R43, R80): bytes `off` to `off + len - 1` of the command's stream. -/
structure Window where
  gid : BitVec 32
  rkey : BitVec 32
  va : BitVec 64
  len : Nat
  off : Nat
  handle : BitVec 32
  opened : Nat
  /-- Bytes written so far, as disjoint rising intervals (first, one past last). -/
  got : List (Nat × Nat) := []
  closed : Bool := false
  /-- The boundary from which the chunker may take the closed window. -/
  vis : Nat := 0
  withdrawn : Option Nat := none
  deriving DecidableEq, Repr

/-- What a write command has done (R41 to R44, R86, R93): the first ordinal assigned, the records' lengths and
marks, grants, windows and the chunker's position in its stream. -/
structure WrPart where
  ord : Nat := 0
  lens : List Nat := []
  marks : Nat := 0
  total : Nat := 0
  /-- Stream offset of the next grant step, and windows (offset, length) requested from POOL and not yet sent. -/
  stepOff : Nat := 0
  asked : List (Nat × Nat) := []
  wins : List Window := []
  /-- The offset below which every window has been taken and freed. -/
  freed : Nat := 0
  /-- The stream offset up to which records are accepted, once the command has failed (R44). -/
  limit : Option Nat := none
  /-- The record being placed, bytes of it taken, its next piece number, and the stream offset taken up to. -/
  recNo : Nat := 0
  recOff : Nat := 0
  piece : Nat := 0
  taken : Nat := 0
  /-- Records accepted once the command has failed: those below this index (R44). -/
  kept : Nat := 0
  /-- Records not begun are placed as void pieces (R86, R87). -/
  voided : Bool := false
  /-- Every record has been taken by the chunker, or will never be. -/
  ended : Bool := false
  deriving DecidableEq, Repr

/-- The record that a READ-RECORDS is gathering (R56): its ordinal, TOTAL, mark and void bits, the next piece number,
whether a piece is missing, whether LAST has come, and the bytes so far. -/
structure RecGather where
  ord : Nat
  total : Nat
  mark : Bool
  void : Bool
  next : Nat
  cut : Bool
  last : Bool
  poison : Bool
  bytes : List Byte
  deriving DecidableEq, Repr

/-- What a READ-RECORDS has delivered, and where it stands (R52 to R57). -/
structure RdPart where
  recs : Nat := 0
  bytes : Nat := 0
  first : Nat := 0
  next : Nat := 0
  torn : Bool := false
  begun : Bool := false
  /-- The next data set to look into, the entries of its directory that have been dealt with, and the record being gathered. -/
  ds : Nat := 0
  dirAt : Nat := 0
  cur : Option RecGather := none
  deriving DecidableEq, Repr

/-- A command that holds its tag (R36, R85). -/
structure Cmd where
  src : Nat
  tag : BitVec 16
  op : Nat
  session : Nat
  tenant : Nat
  cls : Nat
  cap : List Byte
  arr : Nat
  /-- The boundary from which its admission is committed. -/
  adm : Option Nat := none
  wr : WrPart := {}
  rd : RdPart := {}
  /-- The failure that ends the command, once it has one. -/
  fail : Option Nat := none
  /-- The boundary from which the command's last condition held. -/
  due : Option Nat := none
  /-- The final response has been sent or will never be: the tag is free, and records already received go on. -/
  answered : Bool := false
  /-- A SYNC's covered ordinals: those below this one (R48). -/
  bound : Nat := 0
  deriving DecidableEq, Repr

/-- A response or READY capsule that has not gone out: it fell due beyond the budget of its tick (R63), or falls due at
boundary `vis` (R488). -/
structure DueCap where
  src : Nat
  bytes : List Byte
  ready : Bool
  vis : Nat
  deriving DecidableEq, Repr

/-- A PUSH-DATA read in flight (R66). -/
structure Push where
  ring : Nat
  gid : BitVec 32
  addr : BitVec 64
  len : Nat
  tag : BitVec 16
  deriving DecidableEq, Repr

/-- The record transport engine. -/
structure Rte where
  conns : Table Conn := []
  tenants : Table Tenant := []
  cmds : Table Cmd := []
  nextCmd : Nat := 0
  dueq : List DueCap := []
  grantsSent : Nat := 0
  respsSent : Nat := 0
  pushes : List Push := []
  /-- READY grants on connections destroyed or closed whose windows drain (R80): windows of commands that have
  ended, with the connection key. -/
  draining : List (Nat × Window) := []
  deriving DecidableEq, Repr

/-- A step that a round has taken and not yet committed (R77): the command, and the window length of a grant step,
0 for an admission. -/
structure WonStep where
  cmd : Nat
  grant : Nat
  vis : Nat
  deriving DecidableEq, Repr

/-- The scheduler (R72 to R77). Virtual times by tenant × 8 + class. -/
structure Sch where
  vt : Table Nat := []
  /-- The tenant last chosen in each class (R76). -/
  lastTen : List (Option Nat) := [none, none, none, none, none]
  deficit : List Nat := [0, 0, 0, 0]
  fresh : List Bool := [true, true, true, true]
  rr : Nat := 0
  carryU : Nat := 0
  carryAll : Nat := 0
  /-- Tenant × 8 + class pairs that had an eligible step left when the previous round ended (R76). -/
  left : List Nat := []
  /-- The connection served last, by tenant × 8 + class (R77). -/
  rrConn : Table Nat := []
  won : List WonStep := []
  /-- The round under way has overrun: it finishes in the next tick, and no other round runs there (R16, R78). -/
  overrun : Bool := false
  deriving DecidableEq, Repr

/-- A position entry (R48). -/
structure PosEntry where
  vol : BitVec 64
  ds : Nat
  lost : Bool
  first : Nat
  count : Nat
  deriving DecidableEq, Repr

/-- A session (R33, R38, R89, R137). -/
structure Session where
  src : Nat
  tenant : Nat
  cls : Nat
  read : Bool
  comp : Bool
  enc : Bool
  key : Nat
  span : Nat
  slot : Nat
  /-- Next ordinal to assign, next ordinal to be placed by the chunker. -/
  next : Nat := 0
  open_ : Option Nat := none
  member : Option Nat := none
  held : List PosEntry := []
  /-- Ordinal below which SYNCs have reported every record. -/
  reported : Nat := 0
  /-- The original Kilderkin of the next chunk to open, once POOL has committed it (R97). -/
  buf : Option (BitVec 32) := none
  /-- The stored Kilderkin of the next chunk to open, once POOL has committed it (R97). -/
  storedBuf : Option (BitVec 32) := none
  /-- The session is closed; its received records still go to tape (R34, R39). -/
  dead : Bool := false
  /-- A function level reset has closed the session, and SESSION_CLOSED is still to be posted (R89). -/
  report : Bool := false
  deriving DecidableEq, Repr

/-- One piece in a chunk (R92), with the command whose record it belongs to. -/
structure Piece where
  ord : Nat
  len : Nat
  first : Bool
  last : Bool
  mark : Bool
  void : Bool
  total : Nat
  no : Nat
  cmd : Nat
  deriving DecidableEq, Repr

/-- Where a chunk stands on its way to tape. -/
inductive ChunkSt where
  | filling | closed | queued | running | cipher | ready | sealed | placed | onTape | lost | dropped
  deriving DecidableEq, Repr

/-- A chunk of a write session (R91 to R99, R115, R119). -/
structure Chunk where
  session : Nat
  tenant : Nat
  span : Nat
  key : Nat
  comp : Bool
  enc : Bool
  seq : BitVec 64
  st : ChunkSt := .filling
  pieces : List Piece := []
  orig : Option (BitVec 32) := none
  stored : Option (BitVec 32) := none
  ovf : List (BitVec 32) := []
  origLen : Nat := 0
  storedLen : Nat := 0
  /-- The CRC register over the original stream so far, and the CRC once the chunk has closed. -/
  crc : BitVec 32 := 0xFFFFFFFF
  torn : Bool := false
  poisoned : Bool := false
  /-- The status its commands receive when it is dropped (R124, R127). -/
  why : Nat := 0
  /-- The tick in which its last record byte was taken (R415). -/
  mirTick : TickCount := 0
  opened : Nat := 0
  lastByte : Nat := 0
  /-- The boundary at which a closure fell due, and the one from which the present state is visible. -/
  dueAt : Option Nat := none
  vis : Nat := 0
  /-- Where it was placed: member, row, directory index (R135 to R137). -/
  member : Nat := 0
  row : Nat := 0
  dir : Nat := 0
  /-- Volume and number of its data set, known when its row closes. -/
  vol : BitVec 64 := 0
  ds : Nat := 0
  known : Bool := false
  deriving DecidableEq, Repr

/-- The chunker and session store. -/
structure Ses where
  sessions : Table Session := []
  lastNum : Nat := 0
  /-- Contexts held in the on-chip cache, most recently used first (R22), and contexts as their slots in HBM hold them (R23). -/
  cache : List Nat := []
  stored : Table Session := []
  chunks : Table Chunk := []
  nextChunk : Nat := 0
  closures : Nat := 0
  deriving DecidableEq, Repr

/-- A chunk being read back (R101, R109, R117): the header and stored bytes found in a decoded payload, with the
data set it lies in and the poison of its words. -/
structure RdChunk where
  cmd : Nat
  vol : BitVec 64
  ds : Nat
  head : List Byte
  body : List Byte
  salt : BitVec 32
  /-- The poison of the words that the chunk's extent touches, its place in the first of them, and the ordinal of its directory entry. -/
  poison : List Bool
  skew : Nat := 0
  ord : Nat := 0
  /-- Decrypted (or unencrypted) input, then the decompressed output. -/
  plain : Option (List Byte) := none
  out : Option (List Byte) := none
  /-- The failure found: the status code and, for DECOMPRESS_ERROR, the error code. -/
  err : Option (Nat × Nat) := none
  vis : Nat := 0
  deriving DecidableEq, Repr

/-- A drupelet's or cipher unit's work: a write chunk or a read chunk by number. -/
structure Job where
  rd : Bool
  id : Nat
  deriving DecidableEq, Repr

/-- A job in progress on a drupelet (R111): its input position and output so far, the encoder's hash table and open
literal run. -/
structure DruRun where
  job : Job
  pos : Nat := 0
  run : Nat := 0
  hash : Table Nat := []
  out : List Byte := []
  /-- Bytes consumed, and bytes produced, beyond the budget of the tick: they count in the next one. -/
  spent : Nat := 0
  made : Nat := 0
  quanta : Nat := 0
  deriving DecidableEq, Repr

/-- One drupelet (R111 to R114). -/
structure Drupelet where
  queue : List Job := []
  cur : Option DruRun := none
  deriving DecidableEq, Repr

/-- One cipher unit (R125): the job and the bytes still to be spent on it. -/
structure CipUnit where
  cur : Option (Job × Nat) := none
  deriving DecidableEq, Repr

/-- A key held in the cache (R123). -/
structure KeyEnt where
  index : Nat
  tenant : Nat
  key : List Byte
  /-- The boundary from which others see it. -/
  vis : Nat := 0
  deriving DecidableEq, Repr

/-- Drupelets, cipher units and the key cache. -/
structure Dru where
  engines : List Drupelet := List.replicate 48 {}
  /-- The pointer of R113, which advances by one each tick. -/
  ptr : Nat := 0
  cipq : List (Job × Nat) := []
  units : List CipUnit := List.replicate 16 {}
  /-- Keys held, most recently used first, at most 1,024 (R123). -/
  keys : List KeyEnt := []
  /-- Key table fetches in flight, and entries that failed R121 at their last fetch. -/
  fetching : List Nat := []
  badKeys : List Nat := []
  /-- CIP_KEK_W0 to W7 as written (R122); they are never read back. -/
  kekW : List Word32 := List.replicate 8 0
  rd : Table RdChunk := []
  nextRd : Nat := 0
  deriving DecidableEq, Repr

end Sys2Proof.Machine
end

