-- ==== Sys2Proof/Machine/TypesFab.lean ====
section
/-! DEFINITION. The parts of the state of the fabric, the pair, Ethernet and the pins. -/

namespace Sys2Proof.Machine

/-- A link or tunnel (R401, R402, R410). -/
structure Link where
  up : Bool := false
  /-- Consecutive ticks with a valid TICK frame, and with no valid frame. -/
  good : Nat := 0
  quiet : Nat := 0
  heard : Bool := false
  heardTick : Bool := false
  txSeq : BitVec 16 := 0
  rxNext : BitVec 16 := 0
  /-- Frames sent and not yet acknowledged, oldest first: their sequence numbers, headers and payloads. -/
  replay : List (BitVec 16 × List Byte × List Byte) := []
  replays : Nat := 0
  /-- Credit in bytes for classes 1 to 4 (R401). -/
  credit : List Nat := [65536, 65536, 65536, 65536]
  waiting : List (List Byte × List Byte) := []
  neighbour : BitVec 7 := 0
  /-- What the neighbour's TICK frame last said: its count, and twice θ and twice d in units of 0.625 ns (R410), and
  whether it is aligned (R412). -/
  count : BitVec 48 := 0
  theta2 : Int := 0
  delay2 : Int := 0
  aligned : Bool := false
  deriving DecidableEq, Repr

/-- A link-state advertisement held (R404). -/
structure Lsa where
  serial : BitVec 64
  addr : BitVec 7
  seq : BitVec 32
  source : Option Nat
  taken : BitVec 8
  adj : List (Nat × Nat)
  since : Nat
  deriving DecidableEq, Repr

/-- An end-to-end receiver for a source and class (R407). -/
structure E2eRx where
  next : BitVec 32 := 0
  held : List (BitVec 32 × List Byte × List Byte) := []
  gapSince : Option Nat := none
  deriving DecidableEq, Repr

/-- An end-to-end sender for a destination and class (R407). -/
structure E2eTx where
  next : BitVec 32 := 0
  kept : List (BitVec 32 × List Byte × List Byte) := []
  ackAt : Nat := 0
  deriving DecidableEq, Repr

/-- A data set of a member that a peer is sending for a transport of the device's own (R326): source, transport, row and what has come. -/
structure PeerIn where
  src : Nat
  tp : Nat
  row : Nat
  got : Words := {}
  deriving DecidableEq, Repr

/-- Whether it is the data set of a source, transport and row. -/
def PeerIn.is (x : PeerIn) (src tp row : Nat) : Bool := x.src == src && x.tp == tp && x.row == row

/-- The fabric. Links 0 to 7 are FAB0 to FAB7, links 8 to 11 the tunnels (R403). -/
structure Fab where
  links : List Link := List.replicate 12 {}
  lsas : List Lsa := []
  mySeq : BitVec 32 := 1
  lsaAt : Nat := 0
  lsaDirty : Bool := false
  /-- The forwarding table: destination → up to four first hops (R406), and whether it has to be computed. -/
  routes : Table (List Nat) := []
  routeDirty : Bool := false
  conflicts : List Nat := []
  rx : Table E2eRx := []
  tx : Table E2eTx := []
  source : Option Nat := none
  sourceLost : Nat := 0
  /-- Phase steps the tick generator applies to the next boundary (R410), and ticks of good alignment. -/
  shift : Int := 0
  alignRun : Nat := 0
  noUp : Nat := 0
  taken : BitVec 8 := 0xFF
  /-- The source reachable until now, the upstream neighbour's count to take at the next boundary (R411), and a boundary
  since which no upstream neighbour is known. -/
  adopt : Option (BitVec 48) := none
  /-- Data of members that peers have sent for the device's own transports (R326). -/
  peerIn : List PeerIn := []
  deriving DecidableEq, Repr

/-- A mirror record (R415): control records `cmd` and `psn`, data records otherwise. -/
inductive MirRec where
  /-- A command as admitted, with its ordinals, or with its grants. -/
  | cmd (id : Nat) (k : Cmd)
  /-- A packet that the device sends as requester: for a SEND its capsule, for read data the command it serves. -/
  | psn (conn : Nat) (psn : BitVec 24) (cap : List Byte) (read : Option Nat)
  /-- Connection state. -/
  | conn (c : Nat) (k : Conn)
  /-- A tenant entry with its meters. -/
  | tenant (t : Nat) (m : Tenant)
  /-- A session context. -/
  | session (n : Nat) (s : Session)
  /-- Bytes of a closed window: command, stream offset, bytes. -/
  | window (cmd off : Nat) (bytes : Words)
  /-- A chunk's seal or the chunker's state of it, with its original stream, which the partner rebuilds from window bytes;
  empty once a mirrored payload holds the chunk. -/
  | seal (id : Nat) (c : Chunk) (stream : Words)
  /-- The row journal of a span set, with its cursors and checkpoints. -/
  | span (slot : Nat) (s : Span)
  /-- The assembled payload of a data set. -/
  | payload (slot row member : Nat) (bytes : Words)
  /-- A service address (R421): its FAB_SVC entry. -/
  | svc (j : Nat) (cfg : BitVec 32) (addr : BitVec 128) (mac : BitVec 48)
  deriving DecidableEq, Repr

/-- What fabric frames carry (R404, R401, R407, R415, R416, R419, R326). The manual gives the payloads no layout. -/
inductive FabMsg where
  /-- Credit for a class 1 to 4, in bytes. -/
  | credit (cls bytes : Nat)
  /-- The destination has taken a class's frames below a sequence number. -/
  | e2eAck (cls : Nat) (next : BitVec 32)
  /-- A gap stands open from a sequence number. -/
  | e2eNak (cls : Nat) (seq : BitVec 32)
  | heartbeat (tick committed acked : BitVec 48)
  | mirrorAck (batch : BitVec 48)
  | mirrorNak (batch : BitVec 48)
  | control (r : MirRec)
  | data (batch : BitVec 48) (r : MirRec)
  | batchEnd (batch : BitVec 48) (count : Nat) (crc : BitVec 32)
  /-- The resync of R423. -/
  | resync (r : MirRec)
  | lsa (l : Lsa)
  /-- Bytes of a member's data set, and its end. -/
  | memberData (tp row off : Nat) (bytes : Words) (fin : Bool)
  | memberStatus (tp row : Nat) (written verified : Bool) (wrap time : Nat)
  deriving DecidableEq, Repr

/-- A batch of the partner as received so far (R416): BATCH_END's record count and CRC once it has come, and the bytes
of its records. -/
structure Batch where
  tick : BitVec 48
  recs : List MirRec := []
  raw : List Byte := []
  fin : Option (Nat × BitVec 32) := none
  deriving DecidableEq, Repr

/-- What is held of the partner (R415 to R424). -/
structure Partner where
  control : List MirRec := []
  batches : List Batch := []
  /-- Records kept, each with its buffer of owner 10. -/
  store : List (MirRec × Option (BitVec 32)) := []
  committed : BitVec 48 := 0
  /-- A heartbeat has been taken in this tick, and ticks in a row with one. -/
  beat : Bool := false
  beatRun : Nat := 0
  theirCommit : BitVec 48 := 0
  theirAck : BitVec 48 := 0
  deriving DecidableEq, Repr

/-- A takeover under way (R421): boundary x, the first missed tick f, the transports the partner owned, and whether the
claims of boundary x + 1 have been made. -/
structure Takeover where
  x : Nat
  f : Nat
  tps : List Nat
  claimed : Bool := false
  deriving DecidableEq, Repr

/-- The device's own side of the pair. -/
structure Pair where
  partner : Partner := {}
  /-- The data records that the partner has been sent, latest copy of each; batches sent and not yet acknowledged, and
  those to send again. -/
  last : List MirRec := []
  sent : List (BitVec 48 × List MirRec) := []
  resend : List (BitVec 48) := []
  /-- The last acknowledgement taken. -/
  acked : Option (BitVec 48) := none
  backlog : Bool := false
  partSince : Option Nat := none
  takeover : Option Takeover := none
  /-- The boundary of the first announcement of the partner's service addresses, and repetitions made (R421). -/
  arpAt : Option Nat := none
  arpDone : Nat := 0
  tookOver : Bool := false
  /-- The partner's service addresses as they stood at the takeover, and the partner's meters at the last snapshot. -/
  svcs : List MirRec := []
  metered : List MirRec := []
  /-- A resync is under way; it has been sent up to and including a batch (R423). -/
  resync : Option (BitVec 48) := none
  deriving DecidableEq, Repr

/-- Ethernet (R373, R485, R486). -/
structure Eth where
  /-- Boundary of the last PFC frame, by 256 × port + queue (R373). -/
  pfcAt : Table Nat := []
  /-- The boundary until which a priority is paused, by 8 × port + priority (R486). -/
  pause : Table Nat := []
  /-- Messages that a pause or their connection's rate holds back (R28, R486), in order, each with its connection. -/
  held : List (Nat × Out) := []
  /-- PFC frames that an overrun of their lane group has put off by a tick (R16). -/
  late : List Out := []
  deriving DecidableEq, Repr

/-- The pins the device drives (R461) and the reset sequencer (R467 to R470). -/
structure Pins where
  thermN : Bool := true
  bypass : Bool := false
  /-- Resets taken and not yet acted on (R467 to R469): by RESET_N, over SMBus, and by a thermal trip or supply fault with its
  cause and supply. -/
  reqPin : ResetKind := .none
  reqSmb : ResetKind := .none
  reqTrip : Option (Nat × Nat) := none
  /-- A reset under way: its kind, its boundary b, and whether the core is held in reset. -/
  entering : ResetKind := .none
  resetAt : Nat := 0
  held : Bool := false
  /-- Consecutive boundaries with a sensor at 120 °C or above, a trip in force, and every sensor below 100 °C (R477). -/
  hotTicks : Nat := 0
  tripped : Bool := false
  cool : Bool := true
  /-- A supply has tripped its monitor and has not been in range for 1 ms since (R464). -/
  faulted : Bool := false
  /-- The tick in which PWR_FAIL_N fell, until its boundary, and the warning taken (R470). -/
  pfAt : Option Nat := none
  pfTaken : Bool := false
  deriving DecidableEq, Repr

/-- Overrun reports that wait to be placed and blocks that lost a commit (R16). -/
structure Ovr where
  /-- Steps of this tick that do not commit at the coming boundary: block code, instance and STEP code. -/
  stalled : List (Nat × Nat × Nat) := []
  /-- Ticks of the last overrun of each MOT instance (R20). -/
  lastMot : List (Option Nat) := List.replicate 8 none
  deriving DecidableEq, Repr

end Sys2Proof.Machine
end

