-- ==== Sys2Proof/Machine/State.lean ====
section
/-! DEFINITION. The state of the ZD-8064: every register (in `regs`, by BAR0 offset), buffer memory, every queue,
engine and sequencer of the manual, and the queue of commands that wait. -/

namespace Sys2Proof.Machine

/-- Why the machine stops. -/
inductive Fault where
  /-- Raised by MASH_WRITE_OUT and PAYLOAD_WORD_REFETCH on a word address that does not exist: buffer memory ends at
  0xB_FFFF_FFFF (R329). Safe: the machine stops where the manual has no such word. -/
  | badAddress (word : Nat)
  deriving DecidableEq, Repr

/-- Why a command has no meaning. -/
inductive Refusal where
  /-- Raised by `exec` for a command that the model does not give a meaning yet. Safe: no claim can be proved of it. -/
  | notModelled (mnemonic : String)
  deriving DecidableEq, Repr

/-- Everything the device holds but buffer memory and the waiting commands. -/
structure Dev where
  /-- The 48-bit tick counter (R7), and the boundaries passed since the model's reset, which alignment never changes. -/
  tick : TickCount := 0
  clk : Nat := 0
  /-- Every register that does not read its reset value, by BAR0 offset (R480). -/
  regs : Table Word32 := []
  /-- Register writes that have arrived and take effect at the next boundary, oldest first (R12). -/
  regw : List (Nat × Word32) := []
  mem : Mem := {}
  pool : Pool := {}
  que : Que := {}
  ctl : Ctl := {}
  rte : Rte := {}
  sch : Sch := {}
  ses : Ses := {}
  dru : Dru := {}
  spn : Spn := {}
  tp : List Tp := List.replicate 8 {}
  wr : List Wr := List.replicate 8 {}
  rd : List Rd := List.replicate 8 {}
  mot : List Mot := List.replicate 8 {}
  fab : Fab := {}
  pair : Pair := {}
  eth : Eth := {}
  hlt : Hlt := {}
  age : Age := {}
  pins : Pins := {}
  ovr : Ovr := {}
  /-- What the device has emitted, newest first, and the number of free values used (the model's own fields). -/
  out : List Out := []
  free : Nat := 0
  deriving DecidableEq, Repr

/-- The state: waiting commands first in, first out; buffer memory; the device. -/
structure State where
  pending : List Instr := []
  hbm : Hbm := {}
  dev : Dev := {}
  deriving DecidableEq, Repr

/-- The device right after its supplies and VAON rise and reset is released: every register at its reset value,
buffer memory unmarked, no command waiting. -/
def State.reset : State := {}

end Sys2Proof.Machine
end

