-- ==== Sys2Proof/Machine/Flags.lean ====
section
/-! DEFINITION. The registers: fields, status flags and counters (R4, R12, R13, R480, R481, R483), and the free
values. A register has one home: `Dev.regs`. Fields that show other state are computed when they are read. -/

namespace Sys2Proof.Machine

/-- The stored value of instance `i` of register `r`. -/
def Dev.rawReg (d : Dev) (r : RegId) (i : Nat) : Word32 := tgetD d.regs (r.offset i) (r.resetValue i)

/-- Store `v` in instance `i` of register `r`; only values that differ from the reset value are listed. -/
def Dev.putReg (d : Dev) (r : RegId) (i : Nat) (v : Word32) : Dev :=
  { d with regs := tputD d.regs (r.offset i) (r.resetValue i) v }

/-- `v` placed in bits `lo + w - 1` to `lo` of `old`. -/
def setBits (old lo w v : Nat) : Nat := old - bits old lo w * 2 ^ lo + v % 2 ^ w * 2 ^ lo

/-- A field's value. -/
def Dev.fld (d : Dev) (f : Fld) (i : Nat := 0) : Nat := bits (d.rawReg f.reg i).toNat f.lo f.width

/-- A one-bit field as a flag. -/
def Dev.flag (d : Dev) (f : Fld) (i : Nat := 0) : Bool := d.fld f i == 1

/-- Set a field. -/
def Dev.setFld (d : Dev) (f : Fld) (i : Nat) (v : Nat) : Dev :=
  d.putReg f.reg i (BitVec.ofNat 32 (setBits (d.rawReg f.reg i).toNat f.lo f.width v))

/-- Set a one-bit field. -/
def Dev.setFlag (d : Dev) (f : Fld) (i : Nat) (b : Bool) : Dev := d.setFld f i (b2n b)

/-- Add `n` to a counter field that saturates. -/
def Dev.bump (d : Dev) (f : Fld) (i : Nat := 0) (n : Nat := 1) : Dev :=
  d.setFld f i (satAdd (d.fld f i) n (2 ^ f.width - 1))

/-- Set-up is locked (R389). -/
def Dev.locked (d : Dev) : Bool := d.flag Fld.ctlSetupLockLock

/-- A field in which 0 acts as 1. -/
def Dev.fld1 (d : Dev) (f : Fld) (i : Nat := 0) : Nat := max 1 (d.fld f i)

/-- A field limited to `lo` … `hi`. -/
def Dev.fldIn (d : Dev) (f : Fld) (i lo hi : Nat) : Nat := max lo (min hi (d.fld f i))

/-- A field in which 0 acts as `z`. -/
def Dev.fldZ (d : Dev) (f : Fld) (i z : Nat) : Nat := if d.fld f i = 0 then z else d.fld f i

/-- What one field of a register holds after software writes `v` (R4). RO and WO fields store nothing; an RWL
field stores nothing once set-up is locked. -/
def fieldAfterWrite (locked : Bool) (f : FieldInfo) (old v : Nat) : Nat :=
  let o := bits old f.lo f.width
  let n := bits v f.lo f.width
  match f.access with
  | .rw => n
  | .rws => n
  | .rwl => if locked then o else n
  | .w1c => o &&& ((2 ^ f.width - 1) - n)
  | .ro => o
  | .wo => o

/-- A register's value after software writes `v` by the access types of its fields (R4). -/
def valueAfterWrite (locked : Bool) (fs : List FieldInfo) (old v : Nat) : Nat :=
  fs.foldl (fun acc f => setBits acc f.lo f.width (fieldAfterWrite locked f old v)) old

/-- The plain effect of a register write at its boundary (R4, R12). -/
def Dev.storeReg (d : Dev) (r : RegId) (i : Nat) (v : Word32) : Dev :=
  d.putReg r i (BitVec.ofNat 32 (valueAfterWrite d.locked r.fields (d.rawReg r i).toNat v.toNat))

/-- A register write arrives (R12): it takes effect at the next boundary, in arrival order. -/
def Dev.queueWrite (d : Dev) (off : Nat) (v : Word32) : Dev := { d with regw := d.regw ++ [(off, v)] }

/-- Every register after a reset (R4, R22, R483), `cold` true for a cold reset or power-up: the fields that it keeps stay, and
the others take their reset values. -/
def resetRegs (cold : Bool) (regs : Table Word32) : Table Word32 :=
  regs.filterMap fun (off, v) =>
    match regAt off with
    | none => none
    | some (r, i) =>
      let kept := r.fields.filter fun f => if cold then f.cold else f.warm
      let n := kept.foldl (fun acc f => setBits acc f.lo f.width (bits v.toNat f.lo f.width)) (r.resetValue i).toNat
      let w : Word32 := BitVec.ofNat 32 n
      if w = r.resetValue i then none else some (off, w)

/-! ### Free values -/

/-- The next free value, of `w` bits. -/
def Dev.fresh (d : Dev) : BitVec 64 := Config.freeValue d.free

/-- A free value has been used. -/
def Dev.spend (d : Dev) (n : Nat := 1) : Dev := { d with free := d.free + n }

/-- Something leaves the device. -/
def Dev.emit (d : Dev) (o : Out) : Dev := { d with out := o :: d.out }

/-- The boundary number from which others see what is committed in the present tick (R10). -/
def Dev.nextVis (d : Dev) : Nat := d.clk + 1

/-- The boundary at which what is produced in the present tick is committed: the TICK that events and records carry (R396, R432). -/
def Dev.commitTick (d : Dev) : TickCount := d.tick + 1

/-- A real quantity as the integer that a field carries (notes/assumptions/40.md). -/
def rnd (x : Rat) : Int := if Config.roundUp x then x.ceil else x.floor

/-! ### Instances -/

/-- Change transport port `n`. -/
def Dev.modTp (d : Dev) (n : Nat) (f : Tp → Tp) : Dev := { d with tp := lmod d.tp n f }
/-- Transport port `n`. -/
def Dev.tpAt (d : Dev) (n : Nat) : Tp := d.tp.getD n {}
/-- Change the writing control of transport `n`. -/
def Dev.modWr (d : Dev) (n : Nat) (f : Wr → Wr) : Dev := { d with wr := lmod d.wr n f }
/-- The writing control of transport `n`. -/
def Dev.wrAt (d : Dev) (n : Nat) : Wr := d.wr.getD n {}
/-- Change the reading side of transport `n`. -/
def Dev.modRd (d : Dev) (n : Nat) (f : Rd → Rd) : Dev := { d with rd := lmod d.rd n f }
/-- The reading side of transport `n`. -/
def Dev.rdAt (d : Dev) (n : Nat) : Rd := d.rd.getD n {}
/-- Change motion controller `n`. -/
def Dev.modMot (d : Dev) (n : Nat) (f : Mot → Mot) : Dev := { d with mot := lmod d.mot n f }
/-- Motion controller `n`. -/
def Dev.motAt (d : Dev) (n : Nat) : Mot := d.mot.getD n {}
/-- Change link `n`. -/
def Dev.modLink (d : Dev) (n : Nat) (f : Link → Link) : Dev := { d with fab := { d.fab with links := lmod d.fab.links n f } }
/-- Link `n`. -/
def Dev.linkAt (d : Dev) (n : Nat) : Link := d.fab.links.getD n {}
/-- Change span slot `s`, if it is loaded. -/
def Dev.modSpan (d : Dev) (s : Nat) (f : Span → Span) : Dev := { d with spn := { d.spn with slots := tmod d.spn.slots s f } }
/-- Span slot `s`. -/
def Dev.spanAt (d : Dev) (s : Nat) : Option Span := tget d.spn.slots s
/-- Change ring pair `r`. -/
def Dev.modRing (d : Dev) (r : Nat) (f : Ring → Ring) : Dev :=
  { d with ctl := { d.ctl with rings := tput d.ctl.rings r (f (tgetD d.ctl.rings r {})) } }
/-- Ring pair `r`. -/
def Dev.ringAt (d : Dev) (r : Nat) : Ring := tgetD d.ctl.rings r {}
/-- Change queue `q`. -/
def Dev.modQue (d : Dev) (q : Nat) (f : QueSt → QueSt) : Dev :=
  { d with que := { d.que with qs := tput d.que.qs q (f (tgetD d.que.qs q {})) } }
/-- Queue `q`. -/
def Dev.queAt (d : Dev) (q : Nat) : QueSt := tgetD d.que.qs q {}
/-- Change command `c`. -/
def Dev.modCmd (d : Dev) (c : Nat) (f : Cmd → Cmd) : Dev := { d with rte := { d.rte with cmds := tmod d.rte.cmds c f } }
/-- Change session `n`. -/
def Dev.modSes (d : Dev) (n : Nat) (f : Session → Session) : Dev :=
  { d with ses := { d.ses with sessions := tmod d.ses.sessions n f } }
/-- Change chunk `c`. -/
def Dev.modChunk (d : Dev) (c : Nat) (f : Chunk → Chunk) : Dev := { d with ses := { d.ses with chunks := tmod d.ses.chunks c f } }
/-- Change connection `c`. -/
def Dev.modConn (d : Dev) (c : Nat) (f : Conn → Conn) : Dev := { d with rte := { d.rte with conns := tmod d.rte.conns c f } }
/-- Change the entry and meters of tenant `t` (R386: an entry not yet set holds WEIGHT 1 and CLASSES 0). -/
def Dev.modTenant (d : Dev) (t : Nat) (f : Tenant → Tenant) : Dev :=
  { d with rte := { d.rte with tenants := tput d.rte.tenants t (f (tgetD d.rte.tenants t {})) } }
/-- The entry and meters of tenant `t`. -/
def Dev.tenantAt (d : Dev) (t : Nat) : Tenant := tgetD d.rte.tenants t {}

/-! ### Messages on a connection (R28, R486) -/

/-- A port's RoCE packets are paused: a PFC frame has paused the priority that they carry (R486). -/
def Dev.portPaused (d : Dev) (p : Nat) : Bool := decide (d.clk < tgetD d.eth.pause (8 * p + d.fld Fld.ethPortCfgPcp p) 0)

/-- The bytes that a message counts against its connection's rate: those it carries (DESIGN CHOICE, notes/assumptions/106.md). -/
def Out.load : Out → Nat
  | .send _ bs => bs.length
  | .rdmaWrite _ _ _ bs => bs.length
  | _ => 0

/-- The bytes that a rate of R Gbit/s pays for in one tick of 20 µs (R7, R28). -/
def Conn.allowance (k : Conn) : Rat := k.rate * 2500

/-- R does not hold the connection's next message back (R28): what has been sent is paid for, or less than a tick's bytes of it
are not. -/
def Conn.paid (k : Conn) : Bool := decide (k.debt ≤ 0) || decide (k.debt < k.allowance)

/-- The Ethernet lane group of port `p` does not commit at this boundary (R16): what it would send waits for the next tick. -/
def Dev.ethLate (d : Dev) (p : Nat) : Bool := d.ovr.stalled.any fun x => x.1 == 0x12 && x.2.1 == p / 4

/-- A message of connection `c` leaves on its port. It waits while its port's priority is paused (R486), while R holds the
connection back (R28), and behind a message of the connection that waits. -/
def Dev.emitOn (d : Dev) (c : Nat) (o : Out) : Dev :=
  match tget d.rte.conns c with
  | none => d.emit o
  | some k =>
    if d.ethLate k.port ∨ d.portPaused k.port ∨ ! k.paid ∨ d.eth.held.any (·.1 == c) then { d with eth := { d.eth with held := d.eth.held ++ [(c, o)] } }
    else (d.emit o).modConn c fun k => { k with debt := k.debt + (o.load : Rat) }

/-- A tick's bytes are paid for on every connection (R28), and messages that nothing holds back any more leave in order. -/
def Dev.flushHeld (d : Dev) : Dev :=
  let conns := d.rte.conns.map fun c => if c.2.debt ≤ 0 then c else (c.1, { c.2 with debt := max 0 (c.2.debt - c.2.allowance) })
  d.eth.held.foldl (fun d x => d.emitOn x.1 x.2) { d with rte := { d.rte with conns := conns }, eth := { d.eth with held := [] } }

/-- The core is held in reset or has no supply (R464, R468): nothing reaches it. -/
def Dev.coreHeld (d : Dev) : Bool := d.pins.held || d.pins.entering != .none || ! d.hlt.vcore

/-- The outcome of a command that acts on the always-on domain (R428), which runs while VAON is applied. -/
def nextAon (s : State) (f : Dev → Dev) : Host.Outcome State Fault Refusal := .next { s with dev := if s.dev.hlt.vaon then f s.dev else s.dev }

/-- The outcome of a command that changes the device and neither buffer memory nor the queue; while the core is held in
reset it does nothing. -/
def nextDev (s : State) (f : Dev → Dev) : Host.Outcome State Fault Refusal := .next { s with dev := if s.dev.coreHeld then s.dev else f s.dev }

end Sys2Proof.Machine
end

