-- ==== Sys2Proof/Machine/Ops.lean ====
section
/-! DEFINITION. The operations that blocks share: hardware queues (R362 to R371), events (R396), cellar records
(R432, R435), pools (R350 to R361), rings and completions (R380 to R384) and MSI-X (R388). -/

namespace Sys2Proof.Machine

/-! ### Block codes (R479) -/

/-- The block code of RTE. -/
def blkRte : Nat := 0x01
/-- The block code of SCH. -/
def blkSch : Nat := 0x02
/-- The block code of SES. -/
def blkSes : Nat := 0x03
/-- The block code of DRU. -/
def blkDru : Nat := 0x04
/-- The block code of CIP. -/
def blkCip : Nat := 0x05
/-- The block code of PKR. -/
def blkPkr : Nat := 0x06
/-- The block code of SPN. -/
def blkSpn : Nat := 0x07
/-- The block code of ENC. -/
def blkEnc : Nat := 0x08
/-- The block code of TP. -/
def blkTp : Nat := 0x09
/-- The block code of RDC. -/
def blkRdc : Nat := 0x0A
/-- The block code of DEC. -/
def blkDec : Nat := 0x0B
/-- The block code of MOT. -/
def blkMot : Nat := 0x0C
/-- The block code of MEM. -/
def blkMem : Nat := 0x0D
/-- The block code of POOL. -/
def blkPool : Nat := 0x0E
/-- The block code of QUE. -/
def blkQue : Nat := 0x0F
/-- The block code of CTL. -/
def blkCtl : Nat := 0x10
/-- The block code of PCI. -/
def blkPci : Nat := 0x11
/-- The block code of ETH. -/
def blkEth : Nat := 0x12
/-- The block code of FAB. -/
def blkFab : Nat := 0x13
/-- The block code of HLT. -/
def blkHlt : Nat := 0x14

/-! ### Hardware queues -/

/-- The entries that a SIZE code selects (R363). -/
def queEntries (code : Nat) : Nat :=
  if code < 8 then 4 * 2 ^ min code 4 else 4096 * 2 ^ min (code - 8) 4

/-- Whether a queue is enabled (R362, R375). -/
def Dev.queEn (d : Dev) (q : Nat) : Bool :=
  if q < 0xF0 then d.flag Fld.queQCfgEn q else q < 0xF9 || q == 0xFF

/-- A queue's size in entries (R362, R363, R375). -/
def Dev.queSize (d : Dev) (q : Nat) : Nat :=
  if q < 0xF0 then queEntries (d.fld Fld.queQCfgSize q) else if q < 0xF9 then 64 else 0

/-- Whether a queue is framed (R362, R375). -/
def Dev.queFramed (d : Dev) (q : Nat) : Bool := if q < 0xF0 then d.flag Fld.queQCfgFramed q else q == 0xF8

/-- Whether a queue is large, held in HBM (R363). -/
def Dev.queLarge (d : Dev) (q : Nat) : Bool := q < 0xF0 && decide (8 ≤ d.fld Fld.queQCfgSize q)

/-- A queue's level: the entries it holds, those of open items included (R368). A staging queue holds the data sets
staged for its transport. -/
def Dev.queLevel (d : Dev) (q : Nat) : Nat :=
  if 0xF0 ≤ q ∧ q ≤ 0xF7 then (d.wrAt (q - 0xF0)).staged.length
  else if 0xF9 ≤ q then 0
  else ((d.queAt q).items.map (·.n)).foldl (· + ·) 0

/-- The entries free for a write: none while the queue is disabled (R366). -/
def Dev.queFree (d : Dev) (q : Nat) : Nat := if d.queEn q then d.queSize q - d.queLevel q else 0

/-- The largest value of a pending drop count (R366). -/
def dropMax : Nat := 2 ^ 32 - 1

/-- A gap marker (R18, R367); on a framed queue it carries its frame word. -/
def gapMarker (q : Nat) (tick : TickCount) (drops : Nat) (framed : Bool) : List Byte :=
  let b := [0x02#8] ++ leBytes 1 blkQue ++ leBytes 1 q ++ zeros 5 ++ leBytes 6 tick.toNat ++ zeros 14
    ++ leBytes 4 drops ++ zeros 32
  if framed then b.take 60 ++ leBytes 4 1 else b

/-- The frame word of an item of `n` entries (R368). -/
def frameWord (n : Nat) (trunc : Bool) : Nat := n % 65536 + 65536 * b2n trunc

/-- An item as a queue holds it: on a framed queue of `size` entries, cut to the size with TRUNC and given its frame
word (R368). -/
def framedItem (framed : Bool) (size : Nat) (body : List Byte) : QItem :=
  let n := ceilDiv body.length 64
  if framed then
    let m := min n size
    { body := overwrite ((padTo (64 * n) body).take (64 * m)) 60 (leBytes 4 (frameWord m (decide (size < n)))), n := m, closed := true }
  else { body := padTo 64 body, n := 1, closed := true }

/-- The entries of an item beyond a framed queue's size are discarded and counted in DROPS (R368). -/
def truncDrops (framed : Bool) (size : Nat) (body : List Byte) : Nat := if framed then ceilDiv body.length 64 - size else 0

/-- The queue region of buffer memory (R331). -/
def queRegion : Nat := 0x10000000
/-- The bytes of the queue region. -/
def queRegionLen : Nat := 0x10000000

/-- The address of byte `off` of a large queue's area (R364): an area that runs past the region's end wraps to its start, and areas may
overlap. -/
def Dev.queAddr (d : Dev) (q off : Nat) : Nat := queRegion + (65536 * d.fld Fld.queQCfgBase q + off) % queRegionLen

/-- The check bytes of an entry: one for each lane of 8 bytes (R370). -/
def laneChecks (e : List Byte) : List Byte := (List.range 8).map fun i => Config.laneCheck (BitVec.ofNat 64 (leAt e (8 * i) 8))

/-- An entry of a large queue and its check bytes go to their places in the queue's area (R364): entries from its start, check bytes from
64 × N. They reach buffer memory in the tick in which they are written. -/
def Dev.queStore (d : Dev) (q slot : Nat) (e : List Byte) : Dev :=
  if d.queLarge q then
    { d with que := { d.que with out := d.que.out ++ [(d.queAddr q (64 * slot), e), (d.queAddr q (64 * d.queSize q + 8 * slot), laneChecks e)] } }
  else d

/-- Append an item to a queue, its entries behind those that the queue holds. -/
def Dev.quePush (d : Dev) (q : Nat) (it : QItem) : Dev :=
  let first := (d.queAt q).head + d.queLevel q
  ((List.range it.n).foldl (fun d i => d.queStore q ((first + i) % d.queSize q) (slice it.body (64 * i) 64)) d).modQue q fun s =>
    { s with items := s.items ++ [it] }

/-- The item at a queue's head (R366, R368, R370): a disabled queue, or one whose pointers are not trusted, reads as empty, and an item is
not seen before its frame word is filled. -/
def Dev.queHead (d : Dev) (q : Nat) : Option QItem :=
  if d.queEn q ∧ (d.queAt q).broken ≠ 1 then (d.queAt q).items.head?.filter (·.closed) else none

/-- The item at a queue's head has been taken. -/
def Dev.quePop (d : Dev) (q : Nat) : Dev :=
  d.modQue q fun s => { s with items := s.items.drop 1, head := (s.head + ((s.items.head?).map (·.n)).getD 0) % max 1 (d.queSize q) }

/-- A dropping write of one item (R366, R367, R370). Every write to the discard queue completes and is dropped
without being counted (R362). -/
def Dev.queDropWrite (d : Dev) (q : Nat) (body : List Byte) : Dev :=
  if q = 0xFF then d
  else
    let s := d.queAt q
    let fr := d.queFramed q
    let it := framedItem fr (d.queSize q) body
    let f := d.queFree q
    let gap : QItem := { body := gapMarker q s.dropTick s.drop fr, n := 1, closed := true }
    let dropped (d : Dev) : Dev := d.bump Fld.queQCntDrops q
    if s.broken = 1 then dropped d
    else if s.drop = 0 then
      if it.n ≤ f then (d.quePush q it).bump Fld.queQCntDrops q (truncDrops fr (d.queSize q) body)
      else dropped (d.modQue q fun s => { s with drop := 1, dropTick := d.tick })
    else if it.n + 1 ≤ f then
      (((d.quePush q gap).quePush q it).modQue q fun s => { s with drop := 0 }).bump Fld.queQCntDrops q (truncDrops fr (d.queSize q) body)
    else if 1 ≤ f then
      let n := min (s.drop + 1) dropMax
      dropped ((d.quePush q { gap with body := gapMarker q s.dropTick n fr }).modQue q fun s => { s with drop := 0 })
    else dropped (d.modQue q fun s => { s with drop := min (s.drop + 1) dropMax })

/-- Empty a queue (R369). -/
def Dev.queEmpty (d : Dev) (q : Nat) : Dev :=
  d.modQue q fun s => { s with items := [], drop := 0, flush := false, broken := 0 }

/-! ### Events and cellar records -/

/-- The most events that wait on chip (R384). -/
def eventQueueMax : Nat := 4096

/-- A 64-bit item. -/
def item (n : Nat) : Word64 := BitVec.ofNat 64 n
/-- A signed item (R396). -/
def itemI (x : Int) : Word64 := BitVec.ofInt 64 x

/-- Produce an event (R396): it takes the next SEQ and waits on chip, or is dropped when 4,096 wait (R384). -/
def Dev.postEvent (d : Dev) (code block inst : Nat) (items : List Word64) : Dev :=
  let e : EvRec := { before := d.ctl.evDrop, code := code, block := block, inst := inst, seq := d.ctl.evSeq, tick := d.commitTick, items := items }
  let room := decide (d.ctl.evq.length < eventQueueMax)
  { d with ctl := { d.ctl with
      evSeq := d.ctl.evSeq + 1
      evq := if room then d.ctl.evq ++ [e] else d.ctl.evq
      evDrop := if room then 0 else d.ctl.evDrop + 1 } }

/-- The 64 bytes of an event entry (R396). -/
def eventBytes (e : EvRec) : List Byte :=
  let b := [0x04#8] ++ leBytes 1 e.code ++ leBytes 1 e.block ++ leBytes 1 e.inst ++ leBytes 4 e.seq.toNat
    ++ leBytes 6 e.tick.toNat ++ zeros 2 ++ padTo 40 (e.items.flatMap fun w => leBytes 8 w.toNat) ++ zeros 4
  withCrc32c b

/-- The payload of 64-bit items (R490). -/
def itemsPayload (items : List Word64) : List Byte := items.flatMap fun w => leBytes 8 w.toNat

/-- The 256 bytes of a cellar record (R432). -/
def cellarBytes (r : CellarRec) (flags boot : Nat) : List Byte :=
  withCrc32c ([0x05#8] ++ leBytes 1 r.block ++ leBytes 1 r.inst ++ leBytes 1 r.code ++ leBytes 4 r.seq.toNat
    ++ leBytes 6 r.tick.toNat ++ leBytes 2 flags ++ leBytes 4 boot ++ zeros 12 ++ padTo 220 r.payload)

/-- The five-entry feed item of a record (R435): entry 0 carries bytes 0 to 59, entries 1 to 4 bytes 60 to 255 and
zeros. -/
def feedItem (rec256 : List Byte) : List Byte := rec256.take 60 ++ zeros 4 ++ padTo 256 (rec256.drop 60)

/-- The record bytes that a feed item carries. -/
def feedRecord (body : List Byte) : List Byte := body.take 60 ++ slice body 64 196

/-- Produce a record: it takes the next cellar SEQ (R432). -/
def Dev.takeRec (d : Dev) (block inst code : Nat) (payload : List Byte) : Dev × CellarRec :=
  ({ d with hlt := { d.hlt with seq := d.hlt.seq + 1 } },
   { block := block, inst := inst, code := code, seq := d.hlt.seq, tick := d.commitTick, payload := payload })

/-- Produce a record on the cellar feed (R435, R366). -/
def Dev.cellar (d : Dev) (block inst code : Nat) (payload : List Byte) : Dev :=
  let (d, r) := d.takeRec block inst code payload
  d.queDropWrite 0xF8 (feedItem (cellarBytes r 0 0))

/-- Produce a record that is written ahead of every item on the feed (R48, R437). -/
def Dev.cellarAhead (d : Dev) (block inst code : Nat) (payload : List Byte) : Dev :=
  let (d, r) := d.takeRec block inst code payload
  { d with hlt := { d.hlt with ahead := d.hlt.ahead ++ [r] } }

/-- An event marked with a cellar record posts both (R397). -/
def Dev.postBoth (d : Dev) (code block inst : Nat) (items : List Word64) : Dev :=
  (d.postEvent code block inst items).cellar block inst code (itemsPayload items)

/-! ### Overrun reports (R17, R18) -/

/-- The 64 bytes of an overrun report (R18). -/
def overrunReport (block inst : Nat) (step : BitVec 8) (tick : TickCount) (excess : BitVec 32) (deferred : BitVec 16)
    (count : Nat) : List Byte :=
  [0x01#8] ++ leBytes 1 block ++ leBytes 1 inst ++ leBytes 1 step.toNat ++ zeros 4 ++ leBytes 6 tick.toNat ++ zeros 2
    ++ leBytes 4 excess.toNat ++ leBytes 2 deferred.toNat ++ zeros 2 ++ leBytes 4 count ++ zeros 36

/-- The STEP codes of a block's overrun reports (R78, R116, R139, R145, R187, R226, R230, R240, R257, R300, R345, R357, R374,
R406, R426). The manual codes no step of RTE, CTL, PCI, ETH and HLT. -/
def stepCodes (block : Nat) : Option (List Nat) :=
  match block with
  | 0x02 => some [1] | 0x03 => some [1, 4] | 0x04 => some [1, 2, 3] | 0x05 => some [1, 2] | 0x06 => some [1, 2]
  | 0x07 => some [1, 2, 3] | 0x08 => some [1, 2, 3] | 0x09 => some [1] | 0x0A => some [1] | 0x0B => some [1, 2]
  | 0x0C => some [1] | 0x0D => some [1, 2, 3] | 0x0E => some [1] | 0x0F => some [1] | 0x13 => some [1]
  | _ => none

/-- A STEP code is one of its block's, or its block's steps have none. -/
def stepNamed (block step : Nat) : Bool := ((stepCodes block).map (·.contains step)).getD true

/-- A step of a block's instance does not commit at this boundary (R16): the one of STEP code `step`, where the block's steps have
codes. -/
def Dev.stalls (d : Dev) (block inst step : Nat) : Bool :=
  d.ovr.stalled.any fun x => x.1 == block && x.2.1 == inst && (x.2.2 == step || (stepCodes block).isNone)

/-- Some step of a block's instance does not commit at this boundary. -/
def Dev.stallsAny (d : Dev) (block inst : Nat) : Bool := d.ovr.stalled.any fun x => x.1 == block && x.2.1 == inst

/-- The overrun counter of a block's instance (R19, R479). -/
def ovrCounter (block inst : Nat) : Option Fld :=
  let one (f : Fld) (n : Nat) : Option Fld := if inst < n then some f else none
  match block with
  | 0x01 => one Fld.rteOvrCntCount 1
  | 0x02 => one Fld.schOvrCntCount 1
  | 0x03 => one Fld.sesOvrCntCount 1
  | 0x04 => one Fld.druOvrCntCount 48
  | 0x05 => one Fld.cipOvrCntCount 16
  | 0x06 => one Fld.pkrOvrCntCount 1
  | 0x07 => one Fld.spnOvrCntCount 1
  | 0x08 => one Fld.encOvrCntCount 1
  | 0x09 => one Fld.tpOvrCntCount 8
  | 0x0A => one Fld.rdcOvrCntCount 1
  | 0x0B => one Fld.decOvrCntCount 1
  | 0x0C => one Fld.motOvrCntCount 8
  | 0x0D => one Fld.memOvrCntCount 2
  | 0x0E => one Fld.poolOvrCntCount 1
  | 0x0F => one Fld.queOvrCntCount 1
  | 0x10 => one Fld.ctlOvrCntCount 1
  | 0x11 => one Fld.pciOvrCntCount 1
  | 0x12 => one Fld.ethOvrCntCount 4
  | 0x13 => one Fld.fabOvrCntCount 1
  | 0x14 => one Fld.hltOvrCntCount 1
  | _ => none

/-- An overrun of a step is counted, reported and posted (R17, R18, R19). -/
def Dev.countOverrun (d : Dev) (block inst step excess deferred : Nat) : Dev :=
  match ovrCounter block inst with
  | none => d
  | some f =>
    let d := d.bump f inst
    let d := d.queDropWrite (d.fld Fld.ctlOvrCfgQueue)
      (overrunReport block inst (BitVec.ofNat 8 step) d.tick (BitVec.ofNat 32 excess) (BitVec.ofNat 16 deferred) (d.fld f inst))
    if d.flag Fld.ctlOvrCfgEvt then d.postEvent 0x12 blkCtl 0 [item block, item inst, item step, item d.tick.toNat, item excess] else d

/-- A step that waits for something within the block overruns; the manual gives it no excess in core cycles: a free value. -/
def Dev.waitOverrun (d : Dev) (block inst step deferred : Nat) : Dev :=
  (d.countOverrun block inst step (d.fresh.toNat % 2 ^ 32) deferred).spend

/-! ### Words -/

/-- `src` over `dst` from word-aligned offset `off`. -/
def Words.over (dst : Words) (off : Nat) (src : Words) : Words :=
  let m := max (off / 32) dst.poison.length
  let ps := dst.poison ++ List.replicate (m - dst.poison.length) false
  { bytes := overwrite (padTo (max (off + src.bytes.length) dst.bytes.length) dst.bytes) off src.bytes
    poison := ps.take (off / 32) ++ src.poison ++ ps.drop (off / 32 + src.poison.length) }

/-! ### Pools -/

/-- Buffer size of a pool code (R350). -/
def poolSize (p : Nat) : Nat := [256, 4096, 65536, 1048576, 4194304].getD p 0

/-- The largest request (R355). -/
def poolMax : Nat := 4194304

/-- The first byte of the pool region and one past the last (R331). -/
def poolRegion : Nat := 0x20000000
/-- One past the last byte of buffer memory (R329). -/
def hbmEnd : Nat := 0xC00000000

/-- The null handle (R352). -/
def nullHandle : BitVec 32 := 0xFFFFFFFF#32

/-- The handle of buffer `i` of pool `p` (R352). -/
def mkHandle (p i : Nat) : BitVec 32 := BitVec.ofNat 32 (p * 2 ^ 29 + i)
/-- A handle's pool code. -/
def hPool (h : BitVec 32) : Nat := h.toNat / 2 ^ 29
/-- A handle's index. -/
def hIndex (h : BitVec 32) : Nat := h.toNat % 2 ^ 29

/-- Pool `p`. -/
def Dev.poolAt (d : Dev) (p : Nat) : PoolSt := d.pool.pools.getD p {}

/-- Change pool `p`. -/
def Dev.modPool (d : Dev) (p : Nat) (f : PoolSt → PoolSt) : Dev := { d with pool := { d.pool with pools := lmod d.pool.pools p f } }

/-- Where pool `p` starts: after the larger pools (R350). -/
def Dev.poolBase (d : Dev) (p : Nat) : Nat :=
  poolRegion + ((List.range 5).map fun k => if p < k then (d.poolAt k).created * poolSize k else 0).foldl (· + ·) 0

/-- The first byte of a buffer (R350). -/
def Dev.bufAddr (d : Dev) (h : BitVec 32) : Nat := d.poolBase (hPool h) + hIndex h * poolSize (hPool h)

/-- Handles on a pool's free list. -/
def PoolSt.free (p : PoolSt) : Nat := p.created - p.fresh + p.freed.length

/-- The pools at the boundary after the lock (R350, R351): each count as far as the region reaches, and every buffer
free; once one buffer does not fit, no later one is created. -/
def poolsCreate (counts : List Nat) : List PoolSt :=
  let (_, _, l) := [4, 3, 2, 1, 0].foldl (fun (acc : Nat × Bool × List PoolSt) p =>
    let (base, ok, l) := acc
    let want := counts.getD p 0
    let fit := (hbmEnd - base) / poolSize p
    let n := if ok then min want fit else 0
    (base + n * poolSize p, ok && decide (want ≤ fit), { created := n } :: l)) (poolRegion, true, [])
  l

/-- The sum of the other owners' unmet reserves (R354). -/
def Dev.reserveOthers (d : Dev) (o p : Nat) : Nat :=
  ((List.range 32).map fun o' =>
    if o' = o then 0 else d.fld Fld.poolRsvPMin (8 * o' + p) - d.fld Fld.poolHeldPCount (8 * o' + p)).foldl (· + ·) 0

/-- A request of owner `o` may take a buffer of pool `p` (R354): F − R_other ≥ 1. -/
def Dev.mayTake (d : Dev) (o p : Nat) : Bool := decide (d.reserveOthers o p + 1 ≤ (d.poolAt p).free)

/-- Allocate the buffer that has been on the free list longest (R358). -/
def Dev.allocate (d : Dev) (p owner releaser : Nat) : Dev × BitVec 32 :=
  let s := d.poolAt p
  let st : BufSt := { owner := owner, releaser := releaser, share := 0, pendRel := false }
  if s.fresh < s.created then
    ((d.modPool p fun s => { s with fresh := s.fresh + 1, bufs := tput s.bufs s.fresh st }).setFld
      Fld.poolHeldPCount (8 * owner + p) (d.fld Fld.poolHeldPCount (8 * owner + p) + 1), mkHandle p s.fresh)
  else
    match s.freed with
    | [] => (d, nullHandle)
    | i :: t =>
      ((d.modPool p fun s => { s with freed := t, bufs := tput s.bufs i st }).setFld
        Fld.poolHeldPCount (8 * owner + p) (d.fld Fld.poolHeldPCount (8 * owner + p) + 1), mkHandle p i)

/-- The fitting pool of a size up to 4 MiB (R355). -/
def fittingPool (size : Nat) : Nat := ((List.range 5).find? fun p => size ≤ poolSize p).getD 4

/-- Ask POOL for a buffer (R355, R356). A size above 4 MiB returns the null handle at once and counts in OVERSIZE. -/
def Dev.poolRequest (d : Dev) (size owner releaser : Nat) (upgrade : Bool) (use : PoolUse) : Dev :=
  if poolMax < size then
    ((d.bump Fld.poolErrCntOversize).postEvent 0x79 blkPool 0 [item 0xFF, item 2, item nullHandle.toNat])
  else
    { d with pool := { d.pool with reqs := d.pool.reqs ++
        [{ size := size, owner := owner, releaser := releaser, upgrade := upgrade, purpose := use, vis := d.nextVis }] } }

/-- Issue a RELEASE for owner `o` (R359). -/
def Dev.release (d : Dev) (h : BitVec 32) (o : Nat) : Dev :=
  { d with pool := { d.pool with ops := d.pool.ops ++ [{ share := false, handle := h, owner := o, vis := d.nextVis }] } }

/-- Issue a SHARE for owner `o` (R359). -/
def Dev.share (d : Dev) (h : BitVec 32) (o : Nat) : Dev :=
  { d with pool := { d.pool with ops := d.pool.ops ++ [{ share := true, handle := h, owner := o, vis := d.nextVis }] } }

/-- Release a list of buffers. -/
def Dev.releaseAll (d : Dev) (hs : List (BitVec 32)) (o : Nat) : Dev := hs.foldl (fun d h => d.release h o) d

/-- Put a handle on its pool's free list (R359, R361): a list that already holds its created count plus 64 handles
discards it, and HELD of the allocating owner still falls by one, no lower than 0 (R354). -/
def Dev.freeBuf (d : Dev) (p i owner : Nat) : Dev :=
  let d := d.setFld Fld.poolHeldPCount (8 * owner + p) (d.fld Fld.poolHeldPCount (8 * owner + p) - 1)
  if (d.poolAt p).free < (d.poolAt p).created + 64 then d.modPool p fun s => { s with freed := s.freed ++ [i] }
  else (d.bump Fld.poolErrCntOverflow).postEvent 0x79 blkPool 0 [item p, item 3, item (mkHandle p i).toNat]

/-- Apply one release or SHARE (R352, R359, R360). -/
def Dev.applyPoolOp (d : Dev) (op : PoolOp) : Dev :=
  let p := hPool op.handle
  let i := hIndex op.handle
  if 5 ≤ p ∨ (d.poolAt p).created ≤ i then
    (d.bump Fld.poolErrCntRange).postEvent 0x79 blkPool 0 [item p, item 1, item op.handle.toNat]
  else
    let b : BufSt := tgetD (d.poolAt p).bufs i { owner := 0, releaser := 0, share := 0, pendRel := false }
    let put (d : Dev) (b : BufSt) : Dev := d.modPool p fun s => { s with bufs := tput s.bufs i b }
    if op.share then put d { b with share := (b.share + 1) % 256 }
    else if op.owner = b.releaser then
      if b.share = 0 then d.freeBuf p i b.owner else put d { b with pendRel := true }
    else
      let b' := { b with share := (b.share + 255) % 256 }
      let d := put d b'
      if b.pendRel ∧ b'.share = 0 then d.freeBuf p i b.owner else d

/-- The owners in the rotation of a tick (R356). -/
def ownerOrder (tick : Nat) : List Nat :=
  let s := tick % 32
  (List.range 32).map fun k => if tick % 2 = 0 then (s + k) % 32 else (s + 32 - k) % 32

/-- The requests in the order of a tick's rotation (R356), each with its place among those taken. -/
def requestOrder (tick : Nat) (rs : List (PoolReq × Nat)) : List (PoolReq × Nat) :=
  (ownerOrder tick).flatMap fun o => rs.filter (·.1.owner == o)

/-- The first of `pools` from which owner `o` may take a buffer. -/
def Dev.firstPool (d : Dev) (o : Nat) (pools : List Nat) : Option Nat := pools.find? fun p => d.mayTake o p

/-- Try requests in order, each against the pools that `choices` gives it; the served ones with their handles, and
those left. -/
def Dev.serve (choices : PoolReq → List Nat) : Dev → List (PoolReq × Nat) → Dev × List (PoolUse × BitVec 32) × List (PoolReq × Nat)
  | d, [] => (d, [], [])
  | d, (r, n) :: rs =>
    match d.firstPool r.owner (choices r) with
    | some p =>
      let (d, h) := d.allocate p r.owner r.releaser
      let (d, got, left) := Dev.serve choices d rs
      (d, (r.purpose, h) :: got, left)
    | none =>
      let (d, got, left) := Dev.serve choices d rs
      (d, got, (r, n) :: left)

/-- The most requests, and the most releases and SHAREs, of one pass (R357). -/
def poolPassMax : Nat := 8192

/-- One pass over what was taken up to boundary `k` (R356, R357): releases and SHAREs, then every request against
its fitting pool, then those with MAY_UPGRADE against each larger pool. Unserved requests keep their order. The
second component lists the handles to commit. -/
def Dev.poolPass (d : Dev) (k : Nat) : Dev × List (PoolUse × BitVec 32) :=
  let ops := d.pool.ops.filter (·.vis ≤ k)
  let d := (ops.take poolPassMax).foldl Dev.applyPoolOp
    { d with pool := { d.pool with ops := ops.drop poolPassMax ++ d.pool.ops.filter (k < ·.vis) } }
  let reqs := d.pool.reqs.filter (·.vis ≤ k)
  let taken := (reqs.take poolPassMax).zipIdx
  let (d, got1, left1) := Dev.serve (fun r => [fittingPool r.size]) d (requestOrder d.tick.toNat taken)
  let (d, got2, left2) := Dev.serve (fun r => if r.upgrade then (List.range 5).filter (fittingPool r.size < ·) else []) d left1
  let waits := (taken.filter fun r => (left2.map (·.2)).contains r.2).map (·.1)
  ({ d with pool := { d.pool with reqs := waits ++ reqs.drop poolPassMax ++ d.pool.reqs.filter (k < ·.vis) } }, got1 ++ got2)

/-! ### Rings and completions -/

/-- Entries of ring pair `r` (R380, R398). -/
def Dev.ringSize (d : Dev) (r : Nat) : Nat := 2 ^ max 4 (d.fld Fld.pciRingCfgSize r)

/-- The kind of ring pair `r`: pair 0 is the admin pair (R380). -/
def Dev.ringKind (d : Dev) (r : Nat) : Nat := if r = 0 then 0 else d.fld Fld.pciRingCfgKind r

/-- Whether ring pair `r` is served. -/
def Dev.ringEn (d : Dev) (r : Nat) : Bool := r < 256 && d.flag Fld.pciRingCfgEn r

/-- Entries a ring of `size` entries can still take (R381): one always stays unused. -/
def ringRoom (size head tail : Nat) : Nat := size - 1 - (tail + size - head) % size

/-- Free entries of ring pair `r`'s completion ring. -/
def Dev.cqRoom (d : Dev) (r : Nat) : Nat := ringRoom (d.ringSize r) (d.ringAt r).cqHead (d.ringAt r).cqTail

/-- Free entries of an output pair's submission ring. -/
def Dev.sqRoom (d : Dev) (r : Nat) : Nat := ringRoom (d.ringSize r) (d.ringAt r).sqHead (d.ringAt r).sqTail

/-- Whether a vector is masked: bit 0 of its table entry's fourth word, set at reset (R388, R482). -/
def Dev.vecMasked (d : Dev) (v : Nat) : Bool := bitOf (tgetD d.ctl.msixWords (4 * v + 3) 1#32).toNat 0

/-- Send a vector's message, or set its pending bit while it is masked (R388). -/
def Dev.sendMsix (d : Dev) (v : Nat) : Dev :=
  if d.vecMasked v then
    { d with ctl := { d.ctl with msixPend := if d.ctl.msixPend.contains v then d.ctl.msixPend else d.ctl.msixPend ++ [v] } }
  else d.emit (.msix v)

/-- Count a completion towards its message (R388): with COAL_CNT 0 or 1 the message follows at once, otherwise when
COAL_CNT completions are pending. -/
def Dev.coalesce (d : Dev) (r : Nat) : Dev :=
  let n := d.fld Fld.pciRingIrqCoalCnt r
  let rg := d.ringAt r
  if n ≤ 1 ∨ n ≤ rg.pend + 1 then
    (d.modRing r fun g => { g with pend := 0 }).sendMsix (d.fld Fld.pciRingCfgVec r)
  else d.modRing r fun g => { g with pend := g.pend + 1, pendSince := if g.pend = 0 then d.clk else g.pendSince }

/-- The 16 bytes of a completion entry (R382). -/
def cplBytes (sqHead r : Nat) (c : Cpl) (phase : Bool) : List Byte :=
  leBytes 2 sqHead ++ leBytes 1 r ++ leBytes 1 c.kind ++ leBytes 2 c.tag.toNat ++ leBytes 1 c.status ++ leBytes 1 c.count
    ++ leBytes 4 c.info.toNat ++ zeros 2 ++ leBytes 2 (b2n phase)

/-- Write a completion at the completion tail, its capsule first, and advance the tail and the phase (R382, R383). -/
def Dev.writeCpl (d : Dev) (r : Nat) (sqHead : Nat) (c : Cpl) : Dev :=
  let rg := d.ringAt r
  let d := if c.cap = [] then d else d.emit (.capsule r rg.cqTail c.cap)
  let d := d.emit (.completion r rg.cqTail (cplBytes sqHead r c rg.phase))
  let t := (rg.cqTail + 1) % d.ringSize r
  (d.modRing r fun g => { g with cqTail := t, phase := if t = 0 then ! g.phase else g.phase }).coalesce r

/-- A completion falls due on an input pair (R384): it is written when the ring is served and has room, and waits in
order otherwise. -/
def Dev.postCpl (d : Dev) (r : Nat) (c : Cpl) : Dev :=
  if (d.ringAt r).wait = [] ∧ d.ringEn r ∧ 1 ≤ d.cqRoom r then d.writeCpl r (d.ringAt r).sqHead c
  else d.modRing r fun g => { g with wait := g.wait ++ [c] }

/-- The lowest-numbered enabled pair of a kind (R380). -/
def Dev.outRing (d : Dev) (kind : Nat) : Option Nat :=
  (List.range 256).find? fun r => d.ringEn r && d.ringKind r == kind

/-- Write an item's submission entries and its completion on an output pair (R381, R382). -/
def Dev.writeItem (d : Dev) (r : Nat) (entries : List (List Byte)) : Dev :=
  let rg := d.ringAt r
  let sz := d.ringSize r
  let d := entries.zipIdx.foldl (fun d (e, i) => d.emit (.submission r ((rg.sqTail + i) % sz) e)) d
  (d.modRing r fun g => { g with sqTail := (g.sqTail + entries.length) % sz }).writeCpl r rg.sqTail
    { kind := 4, tag := 0, status := 0, count := entries.length, info := 0, cap := [], item := [] }

/-- The gap completion of an output pair (R384): KIND 0x05 with the drop count, saturating at 255. -/
def Dev.writeGap (d : Dev) (r n : Nat) : Dev :=
  d.writeCpl r (d.ringAt r).sqTail { kind := 5, tag := 0, status := 0, count := min n 255, info := 0, cap := [], item := [] }

/-- Completion of an admin command on pair 0 (R382, R385). -/
def Dev.adminDone (d : Dev) (tag : BitVec 16) (status info : Nat) : Dev :=
  if d.ctl.mute then d else d.postCpl 0 { kind := 3, tag := tag, status := status, count := 0, info := BitVec.ofNat 32 info, cap := [], item := [] }

/-- Take an admin command in progress off the list and complete it, unless a function level reset took its completion
away (R395). -/
def Dev.adminEnd (d : Dev) (tag : BitVec 16) (status info : Nat) : Dev :=
  let quiet := d.ctl.admin.any fun c => c.tag == tag && c.quiet
  let d : Dev := { d with ctl := { d.ctl with admin := d.ctl.admin.filter (·.tag != tag) } }
  if quiet then d else d.adminDone tag status info

/-- The free completion entries that a pair must have before an entry is taken from it (R384). -/
def Dev.ringNeed (d : Dev) (r : Nat) : Nat := if 64 ≤ d.ringSize r then 16 else 4

/-- The device may take the next submission entry of an input pair (R381, R384). -/
def Dev.ringMay (d : Dev) (r : Nat) : Bool :=
  d.ringEn r && decide (d.ringNeed r ≤ d.cqRoom r) && (d.ringAt r).sqHead != (d.ringAt r).sqTail

/-- An entry of an input pair is taken (R381). -/
def Dev.ringNext (d : Dev) (r : Nat) : Dev := d.modRing r fun g => { g with sqHead := (g.sqHead + 1) % d.ringSize r }

end Sys2Proof.Machine
end

