-- ==== Sys2Proof/Machine/Fabric.lean ====
section
/-! DEFINITION. The Kwahewa fabric (R399 to R412): frames and links, replay and credit, advertisements, routes,
end-to-end delivery, tick alignment. What the manual gives no layout is encoded and read by free functions. -/

namespace Sys2Proof

/-- The payloads of the frames by which a message goes: the manual gives them no layout. -/
opaque Config.fabEncode : Machine.FabMsg → List (List Byte)

/-- What a frame's payload says, by frame type. -/
opaque Config.fabDecode : Nat → List Byte → List Machine.FabMsg

/-- The hash of SRC, DST, CLASS and FLOW that chooses among first hops (R406). -/
opaque Config.pathHash : Nat → Nat → Nat → Nat → Nat

end Sys2Proof

namespace Sys2Proof.Machine

/-! ### Addresses and links -/

/-- FAB_CFG.ADDR. -/
def Dev.fabAddr (d : Dev) : Nat := d.fld Fld.fabCfgAddr
/-- Links and tunnels (R403). -/
def fabLinks : Nat := 12
/-- A link or tunnel is enabled. -/
def Dev.linkEn (d : Dev) (l : Nat) : Bool :=
  if l < 8 then d.flag Fld.fabPortCfgEn l else decide (l < fabLinks) && d.flag Fld.fabTunCfgEn (l - 8)
/-- COST of a link or tunnel, 0 acting as 1 (R427). -/
def Dev.linkCost (d : Dev) (l : Nat) : Nat := if l < 8 then d.fld1 Fld.fabPortCfgCost l else d.fld1 Fld.fabTunCfgCost (l - 8)
/-- The neighbour of a link: a tunnel's is its PEER. -/
def Dev.linkPeer (d : Dev) (l : Nat) : Nat := if l < 8 then (d.linkAt l).neighbour.toNat else d.fld Fld.fabTunCfgPeer (l - 8)
/-- The links that are up. -/
def Dev.upLinks (d : Dev) : List Nat := (List.range fabLinks).filter fun l => (d.linkAt l).up
/-- FAB_TIME_OFS (R411). -/
def Dev.timeOfs (d : Dev) : Nat := d.fld Fld.fabTimeOfsLoOffset + 2 ^ 32 * d.fld Fld.fabTimeOfsHiOffset
/-- A tick as the fabric carries it: in the source's count (R411). -/
def Dev.fabTickNow (d : Dev) : Nat := (d.tick.toNat + d.timeOfs) % 2 ^ 48

/-! ### Frames (R400) -/

/-- Bytes 0 to 17 of a header: what no hop but the source writes, HOPS aside. -/
def frameHead (dst src cls type len hops flow : Nat) (e2e : BitVec 32) (tick : Nat) : List Byte :=
  leBytes 1 dst ++ leBytes 1 src ++ leBytes 1 cls ++ leBytes 1 type ++ leBytes 2 len ++ leBytes 1 hops ++ leBytes 1 flow
    ++ leBytes 4 e2e.toNat ++ leBytes 6 tick

/-- The 32 bytes of a header on one link. -/
def frameHeader (head : List Byte) (seq ack : BitVec 16) : List Byte :=
  withCrc32c (head.take 18 ++ leBytes 2 seq.toNat ++ leBytes 2 ack.toNat ++ zeros 6)

/-- CLASS of a header. -/
def headClass (h : List Byte) : Nat := bits (leAt h 2 1) 0 3

/-- The bytes of a frame on the link, as credit and the replay buffer count them. -/
def frameBytes (payload : List Byte) : Nat := 32 + payload.length + (if payload = [] then 0 else 4)

/-- The replay buffer of a port (R401). -/
def replayMax : Nat := 262144
/-- Credit for a class (R401). -/
def creditMax : Nat := 65536

/-- A link may send a frame of a class now (R401): class 0 needs no credit. -/
def Link.may (k : Link) (cls : Nat) (payload : List Byte) : Bool :=
  k.up && decide (((k.replay.map fun r => frameBytes r.2.2).foldl (· + ·) 0) + frameBytes payload ≤ replayMax)
    && (cls == 0 || decide (frameBytes payload ≤ k.credit.getD (cls - 1) 0))

/-- A frame as it leaves: on a fabric port, or whole in an Ethernet frame of a tunnel (R403). -/
def Dev.frameOut (d : Dev) (l : Nat) (header payload : List Byte) : Out :=
  let crc := if payload = [] then 0 else crc32c payload
  if l < 8 then .frame l header payload crc
  else .tunnelFrame (d.fld Fld.fabTunCfgPort (l - 8)) (BitVec.ofNat 48 (d.fld Fld.fabTunMacLoMac (l - 8) + 2 ^ 32 * d.fld Fld.fabTunMacHiMac (l - 8)))
    (BitVec.ofNat 16 (d.fld Fld.fabTunEtypeType)) (header ++ payload ++ (if payload = [] then [] else leBytes 4 crc.toNat))

/-- Send a frame on a link: it is numbered, kept for replay, and takes its credit. -/
def Dev.linkEmit (d : Dev) (l : Nat) (head payload : List Byte) : Dev :=
  let k := d.linkAt l
  let cls := headClass head
  let h := frameHeader head k.txSeq (k.rxNext - 1)
  (d.emit (d.frameOut l h payload)).modLink l fun k => { k with
    txSeq := k.txSeq + 1, replay := k.replay ++ [(k.txSeq, head, payload)]
    credit := if cls = 0 then k.credit else lmod k.credit (cls - 1) fun c => c - frameBytes payload }

/-- The bytes of deficit that a weight of 1 adds in a round, the largest frame's (R408; DESIGN CHOICE, notes/assumptions/182.md). -/
def drrUnit : Nat := 32 + 4096 + 4

/-- What a class sends in a round from its deficit in bytes: the frames, those left and the deficit left. -/
def drrTake : Nat → List (List Byte × List Byte) → List (List Byte × List Byte) × List (List Byte × List Byte) × Nat
  | _, [] => ([], [], 0)
  | q, f :: fs =>
    if frameBytes f.2 ≤ q then
      let (go, left, q) := drrTake (q - frameBytes f.2) fs
      (f :: go, left, q)
    else ([], f :: fs, q)

/-- Frames of classes 2, 3 and 4 by deficit round robin in the weights 4, 4 and 1 (R408); each class goes with its deficit. -/
def drrOrder : Nat → List (List Byte × List Byte) × Nat → List (List Byte × List Byte) × Nat → List (List Byte × List Byte) × Nat → List (List Byte × List Byte)
  | 0, a, b, c => a.1 ++ b.1 ++ c.1
  | n + 1, a, b, c =>
    let (x, a) := drrTake (a.2 + 4 * drrUnit) a.1
    let (y, b) := drrTake (b.2 + 4 * drrUnit) b.1
    let (z, c) := drrTake (c.2 + drrUnit) c.1
    x ++ y ++ z ++ drrOrder n a b c

/-- The order in which waiting frames go (R408). -/
def sendOrder (l : List (List Byte × List Byte)) : List (List Byte × List Byte) :=
  let of (c : Nat) := l.filter fun x => headClass x.1 == c
  of 0 ++ of 1 ++ drrOrder l.length (of 2, 0) (of 3, 0) (of 4, 0)

/-- Send what waits on a link, as far as credit and the replay buffer allow; a class that is held up stays in order. -/
def Dev.linkDrain (d : Dev) (l : Nat) : Dev :=
  if ! (d.linkAt l).up then d
  else
    let go := (sendOrder (d.linkAt l).waiting).foldl (fun (x : Dev × List Nat × List (List Byte × List Byte)) f =>
      let (d, held, left) := x
      let c := headClass f.1
      if ! held.contains c ∧ (d.linkAt l).may c f.2 then (d.linkEmit l f.1 f.2, held, left) else (d, c :: held, left ++ [f])) (d, [], [])
    go.1.modLink l fun k => { k with waiting := go.2.2 }

/-- Give a frame to a link. -/
def Dev.linkQueue (d : Dev) (l : Nat) (head payload : List Byte) : Dev :=
  (d.modLink l fun k => { k with waiting := k.waiting ++ [(head, payload)] }).linkDrain l

/-- The first hop of a frame (R406): chosen by the hash among those of least cost. -/
def Dev.firstHop (d : Dev) (head : List Byte) : Option Nat :=
  let dst := leAt head 0 1
  let l := tgetD d.fab.routes dst []
  l[Config.pathHash (leAt head 1 1) dst (headClass head) (leAt head 7 1) % max 1 l.length]?

/-- Forward a frame to its destination; without a route it is not sent. -/
def Dev.fabForward (d : Dev) (head payload : List Byte) : Dev :=
  match d.firstHop head with
  | some l => d.linkQueue l head payload
  | none => d

/-- The key of an end-to-end stream: address and class. -/
def e2eKey (addr cls : Nat) : Nat := 8 * addr + cls

/-- Send one payload end to end (R407): frames of classes 1 to 4 are kept until they are acknowledged. -/
def Dev.e2eSend (d : Dev) (dst cls type flow : Nat) (payload : List Byte) : Dev :=
  let p := payload.take 4096
  let t : E2eTx := tgetD d.fab.tx (e2eKey dst cls) {}
  let head := frameHead dst d.fabAddr cls type p.length 16 flow t.next d.fabTickNow
  let t' : E2eTx := if cls = 0 then t
    else { next := t.next + 1, kept := t.kept ++ [(t.next, head, p)], ackAt := if t.kept = [] then d.clk else t.ackAt }
  ({ d with fab := { d.fab with tx := tput d.fab.tx (e2eKey dst cls) t' } } : Dev).fabForward head p

/-- Send a message end to end. -/
def Dev.fabSend (d : Dev) (dst cls type flow : Nat) (m : FabMsg) : Dev :=
  (Config.fabEncode m).foldl (fun d p => d.e2eSend dst cls type flow p) d

/-- Send a class-0 message to a link's neighbour. -/
def Dev.nearSend (d : Dev) (l type : Nat) (m : FabMsg) : Dev :=
  (Config.fabEncode m).foldl (fun d p =>
    d.linkQueue l (frameHead (d.linkPeer l) d.fabAddr 0 type (min 4096 p.length) 16 0 0 d.fabTickNow) (p.take 4096)) d

/-! ### The pair's control records (R415) -/

/-- FAB_PAIR_CFG.PARTNER. -/
def Dev.partnerAddr (d : Dev) : Nat := d.fld Fld.fabPairCfgPartner
/-- The device is in pair mode: designated, and neither solo nor after a takeover (R422, R423). -/
def Dev.pairMode (d : Dev) : Bool := d.flag Fld.fabPairCfgEn && d.fld Fld.fabPairStatState != 4
/-- Acknowledgements wait for the partner's (R417): in a protected pair, and while the devices are partitioned (R422). -/
def Dev.holdsAcks (d : Dev) : Bool := d.fld Fld.fabPairStatState == 2 || d.fld Fld.fabPairStatState == 3
/-- Mirroring runs: the pair is protected, or a resync is under way (R423). -/
def Dev.mirroring (d : Dev) : Bool := d.fld Fld.fabPairStatState == 2 || d.fld Fld.fabPairStatState == 1
/-- A control record leaves ahead of its effect. -/
def Dev.mirrorControl (d : Dev) (r : MirRec) : Dev := if d.mirroring then d.fabSend d.partnerAddr 1 0x20 0 (.control r) else d

/-! ### Delivery (R401, R407) -/

/-- `a` is at or after `b` in serial order. -/
def seqFrom {w : Nat} (b a : BitVec w) : Bool := decide ((a - b).toNat < 2 ^ (w - 1))

/-- Resend what is kept for a stream, from a sequence number on. -/
def Dev.e2eResend (d : Dev) (key : Nat) (seq : BitVec 32) : Dev :=
  let t : E2eTx := tgetD d.fab.tx key {}
  let d : Dev := { d with fab := { d.fab with tx := tput d.fab.tx key { t with ackAt := d.clk } } }
  (t.kept.filter fun f => seqFrom seq f.1).foldl (fun d f => d.fabForward f.2.1 f.2.2) d

/-- The kind of a record and what it describes: a later copy replaces an earlier one. -/
def MirRec.same : MirRec → MirRec → Bool
  | .cmd a _, .cmd b _ => a == b
  | .psn a x _ _, .psn b y _ _ => a == b && x == y
  | .conn a _, .conn b _ => a == b
  | .tenant a _, .tenant b _ => a == b
  | .session a _, .session b _ => a == b
  | .window a x _, .window b y _ => a == b && x == y
  | .seal a _ _, .seal b _ _ => a == b
  | .span a _, .span b _ => a == b
  | .payload a x i _, .payload b y j _ => a == b && x == y && i == j
  | .svc a _ _ _, .svc b _ _ _ => a == b
  | _, _ => false

/-- Change what is held of the partner. -/
def Dev.modPartner (d : Dev) (f : Partner → Partner) : Dev := { d with pair := { d.pair with partner := f d.pair.partner } }

/-- Change a batch of the partner, as received so far. -/
def batchMod (t : BitVec 48) (f : Batch → Batch) (l : List Batch) : List Batch :=
  if l.any (·.tick == t) then l.map fun b => if b.tick == t then f b else b else l ++ [f { tick := t }]

/-- Act on a message delivered from device `src` in a payload. What has a command of its own acts there. -/
def Dev.fabTake (d : Dev) (src link : Nat) (payload : List Byte) (m : FabMsg) : Dev :=
  let partner := d.flag Fld.fabPairCfgEn && src == d.partnerAddr
  match m with
  | .credit cls n => d.modLink link fun k => { k with credit := lmod k.credit (cls - 1) fun c => min creditMax (c + n) }
  | .e2eAck cls next =>
    { d with fab := { d.fab with tx := tmod d.fab.tx (e2eKey src cls) fun t =>
        { t with kept := t.kept.filter fun f => seqFrom next f.1, ackAt := d.clk } } }
  | .e2eNak cls seq => d.e2eResend (e2eKey src cls) seq
  | .control r => if partner then d.modPartner fun p => { p with control := p.control.filter (fun x => ! x.same r) ++ [r] } else d
  | .data b r => if partner then d.modPartner fun p => { p with batches := batchMod b (fun x => { x with recs := x.recs ++ [r], raw := x.raw ++ payload }) p.batches } else d
  | .batchEnd b n crc => if partner then d.modPartner fun p => { p with batches := batchMod b (fun x => { x with fin := some (n, crc) }) p.batches } else d
  | .resync r => if partner then d.modPartner fun p => { p with store := p.store.filter (fun x => ! x.1.same r) ++ [(r, none)] } else d
  | .memberData tp row off bs _ =>
    let had := ((d.fab.peerIn.find? fun x => x.is src tp row).map (·.got)).getD {}
    { d with fab := { d.fab with peerIn := d.fab.peerIn.filter (fun x => ! x.is src tp row) ++ [{ src := src, tp := tp, row := row, got := had.over off bs }] } }
  | .heartbeat _ _ _ => d
  | .mirrorAck _ => d
  | .mirrorNak _ => d
  | .lsa _ => d
  | .memberStatus _ _ _ _ _ _ => d

/-- Act on a frame's payload. -/
def Dev.fabAct (d : Dev) (src link type : Nat) (payload : List Byte) : Dev :=
  (Config.fabDecode type payload).foldl (fun d m => d.fabTake src link payload m) d

/-- Deliver frames held in order. -/
def Dev.e2eDrain (src cls link : Nat) : Nat → Dev → Dev
  | 0, d => d
  | n + 1, d =>
    let r : E2eRx := tgetD d.fab.rx (e2eKey src cls) {}
    match r.held.find? fun f => f.1 == r.next with
    | none => { d with fab := { d.fab with rx := tput d.fab.rx (e2eKey src cls) { r with gapSince := if r.held = [] then none else r.gapSince } } }
    | some f =>
      let d : Dev := { d with fab := { d.fab with rx := tput d.fab.rx (e2eKey src cls) { r with next := r.next + 1, held := r.held.erase f } } }
      Dev.e2eDrain src cls link n (d.fabAct src link (leAt f.2.1 3 1) f.2.2)

/-- Frames that a destination holds out of order (R407). -/
def heldMax : Nat := 1024

/-- A frame addressed to the device (R407). -/
def Dev.e2eArrive (d : Dev) (link : Nat) (head payload : List Byte) : Dev :=
  let src := leAt head 1 1
  let cls := headClass head
  let type := leAt head 3 1
  if cls = 0 then d.fabAct src link type payload
  else
    let key := e2eKey src cls
    let r : E2eRx := tgetD d.fab.rx key {}
    let seq := BitVec.ofNat 32 (leAt head 8 4)
    if ! seqFrom r.next seq then d.fabSend src 0 0x03 0 (.e2eAck cls r.next)
    else if seq ≠ r.next then
      if heldMax ≤ r.held.length ∨ r.held.any (·.1 == seq) then d
      else { d with fab := { d.fab with rx := tput d.fab.rx key { r with held := r.held ++ [(seq, head, payload)], gapSince := some (r.gapSince.getD d.clk) } } }
    else
      let d : Dev := { d with fab := { d.fab with rx := tput d.fab.rx key { r with next := r.next + 1 } } }
      let d := Dev.e2eDrain src cls link heldMax (d.fabAct src link type payload)
      d.fabSend src 0 0x03 0 (.e2eAck cls (tgetD d.fab.rx key {}).next)

/-- A discarded frame counts at its port (R427). -/
def Dev.frameBad (d : Dev) (l : Nat) : Dev := if l < 8 then d.bump Fld.fabPortErrCrc l else d

/-- The addresses that the device answers for: its own, and its partner's once it has taken it over (R421). -/
def Dev.isMine (d : Dev) (a : Nat) : Bool := a == d.fabAddr || a == d.fab.taken.toNat

/-- FRAME_RECEIVE (R400, R401): CRCs and LINK_SEQ are checked, LINK_ACK frees the replay buffer, and the frame is delivered
or forwarded. -/
def Dev.frameIn (d : Dev) (l : Nat) (f : Frame) : Dev :=
  let k := d.linkAt l
  let h := f.header
  let len := leAt h 4 2
  if ! k.up then d
  else if h.length ≠ 32 ∨ ! crc32cOk h ∨ f.payload.length ≠ len ∨ len ≠ 0 ∧ f.crc ≠ crc32c f.payload ∨ leAt h 18 2 ≠ k.rxNext.toNat then d.frameBad l
  else
    let ack := BitVec.ofNat 16 (leAt h 20 2)
    let left := k.replay.filter fun r => ! seqFrom r.1 ack
    let d := d.modLink l fun k => { k with
      rxNext := k.rxNext + 1, heard := true, replay := left, replays := if left.length < k.replay.length then 0 else k.replays }
    let cls := headClass h
    let d := if cls = 0 then d else d.nearSend l 0x03 (.credit cls (frameBytes f.payload))
    let dst := leAt h 0 1
    let d := d.linkDrain l
    if d.fab.conflicts.contains dst then d
    else if d.isMine dst then d.e2eArrive l h f.payload
    else
      let hops := leAt h 6 1 - 1
      if hops = 0 then d else d.fabForward (overwrite (h.take 18) 6 (leBytes 1 hops)) f.payload

/-- FRAME_RECEIVE (R401). -/
def execFrameReceive (link : LinkNo) (f : Frame) (s : State) : Host.Outcome State Fault Refusal :=
  nextDev s fun d => if link < fabLinks then d.frameIn link f else d

/-- LINK_REPLAY (R401): the frames not yet acknowledged are sent again. -/
def execLinkReplay (link : LinkNo) (s : State) : Host.Outcome State Fault Refusal :=
  nextDev s fun d =>
    let k := d.linkAt link
    if ! k.up ∨ k.replay = [] then d
    else
      let d := if link < 8 then d.bump Fld.fabPortErrReplay link else d
      let d := d.modLink link fun k => { k with replays := k.replays + 1 }
      k.replay.foldl (fun d r => d.emit (d.frameOut link (frameHeader r.2.1 r.1 (k.rxNext - 1)) r.2.2)) d

/-- E2E_GAP_TIMEOUT (R407): a gap has stood open for 4 ticks; the source is told. -/
def execE2eGapTimeout (src cls : Nat) (s : State) : Host.Outcome State Fault Refusal :=
  nextDev s fun d =>
    let r : E2eRx := tgetD d.fab.rx (e2eKey src cls) {}
    match r.gapSince with
    | some t =>
      if t + 4 ≤ d.clk then
        ({ d with fab := { d.fab with rx := tput d.fab.rx (e2eKey src cls) { r with gapSince := some d.clk } } } : Dev).fabSend src 0 0x04 0 (.e2eNak cls r.next)
      else d
    | none => d

/-- E2E_RESEND_TIMEOUT (R407): 8 ticks have passed without acknowledgement. -/
def execE2eResendTimeout (dst cls : Nat) (s : State) : Host.Outcome State Fault Refusal :=
  nextDev s fun d =>
    let t : E2eTx := tgetD d.fab.tx (e2eKey dst cls) {}
    match t.kept with
    | [] => d
    | f :: _ => if t.ackAt + 8 ≤ d.clk then d.e2eResend (e2eKey dst cls) f.1 else d

/-! ### Links up and down (R402, R403) -/

/-- The device's own advertisement has changed, and the routes have to be computed. -/
def Dev.lsaChanged (d : Dev) : Dev := { d with fab := { d.fab with lsaDirty := true, routeDirty := true } }

/-- A link goes down (R402): its replay buffer is left to R407. -/
def Dev.linkDown (d : Dev) (l cause : Nat) : Dev :=
  if ! (d.linkAt l).up then d
  else
    let d := d.modLink l fun k => { k with up := false, good := 0, quiet := 0, replay := [], waiting := [], replays := 0 }
    let d := if l < 8 then (d.setFlag Fld.fabPortStatUp l false).bump Fld.fabPortErrDown l else d
    let d : Dev := if l < 8 ∧ cause = 2 then ((d.setFld Fld.fabPortStatLanes l (d.fresh.toNat % 15))).spend else d
    (d.lsaChanged).postEvent 0x80 blkFab 0 [item l, item cause]

/-- The Ethernet port under a tunnel is up. -/
def Dev.tunnelPort (d : Dev) (l : Nat) : Bool := d.flag Fld.ethPortStatUp (d.fld Fld.fabTunCfgPort (l - 8))

/-- FAB_LINK_UP (R402, R403): block lock on all lanes, and 8 ticks with TICK frames. -/
def execFabLinkUp (link : LinkNo) (s : State) : Host.Outcome State Fault Refusal :=
  nextDev s fun d =>
    let k := d.linkAt link
    if fabLinks ≤ link ∨ k.up ∨ ! d.linkEn link ∨ k.good < 8 ∨ 8 ≤ link ∧ ! d.tunnelPort link then d
    else
      let d := d.modLink link fun k => { k with up := true, quiet := 0, txSeq := 0, rxNext := 0, replay := [], replays := 0, credit := List.replicate 4 creditMax }
      let d := if link < 8 then (d.setFlag Fld.fabPortStatUp link true).setFld Fld.fabPortStatLanes link 0xF else d
      d.lsaChanged

/-- FAB_LINK_DOWN (R402): silence, loss of block lock, or 16 replays of one frame. -/
def execFabLinkDown (link : LinkNo) (cause : Nat) (s : State) : Host.Outcome State Fault Refusal :=
  nextDev s fun d =>
    let k := d.linkAt link
    if link < fabLinks ∧ (cause = 1 ∧ 3 ≤ k.quiet ∨ cause = 2 ∨ cause = 3 ∧ 16 ≤ k.replays) then d.linkDown link cause else d

/-! ### Advertisements and routes (R404 to R406) -/

/-- The device's own advertisement. -/
def Dev.ownLsa (d : Dev) : Lsa :=
  { serial := Config.serial, addr := BitVec.ofNat 7 d.fabAddr, seq := d.fab.mySeq, source := d.fab.source, taken := d.fab.taken
    adj := d.upLinks.map fun l => (d.linkPeer l, d.linkCost l), since := d.clk }

/-- Addresses that two advertisements name with different serial numbers (R405). -/
def Dev.conflictsNow (d : Dev) : List Nat :=
  let all := (d.ownLsa :: d.fab.lsas)
  ((all.filter fun a => all.any fun b => b.addr == a.addr && b.serial != a.serial).map (·.addr.toNat)).dedup

/-- Conflicts are found anew; the device's own is posted once (R405). -/
def Dev.conflictCheck (d : Dev) : Dev :=
  let now := d.conflictsNow
  let me := d.fabAddr
  let new := now.contains me && ! d.fab.conflicts.contains me
  let other := ((d.fab.lsas.find? fun l => l.addr.toNat == me && l.serial != Config.serial).map (·.serial)).getD 0
  let d : Dev := { d with fab := { d.fab with conflicts := now, routeDirty := true } }
  if new then d.postBoth 0x81 blkFab 0 [item me, Config.serial, other] else d

/-- Send an advertisement on every link that is up but `not`. -/
def Dev.flood (d : Dev) (l : Lsa) (not : Option Nat) : Dev :=
  (d.upLinks.filter fun k => some k != not).foldl (fun d k =>
    (Config.fabEncode (.lsa l)).foldl (fun d p =>
      d.linkQueue k (frameHead (d.linkPeer k) d.fabAddr 4 0x02 (min 4096 p.length) 16 0 0 d.fabTickNow) (p.take 4096)) d) d

/-- LSA_RECEIVE (R404, R405): a newer copy is stored and flooded on; the device's own with a higher number makes it
continue above. -/
def execLsaReceive (link : LinkNo) (serial : BitVec 64) (addr : BitVec 7) (seq : BitVec 32) (source : Option Nat) (taken : BitVec 8)
    (adj : List (Nat × Nat)) (s : State) : Host.Outcome State Fault Refusal :=
  nextDev s fun d =>
    let l : Lsa := { serial := serial, addr := addr, seq := seq, source := source, taken := taken, adj := adj, since := d.clk }
    if fabLinks ≤ link ∨ ! (d.linkAt link).up then d
    else if serial = Config.serial ∧ addr.toNat = d.fabAddr then
      if d.fab.mySeq ≤ seq then { d with fab := { d.fab with mySeq := seq + 1, lsaDirty := true } } else d
    else
      let old := d.fab.lsas.find? fun x => x.addr == addr && x.serial == serial
      let newer := match old with
        | some x => decide (x.seq < seq)
        | none => true
      if newer then
        let d : Dev := { d with fab := { d.fab with lsas := d.fab.lsas.filter (fun x => ! (x.addr == addr && x.serial == serial)) ++ [l] } }
        (d.conflictCheck).flood l (some link)
      else d

/-- Ticks between advertisements (R404). -/
def lsaPeriod : Nat := 50000
/-- Ticks after which a copy is dropped (R404). -/
def lsaAge : Nat := 150000

/-- LSA_REFRESH (R404): the device sends its advertisement after a change, and every 50,000 ticks. -/
def execLsaRefresh (s : State) : Host.Outcome State Fault Refusal :=
  nextDev s fun d =>
    if d.fab.lsaDirty ∨ d.fab.lsaAt + lsaPeriod ≤ d.clk then
      let l := d.ownLsa
      ({ d with fab := { d.fab with mySeq := d.fab.mySeq + 1, lsaAt := d.clk, lsaDirty := false } } : Dev).flood l none
    else d

/-- LSA_EXPIRE (R404): a copy has not been refreshed for 150,000 ticks. -/
def execLsaExpire (addr : BitVec 7) (serial : BitVec 64) (s : State) : Host.Outcome State Fault Refusal :=
  nextDev s fun d =>
    match d.fab.lsas.find? fun x => x.addr == addr && x.serial == serial with
    | some x => if x.since + lsaAge ≤ d.clk then ({ d with fab := { d.fab with lsas := d.fab.lsas.erase x } } : Dev).conflictCheck else d
    | none => d

/-- The edges that advertisements give: from, to, cost; a device that has taken its partner over stands for it. -/
def Dev.edges (d : Dev) : List (Nat × Nat × Nat) :=
  (d.fab.lsas.filter fun l => ! d.fab.conflicts.contains l.addr.toNat).flatMap fun l =>
    (l.adj.map fun a => (l.addr.toNat, a.1, a.2)) ++ (if l.taken.toNat < 128 then [(l.addr.toNat, l.taken.toNat, 0)] else [])

/-- The lesser of two costs. -/
def costMin : Option Nat → Nat → Option Nat
  | none, b => some b
  | some a, b => some (min a b)

/-- Least costs from the device's links over the edges (R406). -/
def leastCosts (start : List (Nat × Nat × Nat)) (edges : List (Nat × Nat × Nat)) : List (Option Nat) :=
  let init := start.foldl (fun (t : List (Option Nat)) s => lmod t s.2.1 fun x => costMin x s.2.2) (List.replicate 128 none)
  iter (fun t => edges.foldl (fun (t : List (Option Nat)) e =>
    match t.getD e.1 none with
    | some a => lmod t e.2.1 fun x => costMin x (a + e.2.2)
    | none => t) t) 128 init

/-- The first hops of the least-cost paths. -/
def firstHops (start edges : List (Nat × Nat × Nat)) (cost : List (Option Nat)) : List (List Nat) :=
  let init := start.foldl (fun (t : List (List Nat)) s => if cost.getD s.2.1 none = some s.2.2 then lmod t s.2.1 fun x => x ++ [s.1] else t) (List.replicate 128 [])
  iter (fun t => edges.foldl (fun (t : List (List Nat)) e =>
    match cost.getD e.1 none, cost.getD e.2.1 none with
    | some a, some b => if a + e.2.2 = b then lmod t e.2.1 fun x => (x ++ t.getD e.1 []).dedup else t
    | _, _ => t) t) 128 init

/-- The forwarding table (R405, R406): up to four first hops for each address that can be reached. -/
def Dev.computeRoutes (d : Dev) : Table (List Nat) :=
  let me := d.fabAddr
  if d.fab.conflicts.contains me then []
  else
    let start := (d.upLinks.filter fun l => ! d.fab.conflicts.contains (d.linkPeer l)).map fun l => (l, d.linkPeer l, d.linkCost l)
    let edges := d.edges.filter fun e => e.1 != me && e.2.1 != me && ! d.fab.conflicts.contains e.2.1
    let hops := firstHops start edges (leastCosts start edges)
    (List.range 128).filterMap fun a => if a = me ∨ hops.getD a [] = [] then none else some (a, ((hops.getD a []).mergeSort (· ≤ ·)).take 4)

/-- ROUTE_COMPUTE (R406). A computation that overruns commits with the next tick's (R16). -/
def execRouteCompute (s : State) : Host.Outcome State Fault Refusal :=
  nextDev s fun d => if d.fab.routeDirty ∧ ! d.stalls blkFab 0 1 then { d with fab := { d.fab with routes := d.computeRoutes, routeDirty := false } } else d

/-! ### Tick alignment (R409 to R412) -/

/-- An address can be reached. -/
def Dev.reachable (d : Dev) (a : Nat) : Bool := a == d.fabAddr || (tget d.fab.routes a).isSome

/-- The upstream neighbour's link: the first hop towards the source (R410). -/
def Dev.upstreamLink (d : Dev) : Option Nat :=
  match d.fab.source with
  | some a => if a = d.fabAddr then none else (tgetD d.fab.routes a []).head?
  | none => none

/-- A source is reachable. -/
def Dev.sourceOk (d : Dev) : Bool := match d.fab.source with | some a => d.reachable a | none => false

/-- The source that a neighbour announces, if it can be reached. -/
def Dev.announced (d : Dev) : Option Nat :=
  (d.upLinks.findSome? fun l => (d.fab.lsas.find? fun x => x.addr.toNat == d.linkPeer l).bind (·.source)).filter d.reachable

/-- The device has the lowest address of those it can reach. -/
def Dev.lowest (d : Dev) : Bool := d.fab.lsas.all fun x => ! d.reachable x.addr.toNat || decide (d.fabAddr ≤ x.addr.toNat)

/-- Adopt a source, with FAB_SOURCE (R409, R426). -/
def Dev.adoptSource (d : Dev) (a : Nat) : Dev :=
  (({ d with fab := { d.fab with source := some a, sourceLost := 0 } } : Dev).lsaChanged).postEvent 0x82 blkFab 0 [item a]

/-- FAB_SOURCE (R409): no source has been reachable for 500 ticks, or none was known: the one that neighbours announce is
adopted, or the candidate with the lowest address declares itself. -/
def execFabSource (s : State) : Host.Outcome State Fault Refusal :=
  nextDev s fun d =>
    if d.sourceOk ∨ d.fab.source.isSome ∧ d.fab.sourceLost < 500 then d
    else
      match d.announced with
      | some a => d.adoptSource a
      | none => if d.flag Fld.fabCfgCand ∧ d.lowest then d.adoptSource d.fabAddr else d

/-- TICK_FRAME_RECEIVE (R410, R411): θ and d of the link; before the lock the upstream neighbour's count is taken at the next
boundary, after it the difference is held in FAB_TIME_OFS. -/
def execTickFrameReceive (link : LinkNo) (nbr : BitVec 7) (count : BitVec 48) (sent b a prev : Int) (aligned : Bool) (s : State) :
    Host.Outcome State Fault Refusal :=
  nextDev s fun d =>
    if fabLinks ≤ link ∨ ! d.linkEn link then d
    else
      let th := (a - sent) - (b - prev)
      let dl := (a - sent) + (b - prev)
      let d := d.modLink link fun k => { k with
        heard := true, heardTick := true, neighbour := nbr, count := count, theta2 := th, delay2 := dl, aligned := aligned }
      let d := if link < 8 then (d.setFld Fld.fabPortStatNeighbour link nbr.toNat).setFld Fld.fabPortStatDelay link (ofSigned 16 (rnd ((dl : Rat) / 2))) else d
      if d.upstreamLink = some link then
        let d := d.setFld Fld.fabTimeStatPhase 0 (ofSigned 16 (rnd ((th : Rat) / 2)))
        if ! d.locked then (if count ≠ d.tick then { d with fab := { d.fab with adopt := some count } } else d)
        else
          let o := (count - d.tick).toNat
          (d.setFld Fld.fabTimeOfsLoOffset 0 (o % 2 ^ 32)).setFld Fld.fabTimeOfsHiOffset 0 (o / 2 ^ 32)
      else d

/-- ALIGNED and the phase of the next boundary (R410, R412). -/
def Dev.alignTick (d : Dev) : Dev :=
  match d.upstreamLink with
  | some l =>
    let k := d.linkAt l
    let ok := decide (k.theta2.natAbs ≤ 16) && (k.aligned || some (d.linkPeer l) == d.fab.source)
    let run := if ok then d.fab.alignRun + 1 else 0
    let now := if 64 < k.theta2.natAbs then false else d.flag Fld.fabTimeStatAligned || decide (50 ≤ run)
    ({ d with fab := { d.fab with alignRun := run, noUp := 0, shift := max (-8) (min 8 (rnd ((k.theta2 : Rat) / 2))) } } : Dev).setFlag Fld.fabTimeStatAligned 0 now
  | none =>
    if d.fab.source = some d.fabAddr then ({ d with fab := { d.fab with shift := 0, noUp := 0 } } : Dev).setFlag Fld.fabTimeStatAligned 0 true
    else
      let d : Dev := { d with fab := { d.fab with alignRun := 0, shift := 0, noUp := d.fab.noUp + 1 } }
      if 50000 ≤ d.fab.noUp then d.setFlag Fld.fabTimeStatAligned 0 false else d

/-- The fabric at a boundary: link counts, the source, alignment, and a TICK frame on every enabled link (R402, R409 to R412).
The offsets of a TICK frame's bits are free values. -/
def Dev.fabTick (d : Dev) : Dev :=
  let d : Dev := { d with fab := { d.fab with links := d.fab.links.map fun k =>
    { k with good := if k.heardTick then k.good + 1 else 0, quiet := if k.heard then 0 else k.quiet + 1, heard := false, heardTick := false } } }
  let ok := d.sourceOk
  let d : Dev := { d with fab := { d.fab with sourceLost := if ok ∨ d.fab.source = none then 0 else d.fab.sourceLost + 1 } }
  let d := (d.setFlag Fld.fabTimeStatSourceOk 0 ok).setFld Fld.fabTimeStatSource 0 (d.fab.source.getD 0)
  let d := d.alignTick
  let d := (List.range fabLinks).foldl Dev.linkDrain d
  ((List.range fabLinks).filter d.linkEn).foldl (fun d l =>
    (d.emit (.tickFrame l (BitVec.ofNat 48 d.fabTickNow) (toSigned 16 (Config.freeValue d.free).toNat) (toSigned 16 (Config.freeValue (d.free + 1)).toNat))).spend 2) d

end Sys2Proof.Machine
end

