-- ==== Sys2Proof/Machine/Memory.lean ====
section
/-! DEFINITION. Buffer memory (R329 to R347): words with their check bytes, the fill map, classified reads, the mash
buffer and the operations that the data path uses. `Hbm` lists a byte only where it differs from what FILL left in its
page; an unmarked page lists only what was stored in it. -/

namespace Sys2Proof.Machine

/-! ### Cells -/

/-- Pages of buffer memory (R337). -/
def hbmPages : Nat := 12582912
/-- Words of buffer memory (R329). -/
def hbmWords : Nat := 1610612736

/-- The FILL run that covers a page. -/
def Hbm.runAt (h : Hbm) (page : Nat) : Option FillRun := h.runs.find? fun r => r.first ≤ page && page ≤ r.last

/-- Whether a page is marked in the fill map (R337). -/
def Hbm.marked (h : Hbm) (page : Nat) : Bool := (h.runAt page).isSome

/-- The data byte that an unlisted address holds: FILL's pattern, or 0 on an unmarked page. -/
def Hbm.dataDefault (h : Hbm) (a : Nat) : Byte :=
  match h.runAt (a / 4096) with
  | some r => BitVec.ofNat 8 (bits r.pattern.toNat (8 * (a % 4)) 8)
  | none => 0#8

/-- The 32 bytes that FILL writes in a word (R337). -/
def fillWord (pattern : BitVec 32) : List Byte := (List.range 32).map fun i => BitVec.ofNat 8 (bits pattern.toNat (8 * (i % 4)) 8)

/-- The check byte that an unlisted place of check storage holds; `c` is 4 × word address + check number. -/
def Hbm.chkDefault (h : Hbm) (c : Nat) : Byte :=
  match h.runAt (c / 512) with
  | some r => (wordChecks (c / 4) (fillWord r.pattern) r.poison).getD (c % 4) 0#8
  | none => 0#8

/-- The stored data byte at address `a`. -/
def Hbm.byte (h : Hbm) (a : Nat) : Byte := tgetD h.data a (h.dataDefault a)

/-- The stored check byte `c`. -/
def Hbm.check (h : Hbm) (c : Nat) : Byte := tgetD h.chk c (h.chkDefault c)

/-- Store a data byte; nothing stands at an address past the end of buffer memory (R329). -/
def Hbm.setByte (h : Hbm) (a : Nat) (v : Byte) : Hbm :=
  if a < 32 * hbmWords then { h with data := tputD h.data a (h.dataDefault a) v } else h

/-- Store a check byte. -/
def Hbm.setCheck (h : Hbm) (c : Nat) (v : Byte) : Hbm :=
  if c < 4 * hbmWords then { h with chk := tputD h.chk c (h.chkDefault c) v } else h

/-- Store data bytes from address `a`. -/
def Hbm.setBytes : Hbm → Nat → List Byte → Hbm
  | h, _, [] => h
  | h, a, b :: bs => Hbm.setBytes (h.setByte a b) (a + 1) bs

/-- Store check bytes from place `c`. -/
def Hbm.setChecks : Hbm → Nat → List Byte → Hbm
  | h, _, [] => h
  | h, c, b :: bs => Hbm.setChecks (h.setCheck c b) (c + 1) bs

/-- The 32 stored data bytes of word `w`. -/
def Hbm.wordData (h : Hbm) (w : Nat) : List Byte := (List.range 32).map fun i => h.byte (32 * w + i)
/-- The 4 stored check bytes of word `w`. -/
def Hbm.wordChk (h : Hbm) (w : Nat) : List Byte := (List.range 4).map fun i => h.check (4 * w + i)

/-- Store a whole word of 32 bytes with its checks, poisoned or not (R332 to R334). -/
def Hbm.putWord (h : Hbm) (w : Nat) (data : List Byte) (poison : Bool) : Hbm :=
  (h.setBytes (32 * w) (data.take 32)).setChecks (4 * w) ((wordChecks w data poison).take 4)

/-- What is left of a run outside pages `first` to `last`. -/
def runWithout (first last : Nat) (r : FillRun) : List FillRun :=
  if last < r.first ∨ r.last < first then [r]
  else (if r.first < first then [{ r with last := first - 1 }] else []) ++ (if last < r.last then [{ r with first := last + 1 }] else [])

/-- Insert a run in page order. -/
def runInsert (x : FillRun) : List FillRun → List FillRun
  | [] => [x]
  | r :: rs => if x.first < r.first then x :: r :: rs else r :: runInsert x rs

/-- FILL of whole pages (R337): every word holds the pattern with its checks, and the pages are marked. -/
def Hbm.fill (h : Hbm) (first last : Nat) (pattern : BitVec 32) (poison : Bool) : Hbm :=
  { data := h.data.filter fun c => c.1 / 4096 < first || last < c.1 / 4096
    chk := h.chk.filter fun c => c.1 / 512 < first || last < c.1 / 512
    runs := runInsert { first := first, last := last, pattern := pattern, poison := poison } (h.runs.flatMap (runWithout first last)) }

/-- Pages marked. -/
def Hbm.markedPages (h : Hbm) : Nat := (h.runs.map fun r => r.last + 1 - r.first).foldl (· + ·) 0

/-- Every bit of the fill map is clear (R337: cold reset); nothing stored is readable any more. -/
def Hbm.empty : Hbm := {}

/-- A list of cells is in canonical form: addresses rise, lie below `top`, and no entry equals its default. -/
def cellsWf (top : Nat) (dflt : Nat → Byte) (l : List Host.Cell) : Bool :=
  Rising l && l.all fun c => decide (c.1 < top) && c.2 != dflt c.1

/-- Memory is in canonical form. -/
def Memory.wf (h : Hbm) : Bool :=
  cellsWf (32 * hbmWords) h.dataDefault h.data && cellsWf (4 * hbmWords) h.chkDefault h.chk

/-! ### Reading -/

/-- The group of a word (R330). -/
def memGroup (w : Nat) : Nat := bits (32 * w) 8 5

/-- One CORRECTED classification (R336, R346): the bucket of the group rises, and one that reaches THRESH posts
MEM_CE_BURST and empties. -/
def Dev.memCorrected (d : Dev) (w : Nat) : Dev :=
  let g := memGroup w
  let d := d.bump Fld.memErrCnt0Ce
  let l := d.fld Fld.memBktStatLevel g + 1
  if d.fld1 Fld.memBktCfgThresh ≤ l then
    (d.setFld Fld.memBktStatLevel g 0).postBoth 0x70 blkMem (g % 2) [item g, item (32 * w)]
  else d.setFld Fld.memBktStatLevel g l

/-- The last-error registers (R349). -/
def Dev.memLastErr (d : Dev) (w cls : Nat) : Dev :=
  let a := 32 * w
  ((d.setFld Fld.memLastErrLoAddr 0 (a % 2 ^ 32)).setFld Fld.memLastErrHiAddr 0 (a / 2 ^ 32)).setFld Fld.memLastErrHiClass 0 cls

/-- One UNCORRECTABLE read (R336, R347). -/
def Dev.memUncorrectable (d : Dev) (w consumer : Nat) : Dev :=
  let g := memGroup w
  let d := (d.bump Fld.memErrCnt1Ue).memLastErr w 6
  if d.mem.uePosted.contains g then d
  else { (d.postBoth 0x71 blkMem (g % 2) [item (32 * w), item 6, item consumer]) with
         mem := { d.mem with uePosted := g :: d.mem.uePosted } }

/-- One ADDRESS_FAULT read (R336, R347): the event names the stack and the channel of the address read. -/
def Dev.memAddrFault (d : Dev) (w : Nat) : Dev :=
  let g := memGroup w
  let d := (d.bump Fld.memErrCnt1Addr).memLastErr w 5
  if d.mem.afPosted.contains g then d
  else { (d.postBoth 0x72 blkMem (g % 2) [item (32 * w), item (g % 2), item (g / 2)]) with
         mem := { d.mem with afPosted := g :: d.mem.afPosted } }

/-- What a word's class counts and posts (R336). -/
def Dev.memClass (d : Dev) (w consumer : Nat) (c : MemClass) : Dev :=
  match c with
  | .corrected => d.memCorrected w
  | .uncorrectable => d.memUncorrectable w consumer
  | .addressFault => d.memAddrFault w
  | .unwritten => d
  | .clean => d
  | .poison => d

/-- The class of stored word `w`, its data and its poison bit as delivered (R335). -/
def Hbm.classify (h : Hbm) (w : Nat) : MemClass × List Byte × Bool :=
  if h.marked (w / 128) then classifyWord w (h.wordData w) (h.wordChk w) else (.unwritten, zeros 32, true)

/-- The mash entry of a word. -/
def Dev.mashAt (d : Dev) (w : Nat) : Option MashEntry := d.mem.mash.find? (·.word == w)

/-- The masked bytes of an entry over the other bytes. -/
def mashOver (mask : List Bool) (top under : List Byte) : List Byte :=
  (List.range 32).map fun i => if mask.getD i false then top.getD i 0#8 else under.getD i 0#8

/-- Read word `w` for a consumer block (R335, R336, R344). -/
def Dev.memRead (d : Dev) (h : Hbm) (w consumer : Nat) : Dev × List Byte × Bool :=
  let (c, data, p) := h.classify w
  let d := d.memClass w consumer c
  match d.mashAt w with
  | none => (d, data, p)
  | some e => (d, mashOver e.mask e.bytes data, p || e.poison)

/-- Read `n` words from word `w`: their bytes and the poison bit of each. -/
def Dev.memReadWords (h : Hbm) (consumer : Nat) : Nat → Dev → Nat → Dev × List Byte × List Bool
  | 0, d, _ => (d, [], [])
  | n + 1, d, w =>
    let (d, bs, p) := d.memRead h w consumer
    let (d, bs', ps) := Dev.memReadWords h consumer n d (w + 1)
    (d, bs ++ bs', p :: ps)

/-- Read `len` bytes from address `a`; true when a word of them is poisoned. -/
def Dev.memBytes (d : Dev) (h : Hbm) (a len consumer : Nat) : Dev × List Byte × Bool :=
  let w := a / 32
  let n := if len = 0 then 0 else (a + len - 1) / 32 + 1 - w
  let (d, bs, ps) := Dev.memReadWords h consumer n d w
  (d, slice bs (a % 32) len, ps.any id)

/-! ### Writing -/

/-- A data-plane write to an unmarked page (R338): counted, and MEM_UNFILLED_WRITE posted at most once per page. -/
def Dev.memUnfilled (d : Dev) (h : Hbm) (w : Nat) : Dev :=
  let page := w / 128
  if h.marked page then d
  else
    let d := d.bump Fld.memErrCnt1Unfilled
    if d.mem.unfilledPosted.contains page then d
    else { (d.postEvent 0x73 blkMem (memGroup w % 2) [item (4096 * page)]) with
           mem := { d.mem with unfilledPosted := page :: d.mem.unfilledPosted } }

/-- Remove the mash entry of a word. -/
def Dev.mashDrop (d : Dev) (w : Nat) : Dev := { d with mem := { d.mem with mash := d.mem.mash.filter (·.word != w) } }

/-- A whole-word write (R344): it discards a mash entry of the word. -/
def memPut (hd : Hbm × Dev) (w : Nat) (data : List Byte) (poison : Bool) : Hbm × Dev :=
  (hd.1.putWord w data poison, (hd.2.mashDrop w).memUnfilled hd.1 w)

/-- Write out an entry by read-merge-write, or as it is when its mask is complete (R342, R343). -/
def mashOut (hd : Hbm × Dev) (e : MashEntry) : Hbm × Dev :=
  let (h, d) := hd
  let d := d.mashDrop e.word
  if e.mask.all id then (h.putWord e.word e.bytes e.poison, d.memUnfilled h e.word)
  else
    let (c, data, _) := h.classify e.word
    let d := (d.memClass e.word blkMem c).bump Fld.memMashStatRmw
    let bad := match c with
      | .clean => false | .corrected => false | .unwritten => false
      | .poison => true | .uncorrectable => true | .addressFault => true
    (h.putWord e.word (mashOver e.mask e.bytes data) (e.poison || bad), d.memUnfilled h e.word)

/-- Entries of the mash buffer (R342). -/
def mashMax : Nat := 64

/-- A write of part of a word (R342): it merges into the word's entry, or takes a new one; with all 64 in use the
oldest is written out first (R344). -/
def mashMerge (hd : Hbm × Dev) (w off : Nat) (bs : List Byte) (poison : Bool) : Hbm × Dev :=
  let (h, d) := hd
  let bytes := overwrite (zeros 32) off bs
  let mask := (List.range 32).map fun i => decide (off ≤ i) && decide (i < off + bs.length)
  match d.mashAt w with
  | some e =>
    let e' : MashEntry := { e with bytes := mashOver mask bytes e.bytes, mask := List.zipWith (· || ·) e.mask mask, poison := e.poison || poison }
    (h, { d with mem := { d.mem with mash := d.mem.mash.map fun x => if x.word == w then e' else x } })
  | none =>
    let (h, d) := if mashMax ≤ d.mem.mash.length then
        match d.mem.mash with
        | e :: _ => mashOut (h, d) e
        | [] => (h, d)
      else (h, d)
    let e : MashEntry := { word := w, bytes := bytes, mask := mask, poison := poison, born := d.clk }
    (h, { d with mem := { d.mem with mash := d.mem.mash ++ [e] } })

/-- Write bytes that start at offset `off` of word `w`, word by word; `n` bounds the words. -/
def memPutGo (poison : Bool) : Nat → Hbm × Dev → Nat → Nat → List Byte → Hbm × Dev
  | 0, hd, _, _, _ => hd
  | n + 1, hd, w, off, bs =>
    if bs = [] then hd
    else
      let now := bs.take (32 - off)
      let hd := if now.length = 32 then memPut hd w now poison else mashMerge hd w off now poison
      memPutGo poison n hd (w + 1) 0 (bs.drop (32 - off))

/-- Write bytes at address `a` (R342, R344). -/
def memWrite (hd : Hbm × Dev) (a : Nat) (bs : List Byte) (poison : Bool) : Hbm × Dev :=
  memPutGo poison (bs.length + 1) hd (a / 32) (a % 32) bs

/-- Write out every entry, oldest first (R344: before the HBM enters self-refresh for a warm reset). -/
def mashFlushAll (hd : Hbm × Dev) : Hbm × Dev := hd.2.mem.mash.foldl mashOut hd

/-- Write out the entries whose mask is complete (R342). -/
def mashFlushFull (hd : Hbm × Dev) : Hbm × Dev := (hd.2.mem.mash.filter (·.mask.all id)).foldl mashOut hd

/-- Memory and device of a state, and back. -/
def State.hd (s : State) : Hbm × Dev := (s.hbm, s.dev)
/-- The state with memory and device replaced. -/
def State.withHd (s : State) (hd : Hbm × Dev) : State := { s with hbm := hd.1, dev := hd.2 }

/-- The outcome of a command that changes memory and the device; while the core is held in reset it does nothing. -/
def nextHd (s : State) (f : Hbm × Dev → Hbm × Dev) : Host.Outcome State Fault Refusal := .next (s.withHd (if s.dev.coreHeld then s.hd else f s.hd))

/-- The bytes of a buffer from an offset on. -/
def Dev.bufBytes (d : Dev) (h : Hbm) (b : BitVec 32) (off len consumer : Nat) : Dev × List Byte × Bool :=
  d.memBytes h (d.bufAddr b + off) len consumer

/-- Write bytes of a buffer from an offset on. -/
def bufWrite (hd : Hbm × Dev) (b : BitVec 32) (off : Nat) (bs : List Byte) (poison : Bool) : Hbm × Dev :=
  memWrite hd (hd.2.bufAddr b + off) bs poison

/-- Read `len` bytes from word-aligned address `a` with the poison bit of each word (R6). -/
def Dev.memWords (d : Dev) (h : Hbm) (a len consumer : Nat) : Dev × Words :=
  let (d, bs, ps) := Dev.memReadWords h consumer (ceilDiv len 32) d (a / 32)
  (d, { bytes := bs.take len, poison := ps })

/-- The bytes of a buffer from its start, with the poison bit of each word. -/
def Dev.bufWords (d : Dev) (h : Hbm) (b : BitVec 32) (len consumer : Nat) : Dev × Words := d.memWords h (d.bufAddr b) len consumer

/-- Write words at word-aligned address `a`, each with its poison bit (R6). -/
def memPutWords : List Bool → Hbm × Dev → Nat → List Byte → Hbm × Dev
  | [], hd, a, bs => memWrite hd a bs false
  | p :: ps, hd, a, bs => memPutWords ps (memWrite hd a (bs.take 32) p) (a + 32) (bs.drop 32)

/-- Write words into a buffer from its start. -/
def bufPutWords (hd : Hbm × Dev) (b : BitVec 32) (w : Words) : Hbm × Dev := memPutWords w.poison hd (hd.2.bufAddr b) w.bytes

end Sys2Proof.Machine
end

