-- ==== Sys2Proof/Machine/Operands.lean ====
section
/-! DEFINITION. The operand forms of commands: capsules (R35, R37), responses and READY capsules (R42, R59), position
entries (R48), read descriptors (R53), piece descriptors and chunk headers (R92, R98), admin descriptors (R385). -/

namespace Sys2Proof.Machine

/-! ### Status codes (R61, R386) -/

/-- OK. -/
def stOk : Nat := 0x00
/-- OPCODE_INVALID. -/
def stOpcodeInvalid : Nat := 0x10
/-- FIELD_INVALID. -/
def stFieldInvalid : Nat := 0x11
/-- TAG_IN_USE. -/
def stTagInUse : Nat := 0x12
/-- TAG_UNKNOWN. -/
def stTagUnknown : Nat := 0x13
/-- SESSION_UNKNOWN. -/
def stSessionUnknown : Nat := 0x20
/-- SESSION_MODE. -/
def stSessionMode : Nat := 0x21
/-- SESSION_LIMIT. -/
def stSessionLimit : Nat := 0x22
/-- KEY_DENIED. -/
def stKeyDenied : Nat := 0x23
/-- CLASS_DENIED. -/
def stClassDenied : Nat := 0x24
/-- SPAN_UNKNOWN. -/
def stSpanUnknown : Nat := 0x25
/-- SPAN_EXHAUSTED. -/
def stSpanExhausted : Nat := 0x26
/-- NOT_MOUNTED. -/
def stNotMounted : Nat := 0x27
/-- GRANT_SHORT. -/
def stGrantShort : Nat := 0x30
/-- GRANT_MISMATCH. -/
def stGrantMismatch : Nat := 0x31
/-- ABORTED. -/
def stAborted : Nat := 0x32
/-- NOT_FOUND. -/
def stNotFound : Nat := 0x40
/-- BUFFER_TOO_SMALL. -/
def stBufferTooSmall : Nat := 0x41
/-- READ_ERROR. -/
def stReadError : Nat := 0x42
/-- INTEGRITY. -/
def stIntegrity : Nat := 0x43
/-- DECOMPRESS_ERROR. -/
def stDecompressError : Nat := 0x44
/-- POISON. -/
def stPoison : Nat := 0x45
/-- BUFFER_POISON. -/
def stBufferPoison : Nat := 0x46
/-- REFUSED (R386). -/
def stRefused : Nat := 0x50
/-- STATE (R386). -/
def stState : Nat := 0x51
/-- IMAGE_INVALID (R386). -/
def stImageInvalid : Nat := 0x52
/-- TRANSPORT (R386). -/
def stTransport : Nat := 0x53
/-- INTERNAL. -/
def stInternal : Nat := 0x7F

/-! ### Flags of a response (R59) -/

/-- BUFFERED. -/
def flBuffered : Nat := 1
/-- ON_TAPE. -/
def flOnTape : Nat := 2
/-- MORE. -/
def flMore : Nat := 4
/-- POS_PENDING. -/
def flPosPending : Nat := 8
/-- TORN_SEEN. -/
def flTornSeen : Nat := 16

/-! ### Opcodes (R37) -/

/-- OPEN-SESSION. -/
def opOpen : Nat := 0x01
/-- CLOSE-SESSION. -/
def opClose : Nat := 0x02
/-- WRITE-RECORDS. -/
def opWrite : Nat := 0x10
/-- WRITE-MARK. -/
def opMark : Nat := 0x11
/-- SYNC. -/
def opSync : Nat := 0x12
/-- READ-RECORDS. -/
def opRead : Nat := 0x20
/-- LOCATE-HINT. -/
def opHint : Nat := 0x21
/-- QUERY. -/
def opQuery : Nat := 0x30
/-- ABORT. -/
def opAbort : Nat := 0x3F
/-- PUSH-DATA. -/
def opPush : Nat := 0x7F

/-- The opcodes of R37. -/
def capsuleOpcodes : List Nat := [opOpen, opClose, opWrite, opMark, opSync, opRead, opHint, opQuery, opAbort, opPush]

/-! ### The common header and the bodies (R35, R37) -/

/-- OPCODE. -/
def capOpcode (c : List Byte) : Nat := leAt c 0 1
/-- CMD_TAG. -/
def capTag (c : List Byte) : BitVec 16 := BitVec.ofNat 16 (leAt c 2 2)
/-- SESSION. -/
def capSession (c : List Byte) : Nat := leAt c 4 3

/-- The body bytes that R37 lists for an opcode, in ranges (first, length). The lengths of WRITE-RECORDS stand for
the first COUNT records. -/
def bodyFields (op : Nat) (c : List Byte) : List (Nat × Nat) :=
  if op = opOpen then [(8, 7)]
  else if op = opClose then [(8, 14)]
  else if op = opWrite then [(8, 1), (10, 6), (16, 3 * min (leAt c 8 1) 14)]
  else if op = opMark then [(8, 2)]
  else if op = opSync then [(8, 14)]
  else if op = opRead then [(8, 21), (32, 31)]
  else if op = opHint then [(8, 14)]
  else if op = opQuery then [(8, 1)]
  else if op = opAbort then [(8, 2)]
  else if op = opPush then [(8, 4), (16, 12)]
  else []

/-- Every reserved header byte (R35) and body byte (R37) is 0. -/
def reservedClear (op : Nat) (c : List Byte) : Bool :=
  let fs := bodyFields op c
  leAt c 1 1 == 0 && leAt c 7 1 == 0 &&
    (List.range 56).all fun k =>
      let i := k + 8
      c.getD i 0#8 == 0#8 || fs.any fun f => f.1 ≤ i && i < f.1 + f.2

/-- The lengths of a WRITE-RECORDS capsule (R37). -/
def capLengths (c : List Byte) : List Nat := (List.range (leAt c 8 1)).map fun i => leAt c (16 + 3 * i) 3

/-- R40's four conditions on a WRITE-RECORDS capsule do not hold. -/
def writeFieldsOk (c : List Byte) : Bool :=
  let n := leAt c 8 1
  let map := leAt c 10 2
  let ls := capLengths c
  decide (1 ≤ n) && decide (n ≤ 14) && (List.range 16).all (fun i => ! bitOf map i || decide (i < n))
    && (List.range 14).all (fun i => ! bitOf map i || ls.getD i 0 == 0) && leAt c 12 4 == ls.foldl (· + ·) 0

/-- R38's first condition does not hold. -/
def openFieldsOk (c : List Byte) : Bool :=
  leAt c 8 1 ≤ 1 && leAt c 9 1 ≤ 4 && leAt c 14 1 < 4 && (leAt c 8 1 == 0 || (leAt c 10 2 == 0 && leAt c 14 1 == 0))

/-- The ordinals that a write command assigns (R33, R64). -/
def ordinalsOf (op : Nat) (c : List Byte) : Nat := if op = opWrite then leAt c 8 1 else if op = opMark then leAt c 8 2 else 0

/-! ### Responses and READY capsules -/

/-- A response capsule (R59). -/
def responseBytes (status : Nat) (tag : BitVec 16) (session flags a b c : Nat) : List Byte :=
  [0x01#8] ++ leBytes 1 status ++ leBytes 2 tag.toNat ++ leBytes 3 session ++ leBytes 1 flags ++ leBytes 8 a ++ leBytes 8 b ++ leBytes 8 c

/-- A READY capsule (R42). -/
def readyBytes (tag : BitVec 16) (session : Nat) (gid rkey : BitVec 32) (va : BitVec 64) (len off : Nat) : List Byte :=
  [0x02#8, 0x00#8] ++ leBytes 2 tag.toNat ++ leBytes 3 session ++ [0x00#8] ++ leBytes 4 gid.toNat ++ leBytes 4 rkey.toNat
    ++ leBytes 8 va.toNat ++ leBytes 4 len ++ leBytes 4 off

/-- A position entry (R48). -/
def posEntryBytes (e : PosEntry) : List Byte :=
  leBytes 8 e.vol.toNat ++ leBytes 6 e.ds ++ leBytes 2 (b2n e.lost) ++ leBytes 5 e.first ++ zeros 3 ++ leBytes 4 e.count ++ zeros 4

/-- A read descriptor (R53). -/
def readDescBytes (delivered : Nat) (mark torn : Bool) (total : Nat) : List Byte :=
  leBytes 3 delivered ++ leBytes 1 (b2n mark + 2 * b2n torn) ++ leBytes 3 total ++ [0x00#8]

/-! ### Pieces and chunk headers -/

/-- The 8 bytes of a piece descriptor (R92). -/
def pieceBytes (p : Piece) : List Byte :=
  leBytes 2 p.len ++ leBytes 1 (b2n p.first + 2 * b2n p.last + 4 * b2n p.mark + 8 * b2n p.void) ++ leBytes 3 p.total ++ leBytes 2 p.no

/-- A piece read back from an original stream. -/
structure PieceIn where
  len : Nat
  first : Bool
  last : Bool
  mark : Bool
  void : Bool
  total : Nat
  no : Nat
  data : List Byte
  deriving DecidableEq, Repr

/-- The pieces that tile an original stream exactly (R92, R101); none when they do not. -/
def parsePieces : Nat → List Byte → Option (List PieceIn)
  | 0, bs => if bs = [] then some [] else none
  | fuel + 1, bs =>
    if bs = [] then some []
    else if bs.length < 8 + leAt bs 0 2 then none
    else
      let fl := leAt bs 2 1
      (parsePieces fuel (bs.drop (8 + leAt bs 0 2))).map fun ps =>
        { len := leAt bs 0 2, first := bitOf fl 0, last := bitOf fl 1, mark := bitOf fl 2, void := bitOf fl 3,
          total := leAt bs 3 3, no := leAt bs 6 2, data := slice bs 8 (leAt bs 0 2) } :: ps

/-- The ordinal of each piece, from the ordinal of the first (R98): a piece with FIRST opens the next ordinal. -/
def pieceOrdinals (first : Nat) : List PieceIn → List (Nat × PieceIn)
  | [] => []
  | p :: ps =>
    (first, p) :: (match ps with
      | [] => []
      | q :: qs => pieceOrdinals (if q.first then first + 1 else first) (q :: qs))

/-- The chunk header (R98). -/
def chunkHeader (comp enc poisoned torn : Bool) (session tenant key : Nat) (seq : BitVec 64) (firstOrd pieces orig stored : Nat)
    (crc : BitVec 32) : List Byte :=
  leBytes 1 (b2n comp + 2 * b2n enc + 4 * b2n poisoned + 8 * b2n torn) ++ leBytes 3 session ++ leBytes 2 tenant
    ++ leBytes 2 (if enc then key else 0) ++ leBytes 8 seq.toNat ++ leBytes 5 firstOrd
    ++ leBytes 7 (pieces + 2 ^ 14 * orig + 2 ^ 31 * stored) ++ leBytes 4 crc.toNat

/-- PIECES of a header. -/
def hdrPieces (h : List Byte) : Nat := bits (leAt h 21 7) 0 14
/-- ORIG_LEN of a header. -/
def hdrOrigLen (h : List Byte) : Nat := bits (leAt h 21 7) 14 17
/-- STORED_LEN of a header. -/
def hdrStoredLen (h : List Byte) : Nat := bits (leAt h 21 7) 31 17
/-- COMPRESSED of a header. -/
def hdrComp (h : List Byte) : Bool := bitOf (leAt h 0 1) 0
/-- ENCRYPTED of a header. -/
def hdrEnc (h : List Byte) : Bool := bitOf (leAt h 0 1) 1

/-! ### Admin descriptors (R385) -/

/-- The body bytes that R385 lists for an admin opcode, in ranges (first, length). -/
def adminFields (op : Nat) : List (Nat × Nat) :=
  if op = 0x01 then [(8, 6), (16, 3), (20, 3), (24, 3), (28, 4), (32, 24)]
  else if op = 0x02 then [(8, 2)]
  else if op = 0x03 then [(8, 1), (10, 2)]
  else if op = 0x04 then [(8, 4)]
  else if op = 0x10 then [(8, 5), (16, 9)]
  else if op = 0x20 then [(8, 1), (16, 8)]
  else if op = 0x21 then [(8, 4), (16, 8)]
  else if op = 0x22 then [(8, 3), (16, 14)]
  else if op = 0x23 then [(8, 2), (16, 8)]
  else if op = 0x24 then [(8, 3), (12, 2), (16, 8)]
  else if op = 0x25 then [(8, 1)]
  else if op = 0x30 then [(8, 20)]
  else if op = 0x31 then [(8, 4), (16, 8)]
  else if op = 0x32 then [(8, 1)]
  else if op = 0x40 then [(8, 8), (16, 8)]
  else if op = 0x41 then [(8, 4)]
  else if op = 0x50 then [(8, 4), (16, 8)]
  else []

/-- Every reserved byte of an admin descriptor is 0, and SESSION is 0 (R35, R385). -/
def adminReservedClear (op : Nat) (c : List Byte) : Bool :=
  leAt c 1 1 == 0 && leAt c 4 4 == 0 &&
    (List.range 56).all fun k =>
      let i := k + 8
      c.getD i 0#8 == 0#8 || (adminFields op).any fun f => f.1 ≤ i && i < f.1 + f.2

end Sys2Proof.Machine
end

