-- ==== Sys2Proof/Machine/Rte.lean ====
section
/-! DEFINITION. The record transport engine's operations (R26 to R68): where capsules come from, responses, sessions,
what a failed or aborted command leaves (R44, R86), position entries (R48 to R50), errors of a connection (R34). -/

namespace Sys2Proof.Machine

/-! ### Connections and rings as sources -/

/-- The key of a source: its connection number, or 16,384 plus its ring number. -/
def srcKey : Src → Nat
  | .conn c => c
  | .ring r => 16384 + r

/-- Whether a key names a record ring. -/
def isRing (key : Nat) : Bool := decide (16384 ≤ key) && decide (key < 16640)

/-- The number by which the device keeps session `n` of a source: a connection taken over from the partner has the key
32,768 plus the partner's, and its sessions stand 2^24 above their numbers, so that they never meet the device's own. -/
def sesNo (key n : Nat) : Nat := if 32768 ≤ key ∧ n ≠ 0 then n % 2 ^ 24 + 2 ^ 24 else n

/-- The connection `c`, unless its queue pair is in the error state. -/
def Dev.connLive (d : Dev) (c : Nat) : Option Conn := (tget d.rte.conns c).filter fun k => ! k.err

/-- The tenant of a source that can send capsules (R31, R65): a connection, or an enabled record ring bound to a
tenant. -/
def Dev.srcTenant (d : Dev) (key : Nat) : Option Nat :=
  if isRing key then
    let r := key - 16384
    if d.ringEn r ∧ d.ringKind r = 1 then (d.ringAt r).tenant else none
  else (d.connLive key).map (·.tenant)

/-- Capsule slots of a connection (R30). -/
def Dev.maxCmds (d : Dev) : Nat :=
  let n := d.fld Fld.rteConnCfgMaxCmds
  if n = 0 ∨ 4096 < n then 4096 else n

/-- Outstanding grants of a command (R30). -/
def Dev.grantDepth (d : Dev) : Nat := d.fld1 Fld.rteConnCfgGrantDepth

/-- The rate of an Ethernet port in Gbit/s (R486). -/
def Dev.lineRate (d : Dev) (port : Nat) : Rat := ((50 * 2 ^ d.fld Fld.ethPortStatSpeed port : Nat) : Rat)

/-! ### Commands by source, session and tag -/

/-- The commands that hold a tag of a source. -/
def Dev.cmdsOf (d : Dev) (key : Nat) : List (Nat × Cmd) := d.rte.cmds.filter fun c => c.2.src == key && ! c.2.answered

/-- The command that holds a tag (R36). -/
def Dev.cmdByTag (d : Dev) (key : Nat) (tag : BitVec 16) : Option (Nat × Cmd) := (d.cmdsOf key).find? (·.2.tag == tag)

/-- A tag is in use until the final response is sent (R36). A capsule that received TAG_IN_USE takes no tag (R488). -/
def Dev.tagInUse (d : Dev) (key : Nat) (tag : BitVec 16) : Bool :=
  (d.cmdByTag key tag).isSome ||
    d.rte.dueq.any fun q => q.src == key && ! q.ready && leAt q.bytes 1 1 != stTagInUse && capTag q.bytes == tag

/-- Capsule slots in use (R27): from arrival until the final response is sent. -/
def Dev.slotsUsed (d : Dev) (key : Nat) : Nat :=
  (d.cmdsOf key).length + (d.rte.dueq.filter fun q => q.src == key && ! q.ready).length

/-- A session of a source that is open (R32). -/
def Dev.sesOf (d : Dev) (key n : Nat) : Option Session :=
  (tget d.ses.sessions n).filter fun s => s.src == key && ! s.dead

/-- A CLOSE-SESSION of the session has arrived and has not ended (R39). -/
def Dev.closing (d : Dev) (n : Nat) : Bool := d.rte.cmds.any fun c => c.2.session == n && c.2.op == opClose && ! c.2.answered

/-! ### Responses -/

/-- Responses, and READY capsules, of one tick (R15). -/
def respMax : Nat := 4096

/-- The device sends a message of `n` packets as requester: they take the next PSNs and wait for their acknowledgement
(R424). In a pair a control record goes ahead of each (R415): it carries the capsule of a SEND, or the READ-RECORDS that
read data serves. -/
def Dev.sendMessage (d : Dev) (c n : Nat) (m : Out) (cap : List Byte) (read : Option Nat) : Dev :=
  match tget d.rte.conns c with
  | none => d
  | some k =>
    let d := (List.range n).foldl (fun d i => d.mirrorControl (.psn c (k.sqPsn + BitVec.ofNat 24 i) cap read)) d
    (d.emitOn c m).modConn c fun k => { k with
      unacked := k.unacked ++ (List.range n).map fun i => (k.sqPsn + BitVec.ofNat 24 i, if i + 1 = n then some m else none)
      sqPsn := k.sqPsn + BitVec.ofNat 24 n }

/-- The packets of a message of `len` bytes on a connection, at its path MTU (R385): codes 1 to 5 are 256 to 4,096. -/
def Dev.packets (d : Dev) (c len : Nat) : Nat :=
  match tget d.rte.conns c with
  | some k => max 1 (ceilDiv len (128 * 2 ^ k.mtu))
  | none => 1

/-- Packets that the device has received on a connection (R417, R424): they are acknowledged at once, or in a pair once
the batch that holds them is acknowledged; after a power-fail warning outside a pair they are not (R470). -/
def Dev.recvPackets (d : Dev) (c n : Nat) : Dev :=
  match tget d.rte.conns c with
  | none => d
  | some k =>
    let last := k.rqPsn + BitVec.ofNat 24 (n - 1)
    let d := d.modConn c fun k => { k with rqPsn := k.rqPsn + BitVec.ofNat 24 n }
    if d.holdsAcks then d.modConn c fun k => { k with ackWait := k.ackWait ++ [(last, d.tick + 1)] }
    else if d.pins.pfTaken ∧ ! d.pairMode then d
    else d.emitOn c (.ack c last)

/-- An RDMA WRITE to tenant memory on a connection, or a DMA write on a record ring (R48, R53, R66). -/
def Dev.sendData (d : Dev) (key : Nat) (rkey : BitVec 32) (addr : BitVec 64) (bytes : List Byte) (poison : Bool) (read : Option Nat) : Dev :=
  if bytes = [] then d
  else if isRing key then d.emit (.hostWrite addr bytes poison)
  else if (d.connLive key).isSome then d.sendMessage key (d.packets key bytes.length) (.rdmaWrite key rkey addr bytes) [] read
  else d

/-- A capsule leaves: by SEND on a connection, through the capsule area and a completion on a ring (R42, R59, R65,
R382). Nothing is sent on a connection that is gone or in error. -/
def Dev.sendCap (d : Dev) (key : Nat) (bytes : List Byte) (ready : Bool) : Dev :=
  if isRing key then
    d.postCpl (key - 16384) { kind := if ready then 2 else 1, tag := capTag bytes, status := if ready then 0 else leAt bytes 1 1,
                              count := 0, info := 0, cap := bytes, item := [] }
  else if (d.connLive key).isSome then d.sendMessage key 1 (.send key bytes) bytes none else d

/-- The budget of the tick has room for a response, or for a READY capsule (R15). -/
def Dev.capRoom (d : Dev) (ready : Bool) : Bool := decide ((if ready then d.rte.grantsSent else d.rte.respsSent) < respMax)

/-- Send a response or READY capsule, and count it in the tick's budget. -/
def Dev.sendCounted (d : Dev) (key : Nat) (bytes : List Byte) (ready : Bool) : Dev :=
  let d := d.sendCap key bytes ready
  { d with rte := { d.rte with
      grantsSent := d.rte.grantsSent + b2n ready
      respsSent := d.rte.respsSent + b2n (! ready) } }

/-- A capsule joins those that wait, in the order in which they fall due (R63). -/
def Dev.queueCap (d : Dev) (q : DueCap) : Dev :=
  { d with rte := { d.rte with dueq := d.rte.dueq.filter (·.vis ≤ q.vis) ++ q :: d.rte.dueq.filter (q.vis < ·.vis) } }

/-- A response or READY capsule falls due (R63): it goes out within the budget of the tick, and otherwise, or behind one that fell
due before it, in the next tick. -/
def Dev.capDue (d : Dev) (key : Nat) (bytes : List Byte) (ready : Bool) : Dev :=
  if d.capRoom ready ∧ (d.rte.dueq.any fun q => q.ready == ready && decide (q.vis ≤ d.clk)) = false then d.sendCounted key bytes ready
  else d.queueCap { src := key, bytes := bytes, ready := ready, vis := d.clk }

/-- Answer a command with its final response. -/
def Dev.respond (d : Dev) (key : Nat) (bytes : List Byte) : Dev := d.capDue key bytes false

/-- A capsule has failed a check (R488): it is answered in the tick after its arrival. -/
def Dev.refuse (d : Dev) (key : Nat) (bytes : List Byte) : Dev :=
  d.queueCap { src := key, bytes := bytes, ready := false, vis := d.nextVis }

/-- End a command with its response (R59): its tag is free. -/
def Dev.answer (d : Dev) (id : Nat) (status flags a b c : Nat) : Dev :=
  match tget d.rte.cmds id with
  | none => d
  | some k =>
    if k.answered then d
    else
      let ses := if k.op = opOpen ∧ status = stOk then a else k.session
      (d.modCmd id fun k => { k with answered := true }).respond k.src (responseBytes status k.tag ses flags a b c)

/-- One waiting capsule: it goes out if it is due and the budget has room, and waits on otherwise. -/
def Dev.drainOne (d : Dev) (q : DueCap) : Dev :=
  if q.vis ≤ d.clk ∧ d.capRoom q.ready then d.sendCounted q.src q.bytes q.ready
  else { d with rte := { d.rte with dueq := d.rte.dueq ++ [q] } }

/-- Capsules that waited for the budget of the tick, or for their tick, go out in order (R63, R488). -/
def Dev.drainDue (d : Dev) : Dev := d.rte.dueq.foldl Dev.drainOne { d with rte := { d.rte with dueq := [] } }

/-! ### Records of a write command -/

/-- The stream offset at which record `i` starts. -/
def WrPart.start (w : WrPart) (i : Nat) : Nat := (w.lens.take i).foldl (· + ·) 0
/-- The stream offset at which record `i` ends. -/
def WrPart.stop (w : WrPart) (i : Nat) : Nat := w.start (i + 1)
/-- Record `i` is a file mark. -/
def WrPart.isMark (w : WrPart) (i : Nat) : Bool := bitOf w.marks i
/-- The stream offset up to which windows have closed without a gap. -/
def WrPart.closedTo (w : WrPart) : Nat :=
  w.wins.foldl (fun e x => if x.off = e ∧ x.closed then e + x.len else e) w.freed

/-- The same of windows whose closure others see at boundary `clk` (R11): what the chunker may take. -/
def WrPart.shownTo (w : WrPart) (clk : Nat) : Nat :=
  w.wins.foldl (fun e x => if x.off = e ∧ x.closed ∧ x.vis ≤ clk then e + x.len else e) w.freed

/-- The leading records that lie whole below stream offset `e`. -/
def WrPart.wholeBelow (w : WrPart) (e : Nat) : Nat := ((List.range w.lens.length).takeWhile fun i => decide (w.stop i ≤ e)).length

/-- The records accepted of a command that fails now (R44, R86): before its admission none; once data has been received, or the
command has none, those received whole; and every record that already lies in a chunk. -/
def WrPart.keptNow (w : WrPart) (admitted : Bool) : Nat :=
  max w.recNo (if admitted ∧ (w.total = 0 ∨ 0 < w.closedTo) then w.wholeBelow w.closedTo else 0)

/-- Record `i` is accepted (R44). -/
def WrPart.accepts (w : WrPart) (i : Nat) : Bool := w.limit.isNone || decide (i < w.kept)

/-- Records of the command that a dropped chunk held (R124, R127). -/
def Dev.lostRecords (d : Dev) (id : Nat) : List Nat :=
  d.ses.chunks.flatMap fun c => if c.2.st = .dropped ∨ c.2.st = .lost then (c.2.pieces.filter (·.cmd == id)).map (·.ord) else []

/-- The records that the response counts (R60): received whole and not lost in a dropped chunk. -/
def Dev.acceptedRecords (d : Dev) (id : Nat) (k : Cmd) : List Nat :=
  let lost := d.lostRecords id
  (List.range k.wr.lens.length).filter fun i => k.wr.accepts i && ! lost.contains (k.wr.ord + i)

/-- RESULT_A, RESULT_B and RESULT_C of a write command (R60). -/
def Dev.writeResults (d : Dev) (id : Nat) (k : Cmd) : Nat × Nat × Nat :=
  let acc := d.acceptedRecords id k
  (k.wr.ord, if k.op = opWrite then (acc.map fun i => k.wr.lens.getD i 0).foldl (· + ·) 0 else 0, acc.length)

/-! ### Windows -/

/-- Windows of a command that are outstanding as others see them at boundary `clk` (R11): asked for, or open. -/
def WrPart.outstanding (w : WrPart) (clk : Nat) : Nat :=
  w.asked.length + (w.wins.filter fun x => ! x.closed || decide (clk < x.vis)).length

/-- Every grant that is outstanding or drains. -/
def Dev.grantsLive (d : Dev) : List (Nat × Window) :=
  (d.rte.cmds.flatMap fun c => c.2.wr.wins.map fun w => (c.2.src, w)) ++ d.rte.draining

/-- The grants that the partner's control records name (R42, R424). -/
def Dev.partnerGrants (d : Dev) : List (BitVec 32) :=
  (d.pair.partner.control ++ d.pair.partner.store.map (·.1)).flatMap fun r => match r with
    | .cmd _ k => k.wr.wins.map (·.gid)
    | _ => []

/-- A grant identifier that no outstanding grant uses, nor one of the partner's that its control records name (R42), starting from
a free value. -/
def Dev.newGrant (d : Dev) : BitVec 32 :=
  let used := (d.grantsLive.map fun w => w.2.gid) ++ d.partnerGrants
  let c := BitVec.setWidth 32 d.fresh
  ((List.range (used.length + 1)).map fun i => c + BitVec.ofNat 32 i).find? (fun g => ! used.contains g) |>.getD c

/-- A remote key and an address that name no byte of another window (R42), from free values. -/
def Dev.newWindow (d : Dev) (len : Nat) : BitVec 32 × BitVec 64 :=
  let rk := BitVec.setWidth 32 (Config.freeValue (d.free + 1))
  let v := (Config.freeValue (d.free + 2)).toNat
  let live := d.grantsLive.filter fun w => w.2.rkey == rk
  let free (a : Nat) : Bool := decide (a + len ≤ 2 ^ 64) && live.all fun w => decide (a + len ≤ w.2.va.toNat ∨ w.2.va.toNat + w.2.len ≤ a)
  let a := ((List.range (2 * live.length + 2)).map fun i => (v + 65536 * i) % (2 ^ 64 - 65536)).find? free
  (rk, BitVec.ofNat 64 (a.getD (v % (2 ^ 64 - 65536))))

/-- Withdraw the open windows of a command into their drain (R80), or free them at once. -/
def Dev.withdrawOpen (d : Dev) (id : Nat) (drain : Bool) : Dev :=
  match tget d.rte.cmds id with
  | none => d
  | some k =>
    let opened := k.wr.wins.filter fun w => ! w.closed
    let d := d.modCmd id fun k => { k with wr := { k.wr with wins := k.wr.wins.filter (·.closed), asked := [], stepOff := k.wr.total } }
    if drain then
      { d with rte := { d.rte with draining := d.rte.draining ++ opened.map fun w => (k.src, { w with withdrawn := some d.clk }) } }
    else d.releaseAll (opened.map (·.handle)) 1

/-- Free the closed windows of a command that hold no byte below stream offset `x` to be taken, and those fully taken. -/
def Dev.freeWindows (d : Dev) (id x keepTo : Nat) : Dev :=
  match tget d.rte.cmds id with
  | none => d
  | some k =>
    let gone := k.wr.wins.filter fun w => w.closed && (decide (w.off + w.len ≤ x) || decide (keepTo ≤ w.off))
    let d := d.modCmd id fun k =>
      { k with wr := { k.wr with
          wins := k.wr.wins.filter fun w => ! (w.closed && (decide (w.off + w.len ≤ x) || decide (keepTo ≤ w.off)))
          freed := ((gone.filter fun w => decide (w.off + w.len ≤ x)).map fun w => w.off + w.len).foldl max k.wr.freed } }
    d.releaseAll (gone.map (·.handle)) 1

/-- The end of the last record that lies below offset `e`. -/
def WrPart.lastWhole (w : WrPart) (e : Nat) : Nat :=
  ((List.range w.lens.length).map w.stop).foldl (fun m x => if x ≤ e then max m x else m) 0

/-! ### Chunks of a session -/

/-- The state of a chunk is settled: on tape, or never to be. -/
def ChunkSt.final : ChunkSt → Bool
  | .onTape => true | .lost => true | .dropped => true
  | .filling => false | .closed => false | .queued => false | .running => false | .cipher => false | .ready => false
  | .sealed => false | .placed => false

/-- A chunk's seal is decided: it is sealed, or never will be. -/
def ChunkSt.decided : ChunkSt → Bool
  | .sealed => true | .placed => true | .onTape => true | .lost => true | .dropped => true
  | .filling => false | .closed => false | .queued => false | .running => false | .cipher => false | .ready => false

/-- The chunks of a session, in the order in which they opened. -/
def Dev.sesChunks (d : Dev) (n : Nat) : List (Nat × Chunk) := d.ses.chunks.filter fun c => c.2.session == n

/-- The chunk that holds the last piece of a record that was cut carries TORN, unless it has been sealed (R94). -/
def Dev.markTorn (d : Dev) (n ord : Nat) : Dev :=
  match (d.sesChunks n).reverse.find? fun c => c.2.pieces.any (·.ord == ord) with
  | some (id, c) => if c.st.decided then d else d.modChunk id fun c => { c with torn := true }
  | none => d

/-! ### A write command that fails (R44, R86) -/

/-- Buffers that POOL has committed for a command's grants and no READY capsule has used are released. -/
def Dev.dropGrants (d : Dev) (id : Nat) : Dev :=
  let mine := d.pool.done.filter (·.1 == .grant id)
  ({ d with pool := { d.pool with done := d.pool.done.filter (·.1 != .grant id) } } : Dev).releaseAll (mine.map (·.2)) 1

/-- A write command fails or is aborted (R44, R86): records wholly received stay, its open windows are withdrawn, and
records not begun become void when `void` says so, or absent. A record that is cut has its chunk marked TORN (R94). Its session's
open chunk closes if any of its data has reached the chunker (R95). -/
def Dev.failWrite (d : Dev) (id status : Nat) (void drain : Bool) : Dev :=
  match tget d.rte.cmds id with
  | none => d
  | some k =>
    if k.wr.limit.isSome then d
    else
      let lim := if k.adm.isNone then 0 else k.wr.closedTo
      let kept := k.wr.keptNow k.adm.isSome
      let d := (d.withdrawOpen id drain).dropGrants id
      let d := d.modCmd id fun k => { k with
        fail := some status
        wr := { k.wr with limit := some lim, kept := kept, voided := void, ended := k.wr.ended || (! void && decide (kept ≤ k.wr.recNo)) } }
      let d := d.freeWindows id k.wr.freed (k.wr.lastWhole lim)
      let d := if 0 < k.wr.recOff ∧ kept ≤ k.wr.recNo then d.markTorn k.session (k.wr.ord + k.wr.recNo) else d
      if 0 < k.wr.recNo ∨ 0 < k.wr.recOff then
        match (tget d.ses.sessions k.session).bind (·.open_) with
        | some c => d.modChunk c fun c => { c with dueAt := some (c.dueAt.getD d.clk) }
        | none => d
      else d

/-! ### Position entries (R48 to R51) -/

/-- The write commands of a session, oldest first. -/
def Dev.sesWrites (d : Dev) (n : Nat) : List (Nat × Cmd) :=
  d.rte.cmds.filter fun c => c.2.session == n && (c.2.op == opWrite || c.2.op == opMark)

/-- The ordinal below which every record has been placed in a chunk, or never will be. -/
def Dev.takenBelow (d : Dev) (n : Nat) : Nat :=
  (((d.sesWrites n).filter fun c => ! c.2.wr.ended).map fun c => c.2.wr.ord + c.2.wr.recNo).foldl min
    (((tget d.ses.sessions n).map (·.next)).getD 0)

/-- The ordinal below which every record lies in chunks that `p` accepts. -/
def Dev.ordBelow (d : Dev) (n : Nat) (p : ChunkSt → Bool) : Nat :=
  ((d.sesChunks n).filterMap fun c => if p c.2.st then none else (c.2.pieces.head?).map (·.ord)).foldl min (d.takenBelow n)

/-- The ordinal below which every record is settled (R60). -/
def Dev.settledBelow (d : Dev) (n : Nat) : Nat := d.ordBelow n ChunkSt.final
/-- The ordinal below which every record is on tape (R60, QUERY SESSION). -/
def Dev.onTapeBelow (d : Dev) (n : Nat) : Nat := d.ordBelow n (· == .onTape)

/-- Where each record of a session whose ordinal lies in a range starts: ordinal, volume, data set, LOST. A record is
lost when any of its pieces lies in a chunk that never reached tape. The volume and data set of a record whose chunk never had a
data set are free values: R51 states none (DESIGN CHOICE, notes/assumptions/162.md). -/
def Dev.recordPlaces (d : Dev) (n lo hi : Nat) : List PosEntry :=
  let cs := d.sesChunks n
  let lost := cs.flatMap fun c => if c.2.st = .dropped ∨ c.2.st = .lost then c.2.pieces.map (·.ord) else []
  cs.flatMap fun (cid, c) =>
    (c.pieces.filter fun p => p.first && decide (lo ≤ p.ord) && decide (p.ord < hi)).map fun p =>
      { vol := if c.known then c.vol else Config.freeValue (d.free + 2 * cid)
        ds := if c.known then c.ds else (Config.freeValue (d.free + 2 * cid + 1)).toNat % 2 ^ 48
        lost := lost.contains p.ord, first := p.ord, count := 1 }

/-- Runs of consecutive ordinals in one data set (R48). -/
def groupPlaces : List PosEntry → List PosEntry
  | [] => []
  | e :: es =>
    match groupPlaces es with
    | [] => [e]
    | f :: fs =>
      if e.vol = f.vol ∧ e.ds = f.ds ∧ e.lost = f.lost ∧ e.first + e.count = f.first then { e with count := e.count + f.count } :: fs
      else e :: f :: fs

/-- Write position entries to a command's POS_ADDR, by RDMA WRITE or by DMA (R48, R66). -/
def Dev.writeEntries (d : Dev) (key : Nat) (cap : List Byte) (es : List PosEntry) : Dev :=
  d.sendData key (BitVec.ofNat 32 (leAt cap 16 4)) (BitVec.ofNat 64 (leAt cap 8 8)) (es.flatMap posEntryBytes) false none

/-- Post position entries as SESSION_POSITION events, in ordinal order (R50, R397). -/
def Dev.postPositions (d : Dev) (n : Nat) (es : List PosEntry) : Dev :=
  es.foldl (fun d e => d.postEvent 0x17 blkRte 0
    [item (n % 2 ^ 24), BitVec.ofNat 64 e.vol.toNat, item (e.ds + 2 ^ 48 * b2n e.lost), item e.first, item e.count]) d

/-! ### Closing sessions -/

/-- A session closes without a CLOSE-SESSION (R34, R50, R124): its held entries are posted, and it takes no further
capsule; what it has received still goes to tape. -/
def Dev.dropSession (d : Dev) (n : Nat) : Dev :=
  match tget d.ses.sessions n with
  | none => d
  | some s =>
    if s.dead then d
    else
      let d := d.postPositions n s.held
      let d := d.modSes n fun s => { s with dead := true, held := [] }
      match s.open_ with
      | some c => d.modChunk c fun c => { c with dueAt := some (c.dueAt.getD d.clk) }
      | none => d

/-- A command outstanding on an aborted connection ends without a response (R86: the function reset column). -/
def Dev.orphan (d : Dev) (id : Nat) : Dev :=
  let d := d.failWrite id stAborted false false
  d.modCmd id fun k => { k with answered := true }

/-- Every command of a source ends without a response. -/
def Dev.orphanAll (d : Dev) (key : Nat) : Dev := ((d.cmdsOf key).map (·.1)).foldl Dev.orphan d

/-- Every session of a source closes (R34). -/
def Dev.dropSessionsOf (d : Dev) (key : Nat) : Dev :=
  ((d.ses.sessions.filter fun s => s.2.src == key).map (·.1)).foldl Dev.dropSession d

/-- The windows that drain for a source are freed. -/
def Dev.freeDraining (d : Dev) (key : Nat) : Dev :=
  let gone : List (Nat × Window) := d.rte.draining.filter fun w => w.1 == key
  let d : Dev := { d with rte := { d.rte with draining := d.rte.draining.filter fun w => w.1 != key } }
  d.releaseAll (gone.map fun w => w.2.handle) 1

/-- The queue pair of a connection enters the error state (R34): its sessions close, its commands end as for an
aborted connection, and CONN_ERROR is posted (R397: 1 NAK sent, 2 NAK received, 3 retries exhausted). -/
def Dev.qpError (d : Dev) (c cause : Nat) : Dev :=
  match d.connLive c with
  | none => d
  | some k =>
    let d := (d.modConn c fun k => { k with err := true, unacked := [] })
    let d := ((d.orphanAll c).dropSessionsOf c).freeDraining c
    let d := { d with rte := { d.rte with dueq := d.rte.dueq.filter (·.src != c) } }
    d.postEvent 0x11 blkRte 0 [item c, item k.tenant, item cause]

/-- A NAK Invalid Request, and the queue pair's error (R26). -/
def Dev.nakInvalid (d : Dev) (c : Nat) : Dev := (d.emitOn c (.nakInvalid c)).qpError c 1

/-- A NAK Remote Access Error, and the queue pair's error (R43). -/
def Dev.nakAccess (d : Dev) (c : Nat) : Dev := (d.emitOn c (.nakAccess c)).qpError c 1

/-! ### Session numbers and the context cache -/

/-- Sessions open at most (R38). -/
def sesMax : Nat := 262144

/-- The number after `n` (R33). -/
def nextSesNum (n : Nat) : Nat := if n = 0xFFFFFF then 1 else n + 1

/-- The next unused session number, in increasing order with wrap (R33). -/
def Dev.newSesNum (d : Dev) : Nat :=
  ((List.range (d.ses.sessions.length + 1)).map fun i => (d.ses.lastNum + i) % 0xFFFFFF + 1).find? (fun n =>
      (tget d.ses.sessions n).isNone && (tget d.ses.sessions (n + 2 ^ 24)).isNone)
    |>.getD (nextSesNum d.ses.lastNum)

/-- Contexts held on chip (R22). -/
def cacheMax : Nat := 8192

/-- The session's context becomes the one most recently used. -/
def Dev.cacheUse (d : Dev) (n : Nat) : Dev :=
  { d with ses := { d.ses with cache := (n :: d.ses.cache.filter (· != n)).take cacheMax } }

/-- The address of a session's context (R331). -/
def ctxAddr (slot : Nat) : Nat := 256 * slot

/-- A poisoned context that no partner can supply (R341): the session closes, its commands receive INTERNAL, and
SESSION_POISON is written. -/
def Dev.contextPoisoned (d : Dev) (n : Nat) (s : Session) : Dev :=
  let ids := (d.rte.cmds.filter fun c => c.2.session == n && ! c.2.answered).map (·.1)
  let d := ids.foldl (fun d id => (d.failWrite id stInternal false false).answer id stInternal 0 0 0 0) d
  (d.dropSession n).cellar blkSes 0 0xCB (itemsPayload [item (n % 2 ^ 24), item s.tenant, item (ctxAddr s.slot), item ids.length])

/-- SES consumes the context of a session (R341): from the cache, or from its slot in HBM. In a pair that holds a
copy the partner supplies a poisoned one. -/
def useContext (hd : Hbm × Dev) (n : Nat) : Hbm × Dev :=
  let (h, d) := hd
  match tget d.ses.sessions n with
  | none => hd
  | some s =>
    if d.ses.cache.contains n then (h, d.cacheUse n)
    else
      let (d, bs, p) := d.memBytes h (ctxAddr s.slot) 256 blkSes
      if ! p then (h, d.cacheUse n)
      else if d.fld Fld.fabPairStatState = 2 then memWrite (h, d.cacheUse n) (ctxAddr s.slot) bs false
      else (h, d.contextPoisoned n s)

/-- SES writes the context of a session through to HBM (R23). Its layout is device-internal: the bytes are free
values. -/
def writeContext (hd : Hbm × Dev) (n : Nat) (s : Session) : Hbm × Dev :=
  let (h, d) := hd
  let bs := (List.range 32).flatMap fun i => leBytes 8 (Config.freeValue (d.free + i)).toNat
  memWrite (h, { d.spend 32 with ses := { d.ses with stored := tput d.ses.stored n s } }) (ctxAddr s.slot) bs false

/-- Every context that the tick has changed is written through, so that at the boundary HBM holds the committed state (R23). -/
def contextTick (hd : Hbm × Dev) : Hbm × Dev :=
  (hd.2.ses.sessions.filter fun x => ! x.2.dead && tget hd.2.ses.stored x.1 != some x.2).foldl (fun hd x => writeContext hd x.1 x.2) hd

/-! ### Mirroring (R47, R417) -/

/-- In a pair that mirrors, the partner holds everything sent in the batch of tick `t` (R417). -/
def Dev.mirrored (d : Dev) (t : TickCount) : Bool :=
  if d.holdsAcks then
    match d.pair.acked with
    | some a => decide (t.toNat ≤ a.toNat)
    | none => false
  else true

/-! ### Cleaning up -/

/-- Commands that are answered and have nothing left to place, sessions that are closed and have nothing in flight,
and chunks of sessions that are gone, leave the tables. -/
def Dev.purge (d : Dev) : Dev :=
  let cmds := d.rte.cmds.filter fun c => ! c.2.answered || ((c.2.op == opWrite || c.2.op == opMark) && ! c.2.wr.ended)
  let busy (n : Nat) : Bool := cmds.any fun c => c.2.session == n
  let sess := d.ses.sessions.filter fun s => ! s.2.dead || s.2.report || busy s.1 || s.2.open_.isSome
  let live (n : Nat) : Bool := (tget sess n).isSome
  let gone := (d.ses.sessions.filter fun s => ! live s.1).map (·.2)
  let d := (d.releaseAll (gone.filterMap (·.buf)) 2).releaseAll (gone.filterMap (·.storedBuf)) 4
  { d with
    rte := { d.rte with cmds := cmds }
    sch := { d.sch with won := d.sch.won.filter fun w => cmds.any fun c => c.1 == w.cmd && ! c.2.answered }
    ses := { d.ses with
      sessions := sess
      stored := d.ses.stored.filter fun s => live s.1
      chunks := d.ses.chunks.filter fun c => ! c.2.st.final || live c.2.session } }

end Sys2Proof.Machine
end

