-- ==== Sys2Proof/Machine/Capsules.lean ====
section
/-! DEFINITION. The commands of record transport (R26 to R68, R80, R488): capsules as they arrive, RDMA WRITE, grants,
congestion, responses and metering. -/

namespace Sys2Proof.Machine

/-! ### Parsing a capsule (R488) -/

/-- Check 5 of R488: the status, if it fails. The rule names no list of write commands: SYNC, which covers records that a session
writes, counts as one (DESIGN CHOICE, notes/assumptions/163.md). -/
def Dev.sessionCheck (d : Dev) (key op : Nat) (c : List Byte) : Option Nat :=
  let n := sesNo key (capSession c)
  if op = opOpen then (if n = 0 then none else some stFieldInvalid)
  else if op = opAbort then none
  else if n = 0 ∧ (op = opHint ∨ (op = opQuery ∧ leAt c 8 1 = 1)) then none
  else
    match d.sesOf key n with
    | none => some stSessionUnknown
    | some s =>
      if d.closing n then some stSessionUnknown
      else if s.read ∧ (op = opWrite ∨ op = opMark ∨ op = opSync) then some stSessionMode
      else if ! s.read ∧ op = opRead then some stSessionMode
      else none

/-- Check 6 of R488: the fields are consistent. -/
def Dev.fieldsOk (d : Dev) (key op : Nat) (c : List Byte) : Bool :=
  let s := tget d.ses.sessions (sesNo key (capSession c))
  let fits := match s with
    | some s => decide (s.next + ordinalsOf op c ≤ 2 ^ 40)
    | none => true
  let readSes := match s with
    | some s => s.read
    | none => false
  if op = opOpen then openFieldsOk c
  else if op = opClose then ! readSes || (leAt c 8 8 == 0 && leAt c 16 6 == 0)
  else if op = opWrite then writeFieldsOk c && fits
  else if op = opMark then leAt c 8 2 != 0 && fits
  else if op = opRead then leAt c 22 2 != 0
  else if op = opQuery then leAt c 8 1 ≤ 1
  else true

/-- Checks 3 to 6 of R488 for a capsule of opcode `op`: the status of the first that fails. -/
def Dev.parseCheck (d : Dev) (key op : Nat) (c : List Byte) : Option Nat :=
  if ! capsuleOpcodes.contains op ∨ (op = opPush ∧ ! isRing key) then some stOpcodeInvalid
  else if ! reservedClear op c then some stFieldInvalid
  else
    match d.sessionCheck key op c with
    | some st => some st
    | none => if d.fieldsOk key op c then none else some stFieldInvalid

/-- The class of a command (R37): its session's, or U where it names none. -/
def Dev.classOf (d : Dev) (n : Nat) : Nat := ((tget d.ses.sessions n).map (·.cls)).getD 0

/-- The marks of a write command: MARK_MAP, or every ordinal of a WRITE-MARK. -/
def markBits (op : Nat) (c : List Byte) : Nat := if op = opWrite then leAt c 10 2 else if op = opMark then 2 ^ leAt c 8 2 - 1 else 0

/-- Take a capsule that passed its checks (R33, R36): it holds its tag, and a write command takes its ordinals. An ABORT belongs to
no session (R62). -/
def Dev.accept (d : Dev) (key tenant op : Nat) (c : List Byte) : Dev :=
  let n := if op = opAbort then 0 else sesNo key (capSession c)
  let nx := ((tget d.ses.sessions n).map (·.next)).getD 0
  let lens := if op = opWrite then capLengths c else if op = opMark then List.replicate (leAt c 8 2) 0 else []
  let k : Cmd :=
    { src := key, tag := capTag c, op := op, session := n, tenant := tenant, cls := d.classOf n, cap := c, arr := d.nextVis
      wr := { ord := nx, lens := lens, marks := markBits op c, total := lens.foldl (· + ·) 0 }
      bound := if op = opSync then nx else 0 }
  let d := d.modSes n fun s => { s with next := s.next + ordinalsOf op c }
  { d with rte := { d.rte with cmds := tput d.rte.cmds d.rte.nextCmd k, nextCmd := d.rte.nextCmd + 1 } }

/-- The capsule is one of the row's: its opcode is `op`, or for 0xFF one that R37 does not list or PUSH-DATA on RoCE. -/
def capNamed (key op : Nat) (c : List Byte) : Bool :=
  c == [] || (if op = 0xFF then ! capsuleOpcodes.contains (capOpcode c) || (capOpcode c == opPush && ! isRing key) else capOpcode c == op)

/-- A capsule arrives (R27, R488): on a connection it needs a free slot and a length of 4 to 64 bytes; a capsule that
fails a check is answered in the next tick; one that passes is acted on by `act`. Its checks are made on the state at its arrival
(notes/assumptions/13.md), and the RESULT fields of an answer to one that fails are 0, since R60 lists none for it. -/
def takeCapsule (hd : Hbm × Dev) (src : Src) (c : List Byte) (op : Nat) (act : Dev → Nat → Nat → Dev) : Hbm × Dev :=
  let key := srcKey src
  let d := hd.2
  match d.srcTenant key with
  | none => hd
  | some tenant =>
    if ! capNamed key op c ∨ isRing key ∧ ! d.ringMay (key - 16384) then hd
    else
    let d := if isRing key then d.ringNext (key - 16384) else d
    let hd := (hd.1, d)
    if ! isRing key ∧ 64 < c.length then (hd.1, d.nakInvalid key)
    else if ! isRing key ∧ d.maxCmds ≤ d.slotsUsed key then (hd.1, d.emitOn key (.rnrNak key (d.fld Fld.rteConnCfgRnrTimer)))
    else
    let d := if isRing key then d else d.recvPackets key 1
    let hd := (hd.1, d)
    if c.length < 4 then (hd.1, d.bump Fld.rteBadCapsuleCntCount)
    else if c.length < 64 then (hd.1, d.refuse key (responseBytes stFieldInvalid (capTag c) 0 0 0 0 0))
    else if d.tagInUse key (capTag c) ∧ op ≠ opPush then
      (hd.1, d.refuse key (responseBytes stTagInUse (capTag c) (capSession c) 0 0 0 0))
    else
      let n := sesNo key (capSession c)
      let hd := if (d.sesOf key n).isSome then useContext hd n else hd
      match hd.2.parseCheck key op c with
      | some st => (hd.1, hd.2.refuse key (responseBytes st (capTag c) (capSession c) 0 0 0 0))
      | none => (hd.1, act hd.2 key tenant)

/-- The effect of a capsule that is queued for admission. -/
def queueCapsule (hd : Hbm × Dev) (src : Src) (c : List Byte) (op : Nat) : Hbm × Dev :=
  takeCapsule hd src c op fun d key tenant => d.accept key tenant op c

/-- OPEN_SESSION: an OPEN-SESSION capsule arrives and waits for admission (R38). -/
def execOpenSession (src : Src) (cap : List Byte) (s : State) : Host.Outcome State Fault Refusal :=
  nextHd s fun hd => queueCapsule hd src cap opOpen

/-- CLOSE_SESSION: later capsules for the session receive SESSION_UNKNOWN (R39). -/
def execCloseSession (src : Src) (cap : List Byte) (s : State) : Host.Outcome State Fault Refusal :=
  nextHd s fun hd => queueCapsule hd src cap opClose

/-- WRITE_RECORDS: the capsule takes its ordinals and waits for admission (R33, R40). -/
def execWriteRecords (src : Src) (cap : List Byte) (s : State) : Host.Outcome State Fault Refusal :=
  nextHd s fun hd => queueCapsule hd src cap opWrite

/-- WRITE_MARK: as WRITE_RECORDS, with MARK_COUNT file marks (R37). -/
def execWriteMark (src : Src) (cap : List Byte) (s : State) : Host.Outcome State Fault Refusal :=
  nextHd s fun hd => queueCapsule hd src cap opMark

/-- SYNC: it covers every record whose capsule arrived before it (R48). -/
def execSync (src : Src) (cap : List Byte) (s : State) : Host.Outcome State Fault Refusal :=
  nextHd s fun hd => queueCapsule hd src cap opSync

/-- READ_RECORDS: it waits for admission (R52, R54). -/
def execReadRecords (src : Src) (cap : List Byte) (s : State) : Host.Outcome State Fault Refusal :=
  nextHd s fun hd => queueCapsule hd src cap opRead

/-- LOCATE_HINT: it waits for admission (R58). -/
def execLocateHint (src : Src) (cap : List Byte) (s : State) : Host.Outcome State Fault Refusal :=
  nextHd s fun hd => queueCapsule hd src cap opHint

/-- QUERY_SESSION: a QUERY of KIND SESSION waits for admission (R60). -/
def execQuerySession (src : Src) (cap : List Byte) (s : State) : Host.Outcome State Fault Refusal :=
  nextHd s fun hd => queueCapsule hd src cap opQuery

/-- QUERY_SLOTS: a QUERY of KIND SLOTS waits for admission (R60). -/
def execQuerySlots (src : Src) (cap : List Byte) (s : State) : Host.Outcome State Fault Refusal :=
  nextHd s fun hd => queueCapsule hd src cap opQuery

/-! ### ABORT (R62, R70, R86) -/

/-- The records and bytes that a READ-RECORDS has delivered, as RESULT fields (R60). -/
def readResults (r : RdPart) : Nat × Nat × Nat := (r.first, r.bytes % 2 ^ 32 + 2 ^ 32 * r.recs, r.next)

/-- A transport stops reading for a command. -/
def Dev.endRead (d : Dev) (id : Nat) : Dev :=
  let d : Dev := { d with rd := d.rd.map fun r => if r.goal = .records id then { r with goal := .none, locating := false } else r }
  { d with dru := { d.dru with rd := d.dru.rd.filter fun c => c.2.cmd != id } }

/-- The delivery charge of a READ-RECORDS (R69): added to its tenant's virtual time when the response is committed. -/
def Dev.chargeRead (d : Dev) (tenant cls bytes : Nat) : Dev :=
  let k := 8 * tenant + cls
  { d with sch := { d.sch with vt := tput d.sch.vt k ((tgetD d.sch.vt k 0 + bytes * 256 / max 1 (d.tenantAt tenant).weight) % 2 ^ 64) } }

/-- The target of an ABORT ends with status ABORTED (R86); the bytes that a READ-RECORDS has delivered are charged (R69). -/
def Dev.abortCmd (d : Dev) (id : Nat) (k : Cmd) : Dev :=
  if k.op = opWrite ∨ k.op = opMark then
    let d := d.failWrite id stAborted true true
    let (a, b, c) := d.writeResults id ((tget d.rte.cmds id).getD k)
    d.answer id stAborted 0 a b c
  else if k.op = opRead then
    let (a, b, c) := if k.rd.begun then readResults k.rd else (0, 0, 0)
    ((d.endRead id).answer id stAborted (if k.rd.torn then flTornSeen else 0) a b c).chargeRead k.tenant k.cls k.rd.bytes
  else d.answer id stAborted 0 0 0 0

/-- The command that an ABORT names. -/
def Cmd.target (k : Cmd) : BitVec 16 := BitVec.ofNat 16 (leAt k.cap 8 2)

/-- The response to an ABORT (R60, R62): RESULT_A is TARGET_TAG, and the session is the target's, or 0. -/
def Dev.abortReply (d : Dev) (id : Nat) (k : Cmd) (status session : Nat) : Dev :=
  (d.modCmd id fun k => { k with answered := true }).respond k.src (responseBytes status k.tag session 0 k.target.toNat 0 0)

/-- ABORT `id` acts (R62, R70): one that names an ABORT receives FIELD_INVALID, one that names no outstanding command
TAG_UNKNOWN. -/
def Dev.abort (d : Dev) (id : Nat) (k : Cmd) : Dev :=
  match d.cmdByTag k.src k.target with
  | none => d.abortReply id k stTagUnknown 0
  | some (t, x) =>
    if x.op = opAbort then d.abortReply id k stFieldInvalid 0
    else (d.abortCmd t x).abortReply id k stOk x.session

/-- The ABORTs taken at the boundary that started the tick act (R70). What other commands complete in the tick, or completed at that
boundary, stands (R62, R88). -/
def Dev.abortTick (d : Dev) : Dev :=
  (d.rte.cmds.filter fun c => c.2.op == opAbort && ! c.2.answered && decide (c.2.arr ≤ d.clk)).foldl (fun d c => d.abort c.1 c.2) d

/-- ABORT (R62, R70): it is taken without arbitration at the next boundary, and acts in the tick that begins there. -/
def execAbort (src : Src) (cap : List Byte) (s : State) : Host.Outcome State Fault Refusal :=
  nextHd s fun hd => queueCapsule hd src cap opAbort

/-! ### Windows (R43, R66) -/

/-- Insert an interval into disjoint rising intervals, joining those it touches. -/
def ivAdd : List (Nat × Nat) → Nat → Nat → List (Nat × Nat)
  | [], a, b => [(a, b)]
  | (x, y) :: t, a, b =>
    if b < x then (a, b) :: (x, y) :: t
    else if y < a then (x, y) :: ivAdd t a b
    else ivAdd t (min a x) (max b y)

/-- The command and window that hold the bytes from `va` on. -/
def Dev.windowAt (d : Dev) (key : Nat) (rkey : BitVec 32) (va len : Nat) : Option (Nat × Window) :=
  d.rte.cmds.findSome? fun c =>
    if c.2.src = key then
      (c.2.wr.wins.find? fun w => ! w.closed && w.rkey == rkey && decide (w.va.toNat ≤ va) && decide (va + len ≤ w.va.toNat + w.len)).map fun w => (c.1, w)
    else none

/-- A withdrawn window of the source that drains over these bytes. -/
def Dev.drainAt (d : Dev) (key : Nat) (rkey : BitVec 32) (va len : Nat) : Bool :=
  d.rte.draining.any fun w => w.1 == key && w.2.rkey == rkey && decide (w.2.va.toNat ≤ va) && decide (va + len ≤ w.2.va.toNat + w.2.len)

/-- Change a window of a command by its grant. -/
def Dev.modWindow (d : Dev) (id : Nat) (gid : BitVec 32) (f : Window → Window) : Dev :=
  d.modCmd id fun k => { k with wr := { k.wr with wins := k.wr.wins.map fun w => if w.gid == gid then f w else w } }

/-- A write command fails and is answered with what was accepted (R44); its records not begun have no piece and are absent
(R87, DEDUCED: R86 makes records void for an ABORT alone). -/
def Dev.failAnswer (d : Dev) (id status : Nat) : Dev :=
  let d := d.failWrite id status false true
  match tget d.rte.cmds id with
  | none => d
  | some k =>
    let (a, b, c) := d.writeResults id k
    d.answer id status 0 a b c

/-- The bytes that a window holds. -/
def Window.bytes (w : Window) : Nat := (w.got.map fun x => x.2 - x.1).foldl (· + ·) 0

/-- A window closes (R43, R67): its bytes are counted as received; if they do not cover it, its command fails with
GRANT_SHORT. -/
def Dev.closeWindow (d : Dev) (id : Nat) (w : Window) : Dev :=
  let d := match tget d.rte.cmds id with
    | some k => d.modTenant k.tenant fun t => { t with rx := (t.rx + w.bytes) % 2 ^ 64, changed := true }
    | none => d
  if w.got = [(0, w.len)] then d.modWindow id w.gid fun x => { x with closed := true, got := w.got, vis := d.nextVis }
  else d.failAnswer id stGrantShort

/-- Bytes reach a window (R43): those of an RDMA WRITE, or of a PUSH-DATA read. -/
def fillWindow (hd : Hbm × Dev) (id : Nat) (w : Window) (off : Nat) (data : List Byte) (poison : Bool) : Hbm × Dev :=
  let (h, d) := bufWrite hd w.handle off data poison
  (h, d.modWindow id w.gid fun x => { x with got := if data = [] then x.got else ivAdd x.got off (off + data.length) })

/-- An RDMA WRITE arrives on a connection (R43); `imm` closes its window. -/
def rdmaArrive (hd : Hbm × Dev) (conn : Nat) (rkey : BitVec 32) (va : BitVec 64) (data : List Byte) (imm : Option (BitVec 32)) : Hbm × Dev :=
  let (h, d) := hd
  match d.connLive conn with
  | none => hd
  | some _ =>
    match d.windowAt conn rkey va.toNat data.length with
    | none => if d.drainAt conn rkey va.toNat data.length then (h, d.recvPackets conn (d.packets conn data.length)) else (h, d.nakAccess conn)
    | some (id, w) =>
      let d := d.recvPackets conn (d.packets conn data.length)
      let (h, d) := fillWindow (h, d) id w (va.toNat - w.va.toNat) data false
      match imm with
      | none => (h, d)
      | some g =>
        if g ≠ w.gid then (h, d.failAnswer id stGrantMismatch)
        else
          let w' := ((tget d.rte.cmds id).bind fun k => k.wr.wins.find? (·.gid == w.gid)).getD w
          (h, d.closeWindow id w')

/-- RDMA_WRITE (R43). -/
def execRdmaWrite (conn : Nat) (rkey : BitVec 32) (va : BitVec 64) (data : List Byte) (s : State) : Host.Outcome State Fault Refusal :=
  nextHd s fun hd => rdmaArrive hd conn rkey va data none

/-- RDMA_WRITE_WITH_IMMEDIATE (R43): the immediate names the grant whose window closes. -/
def execRdmaWriteWithImmediate (conn : Nat) (rkey : BitVec 32) (va : BitVec 64) (data : List Byte) (imm : BitVec 32) (s : State) :
    Host.Outcome State Fault Refusal :=
  nextHd s fun hd => rdmaArrive hd conn rkey va data (some imm)

/-- A PUSH-DATA descriptor acts (R66): the device reads the host's bytes into the window of its grant. A grant that
its command does not hold fails the command with GRANT_MISMATCH, a length past the window's end with GRANT_SHORT. One whose CMD_TAG
names no outstanding command of the ring is dropped: R66 says nothing of it (DESIGN CHOICE, notes/assumptions/164.md). -/
def Dev.pushData (d : Dev) (ring : Nat) (c : List Byte) : Dev :=
  let key := 16384 + ring
  let gid := BitVec.ofNat 32 (leAt c 8 4)
  let len := leAt c 24 4
  match d.cmdByTag key (capTag c) with
  | none => d
  | some (id, k) =>
    match k.wr.wins.find? fun w => w.gid == gid && ! w.closed with
    | none => if k.op = opWrite then d.failAnswer id stGrantMismatch else d
    | some w =>
      if w.len < len then d.failAnswer id stGrantShort
      else
        let a := BitVec.ofNat 64 (leAt c 16 8)
        { (d.emit (.hostRead a len)) with rte := { d.rte with pushes := d.rte.pushes ++ [{ ring := ring, gid := gid, addr := a, len := len, tag := capTag c }] } }

/-- PUSH_DATA (R66): it holds no tag of its own and receives no response but for a check that it fails (R488). -/
def execPushData (ring : Nat) (desc : List Byte) (s : State) : Host.Outcome State Fault Refusal :=
  nextHd s fun hd => takeCapsule hd (.ring ring) desc opPush fun d _ _ => d.pushData ring desc

/-- The bytes of a PUSH-DATA read reach their window and close it (R43, R66, R379). -/
def pushArrive (hd : Hbm × Dev) (ring : Nat) (gid : BitVec 32) (data : List Byte) (poisoned : Bool) : Hbm × Dev :=
  let (h, d) := hd
  match d.rte.pushes.find? fun p => p.ring == ring && p.gid == gid with
  | none => hd
  | some p =>
    let d := { d with rte := { d.rte with pushes := d.rte.pushes.erase p } }
    match d.cmdByTag (16384 + ring) p.tag with
    | none => (h, d)
    | some (id, k) =>
      match k.wr.wins.find? fun w => w.gid == gid && ! w.closed with
      | none => (h, d)
      | some w =>
        let (h, d) := fillWindow (h, d) id w 0 (data.take p.len) poisoned
        let w' := ((tget d.rte.cmds id).bind fun k => k.wr.wins.find? (·.gid == gid)).getD w
        (h, d.closeWindow id w')

/-- PUSH_DATA_DMA_COMPLETE (R66, R379). -/
def execPushDataDmaComplete (ring : Nat) (grant : BitVec 32) (data : List Byte) (poisoned : Bool) (s : State) : Host.Outcome State Fault Refusal :=
  nextHd s fun hd => pushArrive hd ring grant data poisoned

/-! ### Operations and marks on a connection -/

/-- The NAK of an operation that is not supported, on a connection that is alive (R26). -/
def Dev.unsupported (d : Dev) (c : Nat) : Dev := if (d.connLive c).isSome then d.nakInvalid c else d

/-- UNSUPPORTED_OPERATION (R26): NAK Invalid Request, and the queue pair enters the error state. -/
def execUnsupportedOperation (conn : Nat) (op : RoceOp) (s : State) : Host.Outcome State Fault Refusal :=
  nextDev s fun d =>
    match op with
    | .rdmaRead => d.unsupported conn
    | .atomic => d.unsupported conn
    | .other _ => d.unsupported conn

/-- CUT with values above 4 acting as 4 (R30). -/
def Dev.ecnCut (d : Dev) : Nat := min 4 (d.fld Fld.rteEcnCfgCut)

/-- CNP_RECEIVE (R28): at most once per tick the rate falls by CUT eighths, not below MIN; with CUT 0 CNPs are
ignored. -/
def execCnpReceive (conn : Nat) (s : State) : Host.Outcome State Fault Refusal :=
  nextDev s fun d =>
    if d.ecnCut = 0 then d
    else
      d.modConn conn fun k =>
        if k.cutAt = some d.clk then { k with quietFrom := d.clk }
        else { k with rate := max (k.rate * ((8 - d.ecnCut : Nat) : Rat) / 8) ((d.fld1 Fld.rteEcnCfgMin : Nat) : Rat), cutAt := some d.clk, quietFrom := d.clk }

/-- RATE_RECOVER (R28): after RECOVER ticks without a CNP the rate closes STEP sixteenths of its gap to line rate. -/
def execRateRecover (conn : Nat) (s : State) : Host.Outcome State Fault Refusal :=
  nextDev s fun d =>
    d.modConn conn fun k =>
      let line := d.lineRate k.port
      if d.ecnCut = 0 then { k with rate := line }
      else if k.quietFrom + d.fld1 Fld.rteEcnCfgRecover ≤ d.clk then
        { k with rate := k.rate + (line - k.rate) * ((d.fld Fld.rteEcnCfgStep : Nat) : Rat) / 16, quietFrom := d.clk }
      else k

/-- CE_MARKED_PACKET (R29): a CNP goes back, at most one per connection in CNP_GAP ticks. -/
def execCeMarkedPacket (conn : Nat) (s : State) : Host.Outcome State Fault Refusal :=
  nextDev s fun d =>
    match d.connLive conn with
    | none => d
    | some k =>
      let ok := match k.cnpSentAt with
        | none => true
        | some t => decide (t + d.fld1 Fld.rteEcnCfgCnpGap ≤ d.clk)
      if ok then (d.emitOn conn (.cnp conn)).modConn conn fun k => { k with cnpSentAt := some d.clk } else d

/-- Packets before `psn` in the order of the connection are acknowledged. -/
def ackUpTo (l : List (BitVec 24 × Option Out)) (psn : BitVec 24) : List (BitVec 24 × Option Out) :=
  if l.any (·.1 == psn) then (l.dropWhile (·.1 != psn)).drop 1 else l

/-- The device sends its unacknowledged packets again, or gives up when its tries are used (R397). -/
def Dev.retryConn (d : Dev) (c : Nat) : Dev :=
  match d.connLive c with
  | none => d
  | some k =>
    if k.tries < k.retry % 8 then (k.unacked.filterMap (·.2)).foldl (fun d o => d.emitOn c o) (d.modConn c fun k => { k with tries := k.tries + 1 })
    else d.qpError c 3

/-- TENANT_ACK_RECEIVE (R397, R424): an ACK frees the packets it covers; a NAK for a sequence gap makes the device
send again; any other NAK puts the queue pair into error; an RNR NAK is retried up to the RNR retry count, in which 7
means without end. -/
def execTenantAckReceive (conn : Nat) (kind : AckKind) (psn : BitVec 24) (s : State) : Host.Outcome State Fault Refusal :=
  nextDev s fun d =>
    match d.connLive conn with
    | none => d
    | some k =>
      match kind with
      | .ack => d.modConn conn fun k => { k with unacked := ackUpTo k.unacked psn, tries := 0, rnrTries := 0 }
      | .nakSequence =>
        (d.modConn conn fun k => { k with unacked := if k.unacked.any (·.1 == psn) then k.unacked.dropWhile (·.1 != psn) else k.unacked }).retryConn conn
      | .nakOther => d.qpError conn 2
      | .rnrNak =>
        let n := k.retry / 8 % 8
        if n = 7 ∨ k.rnrTries < n then
          (k.unacked.filterMap (·.2)).foldl (fun d o => d.emitOn conn o) (d.modConn conn fun k => { k with rnrTries := k.rnrTries + 1 })
        else d.qpError conn 3

/-- LOCAL_ACK_TIMEOUT (R397): a connection with packets unacknowledged sends them again, or its retries are
exhausted. -/
def execLocalAckTimeout (conn : Nat) (s : State) : Host.Outcome State Fault Refusal :=
  nextDev s fun d =>
    match d.connLive conn with
    | none => d
    | some k => if k.unacked = [] then d else d.retryConn conn

/-! ### Grants (R41, R42, R80) -/

/-- Take the handle that POOL has committed for a command. -/
def Dev.takeGrant (d : Dev) (id : Nat) : Option (BitVec 32 × Dev) :=
  (d.pool.done.find? fun p => p.1 == .grant id).map fun p => (p.2, { d with pool := { d.pool with done := d.pool.done.erase p } })

/-- A committed handle becomes a READY grant (R41, R42), whose capsule goes out within the budget of the tick or waits in due order
(R63); a command that has failed in the meantime takes no grant, and the buffer is released. -/
def Dev.readyGrant (d : Dev) (id : Nat) (k : Cmd) : Dev :=
    match d.takeGrant id with
    | none => d
    | some (h, d) =>
      match k.wr.asked with
      | [] => d.release h 1
      | (off, len) :: rest =>
        let ring := isRing k.src
        let gid := d.newGrant
        let (rk, va) := d.newWindow len
        let rk := if ring then 0#32 else rk
        let va := if ring then 0#64 else va
        let w : Window := { gid := gid, rkey := rk, va := va, len := len, off := off, handle := h, opened := d.clk }
        let d := (d.spend 3).modCmd id fun k => { k with wr := { k.wr with asked := rest, wins := k.wr.wins ++ [w] } }
        let d := match tget d.rte.cmds id with
          | some k' => d.mirrorControl (.cmd id k')
          | none => d
        d.capDue k.src (readyBytes k.tag k.session gid rk va len off) true

/-- READY_GRANT (R41, R42): the READY capsule of a window whose Kilderkin has been obtained; none while RTE's step has overrun
(R16). -/
def execReadyGrant (src : Src) (tag : BitVec 16) (s : State) : Host.Outcome State Fault Refusal :=
  nextDev s fun d =>
    match d.cmdByTag (srcKey src) tag with
    | some (id, k) => if d.stallsAny blkRte 0 then d else d.readyGrant id k
    | none => d

/-- The command that holds an open window of a grant. -/
def Dev.cmdOfGrant (d : Dev) (g : BitVec 32) : Option (Nat × Window) :=
  d.rte.cmds.findSome? fun c => (c.2.wr.wins.find? fun w => w.gid == g && ! w.closed).map fun w => (c.1, w)

/-- Ticks that an open window may wait (R79). -/
def Dev.grantTimeout (d : Dev) : Nat := d.fldZ Fld.schGrantCfgTimeout 0 1048575

/-- GRANT_TIMEOUT (R80): the window is withdrawn and its command fails with GRANT_SHORT. -/
def execGrantTimeout (grant : BitVec 32) (s : State) : Host.Outcome State Fault Refusal :=
  nextDev s fun d =>
    match d.cmdOfGrant grant with
    | some (id, w) => if w.opened + d.grantTimeout ≤ d.clk then d.failAnswer id stGrantShort else d
    | none => d

/-- GRANT_DRAIN_END (R80, R489): a withdrawn window has drained for DRAIN ticks, and its Kilderkin is freed. -/
def execGrantDrainEnd (grant : BitVec 32) (s : State) : Host.Outcome State Fault Refusal :=
  nextDev s fun d =>
    match d.rte.draining.find? fun w => w.2.gid == grant with
    | none => d
    | some w =>
      match w.2.withdrawn with
      | none => d
      | some t =>
        if t + d.fld1 Fld.schGrantCfgDrain ≤ d.clk then
          ({ d with rte := { d.rte with draining := d.rte.draining.erase w } }).release w.2.handle 1
        else d

/-! ### The buffered response (R47) -/

/-- The chunks that hold records of a command. -/
def Dev.chunksOfCmd (d : Dev) (id : Nat) : List Chunk := (d.ses.chunks.map (·.2)).filter fun c => c.pieces.any (·.cmd == id)

/-- A chunk has been sealed, or never will be. -/
def Chunk.decided (c : Chunk) : Bool := c.st.final || c.st == .sealed || c.st == .placed

/-- Every record of a write command is sealed, or lost with its chunk, and in a pair mirrored (R47, R417); after a power-fail
warning outside a pair no response goes out (R470). -/
def Dev.bufferedReady (d : Dev) (id : Nat) (k : Cmd) : Bool :=
  k.adm.isSome && k.fail.isNone && k.wr.ended && (! d.pins.pfTaken || d.pairMode) && (d.chunksOfCmd id).all fun c => c.decided && d.mirrored c.mirTick

/-- The status of a command whose records are decided: OK, or that of a chunk dropped before it was sealed (R124,
R127). -/
def Dev.bufferedStatus (d : Dev) (id : Nat) : Nat :=
  ((d.chunksOfCmd id).find? (·.st == .dropped)).map (·.why) |>.getD stOk

/-- BUFFERED_RESPONSE (R47). -/
def execBufferedResponse (src : Src) (tag : BitVec 16) (s : State) : Host.Outcome State Fault Refusal :=
  nextDev s fun d =>
    match d.cmdByTag (srcKey src) tag with
    | none => d
    | some (id, k) =>
      if (k.op = opWrite ∨ k.op = opMark) ∧ d.bufferedReady id k ∧ d.stallsAny blkRte 0 = false then
        let st := d.bufferedStatus id
        let (a, b, c) := d.writeResults id k
        d.answer id st (if st = stOk then flBuffered else 0) a b c
      else d

/-! ### Metering (R67, R68) -/

/-- A metering record (R68). -/
def meterBytes (t : Nat) (m : Tenant) (tick : TickCount) : List Byte :=
  withCrc32c (leBytes 2 t ++ [0x01#8] ++ leBytes 1 (b2n m.restart) ++ zeros 4 ++ leBytes 8 tick.toNat ++ leBytes 8 m.rx
    ++ leBytes 8 m.cmp ++ leBytes 8 m.tape ++ leBytes 8 m.chanNs ++ leBytes 8 m.records ++ leBytes 4 m.seq)

/-- What the partner's mirror says of a tenant's own counters there (R418). -/
def Dev.partnerMeter (d : Dev) (t : Nat) : Option Tenant :=
  d.pair.partner.store.findSome? fun r => match r.1 with
    | .tenant u m => if u = t then some m else none
    | _ => none

/-- A tenant's counters: in a pair, and after it, the totals of both devices, with the SEQ and RESTART of the last record that either
has queued (R418). -/
def Dev.meterTotal (d : Dev) (t : Nat) : Tenant :=
  let m := d.tenantAt t
  match d.partnerMeter t with
  | none => m
  | some x => { m with
      seq := max m.seq x.seq, restart := m.restart && x.restart
      rx := (m.rx + x.rx) % 2 ^ 64, cmp := (m.cmp + x.cmp) % 2 ^ 64, tape := (m.tape + x.tape) % 2 ^ 64
      chanNs := (m.chanNs + x.chanNs) % 2 ^ 64, records := (m.records + x.records) % 2 ^ 64 }

/-- The partner's meters, as its mirror gives them now. -/
def Dev.partnerMeters (d : Dev) : List MirRec :=
  (d.pair.partner.store.map (·.1)).filter fun r => match r with
    | .tenant _ _ => true
    | _ => false

/-- The tenants whose counters have changed on the partner since the last snapshot. -/
def Dev.partnerChanged (d : Dev) : List Nat :=
  (d.partnerMeters.filter fun r => ! d.pair.metered.contains r).filterMap fun r => match r with
    | .tenant t _ => some t
    | _ => none

/-- The device queues metering records (R418): in a protected pair only the one with the lower address does. -/
def Dev.queuesMeters (d : Dev) : Bool := ! d.holdsAcks || decide (d.fabAddr < d.partnerAddr)

/-- The tenants that a snapshot reports (R68). -/
def Dev.meteredTenants (d : Dev) : List Nat :=
  ((d.rte.tenants.filter (·.2.changed)).map (·.1) ++ d.partnerChanged ++ ((d.ses.sessions.filter fun s => ! s.2.dead).map (·.2.tenant))).mergeSort (· ≤ ·) |>.dedup

/-- A tenant's counters have been part of a snapshot, in which its record carried `seq` or the pair's lower device made the record:
nothing has changed since. -/
def Tenant.metered (m : Tenant) (seq : Nat) : Tenant := { m with changed := false, restart := false, seq := seq }

/-- METERING_SNAPSHOT (R68): at a boundary whose tick is a multiple of 3,000,000, one record for each tenant with an
open session or changed counters. -/
def execMeteringSnapshot (s : State) : Host.Outcome State Fault Refusal :=
  nextDev s fun d =>
    if d.tick.toNat % 3000000 = 0 ∧ d.queuesMeters then
      let ts := d.meteredTenants
      let d : Dev := { d with pair := { d.pair with metered := d.partnerMeters } }
      ts.foldl (fun d t =>
        let m := d.meterTotal t
        let d := { d with ctl := { d.ctl with metq := d.ctl.metq ++ [meterBytes t m d.tick] } }
        d.modTenant t fun x => x.metered ((m.seq + 1) % 2 ^ 32)) d
    else if d.tick.toNat % 3000000 = 0 then
      d.meteredTenants.foldl (fun d t => d.modTenant t fun m => m.metered m.seq) { d with pair := { d.pair with metered := d.partnerMeters } }
    else d

/-- METERING_RECORD_POST (R68, R384): a record that waits is written once its ring has room. -/
def execMeteringRecordPost (s : State) : Host.Outcome State Fault Refusal :=
  nextDev s fun d =>
    match d.ctl.metq, d.outRing 3 with
    | m :: ms, some r =>
      if 1 ≤ d.sqRoom r ∧ 1 ≤ d.cqRoom r ∧ ! d.stalls blkPci 0 0 then ({ d with ctl := { d.ctl with metq := ms } }).writeItem r [m] else d
    | _, _ => d

end Sys2Proof.Machine
end

