-- ==== Sys2Proof/Machine/Crypto.lean ====
section
/-! DEFINITION. AES-256, AES-256-GCM with a 96-bit IV (NIST SP 800-38D) and the RFC 3394 key unwrap, which R117 and
R120 name. -/

namespace Sys2Proof.Machine

/-- Multiplication by x in the field of AES. -/
def ax (a : Byte) : Byte := if a.getLsbD 7 then (a <<< 1) ^^^ 0x1B#8 else a <<< 1

/-- The product in the field of AES. -/
def amulGo : Nat → Byte → Byte → Byte
  | 0, _, _ => 0#8
  | n + 1, a, b => (if b.getLsbD 0 then a else 0#8) ^^^ amulGo n (ax a) (b >>> 1)
/-- The product in the field of AES. -/
def amul (a b : Byte) : Byte := amulGo 8 a b

/-- The inverse in the field of AES, 0 for 0. -/
def ainv (a : Byte) : Byte :=
  let a2 := amul a a; let a4 := amul a2 a2; let a8 := amul a4 a4; let a16 := amul a8 a8
  let a32 := amul a16 a16; let a64 := amul a32 a32; let a128 := amul a64 a64
  amul a128 (amul a64 (amul a32 (amul a16 (amul a8 (amul a4 a2)))))

/-- The substitution byte of AES. -/
def sbox (a : Byte) : Byte :=
  let b := ainv a
  b ^^^ b.rotateLeft 1 ^^^ b.rotateLeft 2 ^^^ b.rotateLeft 3 ^^^ b.rotateLeft 4 ^^^ 0x63#8

/-- The inverse substitution. -/
def sboxInv (a : Byte) : Byte :=
  ainv (a.rotateLeft 1 ^^^ a.rotateLeft 3 ^^^ a.rotateLeft 6 ^^^ 0x05#8)

/-- The word that follows word `i` of the AES-256 key schedule. -/
def keyNext (ws : List (List Byte)) (rcon : Byte) (i : Nat) : List Byte :=
  let t := ws.getLastD []
  let t' := if i % 8 = 0 then
      match (t.drop 1 ++ t.take 1).map sbox with
      | [] => []
      | b :: r => (b ^^^ rcon) :: r
    else if i % 8 = 4 then t.map sbox else t
  xorBytes (ws.getD (i - 8) []) t'

/-- The 15 round keys of AES-256. -/
def aesKeys (key : List Byte) : List (List Byte) :=
  let ws0 := pieces 4 key
  let (ws, _) := (List.range 52).foldl (fun (acc : List (List Byte) × Byte) k =>
    let i := k + 8
    (acc.1 ++ [keyNext acc.1 acc.2 i], if i % 8 = 0 then ax acc.2 else acc.2)) (ws0, 0x01#8)
  (pieces 4 ws).map List.flatten

/-- ShiftRows on the column-major block: byte `i` comes from place `p i`. -/
def permute (p : Nat → Nat) (b : List Byte) : List Byte := (List.range 16).map fun i => b.getD (p i) 0#8

/-- MixColumns with a row of coefficients. -/
def mixWith (c : List Byte) (b : List Byte) : List Byte :=
  (pieces 4 b).flatMap fun col => (List.range 4).map fun r =>
    (List.range 4).foldl (fun acc k => acc ^^^ amul (c.getD ((k + 4 - r) % 4) 0#8) (col.getD k 0#8)) 0#8

/-- One block through AES-256 with its round keys. -/
def aesEnc (rk : List (List Byte)) (b : List Byte) : List Byte :=
  let sr := permute fun i => (i + 4 * (i % 4)) % 16
  let round (b k : List Byte) := xorBytes (mixWith [2#8, 3#8, 1#8, 1#8] (sr (b.map sbox))) k
  let b := (rk.drop 1 |>.take 13).foldl round (xorBytes b (rk.getD 0 []))
  xorBytes (sr (b.map sbox)) (rk.getD 14 [])

/-- One block back through AES-256. -/
def aesDec (rk : List (List Byte)) (b : List Byte) : List Byte :=
  let sr := permute fun i => (i + 16 - 4 * (i % 4)) % 16
  let round (b k : List Byte) := mixWith [14#8, 11#8, 13#8, 9#8] (xorBytes ((sr b).map sboxInv) k)
  let b := ((rk.drop 1 |>.take 13).reverse).foldl round (xorBytes b (rk.getD 14 []))
  xorBytes ((sr b).map sboxInv) (rk.getD 0 [])

/-- The product in GF(2^128) of GHASH, bit 0 being the first bit of a block. -/
def gf128Mul (x y : BitVec 128) : BitVec 128 :=
  ((List.range 128).foldl (fun (acc : BitVec 128 × BitVec 128) i =>
    (if x.getLsbD (127 - i) then acc.1 ^^^ acc.2 else acc.1,
     if acc.2.getLsbD 0 then (acc.2 >>> 1) ^^^ BitVec.shiftLeft 0xE1#128 120 else acc.2 >>> 1)) (0#128, y)).1

/-- Bytes padded with zeros to a multiple of 16. -/
def pad16 (bs : List Byte) : List Byte := bs ++ zeros ((16 - bs.length % 16) % 16)

/-- GHASH under the hash key `h`. -/
def ghash (h : BitVec 128) (bs : List Byte) : BitVec 128 :=
  (pieces 16 bs).foldl (fun acc b => gf128Mul (acc ^^^ BitVec.ofNat 128 (beNat b)) h) 0#128

/-- The counter blocks after J0 for `n` bytes. -/
def gcmStream (rk : List (List Byte)) (iv : List Byte) (n : Nat) : List Byte :=
  ((List.range (ceilDiv n 16)).flatMap fun i => aesEnc rk (iv ++ beBytes 4 (i + 2))).take n

/-- The GCM tag of a ciphertext. -/
def gcmTag (rk : List (List Byte)) (iv aad ct : List Byte) : List Byte :=
  let h := BitVec.ofNat 128 (beNat (aesEnc rk (zeros 16)))
  let s := ghash h (pad16 aad ++ pad16 ct ++ beBytes 8 (8 * aad.length) ++ beBytes 8 (8 * ct.length))
  xorBytes (beBytes 16 s.toNat) (aesEnc rk (iv ++ beBytes 4 1))

/-- AES-256-GCM: the ciphertext and the tag (R117). -/
def gcmSeal (key iv aad pt : List Byte) : List Byte × List Byte :=
  let rk := aesKeys key
  let ct := xorBytes pt (gcmStream rk iv pt.length)
  (ct, gcmTag rk iv aad ct)

/-- The plaintext of a ciphertext whose tag verifies (R117). -/
def gcmOpen (key iv aad ct tag : List Byte) : Option (List Byte) :=
  let rk := aesKeys key
  if gcmTag rk iv aad ct = tag then some (xorBytes ct (gcmStream rk iv ct.length)) else none

/-- One step of the RFC 3394 unwrap, with step number `t` and register `i` (from 1). -/
def unwrapStep (rk : List (List Byte)) (n : Nat) (st : List Byte × List (List Byte)) (k : Nat) : List Byte × List (List Byte) :=
  let t := 6 * n - k
  let i := n - 1 - k % n
  let b := aesDec rk (xorBytes st.1 (beBytes 8 t) ++ st.2.getD i [])
  (b.take 8, st.2.set i (b.drop 8))

/-- The RFC 3394 unwrap with the default initial value: the plaintext, when the integrity check passes (R121). -/
def keyUnwrap (kek wrapped : List Byte) : Option (List Byte) :=
  let rk := aesKeys kek
  let n := wrapped.length / 8 - 1
  let (a, rs) := (List.range (6 * n)).foldl (unwrapStep rk n) (wrapped.take 8, pieces 8 (wrapped.drop 8))
  if a = List.replicate 8 0xA6#8 then some rs.flatten else none

end Sys2Proof.Machine
end

