-- ==== Sys2Proof/Machine/Lz.lean ====
section
/-! DEFINITION. The compressed format: the encoder of R104 as a machine of single steps, and the decompressor with
its errors (R102 to R110). -/

namespace Sys2Proof.Machine

/-- The encoder between two passes of its loop (R104): input position, open literal run, hash table, output. -/
structure LzEnc where
  pos : Nat := 0
  run : Nat := 0
  hash : Table Nat := []
  out : List Byte := []
  deriving DecidableEq, Repr

/-- The hash of the three bytes at position `i` (R104). -/
def lzHash (inp : List Byte) (i : Nat) : Nat :=
  let a := (inp.getD i 0#8).toNat; let b := (inp.getD (i + 1) 0#8).toNat; let c := (inp.getD (i + 2) 0#8).toNat
  Nat.land (Nat.xor a (Nat.xor (b * 4) (c * 16))) 0x0FFF

/-- The number of equal leading bytes, at most `n`. -/
def lzMatch : Nat → List Byte → List Byte → Nat
  | 0, _, _ => 0
  | _, [], _ => 0
  | _, _, [] => 0
  | n + 1, a :: as, b :: bs => if a = b then lzMatch n as bs + 1 else 0

/-- A literal run of the `r` bytes that end before position `i` (R102, R104). -/
def lzLiteral (inp : List Byte) (i r : Nat) : List Byte :=
  if r = 0 then [] else BitVec.ofNat 8 (r - 1) :: slice inp (i - r) r

/-- A match token (R102). -/
def lzMatchToken (len dist : Nat) : List Byte :=
  if len ≤ 66 then BitVec.ofNat 8 (0x80 + (len - 3)) :: leBytes 2 (dist - 1)
  else BitVec.ofNat 8 (0xC0 + (len - 67) / 256) :: BitVec.ofNat 8 (len - 67) :: leBytes 2 (dist - 1)

/-- One pass of the encoder's loop (R104, R105). -/
def lzStep (inp : List Byte) (s : LzEnc) : LzEnc :=
  let n := inp.length
  let i := s.pos
  let (len, dist, hash) :=
    if i + 3 ≤ n then
      let h := lzHash inp i
      match tget s.hash h with
      | some c =>
        if i - c ≤ 32768 then (lzMatch 16450 (inp.drop c) (inp.drop i), i - c, tput s.hash h i) else (0, 0, tput s.hash h i)
      | none => (0, 0, tput s.hash h i)
    else (0, 0, s.hash)
  if 4 ≤ len ∨ (len = 3 ∧ s.run = 0) then
    { pos := i + len, run := 0, hash := hash, out := s.out ++ lzLiteral inp i s.run ++ lzMatchToken len dist }
  else if s.run + 1 = 128 then
    { pos := i + 1, run := 0, hash := hash, out := s.out ++ lzLiteral inp (i + 1) 128 }
  else { s with pos := i + 1, run := s.run + 1, hash := hash }

/-- The run that is still open at the end of the input (R104). -/
def lzFinish (inp : List Byte) (s : LzEnc) : LzEnc :=
  { s with run := 0, out := s.out ++ lzLiteral inp inp.length s.run }

/-- Passes of the loop until the input ends, or `bi` bytes of input or `bo` of output have been spent since position `pos0` and
output length `out0` (R111). -/
def lzRun (inp : List Byte) (bi bo pos0 out0 : Nat) : Nat → LzEnc → LzEnc
  | 0, s => s
  | fuel + 1, s =>
    if inp.length ≤ s.pos then lzFinish inp s
    else if bi ≤ s.pos - pos0 ∨ bo ≤ s.out.length - out0 then s
    else lzRun inp bi bo pos0 out0 fuel (lzStep inp s)

/-- The whole compressed stream of an original stream. -/
def lzEncode (inp : List Byte) : List Byte := (lzRun inp (inp.length + 1) (4 * inp.length + 4) 0 0 (inp.length + 1) {}).out

/-- A decompressor error and the offset it is found at (R109, R110). -/
structure LzErr where
  code : Nat
  off : Nat
  deriving DecidableEq, Repr

/-- Copy `n` bytes one at a time from distance `d` (R103). -/
def lzCopy (d : Nat) : Nat → List Byte → List Byte
  | 0, out => out
  | n + 1, out => lzCopy d n (out ++ [out.getD (out.length - d) 0#8])

/-- The decompressor between two tokens: input offset and output. -/
structure LzDec where
  pos : Nat := 0
  out : List Byte := []
  deriving DecidableEq, Repr

/-- Length, distance and bytes of the match token `t` at offset `p` (R102); none when the input ends inside it. -/
def lzMatchAt (inp : List Byte) (p t : Nat) : Option (Nat × Nat × Nat) :=
  if t < 0xC0 then
    if p + 3 ≤ inp.length then some (t % 64 + 3, leAt inp (p + 1) 2, 3) else none
  else
    if p + 4 ≤ inp.length then some (t % 64 * 256 + (inp.getD (p + 1) 0#8).toNat + 67, leAt inp (p + 2) 2, 4) else none

/-- One token (R109): the next state, or the first check that fails. -/
def lzToken (inp : List Byte) (origLen : Nat) (s : LzDec) : Except LzErr LzDec :=
  let t := (inp.getD s.pos 0#8).toNat
  if t < 0x80 then
    if s.pos + 1 + (t + 1) ≤ inp.length then
      if s.out.length + (t + 1) ≤ origLen then
        .ok { pos := s.pos + t + 2, out := s.out ++ slice inp (s.pos + 1) (t + 1) }
      else .error { code := 3, off := s.pos }
    else .error { code := 1, off := s.pos }
  else
    match lzMatchAt inp s.pos t with
    | none => .error { code := 1, off := s.pos }
    | some (len, field, sz) =>
      if 0x8000 ≤ field then .error { code := 1, off := s.pos }
      else if s.out.length < field + 1 then .error { code := 2, off := s.pos }
      else if origLen < s.out.length + len then .error { code := 3, off := s.pos }
      else .ok { pos := s.pos + sz, out := lzCopy (field + 1) len s.out }

/-- Tokens until the input ends, an error, or `bi` bytes of input or `bo` of output since `pos0`, `out0` (R109, R111).
True when the stream is complete. -/
def lzDecRun (inp : List Byte) (origLen bi bo pos0 out0 : Nat) : Nat → LzDec → Except LzErr (LzDec × Bool)
  | 0, s => .ok (s, false)
  | fuel + 1, s =>
    if inp.length ≤ s.pos then
      if s.out.length < origLen then .error { code := 4, off := inp.length } else .ok (s, true)
    else if bi ≤ s.pos - pos0 ∨ bo ≤ s.out.length - out0 then .ok (s, false)
    else
      match lzToken inp origLen s with
      | .ok s' => lzDecRun inp origLen bi bo pos0 out0 fuel s'
      | .error e => .error e

/-- The whole of a compressed stream (R106, R109). -/
def lzDecode (inp : List Byte) (origLen : Nat) : Except LzErr (List Byte) :=
  match lzDecRun inp origLen (inp.length + 1) (origLen + inp.length + 1) 0 0 (inp.length + 1) {} with
  | .ok (s, _) => .ok s.out
  | .error e => .error e

/-- The largest compressed length of a chunk (R107). -/
def lzBound (origLen : Nat) : Nat := origLen + ceilDiv origLen 128

end Sys2Proof.Machine
end

