-- ==== Sys2Proof/Machine/Span.lean ====
section
/-! DEFINITION. Span sets (R295 to R328): descriptors, members, stripe rows and the row journal, the identity part of
a data set (R131), row closure, parity and regeneration, the failure of a member, loss and row maps. -/

namespace Sys2Proof.Machine

/-! ### Bit maps of members -/

/-- The map with bit `i` set. -/
def mset (m : BitVec 32) (i : Nat) : BitVec 32 := m ||| BitVec.ofNat 32 (2 ^ i)
/-- The map with bit `i` clear. -/
def mclr (m : BitVec 32) (i : Nat) : BitVec 32 := m &&& ~~~ BitVec.ofNat 32 (2 ^ i)
/-- The number of bits set. -/
def mcount (m : BitVec 32) : Nat := ((List.range 32).filter m.getLsbD).length

/-! ### Descriptors (R295, R297) -/

/-- The descriptor that 256 bytes spell. -/
def parseDesc (bs : List Byte) : Desc :=
  let k := leAt bs 2 1
  let p := leAt bs 3 1
  { id := leAt bs 0 2, k := k, p := p, epoch := leAt bs 4 2, salt := BitVec.ofNat 32 (leAt bs 8 4)
    members := (List.range (k + p)).map fun i => leAt bs (64 + 4 * i) 4
    spares := ((List.range 8).map fun i => leAt bs (192 + 4 * i) 4).takeWhile (· != 0) }

/-- The fabric address of a member entry. -/
def entryAddr (e : Nat) : Nat := bits e 0 7
/-- The transport number of a member entry. -/
def entryTp (e : Nat) : Nat := bits e 8 3

/-- A shape is legal (R295). -/
def shapeOk (k p : Nat) : Bool := decide (2 ≤ k) && decide (k ≤ 30) && decide (p ≤ 2) && decide (k + p ≤ 32)

/-- The device is one of a pair (R413). -/
def Dev.paired (d : Dev) : Bool := d.flag Fld.fabPairCfgEn

/-- The local transport that an entry names (R297): its address is the device's own, or in a pair its partner's. -/
def Dev.entryLocal (d : Dev) (e : Nat) : Option Nat :=
  if bitOf e 15 ∧ (entryAddr e = d.fld Fld.fabCfgAddr ∨ (d.paired ∧ entryAddr e = d.fld Fld.fabPairCfgPartner)) then some (entryTp e)
  else none

/-- A descriptor is acceptable for a slot (R297). -/
def Dev.descOk (d : Dev) (slot : Nat) (bs : List Byte) : Bool :=
  let x := parseDesc bs
  decide (bs.length = 256) && crc32cOk bs && shapeOk x.k x.p && decide x.members.Nodup &&
    x.members.all fun e => ! d.spn.slots.any fun s => s.1 != slot && s.2.members.any (·.mounted) && s.2.desc.members.any fun f => bits f 0 11 == bits e 0 11

/-- The slot of a SPAN_ID, if it is configured. -/
def Dev.slotOf (d : Dev) (id : Nat) : Option Nat := (d.spn.slots.find? fun s => s.2.desc.id == id).map (·.1)

/-- A rebuild that has been interrupted stands at its last checkpoint (R319). -/
def Rebuild.atMark (r : Rebuild) : Rebuild := { r with row := r.row - r.mark, mark := 0, ready := false, made := none, fresh := true, resume := false }

/-! ### Members of a row -/

/-- A row that recovery or a takeover has voided and that has not been completed again (R308, R309). -/
def Span.rowVoid (s : Span) (n : Nat) : Bool := s.voidRows.contains n && ((tget s.rows n).map (·.st)) != some .complete

/-- The descriptor in force for a row (R322). -/
def Span.descOf (s : Span) (row : Nat) : Desc :=
  match s.newDesc with
  | some x => if s.phase = 2 ∧ s.boundary ≤ row then x else s.desc
  | none => s.desc

/-- The members' volumes for a row. -/
def Span.memsOf (s : Span) (row : Nat) : List Member := if s.newDesc.isSome ∧ s.phase = 2 ∧ s.boundary ≤ row then s.newMembers else s.members

/-- Change a member's volume for rows from `row` on. -/
def Span.modMember (s : Span) (row i : Nat) (f : Member → Member) : Span :=
  if s.newDesc.isSome ∧ s.phase = 2 ∧ s.boundary ≤ row then { s with newMembers := lmod s.newMembers i f } else { s with members := lmod s.members i f }

/-- The number of members of a row. -/
def Desc.width (x : Desc) : Nat := x.k + x.p

/-- The local transport of member `i` of a row. -/
def Dev.memberTp (d : Dev) (s : Span) (row i : Nat) : Option Nat := ((s.descOf row).members[i]?).bind d.entryLocal

/-- The members that take part in a row. -/
def Span.live (s : Span) (n : Nat) (r : Row) : List Nat := (List.range (s.descOf n).width).filter fun i => ! r.missing.getLsbD i

/-! ### The row journal (R132, R301, R306) -/

/-- The code of a row's state (R132). -/
def RowSt.code : RowSt → Nat
  | .unused => 0 | .gathering => 1 | .writing => 2 | .complete => 3 | .lost => 4

/-- A journal entry (R132). -/
def journalEntry (n : Nat) (r : Row) : List Byte :=
  leBytes 6 n ++ leBytes 1 r.st.code ++ [0#8] ++ leBytes 4 r.written.toNat ++ leBytes 4 r.verified.toNat

/-- The eight entries that a data set of row `n` carries (R132). -/
def Span.journalCopy (s : Span) (n : Nat) : List Byte :=
  (List.range 8).flatMap fun j => if n + j < 8 then zeros 16 else journalEntry (n + j - 8) (tgetD s.rows (n + j - 8) { st := .unused })

/-- The shape that a change under way leads to, or 0 (R131). -/
def Span.newShape (s : Span) : Nat × Nat :=
  match s.newDesc with
  | some x => if s.phase = 0 then (0, 0) else (x.k, x.p)
  | none => (0, 0)

/-- The payload of a JOURNAL record (R306). -/
def Span.journalBytes (s : Span) (kind : Nat) (tick : TickCount) : List Byte :=
  let done := (List.range 32).filter fun j => (tgetD s.rows (s.c + 1 + j) { st := .unused }).st = .complete
  let cur := (s.rebuild.map (·.row)).getD (2 ^ 48 - 1)
  leBytes 2 s.desc.id ++ leBytes 1 kind ++ leBytes 1 s.phase ++ leBytes 2 (s.descOf s.c).epoch ++ leBytes 1 s.newShape.1 ++ leBytes 1 s.newShape.2
    ++ leBytes 6 s.c ++ zeros 2 ++ leBytes 4 ((done.map fun j => 2 ^ j).foldl (· + ·) 0) ++ leBytes 4 s.failed.toNat
    ++ leBytes 6 s.boundary ++ zeros 2 ++ leBytes 6 cur ++ leBytes 1 ((s.rebuild.map (·.member)).getD 0) ++ [0#8] ++ leBytes 6 tick.toNat

/-- Produce a JOURNAL record of a span set (R305), on the feed or ahead of it (R48). It shows every complete row below
C and those of DONE_MAP. -/
def Dev.journal (d : Dev) (slot kind : Nat) (ahead : Bool) : Dev :=
  match d.spanAt slot with
  | none => d
  | some s =>
    let d := if ahead then d.cellarAhead blkSpn 0 0xC0 (s.journalBytes kind d.commitTick) else d.cellar blkSpn 0 0xC0 (s.journalBytes kind d.commitTick)
    d.modSpan slot fun s => { s with
      jrnlAt := d.clk, jrnlC := s.c
      rows := s.rows.map fun r => if ahead ∧ r.2.st = .complete ∧ r.1 ≤ s.c + 32 then (r.1, { r.2 with told := true }) else r }

/-- A JOURNAL record has been written to the cellar log (R48): the rows that its payload shows complete are shown. -/
def Dev.journalShown (d : Dev) (payload : List Byte) : Dev :=
  match d.slotOf (leAt payload 0 2) with
  | none => d
  | some slot =>
    let c := leAt payload 8 6
    let done := leAt payload 16 4
    d.modSpan slot fun s => { s with
      rows := s.rows.map fun r =>
        if r.2.st = .complete ∧ (r.1 ≤ c ∨ r.1 ≤ c + 32 ∧ bitOf done (r.1 - c - 1)) then (r.1, { r.2 with shown := true }) else r }

/-! ### The identity part (R131) -/

/-- What an identity part states besides its CRC. -/
structure Ident where
  flags : Nat
  vol : BitVec 64
  no : Nat
  wrap : Nat
  span : Nat
  member : Nat
  k : Nat
  p : Nat
  newK : Nat
  newP : Nat
  row : Nat
  epoch : Nat
  boundary : Nat
  voidFrom : Nat
  writer : Nat
  tick : TickCount
  journal : List Byte
  keep : BitVec 64
  deriving DecidableEq, Repr

/-- The 256 bytes of an identity part. -/
def identBytes (x : Ident) : List Byte :=
  withCrc32c (leBytes 4 0x46440001 ++ leBytes 2 x.flags ++ zeros 2 ++ leBytes 8 x.vol.toNat ++ leBytes 6 x.no ++ leBytes 2 x.wrap
    ++ leBytes 2 x.span ++ leBytes 1 x.member ++ leBytes 1 x.k ++ leBytes 1 x.p ++ leBytes 1 x.newK ++ leBytes 1 x.newP ++ [0#8]
    ++ leBytes 6 x.row ++ leBytes 2 x.epoch ++ leBytes 6 x.boundary ++ zeros 2 ++ leBytes 6 x.voidFrom ++ leBytes 1 x.writer ++ [0#8]
    ++ leBytes 6 x.tick.toNat ++ zeros 2 ++ padTo 128 x.journal ++ leBytes 8 x.keep.toNat ++ zeros 52)

/-- The identity part of member `i` of row `n` as the row closes. Before a peer's first report its wrap is a free value
(notes/assumptions/171.md). -/
def Dev.ident (d : Dev) (s : Span) (n i no : Nat) (short sync : Bool) : Ident :=
  let x := s.descOf n
  let m := (s.memsOf n).getD i {}
  { flags := b2n (decide (x.k ≤ i)) + 2 * b2n short + 4 * b2n sync + 8 * b2n m.splice.isSome
    vol := m.vol, no := no
    wrap := match d.memberTp s n i with
      | some t => (d.wrAt t).wrap
      | none => m.wrap.getD ((Config.freeValue (d.free + i)).toNat % 65536)
    span := x.id, member := i, k := x.k, p := x.p, newK := s.newShape.1, newP := s.newShape.2, row := n, epoch := x.epoch
    boundary := s.boundary, voidFrom := (m.splice.map (·.1)).getD 0, writer := d.fld Fld.fabCfgAddr, tick := d.tick
    journal := s.journalCopy n, keep := (m.splice.map (·.2)).getD 0 }

/-! ### Row maps and losses (R315, R320) -/

/-- Extents of a volume at most (R315). -/
def extentMax : Nat := 4096

/-- Data set `no` of row `n` continues the last extent. -/
def extends_ (m : List Extent) (no n : Nat) (fresh : Bool) : Bool :=
  match m.getLast? with
  | some e => ! fresh && decide (e.ds + e.count = no) && decide (e.row + e.count = n)
  | none => false

/-- The row map with data set `no` holding row `n` (R315). -/
def mapAdd (m : List Extent) (no n : Nat) (fresh : Bool) : List Extent :=
  if extends_ m no n fresh then
    match m.getLast? with
    | some e => m.dropLast ++ [{ e with count := e.count + 1 }]
    | none => m
  else m ++ [{ ds := no, row := n, count := 1 }]

/-- The row that data set `no` holds by a map (R308, R315): past the last extent, the last one goes on. The newest
extent counts first. -/
def mapRow (m : List Extent) (no : Nat) : Option Nat :=
  match m.reverse.find? fun e => decide (e.ds ≤ no) && decide (no < e.ds + e.count) with
  | some e => some (e.row + (no - e.ds))
  | none =>
    match m.getLast? with
    | some e => if e.ds ≤ no then some (e.row + (no - e.ds)) else none
    | none => none

/-- The data set that holds a row, by the newest extent that names it (R319). -/
def mapDs (m : List Extent) (row : Nat) : Option Nat :=
  ((m.reverse.find? fun e => decide (e.row ≤ row) && decide (row < e.row + e.count))).map fun e => e.ds + (row - e.row)

/-- Post SPN_EXTENT (R315, R327). -/
def Dev.postExtent (d : Dev) (span : Nat) (vol : BitVec 64) (e : Extent) : Dev :=
  d.postEvent 0x65 blkSpn 0 [item span, vol, item e.ds, item e.row, item e.count]

/-- Loss-list entries of a span set at most (R320). -/
def lossMax : Nat := 4096

/-- A loss-list entry (R320) with SPN_ROW_LOST and its cellar record (R327). -/
def Dev.lossAdd (d : Dev) (slot : Nat) (l : Loss) : Dev :=
  match d.spanAt slot with
  | none => d
  | some s =>
    let d := if s.loss.length < lossMax then d.modSpan slot fun s => { s with loss := s.loss ++ [l] } else d.bump Fld.spnLossCntCount
    d.postBoth 0x62 blkSpn 0 [item s.desc.id, item l.row, BitVec.setWidth 64 l.members, item l.cause]

/-! ### Opening and closing rows (R136 to R139, R302, R314) -/

/-- The lowest row in state 1 or 2, or the next to open (R302). -/
def Span.lowest (s : Span) : Nat :=
  ((s.rows.filter fun r => r.2.st = .gathering ∨ r.2.st = .writing).map (·.1)).min?.getD s.openRow

/-- The span set takes no more rows (R314), for the cause that SPN_VOL_FULL names. -/
def Span.fullCause (s : Span) (n : Nat) : Option (Nat × Nat) :=
  let ms := (s.memsOf n).zipIdx
  match ms.find? fun m => decide (2 ^ 48 ≤ m.1.next) with
  | some m => some (m.2, 1)
  | none =>
    if 2 ^ 48 ≤ n then some (0, 2)
    else (ms.find? fun m => decide (extentMax ≤ m.1.map.length) && ! extends_ m.1.map m.1.next n m.1.splice.isSome).map fun m => (m.2, 3)

/-- A member keeps its volume through a shape change: its entry has the same index in both shapes (R321). -/
def Span.keeps (s : Span) (i : Nat) : Bool :=
  match s.newDesc with
  | some x => decide (i < s.desc.width) && x.members[i]? == s.desc.members[i]?
  | none => true

/-- The new shape's members as the boundary row opens: those that keep their volumes go on with them. -/
def Span.carried (s : Span) : List Member := s.newMembers.zipIdx.map fun (m, i) => if s.keeps i then s.members.getD i m else m

/-- Open row `n` (R136), unless the span set takes no more rows; a full one posts SPN_VOL_FULL (R314). -/
def Dev.openRow (d : Dev) (slot n : Nat) : Dev :=
  match d.spanAt slot with
  | none => d
  | some s =>
    if s.readOnly ∨ s.full ∨ s.dismount then d.modSpan slot fun s => { s with openRow := n }
    else
      match s.fullCause n with
      | some (m, cause) =>
        (d.modSpan slot fun s => { s with full := true, openRow := n }).postEvent 0x64 blkSpn 0 [item s.desc.id, item m, item cause]
      | none =>
        d.modSpan slot fun s => { s with
          openRow := n
          newMembers := if s.phase = 2 ∧ n = s.boundary then s.carried else s.newMembers
          rows := tput s.rows n { st := .gathering, missing := s.failed, chunks := List.replicate (s.descOf n).k [] } }

/-- Payload bytes of a data set (R130). -/
def payloadLen : Nat := 3325952

/-- The open row may close under the skew limit (R302). -/
def Span.mayClose (s : Span) : Bool := decide (s.openRow ≤ s.lowest + 32)

/-- Close the open row of a slot (R138, R139, R301): every member's data set gets its number, identity part and Hogshead; the next
row opens. -/
def Dev.closeRow (d : Dev) (slot : Nat) (short sync : Bool) : Dev :=
  match d.spanAt slot with
  | none => d
  | some s =>
    let n := s.openRow
    match tget s.rows n with
    | none => d
    | some r =>
      if r.st ≠ .gathering then d
      else
        let x := s.descOf n
        let ms := s.memsOf n
        let nos := ms.map (·.next)
        let ids := (List.range x.width).map fun i => identBytes (d.ident s n i (nos.getD i 0) short sync)
        let news := (List.range x.width).filter fun i =>
          let m := ms.getD i {}
          ! extends_ m.map m.next n (m.splice.isSome || m.fresh || decide (n = s.boundary ∧ s.phase = 2))
        let up (i : Nat) (m : Member) : Member :=
          { m with next := m.next + 1, splice := none, fresh := false, map := mapAdd m.map m.next n (news.contains i && ! m.map.isEmpty) }
        let d := d.spend 32
        let d := (List.range x.width).foldl (fun d i =>
          match (ms.getD i {}).splice, d.memberTp s n i with
          | some (from_, keep), some t => d.modRd t fun r => { r with voids := r.voids ++ [(from_, nos.getD i 0, keep)] }
          | _, _ => d) d
        let d := d.modSpan slot fun s =>
          let s := (List.range x.width).foldl (fun s i => s.modMember n i (up i)) s
          { s with
            closeReq := false
            rows := tput s.rows n { r with st := .writing, short := short, sync := sync, nos := nos, idents := ids, tick := d.tick
                                           bufs := List.replicate x.width none, times := List.replicate x.width 0 } }
        let d := r.chunks.zipIdx.foldl (fun d (cs, i) => cs.foldl (fun d c =>
          d.modChunk c fun h => { h with vol := (ms.getD i {}).vol, ds := nos.getD i 0, known := true }) d) d
        let d := news.foldl (fun d i => d.postExtent x.id ((ms.getD i {}).vol) { ds := nos.getD i 0, row := n, count := 1 }) d
        let d := (List.range x.width).foldl (fun d i =>
          d.poolRequest payloadLen (if i < x.k then 4 else 5) 5 false (.payload slot n i)) d
        d.openRow slot (n + 1)

/-- A data set enters the staging queue of a transport (R303, R222). -/
def Dev.stage (d : Dev) (t : Nat) (x : DsWr) : Dev := d.modWr t fun w => { w with staged := w.staged ++ [x], arrived := true }

/-- A row's data sets enter the staging queues of its live members' transports (R303). -/
def Dev.stageRow (d : Dev) (slot n : Nat) : Dev :=
  match (d.spanAt slot).bind fun s => (tget s.rows n).map fun r => (s, r) with
  | none => d
  | some (s, r) =>
    let d := d.modSpan slot fun s => { s with rows := tmod s.rows n fun r => { r with staged := true } }
    (s.live n r).foldl (fun d i =>
      match d.memberTp s n i with
      | some t => d.stage t { no := r.nos.getD i 0, slot := slot, row := n, member := i, payload := nullHandle }
      | none => d) d

/-! ### Completion and C -/

/-- Register a span set's C, and release the payloads of the rows that C has passed (R303). -/
def Dev.passRows (d : Dev) (slot : Nat) : Dev :=
  match d.spanAt slot with
  | none => d
  | some s =>
    let c := s.lowest
    let gone := s.rows.filter fun r => decide (r.1 < c) && ! r.2.released && (r.2.st == .complete || r.2.st == .lost)
    let bufs := gone.flatMap fun r => r.2.bufs.filterMap id
    let d := d.modSpan slot fun s => { s with
      c := c
      rows := s.rows.map fun r => if decide (r.1 < c) && (r.2.st == .complete || r.2.st == .lost) then (r.1, { r.2 with released := true, bufs := [] }) else r
      members := if c = s.c then s.members else s.members.map fun m => { m with slow := 0 }
      newMembers := if c = s.c then s.newMembers else s.newMembers.map fun m => { m with slow := 0 } }
    d.releaseAll bufs 5

/-- The shape change is done when C passes its boundary row (R322): the new shape is in force, and a JOURNAL record
with PHASE 0 is written. -/
def Dev.shapeDone (d : Dev) (slot : Nat) : Dev :=
  match d.spanAt slot with
  | none => d
  | some s =>
    match s.newDesc with
    | none => d
    | some x =>
      if s.phase = 2 ∧ s.boundary < s.c then
        let tps := (List.range x.width).filterMap fun i => d.memberTp s s.boundary i
        let d := tps.foldl (fun d t => d.modTp t fun p => { p with upd := p.upd ++ [{}] }) d
        let d := d.modSpan slot fun s => { s with phase := 0, newDesc := none, desc := x, members := s.newMembers, newMembers := [] }
        (d.journal slot 5 false).postBoth 0x66 blkSpn 0 [item x.id, item 0, item s.boundary, item x.epoch]
      else d

/-- The bytes on tape of a chunk for the meters (R67). -/
def Chunk.tapeBytes (c : Chunk) : Nat := c.storedLen + 32 + 16

/-- Channel-nanoseconds of `bytes` of a data set that took `ns` on tape (R67). R67 does not say how the quotient is rounded: it is cut
to a whole number, once for each tenant and data set (DESIGN CHOICE, notes/assumptions/165.md). -/
def channelNs (ns bytes : Nat) : Nat := 64 * ns * bytes / payloadLen

/-- Meters of a completed data set (R67): each tenant's bytes to tape in it, and its channel time in proportion. -/
def Dev.meterDs (d : Dev) (ns : Nat) (ids : List Nat) : Dev :=
  let cs := (ids.filterMap fun c => tget d.ses.chunks c).filter (·.st != .lost)
  (cs.map (·.tenant)).dedup.foldl (fun d t =>
    let n := ((cs.filter (·.tenant == t)).map Chunk.tapeBytes).sum
    d.modTenant t fun m => { m with tape := (m.tape + n) % 2 ^ 64, chanNs := (m.chanNs + channelNs ns n) % 2 ^ 64, changed := true }) d

/-- Meters of a completed row (R67). -/
def Dev.meterRow (d : Dev) (r : Row) : Dev := r.chunks.zipIdx.foldl (fun d (cs, i) => d.meterDs (r.times.getD i 0) cs) d

/-- An admitted SYNC waits for a row of a span set: a chunk of its session below its bound lies there. -/
def Dev.syncWaits (d : Dev) (slot n : Nat) : Bool :=
  d.rte.cmds.any fun c => c.2.op == opSync && c.2.adm.isSome && ! c.2.answered &&
    d.ses.chunks.any fun h => h.2.session == c.2.session && h.2.span == slot && h.2.st == .placed && h.2.row == n
      && h.2.pieces.any fun p => decide (p.ord < c.2.bound)

/-- A row in state 2 whose live members all hold VERIFIED is complete (R301, R311): its chunks are on tape, and a SYNC
that waits for it has it shown in a JOURNAL record (R305). -/
def Dev.checkRow (d : Dev) (slot n : Nat) : Dev :=
  match d.spanAt slot with
  | none => d
  | some s =>
    match tget s.rows n with
    | none => d
    | some r =>
      if r.st = .writing ∧ (s.live n r).all r.verified.getLsbD then
        let sync := d.syncWaits slot n
        let d := d.modSpan slot fun s => { s with rows := tput s.rows n { r with st := .complete } }
        let d := (r.chunks.flatten).foldl (fun d c => d.modChunk c fun c => if c.st = .placed then { c with st := .onTape } else c) d
        let d := (d.meterRow r).passRows slot
        let d := if sync then d.journal slot 1 true else d
        d.shapeDone slot
      else d

/-- A member's data set is VERIFIED (R206, R301). -/
def Dev.memberVerified (d : Dev) (slot n i : Nat) : Dev :=
  match d.spanAt slot with
  | none => d
  | some s =>
    match tget s.rows n with
    | none => d
    | some r =>
      if r.missing.getLsbD i then d
      else
        let d := d.modSpan slot fun s => { s with
          rows := tput s.rows n { r with verified := mset r.verified i, firstVer := some (r.firstVer.getD d.nextVis) } }
        d.checkRow slot n

/-- A member's data set is WRITTEN (R206). -/
def Dev.memberWritten (d : Dev) (slot n i : Nat) : Dev :=
  d.modSpan slot fun s => { s with rows := tmod s.rows n fun r => { r with written := mset r.written i } }

/-! ### Failure (R310 to R313) -/

/-- A member fails a span set's sessions' chunks that never reached tape: they are lost, with their status. -/
def Dev.loseChunks (d : Dev) (cs : List Nat) : Dev :=
  cs.foldl (fun d c => d.modChunk c fun c => if c.st.final then c else { c with st := .lost, why := stSpanExhausted }) d

/-- Every row in state 1 or 2 of a span set is lost with it (R313). -/
def Dev.loseRows (d : Dev) (slot : Nat) : Dev :=
  match d.spanAt slot with
  | none => d
  | some s =>
    let rs := s.rows.filter fun r => r.2.st = .gathering ∨ r.2.st = .writing
    let waiting := (d.ses.chunks.filter fun c => c.2.span == slot && c.2.st == .sealed).map (·.1)
    let d := rs.foldl (fun d (n, r) =>
      let d := d.modSpan slot fun s => { s with rows := tput s.rows n { r with st := .lost } }
      (d.loseChunks r.chunks.flatten).lossAdd slot { row := n, members := r.missing, cause := 2 }) d
    let stored := (waiting.filterMap fun c => tget d.ses.chunks c).flatMap fun c => c.stored.toList ++ c.ovf
    ((d.loseChunks waiting).releaseAll stored 4).passRows slot

/-- A transport stops writing for a span set (R219, R311, R313): the data sets not begun are withdrawn, and so are those that wait to be
written again; what has been encoded goes out as it is. Without `region` the stream ends after the position in progress, with `flush` behind a
flush region. -/
def Dev.withdraw (d : Dev) (t slot : Nat) (region flush : Bool) : Dev :=
  let w := d.wrAt t
  let gone := (w.again ++ w.staged).filter fun x => x.slot == slot && x.started && (w.lastDs.map DsWr.no) != some x.no
  (gone.foldl (fun (d : Dev) (x : DsWr) => d.release x.payload 6) d).modWr t fun w => { w with
    staged := w.staged.filter (fun x => x.slot != slot), again := w.again.filter (fun x => x.slot != slot), stopReq := true
    todo := if region then w.todo else [], credit := if region then w.credit else 0
    lastKind := if region then w.lastKind else if flush then .region else .gap, gapDue := region && w.gapDue }

/-- More than p members are missing from new rows (R313): read-only, its incomplete rows lost, one KIND 8 record; the other members end
their streams with a flush region. -/
def Dev.spanExhausted (d : Dev) (slot : Nat) : Dev :=
  match d.spanAt slot with
  | none => d
  | some s =>
    if s.readOnly then d
    else
      let d := d.modSpan slot fun s => { s with readOnly := true }
      let d := d.loseRows slot
      let d := d.postBoth 0x63 blkSpn 0 [item s.desc.id, item s.c, BitVec.setWidth 64 s.failed]
      let tps := ((List.range (s.descOf s.openRow).width).filter fun i => ! s.failed.getLsbD i).filterMap fun i => d.memberTp s s.openRow i
      (tps.foldl (fun d t => d.withdraw t slot false true) d).journal slot 8 false

/-- A prepare phase that a member failure or a command cancels (R322). -/
def Dev.shapeCancel (d : Dev) (slot : Nat) : Dev :=
  d.modSpan slot fun s => if s.phase = 1 then { s with phase := 0, newDesc := none, newMembers := [] } else s

/-- Member `i` of a span set is declared failed for a cause (R310, R311, R327): its transport stops after the position in progress, or, at a
ninth retirement, behind the region in progress and its flush region (R219). -/
def Dev.memberFail (d : Dev) (slot i cause : Nat) : Dev :=
  match d.spanAt slot with
  | none => d
  | some s =>
    if s.failed.getLsbD i then d
    else
      let tp := d.memberTp s s.openRow i
      let d := d.modSpan slot fun s => { s with
        failed := mset s.failed i
        rows := s.rows.map fun r => if (r.2.st = .gathering ∨ r.2.st = .writing) ∧ ! r.2.verified.getLsbD i then (r.1, { r.2 with missing := mset r.2.missing i }) else r }
      let d := match tp with
        | some t => d.withdraw t slot (decide (cause = 3)) (decide (cause = 3))
        | none => d
      let d := d.postBoth 0x60 blkSpn 0 [item s.desc.id, item i, item cause, item s.c]
      let d := d.shapeCancel slot
      let now := (d.spanAt slot).getD s
      if (now.descOf now.openRow).p < mcount now.failed then d.spanExhausted slot
      else
        let rows := (now.rows.filter fun r => r.2.st = .writing).map (·.1)
        (rows.foldl (fun d n => d.checkRow slot n) d).journal slot 2 false

/-! ### Parity and regeneration (R298, R299) -/

/-- P over the data members' bytes (R298). -/
def parityP (ds : List (List Byte)) : List Byte :=
  match ds with
  | [] => []
  | x :: xs => xs.foldl xorBytes x

/-- Q over the data members' bytes (R298). -/
def parityQ (ds : List (List Byte)) : List Byte := parityP (ds.zipIdx.map fun (x, i) => x.map (gmul (alpha i)))

/-- Data members regenerated from what is available (R299): `ds` holds the data members, none where unavailable. -/
def regenerate (ds : List (Option (List Byte))) (p q : Option (List Byte)) : Option (List (List Byte)) :=
  let have_ := ds.zipIdx.filterMap fun (x, i) => x.map fun b => (b, i)
  let gone := (ds.zipIdx.filter fun (x, _) => x.isNone).map (·.2)
  let sumP (base : List Byte) : List Byte := have_.foldl (fun a (b, _) => xorBytes a b) base
  let sumQ (base : List Byte) : List Byte := have_.foldl (fun a (b, i) => xorBytes a (b.map (gmul (alpha i)))) base
  let put (f : Nat → List Byte) : List (List Byte) := ds.zipIdx.map fun (x, i) => x.getD (f i)
  match gone with
  | [] => some (put fun _ => [])
  | [x] =>
    match p, q with
    | some pb, _ => some (put fun _ => sumP pb)
    | none, some qb => some (put fun _ => (sumQ qb).map (gmul (ginv (alpha x))))
    | none, none => none
  | [x, y] =>
    match p, q with
    | some pb, some qb =>
      let p' := sumP pb
      let q' := sumQ qb
      let dx := (xorBytes (p'.map (gmul (alpha y))) q').map fun b => gdiv b (alpha x ^^^ alpha y)
      some (put fun i => if i = x then dx else xorBytes p' dx)
    | _, _ => none
  | _ => none

/-! ### Write epochs (R119) -/

/-- The members whose cartridges carry the write epoch, as a bit map: those that are not missing and stand on the device's own
transports, whose cartridge memory it relays to (R119, R188); the manual gives no message for a cartridge on a peer
(notes/assumptions/174.md). -/
def Dev.localMap (d : Dev) (s : Span) : BitVec 32 :=
  (List.range (s.descOf s.openRow).width).foldl (fun m i => if ! s.failed.getLsbD i && (d.memberTp s s.openRow i).isSome then mset m i else m) 0

/-- Every member's cartridge holds a value above the reserve epoch (R119). -/
def Dev.reserveHeld (d : Dev) (s : Span) : Bool := s.epoch.have_ &&& d.localMap s == d.localMap s

/-- The span set moves to its reserve epoch (R119): count 0, and the ports write the next value to every member. A
switch that falls due before the reserve has been written holds its chunks at the cipher unit, with EPOCH_WAIT. -/
def Dev.epochSwitch (d : Dev) (slot : Nat) : Dev :=
  match d.spanAt slot with
  | none => d
  | some s =>
    let held := d.reserveHeld s
    let lacks := d.localMap s &&& ~~~ s.epoch.have_
    let tps := (List.range (s.descOf s.openRow).width).filterMap fun i => d.memberTp s s.openRow i
    let d := if held then d else
      d.cellar blkCip 0 0xC9 (itemsPayload [item s.desc.id, item s.epoch.cur, item s.epoch.reserve, BitVec.setWidth 64 lacks])
    let d := d.modSpan slot fun s => { s with epoch := { s.epoch with
      cur := s.epoch.reserve, count := 0, reserve := s.epoch.reserve + 1, have_ := 0, waiting := s.epoch.waiting || ! held } }
    tps.foldl (fun d t => d.modTp t fun p => { p with upd := p.upd ++ [{ epoch := some (s.epoch.reserve + 2) }] }) d

/-- The CHUNK_SEQ of the next chunk of a span set that opens (R98, R119). -/
def Dev.takeSeq (d : Dev) (slot : Nat) : Dev × BitVec 64 :=
  match d.spanAt slot with
  | none => (d, 0)
  | some s =>
    let seq := BitVec.ofNat 64 (s.epoch.cur * 2 ^ 40 + s.epoch.count)
    let d := d.modSpan slot fun s => { s with epoch := { s.epoch with count := s.epoch.count + 1 } }
    (if s.epoch.count + 1 < 2 ^ 40 - 1 then d else d.epochSwitch slot, seq)

/-! ### Placement (R135 to R137) -/

/-- The extent of a chunk in bytes (R135): header and stored bytes, rounded up to 16. -/
def Chunk.extent (c : Chunk) : Nat := 16 * ceilDiv (32 + c.storedLen) 16

/-- Sum of the extents placed in a data set. -/
def Dev.extents (d : Dev) (cs : List Nat) : Nat := ((cs.filterMap fun c => tget d.ses.chunks c).map Chunk.extent).foldl (· + ·) 0

/-- A chunk fits the open data set of a data member (R136). -/
def Dev.fits (d : Dev) (cs : List Nat) (c : Chunk) : Bool :=
  decide (cs.length + 1 ≤ 8192) && decide (512 + 16 * (cs.length + 1) + d.extents cs + c.extent ≤ payloadLen)

/-- The member that takes a session's chunk in a row (R137): the current member, or the first following that it fits. -/
def Dev.memberFor (d : Dev) (s : Span) (r : Row) (c : Chunk) : Option Nat :=
  let k := (s.descOf s.openRow).k
  let cur := ((tget d.ses.sessions c.session).bind (·.member)).getD ((s.lastMember.getD (k - 1) + 1) % k)
  ((List.range k).map fun i => (cur + i) % k).find? fun m => d.fits (r.chunks.getD m []) c

/-- A session's earlier chunks have been placed or dropped (R115). -/
def Dev.inSequence (d : Dev) (id : Nat) (c : Chunk) : Bool :=
  d.ses.chunks.all fun o => ! (o.2.session == c.session && decide (o.1 < id)) || o.2.st.final || o.2.st == .placed

end Sys2Proof.Machine
end

