-- ==== Sys2Proof/Machine/Chunks.lean ====
section
/-! DEFINITION. The chunker, drupelets and cipher units (R91 to R129): filling and closing chunks, dispatch, quanta,
sealing, keys, and what poison does in the chunk path. -/

namespace Sys2Proof.Machine

/-! ### Opening a chunk (R97, R119, R123) -/

/-- The address of a key table entry (R120). -/
def Dev.keyAddr (d : Dev) (i : Nat) : BitVec 64 :=
  BitVec.ofNat 64 (d.fld Fld.cipKtBaseHiAddr * 2 ^ 32 + d.fld Fld.cipKtBaseLoAddr * 64 + 64 * i)

/-- Fetch a key table entry from host memory (R123). -/
def Dev.fetchKey (d : Dev) (i : Nat) : Dev :=
  let d := (d.bump Fld.cipKcMissCntCount).emit (.hostRead (d.keyAddr i) 64)
  { d with dru := { d.dru with fetching := d.dru.fetching ++ [i], badKeys := d.dru.badKeys.filter (· != i) } }

/-- The unwrapped key of an index and tenant, if the cache holds it as others see it at the boundary that started the tick (R11). -/
def Dev.keyOf (d : Dev) (i tenant : Nat) : Option KeyEnt := d.dru.keys.find? fun k => k.index == i && k.tenant == tenant && decide (k.vis ≤ d.clk)

/-- A key has been used: it is the one most recently used (R123). -/
def Dev.keyUse (d : Dev) (i : Nat) : Dev :=
  { d with dru := { d.dru with keys := d.dru.keys.filter (·.index == i) ++ d.dru.keys.filter (·.index != i) } }

/-- Bytes of an original stream at most (R91). -/
def chunkMax : Nat := 65536
/-- Record bytes of a piece at most (R92). -/
def pieceMax : Nat := 65528

/-- The stored Kilderkin of the chunk that a session opens now is requested, unless it is there or asked for already (R97). -/
def Dev.askStored (d : Dev) (n chunk : Nat) (there : Bool) : Dev :=
  if there then d
  else if d.pool.reqs.any fun r => r.purpose == .nextStored n then
    { d with pool := { d.pool with reqs := d.pool.reqs.map fun r => if r.purpose = .nextStored n then { r with purpose := .stored chunk } else r } }
  else d.poolRequest 65536 2 4 false (.stored chunk)

/-- Open a chunk for a session in the original Kilderkin that POOL has committed for it, if its span set is mounted for writing (R97).
An encrypted one whose key is absent has it fetched (R123). -/
def Dev.openChunk (d : Dev) (n : Nat) : Option (Dev × Nat) :=
  match tget d.ses.sessions n with
  | none => none
  | some s =>
    match d.slotOf s.span, s.buf with
    | some slot, some h =>
      if ((d.spanAt slot).map (·.writing)).getD false then
        let (d, seq) := d.takeSeq slot
        let id := d.ses.nextChunk
        let c : Chunk := { session := n, tenant := s.tenant, span := slot, key := s.key, comp := s.comp, enc := s.enc, seq := seq
                           orig := some h, stored := s.storedBuf, opened := d.clk, lastByte := d.clk }
        let d : Dev := { d with ses := { d.ses with chunks := tput d.ses.chunks id c, nextChunk := id + 1 } }
        let d := (d.modSes n fun s => { s with open_ := some id, buf := none, storedBuf := none }).askStored n id s.storedBuf.isSome
        let d := if ! s.enc then d else if (d.keyOf s.key s.tenant).isSome then d.keyUse s.key else d.fetchKey s.key
        some (d, id)
      else none
    | _, _ => none

/-- Ask POOL for the original and the stored Kilderkin of a session's next chunk, each once (R97, R355, R489). -/
def Dev.askOriginal (d : Dev) (n : Nat) : Dev :=
  match tget d.ses.sessions n with
  | none => d
  | some s =>
    let may := ((d.slotOf s.span).bind d.spanAt).any (·.writing)
    let asked (u : PoolUse) : Bool := d.pool.reqs.any fun r => r.purpose == u
    if s.open_.isSome ∨ ! may then d
    else
      let d' := if s.buf.isSome ∨ asked (.original n) then d else d.poolRequest 65536 1 2 false (.original n)
      if s.storedBuf.isSome ∨ asked (.nextStored n) then d' else d'.poolRequest 65536 2 4 false (.nextStored n)

/-! ### Filling (R93, R94) -/

/-- The bytes of a command's stream from `off` on, read from its windows; true when one is poisoned. -/
def Dev.streamBytes (h : Hbm) (wins : List Window) : Nat → Dev → Nat → Nat → Dev × List Byte × Bool
  | 0, d, _, _ => (d, [], false)
  | fuel + 1, d, off, len =>
    if len = 0 then (d, [], false)
    else
      match wins.find? fun w => decide (w.off ≤ off) && decide (off < w.off + w.len) with
      | none => (d, [], false)
      | some w =>
        let n := min len (w.off + w.len - off)
        let (d, bs, p) := d.bufBytes h w.handle (off - w.off) n blkSes
        let (d, bs', p') := Dev.streamBytes h wins fuel d (off + n) (len - n)
        (d, bs ++ bs', p || p')

/-- Append a piece to the open chunk of a session (R92, R98): descriptor, data and the running CRC. -/
def appendPiece (hd : Hbm × Dev) (cid : Nat) (p : Piece) (data : List Byte) (poison : Bool) : Hbm × Dev :=
  let (h, d) := hd
  match tget d.ses.chunks cid with
  | none => hd
  | some c =>
    let bs := pieceBytes p ++ data
    let (h, d) := match c.orig with
      | some b => bufWrite (h, d) b c.origLen bs poison
      | none => (h, d)
    (h, d.modChunk cid fun c => { c with
      pieces := c.pieces ++ [p], origLen := c.origLen + bs.length, crc := crc32cFold c.crc bs, lastByte := d.clk, mirTick := d.tick
      dueAt := if c.origLen + bs.length = chunkMax then some (c.dueAt.getD d.clk) else c.dueAt })

/-- The earliest write command of a session that has records left to place. -/
def Dev.fillCmd (d : Dev) (n : Nat) : Option (Nat × Cmd) := (d.sesWrites n).find? fun c => ! c.2.wr.ended

/-- Put one piece of a command's current record into the session's chunk, opening one if none is open; none when it
cannot be placed now. A piece that does not fit makes its chunk due for closure (R93, R95). -/
def placePiece (hd : Hbm × Dev) (n id : Nat) (p : Piece) (need : Nat) (data : List Byte) (poison : Bool) : Option (Hbm × Dev) :=
  let (h, d) := hd
  match (tget d.ses.sessions n).bind (·.open_) with
  | none => (d.openChunk n).map fun (d, cid) => appendPiece (h, d) cid { p with cmd := id } data poison
  | some cid =>
    match tget d.ses.chunks cid with
    | none => none
    | some c =>
      if c.dueAt.isSome then none
      else if c.origLen + 8 + need ≤ chunkMax then some (appendPiece hd cid { p with cmd := id } data poison)
      else none

/-- The open chunk of a session that cannot take the next piece is due for closure. -/
def Dev.dueOpen (d : Dev) (n : Nat) : Dev :=
  match (tget d.ses.sessions n).bind (·.open_) with
  | some cid => d.modChunk cid fun c => { c with dueAt := some (c.dueAt.getD d.clk) }
  | none => d

/-- Go on to the next record of a command. -/
def Dev.nextRecord (d : Dev) (id : Nat) : Dev :=
  d.modCmd id fun k => { k with wr := { k.wr with recNo := k.wr.recNo + 1, recOff := 0, piece := 0, ended := decide (k.wr.lens.length ≤ k.wr.recNo + 1) } }

/-- Take the next piece of a session's records (R93, R94, R87); the flag tells whether another may follow at once. What has no open
chunk to go to waits for a Kilderkin (R97). -/
def fillStep (hd : Hbm × Dev) (n : Nat) : (Hbm × Dev) × Bool :=
  let (h, d) := hd
  match d.fillCmd n with
  | none => (hd, false)
  | some (id, k) =>
    let w := k.wr
    let i := w.recNo
    let len := w.lens.getD i 0
    let ord := w.ord + i
    if w.lens.length ≤ i then ((h, d.modCmd id fun k => { k with wr := { k.wr with ended := true } }), true)
    else if w.limit.isNone ∧ (k.adm.isNone ∨ d.clk < k.adm.getD 0) then (hd, false)
    else if w.accepts i = false then
      if 0 < w.recOff then ((h, d.nextRecord id), true)
      else if w.voided then
        match placePiece hd n id { ord := ord, len := 0, first := true, last := true, mark := false, void := true, total := len, no := 0, cmd := id } 0 [] false with
        | some (h, d) => ((h, d.nextRecord id), true)
        | none => ((h, (d.dueOpen n).askOriginal n), false)
      else ((h, d.modCmd id fun k => { k with wr := { k.wr with ended := true } }), true)
    else
      let pl := min pieceMax (len - w.recOff)
      let at_ := w.start i + w.recOff
      if w.shownTo d.clk < at_ + pl then (hd, false)
      else
        let last := decide (w.recOff + pl = len)
        let (d', data, poison) := Dev.streamBytes h w.wins (w.wins.length + 1) d at_ pl
        let p : Piece := { ord := ord, len := pl, first := decide (w.recOff = 0), last := last, mark := w.isMark i, void := false
                           total := len, no := w.piece, cmd := id }
        match placePiece (h, d') n id p (if w.recOff = 0 then len else pl) data poison with
        | none =>
          match (tget d.ses.sessions n).bind (·.open_) with
          | some _ => ((h, d.dueOpen n), false)
          | none => ((h, d.askOriginal n), false)
        | some (h, d) =>
          let d := d.modCmd id fun k => { k with wr := { k.wr with taken := at_ + pl } }
          let d := if last then d.nextRecord id
            else d.modCmd id fun k => { k with wr := { k.wr with recOff := k.wr.recOff + pl, piece := k.wr.piece + 1 } }
          ((h, d.freeWindows id (at_ + pl) (2 ^ 40)), true)

/-- Pieces as long as they can be placed. -/
def fillGo (n : Nat) : Nat → Hbm × Dev → Hbm × Dev
  | 0, hd => hd
  | fuel + 1, hd =>
    let (hd, more) := fillStep hd n
    if more then fillGo n fuel hd else hd

/-- The pieces that a session's commands may still need. -/
def Dev.fillFuel (d : Dev) (n : Nat) : Nat := ((d.sesWrites n).map fun c => 260 * (c.2.wr.lens.length + 2)).foldl (· + ·) 1

/-- The chunker's step of this tick has overrun (R16, R116): STEP code 0x01. -/
def Dev.sesLate (d : Dev) : Bool := d.stalls blkSes 0 1

/-- CHUNK_FILL (R93, R97): the chunker takes what a session's closed windows hold. -/
def execChunkFill (session : Nat) (s : State) : Host.Outcome State Fault Refusal :=
  nextHd s fun hd => if hd.2.sesLate then hd else fillGo session (hd.2.fillFuel session) hd

/-! ### Closing (R95, R96) -/

/-- Closures of one tick (R15, R96). -/
def closeMax : Nat := 2048

/-- A SYNC or CLOSE-SESSION of the session is admitted, has not ended, and every record it covers has been taken. -/
def Dev.closeForSync (d : Dev) (n : Nat) : Bool :=
  d.rte.cmds.any fun c => c.2.session == n && c.2.adm.isSome && ! c.2.answered &&
    ((c.2.op == opSync && decide (c.2.bound ≤ d.takenBelow n)) ||
     (c.2.op == opClose && decide (((tget d.ses.sessions n).map (·.next)).getD 0 ≤ d.takenBelow n)))

/-- Open chunks whose closure fell due before tick `due`, or in it for a session of a lower number (R96). -/
def Dev.closeBefore (d : Dev) (n due : Nat) : Nat :=
  (d.ses.sessions.filter fun s => (s.2.open_.bind fun c => (tget d.ses.chunks c).bind (·.dueAt)).any fun b =>
    decide (b < d.clk) && (decide (b < due) || (b == due && decide (s.1 < n)))).length

/-- Close a session's open chunk (R95, R99). Beyond 2,048 closures in a tick the rest wait, in order of the tick in which they fell
due and then by session number (R96). -/
def Dev.closeChunk (d : Dev) (n cid : Nat) : Dev :=
  let due := (((tget d.ses.chunks cid).bind (·.dueAt)).getD d.clk)
  if closeMax ≤ d.ses.closures + d.closeBefore n due then d.modChunk cid fun c => { c with dueAt := some due }
  else
    let d := d.modSes n fun s => { s with open_ := none }
    let d := d.modChunk cid fun c => { c with st := .closed, crc := c.crc ^^^ 0xFFFFFFFF, dueAt := some d.clk, vis := d.nextVis }
    { d with ses := { d.ses with closures := d.ses.closures + 1 } }

/-- The open chunk of a session. -/
def Dev.openOf (d : Dev) (n : Nat) : Option (Nat × Chunk) :=
  ((tget d.ses.sessions n).bind (·.open_)).bind fun cid => (tget d.ses.chunks cid).map fun c => (cid, c)

/-- HOLD, 0 acting as 1, and AGE, not below HOLD (R129). -/
def Dev.holdTicks (d : Dev) : Nat := d.fld1 Fld.sesChunkCfgHold
/-- AGE of an open chunk (R129). -/
def Dev.ageTicks (d : Dev) : Nat := max d.holdTicks (d.fld Fld.sesChunkCfgAge)

/-- A chunk is due for closure since an earlier boundary: it is full, its next piece does not fit, a command has failed, or a SYNC
or CLOSE-SESSION wants it, and what it holds has been committed (R95). -/
def Dev.closeWanted (d : Dev) (n : Nat) (c : Chunk) : Bool :=
  decide (c.lastByte < d.clk) && ((c.dueAt.any fun b => decide (b < d.clk)) || c.origLen == chunkMax || d.closeForSync n)

/-- CHUNK_CLOSE (R95). -/
def execChunkClose (session : Nat) (s : State) : Host.Outcome State Fault Refusal :=
  nextDev s fun d =>
    match d.openOf session with
    | none => d
    | some (cid, c) => if d.closeWanted session c ∧ d.sesLate = false then d.closeChunk session cid else d

/-- CHUNK_HOLD_EXPIRY (R95): no byte has been added for HOLD ticks, each of them whole (DEDUCED). -/
def execChunkHoldExpiry (session : Nat) (s : State) : Host.Outcome State Fault Refusal :=
  nextDev s fun d =>
    match d.openOf session with
    | none => d
    | some (cid, c) => if c.lastByte + d.holdTicks < d.clk ∧ d.sesLate = false then d.closeChunk session cid else d

/-- CHUNK_AGE_EXPIRY (R95): the chunk has been open for AGE ticks since the boundary that committed it (DEDUCED). -/
def execChunkAgeExpiry (session : Nat) (s : State) : Host.Outcome State Fault Refusal :=
  nextDev s fun d =>
    match d.openOf session with
    | none => d
    | some (cid, c) => if c.opened + d.ageTicks < d.clk ∧ d.sesLate = false then d.closeChunk session cid else d

/-! ### Drupelets (R111 to R114, R452) -/

/-- A drupelet has the write role (R112). -/
def Dev.druWrite (d : Dev) (i : Nat) : Bool :=
  if i < 32 then bitOf (d.fld Fld.druRoleLoWrite) i else bitOf (d.fld Fld.druRoleHiWrite) (i - 32)

/-- A quantum (R111). -/
def quantum : Nat := 24000

/-- The quanta that a job counts (R113). -/
def Dev.jobQuanta (d : Dev) (j : Job) : Nat :=
  if j.rd then
    match tget d.dru.rd j.id with
    | some c => ceilDiv (max (hdrOrigLen c.head) (hdrStoredLen c.head)) quantum
    | none => 0
  else ceilDiv (((tget d.ses.chunks j.id).map (·.origLen)).getD 0) quantum

/-- Pending quanta of a drupelet (R113). -/
def Dev.pending (d : Dev) (u : Drupelet) : Nat :=
  (u.queue.map d.jobQuanta).foldl (· + ·) 0 + ((u.cur.map fun r => d.jobQuanta r.job - r.quanta).getD 0)

/-- Distance of drupelet `i` from the pointer, counting upward with wrap (R113). -/
def Dev.druRank (d : Dev) (i : Nat) : Nat := (i + 48 - d.dru.ptr % 48) % 48

/-- The pointer advances by one each tick (R113). Where it starts after a reset is open: at 0 (DESIGN CHOICE,
notes/assumptions/32.md). -/
def Dev.druPointer (d : Dev) : Dev := { d with dru := { d.dru with ptr := (d.dru.ptr + 1) % 48 } }

/-- The best of drupelets by a measure, ties by rank. -/
def Dev.druBest (d : Dev) (cands : List Nat) (better : Nat → Nat → Bool) (m : Nat → Nat) : Option Nat :=
  cands.foldl (fun b i =>
    match b with
    | none => some i
    | some j => if better (m i) (m j) ∨ (m i = m j ∧ d.druRank i < d.druRank j) then some i else some j) none

/-- Change drupelet `i`. -/
def Dev.modDru (d : Dev) (i : Nat) (f : Drupelet → Drupelet) : Dev := { d with dru := { d.dru with engines := lmod d.dru.engines i f } }

/-- Drupelet `i`. -/
def Dev.druAt (d : Dev) (i : Nat) : Drupelet := d.dru.engines.getD i {}

/-- Queue a job on the drupelet of its role with the fewest pending quanta (R113); none when every queue is full. -/
def Dev.druQueue (d : Dev) (j : Job) (front : Bool) : Option Dev :=
  let cands := (List.range 48).filter fun i => d.druWrite i != j.rd && decide ((d.druAt i).queue.length < 8)
  (d.druBest cands (fun a b => decide (a < b)) fun i => d.pending (d.druAt i)).map fun i =>
    d.modDru i fun u => { u with queue := if front then j :: u.queue else u.queue ++ [j] }

/-- Idle drupelets take the oldest unstarted entry of the busiest queue of a role, in number order (R114, R452). -/
def Dev.druTake (d : Dev) (lend : Bool) : Dev :=
  (List.range 48).foldl (fun d i =>
    let u := d.druAt i
    if u.queue = [] ∧ u.cur.isNone then
      let role := d.druWrite i != lend
      let cands := (List.range 48).filter fun j => j != i && d.druWrite j == role && ! (d.druAt j).queue.isEmpty
      match d.druBest cands (fun a b => decide (b < a)) fun j => d.pending (d.druAt j) with
      | some j =>
        match (d.druAt j).queue with
        | job :: rest => (d.modDru j fun u => { u with queue := rest }).modDru i fun u => { u with queue := [job] }
        | [] => d
      | none => d
    else d) d

/-- CHUNK_DISPATCH (R97, R113): a closed chunk whose stored Kilderkin is committed goes to a drupelet, in closing order; the drupelet
sees it from the next boundary on. The chunker queues a chunk in the tick in which it closes it: both are its own work. -/
def execChunkDispatch (chunk : Nat) (s : State) : Host.Outcome State Fault Refusal :=
  nextDev s fun d =>
    match tget d.ses.chunks chunk with
    | none => d
    | some c =>
      let earlier := d.ses.chunks.any fun o => o.2.st == .closed && o.2.stored.isSome && ! o.2.poisoned && o.1 != chunk &&
        (decide (o.2.vis < c.vis) || (o.2.vis == c.vis && decide (o.2.session < c.session)))
      if c.st = .closed ∧ ! c.poisoned ∧ c.stored.isSome ∧ ! earlier ∧ d.sesLate = false then
        match d.druQueue { rd := false, id := chunk } false with
        | some d => d.modChunk chunk fun c => { c with st := .queued, vis := d.nextVis }
        | none => d
      else d

/-! ### Dropping and poison (R126, R127) -/

/-- A job leaves every drupelet and cipher unit. -/
def Dev.dropJob (d : Dev) (j : Job) : Dev :=
  { d with dru := { d.dru with
      engines := d.dru.engines.map fun u =>
        { queue := u.queue.filter (· != j), cur := match u.cur with
            | some r => if r.job = j then none else some r
            | none => none }
      cipq := d.dru.cipq.filter fun q => q.1 != j
      units := d.dru.units.map fun u => match u.cur with
        | some (x, n) => if x = j then {} else { cur := some (x, n) }
        | none => {} } }

/-- Free a chunk's stored and overflow buffers (R126). -/
def Dev.freeStored (d : Dev) (id : Nat) : Dev :=
  match tget d.ses.chunks id with
  | none => d
  | some c => (d.releaseAll (c.stored.toList ++ c.ovf) 4).modChunk id fun c => { c with stored := none, ovf := [] }

/-- Free a chunk's original Kilderkin. -/
def Dev.freeOrig (d : Dev) (id : Nat) : Dev :=
  match (tget d.ses.chunks id).bind (·.orig) with
  | some h => (d.release h 2).modChunk id fun c => { c with orig := none }
  | none => d

/-- Drop a chunk (R124, R127): its records become absent, and the commands with records in it receive `why`. -/
def Dev.dropChunk (d : Dev) (id why : Nat) : Dev :=
  let d := (d.dropJob { rd := false, id := id }).freeStored id
  let d := (d.freeOrig id).modChunk id fun c => { c with st := .dropped, why := why, vis := d.nextVis }
  match (tget d.ses.chunks id).map (·.session) with
  | some n => d.modSes n fun s => { s with open_ := if s.open_ = some id then none else s.open_ }
  | none => d

/-- A unit has consumed a poisoned word (R126, R127): in a pair the original stream is fetched again from the partner,
otherwise the chunk is dropped. -/
def Dev.poisonChunk (d : Dev) (id : Nat) : Dev :=
  let d := (d.dropJob { rd := false, id := id }).freeStored id
  if d.pairMode then d.modChunk id fun c => { c with st := .closed, poisoned := true }
  else d.dropChunk id stBufferPoison

/-! ### A drupelet's write quantum (R104, R108, R111) -/

/-- Bytes that a chunk's stored buffers hold after the header (R108). -/
def Chunk.room (c : Chunk) : Nat := 65504 + (c.ovf.map fun h => poolSize (hPool h)).foldl (· + ·) 0

/-- Write stored bytes from offset `off` of the stored stream into the Kilderkin and the overflow chain (R108). -/
def writeStored (hd : Hbm × Dev) (c : Chunk) (bs : List Byte) : Hbm × Dev :=
  match c.stored with
  | none => hd
  | some h =>
    let hd := bufWrite hd h 32 (bs.take 65504) false
    (c.ovf.foldl (fun (acc : (Hbm × Dev) × List Byte) o =>
      (bufWrite acc.1 o 0 (acc.2.take (poolSize (hPool o))) false, acc.2.drop (poolSize (hPool o)))) (hd, bs.drop 65504)).1

/-- Read back the stored bytes of a chunk: the stored stream and whether a word is poisoned. -/
def Dev.readStored (d : Dev) (h : Hbm) (c : Chunk) (len consumer : Nat) : Dev × List Byte × Bool :=
  match c.stored with
  | none => (d, zeros len, false)
  | some b =>
    let (d, bs, p) := d.bufBytes h b 32 (min len 65504) consumer
    let all : Dev × List Byte × Bool × Nat := c.ovf.foldl (fun acc o =>
      let n := min acc.2.2.2 (poolSize (hPool o))
      let (d, x, q) := acc.1.bufBytes h o 0 n consumer
      (d, acc.2.1 ++ x, acc.2.2.1 || q, acc.2.2.2 - n)) (d, bs, p, len - min len 65504)
    (all.1, all.2.1, all.2.2.1)

/-- A chunk obtains its next overflow buffer (R108): a Pin, or a larger buffer where no Pin is free. One that is free is taken within
the quantum, which waits only if none of any size is (DEDUCED, notes/assumptions/167.md); POOL then serves the request. -/
def Dev.overflowNext (d : Dev) (id owner : Nat) : Option Dev :=
  if d.pool.reqs.any fun r => r.purpose == .overflow id then none
  else (d.firstPool owner (List.range 5)).map fun p =>
    let (d, h) := d.allocate p owner 4
    d.modChunk id fun c => { c with ovf := c.ovf ++ [h] }

/-- Overflow buffers as far as `len` stored bytes need them, at most `n`; whether they hold them all. -/
def Dev.overflowFor (d : Dev) (id owner len : Nat) : Nat → Dev × Bool
  | 0 => (d, ((tget d.ses.chunks id).map fun c => decide (len ≤ c.room)).getD false)
  | n + 1 =>
    match tget d.ses.chunks id with
    | none => (d, false)
    | some c =>
      if len ≤ c.room then (d, true)
      else
        match d.overflowNext id owner with
        | some d => d.overflowFor id owner len n
        | none =>
          (if d.pool.reqs.any fun r => r.purpose == .overflow id then d else d.poolRequest 256 owner 4 true (.overflow id), false)

/-- A drupelet's quantum waits for a buffer: an overrun (R16, R108). -/
def Dev.druWaits (d : Dev) (i : Nat) (comp : Bool) : Dev := d.waitOverrun blkDru i (if comp then 1 else 3) (d.druAt i).queue.length

/-- The output of a write chunk is complete (R99, R108, R125): it stands in its buffers, and the chunk goes to a cipher
unit or is ready to seal. The original is freed. -/
def finishWrite (hd : Hbm × Dev) (i id : Nat) (out : List Byte) : Hbm × Dev :=
  let (h, d) := hd
  match tget d.ses.chunks id with
  | none => hd
  | some c =>
    let (h, d) := writeStored (h, d) c out
    let d := (d.modDru i fun u => { u with cur := none }).freeOrig id
    let n := out.length + (if c.enc then 16 else 0)
    let d := d.modChunk id fun c => { c with storedLen := n, st := if c.enc then .cipher else .ready, vis := d.nextVis }
    (h, if c.enc then { d with dru := { d.dru with cipq := d.dru.cipq ++ [({ rd := false, id := id }, n)] } } else d)

/-- Run a write job for up to `bi` bytes of input and `bo` of output (R104, R111); the bytes of each that the tick has left. A
literal run or match that passes the budget counts with its excess in the next tick, and a chunk ends only in a tick whose budget
covers its last token. Poison consumed stops the chunk (R126); the output asks for its overflow buffers as it grows (R108). -/
def writeQuantum (hd : Hbm × Dev) (i : Nat) (r : DruRun) (bi bo : Nat) : (Hbm × Dev) × Nat × Nat :=
  let (h, d) := hd
  match (tget d.ses.chunks r.job.id).bind fun c => c.orig.map fun b => (c, b) with
  | none => ((h, d.modDru i fun u => { u with cur := none }), bi, bo)
  | some (c, b) =>
    let inp := (d.bufBytes h b 0 c.origLen blkDru).2.1
    let il := bi - r.spent
    let ol := bo - r.made
    let e : LzEnc := { pos := r.pos, run := r.run, hash := r.hash, out := r.out }
    let e' : LzEnc :=
      if c.comp then lzRun inp il ol r.pos r.out.length (c.origLen + 2) e
      else { e with pos := min c.origLen (r.pos + min il ol), out := r.out ++ slice inp r.pos (min il ol) }
    let ci := r.spent + (e'.pos - r.pos)
    let co := r.made + (e'.out.length - r.out.length)
    let (d, _, poison) := d.bufBytes h b r.pos (e'.pos - r.pos) blkDru
    if poison then ((h, d.poisonChunk r.job.id), bi - ci, bo - co)
    else
      let r' : DruRun := { r with pos := e'.pos, run := e'.run, hash := e'.hash, out := e'.out, spent := ci - bi, made := co - bo, quanta := r.quanta + 1 }
      let d := (d.modDru i fun u => { u with cur := some r' }).modChunk r.job.id fun c => { c with st := .running }
      let (d, room) := d.overflowFor r.job.id 2 e'.out.length 3
      if ! room then ((h, d.druWaits i c.comp), 0, 0)
      else if c.origLen ≤ e'.pos ∧ ci ≤ bi ∧ co ≤ bo then (finishWrite (h, d) i r.job.id e'.out, bi - ci, bo - co)
      else ((h, d), 0, 0)

/-! ### A drupelet's read quantum (R101, R109, R110) -/

/-- A read chunk has failed with a status and, for the decompressor, an error (R57, R110). -/
def Dev.failRead (d : Dev) (id st code : Nat) : Dev :=
  { d with dru := { d.dru with rd := tmod d.dru.rd id fun c => { c with err := some (st, code), vis := d.nextVis } } }

/-- A decompressor error (R110): its counter, DRU_DECOMPRESS, and a cellar record where the tag had passed. -/
def Dev.decompressError (d : Dev) (id i : Nat) (c : RdChunk) (e : LzErr) : Dev :=
  let d := d.bump ([Fld.druErrCntIllegal, Fld.druErrCntIllegal, Fld.druErrCntDistance, Fld.druErrCntOverrun, Fld.druErrCntShort].getD e.code Fld.druErrCntIllegal)
  let items := [item (leAt c.head 1 3), item (leAt c.head 8 8), item e.code, item e.off]
  let d := if hdrEnc c.head then d.postBoth 0x30 blkDru i items else d.postEvent 0x30 blkDru i items
  d.failRead id stDecompressError e.code

/-- The output of a read chunk is complete: R101's checks on it. -/
def Dev.finishRead (d : Dev) (id : Nat) (c : RdChunk) (out : List Byte) : Dev :=
  let ok := match parsePieces (out.length + 1) out with
    | some ps => ps.length == hdrPieces c.head && (crc32c out).toNat == leAt c.head 28 4
    | none => false
  if ok then { d with dru := { d.dru with rd := tmod d.dru.rd id fun c => { c with out := some out, vis := d.nextVis } } }
  else d.failRead id stIntegrity 0

/-- Run a read job for up to `bi` bytes of input and `bo` of output (R109, R111); the bytes of each that the tick has left. -/
def Dev.readQuantum (d : Dev) (i : Nat) (r : DruRun) (bi bo : Nat) : Dev × Nat × Nat :=
  match tget d.dru.rd r.job.id with
  | none => (d.modDru i fun u => { u with cur := none }, bi, bo)
  | some c =>
    let inp := c.plain.getD []
    let il := bi - r.spent
    let ol := bo - r.made
    let step : Except LzErr (LzDec × Bool) :=
      if hdrComp c.head then lzDecRun inp (hdrOrigLen c.head) il ol r.pos r.out.length (inp.length + 2) { pos := r.pos, out := r.out }
      else
        let n := min (min il ol) (inp.length - r.pos)
        .ok ({ pos := r.pos + n, out := r.out ++ slice inp r.pos n }, decide (inp.length ≤ r.pos + n))
    match step with
    | .error e => ((d.modDru i fun u => { u with cur := none }).decompressError r.job.id i c e, 0, 0)
    | .ok (e, fin) =>
      let ci := r.spent + (e.pos - r.pos)
      let co := r.made + (e.out.length - r.out.length)
      if fin ∧ ci ≤ bi ∧ co ≤ bo then ((d.modDru i fun u => { u with cur := none }).finishRead r.job.id c e.out, bi - ci, bo - co)
      else (d.modDru i fun u => { u with cur := some { r with pos := e.pos, out := e.out, spent := ci - bi, made := co - bo, quanta := r.quanta + 1 } }, 0, 0)

/-- A drupelet sees a queued job: a write chunk was queued before this tick (R11). -/
def Dev.jobSeen (d : Dev) (j : Job) : Bool := j.rd || ((tget d.ses.chunks j.id).all fun c => decide (c.vis ≤ d.clk))

/-- One drupelet for one tick (R111): chunks in turn while the tick has bytes left. -/
def druRunGo (i : Nat) : Nat → Nat → Nat → Hbm × Dev → Hbm × Dev
  | 0, _, _, hd => hd
  | fuel + 1, bi, bo, hd =>
    if bi = 0 ∨ bo = 0 then hd
    else
      let (h, d) := hd
      let u := d.druAt i
      match u.cur with
      | some r =>
        let (hd, bi, bo) := if r.job.rd then
            let (d, n) := d.readQuantum i r bi bo
            ((h, d), n)
          else writeQuantum hd i r bi bo
        match (hd.2.druAt i).cur with
        | some _ => hd
        | none => druRunGo i fuel bi bo hd
      | none =>
        match u.queue with
        | [] => hd
        | j :: rest => if d.jobSeen j then druRunGo i fuel bi bo (h, d.modDru i fun _ => { queue := rest, cur := some { job := j } }) else hd

/-! ### Cipher units (R117, R125) -/

/-- The IV of a chunk (R117): salt and CHUNK_SEQ, big-endian. -/
def chunkIv (salt : BitVec 32) (seq : BitVec 64) : List Byte := beBytes 4 salt.toNat ++ beBytes 8 seq.toNat

/-- The header of a chunk as it is sealed (R98). -/
def Chunk.header (c : Chunk) : List Byte :=
  chunkHeader c.comp c.enc false c.torn c.session c.tenant c.key c.seq ((c.pieces.head?.map (·.ord)).getD 0) c.pieces.length c.origLen c.storedLen c.crc

/-- A cipher job may start: a write chunk's key is held and its epoch is not waiting (R119, R123). -/
def Dev.cipMay (d : Dev) (j : Job) : Bool :=
  if j.rd then
    match tget d.dru.rd j.id with
    | none => true
    | some c => d.dru.keys.any (fun k => k.index == leAt c.head 6 2 && decide (k.vis ≤ d.clk)) || d.dru.badKeys.contains (leAt c.head 6 2)
  else
    match tget d.ses.chunks j.id with
    | none => true
    | some c => (d.keyOf c.key c.tenant).isSome && ! (((d.spanAt c.span).map (·.epoch.waiting)).getD false)

/-- The job that a free unit takes: encryption before decryption, in the order they became ready (R449). -/
def Dev.cipNext (d : Dev) : Option (Job × Nat) :=
  let may := d.dru.cipq.filter fun q => d.cipMay q.1
  match may.find? fun q => ! q.1.rd with
  | some q => some q
  | none => may.head?

/-- A write chunk has been through its cipher unit: poison stops it (R126), otherwise it is ready to seal. -/
def cipWriteDone (hd : Hbm × Dev) (id : Nat) : Hbm × Dev :=
  let (h, d) := hd
  match tget d.ses.chunks id with
  | none => hd
  | some c =>
    let (d, _, p) := d.readStored h c (c.storedLen - 16) blkCip
    if p then (h, d.poisonChunk id)
    else
      let (d, room) := d.overflowFor id 3 c.storedLen 3
      if room then (h, d.modChunk id fun c => { c with st := .ready, vis := d.nextVis }) else (h, d)

/-- A read chunk has been through its cipher unit (R117, R57): its plaintext waits for a drupelet, or its tag failed. -/
def Dev.cipReadDone (d : Dev) (id : Nat) : Dev :=
  match tget d.dru.rd id with
  | none => d
  | some c =>
    let n := hdrStoredLen c.head - 16
    match d.keyOf (leAt c.head 6 2) (leAt c.head 4 2) with
    | none => d.failRead id stKeyDenied 0
    | some k =>
      match gcmOpen k.key (chunkIv c.salt (BitVec.ofNat 64 (leAt c.head 8 8))) c.head (c.body.take n) (slice c.body n 16) with
      | none => d.failRead id stIntegrity 0
      | some pt => { d with dru := { d.dru with rd := tmod d.dru.rd id fun c => { c with plain := some pt, vis := d.nextVis } } }

/-- The bytes of one cipher unit in one tick (R15, R125). -/
def cipQuantum : Nat := 40000

/-- Change cipher unit `i`. -/
def Dev.modUnit (d : Dev) (i : Nat) (u : CipUnit) : Dev := { d with dru := { d.dru with units := d.dru.units.set i u } }

/-- The key of a job is used (R123). -/
def Dev.jobKey (d : Dev) (j : Job) : Dev :=
  if j.rd then (tget d.dru.rd j.id).elim d fun c => d.keyUse (leAt c.head 6 2) else (tget d.ses.chunks j.id).elim d fun c => d.keyUse c.key

/-- Cipher unit `i` works on job `j`, `n` bytes of which are left, with `budget` bytes; the bytes left to the tick. A chunk whose
overflow buffer is missing keeps its unit, an overrun (R16, R108). -/
def cipWork (i : Nat) (j : Job) (n budget : Nat) (hd : Hbm × Dev) : (Hbm × Dev) × Nat :=
  if budget < n then ((hd.1, hd.2.modUnit i { cur := some (j, n - budget) }), 0)
  else
    let (h, d) := (hd.1, hd.2.modUnit i {})
    let (h, d) := if j.rd then (h, d.cipReadDone j.id) else cipWriteDone (h, d) j.id
    if ! j.rd ∧ ((tget d.ses.chunks j.id).map (·.st)) = some .cipher then ((h, (d.modUnit i { cur := some (j, 0) }).waitOverrun blkCip i 1 0), 0)
    else ((h, d), budget - n)

/-- Units that hold a chunk go on with it; each with the bytes it has left to the tick. -/
def cipContinue (units : List Nat) (hd : Hbm × Dev) : (Hbm × Dev) × List (Nat × Nat) :=
  units.foldl (fun acc i =>
    match (acc.1.2.dru.units.getD i {}).cur with
    | none => (acc.1, acc.2 ++ [(i, cipQuantum)])
    | some (j, n) =>
      let (hd, left) := cipWork i j n cipQuantum acc.1
      (hd, acc.2 ++ [(i, left)])) (hd, [])

/-- The unit that takes a chunk of `n` bytes (R125): the lowest-numbered one that is free with the whole tick, and otherwise the
lowest-numbered one that has finished a chunk in it and can finish this one in the next tick. -/
def cipUnit (left : List (Nat × Nat)) (n : Nat) : Option (Nat × Nat) :=
  match left.find? (·.2 == cipQuantum) with
  | some x => some x
  | none => left.find? fun x => decide (0 < x.2) && decide (n ≤ x.2 + cipQuantum)

/-- Waiting chunks go to units in order as long as a unit can take one (R125). -/
def cipStart : Nat → List (Nat × Nat) → Hbm × Dev → Hbm × Dev
  | 0, _, hd => hd
  | fuel + 1, left, hd =>
    match hd.2.cipNext with
    | none => hd
    | some (j, n) =>
      match cipUnit left n with
      | none => hd
      | some (i, b) =>
        let d := ({ hd.2 with dru := { hd.2.dru with cipq := hd.2.dru.cipq.erase (j, n) } } : Dev).jobKey j
        let (hd, b') := cipWork i j n b (hd.1, d)
        let busy := ((hd.2.dru.units.getD i {}).cur).isSome
        cipStart fuel (left.map fun x => if x.1 = i then (i, if busy then 0 else b') else x) hd

/-- The cipher units for one tick (R125); a unit whose step has overrun does nothing (R16). -/
def cipTick (hd : Hbm × Dev) : Hbm × Dev :=
  let (hd, left) := cipContinue ((List.range 16).filter fun i => ! hd.2.stallsAny blkCip i) hd
  cipStart (hd.2.dru.cipq.length + 1) left hd

/-- Read chunks that are decrypted, or need no decryption, go to the drupelets of the read role (R113). -/
def Dev.readDispatch (d : Dev) : Dev :=
  let busy (id : Nat) : Bool := d.dru.engines.any fun u => u.queue.any (fun j => j.rd && j.id == id) || ((u.cur.map fun r => r.job.rd && r.job.id == id).getD false)
  (d.dru.rd.filter fun c => c.2.plain.isSome && c.2.out.isNone && c.2.err.isNone && ! busy c.1).foldl (fun d c =>
    (d.druQueue { rd := true, id := c.1 } false).getD d) d

/-! ### Sealing (R98, R99, R117) -/

/-- Records that a sealed chunk completes for the meters (R67): those whose last piece it holds and none of whose pieces was lost in
a dropped chunk (R60). They are counted at the seal (DEDUCED, notes/assumptions/168.md). -/
def Dev.sealedRecords (d : Dev) (c : Chunk) : Nat :=
  (c.pieces.filter fun p => p.last && ! p.void && ! (d.sesChunks c.session).any fun x => x.2.st == .dropped && x.2.pieces.any (·.ord == p.ord)).length

/-- The header stands in the stored buffer: the chunk is sealed, and its tenant's meters advance (R67, R99). -/
def sealHeader (hd : Hbm × Dev) (id : Nat) (c : Chunk) (b : BitVec 32) : Hbm × Dev :=
  let (h, d) := bufWrite hd b 0 c.header false
  let n := d.sealedRecords c
  let d := d.modTenant c.tenant fun t => { t with cmp := (t.cmp + c.storedLen + 32) % 2 ^ 64, records := (t.records + n) % 2 ^ 64, changed := true }
  (h, d.modChunk id fun c => { c with st := .sealed })

/-- Seal a chunk: with ENCRYPTED the ciphertext and tag replace the drupelet's output, unless a word of it is poisoned (R126); then
its header is written. -/
def sealChunk (hd : Hbm × Dev) (id : Nat) (c : Chunk) : Hbm × Dev :=
  let (h, d) := hd
  match c.stored with
  | none => hd
  | some b =>
    if c.enc then
      match d.keyOf c.key c.tenant, d.spanAt c.span with
      | some k, some s =>
        let (d, pt, p) := d.readStored h c (c.storedLen - 16) blkCip
        if p then (h, d.poisonChunk id)
        else
          let (ct, tag) := gcmSeal k.key (chunkIv s.desc.salt c.seq) c.header pt
          sealHeader (writeStored (h, d) c (ct ++ tag)) id c b
      | _, _ => hd
    else sealHeader hd id c b

/-- CHUNK_SEAL (R99): a chunk whose last quantum has committed; others see the seal as they see that quantum. -/
def execChunkSeal (chunk : Nat) (s : State) : Host.Outcome State Fault Refusal :=
  nextHd s fun hd =>
    match tget hd.2.ses.chunks chunk with
    | some c => if c.st = .ready ∧ c.vis ≤ hd.2.clk ∧ hd.2.sesLate = false then sealChunk hd chunk c else hd
    | none => hd

/-! ### Keys (R121 to R124) -/

/-- A key table entry is usable (R121): the key, if so. The clear INDEX has to be the entry's place in the table: R120 calls it the
entry's own index, and R121 does not list the comparison (DESIGN CHOICE, notes/assumptions/169.md). -/
def entryKey (kek entry : List Byte) (index : Nat) : Option (Nat × List Byte) :=
  if leAt entry 4 1 % 2 = 1 ∧ index ≠ 0 ∧ leAt entry 0 2 < 16384 ∧ leAt entry 2 2 = index then
    match keyUnwrap kek (slice entry 8 56) with
    | some pt =>
      if leAt pt 32 2 = leAt entry 0 2 ∧ leAt pt 34 2 = leAt entry 2 2 ∧ allZero (slice pt 40 8) then some (leAt entry 0 2, pt.take 32) else none
    | none => none
  else none

/-- Keys that the cache holds (R123). -/
def keyMax : Nat := 1024

/-- A key is in use by a chunk, of writing or reading, in a cipher unit, or by one that has been through it and is not sealed yet. -/
def Dev.keyBusy (d : Dev) (k : KeyEnt) : Bool :=
  (d.dru.units.any fun u => u.cur.any fun x =>
    if x.1.rd then (tget d.dru.rd x.1.id).any fun c => leAt c.head 6 2 == k.index
    else (tget d.ses.chunks x.1.id).any fun c => c.enc && c.key == k.index) ||
  d.ses.chunks.any fun c => c.2.enc && c.2.st == .ready && c.2.key == k.index

/-- Put a key into the cache, evicting the least recently used that no chunk in a cipher unit uses (R123). -/
def Dev.cacheKey (d : Dev) (k : KeyEnt) : Dev :=
  let rest := d.dru.keys.filter (·.index != k.index)
  let rest := if rest.length < keyMax then rest else
    match rest.reverse.find? fun x => ! d.keyBusy x with
    | some x => rest.erase x
    | none => rest
  { d with dru := { d.dru with keys := k :: rest } }

/-- Chunks that need a key that has failed are dropped with KEY_DENIED, and their sessions close (R124). -/
def Dev.keyFails (d : Dev) (i : Nat) : Dev :=
  let bad := d.ses.chunks.filter fun c => c.2.enc && c.2.key == i && ! c.2.st.final && c.2.st != .sealed && c.2.st != .placed
    && ! d.dru.keys.any fun k => k.index == i && k.tenant == c.2.tenant
  bad.foldl (fun d (id, c) =>
    let cmds := (c.pieces.map (·.cmd)).dedup
    let d := d.dropChunk id stKeyDenied
    let d := cmds.foldl (fun d k => d.failAnswer k stKeyDenied) d
    d.dropSession c.session) d

/-- The admissible content of a fetched entry (R121, R123). One that is not usable counts as empty: no earlier key of its index
stands. -/
def Dev.keyArrives (d : Dev) (index : Nat) (entry : List Byte) : Dev :=
  let d : Dev := { d with dru := { d.dru with fetching := d.dru.fetching.erase index } }
  match d.hlt.kek.bind fun kek => entryKey kek entry index with
  | some (t, k) => (d.cacheKey { index := index, tenant := t, key := k, vis := d.nextVis }).keyFails index
  | none =>
    ({ d with dru := { d.dru with keys := d.dru.keys.filter (·.index != index), badKeys := index :: d.dru.badKeys } } : Dev).keyFails index

/-- KEY_FETCH (R123): an entry that was fetched from host memory is unwrapped into the cache, or fails. -/
def execKeyFetch (index : Nat) (entry : List Byte) (s : State) : Host.Outcome State Fault Refusal :=
  nextDev s fun d => if d.dru.fetching.contains index then d.keyArrives index entry else d

/-! ### Fetching a chunk again (R127) -/

/-- The original stream comes back from the partner for a chunk that waits before sealing: it runs again first. -/
def refetchChunk (hd : Hbm × Dev) (id : Nat) (c : Chunk) (bs : List Byte) : Hbm × Dev :=
  let (h, d) := hd
  let have_ : Option (Dev × BitVec 32) := match c.orig with
    | some b => some (d, b)
    | none => if d.mayTake 1 2 then some (d.allocate 2 1 2) else none
  match have_ with
  | none => hd
  | some (d, b) =>
    let (h, d) := bufWrite (h, d) b 0 bs false
    (h, (d.modChunk id fun c => { c with orig := some b, poisoned := false, vis := 0 }).poolRequest 65536 2 4 false (.stored id))

/-- The same for a chunk that is poisoned at assembly (R127): the repeated run gives the same bytes, in the same extent. A chunk
whose key is absent has it fetched first, and stays poisoned until then (R123). -/
def refetchPlaced (hd : Hbm × Dev) (id : Nat) (c : Chunk) (bs : List Byte) : Hbm × Dev :=
  let out := if c.comp then lzEncode bs else bs
  let put (out : List Byte) : Hbm × Dev :=
    let (h, d) := writeStored hd c out
    let (h, d) := match c.stored with
      | some b => bufWrite (h, d) b 0 c.header false
      | none => (h, d)
    (h, d.modChunk id fun c => { c with poisoned := false })
  if c.enc then
    match hd.2.keyOf c.key c.tenant, hd.2.spanAt c.span with
    | some k, some s =>
      let r := gcmSeal k.key (chunkIv s.desc.salt c.seq) c.header out
      put (r.1 ++ r.2)
    | _, _ => (hd.1, hd.2.fetchKey c.key)
  else put out

/-- CHUNK_REFETCH (R127): the partner's copy, or none when it is poisoned or unreachable. -/
def execChunkRefetch (chunk : Nat) (stream : Option (List Byte)) (s : State) : Host.Outcome State Fault Refusal :=
  nextHd s fun hd =>
    match tget hd.2.ses.chunks chunk with
    | none => hd
    | some c =>
      if ! c.poisoned then hd
      else if c.st = .closed then
        match stream with
        | some bs => refetchChunk hd chunk c bs
        | none => (hd.1, hd.2.dropChunk chunk stBufferPoison)
      else if c.st = .placed then
        match stream with
        | some bs => refetchPlaced hd chunk c bs
        | none => (hd.1, hd.2.modChunk chunk fun c => { c with st := .lost, why := stBufferPoison })
      else hd

/-- RESERVE_EPOCH_WRITTEN (R119): every member's cartridge holds the new value; chunks that waited go on. -/
def execReserveEpochWritten (slot : Nat) (s : State) : Host.Outcome State Fault Refusal :=
  nextDev s fun d =>
    match d.spanAt slot with
    | none => d
    | some sp => if d.reserveHeld sp then d.modSpan slot fun s => { s with epoch := { s.epoch with waiting := false } } else d

end Sys2Proof.Machine
end

