-- ==== Sys2Proof/Machine/Packer.lean ====
section
/-! DEFINITION. The packer and the span engine (R130 to R139, R295 to R326): placement, row closure, assembly of
payloads, parity, slow members, the periodic JOURNAL record, status of members on peers. -/

namespace Sys2Proof.Machine

/-! ### Placement (R115, R136, R137) -/

/-- Placements and extractions of one tick (R15). -/
def placeMax : Nat := 1024

/-- Place a sealed chunk in the open data set of member `m` (R135, R137). -/
def Dev.placeIn (d : Dev) (id slot m : Nat) (c : Chunk) (s : Span) (r : Row) : Dev :=
  let old := (tget d.ses.sessions c.session).bind (·.member)
  let d := d.modSes c.session fun x => { x with member := some m }
  let d := d.modSpan slot fun s => { s with
    lastMember := if old = some m then s.lastMember else some m
    rows := tput s.rows s.openRow { r with chunks := lmod r.chunks m (· ++ [id]), firstAt := some (r.firstAt.getD d.clk) } }
  let d := d.modChunk id fun c => { c with st := .placed, member := m, row := s.openRow, dir := (r.chunks.getD m []).length, vis := d.nextVis }
  { d with spn := { d.spn with placed := d.spn.placed + 1 } }

/-- CHUNK_PLACE (R137): a sealed chunk, in its session's order, goes into the open row; a span set that takes no more
rows leaves it unplaced, and its records never reach tape (R313). -/
def execChunkPlace (chunk : Nat) (s : State) : Host.Outcome State Fault Refusal :=
  nextDev s fun d =>
    match tget d.ses.chunks chunk with
    | none => d
    | some c =>
      match d.spanAt c.span with
      | none => d
      | some sp =>
        if c.st = .sealed ∧ c.vis ≤ d.clk ∧ d.inSequence chunk c ∧ d.spn.placed < placeMax ∧ ! d.stalls blkPkr 0 1 then
          match tget sp.rows sp.openRow with
          | some r =>
            if r.st = .gathering then
              match d.memberFor sp r c with
              | some m => d.placeIn chunk c.span m c sp r
              | none => d
            else d
          | none =>
            if sp.readOnly ∨ sp.full then (d.releaseAll (c.stored.toList ++ c.ovf) 4).loseChunks [chunk] else d
        else d

/-! ### Closing a row (R138) -/

/-- The next chunk of some session fits none of the open data sets. -/
def Dev.rowFull (d : Dev) (slot : Nat) (s : Span) (r : Row) : Bool :=
  d.ses.chunks.any fun c => c.2.span == slot && c.2.st == .sealed && decide (c.2.vis ≤ d.clk) && d.inSequence c.1 c.2 && (d.memberFor s r c.2).isNone

/-- A SYNC wants the open row closed (R138): all that it covers has been placed, and some of it lies in the open row. -/
def Dev.rowForSync (d : Dev) (slot : Nat) (s : Span) : Bool :=
  d.rte.cmds.any fun k => k.2.op == opSync && k.2.adm.isSome && ! k.2.answered &&
    (let cs := (d.sesChunks k.2.session).filter fun c => c.2.pieces.any fun p => decide (p.ord < k.2.bound)
     decide (k.2.bound ≤ d.takenBelow k.2.session) && cs.all (fun c => c.2.st.final || c.2.st == .placed)
       && cs.any fun c => c.2.st == .placed && c.2.span == slot && c.2.row == s.openRow)

/-- ROW_CLOSE (R138, R302): the open data sets close together, unless the skew limit holds them. -/
def execRowClose (slot : Nat) (s : State) : Host.Outcome State Fault Refusal :=
  nextDev s fun d =>
    match d.spanAt slot with
    | none => d
    | some sp =>
      match tget sp.rows sp.openRow with
      | none => d
      | some r =>
        if r.st = .gathering ∧ sp.mayClose then
          if d.rowFull slot sp r then d.closeRow slot false false
          else if d.rowForSync slot sp then d.closeRow slot true true
          else if sp.closeReq then d.closeRow slot true false
          else d
        else d

/-- AGE of an open row (R140). -/
def Dev.rowAge (d : Dev) : Nat := d.fldZ Fld.pkrDsCfgAge 0 1048575

/-- ROW_AGE_EXPIRY (R138): AGE ticks have passed since the row's first placement. -/
def execRowAgeExpiry (slot : Nat) (s : State) : Host.Outcome State Fault Refusal :=
  nextDev s fun d =>
    match d.spanAt slot with
    | none => d
    | some sp =>
      match (tget sp.rows sp.openRow).bind (·.firstAt) with
      | some t => if t + d.rowAge ≤ d.clk ∧ sp.mayClose then d.closeRow slot true false else d
      | none => d

/-! ### Payloads (R130, R133, R135, R139) -/

/-- The content part (R133), bytes 256 to 511. -/
def contentPart (chunks used : Nat) (dir : List Byte) : List Byte :=
  withCrc32c (leBytes 4 (16 * chunks) ++ leBytes 2 chunks ++ zeros 2 ++ leBytes 4 used ++ leBytes 4 (crc32c dir).toNat ++ zeros 236)

/-- A directory entry (R135); `off` is the payload offset of the chunk. -/
def dirEntry (c : Chunk) (off : Nat) : List Byte :=
  let fl := b2n ((c.pieces.head?.map (·.first)).getD false) + 2 * b2n ((c.pieces.getLast?.map (·.last)).getD false) + 4 * b2n c.torn
    + 8 * b2n (c.pieces.any (·.mark))
  leBytes 3 c.session ++ leBytes 1 fl ++ leBytes 2 c.tenant ++ leBytes 5 ((c.pieces.head?.map (·.ord)).getD 0) ++ leBytes 3 (off / 16)
    ++ leBytes 2 (c.extent / 16)

/-- The payload offset of each chunk of a data set, in placement order. -/
def Dev.chunkOffs (d : Dev) (ids : List Nat) : List (Nat × Chunk × Nat) :=
  let cs := ids.filterMap fun i => (tget d.ses.chunks i).map fun c => (i, c)
  (cs.foldl (fun (acc : Nat × List (Nat × Chunk × Nat)) x => (acc.1 + x.2.extent, acc.2 ++ [(x.1, x.2, acc.1)])) (512 + 16 * cs.length, [])).2

/-- The bytes of a chunk's extent (R127, R139): its header and stored bytes, or zeros where it was lost to poison. -/
def Dev.extentBytes (d : Dev) (h : Hbm) (c : Chunk) : List Byte :=
  if c.st = .lost ∨ c.st = .dropped then zeros c.extent
  else
    match c.stored with
    | some b => padTo c.extent ((d.bufBytes h b 0 32 blkPkr).2.1 ++ (d.readStored h c c.storedLen blkPkr).2.1)
    | none => zeros c.extent

/-- The payload of a data member's data set (R130, R139). -/
def Dev.payload (d : Dev) (h : Hbm) (ident : List Byte) (ids : List Nat) : List Byte :=
  let cs := d.chunkOffs ids
  let dir := cs.flatMap fun (_, c, off) => dirEntry c off
  let used := 512 + dir.length + (cs.map fun x => x.2.1.extent).foldl (· + ·) 0
  padTo payloadLen (padTo 256 ident ++ contentPart cs.length used dir ++ dir ++ cs.flatMap fun x => d.extentBytes h x.2.1)

/-- A chunk of the data set that the packer finds poisoned as it assembles (R127): in a pair it waits for the partner's
copy, otherwise its extent is zeros and it is lost. True when assembly may go on. -/
def Dev.assemblyPoison (d : Dev) (h : Hbm) (ids : List Nat) : Dev × Bool :=
  ids.foldl (fun (acc : Dev × Bool) id =>
    let (d, ok) := acc
    match tget d.ses.chunks id with
    | none => acc
    | some c =>
      if c.st ≠ .placed then acc
      else if c.poisoned then (d, false)
      else
        let (_, _, p) := d.readStored h c c.storedLen blkPkr
        let p0 := match c.stored with
          | some b => (d.bufBytes h b 0 32 blkPkr).2.2
          | none => false
        if p || p0 then
          if d.paired ∧ d.fld Fld.fabPairStatState = 2 then (d.modChunk id fun c => { c with poisoned := true }, false)
          else (d.modChunk id fun c => { c with st := .lost, why := stBufferPoison }, ok)
        else acc) (d, true)

/-- Assembly of one tick (R139). -/
def assemblyMax : Nat := 1048576

/-- Rows whose data members' payloads are being assembled, oldest first: slot and row number. -/
def Dev.assembling (d : Dev) : List (Nat × Nat) :=
  d.spn.slots.flatMap fun s => (s.2.rows.filter fun r => r.2.st == .writing && decide (r.2.assembled < (s.2.descOf r.1).k * payloadLen)).map fun r => (s.1, r.1)

/-- Assemble up to `budget` bytes of a row: those of the member in turn. The stored buffers of a member's chunks are
freed when its payload is complete (R489). -/
def assembleRow (hd : Hbm × Dev) (slot n : Nat) : Nat → Nat → (Hbm × Dev) × Nat
  | 0, budget => (hd, budget)
  | fuel + 1, budget =>
    let (h, d) := hd
    match d.spanAt slot with
    | none => (hd, budget)
    | some s =>
      match tget s.rows n with
      | none => (hd, budget)
      | some r =>
        let i := r.assembled / payloadLen
        let off := r.assembled % payloadLen
        if budget = 0 ∨ (s.descOf n).k ≤ i then (hd, budget)
        else
          match r.bufs.getD i none with
          | none => (hd, budget)
          | some b =>
            let ids := r.chunks.getD i []
            let (d, ok) := d.assemblyPoison h ids
            if ! ok then ((h, d), budget)
            else
              let len := min budget (payloadLen - off)
              let (h, d) := bufWrite (h, d) b off (slice (d.payload h (r.idents.getD i []) ids) off len) false
              let d := d.modSpan slot fun s => { s with rows := tmod s.rows n fun r => { r with assembled := r.assembled + len } }
              let d := if off + len = payloadLen then ids.foldl (fun d c => d.freeStored c) d else d
              assembleRow (h, d) slot n fuel (budget - len)

/-- The closed rows of a span set that wait for their staging queues and whose data payloads are in buffer, up to the first one
that is still being assembled. -/
def Span.toStage (s : Span) : List Nat :=
  (((s.rows.filter fun r => r.2.st == .writing && ! r.2.staged).takeWhile fun r => decide ((s.descOf r.1).k * payloadLen ≤ r.2.assembled))).map (·.1)

/-- Rows enter the staging queues in increasing order (R303), each at the boundary at which its data payloads are all in buffer, as
R301 has them at closure (notes/assumptions/179.md). -/
def Dev.stageTick (d : Dev) (slot : Nat) : Dev := (((d.spanAt slot).map Span.toStage).getD []).foldl (fun d n => d.stageRow slot n) d

/-- PAYLOAD_ASSEMBLY of one tick, rows in turn (R139). -/
def assembleTick (hd : Hbm × Dev) : Hbm × Dev :=
  let (h, d) := (hd.2.assembling.foldl (fun (acc : (Hbm × Dev) × Nat) x => assembleRow acc.1 x.1 x.2 4 acc.2) (hd, assemblyMax)).1
  (h, (d.spn.slots.map (·.1)).foldl Dev.stageTick d)

/-! ### Poisoned payload words (R340) -/

/-- The data set whose payload buffer holds byte address `a`: slot, row, member, offset in the payload. -/
def Dev.payloadAt (d : Dev) (a : Nat) : Option (Nat × Nat × Nat × Nat) :=
  d.spn.slots.findSome? fun s => s.2.rows.findSome? fun r => r.2.bufs.zipIdx.findSome? fun (b, i) =>
    match b with
    | some h => if d.bufAddr h ≤ a ∧ a < d.bufAddr h + payloadLen then some (s.1, r.1, i, a - d.bufAddr h) else none
    | none => none

/-- The chunks of a data set that a lost word of its payload takes with it (R340): those whose extent contains it, or
all of them for a word of the header or directory. -/
def Dev.chunksAt (d : Dev) (ids : List Nat) (off : Nat) : List Nat :=
  let cs := d.chunkOffs ids
  if off < 512 + 16 * cs.length then ids
  else (cs.filter fun x => decide (x.2.2 < off + 32) && decide (off < x.2.2 + x.2.1.extent)).map (·.1)

/-- A payload word is lost (R340): 32 zero bytes to the encoder and to SPN; its chunks fail after BUFFERED. -/
def payloadLost (hd : Hbm × Dev) (w : Nat) : Hbm × Dev :=
  match hd.2.payloadAt (32 * w) with
  | none => hd
  | some (slot, n, i, off) =>
    let (h, d) := memPut hd w (zeros 32) false
    let ids := ((((d.spanAt slot).bind fun s => tget s.rows n).map fun r => r.chunks.getD i []).getD [])
    (h, (d.chunksAt ids off).foldl (fun d c => d.modChunk c fun c => if c.st.final then c else { c with st := .lost, why := stBufferPoison }) d)

/-- The words of a payload that the encoder or SPN consumes and that are poisoned. -/
def poisonWords (hd : Hbm × Dev) (b : BitVec 32) (off len : Nat) : List Nat :=
  let a := hd.2.bufAddr b + off
  ((List.range ((a + len - 1) / 32 + 1 - a / 32)).map fun i => a / 32 + i).filter fun w => (hd.1.classify w).2.2

/-- What consuming poisoned words of a staged payload does (R340): in a protected pair the step waits for the partner's copy, otherwise the
words count as zeros and their chunks are lost. True when the step may go on. -/
def payloadPoison (hd : Hbm × Dev) (words : List Nat) : (Hbm × Dev) × Bool :=
  if words = [] then (hd, true)
  else if hd.2.fld Fld.fabPairStatState = 2 then (hd, false)
  else (words.foldl payloadLost hd, true)

/-! ### Parity (R298, R300) -/

/-- Parity rows of one tick for a span set (R300). -/
def parityRows : Nat := 224

/-- The payload offset of the `t`-th parity row in region order: base position by base position (R300). -/
def parityOff (t : Nat) : Nat := t % 64 * 51968 + t / 64 * 464

/-- Produce parity row `t` of a row: 464 bytes of P, and of Q, with the parity member's own identity part. -/
def parityRow (hd : Hbm × Dev) (s : Span) (n : Nat) (r : Row) (t : Nat) : Hbm × Dev :=
  let x := s.descOf n
  let off := parityOff t
  let (d, cols) := (List.range x.k).foldl (fun (acc : Dev × List (List Byte)) i =>
    match r.bufs.getD i none with
    | some b =>
      let (d, bs, _) := acc.1.bufBytes hd.1 b off 464 blkSpn
      (d, acc.2 ++ [bs])
    | none => (acc.1, acc.2 ++ [zeros 464])) (hd.2, [])
  (List.range x.p).foldl (fun hd j =>
    match r.bufs.getD (x.k + j) none with
    | some b =>
      let bs := if j = 0 then parityP cols else parityQ cols
      let own := slice (r.idents.getD (x.k + j) []) off 464
      bufWrite hd b off (own ++ bs.drop own.length) false
    | none => hd) (hd.1, d)

/-- Up to `m` parity rows from row `t` on, as far as no poisoned source word has to be waited for (R340); and how many were made. -/
def parityGo (s : Span) (n : Nat) (r : Row) : Nat → Hbm × Dev → Nat → (Hbm × Dev) × Nat
  | 0, hd, _ => (hd, 0)
  | m + 1, hd, t =>
    let bad := (List.range (s.descOf n).k).flatMap fun i => match r.bufs.getD i none with
      | some b => poisonWords hd b (parityOff t) 464
      | none => []
    let (hd, ok) := payloadPoison hd bad
    if ok then
      let (hd, k) := parityGo s n r m (parityRow hd s n r t) (t + 1)
      (hd, k + 1)
    else (hd, 0)

/-- Parity rows of a stripe row in all (R300). -/
def parityTotal : Nat := 7168

/-- SPN_PARITY of one span set (R300): its oldest row whose data payloads are assembled. The second component is what the tick's
budget has left. -/
def parityTick (hd : Hbm × Dev) (slot : Nat) : (Hbm × Dev) × Nat :=
  match hd.2.spanAt slot with
  | none => (hd, parityRows)
  | some s =>
    match s.rows.find? fun r => r.2.st == .writing && decide (0 < (s.descOf r.1).p) && decide ((s.descOf r.1).k * payloadLen ≤ r.2.assembled)
        && decide (r.2.parity < parityTotal) && (r.2.bufs.drop (s.descOf r.1).k).all (·.isSome) with
    | none => (hd, parityRows)
    | some (n, r) =>
      let ((h, d), m) := parityGo s n r (min parityRows (parityTotal - r.parity)) hd r.parity
      ((h, d.modSpan slot fun s => { s with rows := tmod s.rows n fun r => { r with parity := r.parity + m } }), parityRows - m)

/-- The budget of a tick goes to reconstructions of a slot in order; what is left comes back (R300). -/
def reconWork (slot : Nat) : List Recon → Nat → List Recon × Nat
  | [], left => ([], left)
  | r :: rs, left =>
    match r.made with
    | some n =>
      if r.slot = slot ∧ r.out.isNone ∧ ! r.failed then
        let m := min left (parityTotal - n)
        let (rs, left) := reconWork slot rs (left - m)
        ({ r with made := some (n + m) } :: rs, left)
      else
        let (rs, left) := reconWork slot rs left
        (r :: rs, left)
    | none =>
      let (rs, left) := reconWork slot rs left
      (r :: rs, left)

/-- Reconstruction for reading, then for a rebuild, with what parity has left of a tick (R300). -/
def Dev.reconTick (d : Dev) (slot left : Nat) : Dev :=
  let (rs, left) := reconWork slot d.spn.recons left
  let d : Dev := { d with spn := { d.spn with recons := rs } }
  d.modSpan slot fun s => { s with rebuild := s.rebuild.map fun r => { r with made := r.made.map fun n => min parityTotal (n + left) } }

/-- The payload buffer of a staged data set. -/
def Dev.payloadBuf (d : Dev) (ds : DsWr) : Option (BitVec 32) :=
  if ds.rebuilt then some ds.payload
  else if ds.started then (if ds.payload = nullHandle then none else some ds.payload)
  else ((d.spanAt ds.slot).bind fun s => tget s.rows ds.row).bind fun r => r.bufs.getD ds.member none

/-! ### Members on peers (R326) -/

/-- Send a row's data sets to members on peers, once their payloads are complete (R326). -/
def Dev.sendPeers (d : Dev) (h : Hbm) (n : Nat) (r : Row) (s : Span) : Dev :=
  (s.live n r).foldl (fun d i =>
    match d.memberTp s n i, r.bufs.getD i none with
    | none, some b =>
      let ws := (d.bufWords h b payloadLen blkSpn).2
      let e := (s.descOf n).members.getD i 0
      (((pieces 2048 ws.bytes).zip (pieces 64 ws.poison)).zipIdx).foldl (fun d ((x, p), j) =>
        d.fabSend (entryAddr e) 3 0x30 0 (.memberData (entryTp e) n (2048 * j) { bytes := x, poison := p } (decide (payloadLen ≤ 2048 * (j + 1))))) d
    | _, _ => d) d

/-- A data set that a peer has sent carries 16 plus the peer's address in place of a slot (R326). -/
def spanSlotMax : Nat := 16

/-- WRITTEN and VERIFIED of a peer's data set return to it (R326), with the transport's wrap (R131) and the time on tape of the
data set (R67), which the manual asks the home device to know (notes/assumptions/171.md). -/
def Dev.peerStatus (d : Dev) (slot t row : Nat) (written verified : Bool) (time : Nat) : Dev :=
  d.fabSend (slot - spanSlotMax) 3 0x31 0 (.memberStatus t row written verified (d.wrAt t).wrap time)

/-- MEMBER_STATUS_FRAME (R326): WRITTEN and VERIFIED of a member on a peer, or the return of a read. -/
def execMemberStatusFrame (slot row member : Nat) (report : PeerReport) (verified : Bool) (payload : Option (List Byte)) (s : State) :
    Host.Outcome State Fault Refusal :=
  nextDev s fun d =>
    match d.spanAt slot with
    | none => d
    | some sp =>
      if (sp.descOf row).width ≤ member ∨ (d.memberTp sp row member).isSome then d
      else
        let d := d.modSpan slot fun s => s.modMember row member fun m => { m with wrap := some (report.wrap % 65536) }
        let d := match report.written with
          | some time => (d.modSpan slot fun s => { s with rows := tmod s.rows row fun r => { r with times := r.times.set member time } }).memberWritten slot row member
          | none => d
        let d := if verified then d.memberVerified slot row member else d
        match payload with
        | some bs => d.modSpan slot fun s => { s with peerData := s.peerData.filter (fun x => ! (x.1 == row && x.2.1 == member)) ++ [(row, member, bs)] }
        | none => d

/-! ### Slow members and the periodic record (R305, R310) -/

/-- TIMEOUT of a span set (R310, R328). -/
def Dev.slowLimit (d : Dev) (slot : Nat) : Nat := d.fldIn Fld.spnSetCfgTimeout slot 500 500000

/-- The members that lack VERIFIED for row C while another live member holds it. -/
def Span.lacking (s : Span) : List Nat :=
  match tget s.rows s.c with
  | some r => if r.st = .writing ∧ r.firstVer.isSome then (s.live s.c r).filter fun i => ! r.verified.getLsbD i else []
  | none => []

/-- A read holds the member's slow count (R310, R451). -/
def Dev.heldByRead (d : Dev) (s : Span) (i : Nat) : Bool :=
  match d.memberTp s s.c i with
  | some t => (d.rdAt t).held.isSome
  | none => false

/-- The slow-member counts of one tick (R310). -/
def Dev.slowTick (d : Dev) (slot : Nat) : Dev :=
  match d.spanAt slot with
  | none => d
  | some s =>
    let up := s.lacking.filter fun i => ! d.heldByRead s i
    d.modSpan slot fun s => up.foldl (fun s i => s.modMember s.c i fun m => { m with slow := m.slow + 1 }) s

/-- A peer cannot be reached over the fabric. -/
def Dev.unreachable (d : Dev) (e : Nat) : Bool := (d.entryLocal e).isNone && ((tgetD d.fab.routes (entryAddr e) []).isEmpty)

/-- SLOW_MEMBER_TIMEOUT (R310): the count of a member has reached TIMEOUT. -/
def execSlowMemberTimeout (slot member : Nat) (s : State) : Host.Outcome State Fault Refusal :=
  nextDev s fun d =>
    match d.spanAt slot with
    | none => d
    | some sp =>
      if sp.lacking.contains member ∧ d.slowLimit slot ≤ ((sp.memsOf sp.c).getD member {}).slow then
        d.memberFail slot member (if d.unreachable ((sp.descOf sp.c).members.getD member 0) then 5 else 1)
      else d

/-- JOURNAL_PERIOD (R305): PERIOD ticks have passed and C has advanced since the last record. -/
def execJournalPeriod (slot : Nat) (s : State) : Host.Outcome State Fault Refusal :=
  nextDev s fun d =>
    match d.spanAt slot with
    | none => d
    | some sp => if sp.jrnlAt + d.fld1 Fld.spnJrnlCfgPeriod ≤ d.clk ∧ sp.jrnlC < sp.c then d.journal slot 1 false else d

/-! ### Poisoned payload words -/

/-- PAYLOAD_WORD_REFETCH (R340): the partner's word replaces a poisoned word of a payload, or the word is lost. -/
def execPayloadWordRefetch (addr : Nat) (word : Option (List Byte)) (s : State) : Host.Outcome State Fault Refusal :=
  if hbmWords ≤ addr then .fault (.badAddress addr)
  else
    nextHd s fun hd =>
      if (hd.2.payloadAt (32 * addr)).isSome ∧ (hd.1.classify addr).2.2 then
        match word with
        | some bs => memPut hd addr (padTo 32 bs) false
        | none => payloadLost hd addr
      else hd

end Sys2Proof.Machine
end

