-- ==== Sys2Proof/Machine/Port.lean ====
section
/-! DEFINITION. Transport ports (R169 to R195): the upstream cycle, link state, requests to the transport, the identity
record and the volume record. -/

namespace Sys2Proof.Machine

/-! ### The upstream cycle (R173, R180, R182) -/

/-- Samples as a bit string, first sample first, each of `w` bits from its top bit (R179). -/
def sampleBits (w : Nat) (l : List Int) : List Bool :=
  l.flatMap fun x => (List.range w).map fun i => bitOf (ofSigned w x) (w - 1 - i)

/-- The bits of a block's content, bit 63 first (R170). -/
def wordBits (w : BitVec 64) : List Bool := (List.range 64).map fun i => w.getLsbD (63 - i)

/-- The bytes of blocks in content order, eight to a block (R170). -/
def wordBytes (ws : List (BitVec 64)) : List Byte := ws.flatMap fun w => beBytes 8 w.toNat

/-- The number that bits spell, the first one its top bit. -/
def bitsNat (bs : List Bool) : Nat := bs.foldl (fun a b => 2 * a + b2n b) 0

/-- `n` samples of `w` bits packed from the start of a section's blocks (R179), as bare numbers. -/
def packed (w n : Nat) (ws : List (BitVec 64)) : List Nat := ((pieces w (ws.flatMap wordBits)).take n).map bitsNat

/-- Content blocks of a lane, and of a cycle (R179). -/
def laneBlocks : Nat := 12334

/-- A control block of a type that the link uses, or a data block (R170). -/
def blockKnown : LinkBlock → Bool
  | .data _ => true
  | .ctrl ty _ => ty == 0x1E#8 || ty == 0x2D#8

/-- The content of a data block. -/
def blockWord : LinkBlock → Option (BitVec 64)
  | .data w => some w
  | .ctrl _ _ => none

/-- The 56 bits of a CYCLE_START (R170). -/
def startBits : LinkBlock → Option (BitVec 56)
  | .ctrl ty b => if ty = 0x2D#8 then some b else none
  | .data _ => none

/-- The content of a lane: its CYCLE_START, then data blocks only. -/
def laneContent (l : List LinkBlock) : Option (List (BitVec 64)) :=
  match l with
  | [] => none
  | b :: rest =>
    let ws := (rest.take laneBlocks).filterMap blockWord
    if (startBits b).isSome ∧ ws.length = laneBlocks then some ws else none

/-- Three lanes taken in turn: logical block j stands on lane j mod 3 (R179). -/
def threeWay : List (BitVec 64) → List (BitVec 64) → List (BitVec 64) → List (BitVec 64)
  | a :: as, b :: bs, c :: cs => a :: b :: c :: threeWay as bs cs
  | _, _, _ => []

/-- The 37,002 logical blocks of a cycle (R179); none when it holds an invalid control block (R170, R182). -/
def cycleContent (c : UpCycle) : Option (List (BitVec 64)) :=
  if c.lanes.all fun l => l.all blockKnown then
    match c.lanes.map laneContent with
    | [some a, some b, some e] => some (threeWay a b e)
    | _ => none
  else none

/-- The tick that a cycle's CYCLE_START names (R171). -/
def cycleTick (c : UpCycle) : Option Nat := ((c.lanes.head?.bind (·.head?)).bind startBits).map fun b => bits b.toNat 0 48

/-- Blocks `from_` to `from_ + n - 1`. -/
def blocksAt (ws : List (BitVec 64)) (from_ n : Nat) : List (BitVec 64) := (ws.drop from_).take n

/-- The 112 bytes of the status (R179, R180). -/
def statusOf (ws : List (BitVec 64)) : List Byte := wordBytes (ws.take 14)

/-- The sample CRC passes (R179): bits 31:0 of the last block against blocks 14 to 37,000. -/
def sampleCrcOk (ws : List (BitVec 64)) : Bool :=
  (crc32c (wordBytes (blocksAt ws 14 36987))).toNat == bits ((ws.getD 37001 0).toNat) 0 32

/-- The sample sections of a cycle, by the counts in its status (R179, R180). -/
def UpIn.withSamples (x : UpIn) (ws : List (BitVec 64)) (st : List Byte) : UpIn :=
  let n := leAt st 26 1
  let power := packed 16 (5 * n) (blocksAt ws 36974 27)
  { x with
    read := some ((List.range 64).map fun c => (packed 6 (leAt st 22 2) (blocksAt ws (14 + 554 * c) 554)).map (toSigned 6))
    servo := some ((List.range 4).map fun v => (packed 12 (leAt st 24 2) (blocksAt ws (35470 + 376 * v) 376)).map (toSigned 12))
    power := some ((List.range 5).map fun i => ((power.drop (n * i)).take n).map fun v => if i = 0 then ((v : Nat) : Int) else toSigned 16 v) }

/-- The status passes its check and is of the length of R180. -/
def statusOk (st : List Byte) : Bool := decide (st.length = 112) && crc32cOk st

/-- `a` comes before `b` in 32-bit serial order (R183). -/
def serialLt (a b : Nat) : Bool := decide (1 ≤ (b + 2 ^ 32 - a % 2 ^ 32) % 2 ^ 32) && decide ((b + 2 ^ 32 - a % 2 ^ 32) % 2 ^ 32 < 2 ^ 31)

/-- WR_EXPECT lies below the offset that the cycles applied so far had reached (R178): the bits are sent again from
there. Cycles already on their way carry a later offset and will be discarded. -/
def Dev.resend (d : Dev) (t e : Nat) : Dev :=
  let p := d.tpAt t
  match p.kept.find? fun k => decide (k.1 + 1 ≤ d.clk) with
  | some (_, o) =>
    if serialLt e (o % 2 ^ 32) then
      let back := (o - e) % 2 ^ 32
      d.modTp t fun p => { p with off := o - back, kept := p.kept.map fun k => (k.1, o - back) }
    else d
  | none => d

/-- What the status says of its interval (R180). -/
def statusIn (st : List Byte) (late : Bool) : UpIn :=
  { valid := true, late := late, zcOvf := bitOf (leAt st 6 1) 5, count := leAt st 22 2
    zc := (List.range (min 16 (leAt st 27 1))).map fun i => BitVec.ofNat 16 (leAt st (64 + 2 * i) 2) }

/-- The response that the status carries (R180, R188). -/
def statusRsp (st : List Byte) : Rsp :=
  { id := BitVec.ofNat 8 (leAt st 28 1), status := BitVec.ofNat 8 (leAt st 29 1), data := slice st 32 (min 32 (leAt st 30 1)) }

/-- Take the status of an upstream cycle into the port (R178, R180, R183). -/
def Dev.takeStatus (d : Dev) (t : Nat) (st : List Byte) (rtt : Nat) : Dev :=
  let state := leAt st 6 1
  let own := leAt st 7 1
  let owner := if bitOf own 1 then some (bitOf own 0) else none
  let old := d.tpAt t
  let disc := (leAt st 20 2 + 65536 - old.wrDiscard) % 65536
  let d := d.modTp t fun p => { p with
    curEpoch := BitVec.ofNat 32 (leAt st 8 4), ownerPort := owner, fifo := leAt st 16 4, wrDiscard := leAt st 20 2
    expect := leAt st 12 4, pwrFault := bitOf state 4, rsp := statusRsp st
    under := if bitOf state 3 then p.under + 1 else 0 }
  let d := d.resend t (leAt st 12 4)
  let d := d.setFlag Fld.tpLinkStatSafeHold t (bitOf state 0)
  let d := d.setFlag Fld.tpLinkStatHoldover t (bitOf state 1)
  let d := d.setFlag Fld.tpLinkStatCart t (bitOf state 2)
  let d := d.setFlag Fld.tpLinkStatUnderrun t (bitOf state 3)
  let d := d.setFlag Fld.tpLinkStatOwner t (decide (owner = some old.myPort))
  let d := d.setFld Fld.tpLinkStatRtt t rtt
  let d := d.bump Fld.tpLinkErrDiscard t disc
  if owner = some (! old.myPort) ∧ ! serialLt (leAt st 8 4) (d.fld Fld.tpTokenEpochEpoch t) then d.setFlag Fld.tpTokenClaim t false else d

/-- A cycle describes the interval before the one that is due (R173): it answers the cycle sent in the tick before. -/
def Dev.cycleLate (d : Dev) (t : Nat) (c : UpCycle) : Bool :=
  match cycleTick c with
  | some n => decide ((n + 1) % 2 ^ 48 = (d.tpAt t).sent.toNat) && decide ((n + 1) % 2 ^ 48 ≠ d.tick.toNat)
  | none => false

/-- An interval has come. -/
def Dev.putIn (d : Dev) (t : Nat) (x : UpIn) : Dev := d.modTp t fun p => { p with ins := p.ins ++ [x] }

/-- UPSTREAM_CYCLE (R173, R182): the cycle is discarded whole, or its samples are, or it is taken. A late one is counted. -/
def Dev.upstream (d : Dev) (t : Nat) (c : UpCycle) : Dev :=
  let late := d.cycleLate t c
  let d := if late then d.bump Fld.tpLinkErrLate t else d
  match (cycleContent c).filter fun ws => statusOk (statusOf ws) with
  | none => (d.bump Fld.tpLinkErrBadStatus t).putIn t { late := late }
  | some ws =>
    let st := statusOf ws
    let d := (d.takeStatus t st c.rtt).modTp t fun p => { p with took := p.took || ! late }
    if sampleCrcOk ws then d.putIn t ((statusIn st late).withSamples ws st)
    else (d.bump Fld.tpLinkErrBadSamples t).putIn t (statusIn st late)

/-- The intervals of a boundary in order (R173): one that was still to come is taken now, late, or is lost; the one due now may be
still to come. The second component says so. -/
def orderIns (owed : Bool) (ins : List UpIn) : List UpIn × Bool :=
  let old := ins.filter (·.late)
  let now := ins.filter fun x => ! x.late
  ((if owed then (if old = [] then [{ late := true }] else old) else []) ++ now, now == [])

/-- The port's count of valid cycles and of ticks without one, at a boundary (R186). -/
def Dev.portTick (d : Dev) (t : Nat) : Dev :=
  d.modTp t fun p => if p.took then { p with good := min 8 (p.good + 1), miss := 0, took := false } else { p with good := 0, miss := p.miss + 1 }

/-! ### Requests (R188) -/

/-- Put a waiting request into the header when none is in progress. -/
def Dev.reqStart (d : Dev) (t : Nat) : Dev :=
  d.modTp t fun p =>
    match p.req, p.waiting with
    | none, r :: rest => { p with req := some { r with id := p.lastId + 1, since := d.clk }, waiting := rest, lastId := p.lastId + 1 }
    | _, _ => p

/-- Ask for a transfer. -/
def Dev.request (d : Dev) (t : Nat) (use : ReqUse) (op addr len : Nat) (data : List Byte) : Dev :=
  (d.modTp t fun p => { p with waiting := p.waiting ++
    [{ use := use, op := op, id := 0, addr := addr, firstAddr := addr, len := len, data := data, since := d.clk }] }).reqStart t

/-- The payload of a LINK_REQUEST_FAIL record (R188, R433, R490). -/
def reqFailItems (t : Nat) (r : Req) : List Word64 :=
  [item t, item r.op, item r.addr, item (r.tried.getD 0).toNat, item r.id.toNat, item r.lastStatus.toNat]

/-- A request fails: it is tried once more with a new REQ_ID, then a cellar record is written (R188). -/
def Dev.reqFailed (d : Dev) (t : Nat) (r : Req) : Dev :=
  match r.tried with
  | none => d.modTp t fun p => { p with req := some { r with tried := some r.id, id := p.lastId + 1, since := d.clk, lastStatus := 0xFF }, lastId := p.lastId + 1 }
  | some _ =>
    ((d.modTp t fun p => { p with req := none, reqFail := true }).cellar blkTp t 0xCA (itemsPayload (reqFailItems t r))).reqStart t

/-! ### The volume record (R193, R194) -/

/-- A copy of the volume record is valid (R194). -/
def volOk (v : List Byte) : Bool := decide (v.length = 128) && leAt v 0 4 == 0x5A564F4C && crc32cOk v

/-- The index of the copy in force (R194). -/
def volIndex (vs : List (List Byte)) : Option Nat :=
  let a := vs.getD 0 []
  let b := vs.getD 1 []
  if volOk a then (if volOk b ∧ leAt a 4 4 < leAt b 4 4 then some 1 else some 0) else if volOk b then some 1 else none

/-- The volume record in force. -/
def Tp.volRec (p : Tp) : Option (List Byte) := (volIndex p.vol).map fun i => p.vol.getD i []

/-- A volume record (R193). -/
def volBytes (gen : Nat) (vol : BitVec 64) (salt : BitVec 32) (epoch eod span member k p shapeEpoch : Nat) : List Byte :=
  withCrc32c (leBytes 4 0x5A564F4C ++ leBytes 4 gen ++ leBytes 8 vol.toNat ++ leBytes 4 salt.toNat ++ leBytes 3 epoch ++ zeros 1
    ++ leBytes 6 eod ++ leBytes 2 span ++ leBytes 1 member ++ leBytes 1 k ++ leBytes 1 p ++ zeros 1 ++ leBytes 2 shapeEpoch ++ zeros 86)

/-- VOLUME_ID of a record. -/
def volId (v : List Byte) : BitVec 64 := BitVec.ofNat 64 (leAt v 8 8)
/-- WRITE_EPOCH of a record. -/
def volEpoch (v : List Byte) : Nat := leAt v 20 3
/-- EOD of a record. -/
def volEod (v : List Byte) : Nat := leAt v 24 6

/-- The span set and member that a transport serves. -/
def Dev.servedBy (d : Dev) (t : Nat) : Option (Nat × Nat) := (d.tpAt t).mounted.map fun m => (m.1, m.2.1)

/-- The record that an update makes of the one in force: GEN one greater, the changed fields, and the shape in force. -/
def Dev.volNext (d : Dev) (t : Nat) (v : List Byte) (u : VolUpd) : List Byte :=
  let x := ((d.servedBy t).bind fun m => (d.spanAt m.1).map fun s => (s.desc, m.2))
  let (span, member, k, p, ep) := match x with
    | some (x, m) => (x.id, m, x.k, x.p, x.epoch)
    | none => (leAt v 30 2, leAt v 32 1, leAt v 33 1, leAt v 34 1, leAt v 36 2)
  volBytes (leAt v 4 4 + 1) (volId v) (BitVec.ofNat 32 (leAt v 16 4)) (u.epoch.getD (volEpoch v)) (u.eod.getD (volEod v)) span member k p ep

/-- Make the oldest update due on a transport (R194): the other copy is written, in 32-byte requests. -/
def Dev.volStart (d : Dev) (t : Nat) : Dev :=
  let p := d.tpAt t
  match p.upd with
  | [] => d
  | u :: rest =>
    if p.req.isSome ∨ p.waiting ≠ [] ∨ ! d.flag Fld.tpLinkStatUp t then d
    else
      let i := (volIndex p.vol).getD 1
      let target := match u.whole with
        | some _ => 0
        | none => 1 - i
      match u.whole, p.volRec with
      | some w, _ => (d.modTp t fun p => { p with upd := rest }).request t (.writeVol target w) 2 (0x400 + 0x80 * target) 128 w
      | none, some v =>
        let w := d.volNext t v u
        (d.modTp t fun p => { p with upd := rest }).request t (.writeVol target w) 2 (0x400 + 0x80 * target) 128 w
      | none, none => d.modTp t fun p => { p with upd := rest }

/-- A write epoch has reached a member's cartridge (R119). -/
def Dev.epochWritten (d : Dev) (t : Nat) (w : List Byte) : Dev :=
  match d.servedBy t with
  | some (slot, m) => d.modSpan slot fun s => if s.epoch.reserve < volEpoch w then { s with epoch := { s.epoch with have_ := mset s.epoch.have_ m } } else s
  | none => d

/-- A request has completed with its bytes. -/
def Dev.reqDone (d : Dev) (t : Nat) (r : Req) : Dev :=
  let d := d.modTp t fun p => { p with req := none }
  let d := match r.use with
    | .identity => d.modTp t fun p => { p with link := r.got }
    | .readVol c => d.modTp t fun p => { p with vol := p.vol.set c r.got }
    | .writeVol c w => (d.modTp t fun p => { p with vol := p.vol.set c w }).epochWritten t w
  (d.reqStart t).volStart t

/-- A response (R188): 0xFF means pending, 0 ends a 32-byte request, and anything else fails it. -/
def Dev.linkResponse (d : Dev) (t : Nat) (id status : BitVec 8) (data : List Byte) : Dev :=
  match (d.tpAt t).req with
  | none => d
  | some r =>
    if r.id ≠ id then d
    else
      let r := { r with lastStatus := status }
      if status = 0xFF then d.modTp t fun p => { p with req := some r }
      else if status ≠ 0 then d.reqFailed t r
      else
        let n := min 32 r.len
        let r := { r with addr := r.addr + n, len := r.len - n, data := r.data.drop n, got := if r.op = 2 then r.got else r.got ++ data.take n }
        if r.len = 0 then d.reqDone t r
        else d.modTp t fun p => { p with req := some { r with id := p.lastId + 1, since := d.clk, tried := none }, lastId := p.lastId + 1 }

/-- A request's time without a final status (R188). -/
def reqTimeout : Nat := 500

/-! ### The identity record (R190 to R192) -/

/-- The fields of a motor block lie within their ranges (R192). -/
def motorOk (m : List Byte) : Bool :=
  decide (1 ≤ leAt m 0 1) && decide (leAt m 0 1 ≤ 8) && decide (leAt m 12 4 < leAt m 16 4)
    && allZero (slice m 1 1) && allZero (slice m 10 2) && allZero (slice m 24 8)

/-- The fields of an identity record lie within their ranges (R191). -/
def identRangeOk (r : List Byte) : Bool :=
  let map := (List.range 64).map fun i => leAt r (64 + i) 1
  leAt r 0 4 == 0x54494452 && leAt r 4 1 == 1 && decide (1 ≤ leAt r 20 2) && leAt r 22 1 == 64 && leAt r 23 1 == 4
    && decide (1 ≤ leAt r 24 4) && decide (leAt r 24 4 ≤ 32750) && decide (leAt r 28 4 ≤ 34304)
    && decide (1 ≤ leAt r 38 1) && decide (1 ≤ leAt r 39 1) && decide (leAt r 39 1 ≤ 8)
    && map.all (· < 64) && decide map.Nodup && decide (((List.range 64).filter (bitOf (leAt r 128 8))).length ≤ 8)
    && motorOk (slice r 136 32) && motorOk (slice r 168 32) && decide (leAt r 200 2 < leAt r 202 2)
    && allZero (slice r 5 3) && allZero (slice r 44 20) && allZero (slice r 206 46)

/-- The cause that ID_REJECT names, or none for an identity that is accepted (R190). -/
def identCause (record link : List Byte) : Option Nat :=
  if record.length ≠ 256 ∨ ! crc32cOk record then some 1
  else if ! identRangeOk record then some 2
  else if leAt record 8 8 ≠ leAt link 0 8 then some 3
  else none

/-- The channel density of the transport in bit/m (R191). DENSITY counts bits per millimetre: the rates that the spec gives for
31,750 follow from it (notes/assumptions/176.md, DEDUCED). -/
def Dev.density (d : Dev) (t : Nat) : Nat := 1000 * leAt (d.tpAt t).ident 24 4

/-- Channels retired on a transport, as a map. -/
def Dev.retired (d : Dev) (t : Nat) : BitVec 64 := BitVec.ofNat 64 (d.fld Fld.tpRetireLoMap t + 2 ^ 32 * d.fld Fld.tpRetireHiMap t)

/-- The number of bits set in a channel map. -/
def chCount (m : BitVec 64) : Nat := ((List.range 64).filter m.getLsbD).length

/-! ### The commands -/

/-- The identity EEPROM of a transport: its 7-bit address, and the length of the record at address 0 (R190). -/
def eepromAddr : Nat := 0x50
/-- Bytes of the transport identity record (R190). -/
def identLen : Nat := 256

/-- PORT_UP (R186, R190): eight consecutive valid cycles have been taken; the control cores read the identity record and the link
identity. -/
def execPortUp (tp : Nat) (s : State) : Host.Outcome State Fault Refusal :=
  nextDev s fun d =>
    if tp < 8 ∧ ! d.flag Fld.tpLinkStatUp tp ∧ d.flag Fld.tpLinkCfgEnable tp ∧ 8 ≤ (d.tpAt tp).good then
      (((d.setFlag Fld.tpLinkStatUp tp true).modTp tp fun p => { p with link := [] }).emit (.smbusRead tp eepromAddr 0 identLen)).request tp .identity 3 0 32 []
    else d

/-- IDENTITY_CHECK (R189, R190): the record has come from address 0x0000 of the EEPROM and the link identity from the transport; the
transport may be used, or ID_REJECT is posted. -/
def execIdentityCheck (tp : Nat) (record : List Byte) (addr : Nat) (s : State) : Host.Outcome State Fault Refusal :=
  nextDev s fun d =>
    let link := (d.tpAt tp).link
    if addr = 0 ∧ d.flag Fld.tpLinkStatUp tp ∧ link ≠ [] then
      match identCause record link with
      | none => (d.modTp tp fun p => { p with ident := record, myPort := bitOf (leAt link 8 1) 0 }).setFlag Fld.tpLinkStatIdOk tp true
      | some c => (d.setFlag Fld.tpLinkStatIdOk tp false).postEvent 0x14 blkTp tp [item tp, item c]
    else d

/-- LINK_RESPONSE (R188): the response is acted on that the status taken last carries, and no other. -/
def execLinkResponse (tp : Nat) (id status : BitVec 8) (data : List Byte) (s : State) : Host.Outcome State Fault Refusal :=
  nextDev s fun d => if (d.tpAt tp).rsp = { id := id, status := status, data := data } then d.linkResponse tp id status data else d

/-- LINK_REQUEST_TIMEOUT (R188): no final status within 500 ticks. -/
def execLinkRequestTimeout (tp : Nat) (s : State) : Host.Outcome State Fault Refusal :=
  nextDev s fun d =>
    match (d.tpAt tp).req with
    | some r => if r.since + reqTimeout ≤ d.clk then d.reqFailed tp r else d
    | none => d

end Sys2Proof.Machine
end

