-- ==== Sys2Proof/Machine/Motion.lean ====
section
/-! DEFINITION. Motion (R257 to R294): commutation, start-up, speed and tension, the lateral servo, the chopper, the
motion faults, and the motion commands. One update runs per tick and transport. -/

namespace Sys2Proof.Machine

/-! ### Units and the identity record -/

/-- The same, limited to `0` … `top`. -/
def rndIn (top : Nat) (x : Rat) : Nat := min top (rnd x).toNat

/-- |x|. -/
def qabs (x : Rat) : Rat := if x < 0 then -x else x

/-- `x` limited to ±`m`. -/
def qlim (m x : Rat) : Rat := if m < x then m else if x < -m then -m else x

/-- A motor block (R192). -/
structure MotorId where
  poles : Nat
  ke : Nat
  rw : Nat
  imax : Nat
  hub : Nat
  full : Nat
  jhub : Nat
  deriving DecidableEq, Repr

/-- A field of the identity record (R191). -/
def Dev.idn (d : Dev) (t off n : Nat) : Nat := leAt (d.tpAt t).ident off n

/-- The motor block of reel `i`, 0 for A (R191, R192). -/
def Dev.motor (d : Dev) (t i : Nat) : MotorId :=
  let b := 136 + 32 * i
  { poles := d.idn t b 1, ke := d.idn t (b + 2) 2, rw := d.idn t (b + 4) 2, imax := d.idn t (b + 8) 2
    hub := d.idn t (b + 12) 4, full := d.idn t (b + 16) 4, jhub := d.idn t (b + 20) 4 }

/-- The winding resistance in force for reel `i`, in mΩ (R273, R291). -/
def Dev.windR (d : Dev) (t i : Nat) : Rat :=
  let m := if i = 0 then d.fld Fld.motAgeRwA t else d.fld Fld.motAgeRwB t
  if m = 0 then (d.motor t i).rw else m

/-- |ω| in rad/s of a reel whose step period is `T` (R272). -/
def omega (m : MotorId) (T : Rat) : Rat := Config.pi * 100000000 / (3 * m.poles * T)

/-- The step period at which a reel of radius `r` µm moves tape at `v` nm/s. -/
def periodAt (m : MotorId) (r v : Rat) : Rat := Config.pi * 100000 * r / (3 * m.poles * (v / 1000000))

/-- J(r) in g·cm² (R272). -/
def Dev.inertia (d : Dev) (t i : Nat) (r : Rat) : Rat :=
  let m := d.motor t i
  let pack : Nat := 10 * (if i = 0 then d.fld Fld.motInertiaPackA t else d.fld Fld.motInertiaPackB t)
  let q (x : Rat) : Rat := x * x * x * x
  m.jhub + pack * (q r - q m.hub) / (q m.full - q m.hub)

/-- Reel `i` of a controller. -/
def Mot.reel (m : Mot) (i : Nat) : Reel := m.reels.getD i {}

/-- Change reel `i` of transport `t`. -/
def Dev.modReel (d : Dev) (t i : Nat) (f : Reel → Reel) : Dev := d.modMot t fun m => { m with reels := lmod m.reels i f }

/-- The take-up reel: B while tape moves from A to B (the head of R257's chapter). -/
def Mot.takeUp (m : Mot) : Nat := if m.dir then 0 else 1

/-- A reel turns in its winding sense exactly when it takes up tape. -/
def Mot.winding (m : Mot) (i : Nat) : Bool := i == m.takeUp

/-- Steps ascend when reel `i` turns as the direction of travel wants (R262). -/
def Dev.ascending (d : Dev) (t i : Nat) : Bool :=
  (d.motAt t).winding i ^^ (if i = 0 then d.flag Fld.motDirCfgA t else d.flag Fld.motDirCfgB t)

/-- STATE codes of R294. -/
def msIdle : Nat := 0
/-- ALIGN. -/
def msAlign : Nat := 1
/-- FORCED. -/
def msForced : Nat := 2
/-- RUN. -/
def msRun : Nat := 3
/-- STOPPING. -/
def msStopping : Nat := 4
/-- HOLD. -/
def msHold : Nat := 5
/-- PREDICT. -/
def msPredict : Nat := 6
/-- RATIO_BRAKE. -/
def msBrake : Nat := 7
/-- START_FAILED. -/
def msStartFailed : Nat := 8

/-- MOTn_STAT.STATE. -/
def Dev.motState (d : Dev) (t : Nat) : Nat := d.fld Fld.motStatState t

/-- Enter a STATE. -/
def Dev.setMot (d : Dev) (t st : Nat) : Dev := (d.setFld Fld.motStatState t st).modMot t fun m => { m with age := 0 }

/-- The tape moves under the loops. -/
def Dev.motMoving (d : Dev) (t : Nat) : Bool := d.motState t == msRun || d.motState t == msPredict || d.motState t == msStopping

/-- A motion event (R292): on the event ring, on SAFE_Q and, where marked, in the cellar. -/
def Dev.motEvent (d : Dev) (code t : Nat) (rest : List Word64) (rec_ : Bool) : Dev :=
  let items := item t :: rest
  let e : EvRec := { before := 0, code := code, block := blkMot, inst := t, seq := d.ctl.evSeq, tick := d.commitTick, items := items }
  let d := (d.postEvent code blkMot t items).queDropWrite (d.fld Fld.motEvtCfgSafeQ) (eventBytes e)
  if rec_ then d.cellar blkMot t code (itemsPayload items) else d

/-- A speed as an event gives it, in µm/s. -/
def speedItem (v : Rat) : Word64 := itemI (rnd (v / 1000))

/-! ### The lateral position of a wrap (R279) -/

/-- ρ_j of a wrap in units of 2^−16. -/
def Dev.latTarget (d : Dev) (t wrap : Nat) : Int :=
  let n := d.idn t 38 1
  ((2 * (wrap % n) + 1) * 65536 / (2 * n) : Nat)

/-- The data band of a wrap. -/
def Dev.latBand (d : Dev) (t wrap : Nat) : Nat := wrap / d.idn t 38 1

/-- The active profile's OFFSET in nm (R251, R256): a signed byte in units of 8 nm. Writing and verify ignore it (R252). -/
def Dev.profOffset (d : Dev) (t : Nat) : Int :=
  if (d.rdAt t).phase = .run then 8 * toSigned 8 (d.rdAt t).prof.offset else 0

/-- A command of the actuator within its 16 bits. -/
def actLimit (u : Int) : Int := max (-32768) (min 32767 u)

/-- The command that stands for a wrap's target (R280): ACT_BASE of its band and the way to its position. -/
def Dev.latFeed (d : Dev) (t wrap : Nat) : Int :=
  let scale : Int := d.idn t 40 2
  (d.motAt t).lat.base.getD (d.latBand t wrap) 0
    + Int.tdiv ((Int.tdiv (scale * (d.latTarget t wrap - 32768)) 65536 + d.profOffset t) * 1000) (d.idn t 42 2 : Nat)

/-- ACT_BASE is being sought (R279). -/
def Dev.calibrating (d : Dev) (t : Nat) : Bool := (d.motAt t).lat.cal.isSome

/-- The command tried between two that enclose ACT_BASE (notes/assumptions/85.md). -/
def calProbe (lo hi : Int) : Int := Int.fdiv (lo + hi) 2

/-! ### What the interval brings (R258 to R264, R278 to R281) -/

/-- The mean of samples. -/
def meanOf (l : List Rat) : Rat := if l = [] then 0 else l.foldl (· + ·) 0 / l.length

/-- The phase driven high in a step, and the phase that floats (R261): 0 U, 1 V, 2 W. -/
def highPhase (step : Nat) : Nat := [0, 0, 1, 1, 2, 2].getD step 0
/-- The floating phase of a step. -/
def floatPhase (step : Nat) : Nat := [2, 1, 0, 2, 1, 0].getD step 0

/-- The step in force at a time. -/
def Reel.stepAt (r : Reel) (x : Rat) : Nat := ((r.hist.find? fun s => decide (s.begun ≤ x)).map (·.step)).getD r.step

/-- I_meas of a reel over interval `n` (R272): the current in the high-side phase, in the winding sense. The third
phase carries what the other two return. -/
def Reel.imeas (r : Reel) (n : Nat) (winding : Bool) (u v : List Int) : Rat :=
  let l : List Rat := (u.zip v).zipIdx.map fun (uv, j) =>
    let x : Int := match highPhase (r.stepAt (2000 * n + 100 * j)) with
      | 0 => uv.1
      | 1 => uv.2
      | _ => -(uv.1 + uv.2)
    Rat.ofInt x
  if winding then meanOf l else -meanOf l

/-- The content of the cycle sent `back` cycles before the latest one. -/
def Mot.cycleOf (m : Mot) (back : Nat) : MotOut := m.sent.getD back {}

/-- Take the power samples of interval `n` (R272, R282, R287, R288); the chopper ran in it as the cycle of the same number said. -/
def Dev.takePower (d : Dev) (t n : Nat) (p : List (List Int)) : Dev :=
  let m := d.motAt t
  let bus := (p.getD 0 []).map fun x => (10 * x : Rat)
  let mean := meanOf bus
  let hi := bus.foldl max 0
  let chop := (m.cycleOf (d.clk - n)).chop
  let driven := chop / 1024 == 2 || (chop / 1024 == 1 && decide (512 ≤ chop % 1024))
  let rise := match m.bus.prev with
    | some q => driven && decide ((d.fld Fld.motBusCfgRise t : Rat) ≤ mean - q)
    | none => false
  let top : Rat := d.idn t 202 2
  d.modMot t fun m => { m with
    bus := { m.bus with mean := mean, hi := hi, prev := some mean, rising := if rise then m.bus.rising + 1 else 0, fresh := true
                        reached := m.bus.reached || (decide (top ≤ hi) && decide (m.bus.hi < top)) }
    reels := m.reels.zipIdx.map fun (r, i) => { r with meas := r.imeas n (m.winding i) (p.getD (1 + 2 * i) []) (p.getD (2 + 2 * i) []) } }

/-- The predicted crossing of a step and half its window (R263). -/
def StepRec.middle (s : StepRec) : Rat := s.begun + s.period / 2

/-- The step's window closes (R263). -/
def StepRec.closes (s : StepRec) (win : Nat) : Rat := s.middle + s.period * win / 64

/-- The end of interval `n` (R258). -/
def intEnd (n : Nat) : Rat := ((2000 * (n + 1) : Nat) : Rat)

/-- An event is accepted in a step (R263). -/
def Dev.zcFits (d : Dev) (t i : Nat) (s : StepRec) (z : Rat) (phase : Nat) (rising : Bool) : Bool :=
  let win := d.fld1 Fld.motZcCfgWin t
  ! s.held && phase == floatPhase s.step && (rising == ((s.step % 2 == 1) == d.ascending t i)) && s.zc.isNone
    && decide (s.begun + d.fld Fld.motZcCfgBlank t ≤ z) && decide (qabs (z - s.middle) ≤ s.period * win / 64)

/-- A crossing at `z` is accepted in the `j`-th latest step (R263, R264, R272). The radius stands until a speed has been measured. -/
def Dev.zcAccept (d : Dev) (t i j : Nat) (z : Rat) : Dev :=
  let m := d.motAt t
  let r := m.reel i
  let T := match (r.hist[j + 1]?).bind (·.zc) with
    | some z' => r.period + (z - z' - r.period) / 4
    | none => r.period
  let T := if d.motState t = msForced ∧ ! r.handed then r.period else if T < 4000 then 4000 else T
  let id := d.motor t i
  let w := omega id T
  let rad := if m.vIn ≠ 0 ∧ w ≠ 0 then r.radius + (m.vIn / 1000 / w - r.radius) / 64 else r.radius
  let rad := if rad < id.hub then (id.hub : Rat) else if (id.full : Rat) < rad then id.full else rad
  d.modReel t i fun r => { r with
    hist := lmod r.hist j fun s => { s with zc := some z }
    period := T, radius := rad, accCnt := r.accCnt + 1
    nextAt := if d.motState t = msForced ∧ ! r.handed then r.nextAt else z + T / 2 + j * T }

/-- Take one zero-crossing event of interval `n` (R181, R263). -/
def Dev.takeZc (d : Dev) (t n : Nat) (e : BitVec 16) : Dev :=
  let i := bits e.toNat 14 1
  let z : Rat := (2000 * n + bits e.toNat 0 11 : Nat)
  match ((d.motAt t).reel i).hist.zipIdx.find? (fun s => decide (s.1.begun ≤ z)) with
  | some (s, j) => if d.zcFits t i s z (bits e.toNat 11 2) (bitOf e.toNat 13) then d.zcAccept t i j z else d
  | none => d

/-- Windows of a reel are counted (R275): not while a stop runs below the hand-over speed. -/
def Dev.windowsCount (d : Dev) (t i : Nat) : Bool :=
  let st := d.motState t
  let r := (d.motAt t).reel i
  st == msForced || st == msRun || st == msPredict || (st == msStopping && decide (r.period ≤ 2000 * d.fld1 Fld.motForceCfgHandT t))

/-- Judge the windows that closed by the end of interval `n` (R263, R286). -/
def Dev.judge (d : Dev) (t i n : Nat) : Dev :=
  let win := d.fld1 Fld.motZcCfgWin t
  let count := d.windowsCount t i
  let pmax := d.fld1 Fld.motZcCfgPredMax t
  let r := (d.motAt t).reel i
  let due := (r.hist.filter fun s => ! s.judged && decide (s.closes win ≤ intEnd n)).reverse
  let r := due.foldl (fun (r : Reel) s =>
    if ! count then r
    else if s.zc.isSome then { r with hit := r.hit + 1, missed := 0 }
    else if s.excused then r
    else { r with hit := 0, missed := r.missed + 1, missCnt := r.missCnt + 1, exhausted := r.exhausted || (r.lost && decide (pmax ≤ s.predicted)) }) r
  d.modReel t i fun _ => { r with hist := r.hist.map fun s => if decide (s.closes win ≤ intEnd n) then { s with judged := true } else s }

/-- Windows that lie in an interval not taken, or with ZC_OVF, do not count as missed (R260). -/
def Dev.excuse (d : Dev) (t i n : Nat) : Dev :=
  let win := d.fld1 Fld.motZcCfgWin t
  let hit (s : StepRec) : Bool := decide (s.middle - s.period * win / 64 < intEnd n) && decide (intEnd n - 2000 ≤ s.closes win)
  d.modReel t i fun r => { r with hist := r.hist.map fun s => if hit s then { s with excused := true } else s }

/-- A stripe ends at the first sample not above THR (R278); `x` is the time of the sample. The frames completed are
returned as (t_f, ρ). -/
def SrvCh.sample (swap : Bool) (thr : Nat) (st : SrvCh × List (Rat × Rat)) (x : Rat) (y : Int) : SrvCh × List (Rat × Rat) :=
  let (c, fs) := st
  if (thr : Int) < y then ({ c with sum := c.sum + y.toNat, moment := c.moment + y.toNat * x.floor.toNat }, fs)
  else if c.sum = 0 then (c, fs)
  else
    let s : Rat := (c.moment : Rat) / c.sum
    let kind := match c.last with
      | some p => Config.burst p s
      | none => 0
    let c := { c with sum := 0, moment := 0, last := some s }
    let kind := if swap then (if kind = 1 then 2 else if kind = 2 then 1 else kind) else kind
    if kind = 1 then
      match c.frame, c.tx with
      | some f, some tx => ({ c with frame := some s, tx := none }, fs ++ [(s - f, tx / (s - f))])
      | _, _ => ({ c with frame := some s, tx := none }, fs)
    else if kind = 2 then ({ c with tx := c.frame.map (s - ·) }, fs)
    else (c, fs)

/-- Take one servo channel's samples of interval `n`. -/
def SrvCh.take (c : SrvCh) (swap : Bool) (thr n : Nat) (ys : List Int) : SrvCh × List (Rat × Rat) :=
  ys.zipIdx.foldl (fun st (y, j) => SrvCh.sample swap thr st (2000 * n + j : Nat) y) (c, [])

/-- A frame is valid (R278). Before any speed has been measured since a start, the test on t_f has nothing to compare with
(notes/assumptions/178.md). -/
def frameOk (period : Nat) (v : Rat) (f : Rat × Rat) : Bool :=
  decide (0 < f.2) && decide (f.2 < 1) && decide (0 < f.1) &&
    (v == 0 || (let want := (period : Rat) * 100000000 / v
                decide (want * 3 / 4 ≤ f.1) && decide (f.1 ≤ want * 5 / 4)))

/-- The lateral loop of an interval with a valid frame (R280). -/
def Dev.lateral (d : Dev) (t : Nat) (rho : Rat) : Dev :=
  let m := d.motAt t
  let scale : Int := d.idn t 40 2
  let act1 : Int := d.idn t 42 2
  let err := Int.tdiv (scale * (rnd (rho * 65536) - d.latTarget t m.wrap)) 65536 - d.profOffset t
  let acc := if m.lat.sat then m.lat.acc else m.lat.acc + err
  let u := d.latFeed t m.wrap - Int.tdiv ((Int.tdiv (d.fld Fld.motLatCfgKp t * err) 16 + Int.tdiv (d.fld Fld.motLatCfgKi t * acc) 4096) * 1000) act1
  let lim : Int := d.fld Fld.motLatCfgOfftrack t
  d.modMot t fun m => { m with lat := { m.lat with
    err := err, acc := acc, sat := decide (32767 < u) || decide (u < -32768), act := actLimit u
    inTrack := if 2 * err.natAbs ≤ lim then m.lat.inTrack + 1 else 0
    out := if lim < err.natAbs then m.lat.out + 1 else 0 } }

/-- The tape moves at step 0 (R220, R279). -/
def Mot.atStep0 (m : Mot) : Bool := m.vref == 1000000000 && m.acc == 0

/-- ACT_BASE_CALIBRATE (R279): the ratio measured under the command tried says on which side of it ACT_BASE lies, since ACT moves
the head in the direction in which ρ rises. The search halves the range of commands (notes/assumptions/85.md). -/
def Dev.calibrate (d : Dev) (t n : Nat) (rho : Rat) : Dev :=
  let m := d.motAt t
  match m.lat.cal with
  | none => d
  | some (band, lo, hi) =>
    if ! m.atStep0 ∨ (m.cycleOf (d.clk - n)).act ≠ calProbe lo hi then d
    else
      let (lo, hi) := if rnd (rho * 65536) < 32768 then (calProbe lo hi, hi) else (lo, calProbe lo hi)
      if hi - lo ≤ 1 then
        let next : Option (Nat × Int × Int) := if band + 2 < d.idn t 39 1 then some (band + 1, -32768, 32767) else none
        let d := d.modMot t fun m => { m with lat := { m.lat with base := m.lat.base ++ [hi], cal := next } }
        d.modMot t fun m => { m with lat := { m.lat with act := if next.isSome then calProbe (-32768) 32767 else actLimit (d.latFeed t m.wrap) } }
      else d.modMot t fun m => { m with lat := { m.lat with cal := some (band, lo, hi), act := calProbe lo hi } }

/-- Take the servo samples of interval `n` (R269, R278 to R281). LPOS has its origin at the first frame after the first start-up. -/
def Dev.takeServo (d : Dev) (t n : Nat) (ys : List (List Int)) : Dev :=
  let m := d.motAt t
  let en := d.fld Fld.motSrvCfgChEn t
  let thr := d.fld Fld.motSrvCfgThr t
  let period := d.idn t 32 4
  let rs := m.lat.chans.zipIdx.map fun (c, j) => if bitOf en j then SrvCh.take c m.dir thr n (ys.getD j []) else (c, [])
  let fs := rs.map fun r => r.2.filter (frameOk period m.vIn)
  let all := fs.flatten
  let count := ((fs.map List.length).find? fun k => 0 < k).getD 0
  let d := d.modMot t fun m => { m with lat := { m.lat with chans := rs.map (·.1) } }
  if all = [] then d
  else
    let tf := meanOf (all.map (·.1))
    let up := d.motMoving t
    let d := d.modMot t fun m => { m with
      vIn := (period : Rat) * 100000000 / tf
      lposIn := if m.origin then (if m.dir then m.lposIn - count * period else m.lposIn + count * period) else 0
      origin := m.origin || up
      lat := { m.lat with noFrame := 0, loss := false, lossTicks := 0 } }
    let rho := meanOf (all.map (·.2))
    if d.calibrating t then d.calibrate t n rho else d.lateral t rho

/-- What an interval `n` brings that has come (R258 to R264, R278 to R281). Without power samples the bus voltage holds, so it has
not risen (R260). -/
def Dev.motIntake (d : Dev) (t n : Nat) (x : UpIn) : Dev :=
  let d := if x.valid then x.zc.foldl (fun d e => d.takeZc t n e) d else d
  let d := if x.valid ∧ ! x.zcOvf then d else [0, 1].foldl (fun d i => d.excuse t i n) d
  let d := match x.power with
    | some p => d.takePower t n p
    | none => d.modMot t fun m => { m with bus := { m.bus with rising := 0 } }
  match x.servo with
  | some ys => d.takeServo t n ys
  | none => d

/-- Servo loss is sought (R281): the reference is 0.25 m/s or more. -/
def Mot.servoFast (m : Mot) : Bool := decide (250000000 ≤ m.vref.natAbs)

/-- MOT takes what has come at the boundary that ends tick `clk` (R257, R260): the intervals in order, the last of them due now. -/
def Dev.motTake (d : Dev) (t : Nat) (xs : List UpIn) : Dev :=
  let n := d.clk - 1
  let d := d.modMot t fun m => { m with
    lat := { m.lat with noFrame := if m.servoFast then m.lat.noFrame + 1 else 0, lossTicks := if m.lat.loss then m.lat.lossTicks + 1 else 0 }
    reels := m.reels.map fun r => { r with accCnt := 0, missCnt := 0 } }
  let d := if xs.any fun x => ! x.late then d else [0, 1].foldl (fun d i => d.excuse t i n) d
  let d := xs.foldl (fun d x => d.motIntake t (if x.late then n - 1 else n) x) d
  [0, 1].foldl (fun d i => d.judge t i n) d

/-! ### The schedule (R264, R266, R286) -/

/-- The step that follows (R262). -/
def nextStepOf (up : Bool) (s : Nat) : Nat := if up then (s + 1) % 6 else (s + 5) % 6

/-- The reel with the shorter forced period (R266): the periods stand as r_A·P_B to r_B·P_A. -/
def Dev.fastReel (d : Dev) (t : Nat) : Nat :=
  let m := d.motAt t
  if (m.reel 0).radius * (d.motor t 1).poles ≤ (m.reel 1).radius * (d.motor t 0).poles then 0 else 1

/-- The forced period of reel `i` in units of 10 ns, when the faster reel's is `f` ticks. -/
def Dev.forcedPeriod (d : Dev) (t i f : Nat) : Rat :=
  let m := d.motAt t
  let k := d.fastReel t
  if i = k then 2000 * f
  else 2000 * f * ((m.reel i).radius * (d.motor t k).poles) / ((m.reel k).radius * (d.motor t i).poles)

/-- The period of the step that reel `i` begins next. -/
def Dev.periodNext (d : Dev) (t i : Nat) : Rat :=
  let m := d.motAt t
  let r := m.reel i
  let st := d.motState t
  if st = msForced ∧ ! r.handed then d.forcedPeriod t i m.forced
  else if st = msStopping ∧ ! d.windowsCount t i then (if m.v = 0 then r.period else periodAt (d.motor t i) r.radius m.v)
  else if r.lost then (if m.v = 0 then r.period else r.period * (r.vAt / m.v))
  else r.period

/-- The shortest forced period of the faster reel in ticks (R266): HAND_T, and never below the 4,000 units of R265. -/
def Dev.forcedLeast (d : Dev) (t : Nat) : Nat := max 2 (d.fld Fld.motForceCfgHandT t)

/-- A lost reel whose present step has no accepted crossing: its next commutation is predicted (R286). -/
def Reel.blind (r : Reel) : Bool := r.lost && ! (r.hist.head?.any fun s => s.zc.isSome)

/-- Begin the next step of reel `i` at its scheduled time. While both reels are forced the faster one paces them; once it has handed
over, the other paces itself (R266, R267). -/
def Dev.commutate (d : Dev) (t i : Nat) : Dev :=
  let m := d.motAt t
  let forced := decide (d.motState t = msForced) && ! (m.reel i).handed
  let least := d.forcedLeast t
  let paces := forced && (i == d.fastReel t || (m.reel (d.fastReel t)).handed)
  let full := forced && decide ((m.reel i).period ≤ d.forcedPeriod t i least)
  let d := if paces then d.modMot t fun m => { m with forced := max least (m.forced - m.forced / 16) } else d
  let T := d.periodNext t i
  let T := if T < 4000 then 4000 else T
  d.modReel t i fun r =>
    let p := if r.blind then r.predicted + 1 else r.predicted
    let s := nextStepOf r.up r.step
    { r with
      step := s, period := T, nextAt := r.nextAt + T, predicted := p, vAt := m.v, adv := false
      atMin := if full then r.atMin + 1 else r.atMin
      hist := ({ begun := r.nextAt, step := s, period := T, predicted := p } : StepRec) :: r.hist.take 7 }

/-- The reel's schedule has run out (R286): the last predicted commutation has been made, and its step has no crossing. -/
def Dev.scheduleEnds (d : Dev) (t i : Nat) : Bool :=
  let r := (d.motAt t).reel i
  r.blind && decide (d.fld1 Fld.motZcCfgPredMax t ≤ r.predicted)

/-- Run reel `i`'s schedule up to apply instant `A`; `fuel` bounds the steps. -/
def Dev.runTo (t i : Nat) (A : Rat) : Nat → Dev → Dev
  | 0, d => d
  | n + 1, d => if ((d.motAt t).reel i).nextAt ≤ A ∧ ! d.scheduleEnds t i then Dev.runTo t i A n (d.commutate t i) else d

/-- STEP, NEXT and AT of reel `i` in the cycle whose apply instant is `A` (R264). -/
def Dev.schedule (d : Dev) (t i : Nat) (A : Rat) : Dev :=
  let d := Dev.runTo t i A 8 d
  let ends := d.scheduleEnds t i
  d.modReel t i fun r =>
    if r.nextAt < A + 2000 ∧ ! ends then { r with nextStep := nextStepOf r.up r.step, at_ := min 1999 (rnd (r.nextAt - A)).toNat }
    else { r with nextStep := 7, at_ := 0 }

/-! ### The ramp (R270, R274, R286, R287) -/

/-- The speed of step `s` in nm/s (R220). -/
def stepSpeed (s : Nat) : Int := 1000000000 + 250000000 * (min s 28 : Nat)

/-- The highest step at or below a speed (R227). -/
def achievedStep (v : Rat) : Nat := if v < 1000000000 then 0 else min 28 ((v - 1000000000) / 250000000).floor.toNat

/-- Σ 2·R_W·I_MAX² / Σ J(r)·|ω|/r, in µm/s² (R287). -/
def Dev.decelLimit (d : Dev) (t : Nat) : Rat :=
  let m := d.motAt t
  let num := ([0, 1].map fun i => 2 * d.windR t i * ((d.motor t i).imax * (d.motor t i).imax : Nat)).foldl (· + ·) 0
  let den := ([0, 1].map fun i => d.inertia t i (m.reel i).radius * omega (d.motor t i) (m.reel i).period / (m.reel i).radius).foldl (· + ·) 0
  if den = 0 then num else num / 100 / den

/-- The speed that the transport's activity calls for (R270). A transport that parks runs on at the step that it has reached (R213, R214). -/
def Dev.sourceSpeed (d : Dev) (t : Nat) : Int :=
  let cap := min 28 (d.fld Fld.tpSpdCtlCap t)
  if d.calibrating t then stepSpeed 0
  else
  match (d.motAt t).travel with
  | .none => 0
  | .write => stepSpeed (d.fld Fld.tpSpdStatTarget t)
  | .read =>
    let p := (d.rdAt t).prof.speed
    stepSpeed (min cap (if 28 < p then d.fld Fld.tpRdCfgStep t else p))
  | .locate _ => 250000000 * d.fldIn Fld.motRampCfgLocSpeed t 4 40
  | .turn => stepSpeed 0
  | .backhitch n => stepSpeed (if n = 0 then achievedStep (d.motAt t).v else 0)
  | .park => 0

/-- v_tgt of the tick. -/
def Dev.targetSpeed (d : Dev) (t : Nat) : Int :=
  let st := d.motState t
  if st = msStopping then 0
  else if st = msPredict then 1000000000
  else if d.flag Fld.motStatClamped t then min (d.sourceSpeed t) (d.motAt t).clampV
  else d.sourceSpeed t

/-- One tick of the reference (R270). -/
def rampStep (vtgt vref a jerk lim : Int) : Int × Int :=
  let dv := vtgt - vref
  let jstep := 20 * jerk
  let coast := Int.tdiv (a * a.natAbs) (2000 * jerk)
  let a := if 0 < dv - coast then min (a + jstep) lim else if dv - coast < 0 then max (a - jstep) (-lim) else a
  let vref := vref + Int.tdiv a 50
  if ((vtgt - vref).natAbs : Int) ≤ Int.tdiv a.natAbs 50 ∧ (a.natAbs : Int) ≤ jstep then (vtgt, 0) else (vref, a)

/-- The acceleration bound (R270, R286, R287). -/
def Dev.accLimit (d : Dev) (t : Nat) : Int :=
  let base : Int := 100000 * (if d.motState t = msPredict then d.fld1 Fld.motRampCfgLrDecel t else d.fld1 Fld.motRampCfgAcc t)
  if d.flag Fld.motStatChopFault t then min base (d.decelLimit t).floor else base

/-- The ramp of one tick. -/
def Dev.ramp (d : Dev) (t : Nat) : Dev :=
  let vt := d.targetSpeed t
  let m := d.motAt t
  let (v, a) := rampStep vt m.vref m.acc (d.fld1 Fld.motRampCfgJerk t) (d.accLimit t)
  d.modMot t fun m => { m with vtgt := vt, vref := v, acc := a, steady := if a = 0 then m.steady + 1 else 0 }

/-! ### Torque and duty (R271 to R273, R275, R283, R286) -/

/-- V_bus in µV per 1/1,024 of duty is V_bus·1000; a duty for a voltage in µV, limited to DUTY_LIM. -/
def Dev.dutyFor (d : Dev) (t : Nat) (uv : Rat) : Nat :=
  let b := (d.motAt t).bus.mean
  if b = 0 ∨ uv < 0 then 0 else rndIn (d.fld Fld.motLimCfgDutyLim t) (1024 * uv / (b * 1000))

/-- Measured torque of reel `i` in mN·m (R272). -/
def Dev.torqueMeas (d : Dev) (t i : Nat) : Rat := (d.motor t i).ke * ((d.motAt t).reel i).meas / 1000000

/-- J(r)·a/r of reel `i` in mN·m. -/
def Dev.inertial (d : Dev) (t i : Nat) (a : Rat) : Rat :=
  let r := ((d.motAt t).reel i).radius
  if r = 0 then 0 else d.inertia t i r * a / r / 10000

/-- Friction and tension (R272). -/
def Dev.estimate (d : Dev) (t : Nat) : Dev :=
  let m := d.motAt t
  let tu := m.takeUp
  let su := 1 - tu
  let rt := (m.reel tu).radius
  let rs := (m.reel su).radius
  let f := if 500 ≤ m.steady ∧ rt + rs ≠ 0 then
      m.fric + ((d.torqueMeas t tu * rs - d.torqueMeas t su * rt) / (rs + rt) - m.fric) / 256 else m.fric
  let te := if rt = 0 then 0 else (d.torqueMeas t tu - d.inertial t tu m.acc - f) * 1000000 / rt
  d.modMot t fun m => { m with fric := f, tEst := te }

/-- The hand-over speed of reel `i` in nm/s (R266). -/
def Dev.handSpeed (d : Dev) (t i : Nat) : Rat :=
  let r := (d.motAt t).reel i
  r.radius * 1000 * omega (d.motor t i) (2000 * (d.fld1 Fld.motForceCfgHandT t))

/-- The sums of R271 over one tick; they do not accumulate below the hand-over speed. -/
def Dev.sums (d : Dev) (t : Nat) : Dev :=
  let m := d.motAt t
  if m.v < d.handSpeed t m.takeUp then d
  else d.modMot t fun m => { m with sumV := m.sumV + (m.vref - m.v), sumT := m.sumT + (d.fld Fld.motTensCfgTref t - m.tEst) }

/-- The torque command of reel `i` in mN·m (R271). -/
def Dev.torqueCmd (d : Dev) (t i : Nat) : Rat :=
  let m := d.motAt t
  let r := (m.reel i).radius
  let base := (d.fld Fld.motTensCfgTref t : Rat) * r / 1000000
  if i = m.takeUp then
    base + d.inertial t i m.acc + m.fric + d.fld Fld.motSpdGainKp t * (m.vref - m.v) / 1000000000
      + d.fld Fld.motSpdGainKi t * m.sumV / 50000 / 1000000000
  else
    base - d.inertial t i m.acc - m.fric
      + r / 1000000 * (d.fld Fld.motTensGainKp t * (d.fld Fld.motTensCfgTref t - m.tEst) / 16 + d.fld Fld.motTensGainKi t * m.sumT / 4096)

/-- The current command and the duty of a reel in its loop (R273). -/
def Dev.loopDrive (d : Dev) (t i : Nat) : Dev :=
  let m := d.motAt t
  let id := d.motor t i
  let tau := d.torqueCmd t i
  let cur := if id.ke = 0 then 0 else qlim id.imax ((if m.winding i then tau else -tau) * 1000000 / id.ke)
  let duty := d.dutyFor t (id.ke * omega id (m.reel i).period + 2 * d.windR t i * cur)
  d.modReel t i fun r => { r with mode := 1, duty := duty, cur := cur }

/-- The hold current of reel `i` in mA (R275). -/
def Dev.holdCurrent (d : Dev) (t i : Nat) : Rat :=
  let id := d.motor t i
  if id.ke = 0 then 0 else (d.fld Fld.motTensCfgTref t : Rat) * ((d.motAt t).reel i).radius / id.ke

/-- The brake force of reel `i` at the tape per unit of duty, but for a common factor (R283). -/
def Dev.brakeCoef (d : Dev) (t i : Nat) : Rat :=
  let r := ((d.motAt t).reel i).radius
  let id := d.motor t i
  if r = 0 then 0 else (id.ke * id.ke : Nat) / (d.windR t i * r * r)

/-- The duties of a ratio brake (R283): the larger is DUTY_LIM. -/
def Dev.ratioBrake (d : Dev) (t : Nat) : Dev :=
  let m := d.motAt t
  let tu := m.takeUp
  let su := 1 - tu
  let top := d.fld Fld.motLimCfgDutyLim t
  let ct := d.brakeCoef t tu
  let cs := d.brakeCoef t su
  let k := if cs = 0 then 1 else (max 16 (d.fld Fld.motTensCfgTratio t) : Rat) / 16 * ct / cs
  let (dt, ds) := if k ≤ 1 then (top, rndIn top (top * k)) else (rndIn top (top / k), top)
  (d.modReel t tu fun r => { r with mode := 2, duty := dt, nextStep := 7, at_ := 0 }).modReel t su fun r => { r with mode := 2, duty := ds, nextStep := 7, at_ := 0 }

/-- The tension duty of a lost reel (R286). -/
def Dev.lostDuty (d : Dev) (t i : Nat) : Nat :=
  let m := d.motAt t
  let id := d.motor t i
  let r := (m.reel i).radius
  let top := d.fld Fld.motLimCfgDutyLim t
  if m.v = 0 ∨ id.ke = 0 then top
  else rndIn top (2048 * 1000 * d.fld Fld.motTensCfgTref t * d.windR t i * r * r / ((id.ke * id.ke : Nat) * m.v))

/-! ### The chopper (R282) -/

/-- V_on and V_full in mV. -/
def Dev.busOn (d : Dev) (t : Nat) : Rat :=
  let nom := d.idn t 200 2
  nom + (d.fld Fld.motBusCfgOn t : Rat) * (d.idn t 202 2 - nom : Nat) / 16
/-- V_full. -/
def Dev.busFull (d : Dev) (t : Nat) : Rat :=
  let nom := d.idn t 200 2
  nom + (max (d.fld Fld.motBusCfgFull t) (d.fld Fld.motBusCfgOn t + 1) : Rat) * (d.idn t 202 2 - nom : Nat) / 16

/-- CHOPPER_DRIVE (R282). -/
def Dev.chopper (d : Dev) (t : Nat) : Dev :=
  let hi := (d.motAt t).bus.hi
  let on := d.busOn t
  let full := d.busFull t
  d.modMot t fun m => { m with bus :=
    if hi < on then { m.bus with chopMode := 0, chopDuty := 0 }
    else if full ≤ hi then { m.bus with chopMode := 2, chopDuty := 0 }
    else { m.bus with chopMode := 1, chopDuty := rndIn 1023 (1024 * (hi - on) / (full - on)) } }

/-! ### Stops, brakes and pauses -/

/-- A controlled stop (R275); under a ratio brake, which stands higher, it stays due (R284). -/
def Dev.controlledStop (d : Dev) (t : Nat) : Dev :=
  let st := d.motState t
  if st = msRun ∨ st = msPredict ∨ st = msForced ∨ st = msAlign then
    (d.setMot t msStopping).modMot t fun m => { m with
      slow := 0, stopDue := false, off := none, vref := if st = msRun ∨ st = msPredict then m.vref else m.vIn.floor }
  else d.modMot t fun m => { m with stopDue := decide (st = msBrake) }

/-- A ratio brake for a cause (R283, R286, R288, R289, R470); its gates go out with the next update. START_FAILED is left by FLOAT
and START only (R267), and a brake in force is not replaced (R284), but for failing power, which brakes every reel (R470). -/
def Dev.brakeNow (d : Dev) (t : Nat) (c : BrakeCause) : Dev :=
  if c ≠ .power ∧ (d.motState t = msStartFailed ∨ d.motState t = msBrake) then d
  else (d.setMot t msBrake).modMot t fun m => { m with brake := c, off := none }

/-- HOLD (R275): each reel keeps its last step advanced by one in its winding sense, its hold advance. -/
def Dev.enterHold (d : Dev) (t : Nat) : Dev :=
  let d := d.modMot t fun m => { m with acc := 0, vref := 0, brake := .none, stopDue := false, reels := m.reels.zipIdx.map fun (r, i) =>
    let w := if m.winding i then r.up else ! r.up
    { r with step := nextStepOf w r.step, up := w, adv := true, lost := false, exhausted := false } }
  ((d.setFlag Fld.motStatLostA t false).setFlag Fld.motStatLostB t false).setMot t msHold

/-- A motion pause begins, or goes on for another cause (R285). -/
def Dev.pauseFor (d : Dev) (t : Nat) (c : PauseCause) (code : Nat) : Dev :=
  let m := d.motAt t
  if m.pauses.contains c then d
  else
    let d := if m.pauses = [] then d.bump Fld.motErrCntPause t else d
    let d := (d.setFlag Fld.motStatPause t true).modMot t fun m => { m with
      pauses := m.pauses ++ [c], clear := 0, pauseVis := if m.pauses = [] then d.nextVis else m.pauseVis }
    d.motEvent 0x58 t [item code] false

/-- A motion pause is in force, as committed at the last boundary (R285). -/
def Dev.pausing (d : Dev) (t : Nat) : Bool := (d.motAt t).pauses != [] && decide ((d.motAt t).pauseVis ≤ d.clk)

/-- A cause of a pause no longer holds (R285). -/
def Dev.causeClear (d : Dev) (t : Nat) : Bool :=
  ! d.flag Fld.motStatLostA t && ! d.flag Fld.motStatLostB t && d.flag Fld.motStatOnTrack t && ! (d.motAt t).lat.loss

/-- MOT_CLAMP (R274): the cause that sets the clamp. -/
def Dev.clampCause (d : Dev) (t : Nat) : Option Nat :=
  let m := d.motAt t
  let rmax := d.fld Fld.motLimCfgReelMax t
  let rev (i : Nat) : Rat := omega (d.motor t i) (m.reel i).period / (2 * Config.pi)
  if d.fld Fld.motLimCfgDutyLim t ≤ (m.reel m.takeUp).duty then some 1
  else if [0, 1].any fun i => decide (((d.motor t i).imax : Rat) ≤ qabs (m.reel i).cur) then some 2
  else if [0, 1].any fun i => decide ((m.reel i).period ≤ 4400) then some 3
  else if [0, 1].any fun i => decide ((rmax : Rat) ≤ rev i) then some 4
  else none

/-- The margins within which CLAMPED may clear (R274). -/
def Dev.clampMargin (d : Dev) (t : Nat) : Bool :=
  let m := d.motAt t
  let rmax : Rat := d.fld Fld.motLimCfgReelMax t
  let rev (i : Nat) : Rat := omega (d.motor t i) (m.reel i).period / (2 * Config.pi)
  decide ((m.reel m.takeUp).duty + 64 ≤ d.fld Fld.motLimCfgDutyLim t) &&
    [0, 1].all fun i => decide (qabs (m.reel i).cur ≤ 9 * (d.motor t i).imax / 10) && decide (4800 ≤ (m.reel i).period) && decide (rev i < 9 * rmax / 10)

/-- The clamp of one tick (R274). a_ref is above 0 only while the loops run; the margins count in every state. -/
def Dev.clampTick (d : Dev) (t : Nat) : Dev :=
  let m := d.motAt t
  let ok := d.clampMargin t
  let d := d.modMot t fun m => { m with clampOk := if ok then m.clampOk + 1 else 0 }
  if 0 < m.acc ∧ ! d.flag Fld.motStatClamped t then
    match d.clampCause t with
    | some c =>
      let d := ((d.setFlag Fld.motStatClamped t true).setFlag Fld.tpSpdStatClamped t true).modMot t fun m => { m with clampV := m.vref, vtgt := m.vref, clampOk := 0 }
      { (d.motEvent 0x56 t [item c, item (achievedStep m.v)] false) with
        age := { d.age with clamps := lmod d.age.clamps t (· + 1) } }
    | none => d
  else d

/-! ### Gates of the tick -/

/-- A reel in MODE 0. -/
def Reel.float (r : Reel) : Reel := { r with mode := 0, duty := 0, cur := 0, nextStep := 7, at_ := 0 }

/-- A reel held at a step from apply instant `A` on. -/
def Reel.holdAt (r : Reel) (A : Rat) (s duty : Nat) : Reel :=
  let stands : Bool := r.hist.head?.any fun x => x.held && x.step == s
  { r with mode := 1, step := s, duty := duty, nextStep := 7, at_ := 0
           hist := if stands then r.hist else ({ begun := A, step := s, period := 0, judged := true, held := true } : StepRec) :: r.hist.take 7 }

/-- The gates of both reels for the cycle whose apply instant is `A`. -/
def Dev.gates (d : Dev) (t : Nat) (A : Rat) : Dev :=
  let st := d.motState t
  let align := d.fld Fld.motStartCfgAlignDuty t
  if st = msBrake then d.ratioBrake t
  else
    [0, 1].foldl (fun d i =>
      let r := (d.motAt t).reel i
      if st = msIdle ∨ st = msStartFailed ∨ (d.motAt t).off.isSome then d.modReel t i Reel.float
      else if st = msAlign then d.modReel t i fun r => r.holdAt A 0 align
      else if st = msForced then
        let d := d.schedule t i A
        let id := d.motor t i
        let b := (d.motAt t).bus.mean
        let bemf := if b = 0 then 0 else 1024 * (id.ke * omega id ((d.motAt t).reel i).period) / (b * 1000)
        d.modReel t i fun r => { r with mode := 1, duty := rndIn 1023 (align + bemf) }
      else if st = msHold then
        let duty := d.dutyFor t (2 * d.windR t i * d.holdCurrent t i)
        d.modReel t i fun r => r.holdAt A r.step duty
      else if st = msStopping ∧ r.lost ∧ r.exhausted then
        let duty := d.lostDuty t i
        d.modReel t i fun r => { r with mode := 2, duty := duty, nextStep := 7, at_ := 0 }
      else (d.schedule t i A).loopDrive t i) d

/-- The gate word of a reel (R175). -/
def gateWord (r : Reel) : Nat :=
  r.mode + 4 * r.step + 32 * r.nextStep + 256 * r.at_ + 2 ^ 19 * r.duty

/-- CHOP as the header carries it (R174). -/
def chopWord (b : Bus) : Nat := b.chopDuty + 1024 * b.chopMode

/-! ### Conditions of the tick (R281, R284, R288, R290) -/

/-- Standstill of a ratio brake (R288, R289). -/
def Dev.brakeEnd (d : Dev) (t : Nat) : Dev :=
  let m := d.motAt t
  let idle (d : Dev) : Dev := (d.setMot t msIdle).modMot t fun m => { m with brake := .none, stopDue := false, vref := 0, acc := 0 }
  if m.v < 5000000 then
    match m.brake with
    | .port => if d.flag Fld.tpLinkStatUp t then idle d else d
    | .bus => if m.bus.hi < d.busOn t then d.enterHold t else idle d
    | .lost => if m.bus.hi < d.busOn t then d.enterHold t else idle d
    | .power => d
    | .none => d
  else d

/-- BUS_LIMIT (R288): V_hi has reached BUS_MAX. -/
def Dev.busLimit (d : Dev) (t : Nat) : Dev :=
  let m := d.motAt t
  if m.bus.reached ∧ d.flag Fld.tpLinkStatIdOk t then
    ((d.bump Fld.motErrCntChop t).motEvent 0x53 t [item (rnd (m.bus.hi / 10)).toNat, speedItem m.v] true).brakeNow t .bus
  else d

/-- MOT_OVERCURRENT (R290) in an interval that has been taken. -/
def Dev.overcurrent (d : Dev) (t : Nat) : Dev :=
  if ! (d.motAt t).bus.fresh then d
  else
    [0, 1].foldl (fun d i =>
      let x := ((d.motAt t).reel i).meas
      if (3 * (d.motor t i).imax : Rat) / 2 < qabs x then
        (d.motEvent 0x57 t [item i, itemI (rnd x)] true).modMot t fun m => { m with stopDue := true }
      else d) d

/-- Telemetry (R293). -/
def Dev.telemetry (d : Dev) (t : Nat) : Dev :=
  if bitOf (d.fld Fld.motEvtCfgTelEn) t then
    let m := d.motAt t
    let sgn (x : Rat) : Rat := if m.dir then -x else x
    let a := m.reel 0
    let b := m.reel 1
    let le (n : Nat) (x : Rat) := leBytes n (ofSigned (8 * n) (rnd x))
    let gate (r : Reel) := leBytes 2 (r.duty + 1024 * r.mode + 4096 * r.step)
    let fl := b2n (d.flag Fld.motStatClamped t) + 2 * b2n (d.flag Fld.motStatChopFault t) + 4 * b2n (d.flag Fld.motStatPause t) + 8 * b2n (d.flag Fld.motStatOnTrack t)
    d.queDropWrite (d.fld Fld.motEvtCfgTelQ) (padTo 64 ([0x03#8] ++ leBytes 1 t ++ leBytes 1 (d.motState t) ++ leBytes 1 fl ++ le 4 (sgn (m.v / 1000))
      ++ leBytes 6 d.tick.toNat ++ le 2 (m.bus.mean / 10) ++ le 4 (sgn ((m.vref : Rat) / 1000)) ++ le 2 m.tEst ++ leBytes 2 (ofSigned 16 m.lat.err)
      ++ le 2 a.radius ++ le 2 b.radius ++ gate a ++ gate b ++ le 2 a.meas ++ le 2 b.meas ++ leBytes 2 (ofSigned 16 m.lat.act)
      ++ leBytes 2 (chopWord m.bus) ++ le 4 a.period ++ le 4 b.period ++ leBytes 1 a.accCnt ++ leBytes 1 b.accCnt ++ leBytes 1 a.missCnt ++ leBytes 1 b.missCnt))
  else d

/-- The read-only measurements (R291, R294). -/
def Dev.motRegs (d : Dev) (t : Nat) : Dev :=
  let m := d.motAt t
  let sgn (x : Rat) : Rat := if m.dir then -x else x
  let put (d : Dev) (f : Fld) (x : Rat) : Dev := d.setFld f t (ofSigned f.width (rnd x))
  let d := put d Fld.motMeasVV (sgn (m.v / 1000))
  let d := put d Fld.motMeasRRA (m.reel 0).radius
  let d := put d Fld.motMeasRRB (m.reel 1).radius
  let d := put d Fld.motMeasTTEst m.tEst
  let d := put d Fld.motMeasTBus (m.bus.mean / 10)
  let d := put d Fld.motLatStatErr m.lat.err
  let d := put d Fld.motLatStatAct m.lat.act
  let d := put d Fld.motFricF (1000 * m.fric)
  d.setFld Fld.tpSpdStatAchieved t (achievedStep m.v)

/-- The sum of align currents over the last 500 ticks (R291). -/
def Dev.alignSums (d : Dev) (t : Nat) : Dev :=
  let left := max 500 (d.fld Fld.motStartCfgAlignT t) - (d.motAt t).age
  if d.motState t = msAlign ∧ left ≤ 500 then
    [0, 1].foldl (fun d i => d.modReel t i fun r => { r with alignSum := r.alignSum + qabs r.meas, alignN := r.alignN + 1 }) d
  else d

/-- Speed while the servo is lost (R281). -/
def Dev.lossSpeed (d : Dev) (t : Nat) : Dev :=
  let m := d.motAt t
  if m.lat.loss then
    let r := m.reel m.takeUp
    d.modMot t fun m => { m with v := omega (d.motor t m.takeUp) r.period * r.radius * 1000 }
  else d

/-- The chopper of a tick (R282, R288, R289, R470): with the link lost it keeps its last duty, and with power failing it is full on. -/
def Dev.chopTick (d : Dev) (t : Nat) : Dev :=
  let brakes : Bool := d.motState t == msBrake
  if brakes ∧ (d.motAt t).brake = .port then d
  else if brakes ∧ (d.motAt t).brake = .power then d.modMot t fun m => { m with bus := { m.bus with chopMode := 2, chopDuty := 0 } }
  else d.chopper t

/-- What the update commits for the next cycle (R174, R257); RESUME is set in the first cycle of align (R266). -/
def Dev.motCommit (d : Dev) (t : Nat) : Dev :=
  let first := d.motState t == msAlign && (d.motAt t).age == 1
  d.modMot t fun m => { m with
    out := { gates := m.reels.map gateWord, chop := chopWord m.bus, act := m.lat.act, resume := first }, bus := { m.bus with fresh := false, reached := false } }

/-- MOT_UPDATE of tick `clk` for transport `t` (R257): one update of what was taken at the boundary that began the tick. -/
def Dev.motUpdate (d : Dev) (t : Nat) : Dev :=
  let A : Rat := (2000 * (d.clk + 1) + 200 : Nat)
  let d := d.modMot t fun m => { m with
    v := m.vIn, lpos := m.lposIn, age := m.age + 1, off := m.off.map (· + 1), slow := if m.vIn < 5000000 then m.slow + 1 else 0 }
  let d := (d.lossSpeed t).alignSums t
  let d := (d.busLimit t).overcurrent t
  let d := if (d.motAt t).stopDue then d.controlledStop t else d
  let d := d.chopTick t
  let d := if d.motMoving t then (((d.ramp t).estimate t).sums t).gates t A else d.gates t A
  let d := d.clampTick t
  let d := d.motCommit t
  let d := if d.motState t = msBrake then d.brakeEnd t else d
  let clear := d.causeClear t
  let d := d.modMot t fun m => { m with clear := if clear then m.clear + 1 else 0 }
  (d.motRegs t).telemetry t

/-! ### Starts (R266 to R268) -/

/-- Begin forced commutation (R266, R268): from align at step 0, from HOLD at the held step minus its hold advance. -/
def Dev.forcedBegin (d : Dev) (t : Nat) : Dev :=
  let f := max (d.forcedLeast t) (d.fld Fld.motForceCfgT0 t)
  let d := d.modMot t fun m => { m with forced := f, off := none }
  let A : Rat := (2000 * (d.clk + 1) + 200 : Nat)
  let d := [0, 1].foldl (fun d i =>
    let up := d.ascending t i
    let T := d.forcedPeriod t i f
    d.modReel t i fun r =>
      let s := if r.adv then nextStepOf (! r.up) r.step else r.step
      { r with up := up, step := s, period := T, nextAt := A + T, hit := 0, missed := 0, atMin := 0, handed := false, lost := false, adv := false
               predicted := 0, exhausted := false, hist := ({ begun := A, step := s, period := T } : StepRec) :: r.hist.take 7 }) d
  d.setMot t msForced

/-- The loops before a start: the sums are 0, and no speed has been measured yet (notes/assumptions/178.md). -/
def Mot.fromRest (m : Mot) (dir : Bool) : Mot :=
  { m with dir := dir, off := none, acc := 0, vref := 0, sumV := 0, sumT := 0, v := 0, vIn := 0 }

/-- Begin align (R266). -/
def Dev.alignBegin (d : Dev) (t : Nat) : Dev :=
  (d.modMot t fun m => { m with reels := m.reels.map fun r =>
    { r with step := 0, adv := false, alignSum := 0, alignN := 0, lost := false, exhausted := false } }).setMot t msAlign

/-- Begin a start (R266, R268, R287): refused while CHOP_FAULT is set; it begins from IDLE, START_FAILED or HOLD. -/
def Dev.motStart (d : Dev) (t : Nat) (dir : Bool) : Dev :=
  let st := d.motState t
  let rest (d : Dev) : Dev := d.modMot t fun m => { m.fromRest dir with retried := false }
  if d.flag Fld.motStatChopFault t then d
  else if st = msHold then (rest d).forcedBegin t
  else if st = msIdle ∨ st = msStartFailed then (rest d).alignBegin t
  else d

/-- CLEAR_FAULT (R287, R294): the wrap no longer counts as ended for the fault. -/
def Dev.clearFault (d : Dev) (t : Nat) : Dev := (d.setFlag Fld.motStatChopFault t false).modWr t fun w => { w with chopEnd := false }

/-- MOTn_CMD (R294). -/
def Dev.motCommand (d : Dev) (t op : Nat) (dir : Bool) : Dev :=
  if op = 1 then d.motStart t dir
  else if op = 2 then d.controlledStop t
  else if op = 3 then (d.setMot t msIdle).modMot t fun m => { m with off := none, stopDue := false, brake := .none, acc := 0, vref := 0 }
  else if op = 4 then d.clearFault t
  else d

/-- R_W over the last 500 ticks of align (R291). -/
def Dev.windingMeasure (d : Dev) (t : Nat) : Dev :=
  let b := (d.motAt t).bus.mean
  let duty := d.fld Fld.motStartCfgAlignDuty t
  [(0, Fld.motAgeRwA), (1, Fld.motAgeRwB)].foldl (fun d (i, f) =>
    let r := (d.motAt t).reel i
    if r.alignSum = 0 then d
    else d.setFld f t (rndIn 65535 (duty * b * 1000 * r.alignN / (1024 * 2 * r.alignSum)))) d

/-! ### The commands

MOT_START, MOT_STOP, MOT_FLOAT and MOT_CLEAR_FAULT are writes of MOTn_CMD, which take effect at the next boundary (R12). -/

/-- A write of MOTn_CMD. -/
def Dev.motCmdWrite (d : Dev) (t v : Nat) : Dev := if t < 8 then d.queueWrite (RegId.motCmd.offset t) (BitVec.ofNat 32 v) else d

/-- MOT_START (R266). -/
def execMotStart (tp : Nat) (dir : Bool) (s : State) : Host.Outcome State Fault Refusal :=
  nextDev s fun d => d.motCmdWrite tp (1 + 8 * b2n dir)

/-- MOT_STOP (R275). -/
def execMotStop (tp : Nat) (s : State) : Host.Outcome State Fault Refusal := nextDev s fun d => d.motCmdWrite tp 2

/-- MOT_FLOAT (R294). -/
def execMotFloat (tp : Nat) (s : State) : Host.Outcome State Fault Refusal := nextDev s fun d => d.motCmdWrite tp 3

/-- MOT_CLEAR_FAULT (R287). -/
def execMotClearFault (tp : Nat) (s : State) : Host.Outcome State Fault Refusal := nextDev s fun d => d.motCmdWrite tp 4

/-- ALIGN_END (R266, R291): ALIGN_T ticks of align have passed. -/
def execAlignEnd (tp : Nat) (s : State) : Host.Outcome State Fault Refusal :=
  nextDev s fun d =>
    if d.motState tp = msAlign ∧ max 500 (d.fld Fld.motStartCfgAlignT tp) ≤ (d.motAt tp).age then (d.windingMeasure tp).forcedBegin tp else d

/-- HAND_OVER (R266): HAND_N consecutive windows hold accepted crossings; with both reels over, STATE becomes RUN. -/
def execHandOver (tp reel : Nat) (s : State) : Host.Outcome State Fault Refusal :=
  nextDev s fun d =>
    let r := (d.motAt tp).reel reel
    if d.motState tp = msForced ∧ reel < 2 ∧ ! r.handed ∧ d.fld1 Fld.motForceCfgHandN tp ≤ r.hit then
      let d := d.modReel tp reel fun r => { r with handed := true }
      if (d.motAt tp).reels.all (·.handed) then
        (d.setMot tp msRun).modMot tp fun m => { m with vref := m.vIn.floor, acc := 0, sumV := 0, sumT := 0, steady := 0 }
      else d
    else d

/-- Forced steps at HAND_T before a start fails (R267). -/
def Dev.handMax (d : Dev) (t : Nat) : Nat := 6 * d.fld1 Fld.motForceCfgHandMax t

/-- START_FAIL (R267): a reel has taken HAND_MAX forced steps at HAND_T. All gates go to MODE 0, or the repeat has
failed too. -/
def execStartFail (tp reel : Nat) (s : State) : Host.Outcome State Fault Refusal :=
  nextDev s fun d =>
    let m := d.motAt tp
    let r := m.reel reel
    if d.motState tp = msForced ∧ reel < 2 ∧ m.off.isNone ∧ ! r.handed ∧ d.handMax tp ≤ r.atMin then
      if m.retried then ((d.setMot tp msStartFailed).bump Fld.motErrCntStart tp).motEvent 0x55 tp [item reel] true
      else d.modMot tp fun m => { m with off := some 0 }
    else d

/-- START_RETRY (R267): after 500 ticks of MODE 0 the start is repeated once, from align. -/
def execStartRetry (tp : Nat) (s : State) : Host.Outcome State Fault Refusal :=
  nextDev s fun d =>
    match (d.motAt tp).off with
    | some n =>
      if d.motState tp = msForced ∧ 500 ≤ n then
        (d.modMot tp fun m => { m.fromRest m.dir with retried := true }).alignBegin tp
      else d
    | none => d

/-- STOP_HOLD (R275): v_ref is 0 and |v| has been below 5 mm/s for 50 ticks. -/
def execStopHold (tp : Nat) (s : State) : Host.Outcome State Fault Refusal :=
  nextDev s fun d =>
    let m := d.motAt tp
    if d.motState tp = msStopping ∧ m.vref = 0 ∧ 50 ≤ m.slow then d.enterHold tp else d

/-- CLAMP_CLEAR (R274): 2,500 consecutive ticks within the margins. -/
def execClampClear (tp : Nat) (s : State) : Host.Outcome State Fault Refusal :=
  nextDev s fun d =>
    if d.flag Fld.motStatClamped tp ∧ 2500 ≤ (d.motAt tp).clampOk then (d.setFlag Fld.motStatClamped tp false).setFlag Fld.tpSpdStatClamped tp false else d

/-- LOST_A or LOST_B. -/
def lostFld (reel : Nat) : Fld := if reel = 0 then Fld.motStatLostA else Fld.motStatLostB

/-- The loops run, or a ratio brake has taken them over in this very tick: conditions found at the boundary are still reported
(R284). -/
def Dev.motReports (d : Dev) (t : Nat) : Bool := d.motMoving t || (d.motState t == msBrake && (d.motAt t).age == 0)

/-- LOST_ROTOR (R284, R286): LOST_N consecutive windows missed below HAND_T. A reel lost while the other is lost too is
answered with a ratio brake; a stop or a brake under way goes on. -/
def execLostRotor (tp reel : Nat) (s : State) : Host.Outcome State Fault Refusal :=
  nextDev s fun d =>
    let m := d.motAt tp
    let r := m.reel reel
    if reel < 2 ∧ d.motReports tp ∧ ! r.lost ∧ d.fld1 Fld.motZcCfgLostN tp ≤ r.missed ∧ r.period < 2000 * d.fld1 Fld.motForceCfgHandT tp then
      let both := (m.reel (1 - reel)).lost
      let d := ((d.setFlag (lostFld reel) tp true).bump Fld.motErrCntLost tp).motEvent 0x50 tp
        [item reel, item (rnd r.period).toNat, speedItem m.vIn] true
      let d := d.modReel tp reel fun r => { r with lost := true, predicted := 0, exhausted := false, hit := 0, vAt := m.vIn }
      let d := d.pauseFor tp .lostRotor 1
      if both then d.brakeNow tp .lost
      else if d.motState tp = msRun then d.setMot tp msPredict
      else d
    else d

/-- MOT_REACQUIRED (R286): REACQ_N consecutive windows accepted before PRED_MAX commutations. -/
def execMotReacquired (tp reel : Nat) (s : State) : Host.Outcome State Fault Refusal :=
  nextDev s fun d =>
    let r := (d.motAt tp).reel reel
    if reel < 2 ∧ r.lost ∧ ! r.exhausted ∧ d.fld1 Fld.motZcCfgReacqN tp ≤ r.hit then
      let d := ((d.setFlag (lostFld reel) tp false).motEvent 0x51 tp [item reel, item r.predicted] false).modReel tp reel fun r => { r with lost := false, predicted := 0, missed := 0 }
      if d.motState tp = msPredict ∧ ! (d.motAt tp).reels.any (·.lost) then d.setMot tp msRun else d
    else d

/-- PREDICT_EXHAUSTED (R286): the window of the step begun by the last predicted commutation has closed without an
accepted crossing. -/
def execPredictExhausted (tp reel : Nat) (s : State) : Host.Outcome State Fault Refusal :=
  nextDev s fun d =>
    let r := (d.motAt tp).reel reel
    if reel < 2 ∧ d.motState tp = msPredict ∧ r.lost ∧ r.exhausted then d.controlledStop tp else d

/-- OFF_TRACK (R281): |y_err| above OFFTRACK in 2 consecutive intervals with valid frames. -/
def execOffTrack (tp : Nat) (s : State) : Host.Outcome State Fault Refusal :=
  nextDev s fun d =>
    if d.flag Fld.motStatOnTrack tp ∧ 2 ≤ (d.motAt tp).lat.out then (d.setFlag Fld.motStatOnTrack tp false).pauseFor tp .offTrack 2 else d

/-- ON_TRACK (R281): |y_err| within OFFTRACK/2 in 8 consecutive intervals with valid frames. -/
def execOnTrack (tp : Nat) (s : State) : Host.Outcome State Fault Refusal :=
  nextDev s fun d =>
    if ! d.flag Fld.motStatOnTrack tp ∧ 8 ≤ (d.motAt tp).lat.inTrack then d.setFlag Fld.motStatOnTrack tp true else d

/-- SERVO_LOSS (R281): no valid frame for LOSS_T ticks while |v_ref| is 0.25 m/s or more. -/
def execServoLoss (tp : Nat) (s : State) : Host.Outcome State Fault Refusal :=
  nextDev s fun d =>
    let m := d.motAt tp
    if ! m.lat.loss ∧ m.servoFast ∧ d.fld1 Fld.motSrvCfgLossT tp ≤ m.lat.noFrame then
      (d.modMot tp fun m => { m with lat := { m.lat with loss := true, lossTicks := 0 } }).pauseFor tp .servoLoss 3
    else d

/-- SERVO_LOSS_STOP (R281): servo loss has lasted 10 × LOSS_T ticks. -/
def execServoLossStop (tp : Nat) (s : State) : Host.Outcome State Fault Refusal :=
  nextDev s fun d =>
    let m := d.motAt tp
    if m.lat.loss ∧ 10 * d.fld1 Fld.motSrvCfgLossT tp ≤ m.lat.lossTicks then d.controlledStop tp else d

/-- MOT_CHOP_FAULT (R287): FAULT_N rising intervals under the chopper; a stream under way ends as at the end of its wrap. -/
def execMotChopFault (tp : Nat) (s : State) : Host.Outcome State Fault Refusal :=
  nextDev s fun d =>
    let m := d.motAt tp
    if tp < 8 ∧ ! d.flag Fld.motStatChopFault tp ∧ d.fld1 Fld.motBusCfgFaultN tp ≤ m.bus.rising then
      let d := (d.setFlag Fld.motStatChopFault tp true).bump Fld.motErrCntChop tp
      (d.motEvent 0x52 tp [item (rnd (m.bus.mean / 10)).toNat, item (rnd (d.decelLimit tp)).toNat] true).modWr tp fun w =>
        { w with chopEnd := w.mode == .streaming || w.mode == .approach }
    else d

end Sys2Proof.Machine
end

