-- ==== Sys2Proof/Machine/Queues.lean ====
section
/-! DEFINITION. The queue system beyond writes (R365, R369 to R373): resets and flushes, watermarks, QF pins, PFC. -/

namespace Sys2Proof.Machine

/-! ### Flush and reset -/

/-- A queue reset (R369, R374): emptied, counted, posted with its cause and the entries lost. Items of a never-stalling
producer count in DROPS; a lost staging entry is restored, since its data set stays staged. -/
def Dev.queReset (d : Dev) (q cause : Nat) : Dev :=
  let lost := d.queLevel q
  let items := (d.queAt q).items.length
  let d := (d.queEmpty q).modQue q fun s => { s with head := 0 }
  ((d.bump Fld.queQCntResets q).bump Fld.queQCntDrops q items).postBoth 0x78 blkQue 0 [item q, item cause, item lost]

/-- Resets and flushes that are due at a boundary (R369, R370). -/
def Dev.queBoundary (d : Dev) : Dev :=
  d.que.qs.foldl (fun d (q, s) =>
    if s.broken ≠ 0 then d.queReset q s.broken
    else if s.flush then d.queEmpty q
    else d) d

/-! ### Large queues (R364, R370) -/

/-- What large queues have written this tick reaches buffer memory. -/
def queStoreAll (hd : Hbm × Dev) : Hbm × Dev :=
  hd.2.que.out.foldl (fun hd x => memWrite hd x.1 x.2 false) (hd.1, { hd.2 with que := { hd.2.que with out := [] } })

/-- An 8-byte lane under its check byte (R370): the data and whether a single-bit error was corrected; none with a double-bit error. -/
def laneRead (data : BitVec 64) (chk : Byte) : Option (BitVec 64 × Bool) :=
  if Config.laneCheck data = chk then some (data, false)
  else
    match (List.range 64).find? fun i => Config.laneCheck (data ^^^ BitVec.ofNat 64 (2 ^ i)) == chk with
    | some i => some (data ^^^ BitVec.ofNat 64 (2 ^ i), true)
    | none => if (List.range 8).any fun i => Config.laneCheck data == chk ^^^ BitVec.ofNat 8 (2 ^ i) then some (data, true) else none

/-- One entry of a large queue as its consumer reads it from the area (R364, R370), with the lanes corrected; none with a double-bit
error. Where areas overlap, the entry is whatever was stored there last. -/
def queEntryRead (hd : Hbm × Dev) (q slot consumer : Nat) : Dev × Option (List Byte × Nat) :=
  let (d, data, _) := hd.2.memBytes hd.1 (hd.2.queAddr q (64 * slot)) 64 consumer
  let (d, chk, _) := d.memBytes hd.1 (hd.2.queAddr q (64 * hd.2.queSize q + 8 * slot)) 8 consumer
  let lanes := (List.range 8).map fun i => laneRead (BitVec.ofNat 64 (leAt data (8 * i) 8)) (chk.getD i 0#8)
  (d, if lanes.all Option.isSome then
      some ((lanes.filterMap id).flatMap (fun x => leBytes 8 x.1.toNat), ((lanes.filterMap id).filter (·.2)).length)
    else none)

/-- A consumer takes the item at a queue's head (R364, R368, R370): that of a large queue as buffer memory holds it, each corrected lane
counted in CE; a double-bit error is not delivered and the queue is reset at the next boundary. -/
def Dev.queTake (d : Dev) (h : Hbm) (q consumer : Nat) : Dev × Option (List Byte) :=
  match d.queHead q with
  | none => (d, none)
  | some it =>
    if d.queLarge q then
      let first := (d.queAt q).head
      let (d, es) := (List.range it.n).foldl (fun (x : Dev × List (Option (List Byte × Nat))) i =>
        let (d, e) := queEntryRead (h, x.1) q ((first + i) % x.1.queSize q) consumer
        (d, x.2 ++ [e])) (d, [])
      if es.all Option.isSome then
        (((d.bump Fld.queQCntCe q ((es.filterMap id).map (·.2)).sum).quePop q), some ((es.filterMap id).flatMap (·.1)))
      else (d.modQue q fun s => { s with broken := 2 }, none)
    else (d.quePop q, some it.body)

/-! ### Watermarks (R371) -/

/-- The effective HIGH. -/
def Dev.queHigh (d : Dev) (q : Nat) : Nat :=
  let h := d.fld Fld.queQWmHigh q
  let n := d.queSize q
  if h = 0 ∨ n < h then n else h

/-- The effective LOW. -/
def Dev.queLow (d : Dev) (q : Nat) : Nat := min (d.fld Fld.queQWmLow q) (d.queHigh q - 1)

/-- The ABOVE flag of a queue. -/
def Dev.queAbove (d : Dev) (q : Nat) : Bool := d.flag Fld.queQStatAbove q

/-- An Ethernet port is present, enabled and up (R373). -/
def Dev.portLive (d : Dev) (p : Nat) : Bool := d.flag Fld.ethPortStatPresent p && d.flag Fld.ethPortCfgEn p && d.flag Fld.ethPortStatUp p

/-- Ethernet ports (R485). -/
def ethPorts : Nat := 16

/-- A PFC frame for a queue on one port (R373). -/
def Dev.pfcOn (d : Dev) (q p quanta : Nat) : Dev :=
  let o : Out := .pfc p (d.fld Fld.queQCfgPfcPri q) quanta
  if ! d.portLive p then d
  else if d.ethLate p then { d with eth := { d.eth with late := d.eth.late ++ [o] } }
  else { (d.emit o) with eth := { d.eth with pfcAt := tput d.eth.pfcAt (256 * p + q) d.clk } }

/-- Another queue's flag keeps a priority paused (R373). -/
def Dev.pfcHeld (d : Dev) (q : Nat) : Bool :=
  (List.range 249).any fun o => o != q && d.queAbove o && d.flag Fld.queQCfgPfcEn o && d.fld Fld.queQCfgPfcPri o == d.fld Fld.queQCfgPfcPri q

/-- ABOVE of one queue at a boundary, with the PFC frames that a change sends (R371, R373). -/
def Dev.queWatch (d : Dev) (q : Nat) : Dev :=
  let l := d.queLevel q
  let d := d.setFld Fld.queQStatLevel q l
  let old := d.queAbove q
  let now := if d.queEn q ∧ d.queHigh q ≤ l ∧ 0 < d.queHigh q then true else if l ≤ d.queLow q then false else old
  let d := d.setFlag Fld.queQStatAbove q now
  if now = old ∨ ! d.flag Fld.queQCfgPfcEn q then d
  else if now then (List.range ethPorts).foldl (fun d p => d.pfcOn q p 0xFFFF) d
  else if d.pfcHeld q then d
  else (List.range ethPorts).foldl (fun d p => d.pfcOn q p 0) d

/-- PFC frames that an overrun put off leave (R16). -/
def Dev.pfcLate (d : Dev) : Dev := d.eth.late.foldl Dev.emit { d with eth := { d.eth with late := [] } }

/-- WATERMARK_EVAL (R371) and the QF pins (R372). -/
def Dev.watermarks (d : Dev) : Dev :=
  let d := (List.range 249).foldl (fun d q => if d.queEn q || d.queAbove q || d.fld Fld.queQStatLevel q != 0 then d.queWatch q else d) d
  let pins := (List.range 249).filter fun q => decide (d.fld Fld.queQCfgQf q < 8) && d.queAbove q
  d.setFld Fld.queQfStatPin 0 ((List.range 8).filter (fun p => pins.any fun q => d.fld Fld.queQCfgQf q == p) |>.map (2 ^ ·)).sum

/-! ### Configuration (R365, R372) -/

/-- A QUE_Qq_CFG write at its boundary: the fixed queues keep EN, SIZE, FRAMED, NOSTALL and BASE (R375); a QF pin named
twice goes to the later write; a change of SIZE, BASE or FRAMED of an enabled queue resets it. -/
def Dev.queCfgApply (d : Dev) (q : Nat) (v : Word32) : Dev :=
  if 0xF9 ≤ q ∧ q < 0xFF then d
  else
    let old := d.rawReg .queQCfg q
    let fixed := BitVec.ofNat 32 0x0FFF007F
    let v := if 0xF0 ≤ q then (old &&& fixed) ||| (v &&& ~~~ fixed) else v
    let parts (d : Dev) := (d.fld Fld.queQCfgSize q, d.fld Fld.queQCfgBase q, d.fld Fld.queQCfgFramed q)
    let before := parts d
    let was := d.queEn q
    let d := d.storeReg .queQCfg q v
    let pin := d.fld Fld.queQCfgQf q
    let d := if pin < 8 then (List.range 249 ++ [0xFF]).foldl (fun d o => if o ≠ q ∧ d.fld Fld.queQCfgQf o = pin then d.setFld Fld.queQCfgQf o 8 else d) d else d
    if was ∧ parts d ≠ before then d.queReset q 3
    else if was ∧ ! d.queEn q then d.modQue q fun s => { s with items := [] }
    else d

/-! ### The commands -/

/-- QUEUE_RESET (R370): a pointer mismatch or a double-bit error is found; the queue is reset at the next boundary. -/
def execQueueReset (q cause : Nat) (s : State) : Host.Outcome State Fault Refusal :=
  nextDev s fun d =>
    if d.queEn q ∧ q ≠ 0xFF ∧ (cause = 1 ∧ ! d.queLarge q ∨ cause = 2 ∧ d.queLarge q) then d.modQue q fun s => { s with broken := cause } else d

/-- QUEUE_CFG_WRITE (R365): a write of QUE_Qq_CFG, which acts at the next boundary. -/
def execQueueCfgWrite (q : Nat) (value : BitVec 32) (s : State) : Host.Outcome State Fault Refusal :=
  nextDev s fun d => if q < 256 then d.queueWrite (RegId.queQCfg.offset q) value else d

/-- QUEUE_FLUSH (R369): a write of 1 to QUE_Qq_CTL.FLUSH, which acts at the next boundary. -/
def execQueueFlush (q : Nat) (s : State) : Host.Outcome State Fault Refusal :=
  nextDev s fun d => if q < 256 then d.queueWrite (RegId.queQCtl.offset q) 1 else d

/-- PFC_REPEAT (R373): two ticks have passed since the port's last frame for a queue whose ABOVE stays set. -/
def execPfcRepeat (port : Nat) (s : State) : Host.Outcome State Fault Refusal :=
  nextDev s fun d =>
    ((List.range 249).filter fun q => d.queAbove q && d.flag Fld.queQCfgPfcEn q && decide (tgetD d.eth.pfcAt (256 * port + q) 0 + 2 ≤ d.clk)).foldl
      (fun d q => d.pfcOn q port 0xFFFF) d

end Sys2Proof.Machine
end

