-- ==== Sys2Proof/Machine/Write.lean ====
section
/-! DEFINITION. Writing (R141 to R168, R196 to R227): row blocks and their placement, the write stream, verify, rewrite
slots, abandonment, hold and flush regions, backhitch and wrap turns, retirement and speed matching. -/

namespace Sys2Proof.Machine

/-! ### Placement of rows on channels (R150 to R155) -/

/-- Live channels in increasing number. -/
def liveChans (ret : BitVec 64) : List Nat := (List.range 64).filter fun c => ! ret.getLsbD c
/-- Retired channels in increasing number. -/
def retChans (ret : BitVec 64) : List Nat := (List.range 64).filter fun c => ret.getLsbD c

/-- X of R151. -/
def extPositions (ret : BitVec 64) : Nat := ceilDiv (128 * chCount ret) (64 - chCount ret)

/-- Positions of a region (R152, R154). -/
def regionLen (ret : BitVec 64) : Nat := 132 + extPositions ret

/-- The channel and region position of a row (R153). -/
def rowPlace (ret : BitVec 64) (s r : Nat) : Nat × Nat :=
  let lc := (s + r) % 64
  if ! ret.getLsbD lc then (lc, if r < 112 then 4 + r else 116 + extPositions ret + (r - 112))
  else
    let live := liveChans ret
    let e := 128 * (retChans ret).idxOf lc + r
    (live.getD (e % live.length) 0, 116 + e / live.length)

/-- The row that stands on channel `ch` at region position `q`, the inverse of `rowPlace`; none for a slot, an unused
extension place or a retired channel. -/
def rowAt (ret : BitVec 64) (q ch : Nat) : Option (Nat × Nat) :=
  let x := extPositions ret
  if ret.getLsbD ch ∨ q < 4 then none
  else if q < 116 then some ((ch + 64 * 2 - (q - 4)) % 64, q - 4)
  else if q < 116 + x then
    let live := liveChans ret
    let e := (q - 116) * live.length + live.idxOf ch
    if e < 128 * chCount ret then
      let lc := (retChans ret).getD (e / 128) 0
      some ((lc + 128 - e % 128) % 64, e % 128)
    else none
  else if q < 132 + x then
    let r := 112 + (q - 116 - x)
    some ((ch + 128 - r) % 64, r)
  else none

/-- The last region position that carries base rows of number `r` or below needs this row of parity (R300). -/
def baseRow (ret : BitVec 64) (q : Nat) : Nat :=
  let x := extPositions ret
  if q < 4 then 0 else if q < 116 then q - 4 else if q < 116 + x then 127 else 112 + (q - 116 - x)

/-! ### Row blocks (R142 to R149) -/

/-- A row header (R146). -/
def rowHeader (ds sds row ch wrap rewrite flags attempt member : Nat) (tag : BitVec 16) : List Byte :=
  let b := leBytes 3 ds ++ leBytes 1 sds ++ leBytes 1 row ++ leBytes 1 ch ++ leBytes 2 wrap ++ leBytes 1 rewrite ++ leBytes 1 flags
    ++ leBytes 1 attempt ++ leBytes 1 member ++ leBytes 2 tag.toNat
  b ++ leBytes 2 (crc16 b).toNat

/-- What a channel carries at a position: gap fill, or a header with the row it stands for (none for filler). -/
inductive Block where
  | gap
  | row (head : List Byte) (id : Option RowId)
  deriving DecidableEq, Repr

/-- The block that channel `ch` carries at a position (R148, R152, R156, R162, R164, R213). -/
def Position.block (p : Position) (ch : Nat) : Block :=
  let fl := if p.splice then 8 else 0
  let filler (extra : Nat) := Block.row (rowHeader p.ds 0 0 ch p.wrap 0 (2 + extra + fl) p.attempt p.member p.tag) none
  let rewrite (extra : Nat) (x : RowId) := Block.row (rowHeader x.ds x.sds x.row ch p.wrap 1 (1 + extra + fl) x.attempt p.member p.tag) (some x)
  if p.retired.getLsbD ch then .gap
  else
    match p.kind with
    | .gap => .gap
    | .flush =>
      match (p.rw.find? fun r => r.1 == ch) with
      | some (_, x) => rewrite 4 x
      | none => filler 4
    | .region | .hold =>
      match (p.rw.find? fun r => r.1 == ch) with
      | some (_, x) => rewrite 0 x
      | none =>
        match rowAt p.retired p.q ch with
        | some (s, r) => .row (rowHeader p.ds s r ch p.wrap 0 fl p.attempt p.member p.tag) (some { ds := p.ds, sds := s, row := r, attempt := p.attempt })
        | none => filler 0

/-- Rows of a sub data set that carry data, and bytes of a row (R141, R143). -/
def dataRows : Nat := 112
/-- Bytes of a row before C1. -/
def rowBytes : Nat := 464

/-- A data set that the writing control still holds, by number. -/
def Wr.findDs (w : Wr) (no : Nat) : Option DsWr :=
  (w.live ++ w.again ++ w.lastDs.toList ++ w.staged).find? fun x => x.no == no

/-- The 464 bytes of a row: of the payload, or of the parity computed (R141, R143). -/
def Dev.rowData (d : Dev) (h : Hbm) (x : DsWr) (s r : Nat) : List Byte :=
  if r < dataRows then
    match d.payloadBuf x with
    | some b => (d.bufBytes h b (s * (dataRows * rowBytes) + r * rowBytes) rowBytes blkEnc).2.1
    | none => zeros rowBytes
  else (x.parity.getD s []).getD (r - dataRows) (zeros rowBytes)

/-- The 4,288 channel bits that channel `ch` carries at a position (R157 to R161). -/
def Dev.blockBits (d : Dev) (h : Hbm) (w : Wr) (p : Position) (ch : Nat) : List Bool :=
  match p.block ch with
  | .gap => gapFillBits ch
  | .row head none => rowBlockBits ch (head ++ zeros 496)
  | .row head (some id) =>
    match w.findDs id.ds with
    | some x => rowBlockBits ch (head ++ c1Body (d.rowData h x id.sds id.row))
    | none => rowBlockBits ch (head ++ zeros 496)

/-- Channel bits of a position (R150). -/
def posBits : Nat := 4288

/-! ### C2 parity (R143, R145) -/

/-- C2_PARITY_PASS of one tick for a transport: two sub data sets of the first data set that still needs them and whose
payload stands complete in its buffer. -/
def c2Pass (hd : Hbm × Dev) (t : Nat) : Hbm × Dev :=
  let (h, d) := hd
  let w := d.wrAt t
  let whole (x : DsWr) : Bool := x.rebuilt ||
    (match (d.spanAt x.slot).bind fun s => (tget s.rows x.row).map fun r => (s, r) with
     | some (s, r) => if x.member < (s.descOf x.row).k then decide ((x.member + 1) * payloadLen ≤ r.assembled) else r.parity == parityTotal
     | none => false)
  match (w.live ++ w.again ++ w.staged).find? fun x => decide (x.parity.length < 64) && whole x with
  | none => hd
  | some x =>
    let rows (s : Nat) : List (List Byte) := c2Rows ((List.range dataRows).map fun r => d.rowData h x s r)
    let more := ((List.range 2).map fun i => x.parity.length + i).filter (· < 64)
    let up (y : DsWr) : DsWr := if y.no = x.no then { y with parity := x.parity ++ more.map rows } else y
    (h, d.modWr t fun w => { w with live := w.live.map up, again := w.again.map up, staged := w.staged.map up, lastDs := w.lastDs.map up })

/-! ### The stream's places on tape -/

/-- Stream offset at which position `n` begins. -/
def Wr.posStart (w : Wr) (n : Nat) : Nat := w.base + posBits * n

/-- Channel bits per tick (R205): WR_RATE divided by the ticks of a second. -/
def Dev.tickBits (d : Dev) (t : Nat) : Nat := (d.density t * (d.motAt t).v / 1000000000 / 50000).floor.toNat

/-- WR_RATE in bit/s (R197), within the range that the header field has (R174). -/
def Dev.wrRate (d : Dev) (t : Nat) : Nat := min 262000000 (d.density t * (d.motAt t).v / 1000000000).floor.toNat

/-- The stream offset that the write elements have reached: what was sent less what is queued. -/
def Dev.writtenBits (d : Dev) (t : Nat) : Nat := (d.tpAt t).off - (d.tpAt t).fifo

/-- Bits encoded and not yet sent. -/
def Dev.unsent (d : Dev) (t : Nat) : Nat := (d.wrAt t).posStart (d.wrAt t).next - (d.tpAt t).off

/-- Every bit that was encoded has been written. -/
def Dev.ranDry (d : Dev) (t : Nat) : Bool := decide (d.unsent t = 0) && decide ((d.tpAt t).fifo = 0)

/-- LEAD in ticks (R195). -/
def Dev.leadTicks (d : Dev) (t : Nat) : Nat := max 8 (d.fld Fld.tpLinkCfgLead t)

/-- The length of a position in nm (R198). -/
def Dev.posLen (d : Dev) (t : Nat) : Rat := if d.density t = 0 then 0 else (posBits * 1000000000 : Nat) / (d.density t : Rat)

/-- The direction of the wrap: even wraps run from A to B. -/
def Wr.dirOf (w : Wr) : Bool := w.wrap % 2 == 1

/-- The rest of the wrap behind the last position encoded, in positions (R198). -/
def Dev.restOfWrap (d : Dev) (t : Nat) : Nat :=
  let m := d.motAt t
  let w := d.wrAt t
  let total : Int := 1000000 * d.idn t 16 4
  let left := if w.dirOf then m.lpos else total - m.lpos
  if d.posLen t = 0 then 0
  else
    let ahead := (w.posStart w.next - d.writtenBits t) / posBits
    (left / d.posLen t).floor.toNat - ahead

/-! ### Slots (R203, R204, R211) -/

/-- The channels scanned for a row that failed on channel `c`. -/
def scanFrom (ret : BitVec 64) (c : Nat) : List Nat := ((List.range 63).map fun i => (c + 1 + i) % 64).filter fun x => ! ret.getLsbD x

/-- Rows in the order in which they are placed: by sub data set, then row. -/
def orderFails (l : List FailRow) : List FailRow := l.mergeSort fun a b => decide (a.sds < b.sds) || (a.sds == b.sds && decide (a.row ≤ b.row))

/-- Place rows in the four slots of each channel (R203): for each row its channel and slot, or none when no channel has
a free one. -/
def placeSlots (ret : BitVec 64) : List FailRow → List (Nat × Nat) → List (FailRow × Option (Nat × Nat))
  | [], _ => []
  | f :: fs, used =>
    let n (c : Nat) := (used.filter fun u => u.1 == c).length
    match (scanFrom ret f.ch).find? fun c => decide (n c < 4) with
    | some c => (f, some (c, n c)) :: placeSlots ret fs ((c, n c) :: used)
    | none => (f, none) :: placeSlots ret fs used

/-- Place rows in flush positions `qs`, position by position across channels (R211). -/
def placeFlush (ret : BitVec 64) (qs : List Nat) : List FailRow → List (Nat × Nat) → List (FailRow × Option (Nat × Nat))
  | [], _ => []
  | f :: fs, used =>
    let opts := qs.flatMap fun q => ((scanFrom ret f.ch).filter fun c => ! used.contains (c, q)).map fun c => (c, q)
    match opts.head? with
    | some u => (f, some u) :: placeFlush ret qs fs (u :: used)
    | none => (f, none) :: placeFlush ret qs fs used

/-- Change the data set of a number wherever the writing control holds it. -/
def Dev.modDs (d : Dev) (t no : Nat) (f : DsWr → DsWr) : Dev :=
  let g (x : DsWr) : DsWr := if x.no = no then f x else x
  d.modWr t fun w => { w with live := w.live.map g, again := w.again.map g }

/-- Record the rows placed: they are rewrites from now on, counted in REWRITES. -/
def Dev.notePlaced (d : Dev) (t no : Nat) (ps : List (FailRow × Option (Nat × Nat))) (lastPos : Nat) : Dev :=
  let done := ps.filterMap fun p => p.2.map fun _ => p.1
  let d := d.modDs t no fun x => { x with
    fails := x.fails.map fun f => if done.any fun g => g.sds == f.sds && g.row == f.row then { f with placed := true } else f
    rwLeft := x.rwLeft + done.length, last := if done = [] then x.last else max x.last lastPos }
  d.bump Fld.tpWrCnt0Rewrites t done.length

/-! ### Failure of a transport and retirement (R217 to R219) -/

/-- WR_FAILING (R208, R219, R225): the span set treats the member as failed; a ninth retirement, cause 1, marks the transport failing, so
that no further region is started. -/
def Dev.wrFailing (d : Dev) (t cause : Nat) : Dev :=
  let d := (if cause = 1 then d.setFlag Fld.tpWrStatFailing t true else d).postBoth 0x42 blkEnc t [item t, item cause]
  match d.servedBy t with
  | some (slot, m) => d.memberFail slot m (if cause = 1 then 3 else 2)
  | none => d

/-- Retire a channel for a cause (R217 to R219): the ninth retirement marks the transport failing instead. -/
def Dev.retire (d : Dev) (t ch cause : Nat) : Dev :=
  let map := d.retired t
  if map.getLsbD ch then d
  else if 8 ≤ chCount map then d.wrFailing t 1
  else
    let d := if ch < 32 then d.setFld Fld.tpRetireLoMap t (d.fld Fld.tpRetireLoMap t + 2 ^ ch) else d.setFld Fld.tpRetireHiMap t (d.fld Fld.tpRetireHiMap t + 2 ^ (ch - 32))
    let n := chCount map + 1
    (d.setFld Fld.tpWrStatRetired t n).postBoth 0x41 blkEnc t [item t, item ch, item cause, item n]

/-- Bytes of a row block that C1 covers (R142). -/
def c1Bytes : Nat := 496

/-- RDC_CHc_BER.RATE of channel `c` (R438, R487): pre-C1 byte errors per 2^32 bytes over the last 64 regions. -/
def Wr.berRate (w : Wr) (c : Nat) : Nat :=
  let xs := w.regions.map fun r => r.getD c (0, 0)
  let bytes := c1Bytes * (xs.map (·.1)).sum
  if bytes = 0 then 0 else min (2 ^ 32 - 1) (2 ^ 32 * (xs.map (·.2)).sum / bytes)

/-- The end of a region's results (R202, R217, R438): failed counts and error rates per channel, and retirement on failure. -/
def Dev.regionStats (d : Dev) (t : Nat) : Dev :=
  let w := d.wrAt t
  let lim := d.fld1 Fld.tpRetCfgFailRows t
  let bad := (List.range 64).map fun c => if lim < w.failCnt.getD c 0 then w.badRegions.getD c 0 + 1 else 0
  let w' : Wr := { w with
    badRegions := bad, regions := ((w.checked.zip w.corr) :: w.regions).take 64
    failCnt := List.replicate 64 0, corr := List.replicate 64 0, checked := List.replicate 64 0 }
  let d := (List.range 64).foldl (fun d c =>
    (d.setFld Fld.rdcChSnrFailed (64 * t + c) (min 65535 (w.failCnt.getD c 0))).setFld Fld.rdcChBerRate (64 * t + c) (w'.berRate c)) d
  let d := d.modWr t fun _ => w'
  if d.flag Fld.tpRetCfgAuto t then
    ((List.range 64).filter fun c => decide (d.fld1 Fld.tpRetCfgFailRegions t ≤ bad.getD c 0)).foldl (fun d c => d.retire t c 1) d
  else d

/-! ### Abandonment (R207, R208) -/

/-- The payload buffers that the encoder holds through SHARE: of every data set whose region has begun, or that a joining member has yet to
write (R318), once each. -/
def Wr.shares (w : Wr) : List (BitVec 32) :=
  let others := (w.live ++ w.again ++ w.staged).filter fun x => (w.lastDs.map (·.no)) != some x.no
  ((w.lastDs.toList ++ others).filter fun x => x.started && x.payload != nullHandle).map (·.payload)

/-- The encoder no longer needs a data set's payload (R359, R489: it holds the buffer through SHARE under owner 6). -/
def Dev.unshare (d : Dev) (x : DsWr) : Dev :=
  if x.started then
    match d.payloadBuf x with
    | some b => d.release b 6
    | none => d
  else d

/-- Rows of a data set that stand in a position, rewrites aside. -/
def Position.rowCount (p : Position) : Nat := ((List.range 64).filter fun ch => (rowAt p.retired p.q ch).isSome).length

/-- The positions of regions that are dropped leave failures behind (R205): their rows, in a region that is cut short, and the
rewrites that are lost with them. -/
def Dev.loseCut (d : Dev) (t : Nat) (ps : List Position) : Dev :=
  let rws := ps.flatMap fun p => p.rw.map (·.2)
  let d := d.bump Fld.tpWrCnt1Late t ((ps.map Position.rowCount).sum + rws.length)
  let hit (x : DsWr) (f : FailRow) : Bool := rws.any fun r => r.ds == x.no && r.sds == f.sds && r.row == f.row
  d.modWr t fun w => { w with live := w.live.map fun x => { x with
    rwLeft := x.rwLeft - (rws.filter fun r => r.ds == x.no).length, fails := x.fails.map fun f => if hit x f then { f with late := true } else f } }

/-- Abandon attempts for a trigger (R207, R208, R225): their data sets are written again, in increasing number, after a
skip gap, as an attempt above every one made of them (R213). A data set that would need attempt 256 makes its member fail. -/
def Dev.abandon (d : Dev) (t trigger : Nat) (nos : List Nat) : Dev :=
  let w := d.wrAt t
  let hit := w.live.filter fun x => nos.contains x.no
  if hit = [] then d
  else
    let d := hit.foldl (fun d x => (d.bump Fld.tpWrCnt1Abandon t).postEvent 0x40 blkEnc t [item t, item x.no, item x.attempt, item trigger]) d
    let cut := w.todo.filter fun p => p.kind == .region
    let d := d.loseCut t cut
    let last (x : DsWr) : Nat := ((w.lastDs.filter fun y => y.no == x.no).map (·.attempt)).getD 0
    let next : List DsWr := hit.map fun x => { x with
      attempt := max x.attempt (last x) + 1, fails := [], fixed := false, left := 8192, rwLeft := 0
      encoded := false, written := false, verified := false, under := false }
    let d := d.modWr t fun w => { w with
      live := w.live.filter fun x => ! nos.contains x.no
      again := (w.again ++ next).mergeSort fun a b => decide (a.no ≤ b.no)
      gapDue := true, todo := w.todo.filter fun p => p.kind != .region, credit := if cut = [] then w.credit else 0
      lastKind := if cut = [] then w.lastKind else .region
      failCnt := List.replicate 64 0, corr := List.replicate 64 0, checked := List.replicate 64 0 }
    if next.any fun x => decide (256 ≤ x.attempt) then d.wrFailing t 2 else d

/-- Positions encoded that the write elements have not passed. -/
def Dev.aheadOf (d : Dev) (t : Nat) : List Position :=
  let w := d.wrAt t
  w.stream.filter fun p => decide (d.writtenBits t < w.posStart p.num + posBits)

/-- The data sets whose region is being encoded or written, and those whose rewrites stand in the positions `ps`. -/
def Dev.undone (d : Dev) (t : Nat) (ps : List Position) : List Nat :=
  let rws := ps.flatMap fun p => p.rw.map fun r => r.2.ds
  let regions := ((d.aheadOf t).filter fun p => p.kind == .region).map (·.ds)
  (((d.wrAt t).live.filter fun x => ! x.encoded || rws.contains x.no || regions.contains x.no).map (·.no))

/-- The data sets that triggers 3 and 4 abandon (R207): the one whose region is being encoded or written, and the one
whose rewrites stand in that region's unwritten slots. -/
def Dev.unwritten (d : Dev) (t : Nat) : List Nat := d.undone t ((d.aheadOf t ++ (d.wrAt t).todo).filter fun p => p.kind == .region)

/-- The data sets that trigger 5 abandons (R207): the one being written, and those whose rewrites are not all written. -/
def Dev.unfinished (d : Dev) (t : Nat) : List Nat := d.undone t (d.aheadOf t ++ (d.wrAt t).todo)

/-- The position that the write elements are at. -/
def Dev.positionNow (d : Dev) (t : Nat) : Option Position :=
  let w := d.wrAt t
  let at_ := d.writtenBits t
  w.stream.find? fun p => decide (w.posStart p.num ≤ at_) && decide (at_ < w.posStart p.num + posBits)

/-! ### Results (R200 to R206, R212) -/

/-- A row block found on a channel against the header that was written (R200): whether both C1 codewords decode by hard decision with at
most C1_LIMIT corrections each, and the corrections of those that decode. -/
def verifyFound (limit : Nat) (head : List Byte) (f : Found) : Option (Bool × Nat) :=
  if f.head = head then
    match rsDecode 16 (evens f.body) [], rsDecode 16 (odds f.body) [] with
    | some (_, a), some (_, b) => some (decide (a ≤ limit) && decide (b ≤ limit), a + b)
    | some (_, a), none => some (false, a)
    | none, some (_, b) => some (false, b)
    | none, none => some (false, 0)
  else none

/-- Late failures of a sub data set (R205). -/
def lateIn (x : DsWr) (sds : Nat) : Nat := (x.fails.filter fun f => f.sds == sds && f.late).length

/-- The time on tape of a data set in ns (R67). -/
def Dev.timeOnTape (d : Dev) (x : DsWr) : Nat := (d.clk - x.begun) * 20000

/-- Every position of a data set's region and of its rewrites has been sent without UNDERRUN (R206): WRITTEN goes to the span engine. -/
def Dev.dsWritten (d : Dev) (t : Nat) (x : DsWr) : Dev :=
  let ns := d.timeOnTape x
  let d := d.modDs t x.no fun x => { x with written := true }
  if spanSlotMax ≤ x.slot then d.peerStatus x.slot t x.row true false ns
  else if x.rebuilt then d
  else (d.memberWritten x.slot x.row x.member).modSpan x.slot fun s => { s with rows := tmod s.rows x.row fun r => { r with times := r.times.set x.member ns } }

/-- A data set has been decided as passing (R205, R206): VERIFIED goes to the span engine. The time on tape of one that is not reported
WRITTEN counts as well (R67). -/
def Dev.dsVerified (d : Dev) (t : Nat) (x : DsWr) : Dev :=
  let ns := if x.written then 0 else d.timeOnTape x
  let d := if x.written ∨ x.rebuilt then d
    else d.modSpan x.slot fun s => { s with rows := tmod s.rows x.row fun r => { r with times := r.times.set x.member ns } }
  let d := d.modWr t fun w => { w with live := w.live.filter fun y => y.no != x.no }
  let d := d.modRd t fun r => { r with held := if r.took.isSome then r.held else none }
  let d := if ((d.wrAt t).lastDs.map (·.no)) = some x.no then d else d.unshare x
  if spanSlotMax ≤ x.slot then (d.release x.payload 10).peerStatus x.slot t x.row false true ns
  else if x.rebuilt then (d.release x.payload 5).modSpan x.slot fun s => { s with rebuild := s.rebuild.map fun r => { r with done := r.done + 1 } }
  else d.memberVerified x.slot x.row x.member

/-- Check a data set after a result or a fixing (R205): abandon it when a sub data set exceeds LATE_MAX, or report it. -/
def Dev.checkDs (d : Dev) (t no : Nat) : Dev :=
  let w := d.wrAt t
  match w.live.find? fun x => x.no == no with
  | none => d
  | some x =>
    let lim := min 8 (d.fld Fld.encVfyCfgLateMax 0)
    if x.fails.any fun f => decide (lim < lateIn x f.sds) then
      d.abandon t 2 ((w.live.filter fun y => decide (no ≤ y.no)).map (·.no))
    else if x.encoded ∧ x.left = 0 ∧ x.rwLeft = 0 ∧ x.fails.all (fun f => f.late || f.passed) then d.dsVerified t x
    else d

/-- A region row of a data set has its result. -/
def Dev.rowResult (d : Dev) (t : Nat) (id : RowId) (ch : Nat) (rewrite ok : Bool) : Dev :=
  let w := d.wrAt t
  match w.live.find? fun x => x.no == id.ds && x.attempt == id.attempt with
  | none => d
  | some x =>
    let late := ! ok && (rewrite || x.fixed)
    let d := if late then d.bump Fld.tpWrCnt1Late t else d
    let d := d.modDs t id.ds fun x =>
      if rewrite then { x with
        rwLeft := x.rwLeft - 1
        fails := x.fails.map fun f => if f.sds = id.sds ∧ f.row = id.row then { f with passed := ok, late := ! ok } else f }
      else { x with
        left := x.left - 1
        fails := if ok then x.fails else x.fails ++ [{ sds := id.sds, row := id.row, ch := ch, late := x.fixed }] }
    let last := ! rewrite && x.left == 1
    (if last then d.regionStats t else d).checkDs t id.ds

/-- Rows that missed the slots are late failures once the slots are fixed (R205). -/
def Dev.fixLate (d : Dev) (t no : Nat) : Dev :=
  let n := match (d.wrAt t).live.find? fun x => x.no == no with
    | some x => (x.fails.filter fun f => ! f.placed && ! f.late).length
    | none => 0
  let d := d.bump Fld.tpWrCnt1Late t n
  (d.modDs t no fun x => { x with fixed := true, fails := x.fails.map fun f => if f.placed then f else { f with late := true } }).checkDs t no

/-- A row block's verify result in its channel's statistics (R202): of any kind, and of a region. -/
def Wr.countBlock (w : Wr) (ch : Nat) (ok : Bool) (corr : Nat) (region : Bool) : Wr :=
  let w := { w with stats := lmod w.stats ch fun s => (s.1 + 1, s.2.1 + b2n (! ok), s.2.2 + corr) }
  if region then { w with
    failCnt := if ok then w.failCnt else lmod w.failCnt ch (· + 1), corr := lmod w.corr ch (· + corr), checked := lmod w.checked ch (· + 1) }
  else w

/-- The result of channel `ch` at a position of the stream is committed (R200 to R202). A gap-fill row block carries no mark, so it cannot
pass; like filler, flush and hold row blocks it counts in the statistics only. -/
def Dev.verifyOne (d : Dev) (t ch : Nat) (p : Position) : Dev :=
  let d := d.modWr t fun w => { w with stream := w.stream.map fun x => if x.num = p.num then { x with judged := x.judged ||| BitVec.ofNat 64 (2 ^ ch) } else x }
  match p.block ch with
  | .gap => d.modWr t fun w => w.countBlock ch false 0 false
  | .row head id =>
    let lim := min 8 (d.fld Fld.encVfyCfgC1Limit 0)
    let hit := (d.rdAt t).found.findSome? fun f => if f.ch = ch then verifyFound lim head f else none
    let ok := (hit.map (·.1)).getD false
    let region := id.isSome && p.kind == .region && (d.wrAt t).live.any fun y => y.no == p.ds && y.attempt == p.attempt
    let d := d.modRd t fun r => { r with found := r.found.filter fun f => ! (f.ch == ch && f.head == head) }
    let d := d.modWr t fun w => w.countBlock ch ok ((hit.map (·.2)).getD 0) region
    match id, p.kind with
    | some id, .region => d.rowResult t id ch (id.ds != p.ds) ok
    | some id, .flush => d.rowResult t id ch true ok
    | _, _ => d

/-- The stream offset that the write elements have passed: the bits written and, once the content has ended, the tape that
has run on behind it (R214). -/
def Dev.passedBits (d : Dev) (t : Nat) : Nat :=
  let w := d.wrAt t
  let m := d.motAt t
  if (w.mode = .runout ∨ w.mode = .turning) ∧ d.ranDry t then
    d.writtenBits t + ((if w.dirOf then w.ended - m.lpos else m.lpos - w.ended).toNat * d.density t) / 1000000000
  else d.writtenBits t

/-- A row block's result is due (R201): its write element has passed 12 positions beyond its first bit. What a detection step that overran
has left behind comes one tick later for each interval (R230). -/
def Dev.verifyDue (d : Dev) (t : Nat) (p : Position) : Bool :=
  decide ((d.wrAt t).posStart p.num + 12 * posBits + ((d.rdAt t).inp.length - 1) * d.tickBits t ≤ d.passedBits t)

/-! ### Streams that end before their content does (R205, R209, R210) -/

/-- What is still to be encoded is dropped: a rewrite that is not written is a late failure of its row (R205). -/
def Dev.dropTodo (d : Dev) (t : Nat) : Dev :=
  let lost := (d.wrAt t).todo.flatMap fun p => p.rw.map (·.2)
  lost.foldl (fun d x => d.rowResult t x 0 true false) (d.modWr t fun w => { w with todo := [], credit := 0 })

/-- The tape stands: a row block that has no result yet fails (R200), and a row that has not been placed is late (R205). -/
def Dev.settle (d : Dev) (t : Nat) : Dev :=
  let d := (d.wrAt t).stream.foldl (fun d p => (List.range 64).foldl (fun d ch => if p.judged.getLsbD ch then d else d.verifyOne t ch p) d) d
  ((d.wrAt t).live.filter fun x => x.encoded && ! x.fixed).foldl (fun d x => d.fixLate t x.no) d

/-- The append point GAP positions beyond the place where writing ended (R214). -/
def Dev.appendAfter (d : Dev) (t : Nat) (e : Int) : Int :=
  let gap : Int := (max 8 (d.fld Fld.tpBhCfgGap t) * d.posLen t).floor
  if (d.wrAt t).dirOf then e - gap else e + gap

/-- A stream that is cut off (R209, R210): what its content lacks is written again behind the append point, which follows the
last position written. A transport that had no content under way keeps its append point. -/
def Dev.cutStream (d : Dev) (t trigger : Nat) (nos : List Nat) : Dev :=
  let w := d.wrAt t
  if w.mode = .idle ∨ (d.rdAt t).phase ≠ .off then d
  else
    let e := if d.ranDry t then w.ended else (d.motAt t).lpos
    let d := (d.abandon t trigger nos).dropTodo t
    d.modWr t fun w => if w.mode = .streaming ∨ w.mode = .turning then { w with mode := .stopped, plain := true, ended := e, append := d.appendAfter t e }
      else { w with mode := .stopped, plain := true }

/-! ### UNDERRUN (R207, R210, R211, R224) -/

/-- The data sets whose rows or rewrites a position carries have been written with UNDERRUN (R206). -/
def Dev.noteUnder (d : Dev) (t : Nat) (p : Position) : Dev :=
  let hit (x : DsWr) : Bool := (p.kind == .region && x.no == p.ds) || p.rw.any fun r => r.2.ds == x.no
  d.modWr t fun w => { w with live := w.live.map fun x => if hit x then { x with under := true } else x }

/-- UNDERRUN_ABANDON (R207, R210, R211, R224): UNDERRUN in a region abandons with trigger 4; in positions 12 to 15 of a
flush region it ends that region. The write elements stand in the position that they have reached, or behind the last one. -/
def Dev.underrunAbandon (d : Dev) (t : Nat) : Dev :=
  if (d.tpAt t).under = 0 ∨ (d.wrAt t).mode ≠ .streaming then d
  else
    match (d.positionNow t).or (d.wrAt t).stream.getLast? with
    | none => d
    | some p =>
      let d := d.noteUnder t p
      if p.kind = .region then d.abandon t 4 (d.unwritten t)
      else if p.kind = .flush ∧ 12 ≤ p.q then d.dropTodo t
      else d

/-! ### Content (R198, R199, R211, R213) -/

/-- The positions of a region, hold region or structure. -/
def Dev.positionsOf (d : Dev) (t : Nat) (kind : PosKind) (x : DsWr) (n : Nat) (splice : Bool) : List Position :=
  let tag : BitVec 16 := (((d.tpAt t).volRec.map volId).getD 0).setWidth 16
  let w := d.wrAt t
  let ret := d.retired t
  (List.range n).map fun q => { kind := kind, ds := x.no, attempt := x.attempt, member := x.member, tag := tag, q := q, wrap := w.wrap, retired := ret, splice := splice }

/-- Eight positions of gap fill (R163, R214, R215, R223). -/
def Dev.gapOf (d : Dev) (t : Nat) : List Position :=
  d.positionsOf t .gap { no := 0, slot := 0, row := 0, member := 0, payload := nullHandle } 8 false

/-- Nothing more is to be written on the transport: it fails, power fails (R219, R470). -/
def Dev.noNewRegion (d : Dev) (t : Nat) : Bool := d.flag Fld.tpWrStatFailing t || d.pins.pfTaken

/-- No region may be started: one of the above, or the stream is to end (R287, R311, R391, R451). -/
def Dev.barred (d : Dev) (t : Nat) : Bool := d.noNewRegion t || (d.wrAt t).stopReq || (d.wrAt t).chopEnd

/-- The data set whose region comes next: one abandoned, or the first staged one. -/
def Dev.nextDs (d : Dev) (t : Nat) : Option DsWr := if d.barred t then none else ((d.wrAt t).again ++ (d.wrAt t).staged).head?

/-- Where the content encoded ends on the tape, in nm: ahead of the write elements, or where they ended it. -/
def Dev.contentEnd (d : Dev) (t : Nat) : Int :=
  let w := d.wrAt t
  if d.ranDry t then w.ended
  else
    let ahead : Rat := (w.posStart w.next - d.writtenBits t : Nat) / posBits * d.posLen t
    let x : Int := ahead.floor
    (d.motAt t).lpos + (if w.dirOf then -x else x)

/-- Write the EOD of the stream to the volume record (R216). -/
def Dev.writeEod (d : Dev) (t : Nat) : Dev := d.modTp t fun p => { p with upd := p.upd ++ [{ eod := some (d.wrAt t).eod }] }

/-- The place of a data set's region enters the locate map (R247): that of its lowest attempt, to which a retry returns (R251). -/
def Rd.noteMap (r : Rd) (no attempt wrap : Nat) (place : Int) : Rd :=
  if attempt = 0 ∨ (tget r.map no).isNone then { r with map := tput r.map no (wrap, place) } else r

/-- Begin a region (R203, R204): the rewrite slots of the previous data set are fixed first; a row that finds no slot
abandons that data set instead. After a splice the record's EOD follows (R216). -/
def Dev.beginRegion (d : Dev) (t : Nat) (x : DsWr) : Dev :=
  let w := d.wrAt t
  let ret := d.retired t
  let prev := if w.plain ∨ w.lastKind ≠ .region then none else w.lastDs.bind fun y => w.live.find? fun z => z.no == y.no
  let fails := (prev.map fun y => orderFails (y.fails.filter fun f => ! f.placed)).getD []
  let places := placeSlots ret fails []
  if places.any fun p => p.2.isNone then d.abandon t 1 ((prev.map (·.no)).toList)
  else
    let pos := (d.positionsOf t .region x (regionLen ret) w.splice).map fun p =>
      if p.q < 4 then
        { p with rw := places.filterMap fun (f, c) => match c, prev with
            | some (ch, sl), some y => if sl = p.q then some (ch, { ds := y.no, sds := f.sds, row := f.row, attempt := y.attempt }) else none
            | _, _ => none }
      else p
    let d := match prev with
      | some y => (d.notePlaced t y.no places (w.next + 4)).fixLate t y.no
      | none => d
    let d := if x.started then d else (match d.payloadBuf x with
      | some b => d.share b 6
      | none => d)
    let old := (w.lastDs.filter fun y => ! (w.live ++ w.again).any fun z => z.no == y.no)
    let d := (old.map d.unshare).getD d
    let x' := { x with payload := (d.payloadBuf x).getD nullHandle, started := true, begun := d.clk, last := w.next + regionLen ret }
    let d := d.modRd t fun r => ({ r with absent := r.absent.filter (· != x.no) } : Rd).noteMap x.no x.attempt w.wrap (d.contentEnd t)
    let d := d.modWr t fun w => { w with
      staged := w.staged.filter fun y => y.no != x.no, again := w.again.filter fun y => y.no != x.no
      live := w.live ++ [x'], lastDs := some x', todo := pos, plain := false, splice := false, eod := max w.eod (x.no + 1) }
    if w.splice then d.writeEod t else d

/-- Begin a flush region (R164, R211). -/
def Dev.beginFlush (d : Dev) (t : Nat) : Dev :=
  let w := d.wrAt t
  match w.lastDs with
  | none => d.modWr t fun w => { w with lastKind := .flush }
  | some y =>
    let fails := ((w.live.find? fun z => z.no == y.no).map fun z => orderFails (z.fails.filter fun f => ! f.placed && ! f.late)).getD []
    let places := placeFlush (d.retired t) (List.range 12) fails []
    let pos := (d.positionsOf t .flush y 16 false).map fun p =>
      { p with rw := places.filterMap fun (f, c) => match c with
          | some (ch, q) => if q = p.q then some (ch, { ds := y.no, sds := f.sds, row := f.row, attempt := y.attempt }) else none
          | none => none }
    (d.notePlaced t y.no places (w.next + 12)).modWr t fun w => { w with todo := pos }

/-- Fix positions 12 to 15 of a flush region (R211); a failure not placed by then is late. -/
def Dev.fixFlushEnd (d : Dev) (t : Nat) : Dev :=
  let w := d.wrAt t
  match w.lastDs with
  | none => d
  | some y =>
    let fails := ((w.live.find? fun z => z.no == y.no).map fun z => orderFails (z.fails.filter fun f => ! f.placed && ! f.late)).getD []
    let places := placeFlush (d.retired t) [12, 13, 14, 15] fails []
    let d := (d.notePlaced t y.no places (w.next + 4)).fixLate t y.no
    d.modWr t fun w => { w with todo := w.todo.map fun p =>
      { p with rw := places.filterMap fun (f, c) => match c with
          | some (ch, q) => if q = p.q then some (ch, { ds := y.no, sds := f.sds, row := f.row, attempt := y.attempt }) else none
          | none => none } }

/-- End the stream and park as for a backhitch (R214): the append point is GAP positions beyond the last written one. -/
def Dev.beginPark (d : Dev) (t : Nat) : Dev :=
  let d := d.dropTodo t
  let e := d.contentEnd t
  (d.modWr t fun w => { w with mode := .runout, ended := e, append := d.appendAfter t e, plain := true })
  |>.modMot t fun m => { m with travel := .backhitch 0 }

/-- WR_FORCED_PARK (R213, R225). -/
def Dev.forcedPark (d : Dev) (t cause : Nat) : Dev :=
  ((d.bump Fld.tpWrCnt2Forced t).postEvent 0x43 blkEnc t [item t, item cause, item (achievedStep (d.motAt t).v)]).beginPark t

/-- A hold region, or a forced park (R213); under speed matching starvation begins, and the target drops to step 0 (R222). -/
def Dev.beginHold (d : Dev) (t : Nat) : Dev :=
  let w := d.wrAt t
  match w.lastDs with
  | none => d.beginPark t
  | some y =>
    let n := regionLen (d.retired t)
    if 247 < y.attempt + 1 then d.forcedPark t 1
    else if d.restOfWrap t < n then d.forcedPark t 2
    else
      let y' := { y with attempt := y.attempt + 1 }
      let d := d.bump Fld.tpWrCnt2Holds t
      let d := if d.flag Fld.tpSpdCtlAuto t then (d.setFlag Fld.tpSpdStatStarved t true).setFld Fld.tpSpdStatTarget t 0 else d
      d.modWr t fun w => { w with todo := d.positionsOf t .hold y' n false, lastDs := some y' }

/-- The wrap ends for what comes next (R198): the next region and 24 positions do not fit, or behind a region no more than those 24
positions are left (notes/assumptions/180.md). -/
def Dev.wrapEnds (d : Dev) (t : Nat) : Bool :=
  let rest := d.restOfWrap t
  ((d.nextDs t).isSome && decide (rest < regionLen (d.retired t) + 24)) || ((d.wrAt t).lastKind == .region && decide (rest ≤ 24))

/-- NEXT_CONTENT_CHOICE (R198): the first row of the table whose condition holds. A ratio brake ends the stream without a flush region
(R288); a stream that is to end does so behind one (R287, R391, R451). With gap fill last and nothing staged the transport parks
(notes/assumptions/180.md). -/
def Dev.nextContent (d : Dev) (t : Nat) : Dev :=
  let w := d.wrAt t
  if d.motState t = msBrake then d.beginPark t
  else if w.gapDue then d.modWr t fun w => { w with todo := d.gapOf t, plain := true, gapDue := false }
  else if w.turnDue then let e := d.contentEnd t; d.modWr t fun w => { w with mode := .turning, ended := e, turnDue := false }
  else if d.barred t then
    if w.lastKind = .region then d.beginFlush t else (d.modWr t fun w => { w with chopEnd := false }).beginPark t
  else if d.wrapEnds t then (d.beginFlush t).modWr t fun w => { w with turnDue := true }
  else
    match d.nextDs t with
    | some x => d.beginRegion t x
    | none =>
      if w.lastKind = .region then d.beginFlush t
      else if w.lastKind = .gap ∨ achievedStep (d.motAt t).v = 0 then d.beginPark t
      else d.beginHold t

/-- A payload word that cannot be read without poison holds a position up (R340): in a protected pair it waits for the
partner's copy, otherwise it counts as zeros and its chunks are lost. -/
def encodePoison (hd : Hbm × Dev) (t : Nat) (p : Position) : (Hbm × Dev) × Bool :=
  let words := (List.range 64).flatMap fun ch =>
    match p.block ch with
    | .row _ (some id) =>
      if id.row < dataRows then
        match ((hd.2.wrAt t).findDs id.ds).bind hd.2.payloadBuf with
        | some b => poisonWords hd b (id.sds * (dataRows * rowBytes) + id.row * rowBytes) rowBytes
        | none => []
      else []
    | _ => []
  payloadPoison hd words

/-- The C2 parity rows that a position needs have been computed (R145). -/
def Dev.parityReady (d : Dev) (t : Nat) (p : Position) : Bool :=
  (p.kind != .region && p.kind != .hold) || decide (baseRow p.retired p.q < dataRows) || (((d.wrAt t).findDs p.ds).all fun x => x.parity.length == 64)

/-- The rows of P or Q that a position needs have been produced (R300). -/
def Dev.rowsReady (d : Dev) (t : Nat) (p : Position) : Bool :=
  (p.kind != .region && p.kind != .hold) ||
    (match (d.wrAt t).findDs p.ds with
     | none => true
     | some x => x.rebuilt ||
       (match (d.spanAt x.slot).bind fun s => (tget s.rows x.row).map fun r => (s, r) with
        | some (s, r) => decide (x.member < (s.descOf x.row).k) || decide (64 * min (baseRow p.retired p.q + 1) dataRows ≤ r.parity)
        | none => true))

/-- Encode the next position (R196). -/
def Dev.encodeOne (d : Dev) (t : Nat) (p : Position) : Dev :=
  let d := d.modWr t fun w => { w with
    stream := w.stream ++ [{ p with num := w.next }], next := w.next + 1, todo := w.todo.drop 1, credit := 0
    lastKind := p.kind }
  if p.kind = .region ∧ (d.wrAt t).todo = [] then (d.modDs t p.ds fun x => { x with encoded := true }).checkDs t p.ds else d

/-- The lead that the stream keeps: LEAD ticks, or one tick from the moment that positions 12 to 15 of a flush region are due until they
have been sent (R211). -/
def Dev.leadNow (d : Dev) (t : Nat) : Nat :=
  let w := d.wrAt t
  let late (p : Position) : Bool := p.kind == .flush && decide (12 ≤ p.q)
  if w.todo.head?.any late ∨ w.stream.any (fun p => late p && decide ((d.tpAt t).off < w.posStart p.num + posBits)) then 1 else d.leadTicks t

/-- Encoding may go on (R281, R285): under a motion pause only the position in progress is finished, and none begins before the head
is on track. -/
def Dev.mayEncode (d : Dev) (t : Nat) : Bool :=
  let w := d.wrAt t
  let held := d.pausing t || ((d.motAt t).pauses == [] && ! d.flag Fld.motStatOnTrack t)
  w.mode == .streaming && decide (d.unsent t < 2 * d.tickBits t + posBits) && (! held || decide (0 < w.credit))

/-- Encode row blocks while the budget of the tick and room last (R15, R196): the first argument after the transport bounds the choices,
the second is the budget. Position 12 of a flush region waits until the lead has fallen to 1 tick, with the two ticks of R205
before its bits are written (R211). A position whose parity is not there overruns (R145). A rewrite placement that overruns moves the
slot fixing one tick later (R226). -/
def encodeGo (t : Nat) : Nat → Nat → Hbm × Dev → Hbm × Dev
  | 0, _, hd => hd
  | n + 1, budget, hd =>
    let d := hd.2
    if budget = 0 ∨ ! d.mayEncode t then hd
    else
      match (d.wrAt t).todo with
      | [] =>
        let next := d.nextContent t
        let placing := ((next.wrAt t).todo.head?.any fun p => p.kind == .region || p.kind == .flush) && d.stalls blkEnc 0 3
        if placing then hd else if (next.wrAt t).todo = [] then (hd.1, next) else encodeGo t n budget (hd.1, next)
      | p :: _ =>
        if p.kind = .flush ∧ p.q = 12 ∧ ((d.leadNow t + 2) * d.tickBits t < (d.tpAt t).fifo + d.unsent t ∨ d.stalls blkEnc 0 3) then hd
        else
          let d := if p.kind = .flush ∧ p.q = 12 ∧ (d.wrAt t).credit = 0 then d.fixFlushEnd t else d
          match (d.wrAt t).todo with
          | [] => (hd.1, d)
          | p :: _ =>
            if ! d.rowsReady t p then (hd.1, d)
            else if ! d.parityReady t p then (hd.1, d.waitOverrun blkEnc 0 2 0)
            else
              let need := 64 - (d.wrAt t).credit
              if budget < need then (hd.1, d.modWr t fun w => { w with credit := w.credit + budget })
              else
                let (hd, ok) := encodePoison (hd.1, d) t p
                if ok then encodeGo t n (budget - need) (hd.1, hd.2.encodeOne t p) else hd

/-- Row blocks that a transport encodes in one tick (R15). -/
def encodeMax : Nat := 80

/-- POSITION_ENCODE of one tick (R15, R196). -/
def encodeTick (hd : Hbm × Dev) (t : Nat) : Hbm × Dev := encodeGo t 6 encodeMax hd

/-- WRITTEN (R206): every position of the data set's region and of its rewrites has been sent. -/
def Dev.writtenTick (d : Dev) (t : Nat) : Dev :=
  let w := d.wrAt t
  let off := (d.tpAt t).off
  (w.live.filter fun x => x.encoded && x.fixed && ! x.written && ! x.under && decide (w.posStart x.last ≤ off)).foldl (fun d x => d.dsWritten t x) d

/-- Positions that no result and no resend can need any more are let go. -/
def Dev.pruneStream (d : Dev) (t : Nat) : Dev :=
  let at_ := d.writtenBits t
  d.modWr t fun w => { w with stream := w.stream.filter fun p => decide (at_ < w.posStart p.num + 64 * posBits) }

/-! ### Speed matching (R220 to R222) -/

/-- The target of R220's pseudocode. -/
def Dev.speedMatch (d : Dev) (t target cap level : Nat) : Dev :=
  let w := d.wrAt t
  let q := 0xF0 + t
  let dwell := d.fld1 Fld.tpSpdCtlDwell t
  let since := w.since + 1
  let due (zone : Bool) : Bool := ! zone || decide (dwell ≤ since)
  if d.queHigh q ≤ level then
    let up := due w.upZone
    let target := if up ∧ target < cap ∧ ! d.flag Fld.motStatClamped t then target + 1 else target
    (d.setFld Fld.tpSpdStatTarget t (min cap target)).modWr t fun w => { w with since := if up then 0 else since, upZone := true, downZone := false }
  else if level ≤ d.queLow q then
    let dn := due w.downZone
    let target := if dn then target - 1 else target
    (d.setFld Fld.tpSpdStatTarget t (min cap target)).modWr t fun w => { w with since := if dn then 0 else since, upZone := false, downZone := true }
  else (d.setFld Fld.tpSpdStatTarget t (min cap target)).modWr t fun w => { w with since := since, upZone := false, downZone := false }

/-- SPEED_TARGET_UPDATE of one tick (R220 to R222): the clamp takes the target to the step achieved when its flag was set. -/
def Dev.speedTick (d : Dev) (t : Nat) : Dev :=
  let cap := min 28 (d.fld Fld.tpSpdCtlCap t)
  let level := (d.wrAt t).staged.length
  let arrived := (d.wrAt t).arrived
  let ach := achievedStep (d.motAt t).v
  let old := (d.wrAt t).clampStep
  let clamp : Option Nat := if d.flag Fld.motStatClamped t then some (old.getD ach) else none
  let d := (d.setFld Fld.tpSpdStatLevel t level).modWr t fun w => { w with arrived := false, clampStep := clamp }
  if ! d.flag Fld.tpSpdCtlAuto t then
    let x := min cap (min 28 (d.fld Fld.tpSpdCtlStep t))
    (d.setFlag Fld.tpSpdStatStarved t false).setFld Fld.tpSpdStatTarget t (min x (clamp.getD x))
  else if d.flag Fld.tpSpdStatStarved t then
    if arrived then (d.setFlag Fld.tpSpdStatStarved t false).setFld Fld.tpSpdStatTarget t (min cap ach) else d
  else
    let target := d.fld Fld.tpSpdStatTarget t
    d.speedMatch t (if old.isNone then clamp.getD target else target) cap level

/-! ### Travel (R209, R214, R215, R275 to R277) -/

/-- The distance in nm in which the reference changes by `v` nm/s at the ramp in force (R276): v²/2a + v·a/(2·jerk). -/
def Dev.rampDistance (d : Dev) (t : Nat) (v : Rat) : Rat :=
  let a : Rat := 100000000 * d.fld1 Fld.motRampCfgAcc t
  let j : Rat := 1000000000 * d.fld1 Fld.motRampCfgJerk t
  v * v / (2 * a) + v * a / (2 * j)

/-- Distance still to go along the direction of travel to `x`. -/
def Mot.toGo (m : Mot) (x : Int) : Int := if m.dir then m.lpos - x else x - m.lpos

/-- Reposition the transport as for a backhitch (R209, R210). -/
def Dev.reposition (d : Dev) (t : Nat) : Dev :=
  ((d.controlledStop t).modWr t fun w => { w with mode := .parked }).modMot t fun m => { m with travel := .backhitch 1 }

/-- Bits that the search of one offset needs: a mark and a header (R233). -/
def searchBits : Nat := 196

/-- The bit number that a channel has reached: row blocks that end at or before it have been detected. -/
def Chan.reached (c : Chan) : Nat :=
  match c.pend with
  | some x => x
  | none => if c.acq then c.start + c.bits.length - searchBits else c.pexp

/-- The bit at which a region begins on a channel. -/
def Seg.begins (s : Seg) (ch : Nat) : Int := tgetD s.starts ch s.first

/-- The region of an attempt of a data set, if this run of the tape has met it. -/
def Rd.segOf (r : Rd) (no attempt : Nat) : Option Seg := r.segs.find? fun s => s.no == no && s.attempt == attempt

/-- Every channel in use has detected a region to its end. -/
def Dev.segEnded (d : Dev) (t : Nat) (s : Seg) : Bool :=
  let r := d.rdAt t
  (liveChans (d.retired t)).all fun ch => decide (s.begins ch + regionLen (d.retired t) * posBits ≤ (r.chans.getD ch {}).reached)

/-- The profile of slot `i` of RDC_RETRY_ORDER (R251, R256). -/
def Dev.slotProfile (d : Dev) (i : Nat) : Nat := bits (d.fld Fld.rdcRetryOrderSlot) (3 * i) 3

/-- The fields of profile `k` as its registers hold them (R256). -/
def Dev.profileNow (d : Dev) (k : Nat) : Profile :=
  { mu := d.fld Fld.rdcProfAMu k, freeze := d.flag Fld.rdcProfAFreeze k, kp := d.fld Fld.rdcProfAKp k, ki := d.fld Fld.rdcProfAKi k
    thr := d.fld Fld.rdcProfAThr k, chase := d.fld Fld.rdcProfAChase k, offset := d.fld Fld.rdcProfBOffset k, speed := d.fld Fld.rdcProfBSpeed k }

/-- The profile comes into force with a region (R256): the one that the read uses, and for verify that of slot 0 (R252). -/
def Dev.latchProfile (d : Dev) (t : Nat) (region : Option (Nat × Nat)) : Dev :=
  let k := if (d.rdAt t).goal = .none then d.slotProfile 0 else (d.rdAt t).profile
  let p := d.profileNow k
  d.modRd t fun r => { r with prof := p, profAt := region }

/-- Every channel's detector and flywheel begin again, in acquisition (R229, R235). A run that goes on behind a wrap turn keeps the order of
the data sets that it has met (R249). -/
def Dev.detectorStart (d : Dev) (t : Nat) (turn : Bool) : Dev :=
  let ended (x : DsRd) : Bool := ((d.rdAt t).segOf x.no x.attempt).any (d.segEnded t)
  let past := (d.rdAt t).sets.map fun x => { x with past := x.past || ended x }
  (d.latchProfile t none).modRd t fun r => { r with
    chans := List.replicate 64 {}, found := [], sets := past, segs := [], ringLog := [], stale := false
    seen := if turn then r.seen else [], prev := if turn then r.prev else none, lastEnd := if turn then r.lastEnd else none }

/-- The head moves to a wrap (R276, R279, R280): the actuator is commanded to its target, and the integrator starts again. -/
def Dev.toWrap (d : Dev) (t w : Nat) : Dev :=
  let u := actLimit (d.latFeed t w)
  d.modMot t fun m => if m.wrap = w then m else { m with wrap := w, lat := { m.lat with acc := 0, sat := false, act := u } }

/-- A stream that was cut off can be taken up again (R209, R210): nothing pauses it, the port is up and the reels obey. -/
def Dev.canReposition (d : Dev) (t : Nat) : Bool :=
  (d.wrAt t).mode == .stopped && (d.motAt t).pauses == [] && (d.motState t == msHold || d.motState t == msRun)
    && d.flag Fld.tpLinkStatUp t && ! d.flag Fld.motStatChopFault t && (d.rdAt t).phase == .off

/-- The reels have left what the writing control was doing: they stand where it needs them to move, or nothing moves them
(R268, R275, R284). A ratio brake leaves the stream until the tape is slow (R288). -/
def Dev.writeLost (d : Dev) (t : Nat) : Bool :=
  let w := d.wrAt t
  let st := d.motState t
  let gone := decide (st = msIdle ∨ st = msStartFailed)
  w.mode != .idle && w.mode != .stopped && (d.rdAt t).phase == .off &&
    (match (d.motAt t).travel with
     | .write => gone || (st == msHold && (w.mode == .streaming || w.mode == .approach))
     | .backhitch n => gone || (n == 0 && st == msHold)
     | .turn => gone
     | _ => false)

/-- A ratio brake has brought the tape below 0.25 m/s while a stream is still being written (R288). -/
def Dev.brakeSlow (d : Dev) (t : Nat) : Bool :=
  d.motState t == msBrake && (d.wrAt t).mode == .streaming && decide ((d.motAt t).v < 250000000)

/-- The bits written so far end at the write elements (R214). -/
def Dev.noteEnded (d : Dev) (t : Nat) : Dev :=
  if (d.wrAt t).mode = .streaming ∧ ! d.ranDry t then d.modWr t fun w => { w with ended := (d.motAt t).lpos } else d

/-- What the next start of the reels is for (R275 to R277): the stages of a backhitch, a turn and a locate. In a turn the actuator is
commanded to the next wrap before the reels start. An append point reached off track is approached again (R281). -/
def Dev.travelStage (d : Dev) (t : Nat) : Dev :=
  let m := d.motAt t
  let w := d.wrAt t
  let st := d.motState t
  match m.travel with
  | .backhitch 0 =>
    let run : Int := (13 * d.posLen t).ceil
    if run ≤ m.toGo w.ended * -1 then (d.controlledStop t).modMot t fun m => { m with travel := .backhitch 1 } else d
  | .backhitch 1 =>
    if st = msHold ∧ ! d.flag Fld.motStatChopFault t then ((d.settle t).motStart t (! w.dirOf)).modMot t fun m => { m with travel := .backhitch 2 } else d
  | .backhitch 2 =>
    let back : Int := (d.rampDistance t 1000000000).ceil + 20000000
    let resume := if w.dirOf then w.append + back else w.append - back
    if st = msRun ∧ m.toGo resume ≤ 0 then (d.controlledStop t).modMot t fun m => { m with travel := .backhitch 3 } else d
  | .backhitch 3 =>
    if st = msHold then
      ((((d.bump Fld.tpWrCnt2Backhitch t).setFlag Fld.tpSpdStatParked t true).setFlag Fld.tpSpdStatStarved t false).writeEod t).modWr t (fun w => { w with mode := .parked })
        |>.modMot t fun m => { m with travel := .park }
    else d
  | .turn =>
    if st = msHold ∧ ! d.flag Fld.motStatChopFault t then
      let reading := decide ((d.rdAt t).phase = .run)
      if m.dir = (m.wrap % 2 == 1) then d.toWrap t (if reading then m.wrap + 1 else w.wrap + 1)
      else if reading then ((d.modMot t fun m => { m with travel := .read }).motStart t (m.wrap % 2 == 1)).detectorStart t true
      else
        let d := ((d.settle t).modWr t fun w => { w with wrap := w.wrap + 1, plain := true }).modMot t fun m => { m with travel := .write }
        ((d.motStart t (d.wrAt t).dirOf).modWr t fun w => { w with mode := .approach, append := (d.motAt t).lpos }).writeEod t
    else d
  | .locate x => if st = msRun ∧ m.toGo x ≤ (d.rampDistance t m.v).floor then d.controlledStop t else d
  | .write =>
    if w.mode = .approach ∧ st = msRun ∧ m.toGo w.append ≤ 0 then
      if ! d.flag Fld.motStatOnTrack t then d.modWr t fun w => { w with mode := .stopped, plain := true }
      else (d.modWr t fun w => { w with
        mode := .streaming, base := (d.tpAt t).off, next := 0, stream := [], todo := d.gapOf t, lastKind := .gap, plain := true, gapDue := false, ended := m.lpos }).detectorStart t false
    else d
  | _ => d

/-- Travel in one tick: a stream that was cut off is repositioned, one that has lost its reels is cut off, and otherwise the
stage that the transport is in goes on. -/
def Dev.travelTick (d : Dev) (t : Nat) : Dev :=
  let d := d.noteEnded t
  if d.canReposition t then d.reposition t
  else if d.brakeSlow t then (d.abandon t 4 (d.unwritten t)).beginPark t
  else if d.writeLost t then d.cutStream t 4 (d.unwritten t)
  else d.travelStage t

/-! ### The commands -/

/-- UPSTREAM_CYCLE (R173, R182, R207): an UNDERRUN in a region abandons with trigger 4. -/
def execUpstreamCycle (tp : Nat) (c : UpCycle) (s : State) : Host.Outcome State Fault Refusal :=
  nextDev s fun d => if tp < 8 then (d.upstream tp c).underrunAbandon tp else d

/-- VERIFY_RESULT (R201): the result of the row block of channel `ch` at stream position `pos`. -/
def execVerifyResult (tp ch pos : Nat) (s : State) : Host.Outcome State Fault Refusal :=
  nextDev s fun d =>
    match (d.wrAt tp).stream.find? fun p => p.num == pos with
    | some p => if ch < 64 ∧ ! p.judged.getLsbD ch ∧ d.verifyDue tp p then d.verifyOne tp ch p else d
    | none => d

/-- WRITE_LEAD_EXHAUSTED (R21, R207): the bits encoded have all been written while a region is being encoded. -/
def execWriteLeadExhausted (tp : Nat) (s : State) : Host.Outcome State Fault Refusal :=
  nextDev s fun d =>
    let w := d.wrAt tp
    let region : Bool := match w.todo with
      | p :: _ => p.kind == .region
      | [] => false
    if w.mode = .streaming ∧ region ∧ (d.tpAt tp).fifo = 0 ∧ d.unsent tp = 0 then d.abandon tp 3 (d.unwritten tp) else d

/-- UNDERRUN_PERSIST (R210): UNDERRUN in 8 consecutive ticks ends the stream at the next position boundary. -/
def execUnderrunPersist (tp : Nat) (s : State) : Host.Outcome State Fault Refusal :=
  nextDev s fun d =>
    if 8 ≤ (d.tpAt tp).under ∧ (d.wrAt tp).mode = .streaming then (d.abandon tp 4 (d.unwritten tp)).beginPark tp else d

/-- PORT_DOWN (R186, R207, R289): event and cellar record; the data sets not yet written are abandoned with trigger 5,
and the reels get a ratio brake. -/
def execPortDown (tp : Nat) (s : State) : Host.Outcome State Fault Refusal :=
  nextDev s fun d =>
    if d.flag Fld.tpLinkStatUp tp ∧ 3 ≤ (d.tpAt tp).miss then
      let d := (d.setFlag Fld.tpLinkStatUp tp false).setFlag Fld.tpLinkStatIdOk tp false
      let d := d.postBoth 0x13 blkTp tp [item tp]
      let d := d.cutStream tp 5 (d.unfinished tp)
      (d.motEvent 0x54 tp [speedItem (d.motAt tp).v] true).brakeNow tp .port
    else d

/-- BACKHITCH_RESUME (R214): a data set is staged, or waits to be written again, and the parked transport accelerates to
step 0. -/
def execBackhitchResume (tp : Nat) (s : State) : Host.Outcome State Fault Refusal :=
  nextDev s fun d =>
    let w := d.wrAt tp
    if w.mode = .parked ∧ (d.motAt tp).travel = .park ∧ d.motState tp = msHold ∧ (d.nextDs tp).isSome ∧ (d.rdAt tp).goal = .none then
      let d := ((d.setFlag Fld.tpSpdStatParked tp false).setFld Fld.tpSpdStatTarget tp 0).toWrap tp w.wrap
      (d.motStart tp w.dirOf).modWr tp (fun w => { w with mode := .approach }) |>.modMot tp fun m => { m with travel := .write }
    else d

/-- WRAP_TURN (R215, R249, R276): LPOS has reached the end of TAPE_LEN in the wrap's direction. -/
def execWrapTurn (tp : Nat) (s : State) : Host.Outcome State Fault Refusal :=
  nextDev s fun d =>
    let m := d.motAt tp
    let total : Int := 1000000 * d.idn tp 16 4
    let turns : Bool := (d.wrAt tp).mode == .turning || ((d.rdAt tp).phase == .run && m.travel == .read)
    if turns ∧ d.motState tp = msRun ∧ (if m.wrap % 2 = 1 then m.lpos ≤ 0 else total ≤ m.lpos) then
      (d.controlledStop tp).modMot tp fun m => { m with travel := .turn }
    else d

/-- PAUSE_END (R285): the causes have been clear for 50 ticks and the head is on track; the transport is repositioned. -/
def execPauseEnd (tp : Nat) (s : State) : Host.Outcome State Fault Refusal :=
  nextDev s fun d =>
    let m := d.motAt tp
    if m.pauses ≠ [] ∧ 50 ≤ m.clear then
      let d := (d.setFlag Fld.motStatPause tp false).modMot tp fun m => { m with pauses := [] }
      let d := if (d.wrAt tp).mode = .streaming then d.cutStream tp 4 (d.unwritten tp) else d
      if (d.wrAt tp).mode = .stopped then d.reposition tp else d
    else d

/-- FAILING_CLEAR (R227): a write of 0 to TPn_WR_STAT.FAILING. -/
def execFailingClear (tp : Nat) (s : State) : Host.Outcome State Fault Refusal :=
  nextDev s fun d => if tp < 8 then d.queueWrite (RegId.tpWrStat.offset tp) 0 else d

/-- RETIRE_WRITE (R218): a write to TPn_RETIRE_LO or TPn_RETIRE_HI. -/
def execRetireWrite (tp : Nat) (high : Bool) (value : BitVec 32) (s : State) : Host.Outcome State Fault Refusal :=
  nextDev s fun d => if tp < 8 then d.queueWrite (if high then RegId.tpRetireHi.offset tp else RegId.tpRetireLo.offset tp) value else d

/-- A retirement write at its boundary (R218): a 1 retires its channel; a 0 at a set bit is ignored while a cartridge is
mounted. -/
def Dev.retireApply (d : Dev) (t : Nat) (high : Bool) (v : Word32) : Dev :=
  let d := if (d.tpAt t).mounted.isSome then d
    else
      let f := if high then Fld.tpRetireHiMap else Fld.tpRetireLoMap
      let d := d.setFld f t (d.fld f t &&& v.toNat)
      d.setFld Fld.tpWrStatRetired t (chCount (d.retired t))
  ((List.range 32).filter fun i => v.getLsbD i).foldl (fun d i => d.retire t (if high then 32 + i else i) 2) d

/-! ### The downstream cycle (R171 to R178, R187) -/

/-- The bits of channel `ch` from stream offset `off` on. -/
def Dev.channelBits (d : Dev) (h : Hbm) (t off count ch : Nat) : List Bool :=
  let w := d.wrAt t
  let ps := w.stream.filter fun p => decide (w.posStart p.num < off + count) && decide (off < w.posStart p.num + posBits)
  match ps with
  | [] => []
  | p :: _ => ((ps.flatMap fun p => d.blockBits h w p ch).drop (off - w.posStart p.num)).take count

/-- The blocks of write bits of a cycle, by channel: 164 blocks of 64 bits each (R174, R177). -/
def Dev.writeSlots (d : Dev) (h : Hbm) (t off count : Nat) : List Byte :=
  (List.range 64).flatMap fun ch => padTo 1312 (bytesMsb (let b := d.channelBits h t off count ch; b ++ List.replicate ((8 - b.length % 8) % 8) false))

/-- Write bits to send in the cycle (R178). -/
def Dev.sendCount (d : Dev) (t : Nat) : Nat :=
  let b := d.tickBits t
  let want := b + (d.leadNow t * b - (d.tpAt t).fifo)
  let w := d.wrAt t
  if w.mode ≠ .streaming ∧ w.mode ≠ .runout ∧ w.mode ≠ .turning then 0 else min (min want (min (2 * b) 10480)) (d.unsent t)

/-- The stream carries content that is still being written (R197). -/
def Dev.writeOn (d : Dev) (t : Nat) : Bool :=
  (d.wrAt t).mode == .streaming || ((d.wrAt t).mode == .runout && decide (0 < (d.tpAt t).fifo)) || ((d.wrAt t).mode == .turning && decide (0 < (d.tpAt t).fifo))

/-- The 96-byte header of the cycle (R174). -/
def Dev.cycleHeader (d : Dev) (t count : Nat) : List Byte :=
  let p := d.tpAt t
  let o := (d.motAt t).out
  let owns := d.flag Fld.tpTokenClaim t
  let shadow := d.flag Fld.tpLinkCfgShadow t && p.ownerPort != some p.myPort
  let rep := p.rep || ! d.flag Fld.tpLinkStatUp t
  let rate := d.wrRate t
  let (op, id, addr, len, data) := match p.req with
    | some r => (r.op, r.id.toNat, r.addr, min 32 r.len, if r.op = 2 then r.data.take 32 else [])
    | none => (0, p.lastId.toNat, 0, 1, [])
  withCrc32c (leBytes 4 (d.fld Fld.tpTokenEpochEpoch t) ++ leBytes 1 (b2n owns + 2 * b2n shadow + 4 * b2n (o.resume || p.resume) + 8 * b2n rep) ++ zeros 1
    ++ leBytes 2 count ++ leBytes 4 rate ++ leBytes 4 (9 * rate / 8) ++ leBytes 8 (if d.writeOn t then 2 ^ 64 - 1 else 0)
    ++ leBytes 4 (p.off % 2 ^ 32) ++ leBytes 4 (o.gates.getD 0 0) ++ leBytes 4 (o.gates.getD 1 0) ++ leBytes 2 o.chop
    ++ leBytes 2 (ofSigned 16 o.act) ++ leBytes 1 op ++ leBytes 1 id ++ leBytes 2 addr ++ leBytes 1 len ++ zeros 3 ++ padTo 32 data ++ zeros 12)

/-- The header of a repeated cycle (R187): the previous one with REPEAT set and WR_COUNT 0. -/
def repeatHeader (h : List Byte) : List Byte :=
  let fl := (h.getD 4 0#8) ||| 0x08#8
  withCrc32c (overwrite (overwrite (h.take 92) 4 [fl]) 6 (zeros 2))

/-- The 56 bits of the CYCLE_START of the present tick (R171): the tick, and the fabric address above it. -/
def Dev.cycleStart (d : Dev) : BitVec 56 := BitVec.ofNat 56 (d.tick.toNat + 2 ^ 48 * d.fld Fld.fabCfgAddr)

/-- Blocks that begin in tick `n` (R171): 1,125,000 line bits in blocks of 66, counted from tick 0 (notes/assumptions/175.md). -/
def tickBlocks (n : Nat) : Nat := ceilDiv (1125000 * (n + 1)) 66 - ceilDiv (1125000 * n) 66

/-- Blocks of a cycle, its CYCLE_START included (R174). -/
def cycleBlocks : Nat := 10510

/-- A cycle goes out (R171, R174, R177): its start, header, write slots and write CRC, and IDLE blocks until the next one. The CRC stands
in bits 31:0 of its block. -/
def Dev.sendCycle (d : Dev) (t count : Nat) (hdr slots : List Byte) : Dev :=
  let d := d.modTp t fun p => { p with
    header := hdr, off := p.off + count, kept := ((d.clk, p.off + count) :: p.kept).take 8, sent := d.tick }
  (d.emit (.cycle t d.cycleStart (hdr ++ slots ++ beBytes 8 (crc32c slots).toNat))).emit (.idle t (tickBlocks d.tick.toNat - cycleBlocks))

/-- DOWNSTREAM_CYCLE of a tick (R171, R174): a port that is not enabled sends IDLE only (R195). -/
def Dev.downstream (d : Dev) (h : Hbm) (t : Nat) : Dev :=
  let p := d.tpAt t
  if ! d.flag Fld.tpLinkCfgEnable t then d.emit (.idle t (tickBlocks d.tick.toNat))
  else if d.stalls blkTp t 1 then
    (d.sendCycle t 0 (repeatHeader p.header) (zeros (64 * 1312))).modMot t fun m => { m with sent := (m.cycleOf 0 :: m.sent).take 4 }
  else
    let count := d.sendCount t
    let d := d.sendCycle t count (d.cycleHeader t count) (d.writeSlots h t p.off count)
    (d.modTp t fun p => { p with resume := false, rep := false }).modMot t fun m => { m with sent := (m.out :: m.sent).take 4, out := { m.out with resume := false } }

end Sys2Proof.Machine
end

