-- ==== Sys2Proof/Machine/ReadChannel.lean ====
section
/-! DEFINITION. The read channel and the decoder (R228 to R246): detection, sync search, rows, C1 with erasures and
Chase trials, C2 iterations and re-detection. -/

namespace Sys2Proof.Machine

/-! ### Detection (R228 to R231) -/

/-- The reliability that marks a bit of a lost interval. -/
def relGap : Nat := 255

/-- The detector's settings, from RDC_CTL, RDC_TARGET and the profile in force (R228, R256); G1 and G2 have 6 fraction bits. -/
def Dev.sigSet (d : Dev) (t : Nat) : SigSet :=
  let p := (d.rdAt t).prof
  { dc := d.fld Fld.rdcCtlDcGain, g1 := (toSigned 8 (d.fld Fld.rdcTargetG1) : Rat) / 64, g2 := (toSigned 8 (d.fld Fld.rdcTargetG2) : Rat) / 64
    kp := p.kp, ki := p.ki, mu := p.mu, freeze := p.freeze }

/-- f as the rates of the cycle give it (R197, R229). -/
def Dev.freqStart (d : Dev) (t : Nat) : Rat :=
  let w := d.wrRate t
  if w = 0 then 9 / 8 else (9 * w / 8 : Nat) / (w : Rat)

/-- The bits by which the count advances over a lost interval (R231). -/
def Dev.gapBits (d : Dev) (t : Nat) (x : UpIn) : Nat := if x.valid then 8 * x.count / 9 else d.wrRate t / 50000

/-- The number of the bit that the detector takes up next. -/
def Chan.taken (c : Chan) : Nat := c.start + c.bits.length + c.det.held

/-- One interval of one channel: its samples are detected, or its bits are lost and the path's state stands still (R231). -/
def Chan.take (c : Chan) (p : SigSet) (f0 : Rat) (ch gap : Nat) (x : UpIn) : Chan :=
  match x.read with
  | some ss =>
    let raw := ss.getD ch []
    let (s, bs) := Sig.run p (runFuel raw.length) raw [] { c.det with freq := some (c.det.freq.getD f0) }
    { c with det := s, bits := c.bits ++ bs }
  | none =>
    let (s, bs) := c.det.flush
    { c with det := s, bits := c.bits ++ bs ++ List.replicate gap (false, relGap), acq := c.acq || ! x.valid }

/-! ### Sync search (R232 to R237) -/

/-- Bits of a mark and of the header behind it. -/
def markBits64 : Nat := 64

/-- What the search accepts: the tag and member of the mounted volume. -/
structure Want where
  tag : Nat
  member : Nat
  deriving DecidableEq, Repr

/-- The header behind a mark at the front of `l` (R236). -/
def headAt (ch : Nat) (l : List (Bool × Nat)) : List Byte :=
  bytesMsb (scramble ch (demodulate (((l.take searchBits).drop markBits64).map (·.1))))

/-- A candidate at the front of `l` that counts (R233): its differing bits. -/
def candidate (ch : Nat) (l : List (Bool × Nat)) : Option Nat :=
  let b := l.take searchBits
  if b.length < searchBits ∨ b.any fun x => x.2 == relGap then none
  else
    let diff := (List.zipWith (fun x y => b2n (x.1 != y)) b syncMark).foldl (· + ·) 0
    let head := headAt ch l
    if diff ≤ 3 ∧ (crc16 (head.take 14)).toNat = leAt head 14 2 then some diff else none

/-- The row block at the front of `l` belongs to the volume and the channel; one that does not is discarded and anchors nothing (R237). -/
def owned (w : Want) (ch : Nat) (l : List (Bool × Nat)) : Bool :=
  let head := headAt ch l
  leAt head 5 1 == ch && leAt head 11 1 == w.member && leAt head 12 2 == w.tag

/-- Drop the bits before bit number `n`. -/
def Chan.dropTo (c : Chan) (n : Nat) : Chan := { c with bits := c.bits.drop (n - c.start), start := max c.start n }

/-- The best candidate of the window around P_exp (R233, R234), unless its row block is discarded (R237). -/
def Chan.best (c : Chan) (w : Want) (ch : Nat) : Option Nat :=
  let xs := (List.range 97).map fun i => c.pexp + i - 48
  let cs := xs.filterMap fun x => if c.start ≤ x then (candidate ch (c.bits.drop (x - c.start))).map fun n => (x, n) else none
  let far (x : Nat) : Nat := if x < c.pexp then c.pexp - x else x - c.pexp
  let win := (cs.foldl (fun (b : Option (Nat × Nat)) y =>
    match b with
    | none => some y
    | some z => if far y.1 < far z.1 ∨ (far y.1 = far z.1 ∧ y.2 < z.2) then some y else some z) none).map (·.1)
  win.filter fun x => owned w ch (c.bits.drop (x - c.start))

/-- The first candidate in the stream that anchors it (R235), with the fuel of its bits. -/
def firstCandidate (w : Want) (ch : Nat) : Nat → Nat → List (Bool × Nat) → Option Nat
  | 0, _, _ => none
  | _, _, [] => none
  | n + 1, i, b :: bs => if (candidate ch (b :: bs)).isSome && owned w ch (b :: bs) then some i else firstCandidate w ch n (i + 1) bs

/-- Bytes next to an inserted bit that is not the complement of the bit before it (R236). -/
def badInserts (bs : List Bool) : List Nat :=
  (pieces 33 bs).zipIdx.flatMap fun (g, i) => if g.getD 32 false = g.getD 31 false then [4 * i + 3, 4 * i + 4] else []

/-- A row block from its 4,288 bits (R236). -/
def foundBlock (ch at_ : Nat) (b : List (Bool × Nat)) : Found :=
  let body := b.drop markBits64
  let bytes := bytesMsb (scramble ch (demodulate (body.map (·.1))))
  let rels := (pieces 8 ((pieces 33 body).flatMap fun g => (g.take 32).map (·.2))).map fun o => o.foldl min 31
  let bad := badInserts (body.map (·.1))
  let rels := rels.zipIdx.map fun (r, i) => if bad.contains i then 0 else r
  { ch := ch, at_ := at_, head := bytes.take 16, body := bytes.drop 16, rel := rels.drop 16 }

/-- One step of a channel's search; the flag tells whether it got on. -/
def Chan.step (c : Chan) (w : Want) (ch miss : Nat) : Chan × Option Found × Bool :=
  match c.pend with
  | some x =>
    if c.bits.length < x + posBits - c.start then (c, none, false)
    else
      let b := (c.bits.drop (x - c.start)).take posBits
      let c := ({ c with pend := none, pexp := x + posBits }).dropTo (x + posBits - 48)
      (c, if b.any (fun y => y.2 == relGap) then none else some (foundBlock ch x b), true)
  | none =>
    if c.acq then
      match firstCandidate w ch c.bits.length 0 c.bits with
      | some i => ({ c with acq := false, miss := 0, pend := some (c.start + i), accAt := c.start + i }, none, true)
      | none => (c.dropTo (c.start + c.bits.length - (searchBits - 1)), none, false)
    else if c.start + c.bits.length < c.pexp + 49 + searchBits then (c, none, false)
    else
      match c.best w ch with
      | some x => ({ c with miss := 0, pend := some x, accAt := x }, none, true)
      | none =>
        let m := c.miss + 1
        if miss ≤ m then (({ c with miss := 0, acq := true }).dropTo (c.pexp + 49), none, true)
        else (({ c with miss := m, pexp := c.pexp + posBits }).dropTo (c.pexp + posBits - 48), none, true)

/-- Steps until the channel waits for bits. -/
def Chan.run (w : Want) (ch miss : Nat) : Nat → Chan → Chan × List Found
  | 0, c => (c, [])
  | n + 1, c =>
    let (c, f, more) := c.step w ch miss
    if more then
      let (c, fs) := Chan.run w ch miss n c
      (c, f.toList ++ fs)
    else (c, f.toList)

/-- What the volume on a transport writes in its headers. -/
def Dev.wantOf (d : Dev) (t : Nat) : Want :=
  match (d.tpAt t).volRec with
  | some v => { tag := (volId v).toNat % 65536, member := leAt v 32 1 }
  | none => { tag := 0, member := 256 }

/-! ### C1 on read (R238 to R240) -/

/-- The `n` least reliable of the positions that `p` accepts. -/
def leastReliable (rel : List Nat) (n : Nat) (p : Nat → Nat → Bool) : List Nat :=
  (((rel.zipIdx.filter fun (r, i) => p r i).mergeSort fun a b => decide (a.1 < b.1) || (a.1 == b.1 && decide (a.2 ≤ b.2))).take n).map (·.2)

/-- One errors-and-erasures trial. -/
def c1Trial (top : Nat) (cw : List Byte) (er : List Nat) : Option (List Byte) :=
  match rsDecode 16 cw er with
  | some (w, e) => if e ≤ top ∧ 2 * e + er.length ≤ 16 then some w else none
  | none => none

/-- The reliabilities of the bytes that a trial changed. -/
def changedSum (rel : List Nat) (a b : List Byte) : Nat :=
  ((List.zipWith (fun x y => decide (x ≠ y)) a b).zipIdx.map fun (c, i) => if c then rel.getD i 0 else 0).foldl (· + ·) 0

/-- A C1 codeword of a row (R238): its 248 bytes corrected, and the Chase trials made. -/
def c1Word (thr top chase : Nat) (cw : List Byte) (rel : List Nat) : Option (List Byte) × Nat :=
  let er := leastReliable rel 16 fun r _ => decide (r < thr)
  match c1Trial top cw er with
  | some w => (some w, 0)
  | none =>
    let l := leastReliable rel chase fun _ i => ! er.contains i
    let subsets := (List.range (2 ^ l.length - 1)).map (· + 1)
    let tries := subsets.filterMap fun k => c1Trial top cw (er ++ ((l.zipIdx.filter fun (_, i) => bitOf k i).map (·.1)))
    (tries.foldl (fun (b : Option (List Byte)) w =>
      match b with
      | none => some w
      | some v => if changedSum rel cw w < changedSum rel cw v then some w else some v) none, subsets.length)

/-- A row's 464 bytes by C1, and the half-row decodes that it took (R240). -/
def c1Row (thr top chase : Nat) (body : List Byte) (rel : List Nat) : Option (List Byte) × Nat :=
  let (a, n) := c1Word thr top chase (evens body) (evens rel)
  let (b, m) := c1Word thr top chase (odds body) (odds rel)
  match a, b with
  | some x, some y => (some (interleave (x.take 232) (y.take 232)), 2 + n + m)
  | _, _ => (none, 2 + n + m)

/-- C1_MAX and C2_MAX, above 8 acting as 8 (R256). -/
def Dev.c1Max (d : Dev) : Nat := min 8 (d.fld Fld.decCodeCfgC1Max)
/-- C2_MAX. -/
def Dev.c2Max (d : Dev) : Nat := min 8 (d.fld Fld.decCodeCfgC2Max)
/-- Change the data set `no` of a reading transport. -/
def Rd.modSet (r : Rd) (no : Nat) (f : DsRd → DsRd) : Rd := { r with sets := r.sets.map fun x => if x.no = no then f x else x }

/-- The data set `no` that a transport is reading or has read. -/
def Rd.setOf (r : Rd) (no : Nat) : Option DsRd := r.sets.find? fun x => x.no == no

/-- A C1-decoded row joins its sub data set: the first copy stays (R239). -/
def DsRd.addRow (x : DsRd) (s r : Nat) (row : List Byte) : DsRd :=
  { x with sds := lmod x.sds s fun y =>
      if y.done ∨ (tget y.rows r).isSome then y else { y with rows := tput y.rows r row, grown := y.grown || decide (0 < y.rounds) } }

/-- A row is still wanted. -/
def DsRd.lacks (x : DsRd) (s r : Nat) : Bool :=
  match x.sds[s]? with
  | some y => ! y.done && (tget y.rows r).isNone
  | none => false

/-- The C1 work of a row that waits: what it decodes to, and the half-row decodes that it takes; none for a row no longer wanted. -/
def Dev.c1Try (d : Dev) (t : Nat) (w : C1Work) : Option (Option (List Byte) × Nat) :=
  let r := d.rdAt t
  (r.setOf w.ds).bind fun x =>
    if x.lacks (leAt w.found.head 3 1) (leAt w.found.head 4 1) then some (c1Row r.prof.thr d.c1Max (min 4 r.prof.chase) w.found.body w.found.rel) else none

/-- A row's C1 has ended (R239): it joins its data set, or counts in C1_FAIL. -/
def Dev.c1Done (d : Dev) (t : Nat) (w : C1Work) (row : Option (List Byte)) : Dev :=
  match row with
  | some row => d.modRd t fun r => r.modSet w.ds fun x => x.addRow (leAt w.found.head 3 1) (leAt w.found.head 4 1) row
  | none => d.bump Fld.tpRdCnt0C1Fail t

/-- C1_DECODE of one tick (R15, R240): rows in order of arrival while the budget lasts; what goes beyond it is done in the next tick. -/
def Dev.c1Go (t : Nat) : Nat → Dev → Dev
  | 0, d => d
  | n + 1, d =>
    match (d.rdAt t).work with
    | [] => d
    | w :: rest =>
      let left := (d.rdAt t).c1Left
      match d.c1Try t w with
      | none => Dev.c1Go t n (d.modRd t fun r => { r with work := rest })
      | some (row, cost) =>
        if w.paid + left < cost then d.modRd t fun r => { r with work := { w with paid := w.paid + left } :: rest, c1Left := 0 }
        else Dev.c1Go t n ((d.modRd t fun r => { r with work := rest, c1Left := left - (cost - w.paid) }).c1Done t w row)

/-- Half-row decodes of one tick: 80 rows (R15). -/
def c1Budget : Nat := 160

/-- C1_DECODE of one tick for a transport. -/
def Dev.c1Tick (d : Dev) (t : Nat) : Dev :=
  let d := d.modRd t fun r => { r with c1Left := c1Budget }
  Dev.c1Go t (d.rdAt t).work.length d

/-! ### C2 iterations (R241 to R245) -/

/-- Every copy position of a row in the current attempt's region has been detected (R241): the one at which its channel carries it. -/
def Dev.rowDetected (d : Dev) (t : Nat) (x : DsRd) (s row : Nat) : Bool :=
  let r := d.rdAt t
  let (ch, q) := rowPlace (d.retired t) s row
  x.past || (r.segOf x.no x.attempt).any fun g => decide (g.begins ch + ((q + 1) * posBits : Nat) ≤ ((r.chans.getD ch {}).reached : Int))

/-- A sub data set is ready (R241): each of its rows has been decoded, or can no more be in this attempt's region. -/
def Dev.sdsReady (d : Dev) (t : Nat) (x : DsRd) (s : Nat) (y : Sds) : Bool :=
  (List.range 128).all fun r => (tget y.rows r).isSome || d.rowDetected t x s r

/-- The current attempt's region has been detected to its end. -/
def Dev.regionEnded (d : Dev) (t : Nat) (x : DsRd) : Bool := x.past || ((d.rdAt t).segOf x.no x.attempt).any (d.segEnded t)

/-- Positions that a run without marks can have within a wrap (R210, R249). -/
def quietMax : Nat := 263

/-- No copy of a data set can follow (R245): a whole region of a higher number has passed behind its own, or more positions without a
row block than R210 allows within a wrap, or stale data sets follow (notes/assumptions/61.md). -/
def Dev.copiesEnded (d : Dev) (t : Nat) (x : DsRd) : Bool :=
  let r := d.rdAt t
  let behind (g : Seg) : Bool := decide (x.no < g.no) && d.segEnded t g &&
    (x.past || (r.segOf x.no x.attempt).any fun s => decide (s.first + regionLen (d.retired t) * posBits ≤ g.first + posBits))
  d.regionEnded t x && (r.stale || r.segs.any behind ||
    (liveChans (d.retired t)).all fun ch => let c := r.chans.getD ch {}; decide (c.accAt + (quietMax + 1) * posBits ≤ c.start + c.bits.length))

/-- The iterations of a round (R243). -/
def roundIters : Nat := 3

/-- A sub data set is in a round (R241). -/
def Sds.active (y : Sds) : Bool := ! y.done && decide (0 < y.rounds) && decide (y.iters < roundIters)

/-- A sub data set has used every round that it may have (R245). -/
def Dev.sdsStuck (d : Dev) (t : Nat) (x : DsRd) (y : Sds) : Bool :=
  ! y.done && ! y.active && d.copiesEnded t x && (decide (2 ≤ y.rounds) || (y.rounds == 1 && ! y.grown))

/-- What C2 may take next in a transport: data set and sub data set, those whose round has begun first, each in increasing attempt order
and then increasing sub data set number (R241). -/
def Dev.c2Queue (d : Dev) (t : Nat) : List (Nat × Nat) :=
  let xs := (d.rdAt t).sets.filter fun x => ! x.bad && x.given.isNone
  let pick (p : DsRd → Nat → Sds → Bool) : List (Nat × Nat) :=
    ((xs.flatMap fun x => (x.sds.zipIdx.filter fun (y, i) => p x i y).map fun (_, i) => (x.attempt, i, x.no)).mergeSort fun a b =>
      decide (a.1 < b.1) || (a.1 == b.1 && (decide (a.2.1 < b.2.1) || (a.2.1 == b.2.1 && decide (a.2.2 ≤ b.2.2))))).map fun a => (a.2.2, a.2.1)
  pick (fun _ _ y => y.active) ++ pick fun x i y => y.rounds == 0 && ! y.done && d.sdsReady t x i y

/-- A column by C2 (R242): its 128 symbols, if it decodes. -/
def c2Column (top : Nat) (rows : Table (List Byte)) (er : List Nat) (j : Nat) : Option (List Byte) :=
  match rsDecode 16 ((List.range 128).map fun r => (tgetD rows r []).getD j 0#8) er with
  | some (w, e) => if e ≤ top ∧ 2 * e + er.length ≤ 16 then some w else none
  | none => none

/-- One C2 pass over a sub data set (R242). -/
def Sds.iterate (y : Sds) (top : Nat) : Sds :=
  let er := (List.range 128).filter fun r => (tget y.rows r).isNone
  let y := { y with rounds := max 1 y.rounds, iters := y.iters + 1 }
  if 16 < er.length then y
  else
    let cols := (List.range rowBytes).foldl (fun cs j =>
      if (tget cs j).isSome then cs
      else
        match c2Column top y.rows er j with
        | some w => tput cs j w
        | none => cs) y.cols
    { y with cols := cols, done := cols.length == rowBytes }

/-- The bytes of a row that decoded columns give. -/
def Sds.known (y : Sds) (r : Nat) : List (Option Byte) := (List.range 496).map fun j => (tget y.cols j).map fun w => w.getD r 0#8

/-! ### Re-detection (R230, R243, R244) -/

/-- Samples that one row's re-detection takes from the loan (R230). -/
def redetectCost : Nat := 4824

/-- The detector pool's samples of one tick (R230). -/
def detectorPool : Nat := 3018240

/-- Bytes of a sample ring (R244). -/
def sampleRing : Nat := 18 * poolSize 4

/-- Read `n` bytes of a transport's sample ring from the byte that was written `off`-th; poison makes them unusable. -/
def Dev.ringRead (d : Dev) (h : Hbm) (t off n : Nat) : Dev × List Byte × Bool :=
  let ring := (d.rdAt t).ring
  let a := off % sampleRing
  let m := min n (poolSize 4 - a % poolSize 4)
  let (d, x, p) := d.bufBytes h (ring.getD (a / poolSize 4) nullHandle) (a % poolSize 4) m blkRdc
  let (d, y, q) := d.bufBytes h (ring.getD ((a / poolSize 4 + 1) % 18) nullHandle) 0 (n - m) blkRdc
  (d, x ++ y, p || q)

/-- The samples of a channel in an interval of the ring (R244). -/
def Dev.ringSamples (d : Dev) (h : Hbm) (t ch : Nat) (r : RingRec) : Dev × Option (List Int) :=
  let lo := 6 * r.count * ch
  let hi := lo + 6 * r.count
  let (d, bs, bad) := d.ringRead h t (r.total + lo / 8) (ceilDiv hi 8 - lo / 8)
  (d, if bad then none else some ((pieces 6 (((bitsMsb bs).drop (lo % 8)).take (6 * r.count))).map fun o => toSigned 6 (bitsNat o)))

/-- `want` samples of a channel from the intervals `rs` on, without the first `skip`; none where an interval was lost. -/
def Dev.ringGather (h : Hbm) (t ch : Nat) : List RingRec → Nat → Nat → Dev → Dev × Option (List Int)
  | [], _, _, d => (d, some [])
  | r :: rs, skip, want, d =>
    if want = 0 then (d, some [])
    else if r.count = 0 then (d, none)
    else if r.count ≤ skip then Dev.ringGather h t ch rs (skip - r.count) want d
    else
      match d.ringSamples h t ch r with
      | (d, none) => (d, none)
      | (d, some xs) =>
        let ys := (xs.drop skip).take want
        let (d, rest) := Dev.ringGather h t ch rs 0 (want - ys.length) d
        (d, rest.map (ys ++ ·))

/-- Bits ahead of a row block with which its re-detection begins. -/
def redetectLead : Nat := 12

/-- The samples behind bit `x` of a channel, for one row block, if the ring still holds them (R244). -/
def Dev.rowSamples (d : Dev) (h : Hbm) (t ch x : Nat) : Dev × Option (List Int) :=
  let r := d.rdAt t
  if r.ring.length < 18 then (d, none)
  else
    let at_ (g : RingRec) : Nat := g.bits.getD ch 0
    let (before, behind) := (r.ringLog.reverse).span fun g => decide (at_ g ≤ x)
    match before.getLast? with
    | none => (d, none)
    | some g => if sampleRing < r.ringTotal - g.total then (d, none) else Dev.ringGather h t ch (g :: behind) (9 * (x - at_ g) / 8) (redetectCost + 9 * redetectLead / 8 + 8) d

/-- The channel bits of a row block that known body bytes give (R243): scrambled and modulated. -/
def knownBits (ch : Nat) (known : List (Option Byte)) : List (Option Bool) :=
  let plain : List (Option Bool) := List.replicate 128 none ++ known.flatMap fun b => (List.range 8).map fun i => b.map fun b => b.getLsbD (7 - i)
  let mixed := List.zipWith (fun (o : Option Bool) k => o.map (· ^^ k)) plain (scramble ch (List.replicate 4096 false))
  List.replicate markBits64 none ++ (pieces 32 mixed).flatMap fun g => g ++ [(g.getLastD none).map (! ·)]

/-- A row block detected again from samples (R243): the channel's settings and carried state, an open trellis, and the known bits. -/
def reread (p : SigSet) (s : Sig) (ch : Nat) (raw : List Int) (known : List (Option Byte)) : Found :=
  let s0 : Sig := { s with win := [], place := 0, line := [], eq := [], dec := [], paths := List.replicate 16 {} }
  let (s1, bs) := Sig.run p (runFuel raw.length) raw (List.replicate redetectLead none ++ knownBits ch known) s0
  let bits := ((bs ++ s1.flush.2).drop redetectLead).take posBits
  let f := foundBlock ch 0 (bits ++ List.replicate (posBits - bits.length) (false, 0))
  { f with body := (List.range 496).map fun j => (known.getD j none).getD (f.body.getD j 0#8)
           rel := (List.range 496).map fun j => if (known.getD j none).isSome then 31 else f.rel.getD j 0 }

/-- Re-detect the erased rows of a sub data set while the loan lasts (R243). A row whose samples are gone is passed over (R244); C1 work beyond
the tick's budget is not done (R15), so its row stays erased. -/
def Dev.redetect (h : Hbm) (t no i : Nat) : List Nat → Nat → Dev → Dev × Nat
  | [], loan, d => (d, loan)
  | row :: rows, loan, d =>
    let r := d.rdAt t
    if loan < redetectCost then (d, loan)
    else
      match (r.setOf no).bind fun x => x.sds[i]?.bind fun y => (r.segOf no x.attempt).map fun g => (y, g) with
      | none => (d, loan)
      | some (y, g) =>
        let (ch, q) := rowPlace (d.retired t) i row
        let x : Int := g.begins ch + q * posBits - redetectLead
        match (if x < 0 then (d, none) else d.rowSamples h t ch x.toNat) with
        | (d, none) => Dev.redetect h t no i rows loan d
        | (d, some raw) =>
          let f := reread (d.sigSet t) (r.chans.getD ch {}).det ch raw (y.known row)
          let (res, cost) := c1Row r.prof.thr d.c1Max (min 4 r.prof.chase) f.body f.rel
          let d := if (d.rdAt t).c1Left < cost then d.modRd t fun q => { q with c1Left := 0 }
            else (d.modRd t fun q => { q with c1Left := q.c1Left - cost }).modRd t fun q => match res with
              | some w => q.modSet no fun x => { x with sds := lmod x.sds i fun y => { y with rows := tput y.rows row w } }
              | none => q
          Dev.redetect h t no i rows (loan - redetectCost) d

/-- One sub data set's pass (R242, R243), with the loan that is left. -/
def Dev.c2One (h : Hbm) (t no i loan : Nat) (d : Dev) : Dev × Nat :=
  match ((d.rdAt t).setOf no).bind fun x => x.sds[i]? with
  | none => (d, loan)
  | some y =>
    let y' := y.iterate d.c2Max
    let d := d.modRd t fun r => r.modSet no fun x => { x with sds := x.sds.set i y' }
    let d := if y'.rounds = 1 ∧ y'.iters = 2 then d.bump Fld.tpRdCnt1Iter t else d
    if y'.done ∨ roundIters ≤ y'.iters then (d, loan)
    else Dev.redetect h t no i ((List.range 128).filter fun r => (tget y'.rows r).isNone) loan d

/-! ### Decoded data sets -/

/-- The 51,968 data bytes of a decoded sub data set (R141). -/
def Sds.bytes (y : Sds) : List Byte := (List.range dataRows).flatMap fun r => (List.range rowBytes).map fun j => (tgetD y.cols j []).getD r 0#8

/-- Bytes of a sub data set's data. -/
def sdsBytes : Nat := 51968

/-- The payload of a data set that has been read, with zeros for what is undecodable. -/
def DsRd.payload (x : DsRd) : List Byte :=
  match x.given with
  | some bs => bs
  | none => x.sds.flatMap fun y => if y.done then y.bytes else zeros sdsBytes

/-- The sub data sets that stay undecodable. -/
def DsRd.undecoded (x : DsRd) : List Nat := if x.given.isSome then [] else (x.sds.zipIdx.filter fun (y, _) => ! y.done).map (·.2)

/-- A data set is decided: decoded, supplied, or given up. -/
def DsRd.decided (x : DsRd) : Bool := x.bad || x.undecoded == []

/-- The identity part of a data set, once its first sub data set is decoded and the part passes its CRC (R131). -/
def DsRd.ident (x : DsRd) : Option (List Byte) :=
  let id : Option (List Byte) := match x.given with
    | some bs => some (bs.take 256)
    | none => (x.sds.head?.bind fun y => if y.done then some (y.bytes.take 256) else none)
  id.filter fun i => crc32cOk i && leAt i 0 4 == 0x46440001

/-- What decoded identity parts tell a mounted volume (R167, R250); a data set that a retry has completed is noted with its profile
(R438). -/
def Dev.noteIdents (d : Dev) (t : Nat) : Dev :=
  let r := d.rdAt t
  let won := if r.order.isSome then (r.sets.filter fun x => x.given.isNone && x.undecoded == [] && ! r.decoded.contains x.no).map fun _ => r.profile else []
  ({ d with age := { d.age with done := d.age.done ++ won } } : Dev).modRd t fun r =>
    let new := r.sets.filterMap fun x => if (tget r.idents x.no).isSome then none else x.ident.map fun i => (x.no, i)
    let done := (r.sets.filter fun x => x.undecoded == [] && ! r.decoded.contains x.no).map (·.no)
    { r with
      idents := new.foldl (fun t x => tput t x.1 x.2) r.idents
      voids := r.voids ++ (new.filter fun x => bitOf (leAt x.2 4 2) 3).map fun x => (leAt x.2 48 6, x.1, BitVec.ofNat 64 (leAt x.2 192 8))
      decoded := r.decoded ++ done }

/-- C2_ITERATION of one tick for a transport (R241): two passes. -/
def Dev.c2Tick (h : Hbm) (d : Dev) (t loan : Nat) : Dev × Nat :=
  let (d, loan) := ((d.c2Queue t).take 2).foldl (fun (acc : Dev × Nat) x => Dev.c2One h t x.1 x.2 acc.2 acc.1) (d, loan)
  (d.noteIdents t, loan)

/-! ### Rows found (R237, R239, R248, R249) -/

/-- DS_LOW resolved to the 48-bit number within ±2^23 of a number (R237); none where there is no such number. -/
def resolveDs (near low : Nat) : Option Nat :=
  let x : Int := (near : Int) + (low - near + 2 ^ 23) % 2 ^ 24 - 2 ^ 23
  if x < 0 ∨ 2 ^ 48 ≤ x then none else some x.toNat

/-- The length of a region in nm. -/
def Dev.regionNm (d : Dev) (t : Nat) : Int := ((regionLen (d.retired t) : Nat) * d.posLen t).floor

/-- The longitudinal position of a bit of a channel, from where the head is now. -/
def Dev.bitPos (d : Dev) (t : Nat) (c : Chan) (at_ : Int) : Int :=
  let m := d.motAt t
  let back : Int := ((((c.taken : Int) - at_ : Int) : Rat) / posBits * d.posLen t).floor
  m.lpos + (if m.dir then back else -back)

/-- The transport moves to a longitudinal point of a wrap, to read from there in the wrap's direction (R248). -/
def Dev.rdMove (d : Dev) (t wrap : Nat) (x : Int) : Dev :=
  ((d.controlledStop t).toWrap t wrap).modRd t fun r => { r with phase := .wait, point := x, locating := true, below := none }

/-- Serpentine distance: wraps end to end (R248). -/
def Dev.serpent (d : Dev) (t wrap : Nat) (x : Int) : Int :=
  let len : Int := 1000000 * d.idn t 16 4
  wrap * len + (if wrap % 2 = 1 then len - x else x)

/-- Move to a serpentine distance. -/
def Dev.rdGoto (d : Dev) (t : Nat) (g : Int) : Dev :=
  let len : Int := 1000000 * d.idn t 16 4
  let g := max 0 g
  if len = 0 then d.rdMove t 0 0
  else
    let w := (g / len).toNat
    let x := g % len
    d.rdMove t w (if w % 2 = 1 then len - x else x)

/-- A data set that is sought is not on the tape (R248). -/
def Dev.notFound (d : Dev) (t no : Nat) : Dev := d.modRd t fun r => { r with absent := r.absent ++ [no], locating := false }

/-- Locate looks at a header (R248): true when rows may be taken. A number above that follows a lower one directly shows the data set absent
when it lies more than 8 above; otherwise, and where nothing lower was seen, the transport moves back, three times at most. -/
def Dev.locateSees (d : Dev) (t no : Nat) (here : Int) : Dev × Bool :=
  let r := d.rdAt t
  if ! r.locating then (d, true)
  else if no < r.seek then (d.modRd t fun r => { r with below := some no }, false)
  else if no = r.seek then (d.modRd t fun r => { r with locating := false }, true)
  else if (r.below.isSome ∧ r.seek + 8 < no) ∨ 3 ≤ r.corrections then (d.notFound t r.seek, true)
  else
    let g := d.serpent t (d.motAt t).wrap here - ((no - r.seek + 4 : Nat) : Int) * d.regionNm t
    ((d.modRd t fun r => { r with corrections := r.corrections + 1 }).rdGoto t g, false)

/-- A region that begins at bit `begins` has not been met before in this run. -/
def Rd.freshSeg (r : Rd) (no attempt : Nat) (begins : Int) : Bool :=
  (r.segOf no attempt).all fun g => decide (66 * posBits < (g.first - begins).natAbs)

/-- A data set begins whose number is not above that of the data set before it (R249). A further attempt of a data set (R163, R213) is no new
one. -/
def Rd.staleAt (r : Rd) (no attempt : Nat) (begins : Int) : Bool :=
  let further : Bool := match tget r.seen no with
    | some a => decide (a < attempt)
    | none => decide (0 < attempt)
  r.freshSeg no attempt begins && r.prev.any (fun p => decide (no ≤ p)) && ! further

/-- A region's row block has shown where the region begins on its channel. -/
def Rd.noteSeg (r : Rd) (no attempt ch : Nat) (begins : Int) : Rd :=
  if r.freshSeg no attempt begins then { r with
    segs := (r.segs ++ [({ no := no, attempt := attempt, first := begins, starts := [(ch, begins)] } : Seg)]).drop (r.segs.length - 15)
    seen := tput r.seen no (max attempt (tgetD r.seen no 0)), prev := some no, lastNo := some (max no (r.lastNo.getD 0)) }
  else { r with segs := r.segs.map fun g => if g.no = no ∧ g.attempt = attempt then ({ g with starts := tput g.starts ch begins } : Seg) else g }

/-- An accepted row block ends at `e` on the present wrap (R249). -/
def Dev.noteEnd (d : Dev) (t : Nat) (e : Int) : Dev :=
  let m := d.motAt t
  d.modRd t fun r => { r with lastEnd := match r.lastEnd with
    | some (w, x) => if w = m.wrap then some (w, if m.dir then min x e else max x e) else some (m.wrap, e)
    | none => some (m.wrap, e) }

/-- A row of a region (R237, R239): bookkeeping of data sets and attempts. -/
def Rd.noteRow (r : Rd) (no attempt wrap : Nat) (place : Int) : Rd :=
  if (r.setOf no).isNone ∧ r.target ≤ no then ({ r with sets := r.sets ++ [{ no := no, attempt := attempt }] } : Rd).noteMap no attempt wrap place
  else r.modSet no fun x => if x.attempt < attempt then ({ x with attempt := attempt, past := false } : DsRd) else x

/-- A row block of the read stream (R237): locate, bookkeeping of data sets and attempts, and C1 work. A rewrite does not show where the
region of its data set stands, so locate passes over it. -/
def Dev.readRow (d : Dev) (t : Nat) (f : Found) : Dev :=
  let r := d.rdAt t
  let fl := leAt f.head 9 1
  if r.phase ≠ .run ∨ r.stale then d
  else
    match resolveDs (r.lastNo.getD r.seek) (leAt f.head 0 3) with
    | none => d
    | some no =>
      let copy := bitOf fl 0
      let att := leAt f.head 10 1
      let c := r.chans.getD f.ch {}
      let begins : Int := f.at_ - (rowPlace (d.retired t) (leAt f.head 3 1) (leAt f.head 4 1)).2 * posBits
      let isRow : Bool := ! bitOf fl 1
      if isRow ∧ ! copy ∧ r.staleAt no att begins then d.modRd t fun r => { r with stale := true }
      else
        let d := d.noteEnd t (d.bitPos t c (f.at_ + posBits))
        if ! isRow then d
        else
          let d := if copy then d else d.modRd t fun r => r.noteSeg no att f.ch begins
          let (d, may) := if copy ∧ r.locating then (d, false) else d.locateSees t no (d.bitPos t c f.at_)
          if ! may then d
          else
            let place := d.bitPos t c begins
            let d := if copy then d else d.modRd t fun r => r.noteRow no att (d.motAt t).wrap place
            d.modRd t fun r => if (r.setOf no).isSome then { r with work := r.work ++ [{ ds := no, found := f }] } else r

/-- The transport reads or verifies. -/
def Dev.detecting (d : Dev) (t : Nat) : Bool :=
  d.flag Fld.tpLinkStatUp t && ((d.wrAt t).mode == .streaming || (d.wrAt t).mode == .runout || (d.wrAt t).mode == .turning || (d.rdAt t).phase == .run)

/-- Row blocks kept for verify at most: 12 positions, and the spread of results, of 64 channels. -/
def foundMax : Nat := 4096

/-- An interval of a reading transport goes into its sample ring (R244): its samples, packed four to three bytes, channel after channel. -/
def ringStore (hd : Hbm × Dev) (t : Nat) (x : UpIn) : Hbm × Dev :=
  let r := hd.2.rdAt t
  if r.ring.length < 18 then hd
  else
    let bs := match x.read with
      | some ss => bytesMsb (let b := ss.flatMap (sampleBits 6); b ++ List.replicate ((8 - b.length % 8) % 8) false)
      | none => []
    let at_ := r.ringTotal % sampleRing
    let n := min bs.length (poolSize 4 - at_ % poolSize 4)
    let hd := bufWrite hd (r.ring.getD (at_ / poolSize 4) nullHandle) (at_ % poolSize 4) (bs.take n) false
    let (h, d) := bufWrite hd (r.ring.getD ((at_ / poolSize 4 + 1) % 18) nullHandle) 0 (bs.drop n) false
    let total := r.ringTotal + bs.length
    let new : RingRec := { total := r.ringTotal, count := if x.read.isSome then x.count else 0, bits := r.chans.map Chan.taken }
    (h, d.modRd t fun r => { r with ringTotal := total, ringLog := (new :: r.ringLog).filter fun g => decide (total - g.total ≤ sampleRing) })

/-- The region that the read elements are at (R256): the last one met, or while writing the one that verify has reached. -/
def Dev.regionNow (d : Dev) (t : Nat) : Option (Nat × Nat) :=
  if (d.rdAt t).phase = .run then (d.rdAt t).segs.getLast?.map fun g => (g.no, g.attempt)
  else
    let w := d.wrAt t
    (w.stream.find? fun p => p.kind == .region && decide (w.posStart p.num + 12 * posBits ≤ d.passedBits t) && decide (d.passedBits t < w.posStart p.num + 13 * posBits)).map
      fun p => (p.ds, p.attempt)

/-- One interval through detection and sync search (R228 to R237). -/
def detectOne (hd : Hbm × Dev) (t : Nat) (x : UpIn) : Hbm × Dev :=
  let reading := (hd.2.rdAt t).phase == .run
  let key := hd.2.regionNow t
  let hd : Hbm × Dev := if key.isSome ∧ key ≠ (hd.2.rdAt t).profAt then (hd.1, hd.2.latchProfile t key) else hd
  let (h, d) := if reading then ringStore hd t x else hd
  let p := d.sigSet t
  let f0 := d.freqStart t
  let gap := d.gapBits t x
  let w := d.wantOf t
  let miss := d.fld1 Fld.rdcCtlAcqMiss
  let rs := (d.rdAt t).chans.zipIdx.map fun (c, ch) =>
    let c := c.take p f0 ch gap x
    Chan.run w ch miss (c.bits.length + 4) c
  let fs := rs.flatMap (·.2)
  let d := d.modRd t fun r => { r with chans := rs.map (·.1) }
  if reading then (h, fs.foldl (fun d f => d.readRow t f) d)
  else (h, d.modRd t fun r => let l := r.found ++ fs; { r with found := l.drop (l.length - foundMax) })

/-- The samples that an interval takes from the pool (R230). -/
def UpIn.cost (x : UpIn) : Nat := if x.read.isSome then 64 * x.count else 0

/-- How many intervals of a list fit into `left` samples, and what they leave. -/
def fitIntervals : Nat → List UpIn → Nat × Nat
  | left, [] => (0, left)
  | left, x :: xs => if x.cost ≤ left then let (n, l) := fitIntervals (left - x.cost) xs; (n + 1, l) else (0, left)

/-- The intervals that each transport detects in this tick and the samples that they leave (R230): the oldest of every live stream first, then
those that an overrun has left behind, as far as the pool reaches. -/
def Dev.detectPlan (d : Dev) : List Nat × Nat :=
  let live := (List.range 8).map fun t => if d.detecting t then (d.rdAt t).inp else []
  let left := detectorPool - (live.map fun l => (l.head?.map UpIn.cost).getD 0).sum
  live.foldl (fun acc l =>
    let (n, left) := fitIntervals acc.2 l.tail
    (acc.1 ++ [if l = [] then 0 else n + 1], left)) ([], left)

/-- RDC_DETECT and sync search of one tick for a transport, for the intervals that the plan gives it; what comes while it does not read is let
go. -/
def detectTick (hd : Hbm × Dev) (plan : List Nat) (t : Nat) : Hbm × Dev :=
  let inp := (hd.2.rdAt t).inp
  let n := plan.getD t 0
  if ! hd.2.detecting t then (hd.1, hd.2.modRd t fun r => { r with inp := [] })
  else (inp.take n).foldl (fun hd x => detectOne hd t x) (hd.1, hd.2.modRd t fun r => { r with inp := inp.drop n })

/-- 512 positions have passed on every channel with no accepted row block (R249). -/
def Dev.tapeEmpty (d : Dev) (t : Nat) : Bool := (d.rdAt t).chans.all fun c => decide (c.accAt + 512 * posBits ≤ c.start + c.bits.length)

/-- The loan of one tick (R230): what the live streams leave. -/
def Dev.detectLoan (d : Dev) : Nat := d.detectPlan.2

/-- SDS_LATE_ROUND (R245): later copies have added a row to a sub data set that its first round left undecoded. -/
def execSdsLateRound (tp sds : Nat) (s : State) : Host.Outcome State Fault Refusal :=
  nextDev s fun d =>
    match (d.rdAt tp).sets.find? fun x => (match x.sds[sds]? with
        | some y => ! y.done && ! y.active && y.rounds == 1 && y.grown && d.copiesEnded tp x
        | none => false) with
    | some x => d.modRd tp fun r => r.modSet x.no fun x => { x with sds := lmod x.sds sds fun y => { y with rounds := 2, iters := 0, grown := false } }
    | none => d

end Sys2Proof.Machine
end

