-- ==== Sys2Proof/Machine/Sch.lean ====
section
/-! DEFINITION. The arbitration round of the scheduler (R69 to R78). -/

namespace Sys2Proof.Machine

/-- A step that the round may take (R69): an admission, or a grant step of `charge` bytes. -/
structure SchStep where
  cmd : Nat
  key : Nat
  tenant : Nat
  cls : Nat
  charge : Nat
  adm : Bool
  off : Nat
  deriving DecidableEq, Repr

/-- The round under way. `steps` are those not yet taken, oldest command first. -/
structure Round where
  steps : List SchStep
  taken : List SchStep := []
  vt : Table Nat
  rrConn : Table Nat
  lastTen : List (Option Nat)
  adms : Nat := 0
  grants : Nat := 0
  spent : Nat := 0
  spentU : Nat := 0
  deficit : List Nat
  fresh : List Bool
  rr : Nat
  deriving DecidableEq, Repr

/-- The key of a tenant and class in the scheduler's tables. -/
def tcKey (t cls : Nat) : Nat := 8 * t + cls

/-- Steps of one tick (R71). -/
def admMax : Nat := 2048
/-- Grant steps of one tick (R71). -/
def grantMax : Nat := 4096

/-- The admission steps eligible at boundary `k` (R71): the oldest unadmitted command of each connection in each
class. An ABORT is not arbitrated (R70). -/
def Dev.admSteps (d : Dev) (k : Nat) : List SchStep :=
  let waiting := d.rte.cmds.filter fun c => c.2.op != opAbort && c.2.adm.isNone && ! c.2.answered && c.2.fail.isNone
  waiting.filterMap fun c =>
    let older := waiting.any fun o => decide (o.1 < c.1) && o.2.src == c.2.src && o.2.cls == c.2.cls
    let won := d.sch.won.any (·.cmd == c.1)
    if older ∨ won ∨ k < c.2.arr then none
    else some { cmd := c.1, key := c.2.src, tenant := c.2.tenant, cls := c.2.cls, charge := 64, adm := true, off := 0 }

/-- The windows that remain to grant of a stream of `total` bytes from `off` on, at most `n`. -/
def windowsFrom (total : Nat) : Nat → Nat → List (Nat × Nat)
  | 0, _ => []
  | n + 1, off => if total ≤ off then [] else (off, min 65536 (total - off)) :: windowsFrom total n (off + 65536)

/-- A session waits for the Kilderkin of its next chunk: a pass of POOL has found none free (R97). -/
def Dev.lacksBuffer (d : Dev) (n k : Nat) : Bool := d.pool.reqs.any fun r => r.purpose == .original n && decide (r.vis < k)

/-- A command's admission is committed at boundary `k` (R71, R76): by the round that took it, whether RTE has acted on it or not. -/
def Dev.admittedBy (d : Dev) (c : Nat × Cmd) (k : Nat) : Bool :=
  c.2.adm.any (fun a => decide (a ≤ k)) || d.sch.won.any fun w => w.cmd == c.1 && decide (w.vis ≤ k)

/-- The grant steps eligible at boundary `k` (R41, R71, R97). -/
def Dev.grantSteps (d : Dev) (k : Nat) : List SchStep :=
  if d.mayTake 0 2 then
    d.rte.cmds.flatMap fun c =>
      if c.2.op = opWrite ∧ d.admittedBy c k ∧ ! c.2.answered ∧ c.2.wr.limit.isNone ∧ d.lacksBuffer c.2.session k = false then
        (windowsFrom c.2.wr.total (d.grantDepth - c.2.wr.outstanding k) c.2.wr.stepOff).map fun w =>
          { cmd := c.1, key := c.2.src, tenant := c.2.tenant, cls := c.2.cls, charge := w.2, adm := false, off := w.1 }
      else []
  else []

/-- A step is eligible while the round has not reached the count limit of its kind (R71). -/
def Round.eligible (r : Round) (s : SchStep) : Bool := if s.adm then decide (r.adms < admMax) else decide (r.grants < grantMax)

/-- Eligible steps of a class. -/
def Round.ofClass (r : Round) (cls : Nat) : List SchStep := r.steps.filter fun s => s.cls == cls && r.eligible s

/-- The tenant with the lowest virtual time in a class (R75): ties go to the first tenant number at or above the tick
counter modulo 16,384, counting upward with wrap. -/
def Round.lowestTenant (r : Round) (tick cls : Nat) : Option Nat :=
  let rank (t : Nat) : Nat := (t + 16384 - tick % 16384) % 16384
  ((r.ofClass cls).map (·.tenant)).foldl (fun best t =>
    match best with
    | none => some t
    | some b =>
      let vb := tgetD r.vt (tcKey b cls) 0
      let v := tgetD r.vt (tcKey t cls) 0
      if v < vb ∨ (v = vb ∧ rank t < rank b) then some t else some b) none

/-- The next step of a tenant in a class (R77): the connections take turns, the oldest command of one first. The turns go by
ascending source key, record rings after connections, from the lowest first (DESIGN CHOICE, notes/assumptions/161.md). -/
def Round.nextStep (r : Round) (t cls : Nat) : Option SchStep :=
  let mine := (r.ofClass cls).filter (·.tenant == t)
  let keys := mine.map (·.key)
  let after := keys.filter fun k => match tget r.rrConn (tcKey t cls) with
    | some l => decide (l < k)
    | none => true
  let key := match after.min? with
    | some k => some k
    | none => keys.min?
  key.bind fun k => mine.find? (·.key == k)

/-- Take a step (R75): its tenant's virtual time grows by charge × 256 / WEIGHT. -/
def Round.take (d : Dev) (r : Round) (s : SchStep) : Round :=
  let k := tcKey s.tenant s.cls
  { r with
    steps := r.steps.erase s
    taken := r.taken ++ [s]
    vt := tput r.vt k ((tgetD r.vt k 0 + s.charge * 256 / max 1 (d.tenantAt s.tenant).weight) % 2 ^ 64)
    rrConn := tput r.rrConn k s.key
    lastTen := r.lastTen.set s.cls (some s.tenant)
    adms := r.adms + b2n s.adm
    grants := r.grants + b2n (! s.adm)
    spent := r.spent + s.charge }

/-- The step that goes next in a class. -/
def Round.head (r : Round) (tick cls : Nat) : Option SchStep := (r.lowestTenant tick cls).bind fun t => r.nextStep t cls

/-- Class U spends its allowance (R72, R77). -/
def Round.runU (d : Dev) (uAvail avail : Nat) : Nat → Round → Round
  | 0, r => r
  | fuel + 1, r =>
    match r.head d.tick.toNat 0 with
    | none => r
    | some s =>
      if r.spentU < uAvail ∧ r.spent < avail then
        Round.runU d uAvail avail fuel { (Round.take d r s) with spentU := r.spentU + s.charge }
      else r

/-- One turn of class j + 1: steps while the head's charge does not exceed the deficit (R74). -/
def Round.runTurn (d : Dev) (avail j : Nat) : Nat → Round → Round
  | 0, r => r
  | fuel + 1, r =>
    match r.head d.tick.toNat (j + 1) with
    | none => r
    | some s =>
      if s.charge ≤ r.deficit.getD j 0 ∧ r.spent < avail then
        Round.runTurn d avail j fuel { (Round.take d r s) with deficit := r.deficit.set j (r.deficit.getD j 0 - s.charge) }
      else r

/-- Some class W0 to W3 has an eligible step. -/
def Round.wHas (r : Round) : Bool := r.steps.any fun s => decide (0 < s.cls) && r.eligible s

/-- The weight of class Wj (R79). -/
def Dev.classWeight (d : Dev) (j : Nat) : Nat :=
  d.fld1 ([Fld.schClassWtW0, Fld.schClassWtW1, Fld.schClassWtW2, Fld.schClassWtW3].getD j Fld.schClassWtW0)

/-- The turns of W0 to W3 by deficit round robin (R74, R77). -/
def Round.runW (d : Dev) (avail : Nat) : Nat → Round → Round
  | 0, r => r
  | fuel + 1, r =>
    if r.wHas ∧ r.spent < avail then
      let j := r.rr
      let r := if r.fresh.getD j true then
          { r with deficit := r.deficit.set j (r.deficit.getD j 0 + d.classWeight j * d.fld1 Fld.schTickCfgQuantum * 256), fresh := r.fresh.set j false }
        else r
      let r := Round.runTurn d avail j (r.steps.length + 1) r
      let r := if r.spent < avail then
          { r with
            deficit := if (r.ofClass (j + 1)).isEmpty then r.deficit.set j 0 else r.deficit
            fresh := r.fresh.set j true
            rr := (j + 1) % 4 }
        else r
      Round.runW d avail fuel r
    else r

/-- The nominal budget B (R72, R79). -/
def Dev.schBudget (d : Dev) : Nat := max 64 (d.fld Fld.schTickCfgBytes) * 4096

/-- Tenant and class pairs with an eligible step. -/
def Round.pairs (r : Round) : List Nat := ((r.steps.filter r.eligible).map fun s => tcKey s.tenant s.cls).dedup

/-- A tenant that gains an eligible step starts no earlier than the tenant last chosen in the class (R76). -/
def Round.catchUp (r : Round) (left : List Nat) : Round :=
  { r with vt := r.pairs.foldl (fun vt k =>
      if left.contains k then vt
      else
        match r.lastTen.getD (k % 8) none with
        | none => vt
        | some t => tput vt k (max (tgetD vt k 0) (tgetD vt (tcKey t (k % 8)) 0))) r.vt }

/-- One round at boundary `k`, on the state committed there (R72 to R77): the scheduler after it, the admissions it
commits, and the grant steps, whose Kilderkin requests go to POOL (R71). -/
def Dev.schRound (d : Dev) (k : Nat) : Dev :=
  let r0 : Round :=
    { steps := (d.admSteps k ++ d.grantSteps k).mergeSort (fun a b => decide (a.cmd < b.cmd ∨ (a.cmd = b.cmd ∧ a.off ≤ b.off)))
      vt := d.sch.vt, rrConn := d.sch.rrConn, lastTen := d.sch.lastTen, deficit := d.sch.deficit, fresh := d.sch.fresh, rr := d.sch.rr }
  let r0 := r0.catchUp d.sch.left
  let b := d.schBudget
  let wHas := r0.wHas
  let uAllow := if wHas then b / 4 else b
  let avail := b - d.sch.carryAll
  let uAvail := uAllow - d.sch.carryU
  let n := r0.steps.length
  let r1 := Round.runU d uAvail avail (n + 1) r0
  let capped := wHas && ! (r1.ofClass 0).isEmpty && decide (uAvail ≤ r1.spentU)
  let r := Round.runW d avail (1100 * (n + 4)) r1
  let d := if capped then d.bump Fld.schUCapCntCount else d
  let d : Dev := { d with sch := { d.sch with
    vt := r.vt, rrConn := r.rrConn, lastTen := r.lastTen, deficit := r.deficit, fresh := r.fresh, rr := r.rr
    carryU := r.spentU - uAvail, carryAll := r.spent - avail, left := r.pairs
    won := d.sch.won ++ (r.taken.filter (·.adm)).map fun s => { cmd := s.cmd, grant := 0, vis := d.nextVis } } }
  (r.taken.filter fun s => ! s.adm).foldl (fun d s =>
    (d.modCmd s.cmd fun c => { c with wr := { c.wr with stepOff := s.off + s.charge, asked := c.wr.asked ++ [(s.off, s.charge)] } }).poolRequest
      65536 0 1 false (.grant s.cmd)) d

/-- The round that begins with a tick (R76): it runs on the state committed at the boundary that has just passed. No round begins in
the tick in which an overrun one finishes (R16, R78). -/
def Dev.schTick (d : Dev) : Dev :=
  if d.sch.overrun then { d with sch := { d.sch with overrun := false } } else d.schRound d.clk

/-- The round of this tick overruns (R16, R78): what it took is committed one boundary later. -/
def Dev.schLate (d : Dev) : Dev :=
  { d with
    sch := { d.sch with overrun := true, won := d.sch.won.map fun w => if w.vis = d.nextVis then { w with vis := w.vis + 1 } else w }
    pool := { d.pool with reqs := d.pool.reqs.map fun r => match r.purpose with
      | .grant _ => if r.vis = d.nextVis then { r with vis := r.vis + 1 } else r
      | _ => r } }

end Sys2Proof.Machine
end

