-- ==== Sys2Proof/Machine/ReadBack.lean ====
section
/-! DEFINITION. Read back (R52 to R57, R247 to R255, R316, R449 to R451): where a data set can be read, which function
has a transport, locate and end of data, retry, reconstruction, and the delivery of records. -/

namespace Sys2Proof.Machine

/-! ### Volumes and data sets (R247, R250, R315, R316) -/

/-- A volume of a mounted span set: its slot and member, whether it is the member's volume now, and its row map. -/
structure VolAt where
  slot : Nat
  member : Nat
  now : Bool
  map : List Extent
  deriving DecidableEq, Repr

/-- The span set volume that a VOLUME_ID names (R52, R316). -/
def Dev.volAt (d : Dev) (vol : BitVec 64) : Option VolAt :=
  d.spn.slots.findSome? fun (slot, s) =>
    if ! (s.members.any (·.mounted)) then none
    else
      let ms := (s.members ++ s.newMembers).zipIdx.map fun (m, i) => (m, if i < s.members.length then i else i - s.members.length)
      match ms.find? fun x => x.1.vol == vol with
      | some (m, i) => some { slot := slot, member := i, now := m.mounted && ! s.failed.getLsbD i, map := m.map }
      | none => (s.oldVols.find? fun o => o.vol == vol).map fun o => { slot := slot, member := o.member, now := false, map := o.map }

/-- EOD of the volume on a transport. -/
def Dev.eodOf (d : Dev) (t : Nat) : Nat := max (((d.tpAt t).volRec.map volEod).getD 0) (d.wrAt t).eod

/-- What can be had of a data set. -/
inductive DsSrc where
  /-- Its payload, the sub data sets that stay undecodable, and the poison of its words when it comes from buffer. -/
  | payload (buffer : Bool) (bytes : List Byte) (bad : List Nat) (poison : List Bool)
  /-- It has to be read: the transport and the data set there. -/
  | tape (t no : Nat)
  /-- A peer has to return it. -/
  | peer (slot row member : Nat)
  /-- Its row has to be reconstructed. -/
  | recon (slot row member : Nat)
  /-- It is not on the volume. -/
  | absent
  /-- It is void (R167). -/
  | void
  /-- Reconstruction has failed. -/
  | lost
  deriving DecidableEq, Repr

/-- The payload buffer of a member's data set that is still held whole (R303, R450). -/
def Span.heldBuf (s : Span) (n i : Nat) : Option (BitVec 32) :=
  (tget s.rows n).bind fun r =>
    let whole := if i < (s.descOf n).k then decide ((i + 1) * payloadLen ≤ r.assembled) else r.parity == parityTotal
    if whole ∧ (r.st = .writing ∨ r.st = .complete) then r.bufs.getD i none else none

/-- What a transport has of a data set. -/
def Dev.tapeSrc (d : Dev) (t no : Nat) : DsSrc :=
  let r := d.rdAt t
  match r.setOf no with
  | some x => if x.decided then .payload false x.payload x.undecoded [] else .tape t no
  | none => if r.absent.contains no ∨ (r.eodDone ∧ d.eodOf t ≤ no) then .absent else .tape t no

/-- A data set is void by a splice that the device has read, or is to write (R167, R250): none when no splice covers it,
otherwise whether KEEP_MAP names it. -/
def Rd.spliceOf (r : Rd) (no : Nat) : Option Bool :=
  (r.voids.find? fun x => decide (x.1 ≤ no) && decide (no < x.2.1)).map fun x => decide (no - x.1 < 64) && x.2.2.getLsbD (no - x.1)

/-- A data set is void. -/
def Dev.voidDs (d : Dev) (t no : Nat) : Bool := (d.rdAt t).spliceOf no == some false

/-- The data set that a map gives row `n` of a member is void on the member's volume (R167). -/
def Dev.voidRowDs (d : Dev) (s : Span) (n i : Nat) : Bool :=
  match d.memberTp s n i, ((s.memsOf n)[i]?).bind fun m => mapDs m.map n with
  | some t, some no => d.voidDs t no
  | _, _ => false

/-- The source of member `i`'s data set of row `n` of a mounted span set (R316, R319, R326): a rebuilt copy counts once
its row has been verified, and a void data set is never used (R167). -/
def Dev.rowSrc (d : Dev) (h : Hbm) (slot n i : Nat) : Dev × DsSrc :=
  match d.spanAt slot with
  | none => (d, .absent)
  | some s =>
    match s.heldBuf n i with
    | some b =>
      let (d, bs, ps) := Dev.memReadWords h blkPkr (payloadLen / 32) d (d.bufAddr b / 32)
      (d, .payload true bs [] ps)
    | none =>
      let m := (s.memsOf n).getD i {}
      let e := (s.descOf n).members.getD i 0
      let rebuilt := s.rebuild.bind fun r => if r.member = i ∧ n < r.row then (mapDs r.map n).map fun no => (r.tp, no) else none
      match rebuilt with
      | some (t, no) => (d, d.tapeSrc t no)
      | none =>
        if d.voidRowDs s n i then (d, .void)
        else if s.failed.getLsbD i ∨ ! m.mounted then (d, .recon slot n i)
        else
          match d.entryLocal e with
          | none =>
            match s.peerData.find? fun p => p.1 == n && p.2.1 == i with
            | some p => (d, .payload false p.2.2 [] [])
            | none => (d, if d.unreachable e then .recon slot n i else .peer slot n i)
          | some t =>
            match mapDs m.map n with
            | some no => (d, d.tapeSrc t no)
            | none => (d, .recon slot n i)

/-- Reconstruction of a row for a member, as far as it has got (R316). -/
def Dev.reconSrc (d : Dev) (slot n i : Nat) : DsSrc :=
  match d.spn.recons.find? fun r => r.slot == slot && r.row == n && r.member == i with
  | some r => match r.out with
    | some bs => .payload false bs [] []
    | none => if r.failed then .lost else .recon slot n i
  | none => .recon slot n i

/-- The source of data set `no` of a volume (R316, R450). -/
def Dev.dsSrc (d : Dev) (h : Hbm) (v : VolAt) (no : Nat) : Dev × DsSrc :=
  match d.spanAt v.slot with
  | none => (d, .absent)
  | some s =>
    let row := mapRow v.map no
    let held := row.bind fun n => s.heldBuf n v.member
    let tp := (s.members[v.member]?).bind fun _ => ((s.desc.members[v.member]?).bind d.entryLocal)
    if tp.any fun t => d.voidDs t no then (d, .void)
    else if held.isNone ∧ v.now ∧ tp.isSome then (d, d.tapeSrc (tp.getD 0) no)
    else
      match row with
      | none => (d, .absent)
      | some n =>
        match d.rowSrc h v.slot n v.member with
        | (d, .recon a b c) => (d, d.reconSrc a b c)
        | r => r

/-- The row of a decoded data set, by its identity part. -/
def identRow (i : List Byte) : Nat := leAt i 32 6

/-- An identity part carries a journal entry that shows a row complete (R132, R250). -/
def identShows (i : List Byte) (row : Nat) : Bool :=
  (List.range 8).any fun j => leAt i (64 + 16 * j) 6 == row && leAt i (70 + 16 * j) 1 == 3

/-- A data set read from tape is confirmed (R250). -/
def Dev.confirmed (d : Dev) (slot t no : Nat) : Bool :=
  let r := d.rdAt t
  let row := ((tget r.idents no).map identRow).getD (2 ^ 48)
  match r.spliceOf no with
  | some keep => keep
  | none =>
    (((d.spanAt slot).bind fun s => tget s.rows row).map fun x => x.st == .complete).getD false
      || r.idents.any (fun x => decide (no < x.1) && identShows x.2 row)
      || decide (40 ≤ (r.decoded.filter fun x => decide (no < x)).length) || r.eodDone

/-! ### Wants (R449) -/

/-- The volume and next data set of a READ-RECORDS. -/
def Cmd.readVol (k : Cmd) : BitVec 64 := BitVec.ofNat 64 (leAt k.cap 8 8)

/-- What a READ-RECORDS needs next. -/
def Dev.cmdSrc (d : Dev) (h : Hbm) (k : Cmd) : Dev × DsSrc :=
  match d.volAt k.readVol with
  | none => (d, .absent)
  | some v => d.dsSrc h v k.rd.ds

/-- A READ-RECORDS that is admitted and under way. -/
def Cmd.reading (k : Cmd) : Bool := k.op == opRead && k.adm.isSome && ! k.answered

/-- The data set that a READ-RECORDS wants of transport `t`: one not read, or the one after those read when its own waits
to be confirmed. -/
def Dev.cmdWant (d : Dev) (h : Hbm) (t id : Nat) (k : Cmd) : Option (RdGoal × Nat) :=
  if ! k.reading then none
  else
    match (d.cmdSrc h k).2 with
    | .tape t' no => if t' = t then some (.records id, no) else none
    | .payload false _ _ _ =>
      match d.volAt k.readVol with
      | some v =>
        let tp := ((d.spanAt v.slot).bind fun s => s.desc.members[v.member]?).bind d.entryLocal
        if tp = some t ∧ v.now ∧ ! d.confirmed v.slot t k.rd.ds ∧ ! d.voidDs t k.rd.ds then some (.records id, k.rd.ds) else none
      | none => none
    | _ => none

/-- The members whose data sets serve a reconstruction or a rebuild of a row, lowest indices first, without member `x`. -/
def Span.others (s : Span) (n x : Nat) : List Nat := (List.range (s.descOf n).width).filter fun i => i != x

/-- The data sets that a row's reconstruction wants of transport `t`: those of the lowest available members, until k are
had. -/
def Dev.rowWant (d : Dev) (h : Hbm) (t slot n x : Nat) : Option Nat :=
  match d.spanAt slot with
  | none => none
  | some s =>
    let srcs := (s.others n x).map fun i => (d.rowSrc h slot n i).2
    let useful := srcs.filter fun y => match y with
      | .payload _ _ bad _ => bad == []
      | .tape _ _ => true
      | .peer _ _ _ => true
      | _ => false
    (useful.take (s.descOf n).k).findSome? fun y => match y with
      | .tape t' no => if t' = t then some no else none
      | _ => none

/-- The row that patrol reads next (R324, R325): complete, with no member missing. -/
def Span.patrolRow (s : Span) : Bool :=
  (match tget s.rows s.patrol with
   | some r => r.st == .complete && r.missing == 0
   | none => decide (s.patrol < s.c)) && s.failed == 0

/-- Patrol of a span set is on (R324). -/
def Dev.patrolOn (d : Dev) (slot : Nat) (s : Span) : Bool :=
  d.flag Fld.spnPatrolCfgEn && d.flag Fld.spnSetCfgPatrol slot && decide (s.patrolAt + d.fld1 Fld.spnPatrolCfgGap ≤ d.clk) && decide (s.patrol < s.c)

/-- A row of a span set is lost (R320). -/
def Span.rowLost (s : Span) (n : Nat) : Bool :=
  (s.loss.any fun l => l.row == n) || (match tget s.rows n with
    | some r => r.st == .lost
    | none => false)

/-- What is wanted of a transport, in the order of R449. -/
def Dev.wants (d : Dev) (h : Hbm) (t : Nat) : List (RdGoal × Nat) :=
  let eod := if (d.rdAt t).goal = .eod then [(RdGoal.eod, (d.rdAt t).target)] else []
  let recs := d.rte.cmds.filterMap fun (id, k) => d.cmdWant h t id k
  let recons := d.spn.recons.filterMap fun r =>
    if r.out.isSome ∨ r.failed then none else (d.rowWant h t r.slot r.row r.member).map fun no => (RdGoal.recon r.slot r.row, no)
  let rebuilds := d.spn.slots.filterMap fun (slot, s) =>
    s.rebuild.bind fun r => if r.ready ∧ r.row < s.c ∧ ! s.rowLost r.row then (d.rowWant h t slot r.row r.member).map fun no => (RdGoal.rebuild slot, no) else none
  let patrols := d.spn.slots.filterMap fun (slot, s) =>
    if d.patrolOn slot s ∧ s.patrolRow ∧ ! s.rowLost s.patrol then
      ((List.range (s.descOf s.patrol).width).findSome? fun i => match (d.rowSrc h slot s.patrol i).2 with
        | .tape t' no => if t' = t then some no else none
        | _ => none).map fun no => (RdGoal.patrol slot, no)
    else none
  let hints := match (d.rdAt t).hint with
    | some no => [(RdGoal.hint, no)]
    | none => []
  eod ++ recs ++ recons ++ rebuilds ++ patrols ++ hints

/-- The rank of a goal in R449's table. -/
def RdGoal.rank : RdGoal → Nat
  | .eod => 2
  | .records _ => 4
  | .recon _ _ => 4
  | .rebuild _ => 5
  | .patrol _ => 6
  | .hint => 7
  | .none => 9

/-! ### Locate (R248) -/

/-- The serpentine distance at which a data set should begin, by the map (R247, R248). -/
def Dev.estimate_ (d : Dev) (t no : Nat) : Int :=
  let r := d.rdAt t
  let pts : List (Nat × Int) := (r.map.map fun x => (x.1, d.serpent t x.2.1 x.2.2)) ++ (r.eodAt.map fun x => (d.eodOf t, d.serpent t x.1 x.2)).toList
  let lo := pts.foldl (fun (b : Nat × Int) x => if x.1 ≤ no ∧ b.1 ≤ x.1 then x else b) (0, 0)
  let eod : Nat × Int := (d.eodOf t, d.eodOf t * d.regionNm t)
  let hi := pts.foldl (fun (b : Option (Nat × Int)) x =>
    if no ≤ x.1 then (match b with
      | some y => if y.1 ≤ x.1 then some y else some x
      | none => some x) else b) none
  let hi := hi.getD eod
  if hi.1 ≤ lo.1 then lo.2 else lo.2 + Int.tdiv ((hi.2 - lo.2) * ((no - lo.1 : Nat) : Int)) ((hi.1 - lo.1 : Nat) : Int)

/-- Set out for a data set (R248): to four regions before the estimate, with the profile in force. -/
def Dev.rdSeek (d : Dev) (t no : Nat) : Dev :=
  (d.modRd t fun r => { r with target := no, seek := no, corrections := 0, work := [], lastNo := none }).rdGoto t (d.estimate_ t no - 4 * d.regionNm t)

/-- Ask POOL for the 18 Hogsheads of the sample ring (R244, R489). -/
def Dev.askRing (d : Dev) (t : Nat) : Dev :=
  if (d.rdAt t).ring ≠ [] ∨ d.pool.reqs.any (fun r => r.purpose == .sample t) then d
  else (List.range 18).foldl (fun d _ => d.poolRequest (poolSize 4) 8 8 false (.sample t)) d

/-- A transport begins to read for a goal (R252): slot 0's profile. -/
def Dev.rdBegin (d : Dev) (t : Nat) (g : RdGoal) (no : Nat) : Dev :=
  let p := d.slotProfile 0
  ((d.modRd t fun r => { r with goal := g, profile := p, slot := 1, used := [p], order := none, asked := false, sets := [], waitSince := none }).askRing t).rdSeek t no

/-- Reading ends on a transport: one that writes goes back to its append point (R451, R214). -/
def Dev.rdStop (d : Dev) (t : Nat) : Dev :=
  let r := d.rdAt t
  let w := d.wrAt t
  let home := decide (w.mode = .parked)
  let back : Int := (d.rampDistance t 1000000000).ceil + 20000000
  let d := ((d.controlledStop t).releaseAll r.ring 8).modRd t fun r => { r with
    goal := .none, phase := if home then .home else .off, sets := [], work := [], ring := [], hint := if r.goal = .hint then none else r.hint
    profile := d.slotProfile 0, order := none, took := none, waitSince := none, point := if w.dirOf then w.append + back else w.append - back }
  let d : Dev := { d with pool := { d.pool with reqs := d.pool.reqs.filter fun q => q.purpose != .sample t } }
  (if home then d.toWrap t w.wrap else d).modMot t fun m => { m with travel := .none }

/-- What a change of want does to a transport that reads. -/
def Dev.rdContinue (d : Dev) (t : Nat) (g : RdGoal) (no : Nat) : Dev :=
  let r := d.rdAt t
  if r.goal = g then
    if r.target = no then d
    else if r.target < no ∧ r.phase ≠ .off then
      d.modRd t fun r => { r with target := no, sets := r.sets.filter fun x => decide (no ≤ x.no), slot := 1, used := [d.slotProfile 0], order := none
                                  asked := false, profile := d.slotProfile 0 }
    else d.rdBegin t g no
  else if (r.setOf no).isSome then d.modRd t fun r => { r with goal := g, target := no }
  else d.rdBegin t g no

/-- A function below writing gives the transport back when a data set waits to be written (R58, R449): a hint at once, a rebuild or patrol
read before its next data set. -/
def Dev.yields (d : Dev) (t : Nat) (g : RdGoal) (no : Nat) : Bool :=
  let r := d.rdAt t
  decide (4 < g.rank) && (d.wrAt t).mode != .idle && (d.nextDs t).isSome && (g == .hint || r.goal != g || r.target != no)

/-- Which function has the transport (R449, R451). A read that finds the transport parked takes it; one that finds it
writing waits. -/
def Dev.arbitrate (d : Dev) (h : Hbm) (t : Nat) : Dev :=
  let r := d.rdAt t
  let w := d.wrAt t
  if (d.tpAt t).mounted.isNone ∨ ! d.flag Fld.tpLinkStatUp t ∨ r.phase = .home then d
  else
    match (d.wants h t).head? with
    | none => if r.goal = .none ∨ r.goal = .eod then d.modRd t fun r => { r with waitSince := none } else d.rdStop t
    | some (g, no) =>
      if r.goal ≠ .none then (if d.yields t g no then d.rdStop t else d.rdContinue t g no)
      else if w.mode = .idle then d.rdBegin t g no
      else
        let parked : Bool := w.mode == .parked && (d.motAt t).travel == .park && d.motState t == msHold
        if parked ∧ g.rank ≤ 4 then (d.rdBegin t g no).modRd t fun r => { r with took := some d.clk, held := some (r.held.getD d.clk) }
        else if parked ∧ (d.nextDs t).isNone then d.rdBegin t g no
        else if g.rank = 4 then d.modRd t fun r => { r with waitSince := some (r.waitSince.getD d.clk) }
        else d

/-! ### Travel of a reading transport -/

/-- Decoded data sets that wait for delivery (R253): those that may be delivered. -/
def Dev.waitingSets (d : Dev) (t : Nat) : Nat :=
  let r := d.rdAt t
  let slot := ((d.tpAt t).mounted.map (·.1)).getD 0
  (r.sets.filter fun x => x.decided && decide (r.target ≤ x.no) && d.confirmed slot t x.no).length

/-- AHEAD, 0 acting as 1 (R256). -/
def Dev.aheadMax (d : Dev) (t : Nat) : Nat := d.fld1 Fld.tpRdCfgAhead t

/-- End of data has been found (R249), behind the last accepted row block: the record and the map are corrected. -/
def Dev.eodFound (d : Dev) (t : Nat) : Dev :=
  let r := d.rdAt t
  let old := ((d.tpAt t).volRec.map volEod).getD 0
  let new := match r.lastNo with
    | some n => n + 1
    | none => old
  let (wrap, place) := r.lastEnd.getD ((d.motAt t).wrap, r.point)
  let d := d.modRd t fun r => { r with eodDone := true, eodAt := some (wrap, place) }
  let d := if new = old then d
    else (d.modTp t fun p => { p with upd := p.upd ++ [{ eod := some new }] }).postBoth 0x4B blkRdc t [item t, item old, item new]
  if r.goal = .eod then
    let d := d.modWr t fun w => { w with eod := new, wrap := wrap, ended := place, mode := if w.mode = .idle then w.mode else .parked }
    (d.modWr t fun w => { w with append := d.appendAfter t place }).rdStop t
  else d

/-- What a reading transport does next (R248, R249, R253). -/
def Dev.rdTravel (d : Dev) (t : Nat) : Dev :=
  let r := d.rdAt t
  let m := d.motAt t
  let st := d.motState t
  let still := decide (st = msHold ∨ st = msIdle ∨ st = msStartFailed)
  match r.phase with
  | .off => d
  | .wait =>
    if ! still then d
    else if (m.lpos - r.point).natAbs ≤ 1000000 then
      (((d.motStart t (m.wrap % 2 == 1)).modMot t fun m => { m with travel := .read }).detectorStart t false).modRd t fun r => { r with phase := .run }
    else ((d.motStart t (decide (r.point < m.lpos))).modMot t fun m => { m with travel := .locate r.point }).modRd t fun r => { r with phase := .move }
  | .move =>
    if st = msHold then
      (((d.motStart t (m.wrap % 2 == 1)).modMot t fun m => { m with travel := .read }).detectorStart t false).modRd t fun r => { r with phase := .run }
    else d
  | .run =>
    if r.goal = .hint ∧ ! r.locating then d.rdStop t
    else if r.goal = .hint ∧ r.absent.contains r.target then d.rdStop t
    else if st = msRun ∧ (d.tapeEmpty t ∨ r.stale) ∧ (r.goal = .eod ∨ (! r.eodDone ∧ d.eodOf t ≤ r.target)) then d.eodFound t
    else if st = msRun ∧ (d.tapeEmpty t ∨ r.stale) ∧ r.locating then d.notFound t r.seek
    else if st = msHold ∧ m.travel = .read ∧ m.pauses = [] then d.motStart t (m.wrap % 2 == 1)
    else
      let ended : Bool := r.segs.getLast?.all (d.segEnded t)
      if d.aheadMax t ≤ d.waitingSets t ∧ ended ∧ st = msRun then (d.controlledStop t).modRd t fun r => { r with phase := .ahead } else d
  | .ahead => d
  | .home =>
    match m.travel with
    | .locate _ => if st = msHold then (d.modMot t fun m => { m with travel := .park }).modRd t fun r => { r with phase := .off } else d
    | _ => if still then (d.motStart t (decide (r.point < m.lpos))).modMot t fun m => { m with travel := .locate r.point } else d

/-- READ_AHEAD_RESUME (R253): the count has fallen below AHEAD; reading goes on at the next region. -/
def execReadAheadResume (tp : Nat) (s : State) : Host.Outcome State Fault Refusal :=
  nextDev s fun d =>
    let r := d.rdAt tp
    if r.phase = .ahead ∧ d.motState tp = msHold ∧ d.waitingSets tp < d.aheadMax tp then
      let next := (r.lastNo.getD r.target) + 1
      (d.rdGoto tp (d.estimate_ tp next - d.regionNm tp)).modRd tp fun r => { r with locating := false }
    else d

/-! ### Interrupting writing (R451) -/

/-- RD_WAIT. -/
def Dev.rdWait (d : Dev) (t : Nat) : Nat := d.fld1 Fld.tpArbCfgRdWait t
/-- RD_MAX in ticks. -/
def Dev.rdMax (d : Dev) (t : Nat) : Nat := 1024 * d.fld1 Fld.tpArbCfgRdMax t

/-- READ_INTERRUPT (R451): a read has waited RD_WAIT ticks, and the stream ends at the next region boundary. -/
def execReadInterrupt (tp : Nat) (s : State) : Host.Outcome State Fault Refusal :=
  nextDev s fun d =>
    match (d.rdAt tp).waitSince with
    | some a =>
      if a + d.rdWait tp ≤ d.clk ∧ (d.wrAt tp).mode = .streaming ∧ (d.rdAt tp).took.isNone then
        (d.modWr tp fun w => { w with stopReq := true }).modRd tp fun r => { r with took := some d.clk, held := some (r.held.getD d.clk) }
      else d
    | none => d

/-- READ_INTERRUPT_END (R451): no read waits, or RD_MAX has passed; writing resumes, and reads that still wait start a
new count. -/
def execReadInterruptEnd (tp : Nat) (s : State) : Host.Outcome State Fault Refusal :=
  nextDev s fun d =>
    match (d.rdAt tp).took with
    | some a =>
      let parked : Bool := (d.wrAt tp).mode == .parked
      let none_ : Bool := ((d.wants s.hbm tp).filter fun w => w.1.rank == 4) == []
      if parked ∧ (none_ ∨ a + d.rdMax tp ≤ d.clk) then
        let d := d.modWr tp fun w => { w with stopReq := false }
        let d := if (d.rdAt tp).goal = .none then d.modRd tp fun r => { r with took := none } else d.rdStop tp
        if none_ then d else d.modRd tp fun r => { r with waitSince := some d.clk }
      else d
    | none => d

/-! ### Retry (R251) -/

/-- The profile of slot `i` in a retry: by RDC_RETRY_ORDER as the retry began (R252). -/
def Dev.retrySlot (d : Dev) (r : Rd) (i : Nat) : Nat := bits (r.order.getD (d.fld Fld.rdcRetryOrderSlot)) (3 * i) 3

/-- The first slot from the present one whose profile has not been used. -/
def Dev.nextSlot (d : Dev) (r : Rd) : Option Nat := ((List.range 8).filter fun i => decide (r.slot ≤ i)).find? fun i => ! r.used.contains (d.retrySlot r i)

/-- The data set of a transport that every round has left with undecoded sub data sets. -/
def Dev.stuckSet (d : Dev) (t : Nat) : Option DsRd :=
  (d.rdAt t).sets.find? fun x => ! x.decided && x.sds.all fun y => y.done || d.sdsStuck t x y

/-- BEFORE_SPAN, above 8 acting as 8. -/
def Dev.beforeSpan (d : Dev) : Nat := min 8 (d.fld Fld.decRetryCfgBeforeSpan)

/-- The slot and row of a data set that a transport reads. -/
def Dev.rowOfSet (d : Dev) (t no : Nat) : Option (Nat × Nat × Nat) :=
  (d.servedBy t).bind fun (slot, m) => ((d.spanAt slot).bind fun s => (s.members[m]?).bind fun x => mapRow x.map no).map fun n => (slot, n, m)

/-- Change the last stage of a retry: the data set's bit map of undecodable sub data sets. -/
def sdsMap (l : List Nat) : Nat := (l.map (2 ^ ·)).foldl (· + ·) 0

/-- Reconstruction is wanted for a row and member. -/
def Dev.askRecon (d : Dev) (slot n m : Nat) : Dev :=
  if d.spn.recons.any fun r => r.slot == slot && r.row == n && r.member == m then d
  else { d with spn := { d.spn with recons := d.spn.recons ++ [{ slot := slot, row := n, member := m }] } }

/-- The next profile runs over the data set (R251): from four regions before its region. -/
def Dev.retryPass (d : Dev) (t i : Nat) (x : DsRd) : Dev :=
  let order := (d.rdAt t).order.getD (d.fld Fld.rdcRetryOrderSlot)
  let p := d.retrySlot (d.rdAt t) i
  let d := (d.bump Fld.tpRdCnt1Retry t).postEvent 0x48 blkRdc t [item t, item x.no, item p, item x.undecoded.length]
  let again (y : DsRd) : DsRd := { y with past := false, sds := y.sds.map fun z => { z with rounds := 0, iters := 0, grown := false } }
  let d := d.modRd t fun r => { r with
    profile := p, slot := i + 1, used := p :: r.used, order := some order, lastNo := none, seek := x.no, corrections := 0
    segs := r.segs.filter fun g => g.no != x.no, sets := r.sets.map fun y => if y.no = x.no then again y else y }
  d.rdGoto t (d.estimate_ t x.no - 4 * d.regionNm t)

/-- READ_RETRY (R251): a sub data set is still undecoded after every round: reconstruction where it is due, then the next
profile; with none left it is undecodable. -/
def execReadRetry (tp : Nat) (s : State) : Host.Outcome State Fault Refusal :=
  nextDev s fun d =>
    let r := d.rdAt tp
    match d.stuckSet tp with
    | none => d
    | some x =>
      let failed := r.used.length
      let patrol : Bool := match r.goal with
        | .patrol _ => true
        | _ => false
      match d.rowOfSet tp x.no with
      | some (slot, n, m) =>
        let p := ((d.spanAt slot).map fun s => (s.descOf n).p).getD 0
        if 1 ≤ p ∧ ! r.asked ∧ d.beforeSpan ≤ failed ∧ ! patrol then (d.askRecon slot n m).modRd tp fun r => { r with asked := true }
        else if r.asked ∧ d.reconSrc slot n m = .recon slot n m then d
        else
          match d.nextSlot r with
          | some i => d.retryPass tp i x
          | none =>
            (d.modRd tp fun r => r.modSet x.no fun x => { x with bad := true }).postBoth 0x4A blkDec tp [item tp, item x.no, item (sdsMap x.undecoded)]
      | none =>
        match d.nextSlot r with
        | some i => d.retryPass tp i x
        | none => (d.modRd tp fun r => r.modSet x.no fun x => { x with bad := true }).postBoth 0x4A blkDec tp [item tp, item x.no, item (sdsMap x.undecoded)]

/-! ### Reconstruction (R299, R316) -/

/-- The members of a row whose payload can be used, with it. -/
def Dev.rowHave (d : Dev) (h : Hbm) (slot n x : Nat) (s : Span) : Dev × List (Nat × List Byte) × Nat :=
  (s.others n x).foldl (fun (acc : Dev × List (Nat × List Byte) × Nat) i =>
    let (d, src) := acc.1.rowSrc h slot n i
    match src with
    | .payload _ bs bad ps => if bad = [] ∧ ! ps.any id then (d, acc.2.1 ++ [(i, bs)], acc.2.2) else (d, acc.2.1, acc.2.2 + 1)
    | .tape _ _ => (d, acc.2.1, acc.2.2)
    | .peer _ _ _ => (d, acc.2.1, acc.2.2)
    | _ => (d, acc.2.1, acc.2.2 + 1)) (d, [], 0)

/-- Member `x`'s payload from the k data sets that are had (R299). A parity member's payload is P or Q over the data
members, its first 256 bytes being left to the identity part (R134, R298). -/
def rebuildMember (k p : Nat) (have_ : List (Nat × List Byte)) (x : Nat) : Option (List Byte) :=
  let data := (List.range k).map fun i => (have_.find? fun y => y.1 == i).map (·.2)
  let pb := if 1 ≤ p then (have_.find? fun y => y.1 == k).map (·.2) else none
  let qb := if 2 ≤ p then (have_.find? fun y => y.1 == k + 1).map (·.2) else none
  (regenerate data pb qb).map fun ds =>
    if x < k then ds.getD x [] else if x = k then parityP ds else parityQ ds

/-- The identity part of a regenerated data set (R134): the row's, as another member states it, for this member; it
carries no splice. -/
def identFor (other : List Byte) (x : Nat) (k : Nat) (vol : BitVec 64) (no wrap : Nat) (rebuilt : Bool) : List Byte :=
  let fl := Nat.land (leAt other 4 2) 0x6 + b2n (decide (k ≤ x)) + 16 * b2n rebuilt
  let b := overwrite (overwrite (other.take 252) 4 (leBytes 2 fl)) 8 (leBytes 8 vol.toNat ++ leBytes 6 no ++ leBytes 2 wrap)
  withCrc32c (overwrite (overwrite (overwrite b 26 (leBytes 1 x)) 48 (zeros 6)) 192 (zeros 8))

/-- SPAN_RECONSTRUCT (R300, R316): a row that is wanted is regenerated once k of its data sets are had, within the budget that
parity leaves; more than p members unavailable fail it. -/
def execSpanReconstruct (slot row : Nat) (s : State) : Host.Outcome State Fault Refusal :=
  nextDev s fun d =>
    match d.spanAt slot, d.spn.recons.find? fun r => r.slot == slot && r.row == row && r.out.isNone && ! r.failed with
    | some sp, some r =>
      let x := sp.descOf row
      let (d, have_, gone) := d.rowHave s.hbm slot row r.member sp
      let at_ (f : Recon → Recon) (q : Recon) : Recon := if q.slot = slot ∧ q.row = row ∧ q.member = r.member then f q else q
      let set (d : Dev) (f : Recon → Recon) : Dev := { d with spn := { d.spn with recons := d.spn.recons.map (at_ f) } }
      let tell (d : Dev) (ok : Nat) : Dev :=
        match (d.memberTp sp row r.member), (sp.memsOf row)[r.member]? with
        | some t, some m =>
          match (d.rdAt t).sets.find? fun y => mapRow m.map y.no == some row with
          | some y => if (d.rdAt t).asked then d.postEvent 0x49 blkDec t [item t, item y.no, item x.id, item ok] else d
          | none => d
        | _, _ => d
      if x.p < gone + 1 then tell (set d fun q => { q with failed := true }) 2
      else if have_.length < x.k then d
      else if r.made.isNone then set d fun q => { q with made := some 0 }
      else if r.made ≠ some parityTotal then d
      else
        match rebuildMember x.k x.p (have_.take x.k) r.member with
        | none => tell (set d fun q => { q with failed := true }) 2
        | some bs =>
          let other := ((have_.head?.map fun y => y.2.take 256).getD [])
          let no := ((sp.memsOf row)[r.member]?.bind fun m => mapDs m.map row).getD 0
          let vol := ((sp.memsOf row)[r.member]?.map (·.vol)).getD 0
          let pay := identFor other r.member x.k vol no (leAt other 22 2) false ++ bs.drop 256
          let d := tell (set d fun q => { q with out := some pay }) 1
          match d.memberTp sp row r.member, (sp.memsOf row)[r.member]? with
          | some t, some m => d.modRd t fun q => { q with sets := q.sets.map fun y => if mapRow m.map y.no = some row ∧ ! y.decided then { y with given := some pay } else y }
          | _, _ => d
    | _, _ => d

/-! ### What a payload holds (R131 to R135, R168, R254) -/

/-- A directory entry as it is read. -/
structure DirEnt where
  session : Nat
  tenant : Nat
  ord : Nat
  off : Nat
  len : Nat
  deriving DecidableEq, Repr

/-- The entries of a payload's directory, if the identity part, content part and directory pass R168. -/
def readDir (p : List Byte) : Option (List DirEnt) :=
  let dirLen := leAt p 256 4
  let n := leAt p 260 2
  let used := leAt p 264 4
  let es := (List.range n).map fun i =>
    let e := slice p (512 + 16 * i) 16
    ({ session := leAt e 0 3, tenant := leAt e 4 2, ord := leAt e 6 5, off := leAt e 11 3, len := leAt e 14 2 } : DirEnt)
  let ok := crc32cOk (p.take 256) && leAt p 0 4 == 0x46440001 && crc32cOk (slice p 256 256) && decide (n ≤ 8192) && dirLen == 16 * n
    && decide (used ≤ payloadLen) && (crc32c (slice p 512 dirLen)).toNat == leAt p 268 4
  if ok ∧ es.all (fun e => decide (512 + dirLen ≤ 16 * e.off) && decide (16 * (e.off + e.len) ≤ used) && decide (e.len ≤ 4131)) then some es else none

/-- Bytes `a` to `a + n - 1` touch a sub data set of a list. -/
def touches (bad : List Nat) (a n : Nat) : Bool := bad.any fun s => decide (s * sdsBytes < a + n) && decide (a < (s + 1) * sdsBytes)

/-- A chunk header passes R101 within its extent. -/
def headerOk (h : List Byte) (extent : Nat) : Bool :=
  let o := hdrOrigLen h
  let st := hdrStoredLen h
  let tag := if hdrEnc h then 16 else 0
  leAt h 0 1 < 16 && ! bitOf (leAt h 0 1) 2 && hdrPieces h != 0 && decide (8 ≤ o) && decide (o ≤ 65536)
    && decide (st ≤ lzBound o + tag) && (hdrComp h || st == o + tag) && decide (32 + st ≤ extent)
    && bits (leAt h 21 7) 48 8 == 0

/-- Put a chunk on its way through decryption and decompression (R57, R101, R254). -/
def Dev.extract (d : Dev) (cmd : Nat) (vol : BitVec 64) (no : Nat) (salt : BitVec 32) (p : List Byte) (bad : List Nat) (poison : List Bool) (e : DirEnt) : Dev :=
  let a := 16 * e.off
  let n := 16 * e.len
  let head := slice p a 32
  let body := slice p (a + 32) (hdrStoredLen head)
  let pois := (poison.drop (a / 32)).take (ceilDiv (a + n) 32 - a / 32)
  let err := if touches bad a n then some (stReadError, 0) else if ! headerOk head n then some (stIntegrity, 0) else none
  let enc := hdrEnc head && err.isNone
  let i := leAt head 6 2
  let err := if enc ∧ d.hlt.kek.isNone then some (stKeyDenied, 0) else err
  let c : RdChunk := { cmd := cmd, vol := vol, ds := no, head := head, body := body, salt := salt, poison := pois, skew := a % 32, ord := e.ord
                       plain := if enc then none else some body, err := err, vis := d.nextVis }
  let id := d.dru.nextRd
  let d : Dev := { d with dru := { d.dru with rd := tput d.dru.rd id c, nextRd := id + 1 } }
  let d : Dev := { d with spn := { d.spn with placed := d.spn.placed + 1 } }
  if enc ∧ err.isNone then
    let d := if (d.dru.keys.any fun k => k.index == i) ∨ d.dru.fetching.contains i then d else d.fetchKey i
    { d with dru := { d.dru with cipq := d.dru.cipq ++ [({ rd := true, id := id }, hdrStoredLen head)] } }
  else d

/-! ### Delivery (R53 to R57, R60) -/

/-- FIRST_ORDINAL of a READ-RECORDS. -/
def Cmd.firstOrd (k : Cmd) : Nat := leAt k.cap 24 5
/-- MAX_RECORDS. -/
def Cmd.maxRecs (k : Cmd) : Nat := leAt k.cap 22 2
/-- DATA_LEN. -/
def Cmd.dataLen (k : Cmd) : Nat := leAt k.cap 44 4

/-- End a READ-RECORDS (R60, R69): its results, and its delivery charge. With nothing delivered there is no first ordinal, and
RESULT_A is a free value (notes/assumptions/177.md). -/
def Dev.readEnd (d : Dev) (id status flags nextHigh : Nat) : Dev :=
  match tget d.rte.cmds id with
  | none => d
  | some k =>
    let (a, b, c) := readResults k.rd
    let (d, a) := if k.rd.begun then (d, a) else (d.spend, d.fresh.toNat % 2 ^ 40)
    let d := (d.endRead id).chargeRead k.tenant k.cls k.rd.bytes
    d.answer id status (flags + (if k.rd.torn then flTornSeen else 0)) a b (c + 2 ^ 40 * nextHigh)

/-- End with what has been delivered, or with NOT_FOUND when nothing has (R52). -/
def Dev.readDone (d : Dev) (id : Nat) (k : Cmd) : Dev := if k.rd.begun then d.readEnd id stOk 0 0 else d.readEnd id stNotFound 0 0

/-- Deliver the record that has been gathered (R53, R54, R56, R57, R87); the flag tells whether delivery may go on. A file mark that is also the
MAX_RECORDS-th record meets two of R54's stops at once: the mark is taken as the reason, and MORE stays clear (DESIGN CHOICE,
notes/assumptions/181.md). -/
def Dev.deliver (d : Dev) (id : Nat) (k : Cmd) (g : RecGather) : Dev × Bool :=
  let torn := g.void || ! g.last || g.cut
  let n := if g.void then 0 else g.bytes.length
  let da := BitVec.ofNat 64 (leAt k.cap 32 8 + k.rd.bytes)
  let ea := BitVec.ofNat 64 (leAt k.cap 48 8 + 8 * k.rd.recs)
  let dk := BitVec.ofNat 32 (leAt k.cap 40 4)
  let ek := BitVec.ofNat 32 (leAt k.cap 56 4)
  if g.poison then
    let d := if isRing k.src then d.sendData k.src dk da (g.bytes.take n) true (some id) else d
    (d.readEnd id stPoison 0 0, false)
  else
    let d := (d.sendData k.src dk da (g.bytes.take n) false (some id)).sendData k.src ek ea (readDescBytes n g.mark torn g.total) false (some id)
    let d := d.modCmd id fun k => { k with rd := { k.rd with
      recs := k.rd.recs + 1, bytes := k.rd.bytes + n, first := if k.rd.begun then k.rd.first else g.ord, next := g.ord + 1
      torn := k.rd.torn || torn, begun := true, cur := none } }
    if g.mark then (d.readEnd id stOk 0 0, false)
    else if k.maxRecs ≤ k.rd.recs + 1 then (d.readEnd id stOk flMore 0, false)
    else (d, true)

/-- The record in hand can get no further piece: it is delivered as it stands (R56). -/
def Dev.flushRecord (d : Dev) (id : Nat) : Dev × Bool :=
  match tget d.rte.cmds id with
  | none => (d, false)
  | some k =>
    match k.rd.cur with
    | none => (d, ! k.answered)
    | some g => d.deliver id k g

/-- Take a piece of a record (R52 to R56). -/
def Dev.takePiece (d : Dev) (id ord : Nat) (p : PieceIn) (poison : Bool) : Dev × Bool :=
  match tget d.rte.cmds id with
  | none => (d, false)
  | some k =>
    if k.answered then (d, false)
    else
      match k.rd.cur with
      | some g =>
        if ord = g.ord then
          let cut := g.cut || p.no != g.next
          let g' := { g with cut := cut, next := p.no + 1, last := p.last, poison := g.poison || poison, bytes := if cut then g.bytes else g.bytes ++ p.data }
          if p.last then d.deliver id k g' else (d.modCmd id fun k => { k with rd := { k.rd with cur := some g' } }, true)
        else (d, true)
      | none =>
        if ord < k.rd.next ∨ (! p.first ∧ ord = k.rd.next) then (d, true)
        else if k.rd.next < ord then (d.readDone id k, false)
        else
          let g : RecGather := { ord := ord, total := p.total, mark := p.mark, void := p.void, next := p.no + 1, cut := decide (p.no ≠ 0), last := p.last
                                 poison := poison, bytes := p.data }
          if ! p.void ∧ k.dataLen < k.rd.bytes + p.total then
            if k.rd.begun then (d.readEnd id stOk flMore 0, false) else (d.readEnd id stBufferTooSmall 0 p.total, false)
          else if p.last then d.deliver id k g
          else (d.modCmd id fun k => { k with rd := { k.rd with cur := some g } }, true)

/-- Poison in the bytes `a` to `a + n - 1` of a chunk's original stream (R57): in their own words where the chunk stores them as they are, in
any word of the chunk where they come out of decryption or decompression. -/
def RdChunk.poisoned (c : RdChunk) (a n : Nat) : Bool :=
  if hdrComp c.head || hdrEnc c.head then c.poison.any id
  else
    let lo := c.skew + 32 + a
    ((c.poison.take (ceilDiv (lo + n) 32)).drop (lo / 32)).any id

/-- Pieces with the poison of each, from its place in the stream (R92). -/
def RdChunk.marked (c : RdChunk) : Nat → List (Nat × PieceIn) → List (Nat × PieceIn × Bool)
  | _, [] => []
  | at_, (ord, p) :: ps => (ord, p, c.poisoned at_ (8 + p.len)) :: RdChunk.marked c (at_ + 8 + p.len) ps

/-- Every piece of a chunk: a piece of a later record first ends the one in hand. -/
def Dev.takePieces (d : Dev) (id : Nat) : List (Nat × PieceIn × Bool) → Dev × Bool
  | [] => (d, true)
  | (ord, p, poison) :: ps =>
    let ends : Bool := match (tget d.rte.cmds id).bind (·.rd.cur) with
      | some g => decide (g.ord < ord)
      | none => false
    let (d, ok) := if ends then d.flushRecord id else (d, true)
    if ! ok then (d, false)
    else
      let (d, ok) := d.takePiece id ord p poison
      if ok then Dev.takePieces d id ps else (d, false)

/-- One step of a READ-RECORDS: the next chunk that has come out of the drupelets, or the next data set's directory; the
flag tells whether another step may follow. A chunk whose first ordinal lies above the record in hand ends that record first (R56), and one
above the next ordinal shows that ordinal absent, whatever became of the chunk (R54). Only chunks whose header names the connection's tenant
are considered (R52), and a tick extracts no more than its budget allows (R15). -/
def Dev.readStep (d : Dev) (h : Hbm) (id : Nat) : Dev × Bool :=
  match tget d.rte.cmds id with
  | none => (d, false)
  | some k =>
    if ! k.reading then (d, false)
    else
      match d.dru.rd.find? fun c => c.2.cmd == id with
      | some (cid, c) =>
        let take (d : Dev) : Dev := { d with dru := { d.dru with rd := tdel d.dru.rd cid } }
        if c.err.isNone ∧ c.out.isNone then (d, false)
        else if k.rd.cur.any fun g => decide (g.ord < c.ord) then d.flushRecord id
        else if k.rd.cur.isNone ∧ k.rd.next < c.ord then ((take d).readDone id k, false)
        else
          match c.err, c.out.bind fun out => parsePieces (out.length + 1) out with
          | some (st, code), _ => ((take d).readEnd id st 0 (if st = stDecompressError then code else 0), false)
          | none, some ps => (take d).takePieces id (c.marked 0 (pieceOrdinals (leAt c.head 16 5) ps))
          | none, none => ((take d).readEnd id stIntegrity 0 0, false)
      | none =>
        match d.volAt k.readVol with
        | none => (d.readDone id k, false)
        | some v =>
          let no := k.rd.ds
          let first := leAt k.cap 16 6
          let skip (d : Dev) : Dev × Bool := (d.modCmd id fun k => { k with rd := { k.rd with ds := no + 1, dirAt := 0 } }, true)
          let stop (d : Dev) : Dev × Bool :=
            let (d, ok) := d.flushRecord id
            match ok, tget d.rte.cmds id with
            | true, some k => (d.readDone id k, false)
            | _, _ => (d, false)
          if ! k.rd.begun ∧ k.rd.cur.isNone ∧ first + 8 < no then (d.readEnd id stNotFound 0 0, false)
          else
            let (d, src) := d.dsSrc h v no
            match src with
            | .absent => stop d
            | .void => skip d
            | .lost => (d.readEnd id stReadError 0 0, false)
            | .tape _ _ => (d, false)
            | .peer _ _ _ => (d, false)
            | .recon slot n m => (d.askRecon slot n m, false)
            | .payload buffer p bad poison =>
              let tp := (((d.spanAt v.slot).bind fun s => s.desc.members[v.member]?).bind d.entryLocal).getD 0
              let tape := ! buffer && v.now
              if tape ∧ ! d.confirmed v.slot tp no then (if (d.rdAt tp).eodDone then skip d else (d, false))
              else if touches bad 0 512 ∨ touches bad 512 (leAt p 256 4) then (d.readEnd id stReadError 0 0, false)
              else
                match readDir p with
                | none => (d.readEnd id stIntegrity 0 0, false)
                | some es =>
                  let ses := leAt k.cap 60 3
                  let mine := es.zipIdx.filter fun (e, _) => e.session == ses && e.tenant == k.tenant && (touches bad (16 * e.off) 32 || leAt p (16 * e.off + 4) 2 == k.tenant)
                  let from_ : Nat := mine.foldl (fun (o : Nat) (e : DirEnt × Nat) => if e.1.ord ≤ k.rd.next then max o e.1.ord else o) 0
                  let salt := ((d.spanAt v.slot).map (·.desc.salt)).getD 0
                  let due := mine.filter fun (e, i) => decide (from_ ≤ e.ord) && decide (k.rd.dirAt ≤ i)
                  let now := due.take (placeMax - d.spn.placed)
                  let d := now.foldl (fun d e => d.extract id k.readVol no salt p bad poison e.1) d
                  if now.length = due.length then skip d
                  else (d.modCmd id fun k => { k with rd := { k.rd with dirAt := ((due.drop now.length).head?.map (·.2)).getD 0 } }, false)

/-- Steps of a READ-RECORDS as far as they go. -/
def Dev.readGo (h : Hbm) (id : Nat) : Nat → Dev → Dev
  | 0, d => d
  | n + 1, d =>
    let (d, more) := d.readStep h id
    if more then Dev.readGo h id n d else d

/-- READ_DELIVERY (R52 to R57): what has been decoded is delivered, and the response is sent when delivery stops. -/
def execReadDelivery (src : Src) (tag : BitVec 16) (s : State) : Host.Outcome State Fault Refusal :=
  nextDev s fun d =>
    match d.cmdByTag (srcKey src) tag with
    | some (id, k) => if k.op = opRead then Dev.readGo s.hbm id 65536 d else d
    | none => d

end Sys2Proof.Machine
end

