-- ==== Sys2Proof/Machine/Admission.lean ====
section
/-! DEFINITION. What admitted commands do (R38, R39, R48 to R52, R58, R60, R71): sessions open and close, SYNC, queries,
and the start of reads. -/

namespace Sys2Proof.Machine

/-! ### Opening a session (R33, R38) -/

/-- The tenant may use a class (R38, R386): bit `cls` of its CLASSES. -/
def Dev.mayClass (d : Dev) (tenant cls : Nat) : Bool := bitOf (d.tenantAt tenant).classes cls

/-- A context slot that no open session uses (R331): the choice is a free value. -/
def Dev.newSlot (d : Dev) : Nat :=
  let used := d.ses.sessions.map (·.2.slot)
  let c := d.fresh.toNat % sesMax
  ((List.range (used.length + 1)).map fun i => (c + i) % sesMax).find? (fun x => ! used.contains x) |>.getD c

/-- Conditions 4 to 6 of R38, and the session (R33). -/
def openSession (hd : Hbm × Dev) (id : Nat) (k : Cmd) : Hbm × Dev :=
  let (h, d) := hd
  let c := k.cap
  let rd := leAt c 8 1 == 1
  let opts := leAt c 14 1
  match d.slotOf (leAt c 12 2) with
  | none => (h, d.answer id stSpanUnknown 0 0 0 0)
  | some slot =>
    if ! rd ∧ ((d.spanAt slot).map fun s => s.readOnly || s.epoch.exhausted).getD false then (h, d.answer id stSpanExhausted 0 0 0 0)
    else if sesMax ≤ d.ses.sessions.length then (h, d.answer id stSessionLimit 0 0 0 0)
    else
      let m := d.newSesNum
      let n := sesNo k.src m
      let s : Session := { src := k.src, tenant := k.tenant, cls := leAt c 9 1, read := rd, comp := bitOf opts 0, enc := bitOf opts 1
                           key := leAt c 10 2, span := leAt c 12 2, slot := d.newSlot }
      let d : Dev := { d.spend with ses := { d.ses with sessions := tput d.ses.sessions n s, lastNum := m } }
      (h, (d.cacheUse n).answer id stOk 0 m 0 0)

/-- An OPEN-SESSION acts (R38): the conditions in order; one with ENCRYPT first has its key table entry fetched (R122,
R123). -/
def actOpen (hd : Hbm × Dev) (id : Nat) (k : Cmd) : Hbm × Dev :=
  let (h, d) := hd
  let c := k.cap
  let enc := bitOf (leAt c 14 1) 1
  let i := leAt c 10 2
  if ! d.mayClass k.tenant (leAt c 9 1) then (h, d.answer id stClassDenied 0 0 0 0)
  else if ! enc then (if i ≠ 0 then (h, d.answer id stKeyDenied 0 0 0 0) else openSession hd id k)
  else if d.hlt.kek.isNone then (h, d.answer id stKeyDenied 0 0 0 0)
  else if k.due.isNone then
    (h, (d.fetchKey i).modCmd id fun k => { k with due := some d.clk })
  else if d.dru.fetching.contains i then hd
  else if (d.keyOf i k.tenant).isNone then (h, d.answer id stKeyDenied 0 0 0 0)
  else openSession hd id k

/-! ### Position entries (R48 to R50) -/

/-- POS_COUNT. -/
def Cmd.posCount (k : Cmd) : Nat := leAt k.cap 20 2

/-- The entries that a SYNC of a session has to report: those held, then those of records not yet reported. -/
def Dev.entriesDue (d : Dev) (n : Nat) (s : Session) (bound : Nat) : List PosEntry :=
  s.held ++ groupPlaces (d.recordPlaces n s.reported bound)

/-! ### Closing a session (R39, R50) -/

/-- Earlier commands of a session have not all completed. -/
def Dev.earlierOpen (d : Dev) (id n : Nat) : Bool := d.rte.cmds.any fun c => decide (c.1 < id) && c.2.session == n && ! c.2.answered

/-- A CLOSE-SESSION acts (R39, R50). -/
def Dev.actClose (d : Dev) (id : Nat) (k : Cmd) : Dev :=
  let n := k.session
  if d.earlierOpen id n then d
  else
    match tget d.ses.sessions n with
    | none => d.answer id stOk 0 0 0 0
    | some s =>
      let now := if s.read then [] else s.held.take k.posCount
      let rest := s.held.drop now.length
      let d := (d.writeEntries k.src k.cap now).postPositions n rest
      let d := d.modSes n fun s => { s with held := [], dead := true }
      let d := match s.open_ with
        | some c => d.modChunk c fun c => { c with dueAt := some (c.dueAt.getD d.clk) }
        | none => d
      d.answer id stOk 0 s.next (2 ^ 48 * now.length) (2 ^ 40 * rest.length)

/-! ### Queries, hints and reads (R52, R58, R60) -/

/-- A QUERY acts (R60). -/
def Dev.actQuery (d : Dev) (id : Nat) (k : Cmd) : Dev :=
  if leAt k.cap 8 1 = 0 then
    let n := k.session
    let cmds := (d.rte.cmds.filter fun c => c.2.session == n && ! c.2.answered).length
    d.answer id stOk 0 (((tget d.ses.sessions n).map (·.next)).getD 0) (d.onTapeBelow n) cmds
  else
    let grants := (d.grantsLive.filter fun w => w.1 == k.src && ! w.2.closed && w.2.withdrawn.isNone).length
    d.answer id stOk 0 (d.maxCmds - d.slotsUsed k.src) grants 0

/-- The transport that holds a volume. -/
def Dev.volTp (d : Dev) (vol : BitVec 64) : Option Nat :=
  (d.volAt vol).bind fun v => if v.now then ((d.spanAt v.slot).bind fun s => s.desc.members[v.member]?).bind d.entryLocal else none

/-- A LOCATE-HINT acts (R58): an idle transport sets out for the data set. -/
def Dev.actHint (d : Dev) (id : Nat) (k : Cmd) : Dev :=
  let vol := BitVec.ofNat 64 (leAt k.cap 8 8)
  if (d.volAt vol).isNone then d.answer id stNotMounted 0 0 0 0
  else
    let d : Dev := match d.volTp vol with
      | some t =>
        if ((d.wrAt t).mode = .idle ∨ (d.wrAt t).mode = .parked) ∧ ((d.rdAt t).goal = .none ∨ (d.rdAt t).goal = .hint) then d.modRd t fun r => { r with hint := some (leAt k.cap 16 6) } else d
      | none => d
    d.answer id stOk 0 0 0 0

/-- A READ-RECORDS acts (R52): its volume has to be mounted. -/
def Dev.actRead (d : Dev) (id : Nat) (k : Cmd) : Dev :=
  if (d.volAt k.readVol).isNone then d.answer id stNotMounted 0 0 0 0
  else d.modCmd id fun k => { k with rd := { k.rd with ds := leAt k.cap 16 6, next := k.firstOrd } }

/-! ### Admission (R71) -/

/-- What an admitted command does at once, or as soon as it can. -/
def actAdmitted (hd : Hbm × Dev) (id : Nat) (k : Cmd) : Hbm × Dev :=
  let (h, d) := hd
  if k.op = opOpen then actOpen hd id k
  else if k.op = opClose then (h, d.actClose id k)
  else if k.op = opQuery then (h, d.actQuery id k)
  else if k.op = opHint then (h, d.actHint id k)
  else hd

/-- Commands that wait for a key or for earlier commands go on (R39, R123). -/
def actWaiting (hd : Hbm × Dev) : Hbm × Dev :=
  (hd.2.rte.cmds.filter fun c => c.2.adm.isSome && ! c.2.answered && (c.2.op == opOpen || c.2.op == opClose)).foldl (fun hd c =>
    match tget hd.2.rte.cmds c.1 with
    | some k => if k.answered then hd else actAdmitted hd c.1 k
    | none => hd) hd

/-- The span set of a session takes no more rows (R313, R314). -/
def Dev.takesNoRows (d : Dev) (n : Nat) : Bool :=
  (((tget d.ses.sessions n).bind fun s => d.slotOf s.span).bind d.spanAt).any fun s => s.readOnly || s.full

/-- COMMAND_ADMISSION (R71): the command that a round has taken is admitted, and acts; an admitted one that still waits
goes on if it can. A write command of a span set that takes no more rows receives SPAN_EXHAUSTED (R313, R314). -/
def execCommandAdmission (src : Src) (tag : BitVec 16) (s : State) : Host.Outcome State Fault Refusal :=
  nextHd s fun hd =>
    let (h, d) := hd
    match d.cmdByTag (srcKey src) tag with
    | none => hd
    | some (id, k) =>
      if k.adm.isSome then actAdmitted hd id k
      else
        match d.sch.won.find? fun w => w.cmd == id && decide (w.vis ≤ d.clk) with
        | none => hd
        | some w =>
          let d : Dev := { d with sch := { d.sch with won := d.sch.won.erase w } }
          if (k.op = opWrite ∨ k.op = opMark) ∧ d.takesNoRows k.session then (h, d.failAnswer id stSpanExhausted) else
          let d := d.modCmd id fun k => { k with adm := some d.clk }
          let d := d.mirrorControl (.cmd id { k with adm := some d.clk })
          if k.op = opRead then (h, d.actRead id k) else actAdmitted (h, d) id k

/-! ### SYNC (R48, R49, R51) -/

/-- The complete rows that hold records of a session below a bound, and satisfy `p`: span slot and row. -/
def Dev.syncRows (d : Dev) (n bound : Nat) (p : Row → Bool) : List (Nat × Nat) :=
  (((d.sesChunks n).filter fun c => c.2.st == .onTape && c.2.pieces.any fun x => decide (x.ord < bound)).map fun c => (c.2.span, c.2.row)).dedup.filter
    fun x => (((d.spanAt x.1).bind fun s => tget s.rows x.2).map p).getD false

/-- The rows that hold records below a bound and that no JOURNAL record in the cellar log shows complete (R48). -/
def Dev.unshownRows (d : Dev) (n bound : Nat) : List (Nat × Nat) := d.syncRows n bound fun r => ! r.shown

/-- Rows complete before a SYNC waited for them, and not shown yet, get a KIND 1 JOURNAL record ahead of the feed (R48, R305). -/
def Dev.syncJournal (d : Dev) : Dev :=
  let syncs := d.rte.cmds.filter fun c => c.2.op == opSync && c.2.adm.isSome && ! c.2.answered
  ((syncs.flatMap fun c => (d.syncRows c.2.session c.2.bound fun r => ! r.shown && ! r.told).map (·.1)).dedup).foldl (fun d slot => d.journal slot 1 true) d

/-- The status of a SYNC (R51): that of a record not yet reported that failed after it had been acknowledged. -/
def Dev.syncStatus (d : Dev) (n lo hi : Nat) : Nat :=
  (((d.sesChunks n).find? fun c => c.2.st == .lost && c.2.pieces.any fun p => decide (lo ≤ p.ord) && decide (p.ord < hi)).map fun c => c.2.why).getD stOk

/-- A SYNC completes: its entries are written, and the rest is held. ON_TAPE is set whatever the status: R51 has the SYNC complete,
and does not say that BUFFER_POISON or SPAN_EXHAUSTED takes the flag away (DESIGN CHOICE, notes/assumptions/166.md). -/
def Dev.syncDone (d : Dev) (id : Nat) (k : Cmd) (s : Session) : Dev :=
  let n := k.session
  let st := d.syncStatus n s.reported k.bound
  let es := d.entriesDue n s k.bound
  let now := es.take k.posCount
  let rest := es.drop k.posCount
  let last := (d.recordPlaces n 0 k.bound).getLast?
  let d := (d.writeEntries k.src k.cap now).modSes n fun s => { s with held := rest, reported := max s.reported k.bound }
  let d := d.spend (2 * d.ses.nextChunk)
  d.answer id st (flOnTape + (if rest = [] then 0 else flPosPending)) ((last.map (·.vol.toNat)).getD 0)
    ((last.map (·.ds)).getD 0 + 2 ^ 48 * now.length) (d.settledBelow n + 2 ^ 40 * rest.length)

/-- ON_TAPE_RESPONSE (R48): every record that a SYNC covers is settled, and the JOURNAL record that shows its rows complete has been
written. -/
def execOnTapeResponse (src : Src) (tag : BitVec 16) (s : State) : Host.Outcome State Fault Refusal :=
  nextDev s fun d =>
    match d.cmdByTag (srcKey src) tag with
    | none => d
    | some (id, k) =>
      match tget d.ses.sessions k.session with
      | none => d
      | some ses => if k.op = opSync ∧ k.adm.isSome ∧ k.bound ≤ d.settledBelow k.session ∧ d.unshownRows k.session k.bound = [] then d.syncDone id k ses else d

end Sys2Proof.Machine
end

