-- ==== Sys2Proof/Machine/Admin.lean ====
section
/-! DEFINITION. Admin commands (R385 to R387): how a descriptor is taken, connections, ring bindings, tenants, FILL,
CELLAR-READ and firmware segments, and what the span and mount commands share. -/

namespace Sys2Proof.Machine

/-! ### Taking a descriptor (R385, R394) -/

/-- The control cores run (R389). -/
def Dev.coresRun (d : Dev) : Bool := d.fld Fld.ctlBootStatState == 2

/-- A tag is in use on the admin ring. -/
def Dev.adminTag (d : Dev) (tag : BitVec 16) : Bool :=
  d.ctl.admin.any (fun c => c.tag == tag) || d.ctl.held.any fun i => match i with
    | .createConn x | .destroyConn x | .bindRing x | .setTenant x | .fill x | .spanLoad x _ | .spanMap x _ | .rebuild x
    | .shapeChangeStart x _ | .shapeChangeCancel x | .spanListLoss x | .spanListSuspect x | .spanListRowMap x | .spanUnload x
    | .initCartridge x | .mount x | .dismount x | .fwStage x _ | .fwActivate x | .cellarRead x => capTag x == tag
    | _ => false

/-- The descriptor is one of the row's: its opcode is `op`, or for 0xFF one that R385 does not list. -/
def adminNamed (op : Nat) (x : List Byte) : Bool := if op = 0xFF then adminFields (capOpcode x) == [] else capOpcode x == op

/-- The control cores take an admin descriptor (R384, R385): its tag and reserved bytes are checked, and during a
firmware activation it is held (R90). -/
def adminTake (hd : Hbm × Dev) (i : Instr) (op : Nat) (x : List Byte) (act : Hbm × Dev → Hbm × Dev) : Hbm × Dev :=
  let d := hd.2
  if ! d.coresRun ∨ ! d.ringMay 0 ∨ ! adminNamed op x then hd
  else
    let d := d.ringNext 0
    let tag := capTag x
    if d.adminTag tag then (hd.1, d.adminDone tag stTagInUse 0)
    else if adminFields (capOpcode x) = [] then (hd.1, d.adminDone tag stOpcodeInvalid 0)
    else if x.length ≠ 64 ∨ ! adminReservedClear op x then (hd.1, d.adminDone tag stFieldInvalid 0)
    else if d.ctl.activating.isSome then (hd.1, { d with ctl := { d.ctl with held := d.ctl.held ++ [i] } })
    else act (hd.1, d)

/-- An admin command that does not complete at once. -/
def Dev.adminBegin (d : Dev) (c : AdminCmd) : Dev := { d with ctl := { d.ctl with admin := d.ctl.admin ++ [{ c with since := d.clk, quiet := d.ctl.mute }] } }

/-- Change the admin command of a tag. -/
def Dev.adminMod (d : Dev) (tag : BitVec 16) (f : AdminCmd → AdminCmd) : Dev :=
  { d with ctl := { d.ctl with admin := d.ctl.admin.map fun c => if c.tag == tag then f c else c } }

/-! ### Connections, bindings, tenants (R385, R386) -/

/-- CONN and TENANT fields end here (R385). -/
def connMax : Nat := 16384

/-- CREATE-CONN acts: the queue pair is ready at once, or refused; its port has to be present (R485). -/
def Dev.doCreateConn (d : Dev) (x : List Byte) : Dev :=
  let tag := capTag x
  let c := leAt x 8 2
  let mtu := leAt x 31 1
  if connMax ≤ c ∨ connMax ≤ leAt x 10 2 ∨ 16 ≤ leAt x 12 1 ∨ 2 ≤ leAt x 13 1 ∨ mtu = 0 ∨ 6 ≤ mtu ∨ 64 ≤ leAt x 54 1 then d.adminDone tag stFieldInvalid 0
  else if ! d.locked ∨ (tget d.rte.conns c).isSome ∨ ! d.flag Fld.ethPortStatPresent (leAt x 12 1) then d.adminDone tag stState 0
  else
    let k : Conn := { tenant := leAt x 10 2, port := leAt x 12 1, v6 := bitOf (leAt x 13 1) 0, localQpn := leAt x 16 3, remoteQpn := leAt x 20 3
                      rqPsn := BitVec.ofNat 24 (leAt x 24 3), sqPsn := BitVec.ofNat 24 (leAt x 28 3), mtu := mtu
                      remoteIp := BitVec.ofNat 128 (leAt x 32 16), remoteMac := BitVec.ofNat 48 (leAt x 48 6)
                      retry := leAt x 54 1, timeout := leAt x 55 1, rate := d.lineRate (leAt x 12 1) }
    ({ d with rte := { d.rte with conns := tput d.rte.conns c k } }).adminDone tag stOk c

/-- DESTROY-CONN acts: R34 acts as for an error, without CONN_ERROR, and the connection is gone. -/
def Dev.doDestroyConn (d : Dev) (x : List Byte) : Dev :=
  let tag := capTag x
  let c := leAt x 8 2
  if connMax ≤ c then d.adminDone tag stFieldInvalid 0
  else if ! d.locked ∨ (tget d.rte.conns c).isNone then d.adminDone tag stState 0
  else
    let d := ((d.orphanAll c).dropSessionsOf c).freeDraining c
    ({ d with rte := { d.rte with conns := tdel d.rte.conns c, dueq := d.rte.dueq.filter (·.src != c) } }).adminDone tag stOk 0

/-- BIND-RING acts: the pair has to be a record pair. -/
def Dev.doBindRing (d : Dev) (x : List Byte) : Dev :=
  let tag := capTag x
  let r := leAt x 8 1
  if r = 0 ∨ d.ringKind r ≠ 1 ∨ connMax ≤ leAt x 10 2 then d.adminDone tag stFieldInvalid 0
  else if ! d.locked then d.adminDone tag stState 0
  else (d.modRing r fun g => { g with tenant := some (leAt x 10 2) }).adminDone tag stOk 0

/-- SET-TENANT acts (R386): the entry is replaced whole, at the next boundary (R385). -/
def Dev.doSetTenant (d : Dev) (x : List Byte) : Dev :=
  let tag := capTag x
  if connMax ≤ leAt x 8 2 ∨ leAt x 10 1 = 0 ∨ 32 ≤ leAt x 11 1 then d.adminDone tag stFieldInvalid 0
  else (d.modTenant (leAt x 8 2) fun t => { t with next := some (leAt x 10 1, leAt x 11 1) }).adminDone tag stOk 0

/-- CREATE_CONN (R385). -/
def execCreateConn (desc : List Byte) (s : State) : Host.Outcome State Fault Refusal :=
  nextHd s fun hd => adminTake hd (.createConn desc) 0x01 desc fun hd => (hd.1, hd.2.doCreateConn desc)

/-- DESTROY_CONN (R385). -/
def execDestroyConn (desc : List Byte) (s : State) : Host.Outcome State Fault Refusal :=
  nextHd s fun hd => adminTake hd (.destroyConn desc) 0x02 desc fun hd => (hd.1, hd.2.doDestroyConn desc)

/-- BIND_RING (R385). -/
def execBindRing (desc : List Byte) (s : State) : Host.Outcome State Fault Refusal :=
  nextHd s fun hd => adminTake hd (.bindRing desc) 0x03 desc fun hd => (hd.1, hd.2.doBindRing desc)

/-- SET_TENANT (R385). -/
def execSetTenant (desc : List Byte) (s : State) : Host.Outcome State Fault Refusal :=
  nextHd s fun hd => adminTake hd (.setTenant desc) 0x04 desc fun hd => (hd.1, hd.2.doSetTenant desc)

/-! ### FILL (R337) -/

/-- FILL acts: pages within buffer memory; it goes on at the boundaries. -/
def Dev.doFill (d : Dev) (x : List Byte) : Dev :=
  let tag := capTag x
  let addr := leAt x 8 5
  let n := leAt x 16 4
  if 2 ^ 36 ≤ addr ∨ addr % 4096 ≠ 0 ∨ n = 0 ∨ hbmPages < addr / 4096 + n ∨ 2 ≤ leAt x 24 1 then d.adminDone tag stFieldInvalid 0
  else
    let j : FillJob := { first := addr / 4096, pages := n, done := 0, pattern := BitVec.ofNat 32 (leAt x 20 4), poison := bitOf (leAt x 24 1) 0, tag := tag }
    ({ d with mem := { d.mem with fills := d.mem.fills ++ [j] } }).adminBegin { tag := tag, op := 0x10, desc := x }

/-- FILL (R337). -/
def execFill (desc : List Byte) (s : State) : Host.Outcome State Fault Refusal :=
  nextHd s fun hd => adminTake hd (.fill desc) 0x10 desc fun hd => (hd.1, hd.2.doFill desc)

/-- Pages that FILL writes in one tick (R337, R349): RATE MiB, 1 to 64. -/
def Dev.fillRate (d : Dev) : Nat := 256 * min 64 (d.fld1 Fld.memFillCfgRate)

/-- FILL_PROGRESS of one tick (R337): the oldest job first. An activation of firmware holds it (R394). -/
def fillTick (hd : Hbm × Dev) : Hbm × Dev :=
  if hd.2.ctl.activating.isSome then hd
  else match hd.2.mem.fills.find? fun j => decide (j.done < j.pages) with
  | none => hd
  | some j =>
    let n := min hd.2.fillRate (j.pages - j.done)
    let a := j.first + j.done
    let h := hd.1.fill a (a + n - 1) j.pattern j.poison
    let d := hd.2
    let j' := { j with done := j.done + n }
    (h, { d with mem := { d.mem with
      fills := d.mem.fills.map fun x => if x.tag == j.tag then j' else x
      mash := d.mem.mash.filter fun e => ! (decide (a ≤ e.word / 128) && decide (e.word / 128 < a + n)) } })

/-- FILL_COMPLETE (R337): every page of the oldest range has been filled; INFO is their number. During a firmware activation the
command is held (R90, R394). -/
def execFillComplete (s : State) : Host.Outcome State Fault Refusal :=
  nextDev s fun d =>
    match d.mem.fills.find? fun j => j.done == j.pages with
    | some j => if d.ctl.activating.isSome then d else ({ d with mem := { d.mem with fills := d.mem.fills.filter (·.tag != j.tag) } } : Dev).adminEnd j.tag stOk j.pages
    | none => d

/-! ### CELLAR-READ (R385, R431) -/

/-- A record of the log region, all zero where none has been written. -/
def Dev.cellarRec (d : Dev) (i : Nat) : List Byte := tgetD d.hlt.mram (i % 65536) (zeros 256)

/-- CELLAR-READ acts: COUNT records from FIRST, 0 meaning 65,536, with wrap. -/
def Dev.doCellarRead (d : Dev) (x : List Byte) : Dev :=
  let n := if leAt x 10 2 = 0 then 65536 else leAt x 10 2
  let bs := (List.range n).flatMap fun i => d.cellarRec (leAt x 8 2 + i)
  (d.emit (.hostWrite (BitVec.ofNat 64 (leAt x 16 8)) bs false)).adminDone (capTag x) stOk n

/-- CELLAR_READ (R385). -/
def execCellarRead (desc : List Byte) (s : State) : Host.Outcome State Fault Refusal :=
  nextHd s fun hd => adminTake hd (.cellarRead desc) 0x50 desc fun hd => (hd.1, hd.2.doCellarRead desc)

/-! ### Transports under admin commands (R188, R193, R390) -/

/-- Read both copies of the volume record (R194). -/
def Dev.readVols (d : Dev) (t : Nat) : Dev :=
  ((d.modTp t fun p => { p with vol := [[], []], reqFail := false }).request t (.readVol 0) 1 0x400 128 []).request t (.readVol 1) 1 0x480 128 []

/-- Both copies have been read. -/
def Dev.volsRead (d : Dev) (t : Nat) : Bool := (d.tpAt t).vol.all fun v => v.length == 128

/-- Nothing more is to be written to a transport's cartridge memory. -/
def Dev.volsQuiet (d : Dev) (t : Nat) : Bool :=
  let p := d.tpAt t
  p.req.isNone && p.waiting == [] && p.upd == []

/-- The port is up, its identity accepted, and a cartridge is in (R390). -/
def Dev.tpUsable (d : Dev) (t : Nat) : Bool :=
  decide (t < 8) && d.flag Fld.tpLinkStatUp t && d.flag Fld.tpLinkStatIdOk t && d.flag Fld.tpLinkStatCart t

/-- The control cores claim a transport that the device does not own (R390): one above the epoch that it reports. -/
def Dev.claim (d : Dev) (t : Nat) : Dev :=
  if d.flag Fld.tpLinkStatOwner t then d
  else (d.setFld Fld.tpTokenEpochEpoch t (((d.tpAt t).curEpoch.toNat + 1) % 2 ^ 32)).setFlag Fld.tpTokenClaim t true

/-- Channels that a transport's retirement records in the cellar log name (R218, R225). -/
def Dev.retiredLog (d : Dev) (t : Nat) : List Nat :=
  d.hlt.mram.filterMap fun (_, b) =>
    if leAt b 1 1 = blkEnc ∧ leAt b 3 1 = 0x41 ∧ leAt b 32 8 = t then some (leAt b 40 8 % 64) else none

/-- TPn_RETIRE as a mount loads it (R218): the identity's channels and those of the cellar log. -/
def Dev.loadRetire (d : Dev) (t : Nat) : Dev :=
  let log := d.retiredLog t
  let chs := ((List.range 64).filter fun c => bitOf (d.idn t 128 8) c || log.contains c).take 8
  let d := d.setFld Fld.tpRetireLoMap t ((chs.filter (· < 32)).map (2 ^ ·)).sum
  let d := d.setFld Fld.tpRetireHiMap t ((chs.filter (32 ≤ ·)).map fun c => 2 ^ (c - 32)).sum
  d.setFld Fld.tpWrStatRetired t chs.length

/-- The control cores make a transport ready at a mount (R218, R229, R269, R272, R279): retired channels, radii, LPOS, and the
search for the actuator's bases. -/
def Dev.tapeStart (d : Dev) (t : Nat) : Dev :=
  let d := d.loadRetire t
  let d := d.modMot t fun m => { m with
    lpos := 0, lposIn := 0, origin := false, wrap := 0
    lat := { m.lat with base := [], acc := 0, sat := false, cal := some (0, -32768, 32767), act := calProbe (-32768) 32767 }
    reels := m.reels.zipIdx.map fun (r, i) => { r with radius := if i = 0 then (d.motor t 0).full else (d.motor t 1).hub } }
  (d.modRd t fun _ => {}).motStart t false

/-- A volume record with GEN one above those that stand, MEMBER, shape and epoch as given. -/
def volRecordNext (old : Option (List Byte)) (vol : BitVec 64) (salt : BitVec 32) (wepoch eod span member k p ep : Nat) : List Byte :=
  volBytes (((old.map fun v => leAt v 4 4).getD 0) + 1) vol salt wepoch eod span member k p ep

/-- Write a record to the copy that is not in force (R194). -/
def Dev.putVol (d : Dev) (t : Nat) (w : List Byte) : Dev :=
  let target := 1 - (volIndex (d.tpAt t).vol).getD 1
  d.request t (.writeVol target w) 2 (0x400 + 0x80 * target) 128 w

end Sys2Proof.Machine
end

