-- ==== Sys2Proof/Machine/Ether.lean ====
section
/-! DEFINITION. Ethernet lane groups and ports (R372, R373, R403, R485, R486), lane re-training at a link's fall (R439),
and answers for service addresses (R421). -/

namespace Sys2Proof.Machine

/-! ### Lane groups and ports (R485) -/

/-- The MODE that acts in group `g`: 5 to 7, and 4 in an odd group, act as 0; the group above a 400 Gbit/s port has
none of its own. -/
def Dev.ethMode (d : Dev) (g : Nat) : Nat :=
  let m := d.fld Fld.ethGrpCfgMode g
  if g % 2 = 1 ∧ d.fld Fld.ethGrpCfgMode (g - 1) = 4 then 0
  else if 4 < m ∨ m = 4 ∧ g % 2 = 1 then 0
  else m

/-- The SPEED of port `p`, if it is present. -/
def Dev.ethSpeed (d : Dev) (p : Nat) : Option Nat :=
  match d.ethMode (p / 4), p % 4 with
  | 1, 0 => some 2
  | 2, 0 => some 1
  | 2, 2 => some 1
  | 3, _ => some 0
  | 4, 0 => some 3
  | _, _ => none

/-- What a group's lanes run: its mode, whether a 400 Gbit/s port covers it, and its ELEC. -/
def Dev.ethShape (d : Dev) (g : Nat) : Nat × Bool × Nat :=
  (d.ethMode g, decide (g % 2 = 1) && d.ethMode (g - 1) == 4, d.fld Fld.ethGrpCfgElec g)

/-- The lanes of port `p`: one for each 50 Gbit/s. -/
def Dev.portLanes (d : Dev) (p : Nat) : List Nat := (List.range (2 ^ d.fld Fld.ethPortStatSpeed p)).map (p + ·)

/-- Set or clear LOCK of lanes. -/
def Dev.lanesLock (d : Dev) (ls : List Nat) (b : Bool) : Dev :=
  ls.foldl (fun d l => d.setFld Fld.ethGrpStatLock (l / 4) (setBits (d.fld Fld.ethGrpStatLock (l / 4)) (l % 4) 1 (b2n b))) d

/-- Lanes whose re-training waits are trained (R439, R487). -/
def Dev.trainLanes (d : Dev) (ls : List Nat) : Dev :=
  let now := d.age.retrain.filter ls.contains
  now.foldl (fun d l => d.bump Fld.hltLaneEyeTrains l) { d with age := { d.age with retrain := d.age.retrain.filter fun l => ! ls.contains l } }

/-- The link of a port falls: tunnels on it go down (R403), and pending re-training of its lanes takes effect (R439). -/
def Dev.portFall (d : Dev) (p : Nat) : Dev :=
  if ! d.flag Fld.ethPortStatUp p then d
  else
    let ls := d.portLanes p
    let d := (d.setFlag Fld.ethPortStatUp p false).lanesLock ls false
    let d : Dev := { d with eth := { d.eth with pfcAt := d.eth.pfcAt.filter fun x => x.1 / 256 != p } }
    let d := ((List.range 4).filter fun j => d.fld Fld.fabTunCfgPort j == p).foldl (fun d j => d.linkDown (8 + j) 2) d
    d.trainLanes ls

/-- PRESENT and SPEED of every port. -/
def Dev.ethPresent (d : Dev) : Dev :=
  (List.range ethPorts).foldl (fun d p =>
    (d.setFlag Fld.ethPortStatPresent p (d.ethSpeed p).isSome).setFld Fld.ethPortStatSpeed p ((d.ethSpeed p).getD 0)) d

/-- A write of ETH_GRPg_CFG at its boundary (R485): a change of MODE or ELEC retrains the group's lanes, and connections that
still exist on its ports enter the error state. The manual gives that CONN_ERROR no cause: it is a free value. -/
def Dev.ethGrpApply (d : Dev) (g : Nat) (v : Word32) : Dev :=
  let before := (List.range 4).map d.ethShape
  let d := d.storeReg .ethGrpCfg g v
  let hit := (List.range 4).filter fun k => before.getD k (0, false, 0) != d.ethShape k
  if hit = [] then d
  else
    let ports := (List.range ethPorts).filter fun p => hit.contains (p / 4) || (d.portLanes p).any fun l => hit.contains (l / 4)
    let d := ports.foldl Dev.portFall d
    let d := d.ethPresent
    let conns := (d.rte.conns.filter fun c => ports.contains c.2.port && ! c.2.err).map (·.1)
    conns.foldl (fun d c => (d.qpError c (d.fresh.toNat % 2 ^ 8)).spend) d

/-- A write of ETH_PORTp_CFG at its boundary: a port that is no longer in use has no link. -/
def Dev.ethPortApply (d : Dev) (p : Nat) (v : Word32) : Dev :=
  let d := d.storeReg .ethPortCfg p v
  if d.flag Fld.ethPortCfgEn p then d else d.portFall p

/-! ### Links -/

/-- The tunnels' block lock is the link state of their port; the first frames of PFC-enabled queues that stand above
their mark go out as the port comes up (R373). -/
def Dev.portRise (d : Dev) (p : Nat) : Dev :=
  let d := (d.setFlag Fld.ethPortStatUp p true).lanesLock (d.portLanes p) true
  ((List.range 249).filter fun q => d.queAbove q && d.flag Fld.queQCfgPfcEn q).foldl (fun d q => d.pfcOn q p 0xFFFF) d

/-- ETH_PORT_LINK_UP (R373). -/
def execEthPortLinkUp (port : Nat) (s : State) : Host.Outcome State Fault Refusal :=
  nextDev s fun d =>
    if port < ethPorts ∧ d.flag Fld.ethPortStatPresent port ∧ d.flag Fld.ethPortCfgEn port ∧ ! d.flag Fld.ethPortStatUp port then d.portRise port else d

/-- ETH_PORT_LINK_DOWN (R403). -/
def execEthPortLinkDown (port : Nat) (s : State) : Host.Outcome State Fault Refusal :=
  nextDev s fun d => if port < ethPorts then d.portFall port else d

/-- PCIE_LINK_DOWN (R439): pending re-training of PCIe lanes takes effect. The link trains again by itself. -/
def execPcieLinkDown (s : State) : Host.Outcome State Fault Refusal :=
  nextDev s fun d => d.trainLanes ((List.range 16).map (16 + ·))

/-! ### Pauses (R486) -/

/-- The ticks that a number of quanta of 512 bit times lasts at a port's rate. -/
def Dev.pauseTicks (d : Dev) (p quanta : Nat) : Nat := ceilDiv (quanta * 512) (50 * 2 ^ d.fld Fld.ethPortStatSpeed p * 20000)

/-- PFC_FRAME_RECEIVE (R486): with PFC_RX set the priorities that the frame enables are paused, or released by 0 quanta. -/
def execPfcFrameReceive (port : Nat) (enable : BitVec 8) (quanta : List (BitVec 16)) (s : State) : Host.Outcome State Fault Refusal :=
  nextDev s fun d =>
    if port < ethPorts ∧ d.portLive port ∧ d.flag Fld.ethPortCfgPfcRx port then
      ((List.range 8).filter enable.getLsbD).foldl (fun (d : Dev) i =>
        { d with eth := { d.eth with pause := tput d.eth.pause (8 * port + i) (d.clk + d.pauseTicks port (quanta.getD i 0).toNat) } }) d
    else d

/-! ### Service addresses (R421) -/

/-- A service address: its entry's PORT, IPv6 bit, address and MAC address. -/
structure Svc where
  port : Nat
  v6 : Bool
  addr : BitVec 128
  mac : BitVec 48
  deriving DecidableEq, Repr

/-- A FAB_SVC entry read as a service address. -/
def svcOf (cfg : BitVec 32) (addr : BitVec 128) (mac : BitVec 48) : Option Svc :=
  if bitOf cfg.toNat 0 then
    let v6 := bitOf cfg.toNat 1
    some { port := bits cfg.toNat 2 4, v6 := v6, addr := if v6 then addr else BitVec.ofNat 128 (addr.toNat % 2 ^ 32), mac := mac }
  else none

/-- FAB_SVCj's address words. -/
def Dev.svcAddr (d : Dev) (j : Nat) : BitVec 128 :=
  BitVec.ofNat 128 (d.fld Fld.fabSvcIp0Addr j + 2 ^ 32 * d.fld Fld.fabSvcIp1Addr j + 2 ^ 64 * d.fld Fld.fabSvcIp2Addr j + 2 ^ 96 * d.fld Fld.fabSvcIp3Addr j)

/-- FAB_SVCj's MAC address. -/
def Dev.svcMac (d : Dev) (j : Nat) : BitVec 48 := BitVec.ofNat 48 (d.fld Fld.fabSvcMacLoMac j + 2 ^ 32 * d.fld Fld.fabSvcMacHiMac j)

/-- The device's own service addresses. -/
def Dev.ownSvcs (d : Dev) : List Svc := (List.range 16).filterMap fun j => svcOf (d.rawReg .fabSvcCfg j) (d.svcAddr j) (d.svcMac j)

/-- The partner's service addresses that the device has taken over. -/
def Dev.partnerSvcs (d : Dev) : List Svc :=
  d.pair.svcs.filterMap fun r => match r with
    | .svc _ cfg a m => svcOf cfg a m
    | _ => none

/-- The addresses of the ports themselves. -/
def Dev.portSvcs (d : Dev) : List Svc :=
  (List.range ethPorts).flatMap fun p =>
    let mac := BitVec.ofNat 48 (d.fld Fld.ethPortMacLoMac p + 2 ^ 32 * d.fld Fld.ethPortMacHiMac p)
    let a6 := d.fld Fld.ethPortIp60Addr p + 2 ^ 32 * d.fld Fld.ethPortIp61Addr p + 2 ^ 64 * d.fld Fld.ethPortIp62Addr p + 2 ^ 96 * d.fld Fld.ethPortIp63Addr p
    let a4 := d.fld Fld.ethPortIp4Addr p
    (if a4 = 0 then [] else [{ port := p, v6 := false, addr := BitVec.ofNat 128 a4, mac := mac }])
      ++ (if a6 = 0 then [] else [{ port := p, v6 := true, addr := BitVec.ofNat 128 a6, mac := mac }])

/-- The addresses that the device answers for: its own, and its partner's after a takeover. -/
def Dev.answersFor (d : Dev) : List Svc := d.ownSvcs ++ d.portSvcs ++ d.partnerSvcs

/-- Announce a service address on its port (R421). -/
def Dev.announce (d : Dev) (x : Svc) : Dev := if d.portLive x.port then d.emit (.arp x.port x.v6 x.addr x.mac) else d

/-- ARP_REQUEST_RECEIVE (R421). -/
def execArpRequestReceive (port : Nat) (v6 : Bool) (addr : BitVec 128) (s : State) : Host.Outcome State Fault Refusal :=
  nextDev s fun d =>
    match d.answersFor.find? fun x => x.port == port && x.v6 == v6 && x.addr == addr with
    | some x => d.announce x
    | none => d

end Sys2Proof.Machine
end

