-- ==== Sys2Proof/Machine/SpanAdmin.lean ====
section
/-! DEFINITION. Span commands (R297, R315, R320 to R325): loading and unloading, row maps and lists, rebuild, shape change
and patrol. -/

namespace Sys2Proof.Machine

/-! ### Loading, maps and lists (R297, R315, R320, R325) -/

/-- SPAN slots (R296). -/
def spanSlots : Nat := 16

/-- A span set is mounted. -/
def Span.isMounted (s : Span) : Bool := s.members.any (·.mounted)

/-- SPAN-LOAD acts: the descriptor that the device reads at ADDR is accepted, or refused. -/
def Dev.doSpanLoad (d : Dev) (x bs : List Byte) : Dev :=
  let tag := capTag x
  let slot := leAt x 8 1
  if spanSlots ≤ slot then d.adminDone tag stFieldInvalid 0
  else if ! d.locked ∨ ((d.spanAt slot).map (·.isMounted)).getD false then d.adminDone tag stState 0
  else
    let d := d.emit (.hostRead (BitVec.ofNat 64 (leAt x 16 8)) 256)
    if ! d.descOk slot bs then d.adminDone tag stRefused 0
    else
      let y := parseDesc bs
      let s : Span := { desc := y, members := List.replicate y.width {} }
      ({ d with spn := { d.spn with slots := tput d.spn.slots slot s } }).adminDone tag stOk 0

/-- The extents that bytes spell (R315). -/
def parseExtents (n : Nat) (bs : List Byte) : List Extent :=
  (List.range n).map fun i =>
    let e := slice bs (16 * i) 16
    { ds := leAt e 0 6, row := leAt e 6 6, count := leAt e 12 4 }

/-- SPAN-MAP acts: a member volume's row map is replaced. -/
def Dev.doSpanMap (d : Dev) (x bs : List Byte) : Dev :=
  let tag := capTag x
  let slot := leAt x 8 1
  let m := leAt x 9 1
  let n := leAt x 10 2
  if spanSlots ≤ slot ∨ extentMax < n then d.adminDone tag stFieldInvalid 0
  else
    match d.spanAt slot with
    | none => d.adminDone tag stState 0
    | some s =>
      if ! d.locked then d.adminDone tag stState 0
      else if s.members.length ≤ m then d.adminDone tag stFieldInvalid 0
      else
        let d := if n = 0 then d else d.emit (.hostRead (BitVec.ofNat 64 (leAt x 16 8)) (16 * n))
        (d.modSpan slot fun s => { s with members := lmod s.members m fun y => { y with map := parseExtents n bs } }).adminDone tag stOk 0

/-- A loss-list entry as SPAN-LIST writes it: its fields in R320's order, in 16 bytes. -/
def lossBytes (l : Loss) : List Byte := leBytes 6 l.row ++ leBytes 4 l.members.toNat ++ leBytes 1 l.cause ++ zeros 5
/-- A suspect-list entry as SPAN-LIST writes it: its fields in R324's order, in 16 bytes. -/
def suspectBytes (l : Suspect) : List Byte := leBytes 6 l.row ++ leBytes 1 (b2n l.p + 2 * b2n l.q) ++ leBytes 1 l.sds ++ leBytes 1 l.cause ++ zeros 7
/-- An extent (R315). -/
def extentEntry (e : Extent) : List Byte := leBytes 6 e.ds ++ leBytes 6 e.row ++ leBytes 4 e.count

/-- SPAN-LIST acts for LIST `n`: at most MAX entries go to ADDR, and INFO is their number. -/
def Dev.doSpanList (d : Dev) (x : List Byte) (n : Nat) (entries : Span → List (List Byte)) : Dev :=
  let tag := capTag x
  let slot := leAt x 8 1
  if spanSlots ≤ slot ∨ leAt x 9 1 ≠ n then d.adminDone tag stFieldInvalid 0
  else
    match d.spanAt slot with
    | none => d.adminDone tag stState 0
    | some s =>
      if ! d.locked then d.adminDone tag stState 0
      else
        let es := (entries s).take (leAt x 12 2)
        let d := if es = [] then d else d.emit (.hostWrite (BitVec.ofNat 64 (leAt x 16 8)) es.flatten false)
        d.adminDone tag stOk es.length

/-- The loss list (R320). -/
def Dev.doListLoss (d : Dev) (x : List Byte) : Dev := d.doSpanList x 0 fun s => s.loss.map lossBytes
/-- The suspect list of a span set (R325). -/
def Dev.doListSuspect (d : Dev) (x : List Byte) : Dev :=
  d.doSpanList x 1 fun _ => (d.spn.suspects.filter fun u => u.slot == leAt x 8 1).map suspectBytes
/-- A member's row map (R315). -/
def Dev.doListMap (d : Dev) (x : List Byte) : Dev :=
  d.doSpanList x 2 fun s => ((s.members.getD (leAt x 10 1) {}).map).map extentEntry

/-- Write sessions are open on a span set (R391). -/
def Dev.writeSessions (d : Dev) (s : Span) : Bool := d.ses.sessions.any fun x => x.2.span == s.desc.id && ! x.2.read && ! x.2.dead

/-- SPAN-UNLOAD acts: a slot in use stays. -/
def Dev.doSpanUnload (d : Dev) (x : List Byte) : Dev :=
  let tag := capTag x
  let slot := leAt x 8 1
  if spanSlots ≤ slot then d.adminDone tag stFieldInvalid 0
  else if ! d.locked ∨ ((d.spanAt slot).map fun s => s.isMounted || d.writeSessions s).getD false then d.adminDone tag stState 0
  else ({ d with spn := { d.spn with slots := tdel d.spn.slots slot } }).adminDone tag stOk 0

/-- SPAN_LOAD (R297). -/
def execSpanLoad (desc span : List Byte) (s : State) : Host.Outcome State Fault Refusal :=
  nextHd s fun hd => adminTake hd (.spanLoad desc span) 0x20 desc fun hd => (hd.1, hd.2.doSpanLoad desc span)

/-- SPAN_MAP (R315). -/
def execSpanMap (desc extents : List Byte) (s : State) : Host.Outcome State Fault Refusal :=
  nextHd s fun hd => adminTake hd (.spanMap desc extents) 0x21 desc fun hd => (hd.1, hd.2.doSpanMap desc extents)

/-- SPAN_LIST_LOSS (R320). -/
def execSpanListLoss (desc : List Byte) (s : State) : Host.Outcome State Fault Refusal :=
  nextHd s fun hd => adminTake hd (.spanListLoss desc) 0x24 desc fun hd => (hd.1, hd.2.doListLoss desc)

/-- SPAN_LIST_SUSPECT (R325). -/
def execSpanListSuspect (desc : List Byte) (s : State) : Host.Outcome State Fault Refusal :=
  nextHd s fun hd => adminTake hd (.spanListSuspect desc) 0x24 desc fun hd => (hd.1, hd.2.doListSuspect desc)

/-- SPAN_LIST_ROW_MAP (R315). -/
def execSpanListRowMap (desc : List Byte) (s : State) : Host.Outcome State Fault Refusal :=
  nextHd s fun hd => adminTake hd (.spanListRowMap desc) 0x24 desc fun hd => (hd.1, hd.2.doListMap desc)

/-- SPAN_UNLOAD (R385). -/
def execSpanUnload (desc : List Byte) (s : State) : Host.Outcome State Fault Refusal :=
  nextHd s fun hd => adminTake hd (.spanUnload desc) 0x25 desc fun hd => (hd.1, hd.2.doSpanUnload desc)

/-! ### Rebuild (R317 to R319) -/

/-- REBUILD acts: the member is missing, and the spare's transport can be used; the replacement's record is read, and
then written. -/
def Dev.doRebuild (d : Dev) (x : List Byte) : Dev :=
  let tag := capTag x
  let slot := leAt x 8 1
  let m := leAt x 9 1
  if spanSlots ≤ slot ∨ 8 ≤ leAt x 10 1 then d.adminDone tag stFieldInvalid 0
  else
    match d.spanAt slot with
    | none => d.adminDone tag stState 0
    | some s =>
      if s.desc.width ≤ m then d.adminDone tag stFieldInvalid 0
      else if ! d.locked ∨ ! s.isMounted ∨ ! s.failed.getLsbD m ∨ s.rebuild.isSome ∨ s.phase ≠ 0 ∨ s.readOnly then d.adminDone tag stState 0
      else
        match (s.desc.spares[leAt x 10 1]?).bind d.entryLocal with
        | none => d.adminDone tag stFieldInvalid 0
        | some t =>
          if (d.tpAt t).mounted.isSome then d.adminDone tag stState 0
          else if ! d.tpUsable t then d.adminDone tag stTransport 0
          else
            let r : Rebuild := { member := m, tp := t, vol := BitVec.ofNat 64 (leAt x 16 8), row := leAt x 24 6 }
            let d := d.modSpan slot fun s => { s with rebuild := some r }
            ((d.claim t).readVols t).adminBegin { tag := tag, op := 0x22, a := t, b := slot, c := m, stage := 1, desc := x }

/-- REBUILD (R317). -/
def execRebuild (desc : List Byte) (s : State) : Host.Outcome State Fault Refusal :=
  nextHd s fun hd => adminTake hd (.rebuild desc) 0x22 desc fun hd => (hd.1, hd.2.doRebuild desc)

/-- The write-epoch value that a span set's members hold (R119, R317). -/
def Span.heldEpoch (s : Span) : Nat := s.epoch.reserve + 1

/-- A transport whose reels have been started for a span set (R279, R390): once it is calibrated it stops, and then seeks end of data. -/
def Dev.seekEod (d : Dev) (t no : Nat) : Dev :=
  if (d.rdAt t).eodDone ∨ (d.rdAt t).goal = .eod then d
  else if d.motState t = msRun ∧ ! d.calibrating t then d.controlledStop t
  else if d.motState t = msHold then d.rdBegin t .eod (no - 1)
  else d

/-- End of data has been found on a transport that was started to write. -/
def Dev.eodKnown (d : Dev) (t : Nat) : Bool := (d.rdAt t).eodDone && (d.rdAt t).goal == .none

/-- The transport parks at its append point, ready to write. -/
def Dev.parkToWrite (d : Dev) (t : Nat) : Dev := (d.modWr t fun w => { w with mode := .parked }).modMot t fun m => { m with travel := .backhitch 1 }

/-- A REBUILD goes on (R317): the record is read, written, and the transport makes ready to write. -/
def Dev.rebuildStep (d : Dev) (c : AdminCmd) : Dev :=
  let t := c.a
  let fail (d : Dev) (st : Nat) : Dev := (d.modSpan c.b fun s => { s with rebuild := none }).adminEnd c.tag st 0
  match d.spanAt c.b with
  | none => d.adminEnd c.tag stState 0
  | some s =>
    if (d.tpAt t).reqFail ∨ ! d.flag Fld.tpLinkStatUp t then fail d stTransport
    else if c.stage = 1 then
      if ! d.volsRead t ∨ ! d.volsQuiet t then d
      else if ! d.flag Fld.tpLinkStatOwner t then (if c.since + 8 ≤ d.clk then fail (d.setFlag Fld.tpTokenClaim t false) stTransport else d)
      else
        let vol := (s.rebuild.map (·.vol)).getD 0
        let old := (d.tpAt t).volRec
        let eod := (old.map fun v => if volId v = vol then volEod v else 0).getD 0
        let w := volRecordNext old vol s.desc.salt s.heldEpoch eod s.desc.id c.c s.desc.k s.desc.p s.desc.epoch
        (d.putVol t w).adminMod c.tag fun c => { c with stage := 2 }
    else if c.stage = 2 then
      if ! d.volsQuiet t then d
      else
        let next := ((d.tpAt t).volRec.map volEod).getD 0
        let d := d.modSpan c.b fun s => { s with rebuild := s.rebuild.map fun r => { r with next := next } }
        ((d.modTp t fun p => { p with mounted := some (c.b, c.c, true) }).tapeStart t).adminEnd c.tag stOk 0
    else d

/-- The rebuild's cursor moves on (R319): a checkpoint every 64 rows. -/
def Dev.cursorMove (d : Dev) (slot : Nat) (fresh : Bool) : Dev :=
  let d := d.modSpan slot fun s => { s with rebuild := s.rebuild.map fun r => { r with row := r.row + 1, fresh := r.fresh || fresh, mark := r.mark + 1, made := none } }
  match (d.spanAt slot).bind (·.rebuild) with
  | some r => if 64 ≤ r.mark then (d.modSpan slot fun s => { s with rebuild := s.rebuild.map fun r => { r with mark := 0 } }).journal slot 6 false else d
  | none => d

/-- The identity part of a data set that a joining member takes over (R131, R134, R318): the row's, for the replacement volume. -/
def joinIdent (d : Dev) (r : Rebuild) (k no : Nat) (b : List Byte) : List Byte := identFor b r.member k r.vol no (d.wrAt r.tp).wrap false

/-- The part of member `i`'s identity that stands in its payload buffer already. -/
def Row.identIn (r : Row) (k i : Nat) : Nat := if i < k then min 256 (r.assembled - i * payloadLen) else if 0 < r.parity then 256 else 0

/-- Put a member's identity part over what has been assembled of it. -/
def putIdent (hd : Hbm × Dev) (r : Row) (k i : Nat) (ident : List Byte) : Hbm × Dev :=
  match r.bufs.getD i none with
  | some b => bufWrite hd b 0 (ident.take (r.identIn k i)) false
  | none => hd

/-- Member m joins at C (R318): its transport and volume are the replacement's, and it is live from row C on. Data sets of rows that
have closed take numbers and identity parts of the replacement; those of them that are staged already are staged on it. Of a row that is
complete without m the encoder holds the payload through SHARE until it has written it. -/
def joinMember (hd : Hbm × Dev) (slot : Nat) (s : Span) (r : Rebuild) : Hbm × Dev :=
  let (h, d) := hd
  let e := 0x8000 + d.fld Fld.fabCfgAddr + 256 * r.tp
  let old := s.members.getD r.member {}
  let new : Member := { vol := r.vol, next := r.next, mounted := true, write := true, map := r.map }
  let redo := (s.rows.filter fun x => (x.2.st == .writing || (x.2.st == .complete && ! x.2.released)) && decide (s.c ≤ x.1)).map fun x =>
    (x.1, x.2.staged, x.2.st == .complete)
  let d := d.modSpan slot fun s => { s with
    desc := { s.desc with members := s.desc.members.set r.member e }
    members := s.members.set r.member new, oldVols := s.oldVols ++ [{ vol := old.vol, member := r.member, map := old.map }]
    failed := mclr s.failed r.member, rebuild := none
    rows := s.rows.map fun x => if s.c ≤ x.1 then (x.1, { x.2 with missing := mclr x.2.missing r.member }) else x }
  let (h, d) := redo.foldl (fun (hd : Hbm × Dev) x =>
    let (d, n, staged, whole) := (hd.2, x)
    let no := (((d.spanAt slot).bind fun s => s.members[r.member]?).map (·.next)).getD 0
    let row := ((d.spanAt slot).bind fun s => tget s.rows n).getD { st := .unused }
    let ident := joinIdent d r (s.descOf n).k no (row.idents.getD r.member [])
    let (h, d) := putIdent hd row (s.descOf n).k r.member ident
    let d := d.modSpan slot fun s => { s with
      rows := tmod s.rows n fun x => { x with
        nos := x.nos.set r.member no, verified := mclr x.verified r.member, idents := x.idents.set r.member ident }
      members := lmod s.members r.member fun m => { m with next := m.next + 1, map := mapAdd m.map no n (m.map == r.map) } }
    let keep := if whole then row.bufs.getD r.member none else none
    let d := (keep.map fun b => d.share b 6).getD d
    let x : DsWr := { no := no, slot := slot, row := n, member := r.member, payload := keep.getD nullHandle, started := keep.isSome }
    (h, if staged then d.stage r.tp x else d)) (h, d)
  let d := match redo with
    | x :: _ => d.postExtent s.desc.id r.vol { ds := r.next, row := x.1, count := 1 }
    | [] => d.modSpan slot fun s => { s with members := lmod s.members r.member fun m => { m with fresh := true } }
  (h, (d.postEvent 0x61 blkSpn 0 [item s.desc.id, item r.member, item s.c]).journal slot 3 false)

/-- A row of a rebuild is lost (R317, R320). -/
def Dev.rebuildLost (d : Dev) (slot : Nat) (r : Rebuild) : Dev :=
  ((d.lossAdd slot { row := r.row, members := mset 0 r.member, cause := 1 }).journal slot 4 false).cursorMove slot true

/-- A regenerated data set is staged on the replacement's transport (R317). Its buffer is asked for only while no request of owner 1, 4
or 10 waits in the pool (R453). -/
def rebuildWrite (hd : Hbm × Dev) (slot : Nat) (s : Span) (r : Rebuild) (x : Desc) (have_ : List (Nat × List Byte)) (bs : List Byte) : Hbm × Dev :=
  let (h, d) := hd
  let waits := d.pool.reqs.any fun q => fittingPool q.size == 4 && (q.owner == 1 || q.owner == 4 || q.owner == 10)
  if waits ∨ ! d.mayTake 5 4 then hd
  else
    let (d, b) := d.allocate 4 5 5
    let other := ((have_.head?.map fun y => y.2.take 256).getD [])
    let pay := identFor other r.member x.k r.vol r.next (d.wrAt r.tp).wrap true ++ bs.drop 256
    let (h, d) := bufWrite (h, d) b 0 pay false
    let d := d.stage r.tp { no := r.next, slot := slot, row := r.row, member := r.member, payload := b, rebuilt := true }
    let d := if extends_ r.map r.next r.row r.fresh then d else d.postExtent s.desc.id r.vol { ds := r.next, row := r.row, count := 1 }
    let d := d.modSpan slot fun s => { s with rebuild := s.rebuild.map fun r => { r with next := r.next + 1, map := mapAdd r.map r.next r.row r.fresh, fresh := false } }
    (h, d.cursorMove slot false)

/-- REBUILD_ROW (R317 to R319): the cursor's row is regenerated and written, skipped, or lost; at C the member joins. Once the row's
sources are had, its regeneration takes the budget that R300 leaves it. -/
def execRebuildRow (slot : Nat) (s : State) : Host.Outcome State Fault Refusal :=
  nextHd s fun hd =>
    let (h, d) := hd
    match d.spanAt slot with
    | none => hd
    | some sp =>
      match sp.rebuild with
      | none => hd
      | some r =>
        if ! r.ready then hd
        else if sp.c ≤ r.row then joinMember (h, d) slot sp r
        else if sp.rowLost r.row then (h, d.cursorMove slot true)
        else if sp.rowVoid r.row then (h, d.cursorMove slot false)
        else
          let x := sp.descOf r.row
          let (d, have_, gone) := d.rowHave h slot r.row r.member sp
          if x.p < gone + 1 then (h, d.rebuildLost slot r)
          else if have_.length < x.k then (h, d)
          else if r.made.isNone then (h, d.modSpan slot fun s => { s with rebuild := s.rebuild.map fun r => { r with made := some 0 } })
          else if r.made ≠ some parityTotal then (h, d)
          else
            match rebuildMember x.k x.p (have_.take x.k) r.member with
            | none => (h, d.rebuildLost slot r)
            | some bs => rebuildWrite (h, d) slot sp r x have_ bs

/-! ### Shape change (R321, R322) -/

/-- Post SPN_SHAPE (R327). -/
def Dev.postShape (d : Dev) (s : Span) (phase b epoch : Nat) : Dev := d.postBoth 0x66 blkSpn 0 [item s.desc.id, item phase, item b, item epoch]

/-- The local transports of a change's new volumes, with their member indices. -/
def Dev.newVols (d : Dev) (s : Span) : List (Nat × Nat) :=
  match s.newDesc with
  | none => []
  | some x => (List.range x.width).filterMap fun i => if s.keeps i then none else ((x.members[i]?).bind d.entryLocal).map fun t => (i, t)

/-- SHAPE-CHANGE starts (R321): refused while a member is missing, a rebuild runs or another change is in progress. -/
def Dev.doShapeStart (d : Dev) (x bs : List Byte) : Dev :=
  let tag := capTag x
  let slot := leAt x 8 1
  if spanSlots ≤ slot ∨ leAt x 9 1 ≠ 0 then d.adminDone tag stFieldInvalid 0
  else
    match d.spanAt slot with
    | none => d.adminDone tag stState 0
    | some s =>
      if ! d.locked then d.adminDone tag stState 0
      else
        let d := d.emit (.hostRead (BitVec.ofNat 64 (leAt x 16 8)) 256)
        let y := parseDesc bs
        if ! d.descOk slot bs ∨ y.id ≠ s.desc.id ∨ y.salt ≠ s.desc.salt ∨ y.epoch ≠ s.desc.epoch + 1 ∨ s.failed ≠ 0 ∨ s.rebuild.isSome ∨ s.phase ≠ 0 then
          d.adminDone tag stRefused 0
        else if ! s.writing then d.adminDone tag stState 0
        else
          let d := d.modSpan slot fun s => { s with phase := 1, newDesc := some y, newMembers := List.replicate y.width {} }
          let now := (d.spanAt slot).getD s
          let d := (d.newVols now).foldl (fun d v => (d.claim v.2).readVols v.2) d
          ((d.postShape s 1 s.boundary y.epoch).journal slot 5 false).adminDone tag stOk 0

/-- SHAPE-CHANGE cancels (R322). -/
def Dev.doShapeCancel (d : Dev) (x : List Byte) : Dev :=
  let tag := capTag x
  let slot := leAt x 8 1
  if spanSlots ≤ slot ∨ leAt x 9 1 ≠ 1 then d.adminDone tag stFieldInvalid 0
  else if ((d.spanAt slot).map (·.phase)) ≠ some 1 ∨ ! d.locked then d.adminDone tag stState 0
  else (d.shapeCancel slot).adminDone tag stOk 0

/-- SHAPE_CHANGE_START (R321). -/
def execShapeChangeStart (desc span : List Byte) (s : State) : Host.Outcome State Fault Refusal :=
  nextHd s fun hd => adminTake hd (.shapeChangeStart desc span) 0x23 desc fun hd => (hd.1, hd.2.doShapeStart desc span)

/-- SHAPE_CHANGE_CANCEL (R322). -/
def execShapeChangeCancel (desc : List Byte) (s : State) : Host.Outcome State Fault Refusal :=
  nextHd s fun hd => adminTake hd (.shapeChangeCancel desc) 0x23 desc fun hd => (hd.1, hd.2.doShapeCancel desc)

/-- The prepare phase goes on (R322): the records of new volumes that have been read are written, and again after an interruption (R323);
a volume is ready once end of data has been found on it. -/
def Dev.prepareTick (d : Dev) (slot : Nat) : Dev :=
  match d.spanAt slot with
  | none => d
  | some s =>
    if s.phase = 0 then d
    else
      match s.newDesc with
      | none => d
      | some x =>
        (d.newVols s).foldl (fun d (i, t) =>
          let m := s.newMembers.getD i {}
          if m.mounted then
            let d := if m.write then d else d.seekEod t m.next
            if ! m.write ∧ d.eodKnown t then
              (d.parkToWrite t).modSpan slot fun s => { s with newMembers := lmod s.newMembers i fun m => { m with write := true, next := max m.next (d.wrAt t).eod } }
            else d
          else if ! d.volsRead t ∨ ! d.volsQuiet t ∨ ! d.flag Fld.tpLinkStatOwner t then d
          else
            match (d.tpAt t).volRec with
            | none => d
            | some v =>
              if ! m.redo ∧ leAt v 32 1 = i ∧ leAt v 33 1 = x.k ∧ leAt v 34 1 = x.p ∧ leAt v 36 2 = x.epoch then
                let d := d.modSpan slot fun s => { s with newMembers := lmod s.newMembers i fun m => { m with vol := volId v, next := max m.next (volEod v), mounted := true } }
                (d.modTp t fun p => { p with mounted := some (slot, i, true) }).tapeStart t
              else (d.modSpan slot fun s => { s with newMembers := lmod s.newMembers i fun m => { m with redo := false } }).putVol t (volRecordNext (some v) (volId v) x.salt s.heldEpoch (volEod v) x.id i x.k x.p x.epoch)) d

/-- Every new volume is ready. -/
def Dev.shapeReady (d : Dev) (s : Span) : Bool := (d.newVols s).all fun v => (s.newMembers.getD v.1 {}).write

/-- SHAPE_ACTIVE (R322): every new volume is ready, and B is the next row to open; the checkpoint is committed. -/
def execShapeActive (slot : Nat) (s : State) : Host.Outcome State Fault Refusal :=
  nextDev s fun d =>
    match d.spanAt slot with
    | none => d
    | some sp =>
      if sp.phase = 1 ∧ d.shapeReady sp then
        let b := if (tget sp.rows sp.openRow).isSome then sp.openRow + 1 else sp.openRow
        let ep := (sp.newDesc.map (·.epoch)).getD 0
        let d := d.modSpan slot fun s => { s with phase := 2, boundary := b }
        (d.postShape sp 2 b ep).journal slot 5 false
      else d

/-- A rebuild or shape change that an interruption has stopped goes on from its checkpoint (R319, R323): the volume records of its
transports are read, and B moves to the next row to open unless row B has opened. -/
def Dev.resumeWork (d : Dev) (slot : Nat) : Dev :=
  match d.spanAt slot with
  | none => d
  | some s =>
    let busy := d.ctl.admin.any fun c => c.op == 0x22 && c.b == slot
    let d := match s.rebuild with
      | some r =>
        if r.ready ∨ busy then d
        else ((d.claim r.tp).readVols r.tp).modSpan slot fun s => { s with rebuild := s.rebuild.map fun r => { r with resume := true } }
      | none => d
    let d := if s.phase = 0 then d
      else (d.newVols s).foldl (fun d v => if (s.newMembers.getD v.1 {}).mounted then d else (d.claim v.2).readVols v.2) d
    if s.phase = 2 ∧ (tget s.rows s.boundary).isNone ∧ s.openRow ≤ s.boundary then
      let b := if (tget s.rows s.openRow).isSome then s.openRow + 1 else s.openRow
      (d.modSpan slot fun s => { s with boundary := b }).journal slot 5 false
    else d

/-! ### Patrol (R324, R325) -/

/-- Suspect-list entries at most (R325). -/
def suspectMax : Nat := 1024

/-- A suspect entry, with SPN_SUSPECT (R324, R327). -/
def Dev.suspectAdd (d : Dev) (id : Nat) (u : Suspect) : Dev :=
  let d : Dev := if d.spn.suspects.length < suspectMax then { d with spn := { d.spn with suspects := d.spn.suspects ++ [u] } } else d.bump Fld.spnSuspectCntCount
  d.postBoth 0x67 blkSpn 0 [item id, item u.row, item (b2n u.p + 2 * b2n u.q), item u.sds, item u.cause]

/-- Where two payloads first differ, leaving their first 256 bytes out (R324). -/
def firstDiff (a b : List Byte) : Option Nat := (((a.zip b).zipIdx.drop 256).find? fun x => x.1.1 != x.1.2).map (·.2)

/-- What patrol finds of parity member `want` (0 P, 1 Q): the recomputed bytes against what was read, if it was. -/
def parityDiff (ds : List (List Byte)) (q : Bool) (read : Option (List Byte)) : Option Nat :=
  read.bind fun b => firstDiff (if q then parityQ ds else parityP ds) b

/-- The patrol cursor moves on. -/
def Dev.patrolNext (d : Dev) (slot : Nat) : Dev := d.modSpan slot fun s => { s with patrol := s.patrol + 1, patrolAt := d.clk }

/-- The outcome of a patrolled row (R324), by what was read of each member: none where it is undecodable. -/
def Dev.patrolJudge (d : Dev) (slot n : Nat) (s : Span) (got : List (Option (List Byte))) : Dev :=
  let x := s.descOf n
  let bad := (got.zipIdx.filter fun y => y.1.isNone).map (·.2)
  let u := bad.length
  let sus (d : Dev) (p q : Bool) (sds cause : Nat) : Dev := d.suspectAdd s.desc.id { slot := slot, row := n, p := p, q := q, sds := sds, cause := cause }
  let pb := if 1 ≤ x.p then (got[x.k]?).getD none else none
  let qb := if 2 ≤ x.p then (got[x.k + 1]?).getD none else none
  let judge (ds : List (List Byte)) (pb qb : Option (List Byte)) (cause : Nat) : Dev :=
    let dp := parityDiff ds false pb
    let dq := parityDiff ds true qb
    match (dp.toList ++ dq.toList).min? with
    | some a => sus d dp.isSome dq.isSome (a / sdsBytes) cause
    | none => d
  if x.p < u then
    (d.lossAdd slot { row := n, members := bad.foldl mset 0, cause := 3 }).journal slot 4 false
  else if u = 0 then judge (got.take x.k |>.map fun y => y.getD []) pb qb 1
  else if u = x.p then sus d false false 0xFF 3
  else if bad.any (fun i => decide (i < x.k)) then
    match regenerate (got.take x.k) pb none with
    | some ds => judge ds none qb 2
    | none => d
  else judge (got.take x.k |>.map fun y => y.getD []) pb qb 2

/-- Where the data sets of a row that patrol reads stand, one for each of its `w` members. -/
def Dev.patrolSrcs (d : Dev) (h : Hbm) (slot n w : Nat) : Dev × List DsSrc :=
  (List.range w).foldl (fun (acc : Dev × List DsSrc) i =>
    let (d, y) := acc.1.rowSrc h slot n i
    (d, acc.2 ++ [y])) (d, [])

/-- A data set that has not been read yet. -/
def DsSrc.awaited : DsSrc → Bool
  | .tape _ _ => true
  | .peer _ _ _ => true
  | _ => false

/-- A data set that a splice makes void (R167). -/
def DsSrc.isVoid : DsSrc → Bool
  | .void => true
  | _ => false

/-- The payload of a data set that has been read and decodes whole. -/
def DsSrc.whole : DsSrc → Option (List Byte)
  | .payload _ bs bad ps => if bad = [] ∧ ! ps.any id then some bs else none
  | _ => none

/-- PATROL_ROW (R324, R325): rows lost, void or missing a member are skipped; a row whose data sets have all been read is
judged. -/
def execPatrolRow (slot : Nat) (s : State) : Host.Outcome State Fault Refusal :=
  nextDev s fun d =>
    match d.spanAt slot with
    | none => d
    | some sp =>
      if ! d.patrolOn slot sp ∨ d.stalls blkSpn 0 3 then d
      else if ! sp.patrolRow ∨ sp.rowLost sp.patrol ∨ sp.rowVoid sp.patrol then d.patrolNext slot
      else
        let n := sp.patrol
        let (d, srcs) := d.patrolSrcs s.hbm slot n (sp.descOf n).width
        if srcs.any DsSrc.awaited then d
        else if srcs.any DsSrc.isVoid then d.patrolNext slot
        else (d.patrolJudge slot n sp (srcs.map DsSrc.whole)).patrolNext slot

end Sys2Proof.Machine
end

