-- ==== Sys2Proof/Machine/Mount.lean ====
section
/-! DEFINITION. Cartridges and mounts (R193, R308, R387, R390, R391): INIT-CARTRIDGE, MOUNT with the recovery of a span set,
DISMOUNT, and how these commands go on at the boundaries. -/

namespace Sys2Proof.Machine

/-! ### INIT-CARTRIDGE (R387) -/

/-- INIT-CARTRIDGE acts: conditions 1 to 3, then the cartridge's record is read. -/
def Dev.doInitCartridge (d : Dev) (x : List Byte) : Dev :=
  let tag := capTag x
  let t := leAt x 8 1
  let vol := leAt x 16 8
  if 8 ≤ t ∨ ! shapeOk (leAt x 24 1) (leAt x 25 1) ∨ leAt x 24 1 + leAt x 25 1 ≤ leAt x 9 1 then d.adminDone tag stFieldInvalid 0
  else if (d.tpAt t).mounted.isSome ∨ ! d.flag Fld.tpLinkStatCart t then d.adminDone tag stState 0
  else if ! d.flag Fld.tpLinkStatUp t ∨ ! d.flag Fld.tpLinkStatIdOk t then d.adminDone tag stTransport 0
  else if vol = 0 ∨ vol = 2 ^ 64 - 1 then d.adminDone tag stRefused 0
  else ((d.claim t).readVols t).adminBegin { tag := tag, op := 0x30, a := t, stage := 1, desc := x }

/-- INIT_CARTRIDGE (R387). -/
def execInitCartridge (desc : List Byte) (s : State) : Host.Outcome State Fault Refusal :=
  nextHd s fun hd => adminTake hd (.initCartridge desc) 0x30 desc fun hd => (hd.1, hd.2.doInitCartridge desc)

/-- Conditions 4 to 6 of R387. -/
def Dev.initRefused (d : Dev) (t : Nat) (x : List Byte) : Bool :=
  let salt := BitVec.ofNat 32 (leAt x 12 4)
  let id := leAt x 10 2
  (match (d.tpAt t).volRec with
   | some v => leAt v 8 2 == leAt x 16 2
   | none => false)
    || (d.spn.slots.any fun s => s.2.desc.id == id && s.2.desc.salt != salt)
    || d.spn.slots.any fun s => s.2.desc.id != id && s.2.desc.salt == salt

/-- An INIT-CARTRIDGE goes on: its checks, then both copies are written, GEN 1 and GEN 0. -/
def Dev.initStep (d : Dev) (c : AdminCmd) : Dev :=
  let t := c.a
  let x := c.desc
  if (d.tpAt t).reqFail ∨ ! d.flag Fld.tpLinkStatUp t then d.adminEnd c.tag stTransport 0
  else if ! d.volsQuiet t then d
  else if c.stage = 1 then
    if ! d.volsRead t then d
    else if d.initRefused t x then d.adminEnd c.tag stRefused 0
    else if ! d.flag Fld.tpLinkStatOwner t then (if c.since + 8 ≤ d.clk then (d.setFlag Fld.tpTokenClaim t false).adminEnd c.tag stTransport 0 else d)
    else
      let w (gen : Nat) := volBytes gen (BitVec.ofNat 64 (leAt x 16 8)) (BitVec.ofNat 32 (leAt x 12 4)) 0 0 (leAt x 10 2) (leAt x 9 1) (leAt x 24 1) (leAt x 25 1) (leAt x 26 2)
      ((d.request t (.writeVol 0 (w 1)) 2 0x400 128 (w 1)).request t (.writeVol 1 (w 0)) 2 0x480 128 (w 0)).adminMod c.tag fun c => { c with stage := 2 }
  else d.adminEnd c.tag stOk 0

/-! ### Recovery after a cold reset (R308) -/

/-- The payload of the latest JOURNAL record of a span set in the cellar log. -/
def Dev.latestJournal (d : Dev) (id : Nat) : Option (List Byte) :=
  let rs := d.hlt.mram.filterMap fun (_, b) =>
    if leAt b 1 1 = blkSpn ∧ leAt b 3 1 = 0xC0 ∧ leAt b 32 2 = id ∧ crc32cOk b then some (leAt b 4 4, slice b 32 220) else none
  (rs.foldl (fun (best : Option (Nat × List Byte)) r =>
    match best with
    | some x => if serialLt x.1 r.1 then some r else best
    | none => some r) none).map (·.2)

/-- What recovery knows: C of the record, the rows that it or an identity part shows complete. -/
structure Sources where
  rowC : Nat
  done : Nat
  idents : List (Table (List Byte))
  deriving DecidableEq, Repr

/-- A source shows a row complete (R308). -/
def Sources.complete (x : Sources) (n : Nat) : Bool :=
  decide (n < x.rowC) || (decide (x.rowC < n) && decide (n ≤ x.rowC + 32) && bitOf x.done (n - x.rowC - 1))
    || x.idents.any fun t => t.any fun i => identShows i.2 n

/-- The row of a data set of a member volume: by its identity part, else by the row map. -/
def Sources.rowOf (x : Sources) (i : Nat) (m : Member) (no : Nat) : Option Nat :=
  match tget (x.idents.getD i []) no with
  | some b => some (identRow b)
  | none => mapRow m.map no

/-- The data sets of a member volume whose rows are void, with their rows. -/
def Sources.voids (x : Sources) (i : Nat) (m : Member) : List (Nat × Nat) :=
  (List.range m.next).filterMap fun no => (x.rowOf i m no).bind fun n => if x.complete n then none else some (no, n)

/-- VOID_FROM and KEEP_MAP of a member volume (R167, R308): none when it holds no void data set. -/
def Sources.splice (x : Sources) (i : Nat) (m : Member) : Option (Nat × BitVec 64) :=
  (x.voids i m).head?.map fun (v, _) =>
    (v, BitVec.ofNat 64 (((List.range 64).filter fun j => decide (v + j < m.next) && ((x.rowOf i m (v + j)).map x.complete).getD false).map (2 ^ ·)).sum)

/-- The sources of a span set (R308). -/
def Dev.sources (d : Dev) (s : Span) : Sources :=
  let j := (d.latestJournal s.desc.id).getD []
  { rowC := leAt j 8 6, done := leAt j 16 4
    idents := (List.range s.desc.width).map fun i => match (s.desc.members[i]?).bind d.entryLocal with
      | some t => (d.rdAt t).idents
      | none => [] }

/-- The journal entry of row `n` in some decoded identity part that shows it complete (R132, R308). -/
def Sources.entry (x : Sources) (n : Nat) : Option (List Byte) :=
  x.idents.findSome? fun t => t.findSome? fun i => (List.range 8).findSome? fun j =>
    if leAt i.2 (64 + 16 * j) 6 = n ∧ leAt i.2 (70 + 16 * j) 1 = 3 then some (slice i.2 (64 + 16 * j) 16) else none

/-- The journal rows that recovery restores (R132, R308): those that it has found complete, as far as headers and DONE_MAP reach
below the next row to open. Bit maps that no source gives are free values (notes/assumptions/172.md). -/
def Dev.recoveredRows (d : Dev) (x : Sources) (top : Nat) : Table Row :=
  (((List.range 40).map fun j => top + j).filterMap fun m =>
    let n := m - 40
    if 40 ≤ m ∧ x.complete n then
      let any (j : Nat) : BitVec 32 := (Config.freeValue (d.free + 2 * (m - top) + j)).setWidth 32
      some (n, { st := .complete, released := true, shown := true
                 written := ((x.entry n).map fun b => BitVec.ofNat 32 (leAt b 8 4)).getD (any 0)
                 verified := ((x.entry n).map fun b => BitVec.ofNat 32 (leAt b 12 4)).getD (any 1) })
    else none)

/-- SPAN_RECOVERY (R308): void rows, splices, the next row to open and the missing members. -/
def Dev.recover (d : Dev) (slot : Nat) : Dev :=
  match d.spanAt slot with
  | none => d
  | some s =>
    let x := d.sources s
    let j := (d.latestJournal s.desc.id).getD []
    let void := s.members.zipIdx.map fun (m, i) => x.voids i m
    let top := (s.members.zipIdx.map fun (m, i) => if m.next = 0 then 0 else ((x.rowOf i m (m.next - 1)).map (· + 1)).getD 0).foldl max x.rowC
    let d := s.members.zipIdx.foldl (fun d (m, i) =>
      match x.splice i m, (s.desc.members[i]?).bind d.entryLocal with
      | some _, some t => d.modWr t fun w => { w with splice := true }
      | _, _ => d) d
    let rows := d.recoveredRows x top
    d.spend 80 |>.modSpan slot fun s => { s with
      recovered := true, openRow := top, c := top, rows := rows, voidRows := (void.flatten.map (·.2)).dedup, boundary := leAt j 24 6
      failed := BitVec.ofNat 32 (leAt j 20 4)
      members := s.members.zipIdx.map fun (m, i) => { m with splice := x.splice i m } }

/-! ### MOUNT (R390) -/

/-- MOUNT acts: its first check, then both copies of the volume record are read. -/
def Dev.doMount (d : Dev) (x : List Byte) : Dev :=
  let tag := capTag x
  let t := leAt x 8 1
  let slot := leAt x 9 1
  let m := leAt x 10 1
  if 8 ≤ t ∨ spanSlots ≤ slot ∨ 2 ≤ leAt x 11 1 then d.adminDone tag stFieldInvalid 0
  else if ! d.locked then d.adminDone tag stState 0
  else
    match d.spanAt slot with
    | none => d.adminDone tag stState 0
    | some s =>
      if (s.desc.members[m]?).bind d.entryLocal ≠ some t then d.adminDone tag stFieldInvalid 0
      else if (d.tpAt t).mounted.isSome ∨ s.dismount then d.adminDone tag stState 0
      else if ! d.tpUsable t then
        let d := if s.writing ∧ d.flag Fld.tpLinkStatUp t ∧ ! d.flag Fld.tpLinkStatIdOk t then d.memberFail slot m 4 else d
        d.adminDone tag stTransport 0
      else (d.readVols t).adminBegin { tag := tag, op := 0x31, a := t, b := slot, c := m, addr := BitVec.ofNat 64 (leAt x 16 8), stage := 1, desc := x }

/-- MOUNT (R390). -/
def execMount (desc : List Byte) (s : State) : Host.Outcome State Fault Refusal :=
  nextHd s fun hd => adminTake hd (.mount desc) 0x31 desc fun hd => (hd.1, hd.2.doMount desc)

/-- A MOUNT ends without mounting. -/
def Dev.mountFail (d : Dev) (c : AdminCmd) (st : Nat) : Dev :=
  let d := if st = stRefused ∧ ((d.spanAt c.b).map (·.writing)).getD false then d.memberFail c.b c.c 4 else d
  let d := if 3 ≤ c.stage then ((d.rdStop c.a).controlledStop c.a).modWr c.a (fun w => { staged := w.staged, again := w.again, lastKind := w.lastKind }) else d
  (d.modTp c.a fun p => { p with mounted := none }).adminEnd c.tag st 0

/-- Every live local member has been mounted with MODE 1. -/
def Dev.allWrite (d : Dev) (s : Span) : Bool :=
  (List.range s.desc.width).all fun i => s.failed.getLsbD i || ((s.desc.members[i]?).bind d.entryLocal).isNone || (s.members.getD i {}).write

/-- The epoch write of a mount for writing (R119): M + 2 goes to every member; an exhausted epoch mounts nothing. -/
def Dev.epochMount (d : Dev) (slot : Nat) : Dev :=
  match d.spanAt slot with
  | none => d
  | some s =>
    let tps := (List.range s.desc.width).filterMap fun i => if s.failed.getLsbD i then none else (s.desc.members[i]?).bind d.entryLocal
    let top := (tps.filterMap fun t => (d.tpAt t).volRec.map volEpoch).foldl max 0
    if 0xFFFFFF < top + 2 then d.modSpan slot fun s => { s with epoch := { s.epoch with exhausted := true } }
    else
      let d := d.modSpan slot fun s => { s with epoch := { cur := top, count := 0, reserve := top + 1, have_ := 0 } }
      tps.foldl (fun d t => d.modTp t fun p => { p with upd := p.upd ++ [{ epoch := some (top + 2) }] }) d

/-- The span set is mounted for writing (R390): it is recovered if need be, its next row opens, and work that was interrupted goes on. -/
def Dev.writeMounted (d : Dev) (slot : Nat) : Dev :=
  match d.spanAt slot with
  | none => d
  | some s =>
    let d := if s.recovered then d else d.recover slot
    let d := d.modSpan slot fun s => { s with writing := true, dismount := false }
    match d.spanAt slot with
    | none => d
    | some s => (if (tget s.rows s.openRow).isSome then d else d.openRow slot s.openRow).resumeWork slot

/-- A MOUNT goes on (R390): 1 the record is read, 2 the transport is claimed, 3 the reels start, 4 end of data is sought, 5
the write epoch is written. -/
def Dev.mountStep (d : Dev) (c : AdminCmd) : Dev :=
  let t := c.a
  let write := leAt c.desc 11 1 == 1
  match d.spanAt c.b with
  | none => d.mountFail c stState
  | some s =>
    let stage (d : Dev) (n : Nat) : Dev := d.adminMod c.tag fun c => { c with stage := n, since := d.clk }
    let finish (d : Dev) : Dev := (d.emit (.hostWrite c.addr (((d.tpAt t).volRec).getD []) false)).adminEnd c.tag stOk 0
    if (d.tpAt t).reqFail ∨ ! d.flag Fld.tpLinkStatUp t ∨ d.motState t = msStartFailed then d.mountFail c stTransport
    else if c.stage = 1 then
      if ! d.volsRead t ∨ ! d.volsQuiet t then d
      else
        match (d.tpAt t).volRec with
        | none => d.mountFail c stRefused
        | some v => if leAt v 30 2 ≠ s.desc.id ∨ leAt v 32 1 ≠ c.c then d.mountFail c stRefused else stage (d.claim t) 2
    else if c.stage = 2 then
      if d.flag Fld.tpLinkStatOwner t then
        stage (((d.modTp t fun p => { p with mounted := some (c.b, c.c, write) }).modWr t fun w => { w with mode := .idle, stopReq := false }).tapeStart t) 3
      else d
    else if c.stage = 3 then
      let v := ((d.tpAt t).volRec).getD []
      if d.motState t = msRun ∧ ! d.calibrating t then d.controlledStop t
      else if d.motState t ≠ msHold then d
      else
        let d := d.modSpan c.b fun s => { s with members := lmod s.members c.c fun m => { m with vol := volId v, next := max m.next (volEod v), mounted := true } }
        if write then stage (d.rdBegin t .eod (volEod v - 1)) 4 else finish d
    else if c.stage = 4 then
      if ! (d.rdAt t).eodDone ∨ (d.rdAt t).goal = .eod then d
      else
        let next := (d.wrAt t).eod
        let d := (d.modSpan c.b fun s => { s with members := lmod s.members c.c fun m => { m with next := max m.next next, write := true } }).modWr t fun w => { w with mode := .parked }
        let d := d.modMot t fun m => { m with travel := .backhitch 1 }
        match d.spanAt c.b with
        | some s => stage (if d.allWrite s ∧ ! s.writing then d.epochMount c.b else d) 5
        | none => d
    else
      if s.epoch.exhausted ∨ ! d.allWrite s ∨ s.writing then finish d
      else if d.volsQuiet t ∧ d.reserveHeld s then finish (d.writeMounted c.b)
      else d

/-- MOUNT_CLAIM_TIMEOUT (R390): OWNER has not become 1 within 8 ticks. -/
def execMountClaimTimeout (tp : Nat) (s : State) : Host.Outcome State Fault Refusal :=
  nextDev s fun d =>
    match d.ctl.admin.find? fun c => c.op == 0x31 && c.stage == 2 && c.a == tp with
    | some c => if c.since + 8 ≤ d.clk ∧ ! d.flag Fld.tpLinkStatOwner tp ∧ d.ctl.activating.isNone then (d.setFlag Fld.tpTokenClaim tp false).mountFail c stTransport else d
    | none => d

/-! ### DISMOUNT (R391) -/

/-- The local transports that are mounted for a span set, its spare's too. -/
def Dev.tpsOf (d : Dev) (slot : Nat) : List Nat := (List.range 8).filter fun t => ((d.tpAt t).mounted.map (·.1)) == some slot

/-- DISMOUNT acts: the open row is closed, and no further one opens. -/
def Dev.doDismount (d : Dev) (x : List Byte) : Dev :=
  let tag := capTag x
  let slot := leAt x 8 1
  if spanSlots ≤ slot then d.adminDone tag stFieldInvalid 0
  else
    match d.spanAt slot with
    | none => d.adminDone tag stState 0
    | some s =>
      if ! d.locked ∨ ! s.isMounted ∨ s.dismount ∨ d.writeSessions s then d.adminDone tag stState 0
      else
        let d := d.modSpan slot fun s => { s with dismount := true, rebuild := none, closeReq := true }
        (d.shapeCancel slot).adminBegin { tag := tag, op := 0x32, b := slot, stage := 1, desc := x }

/-- DISMOUNT (R391). -/
def execDismount (desc : List Byte) (s : State) : Host.Outcome State Fault Refusal :=
  nextHd s fun hd => adminTake hd (.dismount desc) 0x32 desc fun hd => (hd.1, hd.2.doDismount desc)

/-- A transport is given up by its span set: the locate map is discarded (R247). -/
def Dev.unmount (d : Dev) (t : Nat) : Dev :=
  let d := d.releaseAll (d.wrAt t).shares 6
  (((d.releaseAll (d.rdAt t).ring 8).modRd t fun _ => {}).modWr t fun _ => {}).modTp t fun p => { p with mounted := none }

/-- A DISMOUNT goes on (R391): 1 rows end, 2 members write their flush regions and park, 3 EOD is written, 4 each
transport runs to LPOS 0 and holds. -/
def Dev.dismountStep (d : Dev) (c : AdminCmd) : Dev :=
  let tps := d.tpsOf c.b
  let stage (d : Dev) (n : Nat) : Dev := d.adminMod c.tag fun c => { c with stage := n, since := d.clk }
  match d.spanAt c.b with
  | none => d.adminEnd c.tag stOk 0
  | some s =>
    if c.stage = 1 then
      if s.rows.any fun r => r.2.st == .gathering || r.2.st == .writing then d
      else stage (tps.foldl (fun d t => d.modWr t fun w => if w.mode = .idle then w else { w with stopReq := true }) d) 2
    else if c.stage = 2 then
      let still (t : Nat) : Bool := (d.wrAt t).mode == .idle || ((d.wrAt t).mode == .parked && (d.motAt t).travel == .park)
      if tps.all still then stage (tps.foldl (fun d t => if (d.wrAt t).mode = .idle then d else d.writeEod t) d) 3 else d
    else if c.stage = 3 then
      if tps.all d.volsQuiet then
        stage (tps.foldl (fun d t =>
          let d := (d.rdStop t).modRd t fun r => { r with phase := .off }
          if d.motState t = msHold ∧ 0 < (d.motAt t).lpos then (d.motStart t true).modMot t fun m => { m with travel := .locate 0 }
          else (d.controlledStop t).modMot t fun m => { m with travel := .locate 0 }) d) 4
      else d
    else
      if tps.all fun t => d.motState t == msHold || d.motState t == msIdle || d.motState t == msStartFailed then
        let d := tps.foldl Dev.unmount d
        let d := d.modSpan c.b fun s => { s with
          dismount := false, writing := false, full := false, members := s.members.map fun m => { m with mounted := false, write := false } }
        d.adminEnd c.tag stOk 0
      else d

/-! ### At the boundaries -/

/-- Admin commands in progress go on; during a firmware activation they are held (R90, R394). -/
def Dev.adminTick (d : Dev) : Dev :=
  if d.ctl.activating.isSome ∨ ! d.coresRun then d
  else d.ctl.admin.foldl (fun d c =>
    if c.op = 0x22 then d.rebuildStep c
    else if c.op = 0x30 then d.initStep c
    else if c.op = 0x31 then d.mountStep c
    else if c.op = 0x32 then d.dismountStep c
    else d) d

/-- A rebuild's transport is mounted again after an interruption (R319): its volume has to be the replacement. -/
def Dev.rebuildMount (d : Dev) (slot : Nat) (r : Rebuild) : Dev :=
  let t := r.tp
  if r.resume ∧ d.tpUsable t ∧ d.volsRead t ∧ d.volsQuiet t ∧ d.flag Fld.tpLinkStatOwner t ∧ ((d.tpAt t).volRec.map volId) = some r.vol then
    ((d.modTp t fun p => { p with mounted := some (slot, r.member, true) }).tapeStart t).modSpan slot fun s => { s with rebuild := s.rebuild.map fun r => { r with resume := false } }
  else d

/-- A rebuild's cursor starts once end of data has been found on the replacement (R317). -/
def Dev.rebuildReady (d : Dev) (slot : Nat) : Dev :=
  match (d.spanAt slot).bind (·.rebuild) with
  | some r =>
    if r.ready then d
    else if (d.tpAt r.tp).mounted.isNone then d.rebuildMount slot r
    else
      let d := d.seekEod r.tp r.next
      if d.eodKnown r.tp then
        (d.parkToWrite r.tp).modSpan slot fun s => { s with rebuild := s.rebuild.map fun x => { x with ready := true, next := max x.next (d.wrAt r.tp).eod } }
      else d
  | none => d

end Sys2Proof.Machine
end

