-- ==== Sys2Proof/Machine/Control.lean ====
section
/-! DEFINITION. The control plane (R376 to R398): register writes and their boundary, doorbells and rings, MSI-X, set-up, boot
and firmware, overruns (R16 to R21), the control cores' window (R24) and the function level reset (R395). -/

namespace Sys2Proof.Machine

/-! ### MSI-X (R388, R482) -/

/-- Vectors. -/
def vectors : Nat := 2048
/-- BAR0 offset of the MSI-X table. -/
def msixTable : Nat := 0x03000000

/-- A write of a table word: the fourth word of an entry holds its mask, and unmasking sends a pending message. -/
def Dev.msixWrite (d : Dev) (word : Nat) (v : Word32) : Dev :=
  let v' : Word32 := if word % 4 = 3 then v &&& 1#32 else v
  let d : Dev := { d with ctl := { d.ctl with msixWords := tputD d.ctl.msixWords word (if word % 4 = 3 then 1#32 else 0#32) v' } }
  let vec := word / 4
  if d.vecMasked vec ∨ ! d.ctl.msixPend.contains vec then d
  else ({ d with ctl := { d.ctl with msixPend := d.ctl.msixPend.filter (· != vec) } } : Dev).emit (.msix vec)

/-- MSIX_VECTOR_UNMASK (R388): the vector's mask bit is cleared; its message follows if its pending bit is set. -/
def execMsixVectorUnmask (vec : Nat) (s : State) : Host.Outcome State Fault Refusal :=
  nextDev s fun d => if vec < vectors then d.msixWrite (4 * vec + 3) 0#32 else d

/-- The ticks after the first pending completion (R398). -/
def Dev.coalTicks (d : Dev) (r : Nat) : Nat := d.fld1 Fld.pciRingIrqCoalTicks r

/-- MSIX_COALESCE_TIMEOUT (R388): COAL_TICKS have passed since the first pending completion. -/
def execMsixCoalesceTimeout (ring : Nat) (s : State) : Host.Outcome State Fault Refusal :=
  nextDev s fun d =>
    let g := d.ringAt ring
    if ring < 256 ∧ 0 < g.pend ∧ ! d.stalls blkPci 0 0 ∧ g.pendSince + d.coalTicks ring ≤ d.clk then
      (d.modRing ring fun g => { g with pend := 0 }).sendMsix (d.fld Fld.pciRingCfgVec ring)
    else d

/-! ### Register writes (R4, R12, R377, R481) -/

/-- The end of BAR0 (R376). -/
def bar0End : Nat := 0x04000000

/-- REGISTER_WRITE (R12): it takes effect at the next boundary; the MSI-X structures follow the PCIe rules at once. -/
def execRegisterWrite (offset : Nat) (value : BitVec 32) (s : State) : Host.Outcome State Fault Refusal :=
  nextDev s fun d =>
    if offset % 4 ≠ 0 ∨ bar0End ≤ offset then d
    else if msixTable ≤ offset ∧ offset < msixTable + 16 * vectors then d.msixWrite ((offset - msixTable) / 4) value
    else if (regAt offset).isSome then d.queueWrite offset value
    else d

/-- ETH_MODE_WRITE (R485): a write of ETH_GRPg_CFG. -/
def execEthModeWrite (group : Nat) (value : BitVec 32) (s : State) : Host.Outcome State Fault Refusal :=
  nextDev s fun d => if group < 4 then d.queueWrite (RegId.ethGrpCfg.offset group) value else d

/-- FAB_LINK_CFG_WRITE (R427): a write of FABn_CFG. -/
def execFabLinkCfgWrite (port : Nat) (value : BitVec 32) (s : State) : Host.Outcome State Fault Refusal :=
  nextDev s fun d => if port < 8 then d.queueWrite (RegId.fabPortCfg.offset port) value else d

/-- AVS_OFFSET_WRITE (R466): a write of HLT_AVS_STAT. -/
def execAvsOffsetWrite (value : BitVec 32) (s : State) : Host.Outcome State Fault Refusal :=
  nextDev s fun d => d.queueWrite (RegId.hltAvsStat.offset 0) value

/-- KEK_LOAD (R122): a write of 1 to CIP_KEK_CTL.LOAD. -/
def execKekLoad (s : State) : Host.Outcome State Fault Refusal := nextDev s fun d => d.queueWrite (RegId.cipKekCtl.offset 0) 1#32

/-- SETUP_LOCK (R389): a write of 1 to CTL_SETUP_LOCK.LOCK. -/
def execSetupLock (s : State) : Host.Outcome State Fault Refusal := nextDev s fun d => d.queueWrite (RegId.ctlSetupLock.offset 0) 1#32

/-- BOOT_GO (R389): a write of 1 to CTL_BOOT_CTL.GO. -/
def execBootGo (s : State) : Host.Outcome State Fault Refusal := nextDev s fun d => d.queueWrite (RegId.ctlBootCtl.offset 0) 1#32

/-- TICK_LO_READ (R9): bits 31:0 are returned, and bits 47:32 latched into HLT_TICK_HI. -/
def execTickLoRead (s : State) : Host.Outcome State Fault Refusal :=
  nextDev s fun d =>
    (d.setFld Fld.hltTickHiCount 0 (d.tick.toNat / 2 ^ 32)).emit (.readData (leBytes 4 (d.tick.toNat % 2 ^ 32)))

/-- BAD_BAR_ACCESS (R377): a read returns 0xFF in every enabled byte, a write is discarded and counted. -/
def execBadBarAccess (write : Bool) (bytes : Nat) (s : State) : Host.Outcome State Fault Refusal :=
  nextDev s fun d => if write then d.bump Fld.pciErrCntBar else d.emit (.readData (List.replicate bytes 0xFF#8))

/-! ### What a register write does at its boundary -/

/-- Bits of ring r's base registers that read 0, and the pair's quiescing (R392, R398). -/
def Dev.ringBase (d : Dev) (r : RegId) (i : Nat) (low : Bool) (v : Word32) : Dev :=
  if d.flag Fld.pciRingCfgEn i then d else d.storeReg r i (if low then v &&& 0xFFFFFFC0#32 else v)

/-- PCI_RINGr_CFG (R380, R383, R392): pair 0 stays KIND 0; KIND and SIZE stand while EN is 1; EN set starts the rings. -/
def Dev.ringCfgApply (d : Dev) (r : Nat) (v : Word32) : Dev :=
  let on := d.flag Fld.pciRingCfgEn r
  let kind := d.fld Fld.pciRingCfgKind r
  let size := d.fld Fld.pciRingCfgSize r
  let d := d.storeReg .pciRingCfg r v
  let d := if on then (d.setFld Fld.pciRingCfgKind r kind).setFld Fld.pciRingCfgSize r size else d
  let d := if r = 0 then d.setFld Fld.pciRingCfgKind 0 0 else d
  if ! on ∧ d.flag Fld.pciRingCfgEn r then
    d.modRing r fun g => { g with sqHead := 0, sqTail := 0, cqHead := 0, cqTail := 0, phase := true, pend := 0, sqDb := none, cqDb := none, poison := 0 }
  else d

/-- The key-encryption key as CIP_KEK_W0 to W7 hold it (R122). -/
def Dev.kekBytes (d : Dev) : List Byte := d.dru.kekW.flatMap fun w => leBytes 4 w.toNat

/-- CTL_BOOT_CTL.GO (R389, R398): the image is read while the cores wait. -/
def Dev.bootGo (d : Dev) : Dev :=
  let st := d.fld Fld.ctlBootStatState
  if st = 0 ∨ st = 3 then
    (d.setFld Fld.ctlBootStatState 0 1).emit
      (.hostRead (BitVec.ofNat 64 (d.fld Fld.ctlBootAddrLoAddr + 2 ^ 32 * d.fld Fld.ctlBootAddrHiAddr)) (d.fld Fld.ctlBootLenBytes))
  else d

/-- FAB_CFG (R404, R427): a change of ADDR is advertised. -/
def Dev.fabAddrApply (d : Dev) (v : Word32) : Dev :=
  let d' := d.storeReg .fabCfg 0 v
  if d.fabAddr = d'.fabAddr then d' else d'.lsaChanged

/-- FABn_CFG (R427): a change of EN or RATE takes the link down; a change of COST is advertised. -/
def Dev.fabCfgApply (d : Dev) (n : Nat) (v : Word32) : Dev :=
  let hard (d : Dev) := (d.fld Fld.fabPortCfgEn n, d.fld Fld.fabPortCfgRate n)
  let d' := d.storeReg .fabPortCfg n v
  let d' := if hard d = hard d' then d' else d'.linkDown n 2
  if d.fld Fld.fabPortCfgCost n = d'.fld Fld.fabPortCfgCost n then d' else d'.lsaChanged

/-- FAB_TUNj_CFG (R403): a tunnel that is no longer enabled, or stands on another port or peer, goes down. -/
def Dev.tunCfgApply (d : Dev) (j : Nat) (v : Word32) : Dev :=
  let hard (d : Dev) := (d.fld Fld.fabTunCfgEn j, d.fld Fld.fabTunCfgPort j, d.fld Fld.fabTunCfgPeer j)
  let d' := d.storeReg .fabTunCfg j v
  let d' := if hard d = hard d' then d' else d'.linkDown (8 + j) 2
  if d.fld Fld.fabTunCfgCost j = d'.fld Fld.fabTunCfgCost j then d' else d'.lsaChanged

/-- TPn_WR_STAT (R227): FAILING is cleared by a write of 0 when no cartridge is mounted. -/
def Dev.wrStatApply (d : Dev) (t : Nat) (v : Word32) : Dev :=
  if v.getLsbD 0 ∨ (d.tpAt t).mounted.isSome then d else d.setFlag Fld.tpWrStatFailing t false

/-- HLT_AVS_STAT (R465): an OFFSET above 10 acts as 10; HLT walks to it in steps (R466). -/
def Dev.avsApply (d : Dev) (v : Word32) : Dev := d.setFld Fld.hltAvsStatOffset 0 (min 10 (v.toNat % 16))

/-- A register write at its boundary (R12). -/
def Dev.regApply (d : Dev) (w : Nat × Word32) : Dev :=
  let v := w.2
  match regAt w.1 with
  | none => d
  | some (r, i) =>
    match r with
    | .queQCfg => d.queCfgApply i v
    | .queQWm => if 0xF9 ≤ i ∧ i < 0xFF then d else d.storeReg r i v
    | .queQCtl => if 0xF9 ≤ i ∧ i < 0xFF ∨ ! v.getLsbD 0 then d else d.modQue i fun q => { q with flush := true }
    | .motCmd => d.motCommand i (v.toNat % 8) (v.getLsbD 3)
    | .tpRetireLo => d.retireApply i false v
    | .tpRetireHi => d.retireApply i true v
    | .tpWrStat => d.wrStatApply i v
    | .cipKekW => if d.locked then d else { d with dru := { d.dru with kekW := lmod d.dru.kekW i fun _ => v } }
    | .cipKekCtl =>
      if d.locked ∨ ! v.getLsbD 0 then d
      else { d.setFlag Fld.cipKekCtlLoaded 0 true with hlt := { (d.setFlag Fld.cipKekCtlLoaded 0 true).hlt with kek := some d.kekBytes } }
    | .ctlSetupLock =>
      if d.locked ∨ ! v.getLsbD 0 then d
      else { d.setFlag Fld.ctlSetupLockLock 0 true with ctl := { (d.setFlag Fld.ctlSetupLockLock 0 true).ctl with lockPending := true } }
    | .ctlBootCtl => if v.getLsbD 0 then d.bootGo else d
    | .ctlBootAddrLo => d.storeReg r i (v &&& 0xFFFFF000#32)
    | .pciRingCfg => d.ringCfgApply i v
    | .pciRingSqLo | .pciRingCqLo | .pciRingCapLo => d.ringBase r i true v
    | .pciRingSqHi | .pciRingCqHi | .pciRingCapHi => d.ringBase r i false v
    | .ethGrpCfg => d.ethGrpApply i v
    | .ethPortCfg => d.ethPortApply i v
    | .fabCfg => d.fabAddrApply v
    | .fabPortCfg => d.fabCfgApply i v
    | .fabTunCfg => d.tunCfgApply i v
    | .hltAvsStat => d.avsApply v
    | _ => d.storeReg r i v

/-- A refusal of this tick sets HLT_TEST_STAT.REFUSED, whatever software writes to the bit in the same tick (R13, R442). -/
def Dev.testRefused (d : Dev) : Dev :=
  if d.age.refused then ({ d with age := { d.age with refused := false } } : Dev).setFlag Fld.hltTestStatRefused 0 true else d

/-- The register writes of a tick take effect, in arrival order (R12). -/
def Dev.regBoundary (d : Dev) : Dev := (d.regw.foldl Dev.regApply { d with regw := [] }).testRefused

/-- Pools are created at the boundary after the lock (R350, R351, R389). -/
def Dev.lockBoundary (d : Dev) : Dev :=
  if d.ctl.lockPending ∧ ! d.pool.made then
    let ps := poolsCreate ((List.range 5).map fun p => d.fld Fld.poolPCfgCount p)
    let d : Dev := { d with pool := { d.pool with made := true, pools := ps }, ctl := { d.ctl with lockPending := false } }
    (List.range 5).foldl (fun d p => d.setFld Fld.poolPStatCreated p (d.poolAt p).created) d
  else d

/-! ### Doorbells (R378, R379) -/

/-- SQ_DOORBELL (R378): offset 0 of a page is SQ_DB; a bad value, or a write elsewhere in the page, is discarded and counted. -/
def execSqDoorbell (ring off : Nat) (value : BitVec 32) (poisoned : Nat) (s : State) : Host.Outcome State Fault Refusal :=
  nextDev s fun d =>
    if 256 ≤ ring ∨ 4096 ≤ off ∨ off % 4 ≠ 0 ∨ off = 4 then d
    else if off ≠ 0 ∨ d.ringSize ring ≤ value.toNat then d.bump Fld.pciErrCntDoorbell
    else d.modRing ring fun g => { g with sqDb := some value.toNat, poison := g.poison + poisoned }

/-- CQ_DOORBELL (R378). -/
def execCqDoorbell (ring : Nat) (value : BitVec 32) (s : State) : Host.Outcome State Fault Refusal :=
  nextDev s fun d =>
    if 256 ≤ ring then d
    else if d.ringSize ring ≤ value.toNat then d.bump Fld.pciErrCntDoorbell
    else d.modRing ring fun g => { g with cqDb := some value.toNat }

/-- The doorbells of one pair at a boundary (R378, R381): SQ_DB is the tail of an input pair and the head of an output pair. -/
def Dev.ringDoorbells (d : Dev) (r : Nat) : Dev :=
  let input := decide (d.ringKind r < 2)
  d.modRing r fun g => { g with
    sqTail := if input then g.sqDb.getD g.sqTail else g.sqTail
    sqHead := if input then g.sqHead else g.sqDb.getD g.sqHead
    cqHead := g.cqDb.getD g.cqHead, sqDb := none, cqDb := none }

/-- A submission descriptor that arrived poisoned is answered with POISON and TAG 0, and counted (R379). -/
def Dev.poisonTake (d : Dev) (r : Nat) : Nat → Dev
  | 0 => d
  | n + 1 =>
    if 0 < (d.ringAt r).poison ∧ d.ringKind r < 2 ∧ d.ringMay r then
      let d := ((d.ringNext r).modRing r fun g => { g with poison := g.poison - 1 }).bump Fld.pciErrCntPoison
      let d := if r = 0 then d.adminDone 0 stPoison 0
        else d.postCpl r { kind := 1, tag := 0, status := stPoison, count := 0, info := 0, cap := responseBytes stPoison 0 0 0 0 0 0, item := [] }
      d.poisonTake r n
    else d

/-- Doorbells and poisoned descriptors at a boundary. -/
def Dev.doorbellBoundary (d : Dev) : Dev :=
  (d.ctl.rings.map (·.1)).foldl (fun (d : Dev) r => let d := d.ringDoorbells r; d.poisonTake r (d.ringAt r).poison) d

/-! ### Completions and events that wait (R384) -/

/-- COMPLETION_POST (R384): the oldest completion that waited is written once its ring has room. -/
def execCompletionPost (ring : Nat) (s : State) : Host.Outcome State Fault Refusal :=
  nextDev s fun d =>
    match (d.ringAt ring).wait with
    | c :: cs =>
      if d.ringEn ring ∧ 1 ≤ d.cqRoom ring ∧ ! d.stalls blkPci 0 0 then
        (d.modRing ring fun g => { g with wait := cs }).writeCpl ring (d.ringAt ring).sqHead c
      else d
    | [] => d

/-- EVENT_POST (R384): the oldest event goes to the event ring; a gap completion goes before an event that follows dropped
ones. -/
def execEventPost (s : State) : Host.Outcome State Fault Refusal :=
  nextDev s fun d =>
    match d.ctl.evq, d.outRing 2 with
    | e :: es, some r =>
      if d.stalls blkPci 0 0 then d
      else if 0 < e.before then
        if 1 ≤ d.cqRoom r then
          (({ d with ctl := { d.ctl with evq := { e with before := 0 } :: es } } : Dev)).writeGap r e.before
        else d
      else if 1 ≤ d.sqRoom r ∧ 1 ≤ d.cqRoom r then (({ d with ctl := { d.ctl with evq := es } } : Dev)).writeItem r [eventBytes e]
      else d
    | _, _ => d

/-! ### Capsules and descriptors with an unlisted opcode (R385, R488) -/

/-- CAPSULE_OPCODE_INVALID (R488): an opcode that R37 does not list, or PUSH-DATA on RoCE; on the admin ring one that R385 does
not list. -/
def execCapsuleOpcodeInvalid (src : Src) (cap : List Byte) (s : State) : Host.Outcome State Fault Refusal :=
  nextHd s fun hd =>
    if src = .ring 0 then adminTake hd (.capsuleOpcodeInvalid src cap) 0xFF cap id else takeCapsule hd src cap 0xFF fun d _ _ => d

/-! ### Boot and firmware (R389, R393, R394) -/

/-- The longest image. -/
def imageMax : Nat := 8388608

/-- A cellar record whose CRC passes (R432). -/
def recOk (b : List Byte) : Bool := b.length == 256 && leAt b 0 1 != 0 && b == withCrc32c (b.take 252)

/-- The steps of voltage offset that the latest REPLAN record of the voltage kind names (R440). -/
def Dev.replanOffset (d : Dev) : Nat :=
  let recs := d.hlt.mram.filter fun x => recOk x.2 && leAt x.2 3 1 == 0xC1 && leAt x.2 32 1 == 1
  (recs.foldl (fun (acc : Option (Nat × Nat)) x =>
    match acc with
    | none => some (leAt x.2 4 4, leAt x.2 40 4)
    | some a => if a.1 < leAt x.2 4 4 then some (leAt x.2 4 4, leAt x.2 40 4) else some a) none).elim 0 (·.2)

/-- BOOT_LOADED (R389): the image has come from host memory and is accepted or rejected; after a cold reset the cores restore
the voltage offset (R440). -/
def execBootLoaded (image : List Byte) (s : State) : Host.Outcome State Fault Refusal :=
  nextDev s fun d =>
    if d.fld Fld.ctlBootStatState ≠ 1 then d
    else if image.length = d.fld Fld.ctlBootLenBytes ∧ image.length ≤ imageMax ∧ Config.imageOk image then
      ((d.setFld Fld.ctlBootStatState 0 2).setFld Fld.ctlFwVerVersion 0 (Config.imageVersion image).toNat).setFld Fld.hltAvsStatOffset 0 (min 10 d.replanOffset)
    else d.setFld Fld.ctlBootStatState 0 3

/-- FW-STAGE acts (R385): OFFSET and LEN in pages, up to 8 MiB. -/
def Dev.doFwStage (d : Dev) (x segment : List Byte) : Dev :=
  let tag := capTag x
  let off := leAt x 8 4
  let len := leAt x 12 4
  if off % 4096 ≠ 0 ∨ len % 4096 ≠ 0 ∨ imageMax < off + len then d.adminDone tag stFieldInvalid 0
  else
    let put (t : Table (List Byte)) (i : Nat) : Table (List Byte) := tput t (off / 4096 + i) (padTo 4096 (slice segment (4096 * i) 4096))
    ({ d with ctl := { d.ctl with staged := (List.range (len / 4096)).foldl put d.ctl.staged } } : Dev).adminDone tag stOk 0

/-- FW_STAGE (R393). -/
def execFwStage (desc : List Byte) (segment : List Byte) (s : State) : Host.Outcome State Fault Refusal :=
  nextHd s fun hd => adminTake hd (.fwStage desc segment) 0x40 desc fun hd => (hd.1, hd.2.doFwStage desc segment)

/-- The staged image: its pages from the first on. -/
def Dev.stagedImage (d : Dev) : List Byte := d.ctl.staged.flatMap (·.2)

/-- FW-ACTIVATE acts (R393): the whole image is checked before anything changes. -/
def Dev.doFwActivate (d : Dev) (x : List Byte) : Dev :=
  let tag := capTag x
  let img := d.stagedImage
  let v := BitVec.ofNat 32 (leAt x 8 4)
  if img.length ≤ imageMax ∧ Config.imageOk img ∧ Config.imageVersion img = v then
    ({ d with ctl := { d.ctl with activating := some (v, tag, d.clk) } } : Dev).adminBegin { tag := tag, op := 0x41, desc := x }
  else d.adminDone tag stImageInvalid 0

/-- FW_ACTIVATE (R393). -/
def execFwActivate (desc : List Byte) (s : State) : Host.Outcome State Fault Refusal :=
  nextHd s fun hd => adminTake hd (.fwActivate desc) 0x41 desc fun hd => (hd.1, hd.2.doFwActivate desc)

/-- A held admin command acts (R90, R394). -/
def adminRun (i : Instr) (hd : Hbm × Dev) : Hbm × Dev :=
  let (h, d) := hd
  match i with
  | .createConn x => (h, d.doCreateConn x)
  | .destroyConn x => (h, d.doDestroyConn x)
  | .bindRing x => (h, d.doBindRing x)
  | .setTenant x => (h, d.doSetTenant x)
  | .fill x => (h, d.doFill x)
  | .spanLoad x y => (h, d.doSpanLoad x y)
  | .spanMap x y => (h, d.doSpanMap x y)
  | .rebuild x => (h, d.doRebuild x)
  | .shapeChangeStart x y => (h, d.doShapeStart x y)
  | .shapeChangeCancel x => (h, d.doShapeCancel x)
  | .spanListLoss x => (h, d.doListLoss x)
  | .spanListSuspect x => (h, d.doListSuspect x)
  | .spanListRowMap x => (h, d.doListMap x)
  | .spanUnload x => (h, d.doSpanUnload x)
  | .initCartridge x => (h, d.doInitCartridge x)
  | .mount x => (h, d.doMount x)
  | .dismount x => (h, d.doDismount x)
  | .fwStage x y => (h, d.doFwStage x y)
  | .fwActivate x => (h, d.doFwActivate x)
  | .cellarRead x => (h, d.doCellarRead x)
  | _ => hd

/-- The admin commands that an activation held resume in order, up to one that starts another activation. -/
def resumeHeld : Nat → Hbm × Dev → Hbm × Dev
  | 0, hd => hd
  | n + 1, hd =>
    match hd.2.ctl.held with
    | [] => hd
    | i :: is =>
      if hd.2.ctl.activating.isSome then hd
      else
        let d := hd.2
        let d : Dev := { d with ctl := { d.ctl with held := is, mute := decide (0 < d.ctl.heldQuiet), heldQuiet := d.ctl.heldQuiet - 1 } }
        let (h, d) := adminRun i (hd.1, d)
        resumeHeld n (h, { d with ctl := { d.ctl with mute := false } })

/-- An activation ends (R394). -/
def activationEnd (hd : Hbm × Dev) : Hbm × Dev :=
  let d : Dev := { hd.2 with ctl := { hd.2.ctl with activating := none } }
  resumeHeld d.ctl.held.length (hd.1, d)

/-- The ticks within which an image starts. -/
def activateTicks : Nat := 2500

/-- FW_ACTIVATED (R394): every core has reached its checkpoint, and the new image starts. -/
def execFwActivated (s : State) : Host.Outcome State Fault Refusal :=
  nextHd s fun hd =>
    match hd.2.ctl.activating with
    | some (v, tag, t) =>
      if hd.2.clk ≤ t + activateTicks then
        let old := hd.2.fld Fld.ctlFwVerVersion
        let d := (hd.2.setFld Fld.ctlFwVerVersion 0 v.toNat).postBoth 0x15 blkCtl 0 [item old, item v.toNat]
        activationEnd (hd.1, d.adminEnd tag stOk v.toNat)
      else hd
    | none => hd

/-- FW_ACT_FAIL (R394): a core has missed its checkpoint by the 2,500th tick. The manual gives the command's completion no
status: a free value other than 0. -/
def execFwActFail (core : Nat) (s : State) : Host.Outcome State Fault Refusal :=
  nextHd s fun hd =>
    match hd.2.ctl.activating with
    | some (v, tag, t) =>
      if t + activateTicks ≤ hd.2.clk ∧ core < 16 then
        let d := hd.2.postBoth 0x16 blkCtl 0 [item v.toNat, item core]
        activationEnd (hd.1, (d.adminEnd tag (1 + d.fresh.toNat % 255) 0).spend)
      else hd
    | none => hd

/-! ### The control cores' window (R24) -/

/-- CTL_WINDOW (R24): the access has no effect, a read returns zeros, and HLT writes a record. -/
def execCtlWindow (core : Nat) (addr : Nat) (s : State) : Host.Outcome State Fault Refusal :=
  nextDev s fun d => (d.cellar blkCtl 0 0xC6 (itemsPayload [item core, item addr])).emit (.readData (zeros 4))

/-! ### Overruns (R16 to R21) -/

/-- A motion controller's second overrun in consecutive ticks (R20): controlled stop and MOT_DOUBLE_OVERRUN. -/
def Dev.motOverrun (d : Dev) (t : Nat) : Dev :=
  let was := (d.ovr.lastMot.getD t none)
  let d : Dev := { d with ovr := { d.ovr with lastMot := lmod d.ovr.lastMot t fun _ => some d.clk } }
  match was with
  | some k =>
    if k + 1 = d.clk then
      (d.cellar blkMot t 0xC8 (itemsPayload [item t, item (d.tick - 1).toNat, item d.tick.toNat, item (d.motState t)])).controlledStop t
    else d
  | none => d

/-- OVERRUN (R16 to R20): the step of a block's instance that `step` codes is counted, reported and posted, and the block commits
nothing of it at the coming boundary. A code that the block's chapter does not give names no step. -/
def execOverrun (block inst : Nat) (step : BitVec 8) (excess : BitVec 32) (deferred : BitVec 16) (s : State) : Host.Outcome State Fault Refusal :=
  nextDev s fun d =>
    if (ovrCounter block inst).isNone ∨ ! stepNamed block step.toNat then d
    else
      let d := d.countOverrun block inst step.toNat excess.toNat deferred.toNat
      let d : Dev := { d with ovr := { d.ovr with stalled := (block, inst, step.toNat) :: d.ovr.stalled } }
      if block = blkMot then d.motOverrun inst else if block = blkSch then d.schLate else d

/-! ### Sessions closed by a reset (R89) -/

/-- The ordinal below which every record of a session has a chunk that `p` accepts, or will never reach tape. -/
def Dev.closedBelow (d : Dev) (n : Nat) (p : ChunkSt → Bool) : Nat :=
  ((d.sesChunks n).filterMap fun c =>
    if p c.2.st ∨ c.2.st = .lost ∨ c.2.st = .dropped then none else ((c.2.pieces.filter fun x => ! x.void).head?).map (·.ord)).foldl min (d.takenBelow n)

/-- Every chunk of a closed session is decided. -/
def Dev.sesDecided (d : Dev) (n : Nat) : Bool :=
  (d.sesChunks n).all (fun c => c.2.st.decided) && (d.sesWrites n).all fun c => c.2.wr.ended

/-- SESSION_CLOSED (R89, R397). -/
def Dev.postClosed (d : Dev) (n : Nat) (s : Session) : Dev :=
  let a := if s.read then 0 else d.closedBelow n (· == .onTape)
  let b := if s.read then 0 else d.closedBelow n fun st => st.decided
  d.postEvent 0x10 blkSes 0 [item (n % 2 ^ 24), item s.tenant, item a, item b, item (b2n s.read)]

/-- Reports that have become possible. -/
def Dev.closedTick (d : Dev) : Dev :=
  let due := d.ses.sessions.filter fun x => x.2.report && d.sesDecided x.1
  due.foldl (fun d x => (d.postClosed x.1 x.2).modSes x.1 fun s => { s with report := false }) d

/-! ### Function level reset (R86, R395) -/

/-- One record ring's commands and sessions end as those of an aborted connection, and its windows are freed. -/
def Dev.flrRing (d : Dev) (r : Nat) : Dev :=
  let key := 16384 + r
  let open_ := (d.ses.sessions.filter fun s => s.2.src == key && ! s.2.dead).map (·.1)
  let d := ((d.orphanAll key).dropSessionsOf key).freeDraining key
  let d := open_.foldl (fun d n => d.modSes n fun s => { s with report := true }) d
  { d with rte := { d.rte with pushes := d.rte.pushes.filter (·.ring != r), dueq := d.rte.dueq.filter (·.src != key) } }

/-- FUNCTION_LEVEL_RESET (R395). -/
def execFunctionLevelReset (s : State) : Host.Outcome State Fault Refusal :=
  nextDev s fun d =>
    let d := ((List.range 256).filter fun r => d.ringKind r == 1).foldl Dev.flrRing d
    let d := (List.range 256).foldl (fun d r => d.setFlag Fld.pciRingCfgEn r false) d
    let rings := d.ctl.rings.map fun (r, g) => (r, { g with wait := if d.ringKind r < 2 then [] else g.wait, pend := 0, sqDb := none, cqDb := none, poison := 0 })
    { d with ctl := { d.ctl with
        rings := rings, msixWords := [], msixPend := [], admin := d.ctl.admin.map fun c => { c with quiet := true }, heldQuiet := d.ctl.held.length } }

end Sys2Proof.Machine
end

