-- ==== Sys2Proof/Machine/Health.lean ====
section
/-! DEFINITION. The always-on domain (R428 to R448, R464 to R478): the cellar log, SMBus, ageing measurements and re-planning,
boundary scan, the sideband chain, temperature and the core voltage. -/

namespace Sys2Proof.Machine

/-! ### The cellar log (R431 to R437) -/

/-- The first slot of the main region, and slots in all (R431). -/
def mainFirst : Nat := 4096
/-- Slots of the cellar MRAM. -/
def cellarSlots : Nat := 65536

/-- Store a slot. -/
def Dev.mramPut (d : Dev) (i : Nat) (b : List Byte) : Dev := { d with hlt := { d.hlt with mram := tput d.hlt.mram i b } }

/-- A record of the same BLOCK, INST and CODE stands in the pinned region (R434). -/
def Dev.pinnedSame (d : Dev) (r : CellarRec) : Bool :=
  d.hlt.mram.any fun x => decide (x.1 < mainFirst) && leAt x.2 0 1 == 5 && leAt x.2 1 1 == r.block && leAt x.2 2 1 == r.inst && leAt x.2 3 1 == r.code

/-- FLAGS of a copy (R432). -/
def Dev.recFlags (d : Dev) (pinned : Bool) : Nat := b2n pinned + 2 * b2n d.pins.pfTaken

/-- A completion of KIND 0x05 reports the copies that were dropped, once the cellar ring has room for it (R384). -/
def Dev.copyGap (d : Dev) : Dev :=
  match d.outRing 4 with
  | some r =>
    if 0 < d.hlt.copyDrop ∧ 1 ≤ d.cqRoom r ∧ ! d.coreHeld then (d.writeGap r d.hlt.copyDrop) |> fun d => { d with hlt := { d.hlt with copyDrop := 0 } }
    else d
  | none => d

/-- A copy of a record written goes to the cellar ring, in 4 entries; a copy that finds the ring full is dropped (R380, R384). While the
core is held in reset, or no such ring is enabled, there is none. -/
def Dev.copyRec (d : Dev) (bs : List Byte) : Dev :=
  match d.outRing 4 with
  | some r =>
    let d := d.copyGap
    if d.coreHeld then d
    else if 4 ≤ d.sqRoom r ∧ 1 ≤ d.cqRoom r then d.writeItem r (pieces 64 bs)
    else { d with hlt := { d.hlt with copyDrop := d.hlt.copyDrop + 1 } }
  | none => d

/-- Write a record to the main region (R431), with its copy; its pinned copy is due when it is the first of its kind (R434). -/
def Dev.writeRec (d : Dev) (r : CellarRec) : Dev :=
  let n := d.fld Fld.hltCellarStatNext
  let pin := decide (d.fld Fld.hltCellarStatPinned < mainFirst) && ! d.pinnedSame r
  let bs := cellarBytes r (d.recFlags false) (d.fld Fld.hltBootCntCount)
  let d := ((d.mramPut n bs).setFld Fld.hltCellarStatNext 0 (if n + 1 < cellarSlots then n + 1 else mainFirst)).copyRec bs
  let d := if r.block = blkSpn ∧ r.code = 0xC0 then d.journalShown r.payload else d
  if pin then { d with hlt := { d.hlt with pinDue := some r } } else d

/-- Write the pinned copy that is due. -/
def Dev.writePinned (d : Dev) (r : CellarRec) : Dev :=
  let n := d.fld Fld.hltCellarStatPinned
  let d := (d.mramPut n (cellarBytes r (d.recFlags true) (d.fld Fld.hltBootCntCount))).setFld Fld.hltCellarStatPinned 0 (n + 1)
  { d with hlt := { d.hlt with pinDue := none } }

/-- A feed item as the record that it carries (R435). -/
def feedRec (body : List Byte) : CellarRec :=
  let b := feedRecord body
  { block := leAt b 1 1, inst := leAt b 2 1, code := leAt b 3 1, seq := BitVec.ofNat 32 (leAt b 4 4), tick := BitVec.ofNat 48 (leAt b 8 6)
    payload := slice b 32 220 }

/-- The next record to write: one ahead of the feed, or the feed's next item; a gap marker becomes a FEED_GAP record (R435). -/
def Dev.nextRec (d : Dev) : Option (Dev × CellarRec) :=
  match d.hlt.ahead with
  | r :: rs => some ({ d with hlt := { d.hlt with ahead := rs } }, r)
  | [] =>
    match d.queHead 0xF8 with
    | none => none
    | some it =>
      let d := d.quePop 0xF8
      if leAt it.body 0 1 = 2 then
        let (d, r) := d.takeRec (leAt it.body 1 1) (leAt it.body 2 1) 0xC5 (itemsPayload [item (leAt it.body 28 4)])
        some (d, { r with tick := BitVec.ofNat 48 (leAt it.body 8 6) })
      else some (d, feedRec it.body)

/-- Writes of one tick (R435). -/
def cellarMax : Nat := 8

/-- CELLAR_WRITE: up to `n` writes, pinned copies among them; true when none was left to spare. -/
def Dev.cellarGo : Nat → Dev → Dev × Bool
  | 0, d => (d, true)
  | n + 1, d =>
    match d.hlt.pinDue with
    | some r => Dev.cellarGo n (d.writePinned r)
    | none =>
      match d.nextRec with
      | some (d, r) => Dev.cellarGo n (d.writeRec r)
      | none => (d, false)

/-- The records that HLT writes in a tick (R435): none during the boot scan. BUSY_TICKS counts a tick of 8 writes that leaves
records waiting. -/
def Dev.cellarTick (d : Dev) : Dev :=
  if d.hlt.scanning then d
  else
    let (d, full) := Dev.cellarGo cellarMax d.copyGap
    if full ∧ (d.queAt 0xF8).items ≠ [] then d.bump Fld.hltCellarErrBusyTicks else d

/-- Slots of the main region in use. -/
def Dev.mainSlots (d : Dev) : List (Nat × List Byte) := d.hlt.mram.filter fun x => decide (mainFirst ≤ x.1) && leAt x.2 0 1 != 0

/-- Records that wait for the end of the scan take SEQ values that continue the log's (R432, R436). -/
def Dev.feedFrom (d : Dev) (base : Nat) : Dev :=
  let up (b : List Byte) : List Byte := if leAt b 0 1 = 5 then overwrite b 4 (leBytes 4 (leAt b 4 4 + base)) else b
  let d := d.modQue 0xF8 fun q => { q with items := q.items.map fun i => { i with body := up i.body } }
  { d with hlt := { d.hlt with seq := d.hlt.seq + BitVec.ofNat 32 base, ahead := d.hlt.ahead.map fun r => { r with seq := r.seq + BitVec.ofNat 32 base } } }

/-- CELLAR_SCAN_DONE (R436): writing continues at the slot after the record with the highest SEQ, and a BOOT record follows. -/
def execCellarScanDone (s : State) : Host.Outcome State Fault Refusal :=
  nextAon s fun d =>
    if ! d.hlt.scanning then d
    else
      let good := d.mainSlots.filter fun x => recOk x.2
      let bad := d.mainSlots.length - good.length
      let top := good.foldl (fun (acc : Option (Nat × Nat)) x => match acc with
        | none => some (leAt x.2 4 4, x.1)
        | some a => if a.1 < leAt x.2 4 4 then some (leAt x.2 4 4, x.1) else some a) none
      let next := top.elim mainFirst fun a => if a.2 + 1 < cellarSlots then a.2 + 1 else mainFirst
      let found := top.elim 0 (·.1)
      let d := (d.setFld Fld.hltCellarStatNext 0 next).setFld Fld.hltCellarErrBadSlots 0 (min 0xFFFF bad)
      let d := d.feedFrom (top.elim 0 fun a => a.1 + 1)
      let d : Dev := { d with hlt := { d.hlt with scanning := false, lastFound := found } }
      d.cellarAhead blkHlt 0 0xC4 (itemsPayload [item d.hlt.bootCause, item found, item bad])

/-! ### SMBus (R429, R430) -/

/-- SMB_STATUS (R430): 16 bytes. -/
def execSmbStatus (s : State) : Host.Outcome State Fault Refusal :=
  nextAon s fun d =>
    let b0 := b2n d.hlt.vcore + 2 * b2n d.hlt.resetN + 4 * b2n d.locked + 8 * d.fld Fld.ctlBootStatState
    d.emit (.smbData (leBytes 1 b0 ++ zeros 1 ++ leBytes 6 d.tick.toNat ++ leBytes 4 (d.fld Fld.hltBootCntCount)
      ++ leBytes 2 (d.fld Fld.hltCellarStatNext) ++ leBytes 2 (d.fld Fld.hltCellarStatPinned)))

/-- A write over SMBus: NACKed without effect when its PEC fails (R429). -/
def Dev.smbWrite (d : Dev) (pecOk : Bool) (f : Dev → Dev) : Dev := if pecOk then (f d).emit .smbAck else d.emit .smbNack

/-- SMB_CELLAR_SELECT (R430). -/
def execSmbCellarSelect (index : BitVec 16) (pecOk : Bool) (s : State) : Host.Outcome State Fault Refusal :=
  nextAon s fun d => d.smbWrite pecOk fun d => { d with hlt := { d.hlt with smbIndex := index.toNat, smbOff := 0 } }

/-- SMB_CELLAR_READ (R430): the next 32 bytes; after byte 255 the index advances, with wrap. -/
def execSmbCellarRead (s : State) : Host.Outcome State Fault Refusal :=
  nextAon s fun d =>
    let o := d.hlt.smbOff
    let last := decide (224 ≤ o)
    ({ d with hlt := { d.hlt with
        smbOff := if last then 0 else o + 32
        smbIndex := if last then (d.hlt.smbIndex + 1) % cellarSlots else d.hlt.smbIndex } } : Dev).emit (.smbData (slice (d.cellarRec d.hlt.smbIndex) o 32))

/-- SMB_RESET_WARM (R430): 0x5A requests a warm reset; the later of two requests in a tick counts. -/
def execSmbResetWarm (pecOk : Bool) (s : State) : Host.Outcome State Fault Refusal :=
  nextAon s fun d => d.smbWrite pecOk fun d => { d with pins := { d.pins with reqSmb := .warm } }

/-- SMB_RESET_COLD (R430): 0xA5 requests a cold reset. -/
def execSmbResetCold (pecOk : Bool) (s : State) : Host.Outcome State Fault Refusal :=
  nextAon s fun d => d.smbWrite pecOk fun d => { d with pins := { d.pins with reqSmb := .cold } }

/-- SMB_CLEAR_PIN (R430, R434): 0xC1 empties the pinned region, only while RESET_N is low. -/
def execSmbClearPin (value : BitVec 8) (pecOk : Bool) (s : State) : Host.Outcome State Fault Refusal :=
  nextAon s fun d => d.smbWrite pecOk fun d =>
    if value = 0xC1#8 ∧ ! d.hlt.resetN then
      ({ d with hlt := { d.hlt with mram := d.hlt.mram.filter fun x => decide (mainFirst ≤ x.1) } } : Dev).setFld Fld.hltCellarStatPinned 0 0
    else d

/-! ### Power-fail warning (R437, R470) -/

/-- POWER_FAIL (R470): PWR_FAIL_N falls; what it does happens at the next boundary, once. -/
def execPowerFail (s : State) : Host.Outcome State Fault Refusal :=
  nextAon s fun d => if d.pins.pfTaken ∨ d.pins.pfAt.isSome then d else { d with pins := { d.pins with pfAt := some d.tick.toNat } }

/-- The span sets that are mounted. -/
def Dev.mountedSlots (d : Dev) : List Nat := (d.spn.slots.filter fun x => x.2.isMounted).map (·.1)

/-- The first boundary after the fall (R437, R470): POWER_FAIL and one JOURNAL record of KIND 7 for each mounted span set, ahead
of the feed; with RESET_N low the POWER_FAIL record alone. -/
def Dev.powerFailBoundary (d : Dev) : Dev :=
  match d.pins.pfAt with
  | none => d
  | some t =>
    let slots := if d.hlt.resetN then d.mountedSlots else []
    let d : Dev := { d with pins := { d.pins with pfAt := none, pfTaken := true } }
    let ahead := d.hlt.ahead
    let d : Dev := { d with hlt := { d.hlt with ahead := [] } }
    let d := d.cellarAhead blkHlt 0 0xC3 (itemsPayload [item t, item slots.length])
    let d := slots.foldl (fun d x => d.journal x 7 true) d
    let d : Dev := { d with hlt := { d.hlt with ahead := d.hlt.ahead ++ ahead } }
    let d := d.setFlag Fld.hltPwrStatPf 0 true
    if d.flag Fld.hltPfCfgBrake ∧ ! d.coreHeld then (List.range 8).foldl (fun d t => d.brakeNow t .power) d else d

/-! ### Temperature (R476, R477) -/

/-- The temperature at which the device warns (R478). -/
def Dev.warnAt (d : Dev) : Int := min 0x69 (toSigned 8 (d.fld Fld.hltThermCfgWarn))

/-- The sensors at a boundary (R477). -/
def Dev.thermBoundary (d : Dev) (sensors : List Int) : Dev :=
  match sensors with
  | [] => d
  | x :: xs =>
    let tj := xs.foldl max x
    let warn := if d.warnAt ≤ tj then true else if tj ≤ d.warnAt - d.fld1 Fld.hltThermCfgHyst then false else d.flag Fld.hltThermStatWarn
    let d := ((d.setFld Fld.hltThermStatTj 0 (tj % 256).toNat).setFlag Fld.hltThermStatWarn 0 warn).setFld Fld.hltThermStatPeak 0
      ((max tj (toSigned 8 (d.fld Fld.hltThermStatPeak))) % 256).toNat
    let cool := decide (tj < 100)
    let tripped := d.pins.tripped && ! cool
    { d with pins := { d.pins with
        thermN := ! (warn || tripped), hotTicks := if 120 ≤ tj then d.pins.hotTicks + 1 else 0, cool := cool, tripped := tripped } }

/-- THERMAL_TRIP (R477): a sensor at 120 °C or more at two consecutive boundaries. -/
def execThermalTrip (s : State) : Host.Outcome State Fault Refusal :=
  nextAon s fun d =>
    if 2 ≤ d.pins.hotTicks then
      { d with pins := { d.pins with tripped := true, thermN := false, reqTrip := some ((d.pins.reqTrip).getD (6, 0)) } }
    else d

/-! ### Core voltage (R465, R466) -/

/-- Command an offset above VBASE. -/
def Dev.avsSend (d : Dev) (n : Nat) : Dev := ({ d with hlt := { d.hlt with avsSent := some n } } : Dev).emit (.avsWrite (Config.vbase + n))

/-- AVS_STEP at a boundary: the answer to the last write, a repeat, or the next step of 5 mV towards OFFSET (R466). -/
def Dev.avsBoundary (d : Dev) (ok : Bool) : Dev :=
  let next (d : Dev) : Dev :=
    let o := d.fld Fld.hltAvsStatOffset
    if o = d.hlt.avsNow then d else d.avsSend (if d.hlt.avsNow < o then d.hlt.avsNow + 1 else d.hlt.avsNow - 1)
  match d.hlt.avsSent with
  | none => next d
  | some n =>
    let d : Dev := { d with hlt := { d.hlt with avsSent := none } }
    if ok then next ({ d with hlt := { d.hlt with avsNow := n, avsTries := 0 } } |>.setFlag Fld.hltPwrStatAvsErr 0 false)
    else if d.hlt.avsTries = 0 then ({ d with hlt := { d.hlt with avsTries := 1 } } : Dev).avsSend n
    else (({ d with hlt := { d.hlt with avsTries := 0 } } : Dev).setFlag Fld.hltPwrStatAvsErr 0 true).setFld Fld.hltAvsStatOffset 0 d.hlt.avsNow

/-! ### Measurements (R438, R487) -/

/-- AGE_MEASURE (R438). The byte error rate of a head channel comes with each region's verify results (`Dev.regionStats`), and the profiles
that completed a retry from the decoder. -/
def execAgeMeasure (m : Measure) (s : State) : Host.Outcome State Fault Refusal :=
  nextDev s fun d =>
    match m with
    | .wear w degr => if w < 96 then d.setFld Fld.hltWearStatDegr w (min degr 0xFFFFFF) else d
    | .eye lane height width =>
      if lane < 88 then
        let d := (d.setFld Fld.hltLaneEyeHeight lane (min height 1023)).setFld Fld.hltLaneEyeWidth lane (min width 64)
        { d with age := { d.age with eyes := if d.age.eyes.contains lane then d.age.eyes else lane :: d.age.eyes } }
      else d
    | .head ch snr => if ch < 512 then d.setFld Fld.rdcChSnrSnr ch (min snr 255) else d
    | .retries => { d with age := { d.age with retries := (d.age.done.reverse ++ d.age.retries).take 256, done := [] } }

/-- Worst core wear degradation (R438). -/
def Dev.worstWear (d : Dev) : Nat := ((List.range 96).map fun w => d.fld Fld.hltWearStatDegr w).foldl max 0

/-- The lanes of an interface: 0 Ethernet, 1 PCIe, 2 fabric, 3 transport (R480). -/
def laneRange (i : Nat) : List Nat :=
  if i = 0 then List.range 16 else if i = 1 then (List.range 16).map (16 + ·) else if i = 2 then (List.range 32).map (32 + ·) else (List.range 24).map (64 + ·)

/-- The lowest of a list. -/
def lowestOf (l : List Nat) : Nat := l.min?.getD 0

/-- The TREND payload (R490). -/
def Dev.trendPayload (d : Dev) : List Byte :=
  leBytes 4 d.worstWear ++ ((List.range 4).flatMap fun i => leBytes 2 (lowestOf ((laneRange i).map fun l => d.fld Fld.hltLaneEyeHeight l)))
    ++ leBytes 4 (d.fld Fld.memErrCnt0Ce)
    ++ ((List.range 8).flatMap fun t => leBytes 1 (lowestOf ((List.range 64).map fun c => d.fld Fld.rdcChSnrSnr (64 * t + c))))
    ++ ((List.range 8).flatMap fun t => leBytes 2 (d.fld Fld.motAgeRwA t) ++ leBytes 2 (d.fld Fld.motAgeRwB t))
    ++ ((List.range 8).flatMap fun t => leBytes 2 (d.fld Fld.motFricF t) ++ leBytes 2 (d.fld Fld.motFricF t))

/-- Ticks of a minute (R438). -/
def minuteTicks : Nat := 3000000

/-- TREND_SNAPSHOT (R438): every SNAP minutes. -/
def execTrendSnapshot (s : State) : Host.Outcome State Fault Refusal :=
  nextDev s fun d =>
    if d.tick.toNat % (d.fld1 Fld.hltAgeCfgSnap * minuteTicks) = 0 then d.cellar blkHlt 0 0xC2 d.trendPayload else d

/-! ### Re-planning (R439 to R441) -/

/-- Re-plan kind `k` is enabled. -/
def Dev.replanOn (d : Dev) (k : Nat) : Bool := bitOf (d.fld Fld.hltAgeCfgEn) (k - 1)

/-- A re-plan has changed a value (R441). -/
def Dev.replanned (d : Dev) (kind inst lane old new meas : Nat) : Dev :=
  let p := leBytes 1 kind ++ leBytes 1 inst ++ leBytes 2 lane ++ leBytes 4 old ++ leBytes 4 new ++ leBytes 4 meas
  (d.cellar blkHlt 0 0xC1 p).postBoth 0x90 blkHlt 0 [item kind, item inst, item old, item new]

/-- Ticks of an hour. -/
def hourTicks : Nat := 180000000

/-- A trigger holds at its limit (R440): HLT_AGE_LIMIT, at most once per kind and instance per hour. -/
def Dev.ageLimit (d : Dev) (kind inst meas : Nat) : Dev :=
  if d.age.limits.any fun x => x.1 == kind && x.2.1 == inst && decide (d.clk < x.2.2 + hourTicks) then d
  else
    let d := d.postBoth 0x91 blkHlt 0 [item kind, item inst, item meas]
    { d with age := { d.age with limits := (kind, inst, d.clk) :: d.age.limits.filter fun x => ! (x.1 == kind && x.2.1 == inst) } }

/-- Voltage (R439, R466): a write that failed twice counts as the limit. -/
def Dev.replanVoltage (d : Dev) : Dev :=
  let n := d.fld Fld.hltAvsStatOffset
  let w := d.worstWear
  if ! d.replanOn 1 ∨ w ≤ d.fld1 Fld.hltAgeThr0WearStep * (n + 1) then d
  else if 10 ≤ n ∨ d.flag Fld.hltPwrStatAvsErr then d.ageLimit 1 0 w
  else (d.setFld Fld.hltAvsStatOffset 0 (n + 1)).replanned 1 0 0 n (n + 1) w

/-- The interface of a lane and its number there (R480). -/
def laneOf (l : Nat) : Nat × Nat := if l < 16 then (0, l) else if l < 32 then (1, l - 16) else if l < 64 then (2, l - 32) else (3, l - 64)

/-- Another path to the neighbour of fabric port `n` is up (R406). -/
def Dev.otherPath (d : Dev) (n : Nat) : Bool := (tgetD d.fab.routes (d.linkPeer n) []).any (· != n) || d.upLinks.any fun l => l != n && d.linkPeer l == d.linkPeer n

/-- The link of a fabric port trains again: it goes down, and its waiting lanes are trained (R439). -/
def Dev.fabRetrain (d : Dev) (n : Nat) : Dev := (d.linkDown n 2).trainLanes ((List.range 4).map (32 + 4 * n + ·))

/-- One lane below EYE_MIN (R439). -/
def Dev.replanLane (d : Dev) (l : Nat) : Dev :=
  let (i, n) := laneOf l
  let tp := (l - 64) / 3
  let idle := let st := d.motState tp; st == msIdle || st == msHold
  if d.age.retrain.contains l ∨ i = 3 ∧ ! idle then d
  else
    let t := d.fld Fld.hltLaneEyeTrains l
    let d := d.replanned 2 i n t (min 255 (t + 1)) (d.fld Fld.hltLaneEyeHeight l)
    let d : Dev := { d with age := { d.age with retrain := d.age.retrain ++ [l] } }
    if i = 2 ∧ d.otherPath (n / 4) then d.fabRetrain (n / 4)
    else if i = 3 then d.trainLanes [l]
    else d

/-- Lane re-training (R439). -/
def Dev.replanLanes (d : Dev) : Dev :=
  if ! d.replanOn 2 then d
  else ((List.range 88).filter fun l => d.age.eyes.contains l && decide (d.fld Fld.hltLaneEyeHeight l < d.fld Fld.hltAgeThr0EyeMin)).foldl Dev.replanLane d

/-- Slots 1 to 7 by successes, descending; ties keep their order (R439). -/
def retryOrder (slots : List Nat) (wins : Nat → Nat) : List Nat :=
  match slots with
  | [] => []
  | s :: rest => s :: rest.mergeSort fun a b => decide (wins b ≤ wins a)

/-- Retry order (R439). -/
def Dev.replanRetry (d : Dev) : Dev :=
  let n := d.age.retries.length
  if ! d.replanOn 3 ∨ n < 16 then d
  else
    let old := d.fld Fld.rdcRetryOrderSlot
    let slots := retryOrder ((List.range 8).map d.slotProfile) fun p => (d.age.retries.filter (· == p)).length
    let new := (slots.zipIdx.map fun x => x.1 * 8 ^ x.2).sum
    if new = old then d else (d.setFld Fld.rdcRetryOrderSlot 0 new).replanned 3 0 0 old new n

/-- R_W of reel `i` above 1.30 × R_WIND (R439), R_WIND as the identity gives it. -/
def Dev.windHigh (d : Dev) (t i : Nat) : Bool :=
  let r := d.fld (if i = 0 then Fld.motAgeRwA else Fld.motAgeRwB) t
  let wind := (d.motor t i).rw
  wind != 0 && decide (130 * wind < 100 * r)

/-- Speed cap of transport `t` (R439): never lowered below 12. -/
def Dev.replanCap (d : Dev) (t : Nat) : Dev :=
  let clamps := d.age.clamps.getD t 0
  let reel := (List.range 2).find? fun i => d.windHigh t i
  let cap := d.fld Fld.tpSpdCtlCap t
  if ! d.replanOn 4 ∨ (clamps ≤ 8 ∧ reel.isNone) then d
  else
    let meas := if 8 < clamps then clamps else d.fld (if reel = some 0 then Fld.motAgeRwA else Fld.motAgeRwB) t
    if cap ≤ 12 then d.ageLimit 4 t meas
    else (d.setFld Fld.tpSpdCtlCap t (cap - 1)).replanned 4 t (if 8 < clamps then 0 else reel.getD 0) cap (cap - 1) meas

/-- The channels of a transport that R439 would retire: not retired, SNR below SNR_MIN, byte error rate above the limit. -/
def Dev.badChannels (d : Dev) (t : Nat) : List Nat :=
  (List.range 64).filter fun c =>
    ! (d.retired t).getLsbD c && decide (d.fld Fld.rdcChSnrSnr (64 * t + c) < d.fld Fld.hltAgeThr1SnrMin)
      && decide (2 ^ (32 - d.fld Fld.hltAgeThr1RateExp) < d.fld Fld.rdcChBerRate (64 * t + c))

/-- The worst channel: the lowest SNR, then the highest rate. -/
def Dev.worstChannel (d : Dev) (t : Nat) : Option Nat :=
  (d.badChannels t).foldl (fun (acc : Option Nat) c => match acc with
    | none => some c
    | some b =>
      let sb := d.fld Fld.rdcChSnrSnr (64 * t + b)
      let sc := d.fld Fld.rdcChSnrSnr (64 * t + c)
      if sc < sb ∨ (sc = sb ∧ d.fld Fld.rdcChBerRate (64 * t + b) < d.fld Fld.rdcChBerRate (64 * t + c)) then some c else some b) none

/-- Channel retirement of transport `t` (R439): only with 6 or fewer retired channels. -/
def Dev.replanChannel (d : Dev) (t : Nat) : Dev :=
  match d.worstChannel t with
  | none => d
  | some c =>
    let snr := d.fld Fld.rdcChSnrSnr (64 * t + c)
    let n := chCount (d.retired t)
    if ! d.replanOn 5 then d
    else if 6 < n then d.ageLimit 5 t snr
    else (d.retire t c 2).replanned 5 t c n (n + 1) snr

/-- REPLAN_EVALUATION (R439): at each boundary whose tick is 1,500,000 more than a multiple of 3,000,000. -/
def execReplanEvaluation (s : State) : Host.Outcome State Fault Refusal :=
  nextDev s fun d =>
    if d.tick.toNat % minuteTicks ≠ 1500000 ∨ ! d.coresRun then d
    else
      let d := d.replanVoltage.replanLanes.replanRetry
      let d := (List.range 8).foldl (fun d t => (d.replanCap t).replanChannel t) d
      { d with age := { d.age with clamps := List.replicate 8 0 } }

/-! ### Boundary scan (R442 to R444) -/

/-- The instructions that drive pins (R443). -/
def tapDrives : TapInstr → Bool
  | .extest => true | .extestPulse => true | .extestTrain => true | .clamp => true | .highz => true
  | .bypass => false | .idcode => false | .samplePreload => false

/-- IDCODE (R442): version 1, part 0x8064, manufacturer code 0x537, and the bit that IEEE 1149.1 sets. -/
def idcode : BitVec 32 := BitVec.ofNat 32 (1 * 2 ^ 28 + 0x8064 * 2 ^ 12 + 0x537 * 2 + 1)

/-- The bits that the data register selected by an instruction holds as a scan begins, first bit out last (R442): IDCODE's are fixed, the
bypass register's is 0, and the boundary register holds the pins, which the model does not list. -/
def tapCapture : TapInstr → Option (List Bool)
  | .idcode => some ((List.range 32).map fun i => idcode.getLsbD (31 - i))
  | .bypass => some [false]
  | .clamp => some [false]
  | .highz => some [false]
  | .samplePreload => none | .extest => none | .extestPulse => none | .extestTrain => none

/-- TAP_INSTRUCTION_LOAD (R443): after the lock an instruction that drives pins loads BYPASS instead. -/
def execTapInstructionLoad (i : TapInstr) (s : State) : Host.Outcome State Fault Refusal :=
  nextDev s fun d =>
    if d.locked ∧ tapDrives i then { d with age := { d.age with tap := .bypass, refused := true } }
    else { d with age := { d.age with tap := i } }

/-! ### The sideband chain (R445, R446) -/

/-- The device's own DEVICE frame. -/
def Dev.sbDevice (d : Dev) (pos : Nat) : List Byte :=
  let body := [0x01#8] ++ leBytes 1 pos ++ leBytes 8 Config.serial.toNat ++ leBytes 1 (if d.locked then d.fld Fld.fabCfgAddr else 0xFF)
  [0x7E#8] ++ body ++ [crc8 body]

/-- An END frame. -/
def sbEnd (count : Nat) : List Byte :=
  let body := [0x02#8] ++ leBytes 1 count
  [0x7E#8] ++ body ++ [crc8 body]

/-- Send the own frame at a position, and END with a count. -/
def Dev.sbSend (d : Dev) (pos count : Nat) : Dev := (d.emit (.sideband (d.sbDevice pos))).emit (.sideband (sbEnd count))

/-- Ticks between the head's frames (R446). -/
def sbPeriod : Nat := 50000

/-- SB_HEAD_SEND (R446). -/
def execSbHeadSend (s : State) : Host.Outcome State Fault Refusal :=
  nextDev s fun d =>
    if d.flag Fld.hltSbCfgHead ∧ d.age.sbNextHead ≤ d.clk then
      ({ d with age := { d.age with sbNextHead := d.clk + sbPeriod } } : Dev).sbSend 0 1
    else d

/-- A frame is dropped and counted (R446, R447). -/
def Dev.sbDrop (d : Dev) : Dev := (d.bump Fld.hltSbStatErr).postEvent 0x92 blkHlt 0 [item 1]

/-- SB_DEVICE_FRAME (R446): a good frame is forwarded unchanged, except by the head. -/
def execSbDeviceFrame (bytes : List Byte) (s : State) : Host.Outcome State Fault Refusal :=
  nextDev s fun d =>
    if bytes.length ≠ 13 ∨ bytes.take 2 ≠ [0x7E#8, 0x01#8] then d
    else if bytes.getD 12 0#8 ≠ crc8 (slice bytes 1 11) then d.sbDrop
    else if d.flag Fld.hltSbCfgHead then d
    else ({ d with age := { d.age with sbLast := some (leAt bytes 2 1, d.clk) } } : Dev).emit (.sideband bytes)

/-- SB_END_FRAME (R446): the device's own frame takes POS COUNT, and END carries COUNT + 1. -/
def execSbEndFrame (bytes : List Byte) (s : State) : Host.Outcome State Fault Refusal :=
  nextDev s fun d =>
    if bytes.length ≠ 4 ∨ bytes.take 2 ≠ [0x7E#8, 0x02#8] then d
    else if bytes.getD 3 0#8 ≠ crc8 (slice bytes 1 2) then d.sbDrop
    else if d.flag Fld.hltSbCfgHead then d
    else
      let n := leAt bytes 2 1
      (({ d with age := { d.age with sbLast := none } } : Dev).setFld Fld.hltSbStatPos 0 n).sbSend n ((n + 1) % 256)

/-- SB_END_TIMEOUT (R446): no END within 2 ticks. The manual gives the device's own frame no POS here: a free value. -/
def execSbEndTimeout (s : State) : Host.Outcome State Fault Refusal :=
  nextDev s fun d =>
    match d.age.sbLast with
    | some (p, t) =>
      if t + 2 ≤ d.clk then
        (({ d with age := { d.age with sbLast := none } } : Dev).sbSend (d.fresh.toNat % 256) ((p + 1) % 256)).spend
      else d
    | none => d

end Sys2Proof.Machine
end

