-- ==== Sys2Proof/Machine/Pair.lean ====
section
/-! DEFINITION. The pair (R413 to R424): batches of mirror records, acknowledgements, heartbeats, takeover, partition and
resync. What the partner's mirror gives is kept as records; a takeover makes it the device's own state. -/

namespace Sys2Proof.Machine

/-! ### What is mirrored (R415) -/

/-- The stream that a chunk's mirror record carried last. -/
def lastStream (l : List MirRec) (id : Nat) : Words :=
  (l.findSome? fun r => match r with
    | .seal i _ s => if i = id then some s else none
    | _ => none).getD {}

/-- A chunk lies in a payload that has been assembled. -/
def Dev.inPayload (d : Dev) (c : Chunk) : Bool :=
  c.st.final || (c.st == .placed && (((d.spanAt c.span).bind fun s => tget s.rows c.row).map fun r => decide ((c.member + 1) * payloadLen ≤ r.assembled)).getD false)

/-- The original stream of a chunk, as window bytes and chunker state give it to the partner. -/
def Dev.mirStream (d : Dev) (h : Hbm) (id : Nat) (c : Chunk) : Words :=
  if d.inPayload c then {}
  else
    match c.orig with
    | some b => (d.bufWords h b c.origLen blkSes).2
    | none => lastStream d.pair.last id

/-- The assembled payloads of the rows of a span set that are not complete. -/
def Dev.mirPayloads (d : Dev) (h : Hbm) (slot : Nat) (s : Span) : List MirRec :=
  (s.rows.filter fun r => r.2.st == .writing).flatMap fun (n, r) =>
    (List.range (s.descOf n).k).filterMap fun i =>
      match r.bufs.getD i none with
      | some b => if (i + 1) * payloadLen ≤ r.assembled then some (.payload slot n i (d.bufWords h b payloadLen blkSpn).2) else none
      | none => none

/-- Everything that data records describe, as it stands now. -/
def Dev.mirrorNow (d : Dev) (h : Hbm) : List MirRec :=
  (d.rte.conns.map fun c => .conn c.1 c.2) ++ (d.rte.tenants.map fun t => .tenant t.1 t.2) ++ (d.ses.sessions.map fun s => .session s.1 s.2)
    ++ (d.rte.cmds.map fun c => .cmd c.1 c.2)
    ++ (d.rte.cmds.flatMap fun c => (c.2.wr.wins.filter (·.closed)).map fun w => .window c.1 w.off (d.bufWords h w.handle w.len blkSes).2)
    ++ (d.ses.chunks.map fun c => .seal c.1 c.2 (d.mirStream h c.1 c.2))
    ++ (d.spn.slots.map fun s => .span s.1 s.2) ++ (d.spn.slots.flatMap fun s => d.mirPayloads h s.1 s.2)
    ++ ((List.range 16).map fun j => .svc j (d.rawReg .fabSvcCfg j) (d.svcAddr j) (d.svcMac j))

/-- The last record of something that is gone. -/
def lastWord : MirRec → Option MirRec
  | .cmd id k => some (.cmd id { k with answered := true, wr := { k.wr with ended := true } })
  | .conn c k => some (.conn c { k with err := true })
  | .session n s => some (.session n { s with dead := true, open_ := none })
  | .seal id c _ => some (.seal id { c with st := .dropped, pieces := [] } {})
  | .span slot _ => some (.span slot {})
  | _ => none

/-- The records of a batch: what has changed since the last one. -/
def mirrorDiff (last now : List MirRec) : List MirRec :=
  (now.filter fun r => ! last.contains r) ++ ((last.filter fun r => ! now.any r.same).filterMap lastWord)

/-! ### Sending (R415, R416, R419) -/

/-- Send a batch: its records and its BATCH_END. -/
def Dev.sendBatch (d : Dev) (t : BitVec 48) (rs : List MirRec) : Dev :=
  let raw := rs.flatMap fun r => (Config.fabEncode (.data t r)).flatten
  let d := rs.foldl (fun d r => d.fabSend d.partnerAddr 2 0x21 0 (.data t r)) d
  d.fabSend d.partnerAddr 2 0x22 0 (.batchEnd t rs.length (crc32c raw))

/-- MIRROR_BATCH_SEND (R415): the batch of the tick that begins. One whose assembly overruns goes with the next tick's (R16, R426). -/
def Dev.mirrorTick (d : Dev) (h : Hbm) : Dev :=
  let d := d.pair.resend.foldl (fun d t => match d.pair.sent.find? fun b => b.1 == t with
    | some b => d.sendBatch t b.2
    | none => d) d
  let d : Dev := { d with pair := { d.pair with resend := [] } }
  if ! d.mirroring then d
  else
    let now := d.mirrorNow h
    let rs := mirrorDiff d.pair.last now
    let t := BitVec.ofNat 48 d.fabTickNow
    let late := d.stalls blkSes 0 4
    let d := if late then d else d.sendBatch t rs
    { d with pair := { d.pair with last := now, sent := d.pair.sent ++ [(t, rs)], resend := if late then [t] else [] } }

/-- HEARTBEAT_SEND (R419): on two paths. -/
def Dev.heartbeatTick (d : Dev) : Dev :=
  if ! d.flag Fld.fabPairCfgEn then d
  else
    let m : FabMsg := .heartbeat (BitVec.ofNat 48 d.fabTickNow) d.pair.partner.committed ((d.pair.acked).getD 0)
    (d.fabSend d.partnerAddr 1 0x10 0 m).fabSend d.partnerAddr 1 0x10 1 m

/-- HEARTBEAT_MISS (R419): none from the previous tick has been taken. -/
def Dev.heartbeatCount (d : Dev) : Dev :=
  if ! d.flag Fld.fabPairCfgEn then d
  else if d.pair.partner.beat then
    (d.modPartner fun p => { p with beat := false, beatRun := p.beatRun + 1 }).setFld Fld.fabPairStatMissed 0 0
  else (d.modPartner fun p => { p with beatRun := 0 }).bump Fld.fabPairStatMissed

/-- HEARTBEAT_RECEIVE (R419). -/
def execHeartbeatReceive (tick committed acked : BitVec 48) (s : State) : Host.Outcome State Fault Refusal :=
  nextDev s fun d =>
    if d.flag Fld.fabPairCfgEn ∧ tick.toNat < 2 ^ 48 then d.modPartner fun p => { p with beat := true, theirCommit := committed, theirAck := acked } else d

/-! ### Committing the partner's batches (R416) -/

/-- The buffer bytes that a kept record takes. -/
def MirRec.size : MirRec → Nat
  | .window _ _ w => max 256 w.bytes.length
  | .payload _ _ _ w => max 256 w.bytes.length
  | .seal _ _ w => max 256 w.bytes.length
  | _ => 256

/-- Buffers of owner 10 for a batch's records, or none where they cannot be had. -/
def Dev.mirrorBuffers (d : Dev) : List MirRec → Option (Dev × List (MirRec × Option (BitVec 32)))
  | [] => some (d, [])
  | r :: rs =>
    let p := fittingPool r.size
    if poolMax < r.size ∨ ! d.mayTake 10 p then none
    else
      let (d, b) := d.allocate p 10 10
      (d.mirrorBuffers rs).map fun x => (x.1, (r, some b) :: x.2)

/-- What the partner still needs (R415): window bytes until their chunks hold them, payloads until their row is complete or
lost; commands, connections and sessions that are gone leave. -/
def keptRec (l : List MirRec) : MirRec → Bool
  | .window c off w => l.any fun r => match r with
      | .cmd id k => id == c && ! (k.wr.ended && k.answered) && decide (k.wr.freed < off + max 1 w.bytes.length)
      | .seal _ x w' => w'.bytes != [] && x.pieces.any (·.cmd == c)
      | _ => false
  | .payload slot row _ _ => l.any fun r => match r with
      | .span s x => s == slot && (tget x.rows row).any fun y => y.st == .writing
      | _ => false
  | .cmd _ k => ! (k.answered && (k.wr.ended || ! (k.op == opWrite || k.op == opMark)))
  | .session _ s => ! s.dead || s.open_.isSome
  | .seal _ c _ => ! (c.st == .dropped && c.pieces == [])
  | .span _ s => ! s.members.isEmpty
  | _ => true

/-- Store a batch: later copies replace earlier ones, and what is no longer needed is freed. -/
def Dev.mirrorStore (d : Dev) (got : List (MirRec × Option (BitVec 32))) : Dev :=
  let old := d.pair.partner.store.filter fun x => ! got.any fun g => g.1.same x.1
  let all := old ++ got
  let keep := all.filter fun x => keptRec (all.map (·.1)) x.1
  let gone := (d.pair.partner.store ++ got).filter fun x => ! keep.contains x
  (d.modPartner fun p => { p with store := keep }).releaseAll (gone.filterMap (·.2)) 10

/-- A batch is whole: as many records as BATCH_END says, and its CRC passes. -/
def Batch.whole (b : Batch) : Bool :=
  match b.fin with
  | some (n, crc) => b.recs.length == n && crc32c b.raw == crc
  | none => false

/-- MIRROR_BATCH_COMMIT (R416): the batch is whole, and every earlier one has been committed; without buffers it is NAKed. -/
def execMirrorBatchCommit (batch : BitVec 48) (s : State) : Host.Outcome State Fault Refusal :=
  nextDev s fun d =>
    match d.pair.partner.batches.find? fun b => b.tick == batch with
    | none => d
    | some b =>
      if ! d.flag Fld.fabPairCfgEn ∨ ! b.whole ∨ d.pair.partner.batches.any (fun o => o.tick != batch && seqFrom o.tick batch) then d
      else
        let d1 := d.modPartner fun p => { p with batches := p.batches.filter (·.tick != batch) }
        match d1.mirrorBuffers b.recs with
        | some (d2, got) =>
          ((d2.mirrorStore got).modPartner fun p => { p with committed := batch }).fabSend d.partnerAddr 1 0x11 0 (.mirrorAck batch)
        | none => d1.fabSend d.partnerAddr 1 0x12 0 (.mirrorNak batch)

/-! ### Acknowledgements (R417) -/

/-- RoCE acknowledgements that no longer wait: those of batches up to `upTo`, or all. -/
def Dev.releaseAcks (d : Dev) (upTo : Option (BitVec 48)) : Dev :=
  d.rte.conns.foldl (fun d (c, k) =>
    let go := k.ackWait.filter fun w => match upTo with
      | some t => seqFrom w.2 t
      | none => true
    match go.getLast? with
    | none => d
    | some w => (d.modConn c fun k => { k with ackWait := k.ackWait.filter fun x => ! go.contains x }).emitOn c (.ack c w.1)) d

/-- MIRROR_ACK (R416, R417): the partner has committed a batch. -/
def execMirrorAck (batch : BitVec 48) (s : State) : Host.Outcome State Fault Refusal :=
  nextDev s fun d =>
    if d.flag Fld.fabPairCfgEn ∧ d.pair.sent.any fun b => b.1 == batch then
      let own : BitVec 48 := batch - BitVec.ofNat 48 d.timeOfs
      ({ d with pair := { d.pair with
          acked := some own, backlog := false, sent := d.pair.sent.filter fun b => ! seqFrom b.1 batch } } : Dev).releaseAcks (some own)
    else d

/-- MIRROR_NAK (R416): the batch goes again in the next tick; PAIR_BACKLOG is posted once until an acknowledgement. -/
def execMirrorNak (batch : BitVec 48) (s : State) : Host.Outcome State Fault Refusal :=
  nextDev s fun d =>
    if d.flag Fld.fabPairCfgEn ∧ d.pair.sent.any fun b => b.1 == batch then
      let d := if d.pair.backlog then d else d.postEvent 0x87 blkFab 0 [item d.partnerAddr, item batch.toNat]
      { d with pair := { d.pair with backlog := true, resend := d.pair.resend ++ [batch] } }
    else d

/-! ### Takeover: what is declared (R420 to R422) -/

/-- The span sets that the partner is home of, as its journal came. -/
def Dev.partnerSpans (d : Dev) : List (Nat × Span) :=
  d.pair.partner.store.filterMap fun r => match r.1 with
    | .span n s => if s.members.isEmpty then none else some (n, s)
    | _ => none

/-- The transports that the partner owns. -/
def Dev.partnerTps (d : Dev) : List Nat :=
  (d.partnerSpans.flatMap fun s => (s.2.members.zipIdx.filter fun m => m.1.mounted).filterMap fun m => d.memberTp s.2 s.2.openRow m.2).dedup

/-- A transport has been let go by the partner: HOLDOVER, SAFE_HOLD, no owner, or no link to it. -/
def Dev.tpReleased (d : Dev) (t : Nat) : Bool :=
  ! d.flag Fld.tpLinkStatUp t || d.flag Fld.tpLinkStatHoldover t || d.flag Fld.tpLinkStatSafeHold t || (d.tpAt t).ownerPort.isNone

/-- Three heartbeats in a row have been missed by a partner that was there. -/
def Dev.heartLost (d : Dev) : Bool :=
  d.flag Fld.fabPairCfgEn && decide (3 ≤ d.fld Fld.fabPairStatMissed) && d.fld Fld.fabPairStatState != 0
    && ! (d.fld Fld.fabPairStatState == 4 && d.pair.tookOver) && d.pair.takeover.isNone

/-- PAIR_TAKEOVER (R420, R421): declared at boundary x; data records of batches that are not complete are discarded. -/
def execPairTakeover (s : State) : Host.Outcome State Fault Refusal :=
  nextDev s fun d =>
    if d.heartLost ∧ d.partnerTps.all d.tpReleased then
      ({ d with pair := { d.pair with takeover := some { x := d.clk, f := d.clk - d.fld Fld.fabPairStatMissed, tps := d.partnerTps }, partSince := none } } : Dev).modPartner
        fun p => { p with batches := [] }
    else d

/-- PAIR_PARTITION (R420, R422): some transport still shows the partner as its owner. -/
def execPairPartition (s : State) : Host.Outcome State Fault Refusal :=
  nextDev s fun d =>
    if d.heartLost ∧ d.fld Fld.fabPairStatState ≤ 2 ∧ ! d.partnerTps.all d.tpReleased then
      let d := (d.setFld Fld.fabPairStatState 0 3).postBoth 0x84 blkFab 0 [item d.partnerAddr, item ((d.pair.acked.getD 0) + BitVec.ofNat 48 d.timeOfs).toNat]
      { d with pair := { d.pair with partSince := some d.clk } }
    else d

/-- The device enters solo (R422): 1 partition, 2 takeover. It acknowledges on its own from then on. -/
def Dev.enterSolo (d : Dev) (cause : Nat) : Dev :=
  (({ d with pair := { d.pair with partSince := none, resync := none, sent := [], resend := [], last := [] } } : Dev).setFld Fld.fabPairStatState 0 4).postBoth
    0x85 blkFab 0 [item d.partnerAddr, item cause] |>.releaseAcks none

/-- PAIR_SOLO (R422): SOLO_T ticks of partition have passed. -/
def execPairSolo (s : State) : Host.Outcome State Fault Refusal :=
  nextDev s fun d =>
    match d.pair.partSince with
    | some t => if d.fld Fld.fabPairStatState = 3 ∧ t + d.fld1 Fld.fabPairCfgSoloT ≤ d.clk then d.enterSolo 1 else d
    | none => d

/-! ### Takeover: the partner's state becomes the device's own (R421, R424) -/

/-- Where the partner's numbers go: connection keys up by 32,768, session numbers by 2^24, commands and chunks after the
device's own, span sets to free slots. -/
structure TakeMap where
  cmd : Nat
  chunk : Nat
  slots : List (Nat × Nat)
  deriving DecidableEq, Repr

/-- The numbers of a takeover. -/
def Dev.takeMap (d : Dev) : TakeMap :=
  let free := (List.range spanSlots).filter fun n => (d.spanAt n).isNone
  { cmd := d.rte.nextCmd, chunk := d.ses.nextChunk, slots := ((d.partnerSpans.map (·.1)).mergeSort (· ≤ ·)).zip free }

/-- The slot that a span set of the partner gets. -/
def TakeMap.slot (m : TakeMap) (n : Nat) : Option Nat := (m.slots.find? fun x => x.1 == n).map (·.2)

/-- The key of a source of the partner. -/
def takenKey (k : Nat) : Nat := k % 32768 + 32768

/-- The number of a session of the partner. -/
def takenSes (n : Nat) : Nat := if n = 0 then 0 else n % 2 ^ 24 + 2 ^ 24

/-- The packets that control records name for a connection: PSN and capsule. -/
def Partner.psns (p : Partner) (c : Nat) : List (BitVec 24 × List Byte) :=
  p.control.filterMap fun r => match r with
    | .psn d n cap _ => if d = c then some (n, cap) else none
    | _ => none

/-- A connection goes on (R424): receive side after the last acknowledged packet, send side after the highest PSN that a
control record reserved; SENDs are kept as their capsules, RDMA WRITEs of read data as zero-length ones. -/
def takeConn (p : Partner) (d : Dev) (c : Nat) (k : Conn) : Dev :=
  let ps := (p.psns c).filter fun x => seqFrom k.sqPsn x.1 || k.unacked.any (·.1 == x.1)
  let top := ps.foldl (fun (s : BitVec 24) x => if seqFrom s (x.1 + 1) then x.1 + 1 else s) k.sqPsn
  let key := takenKey c
  let k' : Conn := { k with
    sqPsn := top, ackWait := [], tries := 0, rnrTries := 0, cutAt := none, quietFrom := d.clk, cnpSentAt := none
    unacked := ps.map fun x => (x.1, some (if x.2 = [] then .rdmaWrite key 0 0 [] else .send key x.2)) }
  { d with rte := { d.rte with conns := tput d.rte.conns key k' } }

/-- A response to a command has been reserved on its connection: a control record after the command's own carries it. -/
def answeredBy (k : Cmd) : List MirRec → Bool
  | [] => false
  | .psn c _ cap _ :: rs => (c == k.src && leAt cap 0 1 == 1 && capTag cap == k.tag) || answeredBy k rs
  | _ :: rs => answeredBy k rs

/-- The commands of the partner: as its last batch had them, with what control records add since. -/
def Partner.cmds (p : Partner) : List (Nat × Cmd) :=
  let ofs (l : List MirRec) : List (Nat × Cmd) := l.filterMap fun r => match r with
    | .cmd id k => some (id, k)
    | _ => none
  let stored := ofs (p.store.map (·.1))
  let ctrl := ofs p.control
  let merged := stored.map fun (id, k) =>
    match ctrl.find? fun x => x.1 == id with
    | none => (id, k)
    | some (_, c) =>
      let granted := (k.wr.asked.map (·.1)).foldl min k.wr.stepOff
      (id, { k with adm := if k.adm.isSome then k.adm else c.adm
                    wr := { k.wr with wins := k.wr.wins ++ c.wr.wins.filter fun w => decide (granted ≤ w.off) && ! k.wr.wins.any (·.gid == w.gid) } })
  let new := ctrl.filter fun x => ! stored.any (·.1 == x.1)
  let all := (merged ++ new).mergeSort fun a b => decide (a.1 ≤ b.1)
  all.map fun (id, k) =>
    let after := (p.control.dropWhile fun r => ! r.same (.cmd id k))
    (id, { k with answered := k.answered || answeredBy k after })

/-- The bytes of a closed window. -/
def Partner.windowBytes (p : Partner) (id off : Nat) : Option Words :=
  p.store.findSome? fun r => match r.1 with
    | .window c o bs => if c = id ∧ o = off then some bs else none
    | _ => none

/-- A window goes on in a Kilderkin of the device (R424): with the bytes of a closed window, empty otherwise. -/
def takeWindow (p : Partner) (id : Nat) (hd : Hbm × Dev) (w : Window) : (Hbm × Dev) × Window :=
  let (h, d) := hd
  let (d, b) := d.allocate 2 0 1
  match (if w.closed then p.windowBytes id w.off else none) with
  | some ws => (bufPutWords (h, d) b ws, { w with handle := b, opened := d.clk, vis := d.nextVis })
  | none => ((h, d), { w with handle := b, opened := d.clk, closed := false, got := [], vis := 0 })

/-- A command goes on (R86: pair takeover): reads begin again, grants that were only asked for are asked for again. -/
def takeCmd (p : Partner) (m : TakeMap) (hd : Hbm × Dev) (id : Nat) (k : Cmd) : Hbm × Dev :=
  let wins := k.wr.wins.filter fun w => w.withdrawn.isNone
  let r := wins.foldl (fun (acc : (Hbm × Dev) × List Window) w =>
    let x := takeWindow p id acc.1 w
    (x.1, acc.2 ++ [x.2])) (hd, [])
  let (h, d) := r.1
  let granted := (k.wr.asked.map (·.1)).foldl min k.wr.stepOff
  let k' : Cmd := { k with
    src := takenKey k.src, session := takenSes k.session, arr := d.clk, adm := k.adm.map fun _ => d.clk, due := none, rd := {}
    wr := { k.wr with asked := [], stepOff := (wins.map fun w => w.off + w.len).foldl max granted, wins := r.2 } }
  (h, { d with rte := { d.rte with cmds := tput d.rte.cmds (m.cmd + id) k', nextCmd := max d.rte.nextCmd (m.cmd + id + 1) } })

/-- A session goes on, in a context of the device. -/
def takeSession (m : TakeMap) (hd : Hbm × Dev) (n : Nat) (s : Session) : Hbm × Dev :=
  let (h, d) := hd
  let s' : Session := { s with src := takenKey s.src, slot := d.newSlot, open_ := s.open_.map (m.chunk + ·), buf := none, storedBuf := none }
  (h, { d.spend with ses := { d.ses with sessions := tput d.ses.sessions (takenSes n) s' } })

/-- A payload that the mirror holds. -/
def Partner.payload (p : Partner) (slot row i : Nat) : Option Words :=
  p.store.findSome? fun r => match r.1 with
    | .payload s n j bs => if s = slot ∧ n = row ∧ j = i then some bs else none
    | _ => none

/-- A chunk lies in a payload that the mirror holds. -/
def Partner.holds (p : Partner) (c : Chunk) : Bool := c.st == .placed && (p.payload c.span c.row c.member).isSome

/-- A chunk goes on (R415, R421): one that a mirrored payload holds stays placed; any other not yet on tape runs again from its
original stream, under its CHUNK_SEQ where it was sealed and under the reserve epoch where it was not. -/
def takeChunk (p : Partner) (m : TakeMap) (hd : Hbm × Dev) (id : Nat) (c : Chunk) (stream : Words) : Hbm × Dev :=
  let (h, d) := hd
  match m.slot c.span with
  | none => hd
  | some slot =>
    let key := m.chunk + id
    let put (d : Dev) (c : Chunk) : Dev :=
      { d with ses := { d.ses with chunks := tput d.ses.chunks key c, nextChunk := max d.ses.nextChunk (key + 1) } }
    let c : Chunk := { c with
      session := takenSes c.session, span := slot, stored := none, ovf := [], opened := d.clk, lastByte := d.clk, mirTick := d.tick
      pieces := c.pieces.map fun x => { x with cmd := m.cmd + x.cmd } }
    if c.st.final then (h, put d { c with orig := none })
    else if p.holds { c with span := (m.slots.find? fun x => x.2 == slot).map (·.1) |>.getD slot } then (h, put d { c with orig := none })
    else
      let sealed_ := c.st == .sealed || c.st == .placed
      let (d, seq) := if sealed_ then (d, c.seq) else d.takeSeq slot
      let (d, b) := d.allocate 2 1 2
      let (h, d) := bufPutWords (h, d) b stream
      let c : Chunk := { c with
        seq := seq, orig := some b, st := if c.st = .filling then .filling else .closed, vis := d.nextVis, poisoned := false
        dueAt := if c.st = .filling then c.dueAt.map fun _ => d.clk else some d.clk, member := 0, row := 0, dir := 0 }
      let d := (put d c).poolRequest 65536 2 4 false (.stored key)
      let d := if c.enc ∧ (d.keyOf c.key c.tenant).isNone ∧ ! d.dru.fetching.contains c.key then d.fetchKey c.key else d
      (h, d)

/-- Void data sets of a member volume as a takeover finds them (R167, R309): the lowest number whose row the journal does not
show complete, and the complete ones above it. -/
def Span.takeSplice (s : Span) (i : Nat) (mem : Member) : Nat × BitVec 64 :=
  let open_ := (s.rows.filter fun r => r.2.st == .writing).map fun r => r.2.nos.getD i mem.next
  match open_.min? with
  | none => (mem.next, 0)
  | some v =>
    (v, BitVec.ofNat 64 (((List.range 64).filter fun j => decide (v + j < mem.next) && ! open_.contains (v + j)).map (2 ^ ·)).sum)

/-- A row that is not complete is written again (R309): new data set numbers after the splice; payloads that the mirror holds
go into buffers, a member whose payload it does not hold gets a payload without chunks. -/
def rewriteRow (p : Partner) (m : TakeMap) (old slot : Nat) (hd : Hbm × Dev) (n : Nat) : Hbm × Dev :=
  let (h, d) := hd
  match d.spanAt slot with
  | none => hd
  | some s =>
    match tget s.rows n with
    | none => hd
    | some r =>
      let x := s.descOf n
      let ms := s.memsOf n
      let nos := (List.range x.width).map fun i => (ms.getD i {}).next
      let ids := (List.range x.width).map fun i => identBytes (d.ident s n i (nos.getD i 0) r.short r.sync)
      let chunks := r.chunks.zipIdx.map fun (cs, i) => if (p.payload old n i).isSome then cs.map (m.chunk + ·) else []
      let d := (List.range x.width).foldl (fun d i =>
        match (ms.getD i {}).splice, d.memberTp s n i with
        | some (from_, keep), some t => d.modRd t fun r => { r with voids := r.voids ++ [(from_, nos.getD i 0, keep)] }
        | _, _ => d) (d.spend 32)
      let d := d.modSpan slot fun s =>
        let s := (List.range x.width).foldl (fun s i => s.modMember n i fun mem =>
          { mem with next := mem.next + 1, splice := none, map := mapAdd mem.map mem.next n (mem.splice.isSome && ! mem.map.isEmpty) }) s
        { s with rows := tmod s.rows n fun r => { r with
            nos := nos, idents := ids, chunks := chunks, written := 0, verified := 0, parity := 0, firstVer := none, shown := false
            released := false, bufs := List.replicate x.width none, times := List.replicate x.width 0, assembled := x.k * payloadLen, staged := false, tick := d.tick } }
      let d := chunks.zipIdx.foldl (fun d (cs, i) => cs.foldl (fun d c => d.modChunk c fun y => { y with ds := nos.getD i 0, row := n }) d) d
      let hd := (List.range x.k).foldl (fun (hd : Hbm × Dev) i =>
        let (h, d) := hd
        let (d, b) := d.allocate 4 4 5
        let body : Words := match p.payload old n i with
          | some w => w.over 0 { bytes := padTo 256 (ids.getD i []), poison := List.replicate 8 false }
          | none => { bytes := d.payload h (ids.getD i []) [] }
        let (h, d) := bufPutWords (h, d) b body
        (h, d.modSpan slot fun s => { s with rows := tmod s.rows n fun r => { r with bufs := r.bufs.set i (some b) } })) (h, d)
      let (h, d) := hd
      let d := ((List.range x.width).filter (x.k ≤ ·)).foldl (fun d i => d.poolRequest payloadLen 5 5 false (.payload slot n i)) d
      (h, d.stageRow slot n)

/-- The transports of a taken span set (R223, R421): claimed, and their streams begin with gap fill and a SPLICE region. A
transport whose reels do not run yet is started first. No end-of-data search has been made, so data sets are confirmed by what follows
them (R250); where MOT has sought no ACT_BASE here, the bases are free values (notes/assumptions/85.md). -/
def Dev.takeTransport (d : Dev) (slot i t : Nat) (mem : Member) : Dev :=
  let d := ((d.claim t).readVols t).loadRetire t
  let m := d.motAt t
  let runs := d.motMoving t
  let d := (d.modTp t fun p => { p with mounted := some (slot, i, mem.write) }).modRd t fun r => { r with eodDone := false }
  let bands := d.idn t 39 1 - 1
  let d := if (d.motAt t).lat.base = [] then
      (d.modMot t fun m => { m with lat := { m.lat with base := (List.range bands).map fun b => toSigned 16 (Config.freeValue (d.free + b)).toNat } }).spend bands
    else d
  let w0 : Wr := { plain := true, splice := true, wrap := m.wrap, eod := mem.next, staged := (d.wrAt t).staged, append := m.lpos, ended := m.lpos }
  if ! mem.write then d.modWr t fun _ => w0
  else
    let d := d.modMot t fun m => { m with travel := .write }
    if runs then
      (d.modWr t fun _ => { w0 with mode := .streaming, base := (d.tpAt t).off }).modWr t (fun w => { w with todo := d.gapOf t, lastKind := .gap }) |>.detectorStart t false
    else ((d.modWr t fun _ => { w0 with mode := .approach }).motStart t (m.wrap % 2 == 1)).modMot t fun m => { m with travel := .write }

/-- A span set goes on under the device (R119, R309, R319, R323, R421): its reserve epoch, splices, rows, and a rebuild from its
last checkpoint. -/
def takeSpan (p : Partner) (m : TakeMap) (hd : Hbm × Dev) (old : Nat) (s : Span) : Hbm × Dev :=
  let (h, d) := hd
  match m.slot old with
  | none => hd
  | some slot =>
    let rows := s.rows.map fun (n, r) =>
      let missing := r.missing
      if r.st = .complete ∨ r.st = .lost then (n, { r with released := true, bufs := [], chunks := r.chunks.map fun cs => cs.map (m.chunk + ·) })
      else if r.st = .writing then (n, { r with bufs := [] })
      else (n, { st := .gathering, missing := missing, chunks := List.replicate (s.descOf n).k [] })
    let s' : Span := { s with
      rows := rows, members := s.members.zipIdx.map fun (x, i) => { x with splice := some (s.takeSplice i x), slow := 0 }
      jrnlAt := d.clk, patrolAt := d.clk, recovered := true, closeReq := false
      newMembers := s.newMembers.map fun x => { x with mounted := false, write := false, redo := decide (s.phase = 1) }
      rebuild := s.rebuild.map Rebuild.atMark }
    let d := { d with spn := { d.spn with slots := tput d.spn.slots slot s' } }
    let d := (s'.members.zipIdx.filter fun x => x.1.mounted).foldl (fun d x =>
      match d.memberTp s' s'.openRow x.2 with
      | some t => d.takeTransport slot x.2 t x.1
      | none => d) d
    let d := (d.epochSwitch slot).resumeWork slot
    let redo := ((s.rows.filter fun r => r.2.st == .writing).map (·.1))
    redo.foldl (fun hd n => rewriteRow p m old slot hd n) (h, d)

/-- Whether a mirrored record describes a service address. -/
def MirRec.isSvc : MirRec → Bool
  | .svc _ _ _ _ => true
  | _ => false

/-- Whether a mirrored record describes a tenant. -/
def MirRec.isTenant : MirRec → Bool
  | .tenant _ _ => true
  | _ => false

/-- TRANSPORT_CLAIM (R421, steps 2 to 4), at the boundary after the declaration. -/
def pairClaim (hd : Hbm × Dev) (k : Takeover) : Hbm × Dev :=
  let (h, d) := hd
  let p := d.pair.partner
  let m := d.takeMap
  let d := d.releaseAll (p.store.filterMap (·.2)) 10
  let recs := p.store.map (·.1)
  let hd := d.partnerSpans.foldl (fun hd x => takeSpan p m hd x.1 x.2) (h, d)
  let hd := recs.foldl (fun (hd : Hbm × Dev) r => match r with
    | .conn c k => (hd.1, takeConn p hd.2 c k)
    | .session n s => takeSession m hd n s
    | .tenant t x => (hd.1, hd.2.modTenant t fun own => { own with
        seq := max own.seq x.seq, restart := own.restart && x.restart, weight := if own.classes = 0 then x.weight else own.weight, classes := if own.classes = 0 then x.classes else own.classes })
    | _ => hd) hd
  let hd := p.cmds.foldl (fun hd x => takeCmd p m hd x.1 x.2) hd
  let (h, d) := recs.foldl (fun (hd : Hbm × Dev) r => match r with
    | .seal id c s => takeChunk p m hd id c s
    | _ => hd) hd
  let bits_ := (k.tps.map (2 ^ ·)).sum
  let d := d.postBoth 0x83 blkFab 0 [item d.partnerAddr, item d.tick.toNat, item bits_]
  let d : Dev := { d with
    fab := { d.fab with taken := BitVec.ofNat 8 d.partnerAddr }
    pair := { d.pair with
      takeover := some { k with claimed := true }, tookOver := true, arpAt := some d.nextVis, arpDone := 0
      svcs := recs.filter MirRec.isSvc
      partner := { p with control := [], batches := [], store := (p.store.filter (·.1.isTenant)).map fun x => (x.1, none) } } }
  (h, (d.partnerSvcs.foldl Dev.announce d.lsaChanged).enterSolo 2)

/-- TAKEOVER_COMPLETE (R421): every claimed transport reports the device's port as its owner. -/
def execTakeoverComplete (s : State) : Host.Outcome State Fault Refusal :=
  nextDev s fun d =>
    match d.pair.takeover with
    | some k => if k.claimed ∧ k.tps.all (fun t => d.flag Fld.tpLinkStatOwner t) then { d with pair := { d.pair with takeover := none } } else d
    | none => d

/-- TAKEOVER_DEADLINE (R421): a transport that is not owned by boundary f + 15 counts as a failed member; the manual gives
its SPN_MEMBER_FAILED no cause, which is a free value. -/
def execTakeoverDeadline (tp : Nat) (s : State) : Host.Outcome State Fault Refusal :=
  nextDev s fun d =>
    match d.pair.takeover with
    | some k =>
      if k.claimed ∧ k.tps.contains tp ∧ k.f + 15 ≤ d.clk ∧ ! d.flag Fld.tpLinkStatOwner tp then
        let d : Dev := { d with pair := { d.pair with takeover := some { k with tps := k.tps.filter (· != tp) } } }
        match (d.tpAt tp).mounted with
        | some (slot, i, _) => (d.spend).memberFail slot i (1 + d.fresh.toNat % 5)
        | none => d
      else d
    | none => d

/-- ARP_REPEAT (R421): 50 and 500 ticks after the first announcement. -/
def execArpRepeat (s : State) : Host.Outcome State Fault Refusal :=
  nextDev s fun d =>
    match d.pair.arpAt with
    | some t =>
      if d.pair.arpDone = 0 ∧ t + 50 ≤ d.clk then d.partnerSvcs.foldl Dev.announce { d with pair := { d.pair with arpDone := 1 } }
      else if d.pair.arpDone = 1 ∧ t + 500 ≤ d.clk then d.partnerSvcs.foldl Dev.announce { d with pair := { d.pair with arpDone := 2, arpAt := none } }
      else d
    | none => d

/-! ### Resync (R413, R423) -/

/-- PAIR_RESYNC (R413, R423): the partner's heartbeats are there; everything is sent in class 2, and mirroring begins. -/
def execPairResync (s : State) : Host.Outcome State Fault Refusal :=
  nextHd s fun hd =>
    let (h, d) := hd
    let st := d.fld Fld.fabPairStatState
    if d.flag Fld.fabPairCfgEn ∧ st ≠ 1 ∧ st ≠ 2 ∧ 1 ≤ d.pair.partner.beatRun ∧ d.pair.takeover.isNone then
      let now := d.mirrorNow h
      let d := (d.setFld Fld.fabPairStatState 0 1)
      let d := now.foldl (fun d r => d.fabSend d.partnerAddr 2 0x23 0 (.resync r)) d
      let d : Dev := { d with
        fab := { d.fab with taken := 0xFF }
        pair := { d.pair with last := now, sent := [], resend := [], acked := none, partSince := none, resync := some (BitVec.ofNat 48 d.fabTickNow) } }
      (h, d.lsaChanged)
    else hd

/-- PAIR_PROTECTED (R413, R423): the resync is committed, and heartbeats have passed for 8 ticks in a row. -/
def execPairProtected (s : State) : Host.Outcome State Fault Refusal :=
  nextDev s fun d =>
    match d.pair.resync, d.pair.acked with
    | some t, some a =>
      if d.fld Fld.fabPairStatState = 1 ∧ 8 ≤ d.pair.partner.beatRun ∧ seqFrom t (a + BitVec.ofNat 48 d.timeOfs) then
        ({ d with pair := { d.pair with resync := none, tookOver := false } } : Dev).setFld Fld.fabPairStatState 0 2 |>.postEvent 0x86 blkFab 0 [item d.partnerAddr]
      else d
    | _, _ => d

/-- The pair at a boundary: claims that are due, missed heartbeats, the batch of the tick and the heartbeat. -/
def pairTick (hd : Hbm × Dev) : Hbm × Dev :=
  let hd := match hd.2.pair.takeover with
    | some k => if ! k.claimed then pairClaim hd k else hd
    | none => hd
  let (h, d) := hd
  (h, ((d.heartbeatCount).mirrorTick h).heartbeatTick)

end Sys2Proof.Machine
end

