-- ==== Sys2Proof/Machine/Resets.lean ====
section
/-! DEFINITION. Supplies and resets (R8, R22, R89, R307, R351, R436, R444, R464, R467 to R470): what a warm and a cold reset keep,
and the reset sequence at the boundaries. -/

namespace Sys2Proof.Machine

/-- The bypass switches of the TAP and the sideband close while VCORE is absent or RESET_N is low (R444). -/
def Dev.setBypass (d : Dev) : Dev := { d with pins := { d.pins with bypass := ! d.hlt.vcore || ! d.hlt.resetN } }

/-! ### What a warm reset does (R22, R89, R307, R351) -/

/-- Every grant window is withdrawn at once, without its drain, and its Kilderkin freed (R89); the same holds for a Kilderkin
that no READY capsule has used yet. -/
def Dev.warmWindows (d : Dev) : Dev :=
  let hs := (d.grantsLive.map fun w => w.2.handle) ++ d.pool.done.map (·.2)
  (({ d with pool := { d.pool with done := [] } } : Dev).releaseAll hs 1)

/-- A chunk that has been sealed goes on; any other is lost with its buffers (R89, R351). -/
def Dev.warmChunk (d : Dev) (x : Nat × Chunk) : Dev :=
  match x.2.st with
  | .sealed | .placed | .onTape | .lost | .dropped => d
  | .filling | .closed | .queued | .running | .cipher | .ready => d.dropChunk x.1 stAborted

/-- Every open session closes (R89): held entries are posted, and SESSION_CLOSED follows once what is sealed is known. In a
protected pair the partner takes the sessions over, and nothing is posted. -/
def Dev.warmSessions (d : Dev) : Dev :=
  let open_ := (d.ses.sessions.filter fun s => ! s.2.dead).map (·.1)
  if d.fld Fld.fabPairStatState = 2 then open_.foldl (fun d n => d.modSes n fun s => { s with dead := true, held := [] }) d
  else open_.foldl (fun d n => (d.dropSession n).modSes n fun s => { s with report := true }) d

/-- The data sets of a transport that lack VERIFIED, to be written again with ATTEMPT increased by 1 (R307). Those of a rebuild
are left to its resumption (R319). -/
def Wr.afterWarm (w : Wr) : Wr :=
  let left := (w.live ++ w.again ++ w.staged).filter fun x => ! x.verified && (! x.rebuilt || decide (spanSlotMax ≤ x.slot))
  { again := (left.map fun x => ({ no := x.no, slot := x.slot, row := x.row, member := x.member, payload := x.payload, attempt := x.attempt + 1, rebuilt := x.rebuilt } : DsWr)).mergeSort fun a b => decide (a.no ≤ b.no)
    lastKind := .region }

/-- Payloads that a rebuild had staged. -/
def Wr.rebuildBufs (w : Wr) : List (BitVec 32) :=
  ((w.live ++ w.again ++ w.staged).filter fun x => x.rebuilt && decide (x.slot < spanSlotMax)).map (·.payload)

/-- A span set after a warm reset: its rows stand (R307), nothing is mounted, the epoch is the reserve (R119), and a rebuild is back at its
checkpoint and a shape change at its own, until the span set is mounted again (R319, R323). -/
def Span.afterWarm (s : Span) : Span :=
  let off (m : Member) : Member := { m with mounted := false, write := false }
  { s with
    members := s.members.map off, newMembers := s.newMembers.map fun m => { off m with redo := decide (s.phase = 1) }
    writing := false, dismount := false, rebuild := s.rebuild.map Rebuild.atMark
    epoch := { s.epoch with cur := s.epoch.reserve, count := 0, have_ := 0, waiting := false }
    peerData := [], recovered := true, closeReq := false }

/-- The core is reset, HBM keeps its contents (R22, R468). Requests for payload buffers of rows stand. -/
def Dev.warmCore (d : Dev) : Dev :=
  let d := d.warmSessions.warmWindows
  let d := d.ses.chunks.foldl Dev.warmChunk d
  let d := d.releaseAll (d.wr.flatMap Wr.rebuildBufs) 5
  let d := d.releaseAll (d.wr.flatMap Wr.shares) 6
  let boot := d.fld Fld.ctlBootStatState
  let ver := d.fld Fld.ctlFwVerVersion
  let kek := d.flag Fld.cipKekCtlLoaded
  let d : Dev := { d with
    regs := resetRegs false d.regs, regw := []
    mem := { d.mem with mash := [], fills := [], uePosted := [], afPosted := [] }
    pool := { d.pool with reqs := d.pool.reqs.filter fun r => match r.purpose with
      | .payload _ _ _ => true
      | .grant _ => false
      | .original _ => false
      | .nextStored _ => false
      | .stored _ => false
      | .overflow _ => false
      | .sample _ => false
      | .peer _ _ _ => true }
    que := {}
    ctl := { evSeq := d.ctl.evSeq, evq := d.ctl.evq, evDrop := d.ctl.evDrop, staged := d.ctl.staged, metq := d.ctl.metq, lockPending := d.ctl.lockPending }
    rte := { conns := d.rte.conns, tenants := d.rte.tenants, nextCmd := d.rte.nextCmd }
    sch := {}
    ses := { sessions := d.ses.sessions.map fun s => (s.1, { s.2 with open_ := none }), lastNum := d.ses.lastNum, chunks := d.ses.chunks, nextChunk := d.ses.nextChunk }
    dru := { kekW := d.dru.kekW }
    spn := { slots := d.spn.slots.map fun s => (s.1, s.2.afterWarm), suspects := d.spn.suspects }
    tp := List.replicate 8 {}
    wr := d.wr.map Wr.afterWarm
    rd := d.rd.map fun r => { ring := r.ring }
    mot := List.replicate 8 {}
    fab := { mySeq := d.fab.mySeq }
    pair := { partner := { store := d.pair.partner.store } }
    eth := {}
    age := { tap := d.age.tap, sbLast := d.age.sbLast, sbNextHead := d.age.sbNextHead }
    ovr := {} }
  let d := if boot = 2 then (d.setFld Fld.ctlBootStatState 0 2).setFld Fld.ctlFwVerVersion 0 ver else d
  d.setFlag Fld.cipKekCtlLoaded 0 kek

/-! ### What a cold reset does (R22, R436) -/

/-- The core and everything on chip is reset, the contents of HBM are lost, the key-encryption key is erased; the tick counter,
the cellar log and the kept registers stand, and HLT_BOOT_CNT counts. -/
def coldCore (hd : Hbm × Dev) : Hbm × Dev :=
  let d := hd.2
  let d' : Dev := {
    tick := d.tick, clk := d.clk, regs := resetRegs true d.regs
    hlt := { d.hlt with kek := none, bootCause := 2 }
    age := { tap := d.age.tap, sbLast := d.age.sbLast, sbNextHead := d.age.sbNextHead }
    pins := d.pins, out := d.out, free := d.free }
  (Hbm.empty, d'.bump Fld.hltBootCntCount)

/-- Records that wait as the scan begins are numbered from 0; CELLAR_SCAN_DONE continues the log's numbers with them (R436). -/
def Dev.seqRestart (d : Dev) : Dev :=
  let n := d.hlt.ahead.length
  let feed := (d.queAt 0xF8).items.zipIdx.map fun (it, i) =>
    if leAt it.body 0 1 = 5 then { it with body := overwrite it.body 4 (leBytes 4 (n + i)) } else it
  let d := d.modQue 0xF8 fun q => { q with items := feed }
  { d with hlt := { d.hlt with
      ahead := d.hlt.ahead.zipIdx.map fun (r, i) => { r with seq := BitVec.ofNat 32 i }
      seq := BitVec.ofNat 32 (n + feed.length), scanning := true } }

/-! ### The reset sequence (R466 to R469) -/

/-- The reset that the requests of a tick make, with its CAUSE and SUPPLY (R464, R469, R477): a supply fault or thermal trip, then
any cold reset, then a warm one; RESET_N before SMBus. -/
def Dev.resetWanted (d : Dev) : Option (Bool × Nat × Nat) :=
  match d.pins.reqTrip with
  | some (c, s) => some (true, c, s)
  | none =>
    if d.pins.reqPin = .cold then some (true, 2, 0)
    else if d.pins.reqSmb = .cold then some (true, 4, 0)
    else if d.pins.reqPin = .warm then some (false, 3, 0)
    else if d.pins.reqSmb = .warm then some (false, 5, 0)
    else none

/-- The records of a power-fail warning wait to be written (R469). -/
def Dev.pfPending (d : Dev) : Bool := d.pins.pfAt.isSome || (d.pins.pfTaken && d.hlt.ahead != [])

/-- A reset is taken at boundary b (R468): a cold one resets the core at once; a warm one stops new input. A warm reset during
the entry of another is ignored (R469). -/
def resetTake (hd : Hbm × Dev) : Hbm × Dev :=
  let (h, d) := hd
  match d.resetWanted with
  | none => hd
  | some (cold, cause, supply) =>
    if d.pfPending then hd
    else
      let d : Dev := { d with pins := { d.pins with reqPin := .none, reqSmb := .none, reqTrip := none } }
      if ! cold ∧ d.pins.entering ≠ .none then (h, d)
      else
        let d := (d.setFld Fld.hltResetStatCause 0 cause).setFld Fld.hltResetStatSupply 0 supply
        if cold then
          let (h, d) := coldCore (h, d)
          (h, ({ d with pins := { d.pins with entering := .cold, resetAt := d.clk, held := true, pfTaken := false } } : Dev).setFlag Fld.hltPwrStatPf 0 false)
        else (h, { d with pins := { d.pins with entering := .warm, resetAt := d.clk } })

/-- A warm reset under way (R468): in tick b the mash entries are written out; at b + 2 the core is reset. -/
def resetGo (hd : Hbm × Dev) : Hbm × Dev :=
  let d := hd.2
  if d.pins.entering = .warm ∧ ! d.pins.held then
    if d.clk = d.pins.resetAt + 1 then mashFlushAll hd
    else if d.pins.resetAt + 2 ≤ d.clk then
      let d := d.warmCore
      (hd.1, ({ d with pins := { d.pins with held := true, pfTaken := false } } : Dev).setFlag Fld.hltPwrStatPf 0 false)
    else hd
  else hd

/-- The core leaves reset (R468): after a warm reset HLT writes a BOOT record with cause 3; after a cold one it commands VBASE and
scans the cellar log. -/
def Dev.resetRelease (d : Dev) : Dev :=
  if d.pins.held ∧ d.hlt.resetN ∧ d.hlt.vcore ∧ ! d.pins.faulted ∧ (! d.pins.tripped || d.pins.cool) then
    let warm := d.pins.entering == .warm
    let d : Dev := { d with pins := { d.pins with entering := .none, held := false, tripped := false, thermN := ! d.flag Fld.hltThermStatWarn } }
    if warm then d.cellarAhead blkHlt 0 0xC4 (itemsPayload [item 3, item d.hlt.lastFound, item (d.fld Fld.hltCellarErrBadSlots)])
    else (({ d with hlt := { d.hlt with avsNow := 0, avsTries := 0 } } : Dev).avsSend 0).seqRestart
  else d

/-- The reset sequencer at a boundary. -/
def resetBoundary (hd : Hbm × Dev) : Hbm × Dev :=
  let (h, d) := resetGo (resetTake hd)
  (h, d.resetRelease)

/-! ### The commands -/

/-- SUPPLY_FAULT (R464): the monitor of VCORE (1), VSRD, VSRDH, VHBM or VIO trips; the first one is named. -/
def execSupplyFault (supply : Nat) (s : State) : Host.Outcome State Fault Refusal :=
  nextAon s fun d =>
    if supply < 1 ∨ 5 < supply then d
    else
      let first := match d.pins.reqTrip with
        | some (7, n) => n
        | _ => supply
      ({ d with
        pins := { d.pins with reqTrip := some (7, first), faulted := true }
        hlt := { d.hlt with vcore := d.hlt.vcore && supply != 1 } } : Dev).setBypass

/-- POWER_DOWN (R464): VAON is lost. -/
def execPowerDown (s : State) : Host.Outcome State Fault Refusal :=
  nextAon s fun d => ({ d with hlt := { d.hlt with vaon := false, vcore := false } } : Dev).setBypass

/-- The device as VAON rises (R8, R22, R436, R478): the tick counter is 0, MRAM keeps its slots, and with it the pinned slots used
and the boot count; everything else is at reset. -/
def Dev.powerUp (d : Dev) (strap : BitVec 2) : Dev :=
  let pinned := ((d.hlt.mram.filter fun x => decide (x.1 < mainFirst)).map fun x => x.1 + 1).foldl max 0
  let d' : Dev := {
    clk := d.clk, out := d.out, free := d.free
    hlt := { mram := d.hlt.mram, strap := strap, bootCause := 1 }
    pins := { entering := .cold, resetAt := d.clk, held := true } }
  ((d'.setFld Fld.hltBootCntCount 0 (d.fld Fld.hltBootCntCount)).bump Fld.hltBootCntCount).setFld Fld.hltCellarStatPinned 0 pinned

/-- POWER_UP (R8): VAON is applied; supplies are in range and RESET_N is high unless a command says otherwise. -/
def execPowerUp (strap : BitVec 2) (s : State) : Host.Outcome State Fault Refusal :=
  .next (if s.dev.hlt.vaon then s else { s with hbm := Hbm.empty, dev := s.dev.powerUp strap })

/-- COLD_RESET (R467, R468): RESET_N is taken low with WARM_N high; the SMB_ADDR straps are sampled. -/
def execColdReset (strap : BitVec 2) (s : State) : Host.Outcome State Fault Refusal :=
  nextAon s fun d => ({ d with hlt := { d.hlt with resetN := false, strap := strap }, pins := { d.pins with reqPin := .cold } } : Dev).setBypass

/-- WARM_RESET (R467, R468): RESET_N is taken low with WARM_N low. -/
def execWarmReset (s : State) : Host.Outcome State Fault Refusal :=
  nextAon s fun d => ({ d with hlt := { d.hlt with resetN := false }, pins := { d.pins with reqPin := .warm } } : Dev).setBypass

/-- RESET_RELEASE (R464, R467, R468): RESET_N is taken high, with every supply in range. -/
def execResetRelease (s : State) : Host.Outcome State Fault Refusal :=
  nextAon s fun d => ({ d with hlt := { d.hlt with resetN := true, vcore := true }, pins := { d.pins with faulted := false } } : Dev).setBypass

end Sys2Proof.Machine
end

