-- ==== Sys2Proof/Machine/Scrub.lean ====
section
/-! DEFINITION. The memory system's own steps (R343, R345, R346): mash write-out, the scrubber and the leaky buckets. -/

namespace Sys2Proof.Machine

/-- BUCKET_LEAK (R346): at a boundary whose tick is a multiple of LEAK, each bucket above 0 loses 1. -/
def execBucketLeak (s : State) : Host.Outcome State Fault Refusal :=
  nextDev s fun d =>
    if d.tick.toNat % d.fld1 Fld.memBktCfgLeak = 0 then
      (List.range 32).foldl (fun d g => d.setFld Fld.memBktStatLevel g (d.fld Fld.memBktStatLevel g - 1)) d
    else d

/-- MASH_WRITE_OUT (R343): two boundaries after its creation an entry is written out. No word stands past the end of buffer
memory (R329): such an address stops the machine. -/
def execMashWriteOut (word : Nat) (s : State) : Host.Outcome State Fault Refusal :=
  if hbmWords ≤ word then .fault (.badAddress word)
  else nextHd s fun hd =>
    match hd.2.mashAt word with
    | some e => if e.born + 2 ≤ hd.2.clk ∧ ! hd.2.stalls blkMem (memGroup word % 2) 2 then mashOut hd e else hd
    | none => hd

/-- The word at which the scrubber goes on (R349). -/
def Dev.scrubPos (d : Dev) : Nat := (d.fld Fld.memScrubPosLoAddr + 2 ^ 32 * d.fld Fld.memScrubPosHiAddr) / 32

/-- Set the scrub position. -/
def Dev.setScrubPos (d : Dev) (w : Nat) : Dev :=
  (d.setFld Fld.memScrubPosLoAddr 0 (32 * w % 2 ^ 32)).setFld Fld.memScrubPosHiAddr 0 (32 * w / 2 ^ 32)

/-- Read one word and put it right (R345); a word that has a mash entry is skipped. -/
def scrubWord (hd : Hbm × Dev) (w : Nat) : Hbm × Dev :=
  let (h, d) := hd
  if (d.mashAt w).isSome then hd
  else
    let (c, data, _) := h.classify w
    let d := d.memClass w blkMem c
    match c with
    | .corrected => (h.putWord w data false, { d with mem := { d.mem with passCe := d.mem.passCe + 1 } })
    | .uncorrectable => (h.putWord w data true, { d with mem := { d.mem with passUe := d.mem.passUe + 1 } })
    | .clean => (h, d)
    | .poison => (h, d)
    | .addressFault => (h, d)
    | .unwritten => (h, d)

/-- The end of a pass: MEM_SCRUB_PASS (R345, R348). -/
def Dev.scrubPass (d : Dev) : Dev :=
  let d := d.bump Fld.memScrubStatPasses
  { (d.postEvent 0x74 blkMem 0 [item (d.fld Fld.memScrubStatPasses), item d.mem.passCe, item d.mem.passUe]) with
    mem := { d.mem with passCe := 0, passUe := 0 } }

/-- The first marked page from a page on; runs stand in page order. -/
def Hbm.markedFrom (h : Hbm) (p : Nat) : Option Nat := (h.runs.find? fun r => decide (p ≤ r.last)).map fun r => max p r.first

/-- Scrub `n` words of marked pages in increasing address order with wrap. -/
def scrubGo : Nat → Hbm × Dev → Hbm × Dev
  | 0, hd => hd
  | n + 1, hd =>
    let w := hd.2.scrubPos
    match hd.1.markedFrom (w / 128), hd.1.markedFrom 0 with
    | some p, _ =>
      let w := if p = w / 128 then w else 128 * p
      let (h, d) := scrubWord hd w
      let d := match h.markedFrom ((w + 1) / 128) with
        | some _ => d.setScrubPos (w + 1)
        | none => (d.setScrubPos 0).scrubPass
      scrubGo n (h, d)
    | none, some p =>
      let (h, d) := scrubWord (hd.1, hd.2.scrubPass) (128 * p)
      scrubGo n (h, d.setScrubPos (128 * p + 1))
    | none, none => hd

/-- The words that the scrubber reads in a tick (R345, R349): RATE KiB, 1 to 1,024. -/
def Dev.scrubRate (d : Dev) : Nat := 32 * min 1024 (d.fld1 Fld.memScrubCfgRate)

/-- The scrubber's step of a tick (R345). -/
def scrubTick (hd : Hbm × Dev) : Hbm × Dev :=
  if hd.2.flag Fld.memScrubCfgEn then scrubGo hd.2.scrubRate hd else hd

end Sys2Proof.Machine
end

