-- ==== Sys2Proof/Machine/Tick.lean ====
section
/-! DEFINITION. The tick boundary (R7 to R16): the steps of the tick that ends run on the state committed at its start, a consumer
before its producers; then what the boundary itself does, in the order of notes/assumptions/2.md. A step that overran does
not run. -/

namespace Sys2Proof.Machine

/-! ### Buffers that POOL commits (R356) -/

/-- A handle committed for a chunk: its stored buffer or one of its overflow buffers; a chunk that is gone gives it back. -/
def Dev.giveChunk (d : Dev) (id : Nat) (b : BitVec 32) (first : Bool) : Dev :=
  match tget d.ses.chunks id with
  | none => d.release b 4
  | some c =>
    if c.st.final ∨ (first ∧ c.stored.isSome) then d.release b 4
    else d.modChunk id fun c => if first then { c with stored := some b } else { c with ovf := c.ovf ++ [b] }

/-- The original Kilderkin of a session's next chunk (R97). -/
def Dev.giveOriginal (d : Dev) (n : Nat) (b : BitVec 32) : Dev :=
  match tget d.ses.sessions n with
  | some s => if s.buf.isSome then d.release b 2 else d.modSes n fun s => { s with buf := some b }
  | none => d.release b 2

/-- The stored Kilderkin of a session's next chunk (R97). -/
def Dev.giveNextStored (d : Dev) (n : Nat) (b : BitVec 32) : Dev :=
  match tget d.ses.sessions n with
  | some s => if s.storedBuf.isSome then d.release b 4 else d.modSes n fun s => { s with storedBuf := some b }
  | none => d.release b 4

/-- The buffer of a member's payload (R139). -/
def Dev.givePayload (d : Dev) (slot row i : Nat) (b : BitVec 32) : Dev :=
  match (d.spanAt slot).bind fun s => tget s.rows row with
  | none => d.release b 5
  | some r =>
    if r.bufs.length ≤ i ∨ (r.bufs.getD i none).isSome then d.release b 5
    else d.modSpan slot fun s => { s with rows := tmod s.rows row fun r => { r with bufs := r.bufs.set i (some b) } }

/-- A Hogshead of a sample ring (R244). -/
def Dev.giveSample (d : Dev) (t : Nat) (b : BitVec 32) : Dev :=
  if (d.rdAt t).goal = .none ∨ 18 ≤ (d.rdAt t).ring.length then d.release b 8 else d.modRd t fun r => { r with ring := r.ring ++ [b] }

/-- The buffer of a data set that a peer has sent for one of the device's transports (R326): it is stored and staged. -/
def givePeer (hd : Hbm × Dev) (src t row : Nat) (b : BitVec 32) : Hbm × Dev :=
  match hd.2.fab.peerIn.find? fun x => x.is src t row with
  | none => (hd.1, hd.2.release b 10)
  | some x =>
    let bs := x.got.bytes
    let (h, d) := bufPutWords hd b { x.got with bytes := bs.take payloadLen }
    let d : Dev := { d with fab := { d.fab with peerIn := d.fab.peerIn.filter fun x => ! x.is src t row } }
    (h, d.stage t { no := leAt bs 16 6, slot := spanSlotMax + src, row := row, member := leAt bs 26 1, payload := b, rebuilt := true })

/-- A committed handle reaches what it was asked for; a grant's waits for its READY capsule, unless its command has ended. -/
def give (hd : Hbm × Dev) (x : PoolUse × BitVec 32) : Hbm × Dev :=
  let (h, d) := hd
  match x.1 with
  | .grant c =>
    if (tget d.rte.cmds c).any fun k => ! k.answered && k.wr.limit.isNone then (h, { d with pool := { d.pool with done := d.pool.done ++ [x] } })
    else (h, d.release x.2 1)
  | .original n => (h, d.giveOriginal n x.2)
  | .nextStored n => (h, d.giveNextStored n x.2)
  | .stored c => (h, d.giveChunk c x.2 true)
  | .overflow c => (h, d.giveChunk c x.2 false)
  | .payload s r i => (h, d.givePayload s r i x.2)
  | .sample t => (h, d.giveSample t x.2)
  | .peer s t r => givePeer hd s t r x.2

/-- POOL's pass of one tick (R356). -/
def poolTick (hd : Hbm × Dev) : Hbm × Dev :=
  if hd.2.stalls blkPool 0 1 then hd
  else
    let (d, got) := hd.2.poolPass hd.2.clk
    got.foldl give (hd.1, d)

/-- Data sets that have come whole from peers ask for a buffer (R415). -/
def Dev.peerAsk (d : Dev) : Dev :=
  (d.fab.peerIn.filter fun x => decide (x.tp < 8) && decide (payloadLen ≤ x.got.bytes.length)
      && ! d.pool.reqs.any fun r => r.purpose == .peer x.src x.tp x.row).foldl (fun d x =>
    d.poolRequest payloadLen 10 10 false (.peer x.src x.tp x.row)) d

/-! ### The steps of a tick -/

/-- A step of a block, by its STEP code, runs unless it has overrun (R16). -/
def stepOf (block inst step : Nat) (f : Hbm × Dev → Hbm × Dev) (hd : Hbm × Dev) : Hbm × Dev := if hd.2.stalls block inst step then hd else f hd

/-- A step that changes no buffer memory. -/
def onDev (f : Dev → Dev) (hd : Hbm × Dev) : Hbm × Dev := (hd.1, f hd.2)

/-- A change of each of a list of instances. -/
def each (l : List Nat) (f : Nat → Hbm × Dev → Hbm × Dev) (hd : Hbm × Dev) : Hbm × Dev := l.foldl (fun hd i => f i hd) hd

/-- The transports. -/
def tps : List Nat := List.range 8

/-- A row's payloads are all complete. -/
def Span.rowWhole (s : Span) (n : Nat) (r : Row) : Bool :=
  r.st == .writing && decide ((s.descOf n).k * payloadLen ≤ r.assembled) && (decide ((s.descOf n).p = 0) || r.parity == parityTotal)

/-- The rows of a span set that are whole. -/
def Dev.wholeRows (d : Dev) (slot : Nat) : List Nat :=
  match d.spanAt slot with
  | some s => (s.rows.filter fun r => s.rowWhole r.1 r.2).map (·.1)
  | none => []

/-- P and Q of one span set (R300); a row that has become whole is sent to its members on peers (R326). -/
def spanTick (slot : Nat) (hd : Hbm × Dev) : Hbm × Dev :=
  let before := hd.2.wholeRows slot
  let ((h, d), left) := parityTick hd slot
  let d := if d.stalls blkSpn 0 2 then d else d.reconTick slot left
  (h, ((d.wholeRows slot).filter fun n => ! before.contains n).foldl (fun d n =>
    match d.spanAt slot with
    | some s =>
      match tget s.rows n with
      | some r => d.sendPeers h n r s
      | none => d
    | none => d) d)

/-- RTE and POOL. -/
def frontTick (hd : Hbm × Dev) : Hbm × Dev :=
  let hd := stepOf blkRte 0 0 (fun hd => onDev Dev.abortTick (actWaiting (onDev Dev.drainDue hd))) hd
  onDev Dev.peerAsk (poolTick hd)

/-- Drupelets, cipher units and dispatch to them. -/
def chunkTick (hd : Hbm × Dev) : Hbm × Dev :=
  let hd := cipTick hd
  let hd := each (List.range 48) (fun i hd => if hd.2.stallsAny blkDru i then hd else druRunGo i 20 quantum quantum hd) hd
  let hd := onDev (fun d => let d := d.druTake false; (if d.flag Fld.druArbCfgLend then d.druTake true else d).druPointer) hd
  onDev Dev.readDispatch hd

/-- The write path of a transport, from its link back to the encoder. -/
def writeTick (t : Nat) (hd : Hbm × Dev) : Hbm × Dev :=
  let hd := onDev (fun d => (d.writtenTick t).pruneStream t) hd
  let hd : Hbm × Dev := (hd.1, hd.2.downstream hd.1 t)
  stepOf blkEnc 0 2 (fun hd => c2Pass hd t) (stepOf blkEnc 0 1 (fun hd => encodeTick hd t) hd)

/-- C1 of every transport, and then C2, with one loan of detector samples for all (R230, R246). -/
def decodeTick (hd : Hbm × Dev) : Hbm × Dev :=
  let hd := stepOf blkDec 0 1 (onDev fun d => tps.foldl Dev.c1Tick d) hd
  stepOf blkDec 0 2 (onDev fun d => (tps.foldl (fun (x : Dev × Nat) t => Dev.c2Tick hd.1 x.1 t x.2) (d, d.detectLoan)).1) hd

/-- Reading, travel, motion and the port of a transport. -/
def moveTick (t : Nat) (hd : Hbm × Dev) : Hbm × Dev :=
  let hd := onDev (fun d => d.rdTravel t) hd
  let hd : Hbm × Dev := (hd.1, hd.2.arbitrate hd.1 t)
  let hd := onDev (fun d => (d.travelTick t).speedTick t) hd
  let hd := stepOf blkMot t 1 (onDev fun d => d.motUpdate t) hd
  onDev (fun d => (d.portTick t).volStart t) hd

/-- Control cores, span sets and memory. -/
def backTick (hd : Hbm × Dev) : Hbm × Dev :=
  let slots := hd.2.spn.slots.map (·.1)
  let hd := onDev (fun d => slots.foldl Dev.slowTick d) hd
  let hd := stepOf blkCtl 0 0 (onDev fun d => slots.foldl (fun d s => (d.prepareTick s).rebuildReady s) d.adminTick) hd
  let hd := stepOf blkMem 0 3 (stepOf blkMem 1 3 fillTick) hd
  let hd := stepOf blkMem 0 1 (stepOf blkMem 1 1 scrubTick) hd
  let hd := onDev Dev.fabTick hd
  let hd := pairTick hd
  let hd := onDev (fun d => d.closedTick.syncJournal) hd
  stepOf blkMem 0 2 (stepOf blkMem 1 2 mashFlushFull) hd

/-- The inputs that arrived in the tick are taken (R10, R173): the intervals of each transport, behind those that a step which overran
has left (R16). -/
def Dev.takeInputs (d : Dev) : Dev :=
  tps.foldl (fun d t =>
    let (xs, owed) := orderIns (d.tpAt t).owed (d.tpAt t).ins
    let d := d.motTake t xs
    let d := d.modRd t fun r => { r with inp := r.inp ++ xs }
    d.modTp t fun p => { p with ins := [], owed := owed }) d

/-- The steps of the tick that ends, while the core runs. -/
def coreTick (hd : Hbm × Dev) : Hbm × Dev :=
  let hd := chunkTick (frontTick hd)
  let hd := each tps writeTick hd
  let hd := each (hd.2.spn.slots.map (·.1)) (fun s => stepOf blkSpn 0 1 (spanTick s)) hd
  let hd := stepOf blkPkr 0 2 assembleTick hd
  let hd := decodeTick hd
  let plan := hd.2.detectPlan.1
  let hd := each tps (fun t => stepOf blkRdc 0 1 fun hd => detectTick hd plan t) hd
  let hd := backTick (each tps moveTick hd)
  let hd := contextTick (onDev (fun d => ((if d.stalls blkQue 0 1 then d.pfcLate else d.pfcLate.watermarks).purge.flushHeld).takeInputs) hd)
  queStoreAll hd

/-! ### The boundary -/

/-- What takes effect at the boundary: register writes, queue resets, doorbells (R12, R369, R370, R378, R389). -/
def Dev.applyBoundary (d : Dev) : Dev := d.lockBoundary.regBoundary.queBoundary.doorbellBoundary

/-- WEIGHT and CLASSES that a SET-TENANT has set take effect (R385). -/
def Tenant.commit (t : Tenant) : Tenant :=
  match t.next with
  | some (w, c) => { t with weight := w, classes := c, next := none }
  | none => t

/-- The tick counter advances (R7, R411), and the counts of one tick's work begin again. -/
def Dev.advance (d : Dev) : Dev :=
  let next := match d.fab.adopt with
    | some c => c + 1
    | none => d.tick + 1
  { d with
    tick := next, clk := d.clk + 1
    fab := { d.fab with adopt := none }
    rte := { d.rte with grantsSent := 0, respsSent := 0, tenants := d.rte.tenants.map fun t => (t.1, t.2.commit) }
    ses := { d.ses with closures := 0 }
    spn := { d.spn with placed := 0 }
    mem := { d.mem with uePosted := [], afPosted := [] }
    ovr := { d.ovr with stalled := [] } }

/-- The code of a span set's state (R328). -/
def Span.stateCode (s : Span) : Nat :=
  if s.readOnly then 4 else if s.full then 5 else if s.rebuild.isSome then 3 else if s.failed ≠ 0#32 then 2 else 1

/-- The registers of a span set (R328). -/
def Dev.showSpan (d : Dev) (i : Nat) : Dev :=
  let s := (d.spanAt i).getD {}
  let cur := (s.rebuild.map (·.row)).getD (2 ^ 48 - 1)
  let d := d.setFld Fld.spnSetStatState i (if (d.spanAt i).isSome then s.stateCode else 0)
  let d := (d.setFld Fld.spnSetStatMissing i (mcount s.failed)).setFld Fld.spnSetStatPhase i s.phase
  let d := ((d.setFld Fld.spnSetFailedMap i s.failed.toNat).setFld Fld.spnSetRowLoC i s.c).setFld Fld.spnSetRowHiC i (s.c / 2 ^ 32)
  let d := (d.setFld Fld.spnSetCurLoRow i cur).setFld Fld.spnSetCurHiRow i (cur / 2 ^ 32)
  (d.setFld Fld.spnSetPatLoRow i s.patrol).setFld Fld.spnSetPatHiRow i (s.patrol / 2 ^ 32)

/-- The status registers that show other state (R349, R375, R398, R328). -/
def showRegs (hd : Hbm × Dev) : Hbm × Dev :=
  let (h, d) := hd
  let d := d.setFld Fld.hltTickLoCount 0 d.tick.toNat
  let d := (d.setFld Fld.memFillStatPages 0 (min (2 ^ 24 - 1) h.markedPages)).setFld Fld.memMashStatUsed 0 d.mem.mash.length
  let d := (List.range 5).foldl (fun d p => d.setFld Fld.poolPFreeCount p (d.poolAt p).free) d
  let d := (List.range 16).foldl Dev.showSpan d
  let d := tps.foldl (fun d t => d.setFld Fld.tpWrStatRetired t (chCount (d.retired t))) d
  (h, d.ctl.rings.foldl (fun d (r, g) => (d.setFld Fld.pciRingStatSqHead r g.sqHead).setFld Fld.pciRingStatCqTail r g.cqTail) d)

/-- A write command of session `n` has a window granted or being granted and records still to take. -/
def Dev.expectsData (d : Dev) (n : Nat) : Bool :=
  (d.sesWrites n).any fun c => ! c.2.wr.ended && c.2.wr.limit.isNone && ! (c.2.wr.asked.isEmpty && c.2.wr.wins.isEmpty)

/-- Sessions that expect data and have no open chunk ask for the original Kilderkin of the chunk it will open (R97, R356), so that
POOL has committed it when the first window closes (notes/assumptions/187.md). -/
def Dev.chunkAsks (d : Dev) : Dev :=
  ((d.ses.sessions.map (·.1)).filter d.expectsData).foldl Dev.askOriginal d

/-- The boundary as the always-on domain and the core see it. The scheduler's round of the tick that begins runs on what the boundary
has committed (R76). -/
def boundary (i : TickIn) (hd : Hbm × Dev) : Hbm × Dev :=
  let hd := if hd.2.coreHeld then hd else coreTick hd
  let late := hd.2.stallsAny blkHlt 0
  let hd := onDev (fun d => (((d.thermBoundary i.sensors).avsBoundary i.avsOk).powerFailBoundary).applyBoundary.advance) hd
  let hd := resetBoundary hd
  let hd := onDev (fun d => if late then d else d.cellarTick) hd
  showRegs (onDev (fun d => if d.coreHeld then d else d.schTick.chunkAsks) hd)

/-- TICK_BOUNDARY (R10). Without VAON there is no tick. -/
def execTickBoundary (i : TickIn) (s : State) : Host.Outcome State Fault Refusal :=
  .next (if s.dev.hlt.vaon then s.withHd (boundary i s.hd) else s)

end Sys2Proof.Machine
end

