-- ==== Sys2Proof/Machine/Dispatch.lean ====
section
/-! DEFINITION. The meaning of each command, one arm for each row of the opcode table. -/

namespace Sys2Proof.Machine

/-- The effect of a command on everything but the queue of waiting commands. -/
def exec (i : Instr) (s : State) : Host.Outcome State Fault Refusal :=
  match i with
  | .tickBoundary inp => Sys2Proof.Machine.execTickBoundary inp s
  | .overrun block inst step excess deferred => Sys2Proof.Machine.execOverrun block inst step excess deferred s
  | .writeLeadExhausted tp => Sys2Proof.Machine.execWriteLeadExhausted tp s
  | .ctlWindow core addr => Sys2Proof.Machine.execCtlWindow core addr s
  | .openSession src cap => Sys2Proof.Machine.execOpenSession src cap s
  | .closeSession src cap => Sys2Proof.Machine.execCloseSession src cap s
  | .writeRecords src cap => Sys2Proof.Machine.execWriteRecords src cap s
  | .writeMark src cap => Sys2Proof.Machine.execWriteMark src cap s
  | .sync src cap => Sys2Proof.Machine.execSync src cap s
  | .readRecords src cap => Sys2Proof.Machine.execReadRecords src cap s
  | .locateHint src cap => Sys2Proof.Machine.execLocateHint src cap s
  | .querySession src cap => Sys2Proof.Machine.execQuerySession src cap s
  | .querySlots src cap => Sys2Proof.Machine.execQuerySlots src cap s
  | .abort src cap => Sys2Proof.Machine.execAbort src cap s
  | .pushData ring desc => Sys2Proof.Machine.execPushData ring desc s
  | .unsupportedOperation conn op => Sys2Proof.Machine.execUnsupportedOperation conn op s
  | .rdmaWrite conn rkey va data => Sys2Proof.Machine.execRdmaWrite conn rkey va data s
  | .rdmaWriteWithImmediate conn rkey va data imm => Sys2Proof.Machine.execRdmaWriteWithImmediate conn rkey va data imm s
  | .cnpReceive conn => Sys2Proof.Machine.execCnpReceive conn s
  | .ceMarkedPacket conn => Sys2Proof.Machine.execCeMarkedPacket conn s
  | .rateRecover conn => Sys2Proof.Machine.execRateRecover conn s
  | .commandAdmission src tag => Sys2Proof.Machine.execCommandAdmission src tag s
  | .readyGrant src tag => Sys2Proof.Machine.execReadyGrant src tag s
  | .bufferedResponse src tag => Sys2Proof.Machine.execBufferedResponse src tag s
  | .onTapeResponse src tag => Sys2Proof.Machine.execOnTapeResponse src tag s
  | .readDelivery src tag => Sys2Proof.Machine.execReadDelivery src tag s
  | .grantTimeout grant => Sys2Proof.Machine.execGrantTimeout grant s
  | .grantDrainEnd grant => Sys2Proof.Machine.execGrantDrainEnd grant s
  | .meteringSnapshot => Sys2Proof.Machine.execMeteringSnapshot s
  | .meteringRecordPost => Sys2Proof.Machine.execMeteringRecordPost s
  | .chunkFill session => Sys2Proof.Machine.execChunkFill session s
  | .chunkClose session => Sys2Proof.Machine.execChunkClose session s
  | .chunkHoldExpiry session => Sys2Proof.Machine.execChunkHoldExpiry session s
  | .chunkAgeExpiry session => Sys2Proof.Machine.execChunkAgeExpiry session s
  | .chunkDispatch chunk => Sys2Proof.Machine.execChunkDispatch chunk s
  | .chunkSeal chunk => Sys2Proof.Machine.execChunkSeal chunk s
  | .chunkRefetch chunk stream => Sys2Proof.Machine.execChunkRefetch chunk stream s
  | .keyFetch index entry => Sys2Proof.Machine.execKeyFetch index entry s
  | .reserveEpochWritten slot => Sys2Proof.Machine.execReserveEpochWritten slot s
  | .chunkPlace chunk => Sys2Proof.Machine.execChunkPlace chunk s
  | .rowClose slot => Sys2Proof.Machine.execRowClose slot s
  | .rowAgeExpiry slot => Sys2Proof.Machine.execRowAgeExpiry slot s
  | .payloadWordRefetch addr word => Sys2Proof.Machine.execPayloadWordRefetch addr word s
  | .verifyResult tp ch pos => Sys2Proof.Machine.execVerifyResult tp ch pos s
  | .upstreamCycle tp c => Sys2Proof.Machine.execUpstreamCycle tp c s
  | .underrunPersist tp => Sys2Proof.Machine.execUnderrunPersist tp s
  | .portUp tp => Sys2Proof.Machine.execPortUp tp s
  | .portDown tp => Sys2Proof.Machine.execPortDown tp s
  | .identityCheck tp record addr => Sys2Proof.Machine.execIdentityCheck tp record addr s
  | .linkResponse tp id status data => Sys2Proof.Machine.execLinkResponse tp id status data s
  | .linkRequestTimeout tp => Sys2Proof.Machine.execLinkRequestTimeout tp s
  | .backhitchResume tp => Sys2Proof.Machine.execBackhitchResume tp s
  | .wrapTurn tp => Sys2Proof.Machine.execWrapTurn tp s
  | .sdsLateRound tp sds => Sys2Proof.Machine.execSdsLateRound tp sds s
  | .readRetry tp => Sys2Proof.Machine.execReadRetry tp s
  | .spanReconstruct slot row => Sys2Proof.Machine.execSpanReconstruct slot row s
  | .readAheadResume tp => Sys2Proof.Machine.execReadAheadResume tp s
  | .motStart tp dir => Sys2Proof.Machine.execMotStart tp dir s
  | .motStop tp => Sys2Proof.Machine.execMotStop tp s
  | .motFloat tp => Sys2Proof.Machine.execMotFloat tp s
  | .motClearFault tp => Sys2Proof.Machine.execMotClearFault tp s
  | .alignEnd tp => Sys2Proof.Machine.execAlignEnd tp s
  | .handOver tp reel => Sys2Proof.Machine.execHandOver tp reel s
  | .startFail tp reel => Sys2Proof.Machine.execStartFail tp reel s
  | .startRetry tp => Sys2Proof.Machine.execStartRetry tp s
  | .stopHold tp => Sys2Proof.Machine.execStopHold tp s
  | .clampClear tp => Sys2Proof.Machine.execClampClear tp s
  | .lostRotor tp reel => Sys2Proof.Machine.execLostRotor tp reel s
  | .motReacquired tp reel => Sys2Proof.Machine.execMotReacquired tp reel s
  | .predictExhausted tp reel => Sys2Proof.Machine.execPredictExhausted tp reel s
  | .pauseEnd tp => Sys2Proof.Machine.execPauseEnd tp s
  | .offTrack tp => Sys2Proof.Machine.execOffTrack tp s
  | .onTrack tp => Sys2Proof.Machine.execOnTrack tp s
  | .servoLoss tp => Sys2Proof.Machine.execServoLoss tp s
  | .servoLossStop tp => Sys2Proof.Machine.execServoLossStop tp s
  | .motChopFault tp => Sys2Proof.Machine.execMotChopFault tp s
  | .slowMemberTimeout slot member => Sys2Proof.Machine.execSlowMemberTimeout slot member s
  | .journalPeriod slot => Sys2Proof.Machine.execJournalPeriod slot s
  | .rebuild desc => Sys2Proof.Machine.execRebuild desc s
  | .rebuildRow slot => Sys2Proof.Machine.execRebuildRow slot s
  | .shapeChangeStart desc span => Sys2Proof.Machine.execShapeChangeStart desc span s
  | .shapeChangeCancel desc => Sys2Proof.Machine.execShapeChangeCancel desc s
  | .shapeActive slot => Sys2Proof.Machine.execShapeActive slot s
  | .patrolRow slot => Sys2Proof.Machine.execPatrolRow slot s
  | .memberStatusFrame slot row member report verified payload => Sys2Proof.Machine.execMemberStatusFrame slot row member report verified payload s
  | .bucketLeak => Sys2Proof.Machine.execBucketLeak s
  | .mashWriteOut word => Sys2Proof.Machine.execMashWriteOut word s
  | .fill desc => Sys2Proof.Machine.execFill desc s
  | .fillComplete => Sys2Proof.Machine.execFillComplete s
  | .queueReset q cause => Sys2Proof.Machine.execQueueReset q cause s
  | .queueCfgWrite q value => Sys2Proof.Machine.execQueueCfgWrite q value s
  | .queueFlush q => Sys2Proof.Machine.execQueueFlush q s
  | .pfcRepeat port => Sys2Proof.Machine.execPfcRepeat port s
  | .sqDoorbell ring off value poisoned => Sys2Proof.Machine.execSqDoorbell ring off value poisoned s
  | .cqDoorbell ring value => Sys2Proof.Machine.execCqDoorbell ring value s
  | .completionPost ring => Sys2Proof.Machine.execCompletionPost ring s
  | .msixCoalesceTimeout ring => Sys2Proof.Machine.execMsixCoalesceTimeout ring s
  | .eventPost => Sys2Proof.Machine.execEventPost s
  | .createConn desc => Sys2Proof.Machine.execCreateConn desc s
  | .destroyConn desc => Sys2Proof.Machine.execDestroyConn desc s
  | .bindRing desc => Sys2Proof.Machine.execBindRing desc s
  | .setTenant desc => Sys2Proof.Machine.execSetTenant desc s
  | .spanLoad desc span => Sys2Proof.Machine.execSpanLoad desc span s
  | .spanMap desc extents => Sys2Proof.Machine.execSpanMap desc extents s
  | .spanListLoss desc => Sys2Proof.Machine.execSpanListLoss desc s
  | .spanListSuspect desc => Sys2Proof.Machine.execSpanListSuspect desc s
  | .spanListRowMap desc => Sys2Proof.Machine.execSpanListRowMap desc s
  | .spanUnload desc => Sys2Proof.Machine.execSpanUnload desc s
  | .initCartridge desc => Sys2Proof.Machine.execInitCartridge desc s
  | .mount desc => Sys2Proof.Machine.execMount desc s
  | .mountClaimTimeout tp => Sys2Proof.Machine.execMountClaimTimeout tp s
  | .dismount desc => Sys2Proof.Machine.execDismount desc s
  | .fwStage desc segment => Sys2Proof.Machine.execFwStage desc segment s
  | .fwActivate desc => Sys2Proof.Machine.execFwActivate desc s
  | .fwActivated => Sys2Proof.Machine.execFwActivated s
  | .fwActFail core => Sys2Proof.Machine.execFwActFail core s
  | .cellarRead desc => Sys2Proof.Machine.execCellarRead desc s
  | .bootGo => Sys2Proof.Machine.execBootGo s
  | .bootLoaded image => Sys2Proof.Machine.execBootLoaded image s
  | .setupLock => Sys2Proof.Machine.execSetupLock s
  | .kekLoad => Sys2Proof.Machine.execKekLoad s
  | .failingClear tp => Sys2Proof.Machine.execFailingClear tp s
  | .retireWrite tp high value => Sys2Proof.Machine.execRetireWrite tp high value s
  | .tickLoRead => Sys2Proof.Machine.execTickLoRead s
  | .ethModeWrite group value => Sys2Proof.Machine.execEthModeWrite group value s
  | .fabLinkCfgWrite port value => Sys2Proof.Machine.execFabLinkCfgWrite port value s
  | .avsOffsetWrite value => Sys2Proof.Machine.execAvsOffsetWrite value s
  | .badBarAccess write bytes => Sys2Proof.Machine.execBadBarAccess write bytes s
  | .registerWrite offset value => Sys2Proof.Machine.execRegisterWrite offset value s
  | .frameReceive link f => Sys2Proof.Machine.execFrameReceive link f s
  | .linkReplay link => Sys2Proof.Machine.execLinkReplay link s
  | .fabLinkUp link => Sys2Proof.Machine.execFabLinkUp link s
  | .fabLinkDown link cause => Sys2Proof.Machine.execFabLinkDown link cause s
  | .lsaReceive link serial addr seq source taken adj => Sys2Proof.Machine.execLsaReceive link serial addr seq source taken adj s
  | .lsaRefresh => Sys2Proof.Machine.execLsaRefresh s
  | .lsaExpire addr serial => Sys2Proof.Machine.execLsaExpire addr serial s
  | .routeCompute => Sys2Proof.Machine.execRouteCompute s
  | .e2eGapTimeout src cls => Sys2Proof.Machine.execE2eGapTimeout src cls s
  | .e2eResendTimeout dst cls => Sys2Proof.Machine.execE2eResendTimeout dst cls s
  | .tickFrameReceive link nbr count sent b a prev aligned => Sys2Proof.Machine.execTickFrameReceive link nbr count sent b a prev aligned s
  | .fabSource => Sys2Proof.Machine.execFabSource s
  | .mirrorBatchCommit batch => Sys2Proof.Machine.execMirrorBatchCommit batch s
  | .mirrorAck batch => Sys2Proof.Machine.execMirrorAck batch s
  | .mirrorNak batch => Sys2Proof.Machine.execMirrorNak batch s
  | .heartbeatReceive tick committed acked => Sys2Proof.Machine.execHeartbeatReceive tick committed acked s
  | .pairTakeover => Sys2Proof.Machine.execPairTakeover s
  | .pairPartition => Sys2Proof.Machine.execPairPartition s
  | .pairSolo => Sys2Proof.Machine.execPairSolo s
  | .takeoverComplete => Sys2Proof.Machine.execTakeoverComplete s
  | .takeoverDeadline tp => Sys2Proof.Machine.execTakeoverDeadline tp s
  | .arpRepeat => Sys2Proof.Machine.execArpRepeat s
  | .pairResync => Sys2Proof.Machine.execPairResync s
  | .pairProtected => Sys2Proof.Machine.execPairProtected s
  | .smbStatus => Sys2Proof.Machine.execSmbStatus s
  | .smbCellarSelect index pecOk => Sys2Proof.Machine.execSmbCellarSelect index pecOk s
  | .smbCellarRead => Sys2Proof.Machine.execSmbCellarRead s
  | .smbResetWarm pecOk => Sys2Proof.Machine.execSmbResetWarm pecOk s
  | .smbResetCold pecOk => Sys2Proof.Machine.execSmbResetCold pecOk s
  | .smbClearPin value pecOk => Sys2Proof.Machine.execSmbClearPin value pecOk s
  | .cellarScanDone => Sys2Proof.Machine.execCellarScanDone s
  | .powerFail => Sys2Proof.Machine.execPowerFail s
  | .ageMeasure m => Sys2Proof.Machine.execAgeMeasure m s
  | .trendSnapshot => Sys2Proof.Machine.execTrendSnapshot s
  | .replanEvaluation => Sys2Proof.Machine.execReplanEvaluation s
  | .sbHeadSend => Sys2Proof.Machine.execSbHeadSend s
  | .sbDeviceFrame bytes => Sys2Proof.Machine.execSbDeviceFrame bytes s
  | .sbEndFrame bytes => Sys2Proof.Machine.execSbEndFrame bytes s
  | .sbEndTimeout => Sys2Proof.Machine.execSbEndTimeout s
  | .tapInstructionLoad ins => Sys2Proof.Machine.execTapInstructionLoad ins s
  | .thermalTrip => Sys2Proof.Machine.execThermalTrip s
  | .supplyFault supply => Sys2Proof.Machine.execSupplyFault supply s
  | .powerUp strap => Sys2Proof.Machine.execPowerUp strap s
  | .powerDown => Sys2Proof.Machine.execPowerDown s
  | .coldReset strap => Sys2Proof.Machine.execColdReset strap s
  | .warmReset => Sys2Proof.Machine.execWarmReset s
  | .resetRelease => Sys2Proof.Machine.execResetRelease s
  | .functionLevelReset => Sys2Proof.Machine.execFunctionLevelReset s
  | .readInterrupt tp => Sys2Proof.Machine.execReadInterrupt tp s
  | .readInterruptEnd tp => Sys2Proof.Machine.execReadInterruptEnd tp s
  | .ethPortLinkUp port => Sys2Proof.Machine.execEthPortLinkUp port s
  | .ethPortLinkDown port => Sys2Proof.Machine.execEthPortLinkDown port s
  | .pcieLinkDown => Sys2Proof.Machine.execPcieLinkDown s
  | .tenantAckReceive conn kind psn => Sys2Proof.Machine.execTenantAckReceive conn kind psn s
  | .localAckTimeout conn => Sys2Proof.Machine.execLocalAckTimeout conn s
  | .capsuleOpcodeInvalid src cap => Sys2Proof.Machine.execCapsuleOpcodeInvalid src cap s
  | .pushDataDmaComplete ring grant data poisoned => Sys2Proof.Machine.execPushDataDmaComplete ring grant data poisoned s
  | .pfcFrameReceive port enable quanta => Sys2Proof.Machine.execPfcFrameReceive port enable quanta s
  | .arpRequestReceive port v6 addr => Sys2Proof.Machine.execArpRequestReceive port v6 addr s
  | .msixVectorUnmask vec => Sys2Proof.Machine.execMsixVectorUnmask vec s

end Sys2Proof.Machine
end

