-- ==== Sys2Proof/Safety.lean ====
section
/-! DEFINITION. What counts as a safe state and a safe run of the block: buffer memory in canonical form, and no stop. -/

namespace Sys2Proof

/-- A command addresses buffer memory past its end (R329): the only commands that stop the machine. -/
def Instr.outOfMemory : Instr → Bool
  | .mashWriteOut w => decide (Machine.hbmWords ≤ w)
  | .payloadWordRefetch w _ => decide (Machine.hbmWords ≤ w)
  | _ => false

/-- A command acts on the always-on domain, which runs while the core is held in reset (R428). -/
def Instr.alwaysOn : Instr → Bool
  | .tickBoundary _ | .smbStatus | .smbCellarSelect _ _ | .smbCellarRead | .smbResetWarm _ | .smbResetCold _ | .smbClearPin _ _
  | .cellarScanDone | .powerFail | .thermalTrip | .supplyFault _ | .powerUp _ | .powerDown | .coldReset _ | .warmReset
  | .resetRelease => true
  | _ => false

end Sys2Proof

namespace Sys2Proof.Machine

/-- Buffer memory is in canonical form, so that equal memories are equal data. -/
def State.Canonical (s : State) : Prop := Memory.wf s.hbm = true

/-- `s` with the device replaced: buffer memory and the queue as they were. -/
abbrev State.withDev (s : State) (d : Dev) : State := { s with dev := d }

/-- The machine goes on: a step has answered a next state. -/
def Safe (o : Host.Outcome State Fault Refusal) : Prop := ∃ t, o = .next t

end Sys2Proof.Machine
end

