-- ==== Sys2Proof/Certificates/Slice0/Obligations.lean ====
section
/-! DEFINITION. The statements for the provers: what the block's step does, what its commands do by the numbered rules, and what
they leave unchanged. `s.dev.coreHeld = false` says that the core is not held in reset and takes commands; `s.dev.hlt.vaon = true`
that the always-on domain has its supply. -/

open Sys2Proof Sys2Proof.Machine

namespace Sys2Proof.Machine

/-- The device once the command `id` has been admitted by the round's step `w` (R71). -/
def Dev.admitted (d : Dev) (id : Nat) (k : Cmd) (w : WonStep) : Dev :=
  (({ d with sch := { d.sch with won := d.sch.won.erase w } } : Dev).modCmd id fun k => { k with adm := some d.clk }).mirrorControl
    (.cmd id { k with adm := some d.clk })

/-- The rows whose capsule waits for admission, with the opcode of R37. -/
def queuedCapsules : List ((Src → List Byte → Instr) × Nat) :=
  [(.openSession, 0x01), (.closeSession, 0x02), (.writeRecords, 0x10), (.writeMark, 0x11), (.sync, 0x12), (.readRecords, 0x20),
   (.locateHint, 0x21), (.querySession, 0x30), (.querySlots, 0x30)]

/-- The device once a capsule of a source has been received: a packet of the connection, or the next submission entry of a ring. -/
def received (d : Dev) (src : Src) : Dev := if isRing (srcKey src) then d.ringNext (srcKey src - 16384) else d.recvPackets (srcKey src) 1

/-- The device once a capsule has been received and SES has the context of the session that it names, if that session is open. -/
def parsed (d : Dev) (src : Src) (cap : List Byte) : Dev :=
  if (d.sesOf (srcKey src) (sesNo (srcKey src) (capSession cap))).isSome then (received d src).cacheUse (sesNo (srcKey src) (capSession cap))
  else received d src

/-- A source can send this capsule of 64 bytes now: it stands for a tenant, a ring may be served, a connection has a free slot. -/
def mayArrive (d : Dev) (src : Src) (cap : List Byte) : Prop :=
  cap.length = 64 ∧ (d.srcTenant (srcKey src)).isSome = true ∧
    (isRing (srcKey src) = true → d.ringMay (srcKey src - 16384) = true) ∧
    (isRing (srcKey src) = false → d.slotsUsed (srcKey src) < d.maxCmds)

/-- The session that a capsule names is not open for its source, or its context is on chip (R22). -/
def contextAtHand (d : Dev) (src : Src) (cap : List Byte) : Prop :=
  (d.sesOf (srcKey src) (sesNo (srcKey src) (capSession cap))).isSome = true →
    d.ses.cache.contains (sesNo (srcKey src) (capSession cap)) = true

/-- Commands that may write buffer memory: what tenants send, admission (which writes contexts), the chunker and sealing, words that
return or are written out, rebuilding, resyncing, the fall and rise of the supplies, and the tick. -/
def mayWriteMemory : Instr → Bool
  | .tickBoundary _ | .powerUp _ | .openSession _ _ | .closeSession _ _ | .writeRecords _ _ | .writeMark _ _ | .sync _ _
  | .readRecords _ _ | .locateHint _ _ | .querySession _ _ | .querySlots _ _ | .abort _ _ | .pushData _ _ | .rdmaWrite _ _ _ _
  | .rdmaWriteWithImmediate _ _ _ _ _ | .pushDataDmaComplete _ _ _ _ | .capsuleOpcodeInvalid _ _ | .commandAdmission _ _
  | .chunkFill _ | .chunkSeal _ | .chunkRefetch _ _ | .payloadWordRefetch _ _ | .rebuildRow _ | .mashWriteOut _
  | .fwActivated | .fwActFail _ => true
  | _ => false

/-- The admin rows with a descriptor alone: the command, the opcode of R385, and what the control cores then do. -/
def adminRows : List ((List Byte → Instr) × Nat × (Dev → List Byte → Dev)) :=
  [(.createConn, 0x01, Dev.doCreateConn), (.destroyConn, 0x02, Dev.doDestroyConn), (.bindRing, 0x03, Dev.doBindRing),
   (.setTenant, 0x04, Dev.doSetTenant), (.fill, 0x10, Dev.doFill), (.rebuild, 0x22, Dev.doRebuild),
   (.shapeChangeCancel, 0x23, Dev.doShapeCancel), (.spanListLoss, 0x24, Dev.doListLoss), (.spanListSuspect, 0x24, Dev.doListSuspect),
   (.spanListRowMap, 0x24, Dev.doListMap), (.spanUnload, 0x25, Dev.doSpanUnload), (.initCartridge, 0x30, Dev.doInitCartridge),
   (.mount, 0x31, Dev.doMount), (.dismount, 0x32, Dev.doDismount), (.fwActivate, 0x41, Dev.doFwActivate),
   (.cellarRead, 0x50, Dev.doCellarRead)]

/-- The admin rows whose descriptor points to bytes in host memory. -/
def adminDataRows : List ((List Byte → List Byte → Instr) × Nat × (Dev → List Byte → List Byte → Dev)) :=
  [(.spanLoad, 0x20, Dev.doSpanLoad), (.spanMap, 0x21, Dev.doSpanMap), (.shapeChangeStart, 0x23, Dev.doShapeStart),
   (.fwStage, 0x40, Dev.doFwStage)]

/-- The control cores run, ring 0 may be served, and the descriptor has this opcode. -/
def adminArrives (d : Dev) (op : Nat) (x : List Byte) : Prop := d.coresRun = true ∧ d.ringMay 0 = true ∧ capOpcode x = op

/-- The descriptor passes the checks of R385: its tag is free, it has 64 bytes, and its reserved bytes are 0. -/
def adminValid (d : Dev) (op : Nat) (x : List Byte) : Prop :=
  d.adminTag (capTag x) = false ∧ x.length = 64 ∧ adminReservedClear op x = true

end Sys2Proof.Machine

/-! ### The step and the machine as a whole -/

/-- The first command that waits takes effect on the state with the rest of the queue. -/
def Obligations.StepRunsFrontCommand : Prop :=
  ∀ (c : Instr) (rest : List Instr) (s : State), s.pending = c :: rest → step s = exec c { s with pending := rest }

/-- With no command waiting the block idles: the model's choice, notes/assumptions entry 1. No command adds to the queue, takes
from it or reorders it: the queue belongs to the step. -/
def Obligations.TheQueueBelongsToTheStep : Prop :=
  (∀ s : State, s.pending = [] → step s = .next s) ∧
  (∀ (c : Instr) (s t : State), exec c s = .next t → t.pending = s.pending)

/-- Every command in every state answers a next state, except a word address past the end of buffer memory (R329), which faults
with that address. -/
def Obligations.OnlyBadAddressStops : Prop :=
  ∀ (c : Instr) (s : State),
    (c.outOfMemory = false → Safe (exec c s)) ∧
    (∀ w, hbmWords ≤ w → exec (.mashWriteOut w) s = .fault (.badAddress w)) ∧
    (∀ w bs, hbmWords ≤ w → exec (.payloadWordRefetch w bs) s = .fault (.badAddress w))

/-- After reset (entries 3, 4 and 26 for what the manual does not give): buffer memory lists nothing and is canonical, nothing
waits, the tick counter is 0, set-up is not locked, the control cores wait for their image and no key-encryption key is loaded. -/
def Obligations.ResetState : Prop :=
  State.reset.Canonical ∧ State.reset.hbm = Hbm.empty ∧ State.reset.pending = [] ∧ State.reset.dev.tick = 0 ∧
    State.reset.dev.locked = false ∧ State.reset.dev.fld Fld.ctlBootStatState = 0 ∧ State.reset.dev.hlt.kek = none ∧
    ∀ r i, State.reset.dev.rawReg r i = r.resetValue i

/-- Every step keeps buffer memory in canonical form. -/
def Obligations.StepKeepsMemoryCanonical : Prop :=
  ∀ s t : State, s.Canonical → step s = .next t → t.Canonical

/-- While the core is held in reset, a command that is not one of the always-on domain changes nothing. Without VAON nothing but a
power-up changes anything. -/
def Obligations.HeldOrUnpoweredTakesNothing : Prop :=
  (∀ (c : Instr) (s t : State), s.dev.coreHeld = true → c.alwaysOn = false → exec c s = .next t → t = s) ∧
  (∀ (c : Instr) (s t : State), s.dev.hlt.vaon = false → c.alwaysOn = true → (∀ k, c ≠ .powerUp k) → exec c s = .next t → t = s)

/-- Motion commands and motion steps leave every byte and check of buffer memory, the tenants' side, the span sets and the
fabric's links as they were. Fabric commands leave every unit alone but the fabric, the pair, and what reports go through; those
of the Ethernet ports leave buffer memory, sessions, the tape side and the supplies as they were. -/
def Obligations.UnitsLeaveTheRest : Prop :=
  (∀ (c : Instr) (s t : State),
    (∃ tp reel dir, c ∈ [Instr.motStart tp dir, .motStop tp, .motFloat tp, .motClearFault tp, .alignEnd tp, .handOver tp reel,
      .startFail tp reel, .startRetry tp, .stopHold tp, .clampClear tp, .motReacquired tp reel, .onTrack tp, .servoLossStop tp]) →
    exec c s = .next t →
    (∀ a, t.hbm.byte a = s.hbm.byte a) ∧ (∀ k, t.hbm.check k = s.hbm.check k) ∧ t.pending = s.pending ∧ t.dev.tick = s.dev.tick ∧
      t.dev.clk = s.dev.clk ∧ t.dev.rte = s.dev.rte ∧ t.dev.ses = s.dev.ses ∧ t.dev.sch = s.dev.sch ∧ t.dev.dru = s.dev.dru ∧
      t.dev.spn = s.dev.spn ∧ t.dev.pool = s.dev.pool ∧ t.dev.fab = s.dev.fab ∧ t.dev.pair = s.dev.pair ∧ t.dev.mem = s.dev.mem ∧
      t.dev.pins = s.dev.pins ∧ t.dev.rd = s.dev.rd) ∧
  (∀ (c : Instr) (s t : State), exec c s = .next t →
    ((∃ l f a cl ser adr q src tk adj nbr cnt x1 x2 x3 x4 al cause, c ∈ [Instr.frameReceive l f, .linkReplay l, .fabLinkUp l,
        .fabLinkDown l cause, .lsaReceive l ser adr q src tk adj, .lsaRefresh, .lsaExpire adr ser, .routeCompute, .e2eGapTimeout a cl,
        .e2eResendTimeout a cl, .tickFrameReceive l nbr cnt x1 x2 x3 x4 al, .fabSource]) →
      t = s.withDev { s.dev with
        regs := t.dev.regs, ctl := t.dev.ctl, que := t.dev.que, hlt := t.dev.hlt, fab := t.dev.fab, pair := t.dev.pair
        out := t.dev.out, free := t.dev.free }) ∧
    ((∃ p v6 a e qs q cause, c ∈ [Instr.ethPortLinkUp p, .ethPortLinkDown p, .pcieLinkDown, .pfcFrameReceive p e qs, .pfcRepeat p,
        .arpRequestReceive p v6 a, .arpRepeat, .queueReset q cause]) →
      t = s.withDev { s.dev with
        regs := t.dev.regs, ctl := t.dev.ctl, que := t.dev.que, fab := t.dev.fab, pair := t.dev.pair, eth := t.dev.eth
        age := t.dev.age, out := t.dev.out, free := t.dev.free }))

/-! ### Registers, doorbells and rings -/

/-- A register write waits for the next boundary behind the writes that arrived before it, and changes nothing else (R12). Each
command that is a register write names its register by the offset of R480. The motion commands are writes of MOTn_CMD: START with
the direction in bit 3, STOP, FLOAT and CLEAR_FAULT (R294), which wait for the next boundary (R12). -/
def Obligations.RegisterWritesWait : Prop :=
  (∀ s : State, s.dev.coreHeld = false →
    (∀ off v, off % 4 = 0 → off < bar0End → ¬ (msixTable ≤ off ∧ off < msixTable + 16 * vectors) → (regAt off).isSome = true →
      exec (.registerWrite off v) s = .next { s with dev := { s.dev with regw := s.dev.regw ++ [(off, v)] } }) ∧
    exec .bootGo s = .next { s with dev := { s.dev with regw := s.dev.regw ++ [(0x01000010, 1#32)] } } ∧
    exec .setupLock s = .next { s with dev := { s.dev with regw := s.dev.regw ++ [(0x0100001C, 1#32)] } } ∧
    exec .kekLoad s = .next { s with dev := { s.dev with regw := s.dev.regw ++ [(0x00500028, 1#32)] } } ∧
    (∀ v, exec (.avsOffsetWrite v) s = .next { s with dev := { s.dev with regw := s.dev.regw ++ [(0x01400020, v)] } }) ∧
    (∀ n, n < 8 → exec (.failingClear n) s = .next { s with dev := { s.dev with regw := s.dev.regw ++ [(0x0090002C + 0x100 * n, 0#32)] } }) ∧
    (∀ n v, n < 8 → exec (.retireWrite n false v) s = .next { s with dev := { s.dev with regw := s.dev.regw ++ [(0x0090001C + 0x100 * n, v)] } }) ∧
    (∀ n v, n < 8 → exec (.retireWrite n true v) s = .next { s with dev := { s.dev with regw := s.dev.regw ++ [(0x00900020 + 0x100 * n, v)] } }) ∧
    (∀ g v, g < 4 → exec (.ethModeWrite g v) s = .next { s with dev := { s.dev with regw := s.dev.regw ++ [(0x01200000 + 0x10 * g, v)] } }) ∧
    (∀ n v, n < 8 → exec (.fabLinkCfgWrite n v) s = .next { s with dev := { s.dev with regw := s.dev.regw ++ [(0x01301000 + 0x10 * n, v)] } }) ∧
    (∀ q v, q < 256 → exec (.queueCfgWrite q v) s = .next { s with dev := { s.dev with regw := s.dev.regw ++ [(0x00F01000 + 0x20 * q, v)] } }) ∧
    (∀ q, q < 256 → exec (.queueFlush q) s = .next { s with dev := { s.dev with regw := s.dev.regw ++ [(0x00F01008 + 0x20 * q, 1#32)] } })) ∧
  (∀ (s : State) (n : Nat), s.dev.coreHeld = false → n < 8 →
    exec (.motStart n false) s = .next { s with dev := { s.dev with regw := s.dev.regw ++ [(0x00C01000 + 0x100 * n, 1#32)] } } ∧
    exec (.motStart n true) s = .next { s with dev := { s.dev with regw := s.dev.regw ++ [(0x00C01000 + 0x100 * n, 9#32)] } } ∧
    exec (.motStop n) s = .next { s with dev := { s.dev with regw := s.dev.regw ++ [(0x00C01000 + 0x100 * n, 2#32)] } } ∧
    exec (.motFloat n) s = .next { s with dev := { s.dev with regw := s.dev.regw ++ [(0x00C01000 + 0x100 * n, 3#32)] } } ∧
    exec (.motClearFault n) s = .next { s with dev := { s.dev with regw := s.dev.regw ++ [(0x00C01000 + 0x100 * n, 4#32)] } })

/-- The writes that wait take effect at the boundary one after the other in arrival order, and none waits any longer (R12); a refusal of
the tick sets HLT_TEST_STAT.REFUSED after them, whatever they wrote to it (R13). Writing 1 to CTL_SETUP_LOCK.LOCK locks set-up; before the lock writing 1 to CIP_KEK_CTL.LOAD takes the key-encryption key from
CIP_KEK_W0 to W7, byte 0 first, and after it that write does nothing (R122, R389). -/
def Obligations.BoundaryAppliesWrites : Prop :=
  (∀ (d : Dev) (ws : List (Nat × Word32)) (w : Nat × Word32),
    ({ d with regw := [] } : Dev).regBoundary = ({ d with regw := [] } : Dev).testRefused ∧
    ({ d with regw := ws ++ [w] } : Dev).regBoundary = ((ws.foldl Dev.regApply { d with regw := [] }).regApply w).testRefused) ∧
  (∀ d : Dev, (d.age.refused = false → d.testRefused = d) ∧
    (d.age.refused = true → d.testRefused.flag Fld.hltTestStatRefused = true ∧ d.testRefused.age = { d.age with refused := false })) ∧
  (∀ (d : Dev) (v : Word32), v.getLsbD 0 = true →
    (d.locked = false → (d.regApply (0x0100001C, v)).locked = true) ∧
    (d.locked = false → (d.regApply (0x00500028, v)).hlt.kek = some d.kekBytes ∧
      (d.dru.kekW.length = 8 → ∀ j, j < 32 →
        d.kekBytes[j]? = some (BitVec.ofNat 8 (bits (d.dru.kekW.getD (j / 4) 0#32).toNat (8 * (j % 4)) 8)))) ∧
    (d.locked = true → d.regApply (0x00500028, v) = d))

/-- A plain register write stores what R4's access types say, field by field: an RW or RWS field takes the value written, an RWL
field does so until set-up is locked, a 1 clears a bit of a W1C field, and RO and WO fields keep what they hold. A register write
changes no other register: after a plain write every register at another offset reads as before. -/
def Obligations.FieldsFollowTheirAccess : Prop :=
  (∀ (d : Dev) (r : RegId) (i : Nat) (v : Word32) (f : FieldInfo), f ∈ r.fields →
    let old := bits (d.rawReg r i).toNat f.lo f.width
    let new := bits v.toNat f.lo f.width
    let now := bits ((d.storeReg r i v).rawReg r i).toNat f.lo f.width
    (f.access = .rw ∨ f.access = .rws → now = new) ∧
    (f.access = .rwl → now = if d.locked then old else new) ∧
    (f.access = .w1c → ∀ k, k < f.width → now.testBit k = (old.testBit k && ! new.testBit k)) ∧
    (f.access = .ro ∨ f.access = .wo → now = old)) ∧
  (∀ (d : Dev) (r q : RegId) (i j : Nat) (v : Word32), q.offset j ≠ r.offset i →
    (d.storeReg r i v).rawReg q j = d.rawReg q j)

/-- An SQ_DB or CQ_DB write within the ring's size waits for its boundary, where the last one of a tick counts; an index at or
above the size, or a write elsewhere in the page, is discarded and counted (R378). -/
def Obligations.Doorbells : Prop :=
  ∀ (s : State) (r : Nat) (v : BitVec 32), s.dev.coreHeld = false → r < 256 →
    (∀ n, v.toNat < s.dev.ringSize r →
      exec (.sqDoorbell r 0 v n) s =
        .next { s with dev := s.dev.modRing r fun g => { g with sqDb := some v.toNat, poison := g.poison + n } }) ∧
    (v.toNat < s.dev.ringSize r →
      exec (.cqDoorbell r v) s = .next { s with dev := s.dev.modRing r fun g => { g with cqDb := some v.toNat } }) ∧
    (s.dev.ringSize r ≤ v.toNat → exec (.cqDoorbell r v) s = .next { s with dev := s.dev.bump Fld.pciErrCntDoorbell }) ∧
    (∀ off n, off < 4096 → off % 4 = 0 → off ≠ 4 → off ≠ 0 ∨ s.dev.ringSize r ≤ v.toNat →
      exec (.sqDoorbell r off v n) s = .next { s with dev := s.dev.bump Fld.pciErrCntDoorbell })

/-- A completion that waited is the oldest to be written once its ring is served and has room; pending completions send their
message when COAL_TICKS have passed, or set the vector's pending bit while it is masked; unmasking a vector that has its pending
bit set sends the message (R384, R388). The oldest event that waits goes to the event ring when both of its rings have room; where
events were dropped before it, the completion of KIND 0x05 with their number goes first. A metering record does the same on its
own ring (R68, R384). PCI does so in a tick in which it has not overrun (R16). -/
def Obligations.CompletionsEventsAndMeters : Prop :=
  (∀ s : State, s.dev.coreHeld = false → s.dev.stalls blkPci 0 0 = false →
    (∀ r c cs, (s.dev.ringAt r).wait = c :: cs → s.dev.ringEn r = true → 1 ≤ s.dev.cqRoom r →
      exec (.completionPost r) s =
        .next { s with dev := (s.dev.modRing r fun g => { g with wait := cs }).writeCpl r (s.dev.ringAt r).sqHead c }) ∧
    (∀ r, r < 256 → 0 < (s.dev.ringAt r).pend → (s.dev.ringAt r).pendSince + s.dev.coalTicks r ≤ s.dev.clk →
      s.dev.vecMasked (s.dev.fld Fld.pciRingCfgVec r) = false →
      exec (.msixCoalesceTimeout r) s =
        .next { s with dev := (s.dev.modRing r fun g => { g with pend := 0 }).emit (.msix (s.dev.fld Fld.pciRingCfgVec r)) }) ∧
    (∀ v, v < vectors → s.dev.ctl.msixPend.contains v = true →
      ∃ t, exec (.msixVectorUnmask v) s = .next t ∧ t.hbm = s.hbm ∧ t.dev.out = .msix v :: s.dev.out ∧ t.dev.vecMasked v = false ∧
        t.dev.ctl.msixPend.contains v = false)) ∧
  (∀ s : State, s.dev.coreHeld = false → s.dev.stalls blkPci 0 0 = false →
    (∀ e es r, s.dev.ctl.evq = e :: es → e.before = 0 → s.dev.outRing 2 = some r → 1 ≤ s.dev.sqRoom r → 1 ≤ s.dev.cqRoom r →
      exec .eventPost s =
        .next { s with dev := ({ s.dev with ctl := { s.dev.ctl with evq := es } } : Dev).writeItem r [eventBytes e] }) ∧
    (∀ e es r, s.dev.ctl.evq = e :: es → 0 < e.before → s.dev.outRing 2 = some r → 1 ≤ s.dev.cqRoom r →
      exec .eventPost s =
        .next { s with dev := ({ s.dev with ctl := { s.dev.ctl with evq := { e with before := 0 } :: es } } : Dev).writeGap r e.before }) ∧
    (∀ m ms r, s.dev.ctl.metq = m :: ms → s.dev.outRing 3 = some r → 1 ≤ s.dev.sqRoom r → 1 ≤ s.dev.cqRoom r →
      exec .meteringRecordPost s =
        .next { s with dev := ({ s.dev with ctl := { s.dev.ctl with metq := ms } } : Dev).writeItem r [m] }))

/-- Reading HLT_TICK_LO returns bits 31:0 of the tick counter and latches bits 47:32 into HLT_TICK_HI (R9). -/
def Obligations.TickReadLatchesUpperBits : Prop :=
  ∀ s : State, s.dev.coreHeld = false →
    ∃ t, exec .tickLoRead s = .next t ∧ t.hbm = s.hbm ∧ t.pending = s.pending ∧ t.dev.tick = s.dev.tick ∧
      t.dev.out = .readData (leBytes 4 (s.dev.tick.toNat % 2 ^ 32)) :: s.dev.out ∧
      t.dev.fld Fld.hltTickHiCount = s.dev.tick.toNat / 2 ^ 32 ∧
      ∀ q j, q.offset j ≠ RegId.hltTickHi.offset 0 → t.dev.rawReg q j = s.dev.rawReg q j

/-- A BAR access of another size or alignment than 32 bits: a read returns 0xFF in every enabled byte and changes nothing, a write
is discarded and counted in PCI_ERR_CNT.BAR, which saturates (R377). -/
def Obligations.BadBarAccess : Prop :=
  ∀ (s : State) (n : Nat), s.dev.coreHeld = false →
    exec (.badBarAccess false n) s = .next { s with dev := { s.dev with out := .readData (List.replicate n 0xFF#8) :: s.dev.out } } ∧
    ∃ t, exec (.badBarAccess true n) s = .next t ∧ t.hbm = s.hbm ∧ t.pending = s.pending ∧ t.dev.out = s.dev.out ∧
      t.dev.fld Fld.pciErrCntBar = min (s.dev.fld Fld.pciErrCntBar + 1) (2 ^ Fld.pciErrCntBar.width - 1) ∧
      ∀ q j, q.offset j ≠ RegId.pciErrCnt.offset 0 → t.dev.rawReg q j = s.dev.rawReg q j

/-- A control core's access outside its window has no effect, a read returns 0x0000_0000, and a cellar record names the core and
the address (R24). An overrun of a step of a block's instance counts in its _OVR_CNT register, places its report on the queue that
CTL_OVR_CFG.QUEUE names, raises an event when CTL_OVR_CFG.EVT is 1, and that step does not commit at the coming boundary (R16, R17,
R19). A MOT instance that overran in the tick before as well leaves a record and begins a controlled stop (R20); an overrun round of
SCH commits one boundary later, and the next tick begins none (R16, R78). A code that names no step of the block does nothing: the
model's choice, notes/assumptions entry 12. -/
def Obligations.ControlWindowAndOverruns : Prop :=
  (∀ (s : State) (core addr : Nat), s.dev.coreHeld = false →
    exec (.ctlWindow core addr) s = .next { s with dev :=
      (s.dev.cellar blkCtl 0 0xC6 (itemsPayload [item core, item addr])).emit (.readData [0x00#8, 0x00#8, 0x00#8, 0x00#8]) }) ∧
  (∀ (s : State) (block inst : Nat) (f : Fld) (step : BitVec 8) (excess : BitVec 32) (deferred : BitVec 16),
    s.dev.coreHeld = false → ovrCounter block inst = some f →
    (stepNamed block step.toNat = false → exec (.overrun block inst step excess deferred) s = .next s) ∧
    (stepNamed block step.toNat = true →
    let d0 := s.dev.bump f inst
    let d1 := d0.queDropWrite (s.dev.fld Fld.ctlOvrCfgQueue) (overrunReport block inst step s.dev.tick excess deferred (d0.fld f inst))
    let d2 := if s.dev.flag Fld.ctlOvrCfgEvt then
        d1.postEvent 0x12 blkCtl 0 [item block, item inst, item step.toNat, item s.dev.tick.toNat, item excess.toNat]
      else d1
    let d3 : Dev := { d2 with ovr := { s.dev.ovr with stalled := (block, inst, step.toNat) :: s.dev.ovr.stalled } }
    d0.fld f inst = min (s.dev.fld f inst + 1) 0xFFFFFFFF ∧ d3.stalls block inst step.toNat = true ∧
    (block ≠ blkMot → block ≠ blkSch → exec (.overrun block inst step excess deferred) s = .next { s with dev := d3 }) ∧
    (block = blkMot → exec (.overrun block inst step excess deferred) s = .next { s with dev := d3.motOverrun inst }) ∧
    (block = blkSch → exec (.overrun block inst step excess deferred) s = .next { s with dev := d3.schLate } ∧
      d3.schLate.sch.won = s.dev.sch.won.map (fun w => if w.vis = s.dev.nextVis then { w with vis := w.vis + 1 } else w) ∧
      d3.schLate.sch.overrun = true))) ∧
  (∀ d : Dev, d.sch.overrun = true → d.schTick = { d with sch := { d.sch with overrun := false } })

/-! ### The always-on domain -/

/-- SMBus STATUS returns the 16 bytes of R430; CELLAR_SELECT names a record and sets the offset to 0; CELLAR_READ returns the next
32 bytes of the record selected, and after byte 255 the index advances with wrap; RESET requests a reset of its kind; a write
whose PEC fails is NACKed without effect (R429, R430). CLEAR_PIN with 0xC1 while RESET_N is low empties slots 0 to 4,095 of the
cellar MRAM, keeps every other slot, and no pinned slot is in use any more; with another value, or while RESET_N is high, it is
acknowledged and ignored (R430, R434). -/
def Obligations.SmbusCommands : Prop :=
  (∀ s : State, s.dev.hlt.vaon = true →
    exec .smbStatus s = .next { s with dev := s.dev.emit (.smbData
      (leBytes 1 (b2n s.dev.hlt.vcore + 2 * b2n s.dev.hlt.resetN + 4 * b2n s.dev.locked + 8 * s.dev.fld Fld.ctlBootStatState)
        ++ [0x00#8] ++ leBytes 6 s.dev.tick.toNat ++ leBytes 4 (s.dev.fld Fld.hltBootCntCount)
        ++ leBytes 2 (s.dev.fld Fld.hltCellarStatNext) ++ leBytes 2 (s.dev.fld Fld.hltCellarStatPinned))) } ∧
    (∀ i, exec (.smbCellarSelect i true) s =
      .next { s with dev := { s.dev with hlt := { s.dev.hlt with smbIndex := i.toNat, smbOff := 0 }, out := .smbAck :: s.dev.out } }) ∧
    (s.dev.hlt.smbOff < 224 → exec .smbCellarRead s = .next { s with dev := { s.dev with
      hlt := { s.dev.hlt with smbOff := s.dev.hlt.smbOff + 32 }
      out := .smbData (slice (s.dev.cellarRec s.dev.hlt.smbIndex) s.dev.hlt.smbOff 32) :: s.dev.out } }) ∧
    (s.dev.hlt.smbOff = 224 → exec .smbCellarRead s = .next { s with dev := { s.dev with
      hlt := { s.dev.hlt with smbOff := 0, smbIndex := (s.dev.hlt.smbIndex + 1) % 65536 }
      out := .smbData (slice (s.dev.cellarRec s.dev.hlt.smbIndex) 224 32) :: s.dev.out } }) ∧
    exec (.smbResetWarm true) s = .next { s with dev := { s.dev with
      pins := { s.dev.pins with reqSmb := .warm }, out := .smbAck :: s.dev.out } } ∧
    exec (.smbResetCold true) s = .next { s with dev := { s.dev with
      pins := { s.dev.pins with reqSmb := .cold }, out := .smbAck :: s.dev.out } } ∧
    (∀ c, c ∈ [Instr.smbCellarSelect 0 false, .smbResetWarm false, .smbResetCold false, .smbClearPin 0xC1 false] →
      exec c s = .next { s with dev := { s.dev with out := .smbNack :: s.dev.out } })) ∧
  (∀ (s : State) (v : BitVec 8), s.dev.hlt.vaon = true →
    (v = 0xC1#8 → s.dev.hlt.resetN = false →
      ∃ t, exec (.smbClearPin v true) s = .next t ∧ t.hbm = s.hbm ∧ t.pending = s.pending ∧ t.dev.out = .smbAck :: s.dev.out ∧
        (∀ i, i < 4096 → tget t.dev.hlt.mram i = none) ∧ (∀ i, 4096 ≤ i → tget t.dev.hlt.mram i = tget s.dev.hlt.mram i) ∧
        t.dev.fld Fld.hltCellarStatPinned = 0) ∧
    (v ≠ 0xC1#8 ∨ s.dev.hlt.resetN = true →
      exec (.smbClearPin v true) s = .next { s with dev := { s.dev with out := .smbAck :: s.dev.out } }))

/-- The fall of PWR_FAIL_N is noted once, with its tick, for the next boundary (R467, R470); a thermal trip requests a cold reset
with cause 6 unless a supply fault is already named, and drives THERM_N low (R477). RESET_N low names the reset by WARM_N, RESET_N
high, with every supply in range, releases it, a supply fault names its supply for a cold reset with cause 7, holds the core in reset
until the supplies are in range again and takes VCORE away when it is VCORE's, and loss of VAON takes VAON and VCORE away. After each of them the bypass switches are closed exactly while VCORE is absent or RESET_N is
low (R444, R464, R467). -/
def Obligations.WarningsSuppliesAndResetPins : Prop :=
  (∀ s : State, s.dev.hlt.vaon = true →
    (s.dev.pins.pfTaken = false → s.dev.pins.pfAt = none →
      exec .powerFail s = .next { s with dev := { s.dev with pins := { s.dev.pins with pfAt := some s.dev.tick.toNat } } }) ∧
    (s.dev.pins.pfTaken = true ∨ s.dev.pins.pfAt.isSome = true → exec .powerFail s = .next s) ∧
    (2 ≤ s.dev.pins.hotTicks → exec .thermalTrip s = .next { s with dev := { s.dev with
      pins := { s.dev.pins with tripped := true, thermN := false, reqTrip := some (s.dev.pins.reqTrip.getD (6, 0)) } } })) ∧
  (∀ s : State, s.dev.hlt.vaon = true →
    (∀ k, exec (.coldReset k) s = .next { s with dev := { s.dev with
      hlt := { s.dev.hlt with resetN := false, strap := k }, pins := { s.dev.pins with reqPin := .cold, bypass := true } } }) ∧
    exec .warmReset s = .next { s with dev := { s.dev with
      hlt := { s.dev.hlt with resetN := false }, pins := { s.dev.pins with reqPin := .warm, bypass := true } } } ∧
    exec .resetRelease s = .next { s with dev := { s.dev with
      hlt := { s.dev.hlt with resetN := true, vcore := true }, pins := { s.dev.pins with faulted := false, bypass := false } } } ∧
    exec .powerDown s = .next { s with dev := { s.dev with
      hlt := { s.dev.hlt with vaon := false, vcore := false }, pins := { s.dev.pins with bypass := true } } } ∧
    (∀ n, 1 ≤ n → n ≤ 5 → (∀ k, s.dev.pins.reqTrip ≠ some (7, k)) →
      exec (.supplyFault n) s = .next { s with dev := { s.dev with
        hlt := { s.dev.hlt with vcore := s.dev.hlt.vcore && n != 1 }
        pins := { s.dev.pins with reqTrip := some (7, n), faulted := true, bypass := ! (s.dev.hlt.vcore && n != 1) || ! s.dev.hlt.resetN } } }) ∧
    (∀ n k, 1 ≤ n → n ≤ 5 → s.dev.pins.reqTrip = some (7, k) →
      ∃ t, exec (.supplyFault n) s = .next t ∧ t.dev.pins.reqTrip = some (7, k) ∧ t.dev.pins.faulted = true ∧
        t.dev.pins.bypass = (! t.dev.hlt.vcore || ! t.dev.hlt.resetN))) ∧
  (∀ d : Dev, d.pins.held = true → d.pins.faulted = true → d.resetRelease = d)

/-- A power-up: the tick counter is 0, buffer memory is empty, the cellar MRAM keeps its slots, HLT_BOOT_CNT counts, no key-
encryption key is held, and the core is held in reset (R8, R22, R436). The boot scan ends: it stops holding the feed back,
HLT_CELLAR_STAT.NEXT names the slot after the record with the highest SEQ among the main region's slots whose CRC passes, with
wrap to slot 4,096, and a BOOT record goes ahead of the feed (R436). -/
def Obligations.PowerUpAndBootScan : Prop :=
  (∀ (s : State) (k : BitVec 2), s.dev.hlt.vaon = false →
    ∃ t, exec (.powerUp k) s = .next t ∧ t.hbm = Hbm.empty ∧ t.pending = s.pending ∧ t.dev.tick = 0 ∧ t.dev.hlt.vaon = true ∧
      t.dev.hlt.mram = s.dev.hlt.mram ∧ t.dev.hlt.kek = none ∧ t.dev.hlt.strap = k ∧ t.dev.coreHeld = true ∧
      t.dev.fld Fld.hltBootCntCount = min (s.dev.fld Fld.hltBootCntCount + 1) (2 ^ 32 - 1)) ∧
  (∀ (s : State) (i : Nat) (b : List Byte), s.dev.hlt.vaon = true → s.dev.hlt.scanning = true →
    (i, b) ∈ s.dev.mainSlots → i < 65536 → recOk b = true → Rising s.dev.hlt.mram = true →
    (∀ x ∈ s.dev.mainSlots, recOk x.2 = true → x.1 ≠ i → leAt x.2 4 4 < leAt b 4 4) →
    ∃ t, exec .cellarScanDone s = .next t ∧ t.hbm = s.hbm ∧ t.dev.hlt.scanning = false ∧ t.dev.hlt.mram = s.dev.hlt.mram ∧
      t.dev.hlt.lastFound = leAt b 4 4 ∧ t.dev.fld Fld.hltCellarStatNext = (if i = 65535 then 4096 else i + 1) ∧
      t.dev.hlt.ahead.length = s.dev.hlt.ahead.length + 1 ∧
      (t.dev.hlt.ahead.getLast?.map fun r => (r.block, r.code)) = some (blkHlt, 0xC4))

/-- EXTEST, EXTEST_PULSE, EXTEST_TRAIN, CLAMP and HIGHZ are honoured only while CTL_SETUP_LOCK.LOCK is 0; after the lock, loading
any of them loads BYPASS instead and sets HLT_TEST_STAT.REFUSED, at the boundary and after the tick's register writes (R13, R443).
Every other instruction is loaded either way. -/
def Obligations.TapInstructionsAfterLock : Prop :=
  ∀ (s : State) (i : TapInstr), s.dev.coreHeld = false →
    ((s.dev.locked = false ∨ i ∈ [TapInstr.bypass, .idcode, .samplePreload]) →
      exec (.tapInstructionLoad i) s = .next { s with dev := { s.dev with age := { s.dev.age with tap := i } } }) ∧
    (s.dev.locked = true → i ∈ [TapInstr.extest, .extestPulse, .extestTrain, .clamp, .highz] →
      ∃ t, exec (.tapInstructionLoad i) s = .next t ∧ t = { s with dev := { s.dev with age := { s.dev.age with tap := .bypass, refused := true } } } ∧
        t.dev.testRefused.flag Fld.hltTestStatRefused = true ∧
        t.dev.regBoundary = (t.dev.regw.foldl Dev.regApply { t.dev with regw := [] }).testRefused)

/-- The sideband chain (R446): the head sends its own frame with POS 0 and END with COUNT 1; a device that is not the head
forwards a good DEVICE frame unchanged, and answers a good END with its own frame at POS COUNT, END with COUNT + 1 and
HLT_SB_STAT.POS; a frame whose CRC fails is dropped and counted; without END for 2 ticks the END sent counts one above the last
POS received. -/
def Obligations.SidebandChain : Prop :=
  ∀ (s : State) (bs : List Byte), s.dev.coreHeld = false →
    (s.dev.flag Fld.hltSbCfgHead = true → s.dev.age.sbNextHead ≤ s.dev.clk →
      exec .sbHeadSend s = .next { s with dev := { s.dev with
        age := { s.dev.age with sbNextHead := s.dev.clk + 50000 }
        out := .sideband (sbEnd 1) :: .sideband (s.dev.sbDevice 0) :: s.dev.out } }) ∧
    (bs.length = 13 → bs.take 2 = [0x7E#8, 0x01#8] → bs.getD 12 0#8 = crc8 (slice bs 1 11) → s.dev.flag Fld.hltSbCfgHead = false →
      exec (.sbDeviceFrame bs) s = .next { s with dev := { s.dev with
        age := { s.dev.age with sbLast := some (leAt bs 2 1, s.dev.clk) }, out := .sideband bs :: s.dev.out } }) ∧
    (bs.length = 4 → bs.take 2 = [0x7E#8, 0x02#8] → bs.getD 3 0#8 = crc8 (slice bs 1 2) → s.dev.flag Fld.hltSbCfgHead = false →
      ∃ t, exec (.sbEndFrame bs) s = .next t ∧ t.hbm = s.hbm ∧ t.dev.age = { s.dev.age with sbLast := none } ∧
        t.dev.fld Fld.hltSbStatPos = leAt bs 2 1 ∧
        t.dev.out = .sideband (sbEnd ((leAt bs 2 1 + 1) % 256)) :: .sideband (s.dev.sbDevice (leAt bs 2 1)) :: s.dev.out) ∧
    (bs.length = 13 → bs.take 2 = [0x7E#8, 0x01#8] → bs.getD 12 0#8 ≠ crc8 (slice bs 1 11) →
      exec (.sbDeviceFrame bs) s = .next { s with dev := (s.dev.bump Fld.hltSbStatErr).postEvent 0x92 blkHlt 0 [item 1] }) ∧
    (∀ p t0, s.dev.age.sbLast = some (p, t0) → t0 + 2 ≤ s.dev.clk →
      ∃ t, exec .sbEndTimeout s = .next t ∧ t.dev.age.sbLast = none ∧ t.dev.free = s.dev.free + 1 ∧
        t.dev.out = .sideband (sbEnd ((p + 1) % 256)) :: .sideband (s.dev.sbDevice (s.dev.fresh.toNat % 256)) :: s.dev.out)

/-- A measurement stands in its register: degradation in HLT_WEARw_STAT, eye height and width in HLT_LANEl_EYE, SNR in RDC_CHc_SNR, with
the byte error rate in RDC_CHc_BER left to the regions' verify results; the retries completed since join the last 256, the newest
first (R438, R487). A TREND record goes to the cellar feed at each
multiple of SNAP minutes; at the tick of a re-plan evaluation, while the control cores run, the rules of R439 apply in their order
and the counts of MOT_CLAMP begin again; at any other tick it does nothing. -/
def Obligations.MeasurementsTrendAndReplan : Prop :=
  (∀ s : State, s.dev.coreHeld = false →
    (∀ w x, w < 96 → x < 2 ^ 24 → ∃ t, exec (.ageMeasure (.wear w x)) s = .next t ∧ t.hbm = s.hbm ∧ t.dev.fld Fld.hltWearStatDegr w = x ∧
      ∀ q j, q.offset j ≠ RegId.hltWearStat.offset w → t.dev.rawReg q j = s.dev.rawReg q j) ∧
    (∀ l h w, l < 88 → h < 1024 → w ≤ 64 → ∃ t, exec (.ageMeasure (.eye l h w)) s = .next t ∧ t.hbm = s.hbm ∧
      t.dev.fld Fld.hltLaneEyeHeight l = h ∧ t.dev.fld Fld.hltLaneEyeWidth l = w ∧ t.dev.fld Fld.hltLaneEyeTrains l = s.dev.fld Fld.hltLaneEyeTrains l ∧
      t.dev.age.eyes.contains l = true) ∧
    (∀ c n, c < 512 → n < 256 → ∃ t, exec (.ageMeasure (.head c n)) s = .next t ∧ t.hbm = s.hbm ∧
      t.dev.fld Fld.rdcChSnrSnr c = n ∧ t.dev.fld Fld.rdcChBerRate c = s.dev.fld Fld.rdcChBerRate c) ∧
    exec (.ageMeasure .retries) s =
      .next { s with dev := { s.dev with age := { s.dev.age with
        retries := (s.dev.age.done.reverse ++ s.dev.age.retries).take 256, done := [] } } }) ∧
  (∀ s : State, s.dev.coreHeld = false →
    (s.dev.tick.toNat % (s.dev.fld1 Fld.hltAgeCfgSnap * 3000000) = 0 →
      exec .trendSnapshot s = .next { s with dev := s.dev.cellar blkHlt 0 0xC2 s.dev.trendPayload }) ∧
    (s.dev.tick.toNat % 3000000 = 1500000 → s.dev.coresRun = true → s.dev.fld Fld.hltAgeCfgEn = 0 →
      exec .replanEvaluation s = .next { s with dev := { s.dev with age := { s.dev.age with clamps := List.replicate 8 0 } } }) ∧
    (s.dev.tick.toNat % 3000000 = 1500000 → s.dev.coresRun = true →
      s.dev.fld Fld.hltAgeCfgEn = 1 → s.dev.fld Fld.hltAvsStatOffset < 10 → s.dev.flag Fld.hltPwrStatAvsErr = false →
      s.dev.fld1 Fld.hltAgeThr0WearStep * (s.dev.fld Fld.hltAvsStatOffset + 1) < s.dev.worstWear →
      ∃ t, exec .replanEvaluation s = .next t ∧ t.dev.fld Fld.hltAvsStatOffset = s.dev.fld Fld.hltAvsStatOffset + 1) ∧
    (s.dev.tick.toNat % 3000000 ≠ 1500000 → exec .replanEvaluation s = .next s))

/-- A function level reset clears EN of every ring pair and the MSI-X table with its pending bits, takes away the completions of
admin commands in progress, and leaves buffer memory, connections and span sets as they were (R395). -/
def Obligations.FunctionLevelReset : Prop :=
  ∀ s : State, s.dev.coreHeld = false →
    ∃ t, exec .functionLevelReset s = .next t ∧ t.hbm = s.hbm ∧ t.pending = s.pending ∧ (∀ r, r < 256 → t.dev.flag Fld.pciRingCfgEn r = false) ∧
      (∀ v, t.dev.vecMasked v = true) ∧ t.dev.ctl.msixPend = [] ∧ (∀ c ∈ t.dev.ctl.admin, c.quiet = true) ∧
      t.dev.rte.conns = s.dev.rte.conns ∧ t.dev.rte.tenants = s.dev.rte.tenants ∧ t.dev.spn = s.dev.spn ∧ t.dev.tp = s.dev.tp ∧
      t.dev.wr = s.dev.wr ∧ t.dev.fab = s.dev.fab

/-! ### Record transport -/

/-- A capsule that passes the checks of R488 holds its tag and waits for admission: a command with its source, tag, opcode,
session, tenant and bytes, which others see from the next boundary on, is added under the next number, every other command stays
as it was, and the session's next ordinal advances by the ordinals that the capsule takes (R33, R36, R488). -/
def Obligations.CapsulesAreAccepted : Prop :=
  ∀ p ∈ queuedCapsules, ∀ (s : State) (src : Src) (cap : List Byte),
    s.dev.coreHeld = false → mayArrive s.dev src cap → capOpcode cap = p.2 → s.dev.tagInUse (srcKey src) (capTag cap) = false →
    contextAtHand s.dev src cap → s.dev.parseCheck (srcKey src) p.2 cap = none →
    ∃ t k, exec (p.1 src cap) s = .next t ∧ t.hbm = s.hbm ∧ t.pending = s.pending ∧ t.dev.rte.nextCmd = s.dev.rte.nextCmd + 1 ∧
      tget t.dev.rte.cmds s.dev.rte.nextCmd = some k ∧ k.src = srcKey src ∧ k.tag = capTag cap ∧ k.op = p.2 ∧
      k.session = sesNo (srcKey src) (capSession cap) ∧ some k.tenant = s.dev.srcTenant (srcKey src) ∧ k.cap = cap ∧
      k.arr = s.dev.clk + 1 ∧ k.adm = none ∧ k.answered = false ∧
      (∀ j, j ≠ s.dev.rte.nextCmd → tget t.dev.rte.cmds j = tget s.dev.rte.cmds j) ∧
      (∀ n, (tget t.dev.ses.sessions n).map (·.next) = (tget s.dev.ses.sessions n).map fun x =>
        if n = sesNo (srcKey src) (capSession cap) then x.next + ordinalsOf p.2 cap else x.next)

/-- A capsule that fails a check is answered in the tick after its arrival, with the status of the first check that fails at its arrival
(entry 13), and takes neither tag nor ordinals: on a connection, more than 64 bytes bring a NAK Invalid Request, no free slot an RNR NAK with
RNR_TIMER, fewer than 4 bytes count in RTE_BAD_CAPSULE_CNT, fewer than 64 bring FIELD_INVALID; then come TAG_IN_USE and checks 3
to 6 (R27, R488). An opcode that R37 does not list, or PUSH-DATA on RoCE, receives OPCODE_INVALID (R488); on the admin ring an
opcode that R385 does not list is taken and completed with OPCODE_INVALID. -/
def Obligations.CapsulesAreRefused : Prop :=
  (∀ p ∈ queuedCapsules, ∀ (s : State) (src : Src) (cap : List Byte) (tn : Nat),
    s.dev.coreHeld = false → s.dev.srcTenant (srcKey src) = some tn → capNamed (srcKey src) p.2 cap = true →
    (isRing (srcKey src) = false → 64 < cap.length →
      exec (p.1 src cap) s = .next (s.withDev (s.dev.nakInvalid (srcKey src)))) ∧
    (isRing (srcKey src) = false → cap.length ≤ 64 → s.dev.maxCmds ≤ s.dev.slotsUsed (srcKey src) →
      exec (p.1 src cap) s =
        .next (s.withDev (s.dev.emitOn (srcKey src) (.rnrNak (srcKey src) (s.dev.fld Fld.rteConnCfgRnrTimer))))) ∧
    (isRing (srcKey src) = false → s.dev.slotsUsed (srcKey src) < s.dev.maxCmds → cap.length < 4 →
      exec (p.1 src cap) s = .next (s.withDev ((received s.dev src).bump Fld.rteBadCapsuleCntCount))) ∧
    (isRing (srcKey src) = false → s.dev.slotsUsed (srcKey src) < s.dev.maxCmds → 4 ≤ cap.length → cap.length < 64 →
      exec (p.1 src cap) s = .next (s.withDev ((received s.dev src).refuse (srcKey src) (responseBytes 0x11 (capTag cap) 0 0 0 0 0)))) ∧
    (mayArrive s.dev src cap → s.dev.tagInUse (srcKey src) (capTag cap) = true →
      exec (p.1 src cap) s = .next (s.withDev ((received s.dev src).refuse (srcKey src) (responseBytes 0x12 (capTag cap) (capSession cap) 0 0 0 0)))) ∧
    (∀ st, mayArrive s.dev src cap → s.dev.tagInUse (srcKey src) (capTag cap) = false →
      contextAtHand s.dev src cap → s.dev.parseCheck (srcKey src) p.2 cap = some st →
      exec (p.1 src cap) s = .next (s.withDev ((parsed s.dev src cap).refuse (srcKey src) (responseBytes st (capTag cap) (capSession cap) 0 0 0 0))))) ∧
  (∀ (s : State) (cap : List Byte), s.dev.coreHeld = false →
    (∀ src, src ≠ .ring 0 → mayArrive s.dev src cap → capNamed (srcKey src) 0xFF cap = true →
      s.dev.tagInUse (srcKey src) (capTag cap) = false → contextAtHand s.dev src cap →
      exec (.capsuleOpcodeInvalid src cap) s = .next (s.withDev ((parsed s.dev src cap).refuse (srcKey src) (responseBytes 0x10 (capTag cap) (capSession cap) 0 0 0 0)))) ∧
    (s.dev.coresRun = true → s.dev.ringMay 0 = true → adminFields (capOpcode cap) = [] → s.dev.adminTag (capTag cap) = false →
      exec (.capsuleOpcodeInvalid (.ring 0) cap) s = .next (s.withDev ((s.dev.ringNext 0).adminDone (capTag cap) 0x10 0)))) ∧
  (∀ (d : Dev) (key : Nat) (bs : List Byte), (d.refuse key bs).rte.dueq =
    d.rte.dueq.filter (fun q => decide (q.vis ≤ d.clk + 1)) ++ { src := key, bytes := bs, ready := false, vis := d.clk + 1 } ::
      d.rte.dueq.filter (fun q => decide (d.clk + 1 < q.vis)))

/-- An ABORT that passes its checks is queued beside the other commands, with no session and no ordinals, and acts in the tick after its
arrival (R62, R70): one that names an ABORT, its own or another, receives FIELD_INVALID, one that names no command that holds its tag
TAG_UNKNOWN with session 0; otherwise the target ends with ABORTED and the ABORT is answered OK with the target's session. RESULT_A
is TARGET_TAG (R60). -/
def Obligations.AbortEndsItsTarget : Prop :=
  (∀ (s : State) (src : Src) (cap : List Byte),
    s.dev.coreHeld = false → mayArrive s.dev src cap → capOpcode cap = 0x3F → reservedClear 0x3F cap = true →
    s.dev.tagInUse (srcKey src) (capTag cap) = false → contextAtHand s.dev src cap →
    ∃ t k, exec (.abort src cap) s = .next t ∧ t.hbm = s.hbm ∧ t.pending = s.pending ∧ t.dev.rte.nextCmd = s.dev.rte.nextCmd + 1 ∧
      tget t.dev.rte.cmds s.dev.rte.nextCmd = some k ∧ k.src = srcKey src ∧ k.tag = capTag cap ∧ k.op = 0x3F ∧ k.session = 0 ∧
      k.cap = cap ∧ k.arr = s.dev.clk + 1 ∧ k.answered = false ∧ k.target = BitVec.ofNat 16 (leAt cap 8 2) ∧
      (∀ j, j ≠ s.dev.rte.nextCmd → tget t.dev.rte.cmds j = tget s.dev.rte.cmds j) ∧
      (∀ n, (tget t.dev.ses.sessions n).map (·.next) = (tget s.dev.ses.sessions n).map (·.next))) ∧
  (∀ (d : Dev) (id : Nat) (k : Cmd),
    ((d.rte.cmds.filter fun c => c.2.op == 0x3F && ! c.2.answered && decide (c.2.arr ≤ d.clk)) = [(id, k)] → d.abortTick = d.abort id k) ∧
    (d.cmdByTag k.src k.target = none → d.abort id k =
      (d.modCmd id fun k => { k with answered := true }).respond k.src (responseBytes 0x13 k.tag 0 0 k.target.toNat 0 0)) ∧
    (∀ j x, d.cmdByTag k.src k.target = some (j, x) → x.op = 0x3F → d.abort id k =
      (d.modCmd id fun k => { k with answered := true }).respond k.src (responseBytes 0x11 k.tag 0 0 k.target.toNat 0 0)) ∧
    (∀ j x, d.cmdByTag k.src k.target = some (j, x) → x.op ≠ 0x3F → d.abort id k =
      ((d.abortCmd j x).modCmd id fun k => { k with answered := true }).respond k.src (responseBytes 0x00 k.tag x.session 0 k.target.toNat 0 0)) ∧
    (∀ j x, tget d.rte.cmds j = some x → x.answered = false →
      (∃ y, tget (d.abortCmd j x).rte.cmds j = some y ∧ y.answered = true) ∧
      (x.op ≠ 0x10 → x.op ≠ 0x11 → x.op ≠ 0x20 → d.abortCmd j x = d.answer j 0x32 0 0 0 0)))

/-- PUSH-DATA for an open window of a write command that holds its tag makes the device read LEN bytes at the host's address; when
they come, they fill the window from its start, and one that they cover whole closes: from the next boundary on the chunker may
take it, and its bytes count as received for the tenant (R43, R66, R67). -/
def Obligations.PushDataFillsItsWindow : Prop :=
  ∀ (s : State) (r : Nat) (w : Window) (id : Nat) (k : Cmd), s.dev.coreHeld = false → r < 256 →
    (∀ cap, mayArrive s.dev (.ring r) cap → capOpcode cap = 0x7F → reservedClear 0x7F cap = true →
      contextAtHand s.dev (.ring r) cap → s.dev.parseCheck (16384 + r) 0x7F cap = none →
      s.dev.cmdByTag (16384 + r) (capTag cap) = some (id, k) →
      k.wr.wins.find? (fun x => x.gid == BitVec.ofNat 32 (leAt cap 8 4) && ! x.closed) = some w → leAt cap 24 4 ≤ w.len →
      ∃ t, exec (.pushData r cap) s = .next t ∧ t.hbm = s.hbm ∧ t.dev.rte.cmds = s.dev.rte.cmds ∧
        t.dev.out = .hostRead (BitVec.ofNat 64 (leAt cap 16 8)) (leAt cap 24 4) :: s.dev.out ∧
        t.dev.rte.pushes = s.dev.rte.pushes ++ [{ ring := r, gid := w.gid, addr := BitVec.ofNat 64 (leAt cap 16 8), len := leAt cap 24 4, tag := capTag cap }]) ∧
    (∀ p bs bad, s.dev.rte.pushes.find? (fun x => x.ring == r && x.gid == w.gid) = some p →
      s.dev.cmdByTag (16384 + r) p.tag = some (id, k) → tget s.dev.rte.cmds id = some k → k.wr.wins.find? (·.gid == w.gid) = some w → w.closed = false → w.got = [] →
      0 < w.len → bs.length = w.len → p.len = w.len →
      ∃ t k', exec (.pushDataDmaComplete r w.gid bs bad) s = .next t ∧ 
        t.hbm = (bufWrite (s.hbm, { s.dev with rte := { s.dev.rte with pushes := s.dev.rte.pushes.erase p } }) w.handle 0 bs bad).1 ∧
        t.dev.rte.pushes = s.dev.rte.pushes.erase p ∧ tget t.dev.rte.cmds id = some k' ∧
        k'.wr.wins.find? (·.gid == w.gid) = some { w with got := [(0, w.len)], closed := true, vis := s.dev.clk + 1 } ∧
        (t.dev.tenantAt k.tenant).rx = ((s.dev.tenantAt k.tenant).rx + w.len) % 2 ^ 64)

/-- An RDMA WRITE into an open window of the connection stores its bytes in the window's buffer and marks them; one with immediate
then closes the window that it names, or fails the command with GRANT_MISMATCH; one that touches a byte outside every window of
the connection brings a NAK Remote Access Error and the error state; one into a withdrawn window that drains is discarded (R43,
R80). A window that closes counts its bytes as received; one that they do not cover fails its command with GRANT_SHORT (R43, R67). -/
def Obligations.RdmaWritesFillWindows : Prop :=
  (∀ (s : State) (c : Nat) (rk : BitVec 32) (va : BitVec 64) (bs : List Byte), s.dev.coreHeld = false → (s.dev.connLive c).isSome = true →
    (∀ id w, s.dev.windowAt c rk va.toNat bs.length = some (id, w) →
      let hd := fillWindow (s.hbm, s.dev.recvPackets c (s.dev.packets c bs.length)) id w (va.toNat - w.va.toNat) bs false
      exec (.rdmaWrite c rk va bs) s = .next (s.withHd hd) ∧
      hd.1 = (bufWrite (s.hbm, s.dev.recvPackets c (s.dev.packets c bs.length)) w.handle (va.toNat - w.va.toNat) bs false).1 ∧
      (∀ g, g ≠ w.gid → exec (.rdmaWriteWithImmediate c rk va bs g) s = .next { s with hbm := hd.1, dev := hd.2.failAnswer id 0x31 }) ∧
      (∀ k w', tget hd.2.rte.cmds id = some k → k.wr.wins.find? (·.gid == w.gid) = some w' →
        exec (.rdmaWriteWithImmediate c rk va bs w.gid) s = .next { s with hbm := hd.1, dev := hd.2.closeWindow id w' })) ∧
    (s.dev.windowAt c rk va.toNat bs.length = none → s.dev.drainAt c rk va.toNat bs.length = false →
      exec (.rdmaWrite c rk va bs) s = .next (s.withDev (s.dev.nakAccess c)) ∧
      ∀ g, exec (.rdmaWriteWithImmediate c rk va bs g) s = .next (s.withDev (s.dev.nakAccess c))) ∧
    (s.dev.windowAt c rk va.toNat bs.length = none → s.dev.drainAt c rk va.toNat bs.length = true →
      exec (.rdmaWrite c rk va bs) s = .next (s.withDev (s.dev.recvPackets c (s.dev.packets c bs.length))))) ∧
  (∀ (d : Dev) (id : Nat) (w : Window) (k : Cmd), tget d.rte.cmds id = some k →
    (w.got = [(0, w.len)] → ∃ k', tget (d.closeWindow id w).rte.cmds id = some k' ∧
      (∀ x ∈ k'.wr.wins, x.gid = w.gid → x.closed = true) ∧
      ((d.closeWindow id w).tenantAt k.tenant).rx = ((d.tenantAt k.tenant).rx + w.len) % 2 ^ 64) ∧
    (w.got ≠ [(0, w.len)] → d.closeWindow id w =
      (d.modTenant k.tenant fun t => { t with rx := (t.rx + w.bytes) % 2 ^ 64, changed := true }).failAnswer id 0x30))

/-- Congestion: a CNP cuts the rate by CUT eighths, not below MIN and once per tick; RECOVER ticks without one close STEP
sixteenths of the gap to line rate; with CUT 0 CNPs are ignored and the rate is the line rate; a CE mark is answered with a CNP,
at most one per connection in CNP_GAP ticks (R28, R29). A message leaves at once, and counts against R, unless its port's priority is
paused or does not commit, R holds the connection back or an earlier message of it waits: then it waits behind the others (R16, R28,
R486; what R counts: entry 106). An operation that the device does not support brings a NAK Invalid Request
and the error state (R26). A tenant's ACK frees the packets up to it and clears the retry counts, a NAK for a sequence gap or a
lapsed acknowledgement sends the unacknowledged packets again while the retry count allows, another NAK brings the error state, an
RNR NAK is retried up to its count (R397, R424). -/
def Obligations.CongestionAndAcknowledgements : Prop :=
  (∀ (s : State) (c : Nat) (k : Conn), s.dev.coreHeld = false → tget s.dev.rte.conns c = some k → k.err = false →
    (s.dev.ecnCut ≠ 0 → k.cutAt ≠ some s.dev.clk → ∃ t, exec (.cnpReceive c) s = .next t ∧ t.hbm = s.hbm ∧ t.dev.out = s.dev.out ∧
      tget t.dev.rte.conns c = some { k with
        rate := max (k.rate * ((8 - s.dev.ecnCut : Nat) : Rat) / 8) ((s.dev.fld1 Fld.rteEcnCfgMin : Nat) : Rat)
        cutAt := some s.dev.clk, quietFrom := s.dev.clk }) ∧
    (s.dev.ecnCut ≠ 0 → k.cutAt = some s.dev.clk → ∃ t, exec (.cnpReceive c) s = .next t ∧
      tget t.dev.rte.conns c = some { k with quietFrom := s.dev.clk }) ∧
    (s.dev.ecnCut = 0 → exec (.cnpReceive c) s = .next s ∧ ∃ t, exec (.rateRecover c) s = .next t ∧
      tget t.dev.rte.conns c = some { k with rate := s.dev.lineRate k.port }) ∧
    (s.dev.ecnCut ≠ 0 → k.quietFrom + s.dev.fld1 Fld.rteEcnCfgRecover ≤ s.dev.clk → ∃ t, exec (.rateRecover c) s = .next t ∧
      tget t.dev.rte.conns c = some { k with
        rate := k.rate + (s.dev.lineRate k.port - k.rate) * ((s.dev.fld Fld.rteEcnCfgStep : Nat) : Rat) / 16, quietFrom := s.dev.clk }) ∧
    ((∀ x, k.cnpSentAt = some x → x + s.dev.fld1 Fld.rteEcnCfgCnpGap ≤ s.dev.clk) →
      ∃ t, exec (.ceMarkedPacket c) s = .next t ∧ t.hbm = s.hbm ∧ tget t.dev.rte.conns c = some { k with cnpSentAt := some s.dev.clk } ∧
        t.dev.out = (s.dev.emitOn c (.cnp c)).out ∧
        (s.dev.ethLate k.port = false → s.dev.portPaused k.port = false → k.paid = true → s.dev.eth.held.any (·.1 == c) = false →
          t.dev.out = .cnp c :: s.dev.out)) ∧
    (∀ o, s.dev.ethLate k.port = true ∨ s.dev.portPaused k.port = true ∨ k.paid = false ∨ s.dev.eth.held.any (·.1 == c) = true →
      s.dev.emitOn c o = { s.dev with eth := { s.dev.eth with held := s.dev.eth.held ++ [(c, o)] } }) ∧
    (∀ o, s.dev.ethLate k.port = false → s.dev.portPaused k.port = false → k.paid = true → s.dev.eth.held.any (·.1 == c) = false →
      (s.dev.emitOn c o).out = o :: s.dev.out ∧ tget (s.dev.emitOn c o).rte.conns c = some { k with debt := k.debt + (o.load : Rat) }) ∧
    (∀ x, k.cnpSentAt = some x → s.dev.clk < x + s.dev.fld1 Fld.rteEcnCfgCnpGap → exec (.ceMarkedPacket c) s = .next s)) ∧
  (∀ (s : State) (c : Nat) (k : Conn) (psn : BitVec 24), s.dev.coreHeld = false → s.dev.connLive c = some k →
    (∀ op, exec (.unsupportedOperation c op) s = .next (s.withDev ((s.dev.emitOn c (.nakInvalid c)).qpError c 1))) ∧
    exec (.tenantAckReceive c .ack psn) s = .next (s.withDev (s.dev.modConn c fun x =>
      { x with unacked := ackUpTo x.unacked psn, tries := 0, rnrTries := 0 })) ∧
    (k.tries < k.retry % 8 →
      exec (.tenantAckReceive c .nakSequence psn) s = .next (s.withDev
        (((if k.unacked.any (·.1 == psn) then k.unacked.dropWhile (·.1 != psn) else k.unacked).filterMap (·.2)).foldl (fun d o => d.emitOn c o)
          ((s.dev.modConn c fun x => { x with
            unacked := if x.unacked.any (·.1 == psn) then x.unacked.dropWhile (·.1 != psn) else x.unacked }).modConn c fun x =>
              { x with tries := x.tries + 1 })))) ∧
    exec (.tenantAckReceive c .nakOther psn) s = .next (s.withDev (s.dev.qpError c 2)) ∧
    (k.retry / 8 % 8 = 7 ∨ k.rnrTries < k.retry / 8 % 8 →
      exec (.tenantAckReceive c .rnrNak psn) s = .next (s.withDev ((k.unacked.filterMap (·.2)).foldl (fun d o => d.emitOn c o)
        (s.dev.modConn c fun x => { x with rnrTries := x.rnrTries + 1 })))) ∧
    (k.retry / 8 % 8 ≠ 7 → k.retry / 8 % 8 ≤ k.rnrTries → exec (.tenantAckReceive c .rnrNak psn) s = .next (s.withDev (s.dev.qpError c 3))) ∧
    (k.unacked ≠ [] → k.tries < k.retry % 8 →
      exec (.localAckTimeout c) s = .next (s.withDev ((k.unacked.filterMap (·.2)).foldl (fun d o => d.emitOn c o)
        (s.dev.modConn c fun x => { x with tries := x.tries + 1 })))) ∧
    (k.unacked ≠ [] → k.retry % 8 ≤ k.tries → exec (.localAckTimeout c) s = .next (s.withDev (s.dev.qpError c 3))))

/-! ### Admission, grants, responses and meters -/

/-- A command that a round has taken is admitted and acts (R71): its step leaves the round's list and the boundary of its
admission stands. WRITE and SYNC commands then wait for their data, but a write command of a span set that takes no more rows receives
SPAN_EXHAUSTED (R313, R314); READ looks its volume up (NOT_MOUNTED) and starts at the data
set it names (R52); CLOSE waits for earlier commands of its session (R39); QUERY SESSION and QUERY SLOTS answer (R60); HINT
answers for a volume that is not mounted (R58); OPEN of a class that the tenant may not use receives CLASS_DENIED, and one with a
KEY_INDEX but no ENCRYPT KEY_DENIED (R38). -/
def Obligations.AdmittedCommandsAct : Prop :=
  ∀ (s : State) (src : Src) (tag : BitVec 16) (id : Nat) (k : Cmd) (w : WonStep), s.dev.coreHeld = false →
    s.dev.cmdByTag (srcKey src) tag = some (id, k) → tget s.dev.rte.cmds id = some k → k.adm = none →
    s.dev.sch.won.find? (fun w => w.cmd == id && decide (w.vis ≤ s.dev.clk)) = some w →
    let d := s.dev.admitted id k w
    (tget d.rte.cmds id = some { k with adm := some s.dev.clk } ∧ d.sch.won = s.dev.sch.won.erase w ∧ d.clk = s.dev.clk ∧
      ∀ j, j ≠ id → tget d.rte.cmds j = tget s.dev.rte.cmds j) ∧
    (k.op = opSync ∨ (k.op = opWrite ∨ k.op = opMark) ∧ s.dev.takesNoRows k.session = false →
      exec (.commandAdmission src tag) s = .next (s.withDev d)) ∧
    (k.op = opWrite ∨ k.op = opMark → s.dev.takesNoRows k.session = true → exec (.commandAdmission src tag) s =
      .next (s.withDev (({ s.dev with sch := { s.dev.sch with won := s.dev.sch.won.erase w } } : Dev).failAnswer id 0x26))) ∧
    (k.op = opRead → d.volAt k.readVol = none → exec (.commandAdmission src tag) s = .next (s.withDev (d.answer id 0x27 0 0 0 0))) ∧
    (k.op = opRead → (d.volAt k.readVol).isSome = true → exec (.commandAdmission src tag) s =
      .next (s.withDev (d.modCmd id fun k => { k with rd := { k.rd with ds := leAt k.cap 16 6, next := k.firstOrd } }))) ∧
    (k.op = opClose → d.earlierOpen id k.session = true → exec (.commandAdmission src tag) s = .next (s.withDev d)) ∧
    (k.op = opQuery → leAt k.cap 8 1 = 0 → exec (.commandAdmission src tag) s =
      .next (s.withDev (d.answer id 0x00 0 (((tget d.ses.sessions k.session).map (·.next)).getD 0) (d.onTapeBelow k.session)
        (d.rte.cmds.filter fun c => c.2.session == k.session && ! c.2.answered).length))) ∧
    (k.op = opQuery → leAt k.cap 8 1 ≠ 0 → exec (.commandAdmission src tag) s =
      .next (s.withDev (d.answer id 0x00 0 (d.maxCmds - d.slotsUsed k.src)
        (d.grantsLive.filter fun w => w.1 == k.src && ! w.2.closed && w.2.withdrawn.isNone).length 0))) ∧
    (k.op = opHint → d.volAt (BitVec.ofNat 64 (leAt k.cap 8 8)) = none →
      exec (.commandAdmission src tag) s = .next (s.withDev (d.answer id 0x27 0 0 0 0))) ∧
    (k.op = opOpen → d.mayClass k.tenant (leAt k.cap 9 1) = false →
      exec (.commandAdmission src tag) s = .next (s.withDev (d.answer id 0x24 0 0 0 0))) ∧
    (k.op = opOpen → d.mayClass k.tenant (leAt k.cap 9 1) = true → bitOf (leAt k.cap 14 1) 1 = false → leAt k.cap 10 2 ≠ 0 →
      exec (.commandAdmission src tag) s = .next (s.withDev (d.answer id 0x23 0 0 0 0)))

/-- A buffer that POOL has committed for a write command becomes its next READY window (R41, R42): a grant number that no
outstanding grant uses, nor one that the partner's control records name, the window's length and offset as the round took them, R_KEY
and VA 0 on a ring; one READY capsule carries them to the command's source, at once or, beyond the tick's budget, in due
order (R63). A window that waited for TIMEOUT ticks fails its command with GRANT_SHORT; one that has drained for DRAIN ticks gives its
buffer back (R80). -/
def Obligations.GrantsOpenTimeOutAndDrain : Prop :=
  (∀ (s : State) (src : Src) (tag : BitVec 16) (id : Nat) (k : Cmd) (h : BitVec 32) (off len : Nat) (rest : List (Nat × Nat)),
    s.dev.coreHeld = false → s.dev.cmdByTag (srcKey src) tag = some (id, k) → tget s.dev.rte.cmds id = some k →
    s.dev.stallsAny blkRte 0 = false → s.dev.pool.done.find? (fun p => p.1 == .grant id) = some (.grant id, h) →
    k.wr.asked = (off, len) :: rest → s.dev.grantsLive.length + s.dev.partnerGrants.length < 2 ^ 32 →
    ∃ (t : State) (w : Window) (k' : Cmd) (e : Dev), exec (.readyGrant src tag) s = .next t ∧ t.hbm = s.hbm ∧
      t.dev = e.capDue k.src (readyBytes k.tag k.session w.gid w.rkey w.va w.len w.off) true ∧ e.rte.dueq = s.dev.rte.dueq ∧
      e.rte.grantsSent = s.dev.rte.grantsSent ∧ e.clk = s.dev.clk ∧
      t.dev.pool.done = s.dev.pool.done.erase (.grant id, h) ∧ tget t.dev.rte.cmds id = some k' ∧ k'.wr.asked = rest ∧
      k'.wr.wins = k.wr.wins ++ [w] ∧ w.len = len ∧ w.off = off ∧ w.handle = h ∧ w.opened = s.dev.clk ∧ w.closed = false ∧ w.got = [] ∧
      (∀ g ∈ s.dev.grantsLive, g.2.gid ≠ w.gid) ∧ (∀ g ∈ s.dev.partnerGrants, g ≠ w.gid) ∧ (isRing k.src = true → w.rkey = 0#32 ∧ w.va = 0#64)) ∧
  (∀ (d : Dev) (key : Nat) (bs : List Byte) (ready : Bool),
    (d.capRoom ready = true → (∀ q ∈ d.rte.dueq, q.ready = ready → d.clk < q.vis) → d.capDue key bs ready = d.sendCounted key bs ready) ∧
    (d.capRoom ready = false ∨ (∃ q ∈ d.rte.dueq, q.ready = ready ∧ q.vis ≤ d.clk) →
      d.capDue key bs ready = d.queueCap { src := key, bytes := bs, ready := ready, vis := d.clk })) ∧
  (∀ (s : State) (g : BitVec 32), s.dev.coreHeld = false →
    (∀ id w, s.dev.cmdOfGrant g = some (id, w) → w.opened + s.dev.grantTimeout ≤ s.dev.clk →
      exec (.grantTimeout g) s = .next (s.withDev (s.dev.failAnswer id 0x30))) ∧
    (∀ id w, s.dev.cmdOfGrant g = some (id, w) → s.dev.clk < w.opened + s.dev.grantTimeout → exec (.grantTimeout g) s = .next s) ∧
    (∀ w x, s.dev.rte.draining.find? (fun w => w.2.gid == g) = some w → w.2.withdrawn = some x →
      x + s.dev.fld1 Fld.schGrantCfgDrain ≤ s.dev.clk →
      ∃ t, exec (.grantDrainEnd g) s = .next t ∧ t.dev.rte = { s.dev.rte with draining := s.dev.rte.draining.erase w } ∧
        t.dev.pool.ops = s.dev.pool.ops ++ [{ share := false, handle := w.2.handle, owner := 1, vis := s.dev.clk + 1 }]))

/-- The responses of R47, R48 and R54: a write command whose records are all sealed, and in a pair held by the partner, is
answered OK with BUFFERED, or with the status of a chunk dropped before, in a tick in which RTE has not overrun (R16); a SYNC whose
records are all settled, and whose rows the cellar log shows complete, is answered with its positions; a READ delivers what has been
decoded. Each waits until then. Answering a command frees its tag and leaves every other
command as it was; a response goes to the source with the command's tag (R36, R59, R60). -/
def Obligations.ResponsesFollowTheirRecords : Prop :=
  (∀ (s : State) (src : Src) (tag : BitVec 16) (id : Nat) (k : Cmd), s.dev.coreHeld = false →
    s.dev.cmdByTag (srcKey src) tag = some (id, k) →
    (k.op = opWrite ∨ k.op = opMark → s.dev.bufferedReady id k = true → s.dev.stallsAny blkRte 0 = false → exec (.bufferedResponse src tag) s =
      .next (s.withDev (s.dev.answer id (s.dev.bufferedStatus id) (if s.dev.bufferedStatus id = 0x00 then 0x01 else 0)
        (s.dev.writeResults id k).1 (s.dev.writeResults id k).2.1 (s.dev.writeResults id k).2.2))) ∧
    (s.dev.bufferedReady id k = false ∨ s.dev.stallsAny blkRte 0 = true → exec (.bufferedResponse src tag) s = .next s) ∧
    (k.op = opSync → k.adm.isSome = true → k.bound ≤ s.dev.settledBelow k.session → s.dev.unshownRows k.session k.bound = [] →
      ∀ ses, tget s.dev.ses.sessions k.session = some ses →
        exec (.onTapeResponse src tag) s = .next (s.withDev (s.dev.syncDone id k ses))) ∧
    (s.dev.settledBelow k.session < k.bound ∨ s.dev.unshownRows k.session k.bound ≠ [] → exec (.onTapeResponse src tag) s = .next s) ∧
    (k.op = opRead → exec (.readDelivery src tag) s = .next (s.withDev (Dev.readGo s.hbm id 65536 s.dev)))) ∧
  (∀ (d : Dev) (id : Nat) (k : Cmd) (st fl a b c : Nat), tget d.rte.cmds id = some k → k.answered = false →
    tget (d.answer id st fl a b c).rte.cmds id = some { k with answered := true } ∧
    (∀ j, j ≠ id → tget (d.answer id st fl a b c).rte.cmds j = tget d.rte.cmds j) ∧
    (d.answer id st fl a b c).ses = d.ses ∧
    (let bs := responseBytes st k.tag (if k.op = opOpen ∧ st = 0 then a else k.session) fl a b c
     d.answer id st fl a b c = (d.modCmd id fun k => { k with answered := true }).respond k.src bs ∧ capTag bs = k.tag))

/-- A metering snapshot falls on each boundary whose tick is a multiple of 3,000,000 (R68): it queues one record for each tenant
with an open session or changed counters, in tenant order, and each record carries the counters and SEQ of that moment; the device of
a protected pair that queues none begins its changes again from there (R418). In a tick in which it has not overrun (R16, R116) the
chunker takes the pieces of a session's records as long as they can be placed (R93, R97), and when every member's cartridge holds the
next epoch, the span set's chunks no longer wait for it (R119). -/
def Obligations.MetersFillAndReserve : Prop :=
  (∀ s : State, s.dev.coreHeld = false →
    (s.dev.tick.toNat % 3000000 ≠ 0 → exec .meteringSnapshot s = .next s) ∧
    (s.dev.tick.toNat % 3000000 = 0 → s.dev.queuesMeters = true →
      ∃ t, exec .meteringSnapshot s = .next t ∧ t.hbm = s.hbm ∧
        t.dev.ctl.metq = s.dev.ctl.metq ++ s.dev.meteredTenants.map (fun n => meterBytes n (s.dev.meterTotal n) s.dev.tick) ∧
        (∀ n, n ∈ s.dev.meteredTenants → t.dev.tenantAt n =
          { s.dev.tenantAt n with changed := false, restart := false, seq := ((s.dev.meterTotal n).seq + 1) % 2 ^ 32 }) ∧
        ∀ n, n ∉ s.dev.meteredTenants → t.dev.tenantAt n = s.dev.tenantAt n) ∧
    (s.dev.tick.toNat % 3000000 = 0 → s.dev.queuesMeters = false →
      ∃ t, exec .meteringSnapshot s = .next t ∧ t.hbm = s.hbm ∧ t.dev.ctl.metq = s.dev.ctl.metq ∧
        ∀ n, t.dev.tenantAt n =
          if n ∈ s.dev.meteredTenants then { s.dev.tenantAt n with changed := false, restart := false } else s.dev.tenantAt n)) ∧
  (∀ s : State, s.dev.coreHeld = false →
    (∀ n, s.dev.sesLate = false → exec (.chunkFill n) s = .next (s.withHd (fillGo n (s.dev.fillFuel n) (s.hbm, s.dev)))) ∧
    (∀ n, s.dev.sesLate = true ∨ s.dev.fillCmd n = none → exec (.chunkFill n) s = .next s) ∧
    (∀ i sp, s.dev.spanAt i = some sp → s.dev.reserveHeld sp = true → exec (.reserveEpochWritten i) s =
      .next (s.withDev (s.dev.modSpan i fun x => { x with epoch := { x.epoch with waiting := false } }))) ∧
    (∀ i sp, s.dev.spanAt i = some sp → s.dev.reserveHeld sp = false → exec (.reserveEpochWritten i) s = .next s))

/-! ### Chunks and keys -/

/-- A closed chunk no longer stands open in its session; its CRC is complete, and it is visible from the next boundary on (R95,
R98, R99); where 2,048 closures of the tick, with those still to come that fell due in an earlier tick or in the same tick for a
session of a lower number, leave no room, it stays open and due (R96). In a tick in which SES has overrun none closes (R16, R116). -/
def Obligations.ChunksClose : Prop :=
  ∀ (s : State) (n cid : Nat) (x : Session) (c : Chunk), s.dev.coreHeld = false →
    tget s.dev.ses.sessions n = some x → x.open_ = some cid → tget s.dev.ses.chunks cid = some c →
    (s.dev.sesLate = true → ∀ i ∈ [Instr.chunkClose n, .chunkHoldExpiry n, .chunkAgeExpiry n], exec i s = .next s) ∧
    (s.dev.sesLate = false → ∀ i ∈ [Instr.chunkClose n, .chunkHoldExpiry n, .chunkAgeExpiry n],
      (i = .chunkClose n → c.lastByte < s.dev.clk ∧ ((∃ b, c.dueAt = some b ∧ b < s.dev.clk) ∨ c.origLen = 65536 ∨ s.dev.closeForSync n = true)) →
      (i = .chunkHoldExpiry n → c.lastByte + s.dev.holdTicks < s.dev.clk) →
      (i = .chunkAgeExpiry n → c.opened + s.dev.ageTicks < s.dev.clk) →
      ∃ t, exec i s = .next t ∧ t.hbm = s.hbm ∧
        (s.dev.ses.closures + s.dev.closeBefore n (c.dueAt.getD s.dev.clk) < 2048 →
          tget t.dev.ses.chunks cid = some { c with st := .closed, crc := c.crc ^^^ 0xFFFFFFFF#32, dueAt := some s.dev.clk, vis := s.dev.clk + 1 } ∧
          tget t.dev.ses.sessions n = some { x with open_ := none } ∧ t.dev.ses.closures = s.dev.ses.closures + 1) ∧
        (2048 ≤ s.dev.ses.closures + s.dev.closeBefore n (c.dueAt.getD s.dev.clk) →
          tget t.dev.ses.chunks cid = some { c with dueAt := some (c.dueAt.getD s.dev.clk) } ∧ t.dev.ses.sessions = s.dev.ses.sessions)) ∧
    (s.dev.clk ≤ c.lastByte → exec (.chunkClose n) s = .next s) ∧
    (s.dev.clk ≤ c.lastByte + s.dev.holdTicks → exec (.chunkHoldExpiry n) s = .next s) ∧
    (s.dev.clk ≤ c.opened + s.dev.ageTicks → exec (.chunkAgeExpiry n) s = .next s)

/-- A closed chunk with its stored buffer goes, in closing order, to a drupelet of the write role that has room and the fewest
pending quanta; while every queue of the role is full it waits (R97, R113). A chunk that is ready is sealed (R99), and only then, in a
tick in which SES has not overrun (R16, R116). Sealing a chunk that is not encrypted writes its header into the slot at the front of
its stored buffer and counts its stored bytes and the 32 of the header for its tenant (R67, R98, R99); an encrypted one is not sealed
while its key is absent (R123). -/
def Obligations.ChunksDispatchAndSeal : Prop :=
  (∀ (s : State) (id : Nat) (c : Chunk), s.dev.coreHeld = false → tget s.dev.ses.chunks id = some c →
    (c.st = .closed → c.poisoned = false → c.stored.isSome = true → s.dev.sesLate = false →
      (s.dev.ses.chunks.any fun o => o.2.st == .closed && o.2.stored.isSome && ! o.2.poisoned && o.1 != id &&
        (decide (o.2.vis < c.vis) || (o.2.vis == c.vis && decide (o.2.session < c.session)))) = false →
      (∀ d, s.dev.druQueue { rd := false, id := id } false = some d →
        exec (.chunkDispatch id) s = .next (s.withDev (d.modChunk id fun c => { c with st := .queued, vis := s.dev.clk + 1 }))) ∧
      (s.dev.druQueue { rd := false, id := id } false = none → exec (.chunkDispatch id) s = .next s)) ∧
    (∀ d, s.dev.druQueue { rd := false, id := id } false = some d →
      ∃ i, i < 48 ∧ s.dev.druWrite i = true ∧ (s.dev.druAt i).queue.length < 8 ∧
        d = s.dev.modDru i (fun u => { u with queue := u.queue ++ [{ rd := false, id := id }] }) ∧
        ∀ j, j < 48 → s.dev.druWrite j = true → (s.dev.druAt j).queue.length < 8 →
          s.dev.pending (s.dev.druAt i) ≤ s.dev.pending (s.dev.druAt j)) ∧
    (c.st = .ready → c.vis ≤ s.dev.clk → s.dev.sesLate = false →
      exec (.chunkSeal id) s = .next (s.withHd (sealChunk (s.hbm, s.dev) id c))) ∧
    (c.st ≠ .ready ∨ s.dev.clk < c.vis ∨ s.dev.sesLate = true → exec (.chunkSeal id) s = .next s) ∧
    (s.dev.sesLate = true → exec (.chunkDispatch id) s = .next s)) ∧
  (∀ (h : Hbm) (d : Dev) (id : Nat) (c : Chunk), c.enc = true → d.keyOf c.key c.tenant = none → sealChunk (h, d) id c = (h, d)) ∧
  (∀ (h : Hbm) (d : Dev) (id : Nat) (c : Chunk) (b : BitVec 32), tget d.ses.chunks id = some c → c.stored = some b → c.enc = false →
    (sealChunk (h, d) id c).1 = (bufWrite (h, d) b 0 c.header false).1 ∧
    tget (sealChunk (h, d) id c).2.ses.chunks id = some { c with st := .sealed } ∧
    ((sealChunk (h, d) id c).2.tenantAt c.tenant).cmp = ((d.tenantAt c.tenant).cmp + c.storedLen + 32) % 2 ^ 64)

/-- A poisoned chunk that waits before sealing runs again over the stream that the partner returns, or is dropped with
BUFFER_POISON when the partner has none; one already placed is run again into its extent, or its records are lost (R127). A chunk
that is not poisoned is not touched. A key table entry that was asked for is unwrapped into the key cache when it is valid, names
its own index and unwraps under the key-encryption key, and can be used from the next boundary on; otherwise no earlier key of the
index stands, the index is marked as failed, and the chunks that need it are dropped (R11, R121, R123, R124). An entry that was not asked for is not taken. -/
def Obligations.RefetchAndKeyFetch : Prop :=
  (∀ (s : State) (id : Nat) (c : Chunk), s.dev.coreHeld = false → tget s.dev.ses.chunks id = some c →
    (c.poisoned = false → ∀ bs, exec (.chunkRefetch id bs) s = .next s) ∧
    (c.poisoned = true → c.st = .closed →
      exec (.chunkRefetch id none) s = .next (s.withDev (s.dev.dropChunk id 0x46)) ∧
      ∀ bs b, c.orig = some b → ∃ t, exec (.chunkRefetch id (some bs)) s = .next t ∧
        t.hbm = (bufWrite (s.hbm, s.dev) b 0 bs false).1 ∧
        tget t.dev.ses.chunks id = some { c with orig := some b, poisoned := false, vis := 0 }) ∧
    (c.poisoned = true → c.st = .placed →
      (∃ t, exec (.chunkRefetch id none) s = .next t ∧ t.hbm = s.hbm ∧
        tget t.dev.ses.chunks id = some { c with st := .lost, why := 0x46 }) ∧
      ∀ bs, exec (.chunkRefetch id (some bs)) s = .next (s.withHd (refetchPlaced (s.hbm, s.dev) id c bs)))) ∧
  (∀ (s : State) (i : Nat) (e : List Byte), s.dev.coreHeld = false →
    (s.dev.dru.fetching.contains i = false → exec (.keyFetch i e) s = .next s) ∧
    (s.dev.dru.fetching.contains i = true →
      let d : Dev := { s.dev with dru := { s.dev.dru with fetching := s.dev.dru.fetching.erase i } }
      let bad := (({ d with dru := { d.dru with keys := d.dru.keys.filter (·.index != i), badKeys := i :: d.dru.badKeys } } : Dev).keyFails i)
      (∀ kek, s.dev.hlt.kek = some kek → exec (.keyFetch i e) s = .next (s.withDev (match entryKey kek e i with
        | some x => (d.cacheKey { index := i, tenant := x.1, key := x.2, vis := s.dev.clk + 1 }).keyFails i
        | none => bad))) ∧
      (s.dev.hlt.kek = none → exec (.keyFetch i e) s = .next (s.withDev bad))) ∧
    (leAt e 4 1 % 2 = 0 ∨ i = 0 ∨ 16384 ≤ leAt e 0 2 ∨ leAt e 2 2 ≠ i → ∀ kek, entryKey kek e i = none))

/-! ### Buffer memory -/

/-- Every command but those of `mayWriteMemory` leaves each byte, each check byte and each fill mark of buffer memory as it was.
-/
def Obligations.OtherCommandsLeaveMemory : Prop :=
  ∀ (c : Instr) (s t : State), mayWriteMemory c = false → exec c s = .next t →
    t.hbm = s.hbm ∧ (∀ a, t.hbm.byte a = s.hbm.byte a) ∧ (∀ k, t.hbm.check k = s.hbm.check k) ∧ ∀ p, t.hbm.marked p = s.hbm.marked p

/-- An entry of the mash buffer that is not complete is written out two boundaries after the tick in which it was created, by
read-merge-write (R343): the masked bytes come from the entry and the others from memory, the entry is gone, every byte outside
its word is as it was, and so is every other entry. An entry that is younger, or a word without one, is not touched, and nothing is
while MEM's step 0x02 of the word's stack has overrun (R16). -/
def Obligations.MashEntriesAreWrittenOut : Prop :=
  ∀ (s : State) (w : Nat), s.dev.coreHeld = false → w < hbmWords →
    (s.dev.stalls blkMem (memGroup w % 2) 2 = true → exec (.mashWriteOut w) s = .next s) ∧
    (∀ e, s.dev.mashAt w = some e → e.born + 2 ≤ s.dev.clk → s.dev.stalls blkMem (memGroup w % 2) 2 = false →
      ∃ t, exec (.mashWriteOut w) s = .next t ∧ t.pending = s.pending ∧ t.dev.mashAt w = none ∧
        (∀ v, v ≠ w → t.dev.mashAt v = s.dev.mashAt v) ∧ (∀ a, a / 32 ≠ w → t.hbm.byte a = s.hbm.byte a) ∧
        (e.mask.all id = true → e.bytes.length = 32 → ∀ i, i < 32 → t.hbm.byte (32 * w + i) = e.bytes.getD i 0#8) ∧
        (e.mask.all id = false → ∀ i, i < 32 → t.hbm.byte (32 * w + i) =
          if e.mask.getD i false then e.bytes.getD i 0#8 else (s.hbm.classify w).2.1.getD i 0#8)) ∧
    (∀ e, s.dev.mashAt w = some e → s.dev.clk < e.born + 2 → exec (.mashWriteOut w) s = .next s) ∧
    (s.dev.mashAt w = none → exec (.mashWriteOut w) s = .next s)

/-- A poisoned word of a staged payload is written with the bytes that the partner returns, or is lost when it has none (R340); a
word that is not poisoned, or lies in no payload, is not touched. The leak of the correctable-error buckets (R346): on a boundary
whose tick is a multiple of LEAK each of the 32 buckets above 0 loses 1, and a bucket at 0 stays; no register but the buckets'
changes. On other boundaries nothing leaks. -/
def Obligations.PayloadWordsAndBuckets : Prop :=
  (∀ (s : State) (w : Nat), s.dev.coreHeld = false → w < hbmWords →
    ((s.dev.payloadAt (32 * w)).isSome = true → (s.hbm.classify w).2.2 = true →
      (∀ bs, ∃ t, exec (.payloadWordRefetch w (some bs)) s = .next t ∧ t.pending = s.pending ∧ t.hbm = s.hbm.putWord w (padTo 32 bs) false ∧
        t.dev.mashAt w = none ∧ ∀ a, a / 32 ≠ w → t.hbm.byte a = s.hbm.byte a) ∧
      exec (.payloadWordRefetch w none) s = .next (s.withHd (payloadLost (s.hbm, s.dev) w))) ∧
    ((s.dev.payloadAt (32 * w)).isSome = false ∨ (s.hbm.classify w).2.2 = false → ∀ bs, exec (.payloadWordRefetch w bs) s = .next s)) ∧
  (∀ s : State, s.dev.coreHeld = false →
    (s.dev.tick.toNat % s.dev.fld1 Fld.memBktCfgLeak ≠ 0 → exec .bucketLeak s = .next s) ∧
    (s.dev.tick.toNat % s.dev.fld1 Fld.memBktCfgLeak = 0 → ∃ t, exec .bucketLeak s = .next t ∧ t.hbm = s.hbm ∧
      (∀ g, g < 32 → t.dev.fld Fld.memBktStatLevel g = s.dev.fld Fld.memBktStatLevel g - 1) ∧
      (∀ q j, (∀ g, g < 32 → q.offset j ≠ RegId.memBktStat.offset g) → t.dev.rawReg q j = s.dev.rawReg q j) ∧
      t.dev.mem = s.dev.mem ∧ t.dev.out = s.dev.out))

/-! ### Rows and span sets -/

/-- A sealed chunk whose session's earlier chunks are placed goes to its session's current member, or to the first following
member whose open data set it fits, while fewer than 1,024 placements have been made in the tick and PKR's step 0x01 has not overrun
(R16, R115, R137, R139): it is placed in the
open row as that data set's last chunk, and that member becomes the session's. One that fits no member waits. The open data sets
of a row close together when the next chunk of some session fits none of them; SHORT when a SYNC waits for the row, when the
control plane closes it or when AGE ticks have passed since its first placement, and then SYNC only for a SYNC (R138); while the
row is more than 32 above the lowest that a member still writes it stays open (R302). -/
def Obligations.ChunksArePlacedAndRowsClose : Prop :=
  (∀ (s : State) (id : Nat) (c : Chunk) (sp : Span) (r : Row), s.dev.coreHeld = false →
    tget s.dev.ses.chunks id = some c → s.dev.spanAt c.span = some sp → c.st = .sealed → c.vis ≤ s.dev.clk →
    s.dev.inSequence id c = true → s.dev.spn.placed < 1024 → s.dev.stalls blkPkr 0 1 = false → tget sp.rows sp.openRow = some r → r.st = .gathering →
    (∀ m, s.dev.memberFor sp r c = some m → ∃ t, exec (.chunkPlace id) s = .next t ∧ t.hbm = s.hbm ∧
      tget t.dev.ses.chunks id = some { c with st := .placed, member := m, row := sp.openRow, dir := (r.chunks.getD m []).length, vis := s.dev.clk + 1 } ∧
      (∀ j, j ≠ id → tget t.dev.ses.chunks j = tget s.dev.ses.chunks j) ∧
      ((t.dev.spanAt c.span).bind fun x => tget x.rows sp.openRow) =
        some { r with chunks := lmod r.chunks m (· ++ [id]), firstAt := some (r.firstAt.getD s.dev.clk) } ∧
      (∀ x, tget s.dev.ses.sessions c.session = some x → (tget t.dev.ses.sessions c.session).bind (·.member) = some m) ∧
      t.dev.spn.placed = s.dev.spn.placed + 1) ∧
    (s.dev.memberFor sp r c = none → exec (.chunkPlace id) s = .next s)) ∧
  (∀ (s : State) (slot : Nat) (sp : Span) (r : Row), s.dev.coreHeld = false → s.dev.spanAt slot = some sp →
    tget sp.rows sp.openRow = some r →
    (sp.openRow ≤ sp.lowest + 32 → r.st = .gathering →
      (s.dev.rowFull slot sp r = true → exec (.rowClose slot) s = .next (s.withDev (s.dev.closeRow slot false false))) ∧
      (s.dev.rowFull slot sp r = false → s.dev.rowForSync slot sp = true →
        exec (.rowClose slot) s = .next (s.withDev (s.dev.closeRow slot true true))) ∧
      (s.dev.rowFull slot sp r = false → s.dev.rowForSync slot sp = false → sp.closeReq = true →
        exec (.rowClose slot) s = .next (s.withDev (s.dev.closeRow slot true false))) ∧
      (∀ x, r.firstAt = some x → x + s.dev.rowAge ≤ s.dev.clk →
        exec (.rowAgeExpiry slot) s = .next (s.withDev (s.dev.closeRow slot true false)))) ∧
    (sp.lowest + 32 < sp.openRow → exec (.rowClose slot) s = .next s ∧ exec (.rowAgeExpiry slot) s = .next s) ∧
    (∀ x, r.firstAt = some x → s.dev.clk < x + s.dev.rowAge → exec (.rowAgeExpiry slot) s = .next s))

/-- A member that lacks VERIFIED for row C fails when its count reaches TIMEOUT, with the cause of a slow member or of a peer out
of reach (R310); a JOURNAL record is written once PERIOD ticks have passed and C has advanced (R305). -/
def Obligations.SlowMembersAndJournal : Prop :=
  ∀ (s : State) (slot m : Nat) (sp : Span), s.dev.coreHeld = false → s.dev.spanAt slot = some sp →
    (sp.lacking.contains m = true → s.dev.slowLimit slot ≤ ((sp.memsOf sp.c).getD m {}).slow →
      exec (.slowMemberTimeout slot m) s =
        .next (s.withDev (s.dev.memberFail slot m (if s.dev.unreachable ((sp.descOf sp.c).members.getD m 0) then 5 else 1)))) ∧
    (((sp.memsOf sp.c).getD m {}).slow < s.dev.slowLimit slot → exec (.slowMemberTimeout slot m) s = .next s) ∧
    (500 ≤ s.dev.slowLimit slot ∧ s.dev.slowLimit slot ≤ 500000) ∧
    (sp.jrnlAt + s.dev.fld1 Fld.spnJrnlCfgPeriod ≤ s.dev.clk → sp.jrnlC < sp.c → ∃ t, exec (.journalPeriod slot) s = .next t ∧ t.hbm = s.hbm ∧
      t = s.withDev (s.dev.journal slot 1 false) ∧ (t.dev.spanAt slot).map (·.jrnlAt) = some s.dev.clk ∧
      (t.dev.spanAt slot).map (·.jrnlC) = some sp.c) ∧
    (sp.c ≤ sp.jrnlC → exec (.journalPeriod slot) s = .next s)

/-- The rebuild cursor (R317 to R319), while its replacement is ready to be written: at C the member joins, its rebuild has ended, it is
missing no more and its volume is the replacement's; a row that is lost or void is passed over, and the cursor names the next row; a row
with more members unavailable than p enters the loss list with cause 1, while that has room, and is passed over too (R320); of a row
with k decoded members the payload is regenerated once R300's budget has covered it, and with a buffer of R453 it is staged on the
replacement's transport under the replacement's next number, and the cursor moves on; otherwise the cursor waits. A shape change
becomes active when every new volume is ready (R322): the boundary row is the next row to open, and a JOURNAL record of KIND 5 with
PHASE 2 carries it. A patrol that is off, whose GAP has not passed or whose step has overrun reads nothing (R16); a row that is lost,
void or missing a member, or that holds a void data set, is passed over; a row is judged once every data set of it has been read (R324): with no difference nothing
follows, with one the row joins the suspect list with cause 1, with p undecodable data sets with cause 3, and with more than p the
loss list with cause 3. -/
def Obligations.RebuildShapeAndPatrol : Prop :=
  (∀ (s : State) (slot : Nat) (sp : Span) (r : Rebuild), s.dev.coreHeld = false → s.dev.spanAt slot = some sp → sp.rebuild = some r →
    (r.ready = false → exec (.rebuildRow slot) s = .next s) ∧
    (r.ready = true → sp.c ≤ r.row → ∃ t x, exec (.rebuildRow slot) s = .next t ∧ t = s.withHd (joinMember (s.hbm, s.dev) slot sp r) ∧
      t.dev.spanAt slot = some x ∧ x.rebuild = none ∧ x.failed = mclr sp.failed r.member ∧ x.c = sp.c ∧
      (r.member < sp.members.length → (x.members.getD r.member {}).vol = r.vol ∧ (x.members.getD r.member {}).write = true)) ∧
    (∀ lost, r.ready = true → r.row < sp.c → sp.rowLost r.row = lost → lost = true ∨ sp.rowVoid r.row = true →
      ∃ t, exec (.rebuildRow slot) s = .next t ∧ t = s.withDev (s.dev.cursorMove slot lost) ∧
        ((t.dev.spanAt slot).bind (·.rebuild)).map (·.row) = some (r.row + 1)) ∧
    (r.ready = true → r.row < sp.c → sp.rowLost r.row = false → sp.rowVoid r.row = false →
      let y := s.dev.rowHave s.hbm slot r.row r.member sp
      let x := sp.descOf r.row
      (x.p < y.2.2 + 1 → ∃ t, exec (.rebuildRow slot) s = .next t ∧ t = s.withDev (y.1.rebuildLost slot r) ∧
        ((t.dev.spanAt slot).bind (·.rebuild)).map (·.row) = some (r.row + 1) ∧
        (t.dev.spanAt slot).map (·.loss) =
          some (if sp.loss.length < lossMax then sp.loss ++ [{ row := r.row, members := mset 0 r.member, cause := 1 }] else sp.loss)) ∧
      (y.2.2 + 1 ≤ x.p → y.2.1.length < x.k → exec (.rebuildRow slot) s = .next (s.withDev y.1)) ∧
      (y.2.2 + 1 ≤ x.p → x.k ≤ y.2.1.length →
        (r.made = none → ∃ t, exec (.rebuildRow slot) s = .next t ∧ t.hbm = s.hbm ∧
          (t.dev.spanAt slot).bind (·.rebuild) = some { r with made := some 0 }) ∧
        (∀ n, r.made = some n → n ≠ parityTotal → exec (.rebuildRow slot) s = .next (s.withDev y.1)) ∧
        (∀ bs, r.made = some parityTotal → rebuildMember x.k x.p (y.2.1.take x.k) r.member = some bs →
          exec (.rebuildRow slot) s = .next (s.withHd (rebuildWrite (s.hbm, y.1) slot sp r x y.2.1 bs)))))) ∧
  (∀ (h : Hbm) (d : Dev) (slot : Nat) (sp : Span) (r : Rebuild) (x : Desc) (got : List (Nat × List Byte)) (bs : List Byte),
    d.spanAt slot = some sp → sp.rebuild = some r → r.tp < d.wr.length →
    (d.pool.reqs.any fun q => fittingPool q.size == 4 && (q.owner == 1 || q.owner == 4 || q.owner == 10)) = false → d.mayTake 5 4 = true →
    let e := (rebuildWrite (h, d) slot sp r x got bs).2
    (∃ b, (e.wrAt r.tp).staged = (d.wrAt r.tp).staged ++
      [{ no := r.next, slot := slot, row := r.row, member := r.member, payload := b, rebuilt := true }]) ∧
    ((e.spanAt slot).bind (·.rebuild)).map (fun q => (q.row, q.next)) = some (r.row + 1, r.next + 1)) ∧
  (∀ (s : State) (slot : Nat) (sp : Span), s.dev.coreHeld = false → s.dev.spanAt slot = some sp →
    (sp.phase = 1 → s.dev.shapeReady sp = true →
      let b := if (tget sp.rows sp.openRow).isSome then sp.openRow + 1 else sp.openRow
      ∃ (t : State) (e : Dev) (x : Span), exec (.shapeActive slot) s = .next t ∧ t.hbm = s.hbm ∧ t.dev = e.journal slot 5 false ∧
        e.spanAt slot = some x ∧ x = { sp with phase := 2, boundary := b } ∧
        (t.dev.spanAt slot).map (fun x => (x.phase, x.boundary)) = some (2, b)) ∧
    (sp.phase ≠ 1 ∨ s.dev.shapeReady sp = false → exec (.shapeActive slot) s = .next s) ∧
    (s.dev.patrolOn slot sp = false ∨ s.dev.stalls blkSpn 0 3 = true → exec (.patrolRow slot) s = .next s) ∧
    (s.dev.patrolOn slot sp = true → s.dev.stalls blkSpn 0 3 = false →
      (sp.patrolRow = false ∨ sp.rowLost sp.patrol = true ∨ sp.rowVoid sp.patrol = true →
        exec (.patrolRow slot) s =
          .next (s.withDev (s.dev.modSpan slot fun x => { x with patrol := x.patrol + 1, patrolAt := s.dev.clk }))) ∧
      (sp.patrolRow = true → sp.rowLost sp.patrol = false → sp.rowVoid sp.patrol = false →
        let y := s.dev.patrolSrcs s.hbm slot sp.patrol (sp.descOf sp.patrol).width
        (y.2.any DsSrc.awaited = true → exec (.patrolRow slot) s = .next (s.withDev y.1)) ∧
        (y.2.any DsSrc.awaited = false → y.2.any DsSrc.isVoid = true →
          exec (.patrolRow slot) s = .next (s.withDev (y.1.patrolNext slot))) ∧
        (y.2.any DsSrc.awaited = false → y.2.any DsSrc.isVoid = false →
          exec (.patrolRow slot) s = .next (s.withDev ((y.1.patrolJudge slot sp.patrol sp (y.2.map DsSrc.whole)).patrolNext slot)))))) ∧
  (∀ (d : Dev) (slot n : Nat) (sp : Span) (got : List (Option (List Byte))),
    let x := sp.descOf n
    let bad := (got.zipIdx.filter fun y => y.1.isNone).map (·.2)
    let data := (got.take x.k).map fun y => y.getD []
    let dp := parityDiff data false (if 1 ≤ x.p then (got[x.k]?).getD none else none)
    let dq := parityDiff data true (if 2 ≤ x.p then (got[x.k + 1]?).getD none else none)
    (x.p < bad.length → d.patrolJudge slot n sp got =
      (d.lossAdd slot { row := n, members := bad.foldl mset 0, cause := 3 }).journal slot 4 false) ∧
    (bad = [] → dp = none → dq = none → d.patrolJudge slot n sp got = d) ∧
    (∀ a, bad = [] → (dp.toList ++ dq.toList).min? = some a → d.patrolJudge slot n sp got =
      d.suspectAdd sp.desc.id { slot := slot, row := n, p := dp.isSome, q := dq.isSome, sds := a / sdsBytes, cause := 1 }) ∧
    (bad ≠ [] → bad.length = x.p → d.patrolJudge slot n sp got =
      d.suspectAdd sp.desc.id { slot := slot, row := n, p := false, q := false, sds := 0xFF, cause := 3 })) ∧
  (∀ (d : Dev) (slot kind : Nat) (x : Span), d.spanAt slot = some x →
    (d.journal slot kind false).hlt = (d.cellar blkSpn 0 0xC0 (x.journalBytes kind d.commitTick)).hlt ∧
    (d.journal slot kind false).que = (d.cellar blkSpn 0 0xC0 (x.journalBytes kind d.commitTick)).que ∧
    leAt (x.journalBytes kind d.commitTick) 2 1 = kind % 256 ∧ leAt (x.journalBytes kind d.commitTick) 3 1 = x.phase % 256 ∧
    leAt (x.journalBytes kind d.commitTick) 24 6 = x.boundary % 2 ^ 48)

/-- A status frame of a member on a peer (R326): the wrap that the peer reports stands with the member (R131), WRITTEN is set for its row
with the data set's time on tape (R67), VERIFIED is set for its row and completes the row when it was the last (R301), and a payload
that was read replaces what was held of it. A member that stands on this device takes nothing from a peer. A reconstruction that was
asked for fails when more members of the row are gone than p allows, waits while fewer than k are at hand, and ends with the member's
payload once R300's budget has covered it (R299, R300, R316); nothing that was not asked for is reconstructed. -/
def Obligations.PeersAndReconstruction : Prop :=
  (∀ (s : State) (slot row m wrap time : Nat) (sp : Span), s.dev.coreHeld = false → s.dev.spanAt slot = some sp →
    ((s.dev.memberTp sp row m).isSome = true ∨ (sp.descOf row).width ≤ m →
      ∀ w v p, exec (.memberStatusFrame slot row m w v p) s = .next s) ∧
    (m < (sp.descOf row).width → s.dev.memberTp sp row m = none →
      let d := s.dev.modSpan slot fun x => x.modMember row m fun y => { y with wrap := some (wrap % 65536) }
      exec (.memberStatusFrame slot row m { wrap := wrap, written := none } false none) s = .next (s.withDev d) ∧
      (d.spanAt slot).map (·.rows) = some sp.rows ∧
      (∀ r, tget sp.rows row = some r → ∃ t, exec (.memberStatusFrame slot row m { wrap := wrap, written := some time } false none) s = .next t ∧ t.hbm = s.hbm ∧
        ((t.dev.spanAt slot).bind fun x => tget x.rows row) = some { r with written := mset r.written m, times := r.times.set m time } ∧
        ∀ j, j ≠ row → ((t.dev.spanAt slot).bind fun x => tget x.rows j) = tget sp.rows j) ∧
      (∀ r, tget sp.rows row = some r → r.missing.getLsbD m = false →
        ∃ (t : State) (e : Dev), exec (.memberStatusFrame slot row m { wrap := wrap, written := none } true none) s = .next t ∧ t.hbm = s.hbm ∧
          t.dev = e.checkRow slot row ∧
          ((e.spanAt slot).bind fun x => tget x.rows row) =
            some { r with verified := mset r.verified m, firstVer := some (r.firstVer.getD (s.dev.clk + 1)) }) ∧
      ∀ bs, ∃ t, exec (.memberStatusFrame slot row m { wrap := wrap, written := none } false (some bs)) s = .next t ∧ t.hbm = s.hbm ∧
        (t.dev.spanAt slot).map (·.peerData) = some (sp.peerData.filter (fun x => ! (x.1 == row && x.2.1 == m)) ++ [(row, m, bs)]))) ∧
  (∀ (d : Dev) (slot n : Nat) (sp : Span) (r : Row), d.spanAt slot = some sp → tget sp.rows n = some r →
    (r.st ≠ .writing ∨ (sp.live n r).all r.verified.getLsbD = false → d.checkRow slot n = d) ∧
    (r.st = .writing → (sp.live n r).all r.verified.getLsbD = true →
      (((d.checkRow slot n).spanAt slot).bind fun x => tget x.rows n).map (·.st) = some .complete)) ∧
  (∀ (s : State) (slot row : Nat) (sp : Span), s.dev.coreHeld = false → s.dev.spanAt slot = some sp →
    (s.dev.spn.recons.find? (fun r => r.slot == slot && r.row == row && r.out.isNone && ! r.failed) = none →
      exec (.spanReconstruct slot row) s = .next s) ∧
    (∀ r, s.dev.spn.recons.find? (fun r => r.slot == slot && r.row == row && r.out.isNone && ! r.failed) = some r →
      let y := s.dev.rowHave s.hbm slot row r.member sp
      let x := sp.descOf row
      let at_ (f : Recon → Recon) := s.dev.spn.recons.map fun q => if q.slot = slot ∧ q.row = row ∧ q.member = r.member then f q else q
      (x.p < y.2.2 + 1 → ∃ t, exec (.spanReconstruct slot row) s = .next t ∧ t.hbm = s.hbm ∧
        t.dev.spn.recons = at_ fun q => { q with failed := true }) ∧
      (y.2.2 + 1 ≤ x.p → y.2.1.length < x.k → exec (.spanReconstruct slot row) s = .next (s.withDev y.1)) ∧
      (y.2.2 + 1 ≤ x.p → x.k ≤ y.2.1.length →
        (r.made = none → ∃ t, exec (.spanReconstruct slot row) s = .next t ∧ t.hbm = s.hbm ∧
          t.dev.spn.recons = at_ fun q => { q with made := some 0 }) ∧
        (∀ n, r.made = some n → n ≠ parityTotal → exec (.spanReconstruct slot row) s = .next (s.withDev y.1)) ∧
        (∀ bs, r.made = some parityTotal → rebuildMember x.k x.p (y.2.1.take x.k) r.member = some bs →
          ∃ (t : State) (ident : List Byte), exec (.spanReconstruct slot row) s = .next t ∧ t.hbm = s.hbm ∧
            t.dev.spn.recons = at_ fun q => { q with out := some (ident ++ bs.drop 256) }))))

/-! ### Transport ports -/

/-- A port that is enabled comes up after eight consecutive valid cycles, and the control cores then read its identity (R186,
R190); it goes down after three ticks without one: UP and ID_OK are cleared, the event and its record name the transport, and the
reels get a ratio brake (R186, R207, R289). With fewer neither happens. Bytes from another address than 0x0000 are no identity
record. The transport is used when the identity record's CRC passes, its fields lie in their ranges and its SERIAL is the link identity's; ID_OK is set, and otherwise cleared and ID_REJECT
posted with the first cause (R190). -/
def Obligations.PortsAndIdentity : Prop :=
  (∀ (s : State) (n : Nat), s.dev.coreHeld = false → n < 8 →
    (s.dev.flag Fld.tpLinkStatUp n = false → s.dev.flag Fld.tpLinkCfgEnable n = true → 8 ≤ (s.dev.tpAt n).good →
      ∃ t, exec (.portUp n) s = .next t ∧ t.hbm = s.hbm ∧ t.dev.flag Fld.tpLinkStatUp n = true ∧
        t.dev = (((s.dev.setFlag Fld.tpLinkStatUp n true).modTp n fun p => { p with link := [] }).emit
          (.smbusRead n 0x50 0 256)).request n .identity 3 0 32 [] ∧
        ∀ q j, q.offset j ≠ RegId.tpLinkStat.offset n → t.dev.rawReg q j = s.dev.rawReg q j) ∧
    ((s.dev.tpAt n).good < 8 ∨ s.dev.flag Fld.tpLinkCfgEnable n = false → exec (.portUp n) s = .next s) ∧
    (s.dev.flag Fld.tpLinkStatUp n = true → 3 ≤ (s.dev.tpAt n).miss → exec (.portDown n) s = .next (s.withDev (
      let d := ((s.dev.setFlag Fld.tpLinkStatUp n false).setFlag Fld.tpLinkStatIdOk n false).postBoth 0x13 blkTp n [item n]
      let e := d.cutStream n 5 (d.unfinished n)
      (e.motEvent 0x54 n [speedItem (e.motAt n).v] true).brakeNow n .port))) ∧
    ((s.dev.tpAt n).miss < 3 → exec (.portDown n) s = .next s)) ∧
  (∀ (s : State) (n : Nat) (r l : List Byte), s.dev.coreHeld = false → (s.dev.tpAt n).link = l →
    (∀ a, a ≠ 0 ∨ s.dev.flag Fld.tpLinkStatUp n = false ∨ l = [] → exec (.identityCheck n r a) s = .next s) ∧
    (s.dev.flag Fld.tpLinkStatUp n = true → l ≠ [] → r.length = 256 → crc32cOk r = true → identRangeOk r = true →
      leAt r 8 8 = leAt l 0 8 →
      ∃ t, exec (.identityCheck n r 0) s = .next t ∧ t.hbm = s.hbm ∧ t.dev.flag Fld.tpLinkStatIdOk n = true ∧
        (n < s.dev.tp.length → (t.dev.tpAt n).ident = r ∧ (t.dev.tpAt n).myPort = bitOf (leAt l 8 1) 0)) ∧
    (∀ c, s.dev.flag Fld.tpLinkStatUp n = true → l ≠ [] → (r.length ≠ 256 ∨ crc32cOk r = false) ∧ c = 1 ∨
        (r.length = 256 ∧ crc32cOk r = true ∧ identRangeOk r = false) ∧ c = 2 ∨
        (r.length = 256 ∧ crc32cOk r = true ∧ identRangeOk r = true ∧ leAt r 8 8 ≠ leAt l 0 8) ∧ c = 3 →
      exec (.identityCheck n r 0) s =
        .next (s.withDev ((s.dev.setFlag Fld.tpLinkStatIdOk n false).postEvent 0x14 blkTp n [item n, item c]))))

/-- An upstream cycle that has no content (an invalid control block, R170) or whose status CRC fails is discarded whole and counted;
one whose sample CRC alone fails gives its status and no samples; any other gives both (R182). One that answers the cycle before the
last is counted in LATE besides, and is taken for the interval before (R173). A request that has no final status within 500 ticks
is tried once more under a new REQ_ID; when that fails too it ends with a cellar record. A response that is not the
one which the status taken last carries, or that has another REQ_ID, is not taken; one that says pending keeps the request, one
that says failed fails it, and one that says done goes on with the next 32 bytes (R188). -/
def Obligations.CyclesAndRequests : Prop :=
  (∀ (s : State) (n : Nat) (c : UpCycle), s.dev.coreHeld = false → n < 8 →
    let late := s.dev.cycleLate n c
    let e := if late then s.dev.bump Fld.tpLinkErrLate n else s.dev
    ((∀ ws, cycleContent c = some ws → statusOk (statusOf ws) = false) → exec (.upstreamCycle n c) s =
      .next (s.withDev (((e.bump Fld.tpLinkErrBadStatus n).putIn n { late := late }).underrunAbandon n))) ∧
    (∀ ws, cycleContent c = some ws → statusOk (statusOf ws) = true →
      let d := (e.takeStatus n (statusOf ws) c.rtt).modTp n fun p => { p with took := p.took || ! late }
      (sampleCrcOk ws = true → exec (.upstreamCycle n c) s =
        .next (s.withDev ((d.putIn n ((statusIn (statusOf ws) late).withSamples ws (statusOf ws))).underrunAbandon n))) ∧
      (sampleCrcOk ws = false → exec (.upstreamCycle n c) s =
        .next (s.withDev (((d.bump Fld.tpLinkErrBadSamples n).putIn n (statusIn (statusOf ws) late)).underrunAbandon n))))) ∧
  (∀ (s : State) (n : Nat) (r : Req) (id st : BitVec 8) (bs : List Byte), s.dev.coreHeld = false → n < s.dev.tp.length →
    (s.dev.tpAt n).req = some r → (s.dev.tpAt n).rsp = { id := id, status := st, data := bs } →
    (s.dev.clk < r.since + 500 → exec (.linkRequestTimeout n) s = .next s) ∧
    (r.since + 500 ≤ s.dev.clk → exec (.linkRequestTimeout n) s = .next (s.withDev (s.dev.reqFailed n r))) ∧
    (r.tried = none → ∀ m, (s.dev.tpAt n).lastId = m → ((s.dev.reqFailed n r).tpAt n).req =
      some { r with tried := some r.id, id := m + 1, since := s.dev.clk, lastStatus := 0xFF }) ∧
    (r.tried.isSome = true → (s.dev.tpAt n).waiting = [] → ((s.dev.reqFailed n r).tpAt n).req = none) ∧
    (∀ id' st' bs', r.id ≠ id ∨ ({ id := id', status := st', data := bs' } : Rsp) ≠ (s.dev.tpAt n).rsp →
      exec (.linkResponse n id' st' bs') s = .next s) ∧
    (r.id = id → st = 0xFF → ∃ t, exec (.linkResponse n id st bs) s = .next t ∧ t.hbm = s.hbm ∧
      (t.dev.tpAt n).req = some { r with lastStatus := 0xFF }) ∧
    (r.id = id → st ≠ 0xFF → st ≠ 0 → exec (.linkResponse n id st bs) s =
      .next (s.withDev (s.dev.reqFailed n { r with lastStatus := st }))) ∧
    (r.id = id → st = 0 → 32 < r.len → r.op = 3 → ∃ t, exec (.linkResponse n id st bs) s = .next t ∧ t.hbm = s.hbm ∧
      (t.dev.tpAt n).req.map (·.addr) = some (r.addr + 32) ∧ (t.dev.tpAt n).req.map (·.len) = some (r.len - 32) ∧
      (t.dev.tpAt n).req.map (·.got) = some (r.got ++ bs.take 32)))

/-! ### Writing -/

/-- What ends a stream: a write lead of zero in a region abandons with trigger 3 (R21, R207); UNDERRUN in 8 ticks abandons with
trigger 4 and parks (R210). A verify result that is due is given to the writing control once (R201). A data set that is abandoned
leaves the stream with an ATTEMPT above every one made of it and waits to be written again; every other data set keeps its number,
its attempt and its reports (R207, R208, R213). Writing goes on: a parked transport with a data set to write, and nothing to read,
starts towards its append point (R214); at the end of a wrap a controlled stop begins the turn, of a read as of a stream (R249, R276);
a pause ends when its causes have been clear for 50 ticks, and a stream that it interrupted is repositioned (R285). -/
def Obligations.StreamsEndVerifyAndGoOn : Prop :=
  (∀ (s : State) (n : Nat), s.dev.coreHeld = false →
    (∀ p ps, (s.dev.wrAt n).mode = .streaming → (s.dev.wrAt n).todo = p :: ps → p.kind = .region → (s.dev.tpAt n).fifo = 0 →
      s.dev.unsent n = 0 → exec (.writeLeadExhausted n) s = .next (s.withDev (s.dev.abandon n 3 (s.dev.unwritten n)))) ∧
    ((s.dev.tpAt n).fifo ≠ 0 → exec (.writeLeadExhausted n) s = .next s) ∧
    (8 ≤ (s.dev.tpAt n).under → (s.dev.wrAt n).mode = .streaming →
      exec (.underrunPersist n) s = .next (s.withDev ((s.dev.abandon n 4 (s.dev.unwritten n)).beginPark n))) ∧
    ((s.dev.tpAt n).under < 8 → exec (.underrunPersist n) s = .next s) ∧
    (∀ ch pos p, (s.dev.wrAt n).stream.find? (fun p => p.num == pos) = some p → ch < 64 →
      (p.judged.getLsbD ch = false → s.dev.verifyDue n p = true →
        exec (.verifyResult n ch pos) s = .next (s.withDev (s.dev.verifyOne n ch p))) ∧
      (p.judged.getLsbD ch = true ∨ s.dev.verifyDue n p = false → exec (.verifyResult n ch pos) s = .next s))) ∧
  (∀ (d : Dev) (n trigger : Nat) (nos : List Nat) (x : DsWr), n < d.wr.length → x ∈ (d.wrAt n).live →
    (∀ y, y ∈ (d.wrAt n).live ∨ (d.wrAt n).lastDs = some y → y.attempt < 255) →
    (x.no ∈ nos →
      (∃ y ∈ ((d.abandon n trigger nos).wrAt n).again, y.no = x.no ∧ y.written = false ∧ y.verified = false ∧
        y.attempt = max x.attempt ((((d.wrAt n).lastDs.filter fun z => z.no == x.no).map (·.attempt)).getD 0) + 1) ∧
      ∀ y ∈ ((d.abandon n trigger nos).wrAt n).live, y.no ∉ nos) ∧
    (x.no ∉ nos → ∃ y ∈ ((d.abandon n trigger nos).wrAt n).live,
      y.no = x.no ∧ y.attempt = x.attempt ∧ y.written = x.written ∧ y.verified = x.verified)) ∧
  (∀ (s : State) (n : Nat), s.dev.coreHeld = false →
    ((s.dev.wrAt n).mode = .parked → (s.dev.motAt n).travel = .park → s.dev.motState n = 5 → (s.dev.nextDs n).isSome = true →
      (s.dev.rdAt n).goal = .none →
      let d := ((s.dev.setFlag Fld.tpSpdStatParked n false).setFld Fld.tpSpdStatTarget n 0).toWrap n (s.dev.wrAt n).wrap
      exec (.backhitchResume n) s = .next (s.withDev
        (((d.motStart n (s.dev.wrAt n).dirOf).modWr n fun w => { w with mode := .approach }).modMot n fun m => { m with travel := .write }))) ∧
    ((s.dev.nextDs n).isSome = false → exec (.backhitchResume n) s = .next s) ∧
    ((s.dev.wrAt n).mode = .turning ∨ (s.dev.rdAt n).phase = .run ∧ (s.dev.motAt n).travel = .read → s.dev.motState n = 3 →
      (if (s.dev.motAt n).wrap % 2 = 1 then (s.dev.motAt n).lpos ≤ 0 else 1000000 * (s.dev.idn n 16 4 : Int) ≤ (s.dev.motAt n).lpos) →
      exec (.wrapTurn n) s = .next (s.withDev ((s.dev.controlledStop n).modMot n fun m => { m with travel := .turn }))) ∧
    (s.dev.motState n ≠ 3 → exec (.wrapTurn n) s = .next s) ∧
    ((s.dev.motAt n).pauses ≠ [] → 50 ≤ (s.dev.motAt n).clear →
      let d := (s.dev.setFlag Fld.motStatPause n false).modMot n fun m => { m with pauses := [] }
      let e := d.cutStream n 4 (d.unwritten n)
      ((s.dev.wrAt n).mode = .streaming → exec (.pauseEnd n) s =
        .next (s.withDev (if (e.wrAt n).mode = .stopped then e.reposition n else e))) ∧
      ((s.dev.wrAt n).mode = .stopped → exec (.pauseEnd n) s = .next (s.withDev (d.reposition n))) ∧
      ((s.dev.wrAt n).mode ≠ .streaming → (s.dev.wrAt n).mode ≠ .stopped → exec (.pauseEnd n) s = .next (s.withDev d))) ∧
    ((s.dev.motAt n).clear < 50 → exec (.pauseEnd n) s = .next s))

/-! ### Reading -/

/-- A read that has waited RD_WAIT ticks for a transport that writes takes it: writing stops at the next region boundary (R451).
The interruption ends when no read of item 4 waits or RD_MAX has passed, and writing may resume; reads that still wait start a new
count. A reading transport parked for AHEAD goes on when fewer data sets wait (R253). A sub data set that waited for later copies
and has gained from them runs one further round (R245). A data set that every round has left undecoded is read again with the next
profile; when every profile has failed it is undecodable, and the event and its record name it (R251). -/
def Obligations.ReadsAndRetries : Prop :=
  (∀ (s : State) (n : Nat), s.dev.coreHeld = false →
    (∀ a, (s.dev.rdAt n).waitSince = some a → (s.dev.wrAt n).mode = .streaming → (s.dev.rdAt n).took = none →
      (a + s.dev.rdWait n ≤ s.dev.clk → exec (.readInterrupt n) s =
        .next (s.withDev ((s.dev.modWr n fun w => { w with stopReq := true }).modRd n fun r =>
          { r with took := some s.dev.clk, held := some (r.held.getD s.dev.clk) }))) ∧
      (s.dev.clk < a + s.dev.rdWait n → exec (.readInterrupt n) s = .next s)) ∧
    (∀ a, (s.dev.rdAt n).took = some a → (s.dev.wrAt n).mode = .parked → (s.dev.rdAt n).goal = .none →
      (((s.dev.wants s.hbm n).filter fun w => w.1.rank == 4) = [] → exec (.readInterruptEnd n) s =
        .next (s.withDev ((s.dev.modWr n fun w => { w with stopReq := false }).modRd n fun r => { r with took := none }))) ∧
      (((s.dev.wants s.hbm n).filter fun w => w.1.rank == 4) ≠ [] → a + s.dev.rdMax n ≤ s.dev.clk → exec (.readInterruptEnd n) s =
        .next (s.withDev (((s.dev.modWr n fun w => { w with stopReq := false }).modRd n fun r => { r with took := none }).modRd n fun r =>
          { r with waitSince := some s.dev.clk }))) ∧
      (((s.dev.wants s.hbm n).filter fun w => w.1.rank == 4) ≠ [] → s.dev.clk < a + s.dev.rdMax n → exec (.readInterruptEnd n) s = .next s)) ∧
    (∀ a, (s.dev.rdAt n).took = some a → (s.dev.wrAt n).mode = .parked → (s.dev.rdAt n).goal ≠ .none →
      let d := (s.dev.modWr n fun w => { w with stopReq := false }).rdStop n
      (((s.dev.wants s.hbm n).filter fun w => w.1.rank == 4) = [] → exec (.readInterruptEnd n) s = .next (s.withDev d)) ∧
      (((s.dev.wants s.hbm n).filter fun w => w.1.rank == 4) ≠ [] → a + s.dev.rdMax n ≤ s.dev.clk → exec (.readInterruptEnd n) s =
        .next (s.withDev (d.modRd n fun r => { r with waitSince := some s.dev.clk })))) ∧
    ((s.dev.rdAt n).phase = .ahead → s.dev.motState n = 5 → s.dev.waitingSets n < s.dev.aheadMax n →
      exec (.readAheadResume n) s = .next (s.withDev ((s.dev.rdGoto n
        (s.dev.estimate_ n (((s.dev.rdAt n).lastNo.getD (s.dev.rdAt n).target) + 1) - s.dev.regionNm n)).modRd n fun r => { r with locating := false }))) ∧
    (s.dev.aheadMax n ≤ s.dev.waitingSets n → exec (.readAheadResume n) s = .next s)) ∧
  (∀ (s : State) (n : Nat), s.dev.coreHeld = false →
    (∀ i x y, (s.dev.rdAt n).sets.find? (fun x => match x.sds[i]? with
        | some y => ! y.done && ! y.active && y.rounds == 1 && y.grown && s.dev.copiesEnded n x
        | none => false) = some x → x.sds[i]? = some y →
      exec (.sdsLateRound n i) s = .next (s.withDev (s.dev.modRd n fun r => r.modSet x.no fun x =>
        { x with sds := lmod x.sds i fun y => { y with rounds := 2, iters := 0, grown := false } }))) ∧
    (∀ i, (∀ x ∈ (s.dev.rdAt n).sets, ∀ y, x.sds[i]? = some y → y.grown = false) → exec (.sdsLateRound n i) s = .next s) ∧
    (s.dev.stuckSet n = none → exec (.readRetry n) s = .next s) ∧
    (∀ x i, s.dev.stuckSet n = some x → s.dev.rowOfSet n x.no = none → s.dev.nextSlot (s.dev.rdAt n) = some i →
      exec (.readRetry n) s = .next (s.withDev (s.dev.retryPass n i x))) ∧
    (∀ x, s.dev.stuckSet n = some x → s.dev.rowOfSet n x.no = none → s.dev.nextSlot (s.dev.rdAt n) = none →
      exec (.readRetry n) s = .next (s.withDev ((s.dev.modRd n fun r => r.modSet x.no fun x => { x with bad := true }).postBoth 0x4A blkDec n
        [item n, item x.no, item (sdsMap x.undecoded)]))))

/-! ### Motion -/

/-- A start (R266, R267): align ends after ALIGN_T ticks, never fewer than 500, with forced commutation; a reel hands over after
HAND_N windows, and with both over STATE is RUN with v_ref at the measured speed; a reel that has taken HAND_MAX steps without
hand-over turns the gates off for 500 ticks and the start is repeated once; a repeat that fails leaves START_FAILED, counted,
posted and recorded. A controlled stop ends in HOLD when v_ref is 0 and the tape has been slower than 5 mm/s for 50 ticks (R275);
the clamp is lifted when its conditions have held for 2,500 ticks (R274); the head comes on track after 8 intervals, goes off it
after 2 and then pauses writing (R281, R285); servo loss begins after LOSS_T ticks without a frame at 0.25 m/s or more, pauses
writing, and after ten times LOSS_T brings a controlled stop (R281). -/
def Obligations.StartsStopsAndTracking : Prop :=
  (∀ (s : State) (n reel : Nat), s.dev.coreHeld = false → reel < 2 →
    (s.dev.motState n = 1 → max 500 (s.dev.fld Fld.motStartCfgAlignT n) ≤ (s.dev.motAt n).age →
      exec (.alignEnd n) s = .next (s.withDev ((s.dev.windingMeasure n).forcedBegin n))) ∧
    ((s.dev.motAt n).age < 500 ∨ s.dev.motState n ≠ 1 → exec (.alignEnd n) s = .next s) ∧
    (s.dev.motState n = 2 → ((s.dev.motAt n).reel reel).handed = false → s.dev.fld1 Fld.motForceCfgHandN n ≤ ((s.dev.motAt n).reel reel).hit →
      let d := s.dev.modReel n reel fun r => { r with handed := true }
      ((d.motAt n).reels.all (·.handed) = true → exec (.handOver n reel) s = .next (s.withDev ((d.setMot n 3).modMot n fun m =>
        { m with vref := m.vIn.floor, acc := 0, sumV := 0, sumT := 0, steady := 0 }))) ∧
      ((d.motAt n).reels.all (·.handed) = false → exec (.handOver n reel) s = .next (s.withDev d))) ∧
    (((s.dev.motAt n).reel reel).hit < s.dev.fld1 Fld.motForceCfgHandN n → exec (.handOver n reel) s = .next s) ∧
    (s.dev.motState n = 2 → (s.dev.motAt n).off = none → ((s.dev.motAt n).reel reel).handed = false →
      s.dev.handMax n ≤ ((s.dev.motAt n).reel reel).atMin →
      ((s.dev.motAt n).retried = false → exec (.startFail n reel) s = .next (s.withDev (s.dev.modMot n fun m => { m with off := some 0 }))) ∧
      ((s.dev.motAt n).retried = true → exec (.startFail n reel) s =
        .next (s.withDev (((s.dev.setMot n 8).bump Fld.motErrCntStart n).motEvent 0x55 n [item reel] true)))) ∧
    (∀ k, (s.dev.motAt n).off = some k → s.dev.motState n = 2 →
      (k < 500 → exec (.startRetry n) s = .next s) ∧
      (500 ≤ k → ∃ t, exec (.startRetry n) s = .next t ∧ t.hbm = s.hbm ∧ t.dev.motState n = 1 ∧
        (n < s.dev.mot.length → (t.dev.motAt n).retried = true ∧ (t.dev.motAt n).off = none ∧ (t.dev.motAt n).age = 0)))) ∧
  (∀ (s : State) (n : Nat), s.dev.coreHeld = false →
    (s.dev.motState n = 4 → (s.dev.motAt n).vref = 0 → 50 ≤ (s.dev.motAt n).slow →
      ∃ t, exec (.stopHold n) s = .next t ∧ t.hbm = s.hbm ∧ t.dev.motState n = 5 ∧ t.dev.flag Fld.motStatLostA n = false ∧
        t.dev.flag Fld.motStatLostB n = false) ∧
    ((s.dev.motAt n).slow < 50 ∨ (s.dev.motAt n).vref ≠ 0 → exec (.stopHold n) s = .next s) ∧
    (s.dev.flag Fld.motStatClamped n = true → 2500 ≤ (s.dev.motAt n).clampOk → ∃ t, exec (.clampClear n) s = .next t ∧
      t.dev = (s.dev.setFlag Fld.motStatClamped n false).setFlag Fld.tpSpdStatClamped n false ∧ t.dev.flag Fld.motStatClamped n = false ∧
      t.dev.flag Fld.tpSpdStatClamped n = false) ∧
    ((s.dev.motAt n).clampOk < 2500 → exec (.clampClear n) s = .next s) ∧
    (s.dev.flag Fld.motStatOnTrack n = true → 2 ≤ (s.dev.motAt n).lat.out → exec (.offTrack n) s =
      .next (s.withDev ((s.dev.setFlag Fld.motStatOnTrack n false).pauseFor n .offTrack 2))) ∧
    ((s.dev.motAt n).lat.out < 2 → exec (.offTrack n) s = .next s) ∧
    (s.dev.flag Fld.motStatOnTrack n = false → 8 ≤ (s.dev.motAt n).lat.inTrack → ∃ t, exec (.onTrack n) s = .next t ∧
      t.dev = s.dev.setFlag Fld.motStatOnTrack n true ∧ t.dev.flag Fld.motStatOnTrack n = true) ∧
    ((s.dev.motAt n).lat.inTrack < 8 → exec (.onTrack n) s = .next s) ∧
    ((s.dev.motAt n).lat.loss = false → 250000000 ≤ (s.dev.motAt n).vref.natAbs →
      s.dev.fld1 Fld.motSrvCfgLossT n ≤ (s.dev.motAt n).lat.noFrame → exec (.servoLoss n) s =
        .next (s.withDev ((s.dev.modMot n fun m => { m with lat := { m.lat with loss := true, lossTicks := 0 } }).pauseFor n .servoLoss 3))) ∧
    ((s.dev.motAt n).vref.natAbs < 250000000 → exec (.servoLoss n) s = .next s) ∧
    ((s.dev.motAt n).lat.loss = true → 10 * s.dev.fld1 Fld.motSrvCfgLossT n ≤ (s.dev.motAt n).lat.lossTicks →
      exec (.servoLossStop n) s = .next (s.withDev (s.dev.controlledStop n))) ∧
    ((s.dev.motAt n).lat.loss = false → exec (.servoLossStop n) s = .next s))

/-- A rotor is lost after LOST_N missed windows below HAND_T, also in the tick in which a ratio brake takes the reels over (R284, R286):
LOST is set, counted and posted, writing pauses, and a reel in RUN is predicted; with the other reel lost already a ratio brake
follows. REACQ_N accepted windows bring it back; prediction that is exhausted brings a controlled stop. A chopper fault after
FAULT_N rising intervals sets CHOP_FAULT and ends a stream under way as at the end of a wrap (R287). -/
def Obligations.RotorsAndChopper : Prop :=
  ∀ (s : State) (n reel : Nat), s.dev.coreHeld = false → reel < 2 →
    (s.dev.motMoving n = true ∨ s.dev.motState n = 7 ∧ (s.dev.motAt n).age = 0 → ((s.dev.motAt n).reel reel).lost = false → s.dev.fld1 Fld.motZcCfgLostN n ≤ ((s.dev.motAt n).reel reel).missed →
      ((s.dev.motAt n).reel reel).period < 2000 * s.dev.fld1 Fld.motForceCfgHandT n →
      let d := (((s.dev.setFlag (lostFld reel) n true).bump Fld.motErrCntLost n).motEvent 0x50 n
        [item reel, item (rnd ((s.dev.motAt n).reel reel).period).toNat, speedItem (s.dev.motAt n).vIn] true).modReel n reel
          (fun r => { r with lost := true, predicted := 0, exhausted := false, hit := 0, vAt := (s.dev.motAt n).vIn }) |>.pauseFor n .lostRotor 1
      (((s.dev.motAt n).reel (1 - reel)).lost = true → exec (.lostRotor n reel) s = .next (s.withDev (d.brakeNow n .lost))) ∧
      (((s.dev.motAt n).reel (1 - reel)).lost = false → d.motState n = 3 → exec (.lostRotor n reel) s = .next (s.withDev (d.setMot n 6))) ∧
      (((s.dev.motAt n).reel (1 - reel)).lost = false → d.motState n ≠ 3 → exec (.lostRotor n reel) s = .next (s.withDev d))) ∧
    (((s.dev.motAt n).reel reel).lost = true → exec (.lostRotor n reel) s = .next s) ∧
    (((s.dev.motAt n).reel reel).lost = true → ((s.dev.motAt n).reel reel).exhausted = false →
      s.dev.fld1 Fld.motZcCfgReacqN n ≤ ((s.dev.motAt n).reel reel).hit →
      let d := ((s.dev.setFlag (lostFld reel) n false).motEvent 0x51 n [item reel, item ((s.dev.motAt n).reel reel).predicted] false).modReel n reel
        fun r => { r with lost := false, predicted := 0, missed := 0 }
      (d.motState n = 6 → (d.motAt n).reels.any (·.lost) = false → exec (.motReacquired n reel) s = .next (s.withDev (d.setMot n 3))) ∧
      (d.motState n ≠ 6 ∨ (d.motAt n).reels.any (·.lost) = true → exec (.motReacquired n reel) s = .next (s.withDev d))) ∧
    (((s.dev.motAt n).reel reel).lost = false → exec (.motReacquired n reel) s = .next s ∧ exec (.predictExhausted n reel) s = .next s) ∧
    (s.dev.motState n = 6 → ((s.dev.motAt n).reel reel).lost = true → ((s.dev.motAt n).reel reel).exhausted = true →
      exec (.predictExhausted n reel) s = .next (s.withDev (s.dev.controlledStop n))) ∧
    (n < 8 → s.dev.flag Fld.motStatChopFault n = false → s.dev.fld1 Fld.motBusCfgFaultN n ≤ (s.dev.motAt n).bus.rising →
      let d := (s.dev.setFlag Fld.motStatChopFault n true).bump Fld.motErrCntChop n
      exec (.motChopFault n) s = .next (s.withDev ((d.motEvent 0x52 n [item (rnd ((s.dev.motAt n).bus.mean / 10)).toNat,
        item (rnd (d.decelLimit n)).toNat] true).modWr n fun w =>
        { w with chopEnd := w.mode == .streaming || w.mode == .approach }))) ∧
    (s.dev.flag Fld.motStatChopFault n = true → exec (.motChopFault n) s = .next s)

/-! ### Admin commands -/

/-- An admin descriptor that passes its checks is taken from ring 0 and acts, whatever its row; during a firmware activation it is
taken and held instead (R90, R384, R385, R394). A descriptor whose tag is in use is completed with TAG_IN_USE, one of another
length or with a reserved byte set with FIELD_INVALID; neither acts (R384, R385). While the cores do not run, or the ring may not
be served, nothing is taken. -/
def Obligations.AdminCommandsActOrAreRefused : Prop :=
  ((∀ p ∈ adminRows, ∀ (s : State) (x : List Byte), s.dev.coreHeld = false → adminArrives s.dev p.2.1 x → adminValid s.dev p.2.1 x →
    (s.dev.ctl.activating = none → exec (p.1 x) s = .next (s.withDev (p.2.2 (s.dev.ringNext 0) x))) ∧
    (s.dev.ctl.activating.isSome = true → ∃ t, exec (p.1 x) s = .next t ∧ t.hbm = s.hbm ∧ t.dev.ctl.held = s.dev.ctl.held ++ [p.1 x] ∧
      t.dev.rte = s.dev.rte ∧ t.dev.spn = s.dev.spn ∧ t.dev.out = s.dev.out)) ∧
  ∀ p ∈ adminDataRows, ∀ (s : State) (x y : List Byte), s.dev.coreHeld = false → adminArrives s.dev p.2.1 x → adminValid s.dev p.2.1 x →
    (s.dev.ctl.activating = none → exec (p.1 x y) s = .next (s.withDev (p.2.2 (s.dev.ringNext 0) x y))) ∧
    (s.dev.ctl.activating.isSome = true → ∃ t, exec (p.1 x y) s = .next t ∧ t.hbm = s.hbm ∧ t.dev.ctl.held = s.dev.ctl.held ++ [p.1 x y] ∧
      t.dev.rte = s.dev.rte ∧ t.dev.spn = s.dev.spn ∧ t.dev.out = s.dev.out)) ∧
  (∀ p ∈ adminRows, ∀ (s : State) (x : List Byte), s.dev.coreHeld = false →
    (adminArrives s.dev p.2.1 x → s.dev.adminTag (capTag x) = true →
      exec (p.1 x) s = .next (s.withDev ((s.dev.ringNext 0).adminDone (capTag x) 0x12 0))) ∧
    (adminArrives s.dev p.2.1 x → s.dev.adminTag (capTag x) = false → x.length ≠ 64 ∨ adminReservedClear p.2.1 x = false →
      exec (p.1 x) s = .next (s.withDev ((s.dev.ringNext 0).adminDone (capTag x) 0x11 0))) ∧
    (s.dev.coresRun = false ∨ s.dev.ringMay 0 = false → exec (p.1 x) s = .next s))

/-- CREATE-CONN makes the connection of the descriptor ready, or answers FIELD_INVALID or STATE and makes none; DESTROY-CONN
removes one and closes its sessions; BIND-RING binds a record pair to a tenant; SET-TENANT replaces a tenant's weight and classes
at the next boundary and leaves its meters (R31, R385, R386). FILL of pages within buffer memory begins a job and completes with
INFO = pages when the last page has been filled, but not while firmware is being activated (R394); outside it answers FIELD_INVALID
(R337; that a range past the end is FIELD_INVALID is the model's choice, entry 24). CELLAR-READ writes its records to the host and
completes with their number (R385, R431). -/
def Obligations.ConnectionsTenantsFillAndCellarRead : Prop :=
  (∀ (d : Dev) (x : List Byte), d.locked = true →
    (leAt x 8 2 < 16384 → leAt x 10 2 < 16384 → leAt x 12 1 < 16 → leAt x 13 1 < 2 → 1 ≤ leAt x 31 1 → leAt x 31 1 < 6 →
      leAt x 54 1 < 64 → tget d.rte.conns (leAt x 8 2) = none → d.flag Fld.ethPortStatPresent (leAt x 12 1) = true →
      ∃ k, tget (d.doCreateConn x).rte.conns (leAt x 8 2) = some k ∧ k.tenant = leAt x 10 2 ∧ k.port = leAt x 12 1 ∧
        k.localQpn = leAt x 16 3 ∧ k.remoteQpn = leAt x 20 3 ∧ k.rqPsn = BitVec.ofNat 24 (leAt x 24 3) ∧
        k.sqPsn = BitVec.ofNat 24 (leAt x 28 3) ∧ k.mtu = leAt x 31 1 ∧ k.err = false ∧ k.rate = d.lineRate (leAt x 12 1) ∧
        ∀ c, c ≠ leAt x 8 2 → tget (d.doCreateConn x).rte.conns c = tget d.rte.conns c) ∧
    (6 ≤ leAt x 31 1 ∨ leAt x 31 1 = 0 ∨ 16384 ≤ leAt x 8 2 → (d.doCreateConn x) = d.adminDone (capTag x) 0x11 0) ∧
    (leAt x 8 2 < 16384 → (tget d.rte.conns (leAt x 8 2)).isSome = true →
      tget (d.doDestroyConn x).rte.conns (leAt x 8 2) = none ∧
      ∀ n k, tget (d.doDestroyConn x).ses.sessions n = some k → k.src = leAt x 8 2 → k.dead = true) ∧
    (leAt x 8 2 < 16384 → tget d.rte.conns (leAt x 8 2) = none → d.doDestroyConn x = d.adminDone (capTag x) 0x51 0) ∧
    (0 < leAt x 8 1 → d.ringKind (leAt x 8 1) = 1 → leAt x 10 2 < 16384 →
      d.doBindRing x = (d.modRing (leAt x 8 1) fun g => { g with tenant := some (leAt x 10 2) }).adminDone (capTag x) 0x00 0) ∧
    (leAt x 8 2 < 16384 → 1 ≤ leAt x 10 1 → leAt x 11 1 < 32 →
      (d.doSetTenant x).tenantAt (leAt x 8 2) = { d.tenantAt (leAt x 8 2) with next := some (leAt x 10 1, leAt x 11 1) } ∧
      ((d.doSetTenant x).tenantAt (leAt x 8 2)).commit =
        { d.tenantAt (leAt x 8 2) with weight := leAt x 10 1, classes := leAt x 11 1, next := none } ∧
      ∀ n, n ≠ leAt x 8 2 → (d.doSetTenant x).tenantAt n = d.tenantAt n) ∧
    d.advance.rte.tenants = d.rte.tenants.map fun t => (t.1, t.2.commit)) ∧
  (∀ (s : State) (x : List Byte), s.dev.coreHeld = false →
    (leAt x 8 5 % 4096 = 0 → 0 < leAt x 16 4 → leAt x 8 5 / 4096 + leAt x 16 4 ≤ hbmPages → leAt x 8 5 < 2 ^ 36 → leAt x 24 1 < 2 →
      ∃ j, (s.dev.doFill x).mem.fills = s.dev.mem.fills ++ [j] ∧ j.first = leAt x 8 5 / 4096 ∧ j.pages = leAt x 16 4 ∧ j.done = 0 ∧
        j.pattern = BitVec.ofNat 32 (leAt x 20 4) ∧ j.tag = capTag x) ∧
    (leAt x 8 5 % 4096 ≠ 0 ∨ leAt x 16 4 = 0 ∨ hbmPages < leAt x 8 5 / 4096 + leAt x 16 4 →
      s.dev.doFill x = s.dev.adminDone (capTag x) 0x11 0) ∧
    (∀ j, s.dev.mem.fills.find? (fun j => j.done == j.pages) = some j → s.dev.ctl.activating = none → ∃ t, exec .fillComplete s = .next t ∧ t.hbm = s.hbm ∧
      t.dev.mem.fills = s.dev.mem.fills.filter (·.tag != j.tag) ∧ t.dev.ctl.admin = s.dev.ctl.admin.filter (·.tag != j.tag)) ∧
    (s.dev.mem.fills.find? (fun j => j.done == j.pages) = none ∨ s.dev.ctl.activating.isSome = true → exec .fillComplete s = .next s) ∧
    (0 < leAt x 10 2 → s.dev.doCellarRead x = (s.dev.emit (.hostWrite (BitVec.ofNat 64 (leAt x 16 8))
      ((List.range (leAt x 10 2)).flatMap fun i => s.dev.cellarRec (leAt x 8 2 + i)) false)).adminDone (capTag x) 0x00 (leAt x 10 2)))

/-- SPAN-LOAD with set-up locked reads the descriptor and fills a slot that is not mounted, or answers REFUSED for one that R297
does not admit; SPAN-MAP replaces a member's row map; SPAN-LIST writes at most MAX entries and completes with their number; SPAN-
UNLOAD empties a slot that is not in use (R297, R315, R320, R385). -/
def Obligations.SpanCommands : Prop :=
  ∀ (d : Dev) (x y : List Byte), d.locked = true → leAt x 8 1 < 16 →
    (((d.spanAt (leAt x 8 1)).map (·.isMounted)).getD false = false →
      let e := d.emit (.hostRead (BitVec.ofNat 64 (leAt x 16 8)) 256)
      (e.descOk (leAt x 8 1) y = true →
        (d.doSpanLoad x y).spanAt (leAt x 8 1) = some { desc := parseDesc y, members := List.replicate (parseDesc y).width {} } ∧
        ∀ i, i ≠ leAt x 8 1 → (d.doSpanLoad x y).spanAt i = d.spanAt i) ∧
      (e.descOk (leAt x 8 1) y = false → d.doSpanLoad x y = e.adminDone (capTag x) 0x50 0)) ∧
    (((d.spanAt (leAt x 8 1)).map (·.isMounted)).getD false = true → d.doSpanLoad x y = d.adminDone (capTag x) 0x51 0) ∧
    (∀ sp, d.spanAt (leAt x 8 1) = some sp → leAt x 10 2 ≤ 4096 → leAt x 9 1 < sp.members.length →
      ((d.doSpanMap x y).spanAt (leAt x 8 1)).map (fun s => (s.members.getD (leAt x 9 1) {}).map) = some (parseExtents (leAt x 10 2) y)) ∧
    (∀ sp, d.spanAt (leAt x 8 1) = some sp → leAt x 9 1 = 0 → leAt x 12 2 < sp.loss.length →
      d.doListLoss x = (if leAt x 12 2 = 0 then d else d.emit (.hostWrite (BitVec.ofNat 64 (leAt x 16 8))
        ((sp.loss.map lossBytes).take (leAt x 12 2)).flatten false)).adminDone (capTag x) 0x00 (leAt x 12 2)) ∧
    (((d.spanAt (leAt x 8 1)).map fun s => s.isMounted || d.writeSessions s).getD false = false →
      (d.doSpanUnload x).spanAt (leAt x 8 1) = none ∧ ∀ i, i ≠ leAt x 8 1 → (d.doSpanUnload x).spanAt i = d.spanAt i)

/-- MOUNT of a member on a usable transport that is free begins by reading both copies of the volume record, and INIT-CARTRIDGE
does so under a claim of the transport; a transport that is not usable ends a MOUNT with TRANSPORT, and one whose claim is not
granted in 8 ticks too, but not while firmware is being activated (R387, R390, R394). DISMOUNT begins when the span set is mounted
and no write session is open, and closes the open row (R138, R391). -/
def Obligations.CartridgeCommands : Prop :=
  ∀ (s : State) (x : List Byte) (sp : Span), s.dev.coreHeld = false → s.dev.locked = true →
    (leAt x 8 1 < 8 → leAt x 9 1 < 16 → leAt x 11 1 < 2 → s.dev.spanAt (leAt x 9 1) = some sp →
      (sp.desc.members[leAt x 10 1]?).bind s.dev.entryLocal = some (leAt x 8 1) → (s.dev.tpAt (leAt x 8 1)).mounted = none →
      sp.dismount = false →
      (s.dev.tpUsable (leAt x 8 1) = true → s.dev.doMount x = (s.dev.readVols (leAt x 8 1)).adminBegin
        { tag := capTag x, op := 0x31, a := leAt x 8 1, b := leAt x 9 1, c := leAt x 10 1, addr := BitVec.ofNat 64 (leAt x 16 8), stage := 1, desc := x }) ∧
      (s.dev.tpUsable (leAt x 8 1) = false → sp.writing = false → s.dev.doMount x = s.dev.adminDone (capTag x) 0x53 0)) ∧
    (leAt x 8 1 < 8 → shapeOk (leAt x 24 1) (leAt x 25 1) = true → leAt x 9 1 < leAt x 24 1 + leAt x 25 1 →
      (s.dev.tpAt (leAt x 8 1)).mounted = none → s.dev.flag Fld.tpLinkStatCart (leAt x 8 1) = true →
      s.dev.flag Fld.tpLinkStatUp (leAt x 8 1) = true → s.dev.flag Fld.tpLinkStatIdOk (leAt x 8 1) = true →
      (leAt x 16 8 = 0 → s.dev.doInitCartridge x = s.dev.adminDone (capTag x) 0x50 0) ∧
      (leAt x 16 8 ≠ 0 → leAt x 16 8 ≠ 2 ^ 64 - 1 → s.dev.doInitCartridge x =
        ((s.dev.claim (leAt x 8 1)).readVols (leAt x 8 1)).adminBegin { tag := capTag x, op := 0x30, a := leAt x 8 1, stage := 1, desc := x })) ∧
    (∀ n c, s.dev.ctl.admin.find? (fun c => c.op == 0x31 && c.stage == 2 && c.a == n) = some c →
      (c.since + 8 ≤ s.dev.clk → s.dev.flag Fld.tpLinkStatOwner n = false → s.dev.ctl.activating = none →
        exec (.mountClaimTimeout n) s = .next (s.withDev ((s.dev.setFlag Fld.tpTokenClaim n false).mountFail c 0x53))) ∧
      (s.dev.clk < c.since + 8 ∨ s.dev.flag Fld.tpLinkStatOwner n = true ∨ s.dev.ctl.activating.isSome = true → exec (.mountClaimTimeout n) s = .next s)) ∧
    (leAt x 8 1 < 16 → s.dev.spanAt (leAt x 8 1) = some sp →
      (s.dev.writeSessions sp = true → s.dev.doDismount x = s.dev.adminDone (capTag x) 0x51 0) ∧
      (s.dev.writeSessions sp = false → sp.isMounted = true → sp.dismount = false → sp.phase ≠ 1 →
        ∃ c, (s.dev.doDismount x).ctl.admin = s.dev.ctl.admin ++ [c] ∧ c.tag = capTag x ∧ c.op = 0x32 ∧ c.stage = 1 ∧ c.since = s.dev.clk ∧
          ((s.dev.doDismount x).spanAt (leAt x 8 1)).map (·.dismount) = some true ∧
          ((s.dev.doDismount x).spanAt (leAt x 8 1)).map (·.closeReq) = some true))

/-- FW-STAGE puts the segment's pages at their offset when offset and length are multiples of 4,096 within the image; FW_ACTIVATED
in time reports the new version and completes OK; a core that misses its checkpoint fails the activation; both end it (R393,
R394). The boot image that has loaded makes the cores run when its length and content are right, and otherwise leaves state 3
(R389). -/
def Obligations.FirmwareAndBoot : Prop :=
  ∀ s : State, s.dev.coreHeld = false →
    (∀ x y, leAt x 8 4 % 4096 = 0 → leAt x 12 4 = 4096 → leAt x 8 4 + 4096 ≤ imageMax →
      tget (s.dev.doFwStage x y).ctl.staged (leAt x 8 4 / 4096) = some (padTo 4096 (slice y 0 4096)) ∧
      ∀ i, i ≠ leAt x 8 4 / 4096 → tget (s.dev.doFwStage x y).ctl.staged i = tget s.dev.ctl.staged i) ∧
    (∀ x y, leAt x 8 4 % 4096 ≠ 0 → s.dev.doFwStage x y = s.dev.adminDone (capTag x) 0x11 0) ∧
    (∀ v tag since, s.dev.ctl.activating = some (v, tag, since) →
      (s.dev.clk ≤ since + activateTicks → exec .fwActivated s = .next (s.withHd (activationEnd (s.hbm,
        ((s.dev.setFld Fld.ctlFwVerVersion 0 v.toNat).postBoth 0x15 blkCtl 0 [item (s.dev.fld Fld.ctlFwVerVersion), item v.toNat]).adminEnd tag 0x00 v.toNat)))) ∧
      (∀ core, core < 16 → since + activateTicks ≤ s.dev.clk → exec (.fwActFail core) s =
        let d := s.dev.postBoth 0x16 blkCtl 0 [item v.toNat, item core]
        .next (s.withHd (activationEnd (s.hbm, (d.adminEnd tag (1 + d.fresh.toNat % 255) 0).spend)))) ∧
      (∀ core, s.dev.clk < since + activateTicks → exec (.fwActFail core) s = .next s)) ∧
    (s.dev.ctl.activating = none → exec .fwActivated s = .next s ∧ ∀ core, exec (.fwActFail core) s = .next s) ∧
    (∀ img, s.dev.fld Fld.ctlBootStatState ≠ 1 → exec (.bootLoaded img) s = .next s) ∧
    (∀ img, s.dev.fld Fld.ctlBootStatState = 1 → ∃ t, exec (.bootLoaded img) s = .next t ∧ t.hbm = s.hbm ∧ t.pending = s.pending ∧
      t.dev = { s.dev with regs := t.dev.regs } ∧
      if img.length = s.dev.fld Fld.ctlBootLenBytes ∧ img.length ≤ imageMax ∧ Config.imageOk img = true then
        t.dev.fld Fld.ctlBootStatState = 2 ∧ t.dev.fld Fld.ctlFwVerVersion = (Config.imageVersion img).toNat
      else t.dev.fld Fld.ctlBootStatState = 3)

/-! ### Queues, Ethernet, the fabric and the pair -/

/-- A pointer mismatch of a queue that stands in registers, or a double-bit error of one in SRAM, marks the queue (R370); at the
next boundary it is emptied and its reset counted. A priority's PFC frame is repeated for every queue above its mark whose last
frame on a live port is two ticks old (R373); a PFC frame taken pauses or releases the priorities that it enables (R486). A port
that is present and enabled comes up, with the first frames of the queues that stand above their mark (R373); one that falls takes
the tunnels on it down (R403) and trains the lanes whose re-training waited (R439); a request for an address of the device, or of
a partner that it took over, is answered, and the partner's addresses are announced again after 50 and 500 ticks (R421). An entry of a
large queue goes to its place in the queue's area, its check bytes behind the entries, and an area wraps within the region of the
queues (R364). Where the step of ETH has overrun, its PFC frames wait (R16). -/
def Obligations.QueuesPfcPortsAndAddresses : Prop :=
  (∀ s : State, s.dev.coreHeld = false →
    (∀ q c, q < 0xFF → s.dev.queEn q = true → c = (if s.dev.queLarge q then 2 else 1) →
      exec (.queueReset q c) s = .next (s.withDev (s.dev.modQue q fun x => { x with broken := c }))) ∧
    (∀ (d : Dev) q c, q < 0xF8 → ((d.queReset q c).queAt q).items = [] ∧
      (d.queReset q c).fld Fld.queQCntResets q = min (d.fld Fld.queQCntResets q + 1) (2 ^ Fld.queQCntResets.width - 1)) ∧
    (∀ p, ∃ t, exec (.pfcRepeat p) s = .next t ∧
      t = s.withDev { s.dev with eth := { s.dev.eth with pfcAt := t.dev.eth.pfcAt, late := t.dev.eth.late }, out := t.dev.out } ∧
      let due := (List.range 249).filter fun q =>
        s.dev.queAbove q && s.dev.flag Fld.queQCfgPfcEn q && decide (tgetD s.dev.eth.pfcAt (256 * p + q) 0 + 2 ≤ s.dev.clk)
      (s.dev.portLive p = false → t = s) ∧
      (s.dev.portLive p = true → s.dev.ethLate p = true → t.dev.out = s.dev.out ∧
        t.dev.eth.late = s.dev.eth.late ++ due.map fun q => Out.pfc p (s.dev.fld Fld.queQCfgPfcPri q) 0xFFFF) ∧
      (s.dev.portLive p = true → s.dev.ethLate p = false → t.dev.eth.late = s.dev.eth.late ∧
        t.dev.out = (due.map fun q => Out.pfc p (s.dev.fld Fld.queQCfgPfcPri q) 0xFFFF).reverse ++ s.dev.out ∧
        ∀ q ∈ due, tget t.dev.eth.pfcAt (256 * p + q) = some s.dev.clk)) ∧
    (∀ p e qs, p < ethPorts → s.dev.portLive p = true → s.dev.flag Fld.ethPortCfgPfcRx p = true →
      ∃ t, exec (.pfcFrameReceive p e qs) s = .next t ∧
        t = s.withDev { s.dev with eth := { s.dev.eth with pause := t.dev.eth.pause } } ∧
        ∀ i, i < 8 → tget t.dev.eth.pause (8 * p + i) =
          if e.getLsbD i then some (s.dev.clk + s.dev.pauseTicks p (qs.getD i 0).toNat) else tget s.dev.eth.pause (8 * p + i)) ∧
    (∀ p e qs, s.dev.flag Fld.ethPortCfgPfcRx p = false → exec (.pfcFrameReceive p e qs) s = .next s)) ∧
  (∀ s : State, s.dev.coreHeld = false →
    (∀ p, p < ethPorts → s.dev.flag Fld.ethPortStatPresent p = true → s.dev.flag Fld.ethPortCfgEn p = true → s.dev.flag Fld.ethPortStatUp p = false →
      (∀ l ∈ s.dev.portLanes p, l < 16) → ∃ t, exec (.ethPortLinkUp p) s = .next t ∧ t.hbm = s.hbm ∧ t.dev.flag Fld.ethPortStatUp p = true ∧
        (s.dev.ethLate p = false → t.dev.out = (((List.range 249).filter fun q => s.dev.queAbove q && s.dev.flag Fld.queQCfgPfcEn q).map fun q =>
          Out.pfc p (s.dev.fld Fld.queQCfgPfcPri q) 0xFFFF).reverse ++ s.dev.out)) ∧
    (∀ p, p < ethPorts → s.dev.flag Fld.ethPortStatUp p = true → (∀ l ∈ s.dev.portLanes p, l < 16) →
      ∃ t, exec (.ethPortLinkDown p) s = .next t ∧ t.hbm = s.hbm ∧ t.dev.flag Fld.ethPortStatUp p = false ∧
        (∀ j, j < 4 → s.dev.fld Fld.fabTunCfgPort j = p → (t.dev.linkAt (8 + j)).up = false) ∧
        t.dev.age.retrain = s.dev.age.retrain.filter fun l => ! (s.dev.portLanes p).contains l) ∧
    (∃ t, exec .pcieLinkDown s = .next t ∧ t = s.withDev { s.dev with regs := t.dev.regs, age := t.dev.age } ∧
      t.dev.age.retrain = s.dev.age.retrain.filter fun l => ! (decide (16 ≤ l) && decide (l < 32))) ∧
    (∀ p v6 a x, s.dev.answersFor.find? (fun x => x.port == p && x.v6 == v6 && x.addr == a) = some x → s.dev.portLive x.port = true →
      exec (.arpRequestReceive p v6 a) s = .next (s.withDev { s.dev with out := .arp x.port x.v6 x.addr x.mac :: s.dev.out })) ∧
    (∀ x0, s.dev.pair.arpAt = some x0 → s.dev.pair.arpDone = 0 → x0 + 50 ≤ s.dev.clk →
      exec .arpRepeat s = .next (s.withDev (s.dev.partnerSvcs.foldl Dev.announce { s.dev with pair := { s.dev.pair with arpDone := 1 } }))) ∧
    (∀ x0, s.dev.pair.arpAt = some x0 → s.dev.pair.arpDone = 1 → x0 + 500 ≤ s.dev.clk →
      exec .arpRepeat s =
        .next (s.withDev (s.dev.partnerSvcs.foldl Dev.announce { s.dev with pair := { s.dev.pair with arpDone := 2, arpAt := none } })))) ∧
  (∀ (d : Dev) (q : Nat) (it : QItem), d.queLarge q = true →
    let slot := ((d.queAt q).head + d.queLevel q) % d.queSize q
    let place := fun off => queRegion + (65536 * d.fld Fld.queQCfgBase q + off) % queRegionLen
    (it.n = 1 → (d.quePush q it).que.out = d.que.out ++
      [(place (64 * slot), slice it.body 0 64), (place (64 * d.queSize q + 8 * slot), laneChecks (slice it.body 0 64))]) ∧
    (∀ off, queRegion ≤ d.queAddr q off ∧ d.queAddr q off < queRegion + queRegionLen))

/-- A frame on a link that is up is taken when both CRCs, its length and its LINK_SEQ are right: LINK_ACK frees what it covers of
the replay buffer, and the next number is awaited; any other frame is discarded and counted (R400, R401, R427). A replay sends
every frame not acknowledged again, in order, under its number, over a tunnel inside a frame of its port (R401, R403). A destination tells the source of a gap that has stood open
for 4 ticks, and a source sends again what no acknowledgement has covered for 8 ticks, from the oldest on (R407). -/
def Obligations.FramesReplayAndEndToEnd : Prop :=
  (∀ (s : State) (l : Nat), s.dev.coreHeld = false → l < fabLinks → (s.dev.linkAt l).up = true →
    (∀ f : Frame,
      let good := f.header.length = 32 ∧ crc32cOk f.header = true ∧ f.payload.length = leAt f.header 4 2 ∧
        (f.payload ≠ [] → f.crc = crc32c f.payload) ∧ leAt f.header 18 2 = (s.dev.linkAt l).rxNext.toNat
      (¬ good → exec (.frameReceive l f) s = .next (s.withDev (if l < 8 then s.dev.bump Fld.fabPortErrCrc l else s.dev))) ∧
      (good → ∃ t, exec (.frameReceive l f) s = .next t ∧ t.hbm = s.hbm ∧ t.pending = s.pending ∧
        (t.dev.linkAt l).rxNext = (s.dev.linkAt l).rxNext + 1 ∧ (t.dev.linkAt l).heard = true ∧
        ∀ x ∈ (s.dev.linkAt l).replay, x ∈ (t.dev.linkAt l).replay ∨ seqFrom x.1 (BitVec.ofNat 16 (leAt f.header 20 2)) = true)) ∧
    ((s.dev.linkAt l).replay ≠ [] → ∃ t, exec (.linkReplay l) s = .next t ∧ t.hbm = s.hbm ∧
      t.dev.out = ((s.dev.linkAt l).replay.map fun r =>
        let h := frameHeader r.2.1 r.1 ((s.dev.linkAt l).rxNext - 1)
        let c := if r.2.2 = [] then 0 else crc32c r.2.2
        if l < 8 then Out.frame l h r.2.2 c
        else Out.tunnelFrame (s.dev.fld Fld.fabTunCfgPort (l - 8))
          (BitVec.ofNat 48 (s.dev.fld Fld.fabTunMacLoMac (l - 8) + 2 ^ 32 * s.dev.fld Fld.fabTunMacHiMac (l - 8)))
          (BitVec.ofNat 16 (s.dev.fld Fld.fabTunEtypeType)) (h ++ r.2.2 ++ (if r.2.2 = [] then [] else leBytes 4 c.toNat))).reverse ++ s.dev.out ∧
      (t.dev.linkAt l).replay = (s.dev.linkAt l).replay ∧ (t.dev.linkAt l).replays = (s.dev.linkAt l).replays + 1)) ∧
  (∀ (s : State) (a c : Nat), s.dev.coreHeld = false →
    (∀ r x0, tgetD s.dev.fab.rx (e2eKey a c) {} = r → r.gapSince = some x0 → x0 + 4 ≤ s.dev.clk →
      exec (.e2eGapTimeout a c) s = .next (s.withDev
        (({ s.dev with fab := { s.dev.fab with rx := tput s.dev.fab.rx (e2eKey a c) { r with gapSince := some s.dev.clk } } } : Dev).fabSend
          a 0 0x04 0 (.e2eNak c r.next)))) ∧
    (∀ r f fs, tgetD s.dev.fab.tx (e2eKey a c) {} = r → r.kept = f :: fs → r.ackAt + 8 ≤ s.dev.clk →
      exec (.e2eResendTimeout a c) s = .next (s.withDev
        (((f :: fs).filter fun x => seqFrom f.1 x.1).foldl (fun d x => d.fabForward x.2.1 x.2.2)
          { s.dev with fab := { s.dev.fab with tx := tput s.dev.fab.tx (e2eKey a c) { r with ackAt := s.dev.clk } } }))))

/-- A link or tunnel comes up after 8 consecutive ticks with TICK frames, with numbers from 0 and 65,536 bytes of credit for each
class; it goes down after 3 ticks of silence, at loss of block lock, or after 16 replays of one frame. Either way the device's
advertisement and the routes have to be made anew (R401, R402, R403). A TICK frame tells its link's neighbour, count, phase and
delay. From the upstream neighbour, before set-up is locked, a different count is taken at the next boundary; after it the
difference is held in FAB_TIME_OFS (R410, R411). A device without a reachable source adopts the one that its neighbours announce,
or, as the candidate with the lowest address, itself (R409). -/
def Obligations.FabricLinksTickFramesAndSource : Prop :=
  (∀ (s : State) (l : Nat), s.dev.coreHeld = false → l < fabLinks →
    ((s.dev.linkAt l).up = false → s.dev.linkEn l = true → 8 ≤ (s.dev.linkAt l).good → (8 ≤ l → s.dev.tunnelPort l = true) →
      ∃ t, exec (.fabLinkUp l) s = .next t ∧ t = s.withDev { s.dev with regs := t.dev.regs, fab := t.dev.fab } ∧
        (t.dev.linkAt l).up = true ∧ (t.dev.linkAt l).txSeq = 0 ∧ (t.dev.linkAt l).rxNext = 0 ∧ (t.dev.linkAt l).replay = [] ∧
        (t.dev.linkAt l).credit = [65536, 65536, 65536, 65536] ∧ t.dev.fab.lsaDirty = true ∧ t.dev.fab.routeDirty = true ∧
        (∀ k, k ≠ l → t.dev.linkAt k = s.dev.linkAt k)) ∧
    (∀ c, (s.dev.linkAt l).up = true → c = 1 ∧ 3 ≤ (s.dev.linkAt l).quiet ∨ c = 2 ∨ c = 3 ∧ 16 ≤ (s.dev.linkAt l).replays →
      ∃ t, exec (.fabLinkDown l c) s = .next t ∧
        t = s.withDev { s.dev with regs := t.dev.regs, fab := t.dev.fab, ctl := t.dev.ctl, free := t.dev.free } ∧
        (t.dev.linkAt l).up = false ∧ (t.dev.linkAt l).replay = [] ∧ (t.dev.linkAt l).waiting = [] ∧
        t.dev.fab.lsaDirty = true ∧ t.dev.fab.routeDirty = true ∧ (∀ k, k ≠ l → t.dev.linkAt k = s.dev.linkAt k) ∧
        (s.dev.ctl.evq.length < eventQueueMax → ∃ e, t.dev.ctl.evq = s.dev.ctl.evq ++ [e] ∧ e.code = 0x80 ∧ e.items = [item l, item c])) ∧
    ((s.dev.linkAt l).quiet < 3 → exec (.fabLinkDown l 1) s = .next s) ∧ ((s.dev.linkAt l).replays < 16 → exec (.fabLinkDown l 3) s = .next s)) ∧
  (∀ (s : State), s.dev.coreHeld = false →
    (∀ l nbr cnt sent b a prev al, l < s.dev.fab.links.length → l < fabLinks → s.dev.linkEn l = true →
      ∃ t, exec (.tickFrameReceive l nbr cnt sent b a prev al) s = .next t ∧
        t = s.withDev { s.dev with regs := t.dev.regs, fab := t.dev.fab } ∧
        t.dev.linkAt l = { s.dev.linkAt l with
          heard := true, heardTick := true, neighbour := nbr, count := cnt, aligned := al
          theta2 := (a - sent) - (b - prev), delay2 := (a - sent) + (b - prev) } ∧
        (s.dev.upstreamLink = some l → s.dev.locked = false → cnt ≠ s.dev.tick → t.dev.fab.adopt = some cnt) ∧
        (s.dev.upstreamLink = some l → s.dev.locked = true → t.dev.timeOfs = (cnt - s.dev.tick).toNat ∧ t.dev.fab.adopt = s.dev.fab.adopt) ∧
        (s.dev.upstreamLink ≠ some l → t.dev.timeOfs = s.dev.timeOfs ∧ t.dev.fab.adopt = s.dev.fab.adopt)) ∧
    (s.dev.sourceOk = false → s.dev.fab.source = none ∨ 500 ≤ s.dev.fab.sourceLost →
      (∀ a, s.dev.announced = some a → exec .fabSource s = .next (s.withDev (s.dev.adoptSource a))) ∧
      (s.dev.announced = none → s.dev.flag Fld.fabCfgCand = true → s.dev.lowest = true →
        exec .fabSource s = .next (s.withDev (s.dev.adoptSource s.dev.fabAddr)))) ∧
    (s.dev.sourceOk = true → exec .fabSource s = .next s) ∧
    ∀ (d : Dev) a, (d.adoptSource a).fab.source = some a ∧ (d.adoptSource a).fab.sourceLost = 0)

/-- An advertisement that is newer than the stored copy replaces it; an equal or older one is dropped; the device's own with a
number not below its own makes it go on above (R404). Its own goes out after a change and every 50,000 ticks under the next
number; a copy not refreshed for 150,000 ticks is dropped; the forwarding table is computed when something has changed, one tick
later where the step of FAB has overrun (R16, R404, R406). -/
def Obligations.AdvertisementsAndRoutes : Prop :=
  ∀ (s : State), s.dev.coreHeld = false →
    (∀ l ser a q src tk adj, l < fabLinks → (s.dev.linkAt l).up = true →
      let own := ser = Config.serial ∧ a.toNat = s.dev.fabAddr
      let new : Lsa := { serial := ser, addr := a, seq := q, source := src, taken := tk, adj := adj, since := s.dev.clk }
      (¬ own → (∀ x ∈ s.dev.fab.lsas, x.addr = a → x.serial = ser → x.seq < q) →
        ∃ t, exec (.lsaReceive l ser a q src tk adj) s = .next t ∧ t.hbm = s.hbm ∧
          t.dev.fab.lsas = s.dev.fab.lsas.filter (fun x => ! (x.addr == a && x.serial == ser)) ++ [new] ∧ t.dev.fab.routeDirty = true) ∧
      (¬ own → (∃ x ∈ s.dev.fab.lsas, x.addr = a ∧ x.serial = ser) → (∀ x ∈ s.dev.fab.lsas, x.addr = a → x.serial = ser → q ≤ x.seq) →
        exec (.lsaReceive l ser a q src tk adj) s = .next s) ∧
      (own → s.dev.fab.mySeq ≤ q → exec (.lsaReceive l ser a q src tk adj) s =
        .next (s.withDev { s.dev with fab := { s.dev.fab with mySeq := q + 1, lsaDirty := true } }))) ∧
    (s.dev.fab.lsaDirty = true ∨ s.dev.fab.lsaAt + 50000 ≤ s.dev.clk → exec .lsaRefresh s = .next (s.withDev
      (({ s.dev with fab := { s.dev.fab with mySeq := s.dev.fab.mySeq + 1, lsaAt := s.dev.clk, lsaDirty := false } } : Dev).flood s.dev.ownLsa none))) ∧
    (∀ a ser x, s.dev.fab.lsas.find? (fun x => x.addr == a && x.serial == ser) = some x → x.since + 150000 ≤ s.dev.clk →
      ∃ t, exec (.lsaExpire a ser) s = .next t ∧ t.hbm = s.hbm ∧ t.dev.fab.lsas = s.dev.fab.lsas.erase x ∧ t.dev.fab.routeDirty = true) ∧
    (s.dev.fab.routeDirty = true → s.dev.stalls 0x13 0 1 = false → exec .routeCompute s =
      .next (s.withDev { s.dev with fab := { s.dev.fab with routes := s.dev.computeRoutes, routeDirty := false } })) ∧
    (s.dev.fab.routeDirty = false ∨ s.dev.stalls 0x13 0 1 = true → exec .routeCompute s = .next s) ∧
    (∀ x ∈ s.dev.computeRoutes, x.1 ≠ s.dev.fabAddr ∧ x.1 < 128 ∧ x.2 ≠ [] ∧ x.2.length ≤ 4)

/-- Batches of a designated pair commit whole and in order: a batch that has come whole, with no earlier one still to commit, leaves
those that wait; it is stored and acknowledged, or, where its buffers cannot be had, refused. A batch that has not come whole, or
that an earlier one precedes, waits. An acknowledgement covers the batch that it names and every earlier one; a refusal makes the
batch go again, and the first since the last acknowledgement posts PAIR_BACKLOG; a heartbeat is noted with what the partner has
committed and acknowledged (R416, R417, R419). -/
def Obligations.MirrorBatches : Prop :=
  ∀ (s : State), s.dev.coreHeld = false → s.dev.flag Fld.fabPairCfgEn = true →
    (∀ b x, s.dev.pair.partner.batches.find? (fun y => y.tick == b) = some x →
      (x.whole = true → (∀ o ∈ s.dev.pair.partner.batches, o.tick ≠ b → seqFrom o.tick b = false) →
        let d1 := s.dev.modPartner fun p => { p with batches := p.batches.filter (·.tick != b) }
        (d1.mirrorBuffers x.recs = none →
          exec (.mirrorBatchCommit b) s = .next (s.withDev (d1.fabSend s.dev.partnerAddr 1 0x12 0 (.mirrorNak b)))) ∧
        (∀ d2 got, d1.mirrorBuffers x.recs = some (d2, got) →
          exec (.mirrorBatchCommit b) s = .next (s.withDev
            (((d2.mirrorStore got).modPartner fun p => { p with committed := b }).fabSend s.dev.partnerAddr 1 0x11 0 (.mirrorAck b))))) ∧
      (x.whole = false ∨ (∃ o ∈ s.dev.pair.partner.batches, o.tick ≠ b ∧ seqFrom o.tick b = true) →
        exec (.mirrorBatchCommit b) s = .next s)) ∧
    (∀ (d d2 : Dev) rs got, d.mirrorBuffers rs = some (d2, got) → got.map (·.1) = rs ∧ (∀ g ∈ got, g.2.isSome = true) ∧
      ∀ g ∈ (d2.mirrorStore got).pair.partner.store, g ∈ got ∨ g ∈ d.pair.partner.store ∧ ∀ r ∈ rs, r.same g.1 = false) ∧
    (∀ b, (s.dev.pair.sent.any fun x => x.1 == b) = true →
      ∃ t, exec (.mirrorAck b) s = .next t ∧ t.hbm = s.hbm ∧ t.dev.pair.acked = some (b - BitVec.ofNat 48 s.dev.timeOfs) ∧
        t.dev.pair.backlog = false ∧ t.dev.pair.sent = s.dev.pair.sent.filter fun x => ! seqFrom x.1 b) ∧
    (∀ b, (s.dev.pair.sent.any fun x => x.1 == b) = true →
      ∃ t, exec (.mirrorNak b) s = .next t ∧ t = s.withDev { s.dev with pair := t.dev.pair, ctl := t.dev.ctl } ∧ t.dev.pair.backlog = true ∧
        t.dev.pair.resend = s.dev.pair.resend ++ [b] ∧ (s.dev.pair.backlog = true → t.dev.ctl = s.dev.ctl) ∧
        (s.dev.pair.backlog = false → s.dev.ctl.evq.length < eventQueueMax → ∃ e, t.dev.ctl.evq = s.dev.ctl.evq ++ [e] ∧ e.code = 0x87 ∧
          e.items = [item s.dev.partnerAddr, item b.toNat])) ∧
    (∀ b, (s.dev.pair.sent.any fun x => x.1 == b) = false → exec (.mirrorAck b) s = .next s ∧ exec (.mirrorNak b) s = .next s) ∧
    (∀ x c a, exec (.heartbeatReceive x c a) s =
      .next (s.withDev (s.dev.modPartner fun p => { p with beat := true, theirCommit := c, theirAck := a })))

/-- Three missed heartbeats of a partner make a takeover when no transport shows it as its owner, and a partition otherwise; a
partition ends in solo after SOLO_T ticks; a takeover is over when every claimed transport reports the device as its owner, and a
transport that does not by boundary f + 15 is given up (R420, R421, R422). Heartbeats that are there again begin a resync, and the
pair is protected once it is committed and 8 ticks of heartbeats have passed (R413, R423). -/
def Obligations.PairStates : Prop :=
  ∀ (s : State), s.dev.coreHeld = false →
    (s.dev.heartLost = true → s.dev.partnerTps.all s.dev.tpReleased = true → ∃ t, exec .pairTakeover s = .next t ∧
      t = s.withDev { s.dev with pair := t.dev.pair } ∧ t.dev.pair.partner.batches = [] ∧
      t.dev.pair.takeover = some { x := s.dev.clk, f := s.dev.clk - s.dev.fld Fld.fabPairStatMissed, tps := s.dev.partnerTps }) ∧
    (s.dev.heartLost = true → s.dev.fld Fld.fabPairStatState ≤ 2 → s.dev.partnerTps.all s.dev.tpReleased = false →
      ∃ t, exec .pairPartition s = .next t ∧ t.hbm = s.hbm ∧ t.dev.fld Fld.fabPairStatState = 3 ∧ t.dev.pair.partSince = some s.dev.clk) ∧
    (∀ x0, s.dev.pair.partSince = some x0 → s.dev.fld Fld.fabPairStatState = 3 → x0 + s.dev.fld1 Fld.fabPairCfgSoloT ≤ s.dev.clk →
      ∃ t, exec .pairSolo s = .next t ∧ t.hbm = s.hbm ∧ t.dev.fld Fld.fabPairStatState = 4 ∧ t.dev.pair.partSince = none ∧
        ∀ c k, tget t.dev.rte.conns c = some k → k.ackWait = []) ∧
    (∀ k, s.dev.pair.takeover = some k → k.claimed = true → (k.tps.all fun x => s.dev.flag Fld.tpLinkStatOwner x) = true →
      exec .takeoverComplete s = .next (s.withDev { s.dev with pair := { s.dev.pair with takeover := none } })) ∧
    (∀ k tp, s.dev.pair.takeover = some k → k.claimed = true → k.tps.contains tp = true → k.f + 15 ≤ s.dev.clk →
      s.dev.flag Fld.tpLinkStatOwner tp = false →
      let d : Dev := { s.dev with pair := { s.dev.pair with takeover := some { k with tps := k.tps.filter (· != tp) } } }
      ((s.dev.tpAt tp).mounted = none → exec (.takeoverDeadline tp) s = .next (s.withDev d)) ∧
      (∀ slot i w, (s.dev.tpAt tp).mounted = some (slot, i, w) →
        exec (.takeoverDeadline tp) s = .next (s.withDev (d.spend.memberFail slot i (1 + d.fresh.toNat % 5))))) ∧
    (s.dev.flag Fld.fabPairCfgEn = true → s.dev.fld Fld.fabPairStatState ≠ 1 → s.dev.fld Fld.fabPairStatState ≠ 2 →
      1 ≤ s.dev.pair.partner.beatRun → s.dev.pair.takeover = none → ∃ t, exec .pairResync s = .next t ∧
        t.hbm = s.hbm ∧ t.dev.fld Fld.fabPairStatState = 1 ∧ t.dev.fab.taken = 0xFF ∧
        t.dev.pair.last = s.dev.mirrorNow s.hbm ∧ t.dev.pair.acked = none) ∧
    (∀ r a, s.dev.pair.resync = some r → s.dev.pair.acked = some a → s.dev.fld Fld.fabPairStatState = 1 → 8 ≤ s.dev.pair.partner.beatRun →
      seqFrom r (a + BitVec.ofNat 48 s.dev.timeOfs) = true → ∃ t, exec .pairProtected s = .next t ∧ t.hbm = s.hbm ∧
        t.dev.fld Fld.fabPairStatState = 2 ∧ t.dev.pair.resync = none ∧ t.dev.pair.tookOver = false)

/-- Without VAON there is no tick: nothing changes. With it every boundary answers a next state, in which the status registers show
the tick counter and the free buffers of each pool as that boundary has left them, and nothing else is changed by showing them. A
boundary advances the counter by one, from the count that alignment adopts where there is one (R7, R411), and forgets that count and
what overran; while the core is held in reset, and no register write waits, the state after the boundary has the counter so advanced. -/
def Obligations.TickBoundaries : Prop :=
  ∀ (i : TickIn) (s : State),
    (s.dev.hlt.vaon = false → exec (.tickBoundary i) s = .next s) ∧
    (s.dev.hlt.vaon = true → ∃ h d, exec (.tickBoundary i) s = .next { s with hbm := h, dev := (showRegs (h, d)).2 }) ∧
    (∀ (h : Hbm) (d : Dev), (∀ x ∈ d.ctl.rings, x.1 < 256) →
      (showRegs (h, d)).1 = h ∧ (showRegs (h, d)).2 = { d with regs := (showRegs (h, d)).2.regs } ∧
        (showRegs (h, d)).2.fld Fld.hltTickLoCount = d.tick.toNat % 2 ^ 32 ∧
        ∀ p, p < 5 → (showRegs (h, d)).2.fld Fld.poolPFreeCount p = (d.poolAt p).free % 2 ^ 29) ∧
    (s.dev.hlt.vaon = true → s.dev.coreHeld = true → s.dev.regw = [] → ∃ t, exec (.tickBoundary i) s = .next t ∧ t.pending = s.pending ∧
      t.dev.tick = s.dev.fab.adopt.getD s.dev.tick + 1) ∧
    ∀ d : Dev, d.advance.tick = d.fab.adopt.getD d.tick + 1 ∧ d.advance.fab.adopt = none ∧ d.advance.ovr.stalled = []
end

