-- ==== Sys2Proof/Laws/State.lean ====
section
/-! SUPPORT. What each update of the device leaves as it was, one lemma per field, so that no proof unfolds a record update. -/

namespace Sys2Proof.Machine

/-! `Dev.putReg` changes `regs` alone. -/

@[simp] theorem Dev.putReg_tick (d : Dev) (r : RegId) (i : Nat) (v : Word32) : (d.putReg r i v).tick = d.tick := rfl
@[simp] theorem Dev.putReg_clk (d : Dev) (r : RegId) (i : Nat) (v : Word32) : (d.putReg r i v).clk = d.clk := rfl
@[simp] theorem Dev.putReg_regw (d : Dev) (r : RegId) (i : Nat) (v : Word32) : (d.putReg r i v).regw = d.regw := rfl
@[simp] theorem Dev.putReg_mem (d : Dev) (r : RegId) (i : Nat) (v : Word32) : (d.putReg r i v).mem = d.mem := rfl
@[simp] theorem Dev.putReg_pool (d : Dev) (r : RegId) (i : Nat) (v : Word32) : (d.putReg r i v).pool = d.pool := rfl
@[simp] theorem Dev.putReg_que (d : Dev) (r : RegId) (i : Nat) (v : Word32) : (d.putReg r i v).que = d.que := rfl
@[simp] theorem Dev.putReg_ctl (d : Dev) (r : RegId) (i : Nat) (v : Word32) : (d.putReg r i v).ctl = d.ctl := rfl
@[simp] theorem Dev.putReg_rte (d : Dev) (r : RegId) (i : Nat) (v : Word32) : (d.putReg r i v).rte = d.rte := rfl
@[simp] theorem Dev.putReg_sch (d : Dev) (r : RegId) (i : Nat) (v : Word32) : (d.putReg r i v).sch = d.sch := rfl
@[simp] theorem Dev.putReg_ses (d : Dev) (r : RegId) (i : Nat) (v : Word32) : (d.putReg r i v).ses = d.ses := rfl
@[simp] theorem Dev.putReg_dru (d : Dev) (r : RegId) (i : Nat) (v : Word32) : (d.putReg r i v).dru = d.dru := rfl
@[simp] theorem Dev.putReg_spn (d : Dev) (r : RegId) (i : Nat) (v : Word32) : (d.putReg r i v).spn = d.spn := rfl
@[simp] theorem Dev.putReg_tp (d : Dev) (r : RegId) (i : Nat) (v : Word32) : (d.putReg r i v).tp = d.tp := rfl
@[simp] theorem Dev.putReg_wr (d : Dev) (r : RegId) (i : Nat) (v : Word32) : (d.putReg r i v).wr = d.wr := rfl
@[simp] theorem Dev.putReg_rd (d : Dev) (r : RegId) (i : Nat) (v : Word32) : (d.putReg r i v).rd = d.rd := rfl
@[simp] theorem Dev.putReg_mot (d : Dev) (r : RegId) (i : Nat) (v : Word32) : (d.putReg r i v).mot = d.mot := rfl
@[simp] theorem Dev.putReg_fab (d : Dev) (r : RegId) (i : Nat) (v : Word32) : (d.putReg r i v).fab = d.fab := rfl
@[simp] theorem Dev.putReg_pair (d : Dev) (r : RegId) (i : Nat) (v : Word32) : (d.putReg r i v).pair = d.pair := rfl
@[simp] theorem Dev.putReg_eth (d : Dev) (r : RegId) (i : Nat) (v : Word32) : (d.putReg r i v).eth = d.eth := rfl
@[simp] theorem Dev.putReg_hlt (d : Dev) (r : RegId) (i : Nat) (v : Word32) : (d.putReg r i v).hlt = d.hlt := rfl
@[simp] theorem Dev.putReg_age (d : Dev) (r : RegId) (i : Nat) (v : Word32) : (d.putReg r i v).age = d.age := rfl
@[simp] theorem Dev.putReg_pins (d : Dev) (r : RegId) (i : Nat) (v : Word32) : (d.putReg r i v).pins = d.pins := rfl
@[simp] theorem Dev.putReg_ovr (d : Dev) (r : RegId) (i : Nat) (v : Word32) : (d.putReg r i v).ovr = d.ovr := rfl
@[simp] theorem Dev.putReg_out (d : Dev) (r : RegId) (i : Nat) (v : Word32) : (d.putReg r i v).out = d.out := rfl
@[simp] theorem Dev.putReg_free (d : Dev) (r : RegId) (i : Nat) (v : Word32) : (d.putReg r i v).free = d.free := rfl

/-! `Dev.setFld` changes `regs` alone. -/

@[simp] theorem Dev.setFld_tick (d : Dev) (f : Fld) (i v : Nat) : (d.setFld f i v).tick = d.tick := rfl
@[simp] theorem Dev.setFld_clk (d : Dev) (f : Fld) (i v : Nat) : (d.setFld f i v).clk = d.clk := rfl
@[simp] theorem Dev.setFld_regw (d : Dev) (f : Fld) (i v : Nat) : (d.setFld f i v).regw = d.regw := rfl
@[simp] theorem Dev.setFld_mem (d : Dev) (f : Fld) (i v : Nat) : (d.setFld f i v).mem = d.mem := rfl
@[simp] theorem Dev.setFld_pool (d : Dev) (f : Fld) (i v : Nat) : (d.setFld f i v).pool = d.pool := rfl
@[simp] theorem Dev.setFld_que (d : Dev) (f : Fld) (i v : Nat) : (d.setFld f i v).que = d.que := rfl
@[simp] theorem Dev.setFld_ctl (d : Dev) (f : Fld) (i v : Nat) : (d.setFld f i v).ctl = d.ctl := rfl
@[simp] theorem Dev.setFld_rte (d : Dev) (f : Fld) (i v : Nat) : (d.setFld f i v).rte = d.rte := rfl
@[simp] theorem Dev.setFld_sch (d : Dev) (f : Fld) (i v : Nat) : (d.setFld f i v).sch = d.sch := rfl
@[simp] theorem Dev.setFld_ses (d : Dev) (f : Fld) (i v : Nat) : (d.setFld f i v).ses = d.ses := rfl
@[simp] theorem Dev.setFld_dru (d : Dev) (f : Fld) (i v : Nat) : (d.setFld f i v).dru = d.dru := rfl
@[simp] theorem Dev.setFld_spn (d : Dev) (f : Fld) (i v : Nat) : (d.setFld f i v).spn = d.spn := rfl
@[simp] theorem Dev.setFld_tp (d : Dev) (f : Fld) (i v : Nat) : (d.setFld f i v).tp = d.tp := rfl
@[simp] theorem Dev.setFld_wr (d : Dev) (f : Fld) (i v : Nat) : (d.setFld f i v).wr = d.wr := rfl
@[simp] theorem Dev.setFld_rd (d : Dev) (f : Fld) (i v : Nat) : (d.setFld f i v).rd = d.rd := rfl
@[simp] theorem Dev.setFld_mot (d : Dev) (f : Fld) (i v : Nat) : (d.setFld f i v).mot = d.mot := rfl
@[simp] theorem Dev.setFld_fab (d : Dev) (f : Fld) (i v : Nat) : (d.setFld f i v).fab = d.fab := rfl
@[simp] theorem Dev.setFld_pair (d : Dev) (f : Fld) (i v : Nat) : (d.setFld f i v).pair = d.pair := rfl
@[simp] theorem Dev.setFld_eth (d : Dev) (f : Fld) (i v : Nat) : (d.setFld f i v).eth = d.eth := rfl
@[simp] theorem Dev.setFld_hlt (d : Dev) (f : Fld) (i v : Nat) : (d.setFld f i v).hlt = d.hlt := rfl
@[simp] theorem Dev.setFld_age (d : Dev) (f : Fld) (i v : Nat) : (d.setFld f i v).age = d.age := rfl
@[simp] theorem Dev.setFld_pins (d : Dev) (f : Fld) (i v : Nat) : (d.setFld f i v).pins = d.pins := rfl
@[simp] theorem Dev.setFld_ovr (d : Dev) (f : Fld) (i v : Nat) : (d.setFld f i v).ovr = d.ovr := rfl
@[simp] theorem Dev.setFld_out (d : Dev) (f : Fld) (i v : Nat) : (d.setFld f i v).out = d.out := rfl
@[simp] theorem Dev.setFld_free (d : Dev) (f : Fld) (i v : Nat) : (d.setFld f i v).free = d.free := rfl

/-! `Dev.setFlag` changes `regs` alone. -/

@[simp] theorem Dev.setFlag_tick (d : Dev) (f : Fld) (i : Nat) (b : Bool) : (d.setFlag f i b).tick = d.tick := rfl
@[simp] theorem Dev.setFlag_clk (d : Dev) (f : Fld) (i : Nat) (b : Bool) : (d.setFlag f i b).clk = d.clk := rfl
@[simp] theorem Dev.setFlag_regw (d : Dev) (f : Fld) (i : Nat) (b : Bool) : (d.setFlag f i b).regw = d.regw := rfl
@[simp] theorem Dev.setFlag_mem (d : Dev) (f : Fld) (i : Nat) (b : Bool) : (d.setFlag f i b).mem = d.mem := rfl
@[simp] theorem Dev.setFlag_pool (d : Dev) (f : Fld) (i : Nat) (b : Bool) : (d.setFlag f i b).pool = d.pool := rfl
@[simp] theorem Dev.setFlag_que (d : Dev) (f : Fld) (i : Nat) (b : Bool) : (d.setFlag f i b).que = d.que := rfl
@[simp] theorem Dev.setFlag_ctl (d : Dev) (f : Fld) (i : Nat) (b : Bool) : (d.setFlag f i b).ctl = d.ctl := rfl
@[simp] theorem Dev.setFlag_rte (d : Dev) (f : Fld) (i : Nat) (b : Bool) : (d.setFlag f i b).rte = d.rte := rfl
@[simp] theorem Dev.setFlag_sch (d : Dev) (f : Fld) (i : Nat) (b : Bool) : (d.setFlag f i b).sch = d.sch := rfl
@[simp] theorem Dev.setFlag_ses (d : Dev) (f : Fld) (i : Nat) (b : Bool) : (d.setFlag f i b).ses = d.ses := rfl
@[simp] theorem Dev.setFlag_dru (d : Dev) (f : Fld) (i : Nat) (b : Bool) : (d.setFlag f i b).dru = d.dru := rfl
@[simp] theorem Dev.setFlag_spn (d : Dev) (f : Fld) (i : Nat) (b : Bool) : (d.setFlag f i b).spn = d.spn := rfl
@[simp] theorem Dev.setFlag_tp (d : Dev) (f : Fld) (i : Nat) (b : Bool) : (d.setFlag f i b).tp = d.tp := rfl
@[simp] theorem Dev.setFlag_wr (d : Dev) (f : Fld) (i : Nat) (b : Bool) : (d.setFlag f i b).wr = d.wr := rfl
@[simp] theorem Dev.setFlag_rd (d : Dev) (f : Fld) (i : Nat) (b : Bool) : (d.setFlag f i b).rd = d.rd := rfl
@[simp] theorem Dev.setFlag_mot (d : Dev) (f : Fld) (i : Nat) (b : Bool) : (d.setFlag f i b).mot = d.mot := rfl
@[simp] theorem Dev.setFlag_fab (d : Dev) (f : Fld) (i : Nat) (b : Bool) : (d.setFlag f i b).fab = d.fab := rfl
@[simp] theorem Dev.setFlag_pair (d : Dev) (f : Fld) (i : Nat) (b : Bool) : (d.setFlag f i b).pair = d.pair := rfl
@[simp] theorem Dev.setFlag_eth (d : Dev) (f : Fld) (i : Nat) (b : Bool) : (d.setFlag f i b).eth = d.eth := rfl
@[simp] theorem Dev.setFlag_hlt (d : Dev) (f : Fld) (i : Nat) (b : Bool) : (d.setFlag f i b).hlt = d.hlt := rfl
@[simp] theorem Dev.setFlag_age (d : Dev) (f : Fld) (i : Nat) (b : Bool) : (d.setFlag f i b).age = d.age := rfl
@[simp] theorem Dev.setFlag_pins (d : Dev) (f : Fld) (i : Nat) (b : Bool) : (d.setFlag f i b).pins = d.pins := rfl
@[simp] theorem Dev.setFlag_ovr (d : Dev) (f : Fld) (i : Nat) (b : Bool) : (d.setFlag f i b).ovr = d.ovr := rfl
@[simp] theorem Dev.setFlag_out (d : Dev) (f : Fld) (i : Nat) (b : Bool) : (d.setFlag f i b).out = d.out := rfl
@[simp] theorem Dev.setFlag_free (d : Dev) (f : Fld) (i : Nat) (b : Bool) : (d.setFlag f i b).free = d.free := rfl

/-! `Dev.bump` changes `regs` alone. -/

@[simp] theorem Dev.bump_tick (d : Dev) (f : Fld) (i n : Nat) : (d.bump f i n).tick = d.tick := rfl
@[simp] theorem Dev.bump_clk (d : Dev) (f : Fld) (i n : Nat) : (d.bump f i n).clk = d.clk := rfl
@[simp] theorem Dev.bump_regw (d : Dev) (f : Fld) (i n : Nat) : (d.bump f i n).regw = d.regw := rfl
@[simp] theorem Dev.bump_mem (d : Dev) (f : Fld) (i n : Nat) : (d.bump f i n).mem = d.mem := rfl
@[simp] theorem Dev.bump_pool (d : Dev) (f : Fld) (i n : Nat) : (d.bump f i n).pool = d.pool := rfl
@[simp] theorem Dev.bump_que (d : Dev) (f : Fld) (i n : Nat) : (d.bump f i n).que = d.que := rfl
@[simp] theorem Dev.bump_ctl (d : Dev) (f : Fld) (i n : Nat) : (d.bump f i n).ctl = d.ctl := rfl
@[simp] theorem Dev.bump_rte (d : Dev) (f : Fld) (i n : Nat) : (d.bump f i n).rte = d.rte := rfl
@[simp] theorem Dev.bump_sch (d : Dev) (f : Fld) (i n : Nat) : (d.bump f i n).sch = d.sch := rfl
@[simp] theorem Dev.bump_ses (d : Dev) (f : Fld) (i n : Nat) : (d.bump f i n).ses = d.ses := rfl
@[simp] theorem Dev.bump_dru (d : Dev) (f : Fld) (i n : Nat) : (d.bump f i n).dru = d.dru := rfl
@[simp] theorem Dev.bump_spn (d : Dev) (f : Fld) (i n : Nat) : (d.bump f i n).spn = d.spn := rfl
@[simp] theorem Dev.bump_tp (d : Dev) (f : Fld) (i n : Nat) : (d.bump f i n).tp = d.tp := rfl
@[simp] theorem Dev.bump_wr (d : Dev) (f : Fld) (i n : Nat) : (d.bump f i n).wr = d.wr := rfl
@[simp] theorem Dev.bump_rd (d : Dev) (f : Fld) (i n : Nat) : (d.bump f i n).rd = d.rd := rfl
@[simp] theorem Dev.bump_mot (d : Dev) (f : Fld) (i n : Nat) : (d.bump f i n).mot = d.mot := rfl
@[simp] theorem Dev.bump_fab (d : Dev) (f : Fld) (i n : Nat) : (d.bump f i n).fab = d.fab := rfl
@[simp] theorem Dev.bump_pair (d : Dev) (f : Fld) (i n : Nat) : (d.bump f i n).pair = d.pair := rfl
@[simp] theorem Dev.bump_eth (d : Dev) (f : Fld) (i n : Nat) : (d.bump f i n).eth = d.eth := rfl
@[simp] theorem Dev.bump_hlt (d : Dev) (f : Fld) (i n : Nat) : (d.bump f i n).hlt = d.hlt := rfl
@[simp] theorem Dev.bump_age (d : Dev) (f : Fld) (i n : Nat) : (d.bump f i n).age = d.age := rfl
@[simp] theorem Dev.bump_pins (d : Dev) (f : Fld) (i n : Nat) : (d.bump f i n).pins = d.pins := rfl
@[simp] theorem Dev.bump_ovr (d : Dev) (f : Fld) (i n : Nat) : (d.bump f i n).ovr = d.ovr := rfl
@[simp] theorem Dev.bump_out (d : Dev) (f : Fld) (i n : Nat) : (d.bump f i n).out = d.out := rfl
@[simp] theorem Dev.bump_free (d : Dev) (f : Fld) (i n : Nat) : (d.bump f i n).free = d.free := rfl

/-! `Dev.queueWrite` changes `regw` alone. -/

@[simp] theorem Dev.queueWrite_tick (d : Dev) (off : Nat) (v : Word32) : (d.queueWrite off v).tick = d.tick := rfl
@[simp] theorem Dev.queueWrite_clk (d : Dev) (off : Nat) (v : Word32) : (d.queueWrite off v).clk = d.clk := rfl
@[simp] theorem Dev.queueWrite_regs (d : Dev) (off : Nat) (v : Word32) : (d.queueWrite off v).regs = d.regs := rfl
@[simp] theorem Dev.queueWrite_mem (d : Dev) (off : Nat) (v : Word32) : (d.queueWrite off v).mem = d.mem := rfl
@[simp] theorem Dev.queueWrite_pool (d : Dev) (off : Nat) (v : Word32) : (d.queueWrite off v).pool = d.pool := rfl
@[simp] theorem Dev.queueWrite_que (d : Dev) (off : Nat) (v : Word32) : (d.queueWrite off v).que = d.que := rfl
@[simp] theorem Dev.queueWrite_ctl (d : Dev) (off : Nat) (v : Word32) : (d.queueWrite off v).ctl = d.ctl := rfl
@[simp] theorem Dev.queueWrite_rte (d : Dev) (off : Nat) (v : Word32) : (d.queueWrite off v).rte = d.rte := rfl
@[simp] theorem Dev.queueWrite_sch (d : Dev) (off : Nat) (v : Word32) : (d.queueWrite off v).sch = d.sch := rfl
@[simp] theorem Dev.queueWrite_ses (d : Dev) (off : Nat) (v : Word32) : (d.queueWrite off v).ses = d.ses := rfl
@[simp] theorem Dev.queueWrite_dru (d : Dev) (off : Nat) (v : Word32) : (d.queueWrite off v).dru = d.dru := rfl
@[simp] theorem Dev.queueWrite_spn (d : Dev) (off : Nat) (v : Word32) : (d.queueWrite off v).spn = d.spn := rfl
@[simp] theorem Dev.queueWrite_tp (d : Dev) (off : Nat) (v : Word32) : (d.queueWrite off v).tp = d.tp := rfl
@[simp] theorem Dev.queueWrite_wr (d : Dev) (off : Nat) (v : Word32) : (d.queueWrite off v).wr = d.wr := rfl
@[simp] theorem Dev.queueWrite_rd (d : Dev) (off : Nat) (v : Word32) : (d.queueWrite off v).rd = d.rd := rfl
@[simp] theorem Dev.queueWrite_mot (d : Dev) (off : Nat) (v : Word32) : (d.queueWrite off v).mot = d.mot := rfl
@[simp] theorem Dev.queueWrite_fab (d : Dev) (off : Nat) (v : Word32) : (d.queueWrite off v).fab = d.fab := rfl
@[simp] theorem Dev.queueWrite_pair (d : Dev) (off : Nat) (v : Word32) : (d.queueWrite off v).pair = d.pair := rfl
@[simp] theorem Dev.queueWrite_eth (d : Dev) (off : Nat) (v : Word32) : (d.queueWrite off v).eth = d.eth := rfl
@[simp] theorem Dev.queueWrite_hlt (d : Dev) (off : Nat) (v : Word32) : (d.queueWrite off v).hlt = d.hlt := rfl
@[simp] theorem Dev.queueWrite_age (d : Dev) (off : Nat) (v : Word32) : (d.queueWrite off v).age = d.age := rfl
@[simp] theorem Dev.queueWrite_pins (d : Dev) (off : Nat) (v : Word32) : (d.queueWrite off v).pins = d.pins := rfl
@[simp] theorem Dev.queueWrite_ovr (d : Dev) (off : Nat) (v : Word32) : (d.queueWrite off v).ovr = d.ovr := rfl
@[simp] theorem Dev.queueWrite_out (d : Dev) (off : Nat) (v : Word32) : (d.queueWrite off v).out = d.out := rfl
@[simp] theorem Dev.queueWrite_free (d : Dev) (off : Nat) (v : Word32) : (d.queueWrite off v).free = d.free := rfl

/-! `Dev.spend` changes `free` alone. -/

@[simp] theorem Dev.spend_tick (d : Dev) (n : Nat) : (d.spend n).tick = d.tick := rfl
@[simp] theorem Dev.spend_clk (d : Dev) (n : Nat) : (d.spend n).clk = d.clk := rfl
@[simp] theorem Dev.spend_regs (d : Dev) (n : Nat) : (d.spend n).regs = d.regs := rfl
@[simp] theorem Dev.spend_regw (d : Dev) (n : Nat) : (d.spend n).regw = d.regw := rfl
@[simp] theorem Dev.spend_mem (d : Dev) (n : Nat) : (d.spend n).mem = d.mem := rfl
@[simp] theorem Dev.spend_pool (d : Dev) (n : Nat) : (d.spend n).pool = d.pool := rfl
@[simp] theorem Dev.spend_que (d : Dev) (n : Nat) : (d.spend n).que = d.que := rfl
@[simp] theorem Dev.spend_ctl (d : Dev) (n : Nat) : (d.spend n).ctl = d.ctl := rfl
@[simp] theorem Dev.spend_rte (d : Dev) (n : Nat) : (d.spend n).rte = d.rte := rfl
@[simp] theorem Dev.spend_sch (d : Dev) (n : Nat) : (d.spend n).sch = d.sch := rfl
@[simp] theorem Dev.spend_ses (d : Dev) (n : Nat) : (d.spend n).ses = d.ses := rfl
@[simp] theorem Dev.spend_dru (d : Dev) (n : Nat) : (d.spend n).dru = d.dru := rfl
@[simp] theorem Dev.spend_spn (d : Dev) (n : Nat) : (d.spend n).spn = d.spn := rfl
@[simp] theorem Dev.spend_tp (d : Dev) (n : Nat) : (d.spend n).tp = d.tp := rfl
@[simp] theorem Dev.spend_wr (d : Dev) (n : Nat) : (d.spend n).wr = d.wr := rfl
@[simp] theorem Dev.spend_rd (d : Dev) (n : Nat) : (d.spend n).rd = d.rd := rfl
@[simp] theorem Dev.spend_mot (d : Dev) (n : Nat) : (d.spend n).mot = d.mot := rfl
@[simp] theorem Dev.spend_fab (d : Dev) (n : Nat) : (d.spend n).fab = d.fab := rfl
@[simp] theorem Dev.spend_pair (d : Dev) (n : Nat) : (d.spend n).pair = d.pair := rfl
@[simp] theorem Dev.spend_eth (d : Dev) (n : Nat) : (d.spend n).eth = d.eth := rfl
@[simp] theorem Dev.spend_hlt (d : Dev) (n : Nat) : (d.spend n).hlt = d.hlt := rfl
@[simp] theorem Dev.spend_age (d : Dev) (n : Nat) : (d.spend n).age = d.age := rfl
@[simp] theorem Dev.spend_pins (d : Dev) (n : Nat) : (d.spend n).pins = d.pins := rfl
@[simp] theorem Dev.spend_ovr (d : Dev) (n : Nat) : (d.spend n).ovr = d.ovr := rfl
@[simp] theorem Dev.spend_out (d : Dev) (n : Nat) : (d.spend n).out = d.out := rfl

/-! `Dev.emit` changes `out` alone. -/

@[simp] theorem Dev.emit_tick (d : Dev) (o : Out) : (d.emit o).tick = d.tick := rfl
@[simp] theorem Dev.emit_clk (d : Dev) (o : Out) : (d.emit o).clk = d.clk := rfl
@[simp] theorem Dev.emit_regs (d : Dev) (o : Out) : (d.emit o).regs = d.regs := rfl
@[simp] theorem Dev.emit_regw (d : Dev) (o : Out) : (d.emit o).regw = d.regw := rfl
@[simp] theorem Dev.emit_mem (d : Dev) (o : Out) : (d.emit o).mem = d.mem := rfl
@[simp] theorem Dev.emit_pool (d : Dev) (o : Out) : (d.emit o).pool = d.pool := rfl
@[simp] theorem Dev.emit_que (d : Dev) (o : Out) : (d.emit o).que = d.que := rfl
@[simp] theorem Dev.emit_ctl (d : Dev) (o : Out) : (d.emit o).ctl = d.ctl := rfl
@[simp] theorem Dev.emit_rte (d : Dev) (o : Out) : (d.emit o).rte = d.rte := rfl
@[simp] theorem Dev.emit_sch (d : Dev) (o : Out) : (d.emit o).sch = d.sch := rfl
@[simp] theorem Dev.emit_ses (d : Dev) (o : Out) : (d.emit o).ses = d.ses := rfl
@[simp] theorem Dev.emit_dru (d : Dev) (o : Out) : (d.emit o).dru = d.dru := rfl
@[simp] theorem Dev.emit_spn (d : Dev) (o : Out) : (d.emit o).spn = d.spn := rfl
@[simp] theorem Dev.emit_tp (d : Dev) (o : Out) : (d.emit o).tp = d.tp := rfl
@[simp] theorem Dev.emit_wr (d : Dev) (o : Out) : (d.emit o).wr = d.wr := rfl
@[simp] theorem Dev.emit_rd (d : Dev) (o : Out) : (d.emit o).rd = d.rd := rfl
@[simp] theorem Dev.emit_mot (d : Dev) (o : Out) : (d.emit o).mot = d.mot := rfl
@[simp] theorem Dev.emit_fab (d : Dev) (o : Out) : (d.emit o).fab = d.fab := rfl
@[simp] theorem Dev.emit_pair (d : Dev) (o : Out) : (d.emit o).pair = d.pair := rfl
@[simp] theorem Dev.emit_eth (d : Dev) (o : Out) : (d.emit o).eth = d.eth := rfl
@[simp] theorem Dev.emit_hlt (d : Dev) (o : Out) : (d.emit o).hlt = d.hlt := rfl
@[simp] theorem Dev.emit_age (d : Dev) (o : Out) : (d.emit o).age = d.age := rfl
@[simp] theorem Dev.emit_pins (d : Dev) (o : Out) : (d.emit o).pins = d.pins := rfl
@[simp] theorem Dev.emit_ovr (d : Dev) (o : Out) : (d.emit o).ovr = d.ovr := rfl
@[simp] theorem Dev.emit_free (d : Dev) (o : Out) : (d.emit o).free = d.free := rfl

/-! `Dev.modTp` changes `tp` alone. -/

@[simp] theorem Dev.modTp_tick (d : Dev) (n : Nat) (f : Tp → Tp) : (d.modTp n f).tick = d.tick := rfl
@[simp] theorem Dev.modTp_clk (d : Dev) (n : Nat) (f : Tp → Tp) : (d.modTp n f).clk = d.clk := rfl
@[simp] theorem Dev.modTp_regs (d : Dev) (n : Nat) (f : Tp → Tp) : (d.modTp n f).regs = d.regs := rfl
@[simp] theorem Dev.modTp_regw (d : Dev) (n : Nat) (f : Tp → Tp) : (d.modTp n f).regw = d.regw := rfl
@[simp] theorem Dev.modTp_mem (d : Dev) (n : Nat) (f : Tp → Tp) : (d.modTp n f).mem = d.mem := rfl
@[simp] theorem Dev.modTp_pool (d : Dev) (n : Nat) (f : Tp → Tp) : (d.modTp n f).pool = d.pool := rfl
@[simp] theorem Dev.modTp_que (d : Dev) (n : Nat) (f : Tp → Tp) : (d.modTp n f).que = d.que := rfl
@[simp] theorem Dev.modTp_ctl (d : Dev) (n : Nat) (f : Tp → Tp) : (d.modTp n f).ctl = d.ctl := rfl
@[simp] theorem Dev.modTp_rte (d : Dev) (n : Nat) (f : Tp → Tp) : (d.modTp n f).rte = d.rte := rfl
@[simp] theorem Dev.modTp_sch (d : Dev) (n : Nat) (f : Tp → Tp) : (d.modTp n f).sch = d.sch := rfl
@[simp] theorem Dev.modTp_ses (d : Dev) (n : Nat) (f : Tp → Tp) : (d.modTp n f).ses = d.ses := rfl
@[simp] theorem Dev.modTp_dru (d : Dev) (n : Nat) (f : Tp → Tp) : (d.modTp n f).dru = d.dru := rfl
@[simp] theorem Dev.modTp_spn (d : Dev) (n : Nat) (f : Tp → Tp) : (d.modTp n f).spn = d.spn := rfl
@[simp] theorem Dev.modTp_wr (d : Dev) (n : Nat) (f : Tp → Tp) : (d.modTp n f).wr = d.wr := rfl
@[simp] theorem Dev.modTp_rd (d : Dev) (n : Nat) (f : Tp → Tp) : (d.modTp n f).rd = d.rd := rfl
@[simp] theorem Dev.modTp_mot (d : Dev) (n : Nat) (f : Tp → Tp) : (d.modTp n f).mot = d.mot := rfl
@[simp] theorem Dev.modTp_fab (d : Dev) (n : Nat) (f : Tp → Tp) : (d.modTp n f).fab = d.fab := rfl
@[simp] theorem Dev.modTp_pair (d : Dev) (n : Nat) (f : Tp → Tp) : (d.modTp n f).pair = d.pair := rfl
@[simp] theorem Dev.modTp_eth (d : Dev) (n : Nat) (f : Tp → Tp) : (d.modTp n f).eth = d.eth := rfl
@[simp] theorem Dev.modTp_hlt (d : Dev) (n : Nat) (f : Tp → Tp) : (d.modTp n f).hlt = d.hlt := rfl
@[simp] theorem Dev.modTp_age (d : Dev) (n : Nat) (f : Tp → Tp) : (d.modTp n f).age = d.age := rfl
@[simp] theorem Dev.modTp_pins (d : Dev) (n : Nat) (f : Tp → Tp) : (d.modTp n f).pins = d.pins := rfl
@[simp] theorem Dev.modTp_ovr (d : Dev) (n : Nat) (f : Tp → Tp) : (d.modTp n f).ovr = d.ovr := rfl
@[simp] theorem Dev.modTp_out (d : Dev) (n : Nat) (f : Tp → Tp) : (d.modTp n f).out = d.out := rfl
@[simp] theorem Dev.modTp_free (d : Dev) (n : Nat) (f : Tp → Tp) : (d.modTp n f).free = d.free := rfl

/-! `Dev.modWr` changes `wr` alone. -/

@[simp] theorem Dev.modWr_tick (d : Dev) (n : Nat) (f : Wr → Wr) : (d.modWr n f).tick = d.tick := rfl
@[simp] theorem Dev.modWr_clk (d : Dev) (n : Nat) (f : Wr → Wr) : (d.modWr n f).clk = d.clk := rfl
@[simp] theorem Dev.modWr_regs (d : Dev) (n : Nat) (f : Wr → Wr) : (d.modWr n f).regs = d.regs := rfl
@[simp] theorem Dev.modWr_regw (d : Dev) (n : Nat) (f : Wr → Wr) : (d.modWr n f).regw = d.regw := rfl
@[simp] theorem Dev.modWr_mem (d : Dev) (n : Nat) (f : Wr → Wr) : (d.modWr n f).mem = d.mem := rfl
@[simp] theorem Dev.modWr_pool (d : Dev) (n : Nat) (f : Wr → Wr) : (d.modWr n f).pool = d.pool := rfl
@[simp] theorem Dev.modWr_que (d : Dev) (n : Nat) (f : Wr → Wr) : (d.modWr n f).que = d.que := rfl
@[simp] theorem Dev.modWr_ctl (d : Dev) (n : Nat) (f : Wr → Wr) : (d.modWr n f).ctl = d.ctl := rfl
@[simp] theorem Dev.modWr_rte (d : Dev) (n : Nat) (f : Wr → Wr) : (d.modWr n f).rte = d.rte := rfl
@[simp] theorem Dev.modWr_sch (d : Dev) (n : Nat) (f : Wr → Wr) : (d.modWr n f).sch = d.sch := rfl
@[simp] theorem Dev.modWr_ses (d : Dev) (n : Nat) (f : Wr → Wr) : (d.modWr n f).ses = d.ses := rfl
@[simp] theorem Dev.modWr_dru (d : Dev) (n : Nat) (f : Wr → Wr) : (d.modWr n f).dru = d.dru := rfl
@[simp] theorem Dev.modWr_spn (d : Dev) (n : Nat) (f : Wr → Wr) : (d.modWr n f).spn = d.spn := rfl
@[simp] theorem Dev.modWr_tp (d : Dev) (n : Nat) (f : Wr → Wr) : (d.modWr n f).tp = d.tp := rfl
@[simp] theorem Dev.modWr_rd (d : Dev) (n : Nat) (f : Wr → Wr) : (d.modWr n f).rd = d.rd := rfl
@[simp] theorem Dev.modWr_mot (d : Dev) (n : Nat) (f : Wr → Wr) : (d.modWr n f).mot = d.mot := rfl
@[simp] theorem Dev.modWr_fab (d : Dev) (n : Nat) (f : Wr → Wr) : (d.modWr n f).fab = d.fab := rfl
@[simp] theorem Dev.modWr_pair (d : Dev) (n : Nat) (f : Wr → Wr) : (d.modWr n f).pair = d.pair := rfl
@[simp] theorem Dev.modWr_eth (d : Dev) (n : Nat) (f : Wr → Wr) : (d.modWr n f).eth = d.eth := rfl
@[simp] theorem Dev.modWr_hlt (d : Dev) (n : Nat) (f : Wr → Wr) : (d.modWr n f).hlt = d.hlt := rfl
@[simp] theorem Dev.modWr_age (d : Dev) (n : Nat) (f : Wr → Wr) : (d.modWr n f).age = d.age := rfl
@[simp] theorem Dev.modWr_pins (d : Dev) (n : Nat) (f : Wr → Wr) : (d.modWr n f).pins = d.pins := rfl
@[simp] theorem Dev.modWr_ovr (d : Dev) (n : Nat) (f : Wr → Wr) : (d.modWr n f).ovr = d.ovr := rfl
@[simp] theorem Dev.modWr_out (d : Dev) (n : Nat) (f : Wr → Wr) : (d.modWr n f).out = d.out := rfl
@[simp] theorem Dev.modWr_free (d : Dev) (n : Nat) (f : Wr → Wr) : (d.modWr n f).free = d.free := rfl

/-! `Dev.modRd` changes `rd` alone. -/

@[simp] theorem Dev.modRd_tick (d : Dev) (n : Nat) (f : Rd → Rd) : (d.modRd n f).tick = d.tick := rfl
@[simp] theorem Dev.modRd_clk (d : Dev) (n : Nat) (f : Rd → Rd) : (d.modRd n f).clk = d.clk := rfl
@[simp] theorem Dev.modRd_regs (d : Dev) (n : Nat) (f : Rd → Rd) : (d.modRd n f).regs = d.regs := rfl
@[simp] theorem Dev.modRd_regw (d : Dev) (n : Nat) (f : Rd → Rd) : (d.modRd n f).regw = d.regw := rfl
@[simp] theorem Dev.modRd_mem (d : Dev) (n : Nat) (f : Rd → Rd) : (d.modRd n f).mem = d.mem := rfl
@[simp] theorem Dev.modRd_pool (d : Dev) (n : Nat) (f : Rd → Rd) : (d.modRd n f).pool = d.pool := rfl
@[simp] theorem Dev.modRd_que (d : Dev) (n : Nat) (f : Rd → Rd) : (d.modRd n f).que = d.que := rfl
@[simp] theorem Dev.modRd_ctl (d : Dev) (n : Nat) (f : Rd → Rd) : (d.modRd n f).ctl = d.ctl := rfl
@[simp] theorem Dev.modRd_rte (d : Dev) (n : Nat) (f : Rd → Rd) : (d.modRd n f).rte = d.rte := rfl
@[simp] theorem Dev.modRd_sch (d : Dev) (n : Nat) (f : Rd → Rd) : (d.modRd n f).sch = d.sch := rfl
@[simp] theorem Dev.modRd_ses (d : Dev) (n : Nat) (f : Rd → Rd) : (d.modRd n f).ses = d.ses := rfl
@[simp] theorem Dev.modRd_dru (d : Dev) (n : Nat) (f : Rd → Rd) : (d.modRd n f).dru = d.dru := rfl
@[simp] theorem Dev.modRd_spn (d : Dev) (n : Nat) (f : Rd → Rd) : (d.modRd n f).spn = d.spn := rfl
@[simp] theorem Dev.modRd_tp (d : Dev) (n : Nat) (f : Rd → Rd) : (d.modRd n f).tp = d.tp := rfl
@[simp] theorem Dev.modRd_wr (d : Dev) (n : Nat) (f : Rd → Rd) : (d.modRd n f).wr = d.wr := rfl
@[simp] theorem Dev.modRd_mot (d : Dev) (n : Nat) (f : Rd → Rd) : (d.modRd n f).mot = d.mot := rfl
@[simp] theorem Dev.modRd_fab (d : Dev) (n : Nat) (f : Rd → Rd) : (d.modRd n f).fab = d.fab := rfl
@[simp] theorem Dev.modRd_pair (d : Dev) (n : Nat) (f : Rd → Rd) : (d.modRd n f).pair = d.pair := rfl
@[simp] theorem Dev.modRd_eth (d : Dev) (n : Nat) (f : Rd → Rd) : (d.modRd n f).eth = d.eth := rfl
@[simp] theorem Dev.modRd_hlt (d : Dev) (n : Nat) (f : Rd → Rd) : (d.modRd n f).hlt = d.hlt := rfl
@[simp] theorem Dev.modRd_age (d : Dev) (n : Nat) (f : Rd → Rd) : (d.modRd n f).age = d.age := rfl
@[simp] theorem Dev.modRd_pins (d : Dev) (n : Nat) (f : Rd → Rd) : (d.modRd n f).pins = d.pins := rfl
@[simp] theorem Dev.modRd_ovr (d : Dev) (n : Nat) (f : Rd → Rd) : (d.modRd n f).ovr = d.ovr := rfl
@[simp] theorem Dev.modRd_out (d : Dev) (n : Nat) (f : Rd → Rd) : (d.modRd n f).out = d.out := rfl
@[simp] theorem Dev.modRd_free (d : Dev) (n : Nat) (f : Rd → Rd) : (d.modRd n f).free = d.free := rfl

/-! `Dev.modMot` changes `mot` alone. -/

@[simp] theorem Dev.modMot_tick (d : Dev) (n : Nat) (f : Mot → Mot) : (d.modMot n f).tick = d.tick := rfl
@[simp] theorem Dev.modMot_clk (d : Dev) (n : Nat) (f : Mot → Mot) : (d.modMot n f).clk = d.clk := rfl
@[simp] theorem Dev.modMot_regs (d : Dev) (n : Nat) (f : Mot → Mot) : (d.modMot n f).regs = d.regs := rfl
@[simp] theorem Dev.modMot_regw (d : Dev) (n : Nat) (f : Mot → Mot) : (d.modMot n f).regw = d.regw := rfl
@[simp] theorem Dev.modMot_mem (d : Dev) (n : Nat) (f : Mot → Mot) : (d.modMot n f).mem = d.mem := rfl
@[simp] theorem Dev.modMot_pool (d : Dev) (n : Nat) (f : Mot → Mot) : (d.modMot n f).pool = d.pool := rfl
@[simp] theorem Dev.modMot_que (d : Dev) (n : Nat) (f : Mot → Mot) : (d.modMot n f).que = d.que := rfl
@[simp] theorem Dev.modMot_ctl (d : Dev) (n : Nat) (f : Mot → Mot) : (d.modMot n f).ctl = d.ctl := rfl
@[simp] theorem Dev.modMot_rte (d : Dev) (n : Nat) (f : Mot → Mot) : (d.modMot n f).rte = d.rte := rfl
@[simp] theorem Dev.modMot_sch (d : Dev) (n : Nat) (f : Mot → Mot) : (d.modMot n f).sch = d.sch := rfl
@[simp] theorem Dev.modMot_ses (d : Dev) (n : Nat) (f : Mot → Mot) : (d.modMot n f).ses = d.ses := rfl
@[simp] theorem Dev.modMot_dru (d : Dev) (n : Nat) (f : Mot → Mot) : (d.modMot n f).dru = d.dru := rfl
@[simp] theorem Dev.modMot_spn (d : Dev) (n : Nat) (f : Mot → Mot) : (d.modMot n f).spn = d.spn := rfl
@[simp] theorem Dev.modMot_tp (d : Dev) (n : Nat) (f : Mot → Mot) : (d.modMot n f).tp = d.tp := rfl
@[simp] theorem Dev.modMot_wr (d : Dev) (n : Nat) (f : Mot → Mot) : (d.modMot n f).wr = d.wr := rfl
@[simp] theorem Dev.modMot_rd (d : Dev) (n : Nat) (f : Mot → Mot) : (d.modMot n f).rd = d.rd := rfl
@[simp] theorem Dev.modMot_fab (d : Dev) (n : Nat) (f : Mot → Mot) : (d.modMot n f).fab = d.fab := rfl
@[simp] theorem Dev.modMot_pair (d : Dev) (n : Nat) (f : Mot → Mot) : (d.modMot n f).pair = d.pair := rfl
@[simp] theorem Dev.modMot_eth (d : Dev) (n : Nat) (f : Mot → Mot) : (d.modMot n f).eth = d.eth := rfl
@[simp] theorem Dev.modMot_hlt (d : Dev) (n : Nat) (f : Mot → Mot) : (d.modMot n f).hlt = d.hlt := rfl
@[simp] theorem Dev.modMot_age (d : Dev) (n : Nat) (f : Mot → Mot) : (d.modMot n f).age = d.age := rfl
@[simp] theorem Dev.modMot_pins (d : Dev) (n : Nat) (f : Mot → Mot) : (d.modMot n f).pins = d.pins := rfl
@[simp] theorem Dev.modMot_ovr (d : Dev) (n : Nat) (f : Mot → Mot) : (d.modMot n f).ovr = d.ovr := rfl
@[simp] theorem Dev.modMot_out (d : Dev) (n : Nat) (f : Mot → Mot) : (d.modMot n f).out = d.out := rfl
@[simp] theorem Dev.modMot_free (d : Dev) (n : Nat) (f : Mot → Mot) : (d.modMot n f).free = d.free := rfl

/-! `Dev.modLink` changes `fab` alone. -/

@[simp] theorem Dev.modLink_tick (d : Dev) (n : Nat) (f : Link → Link) : (d.modLink n f).tick = d.tick := rfl
@[simp] theorem Dev.modLink_clk (d : Dev) (n : Nat) (f : Link → Link) : (d.modLink n f).clk = d.clk := rfl
@[simp] theorem Dev.modLink_regs (d : Dev) (n : Nat) (f : Link → Link) : (d.modLink n f).regs = d.regs := rfl
@[simp] theorem Dev.modLink_regw (d : Dev) (n : Nat) (f : Link → Link) : (d.modLink n f).regw = d.regw := rfl
@[simp] theorem Dev.modLink_mem (d : Dev) (n : Nat) (f : Link → Link) : (d.modLink n f).mem = d.mem := rfl
@[simp] theorem Dev.modLink_pool (d : Dev) (n : Nat) (f : Link → Link) : (d.modLink n f).pool = d.pool := rfl
@[simp] theorem Dev.modLink_que (d : Dev) (n : Nat) (f : Link → Link) : (d.modLink n f).que = d.que := rfl
@[simp] theorem Dev.modLink_ctl (d : Dev) (n : Nat) (f : Link → Link) : (d.modLink n f).ctl = d.ctl := rfl
@[simp] theorem Dev.modLink_rte (d : Dev) (n : Nat) (f : Link → Link) : (d.modLink n f).rte = d.rte := rfl
@[simp] theorem Dev.modLink_sch (d : Dev) (n : Nat) (f : Link → Link) : (d.modLink n f).sch = d.sch := rfl
@[simp] theorem Dev.modLink_ses (d : Dev) (n : Nat) (f : Link → Link) : (d.modLink n f).ses = d.ses := rfl
@[simp] theorem Dev.modLink_dru (d : Dev) (n : Nat) (f : Link → Link) : (d.modLink n f).dru = d.dru := rfl
@[simp] theorem Dev.modLink_spn (d : Dev) (n : Nat) (f : Link → Link) : (d.modLink n f).spn = d.spn := rfl
@[simp] theorem Dev.modLink_tp (d : Dev) (n : Nat) (f : Link → Link) : (d.modLink n f).tp = d.tp := rfl
@[simp] theorem Dev.modLink_wr (d : Dev) (n : Nat) (f : Link → Link) : (d.modLink n f).wr = d.wr := rfl
@[simp] theorem Dev.modLink_rd (d : Dev) (n : Nat) (f : Link → Link) : (d.modLink n f).rd = d.rd := rfl
@[simp] theorem Dev.modLink_mot (d : Dev) (n : Nat) (f : Link → Link) : (d.modLink n f).mot = d.mot := rfl
@[simp] theorem Dev.modLink_pair (d : Dev) (n : Nat) (f : Link → Link) : (d.modLink n f).pair = d.pair := rfl
@[simp] theorem Dev.modLink_eth (d : Dev) (n : Nat) (f : Link → Link) : (d.modLink n f).eth = d.eth := rfl
@[simp] theorem Dev.modLink_hlt (d : Dev) (n : Nat) (f : Link → Link) : (d.modLink n f).hlt = d.hlt := rfl
@[simp] theorem Dev.modLink_age (d : Dev) (n : Nat) (f : Link → Link) : (d.modLink n f).age = d.age := rfl
@[simp] theorem Dev.modLink_pins (d : Dev) (n : Nat) (f : Link → Link) : (d.modLink n f).pins = d.pins := rfl
@[simp] theorem Dev.modLink_ovr (d : Dev) (n : Nat) (f : Link → Link) : (d.modLink n f).ovr = d.ovr := rfl
@[simp] theorem Dev.modLink_out (d : Dev) (n : Nat) (f : Link → Link) : (d.modLink n f).out = d.out := rfl
@[simp] theorem Dev.modLink_free (d : Dev) (n : Nat) (f : Link → Link) : (d.modLink n f).free = d.free := rfl

/-! `Dev.modSpan` changes `spn` alone. -/

@[simp] theorem Dev.modSpan_tick (d : Dev) (s : Nat) (f : Span → Span) : (d.modSpan s f).tick = d.tick := rfl
@[simp] theorem Dev.modSpan_clk (d : Dev) (s : Nat) (f : Span → Span) : (d.modSpan s f).clk = d.clk := rfl
@[simp] theorem Dev.modSpan_regs (d : Dev) (s : Nat) (f : Span → Span) : (d.modSpan s f).regs = d.regs := rfl
@[simp] theorem Dev.modSpan_regw (d : Dev) (s : Nat) (f : Span → Span) : (d.modSpan s f).regw = d.regw := rfl
@[simp] theorem Dev.modSpan_mem (d : Dev) (s : Nat) (f : Span → Span) : (d.modSpan s f).mem = d.mem := rfl
@[simp] theorem Dev.modSpan_pool (d : Dev) (s : Nat) (f : Span → Span) : (d.modSpan s f).pool = d.pool := rfl
@[simp] theorem Dev.modSpan_que (d : Dev) (s : Nat) (f : Span → Span) : (d.modSpan s f).que = d.que := rfl
@[simp] theorem Dev.modSpan_ctl (d : Dev) (s : Nat) (f : Span → Span) : (d.modSpan s f).ctl = d.ctl := rfl
@[simp] theorem Dev.modSpan_rte (d : Dev) (s : Nat) (f : Span → Span) : (d.modSpan s f).rte = d.rte := rfl
@[simp] theorem Dev.modSpan_sch (d : Dev) (s : Nat) (f : Span → Span) : (d.modSpan s f).sch = d.sch := rfl
@[simp] theorem Dev.modSpan_ses (d : Dev) (s : Nat) (f : Span → Span) : (d.modSpan s f).ses = d.ses := rfl
@[simp] theorem Dev.modSpan_dru (d : Dev) (s : Nat) (f : Span → Span) : (d.modSpan s f).dru = d.dru := rfl
@[simp] theorem Dev.modSpan_tp (d : Dev) (s : Nat) (f : Span → Span) : (d.modSpan s f).tp = d.tp := rfl
@[simp] theorem Dev.modSpan_wr (d : Dev) (s : Nat) (f : Span → Span) : (d.modSpan s f).wr = d.wr := rfl
@[simp] theorem Dev.modSpan_rd (d : Dev) (s : Nat) (f : Span → Span) : (d.modSpan s f).rd = d.rd := rfl
@[simp] theorem Dev.modSpan_mot (d : Dev) (s : Nat) (f : Span → Span) : (d.modSpan s f).mot = d.mot := rfl
@[simp] theorem Dev.modSpan_fab (d : Dev) (s : Nat) (f : Span → Span) : (d.modSpan s f).fab = d.fab := rfl
@[simp] theorem Dev.modSpan_pair (d : Dev) (s : Nat) (f : Span → Span) : (d.modSpan s f).pair = d.pair := rfl
@[simp] theorem Dev.modSpan_eth (d : Dev) (s : Nat) (f : Span → Span) : (d.modSpan s f).eth = d.eth := rfl
@[simp] theorem Dev.modSpan_hlt (d : Dev) (s : Nat) (f : Span → Span) : (d.modSpan s f).hlt = d.hlt := rfl
@[simp] theorem Dev.modSpan_age (d : Dev) (s : Nat) (f : Span → Span) : (d.modSpan s f).age = d.age := rfl
@[simp] theorem Dev.modSpan_pins (d : Dev) (s : Nat) (f : Span → Span) : (d.modSpan s f).pins = d.pins := rfl
@[simp] theorem Dev.modSpan_ovr (d : Dev) (s : Nat) (f : Span → Span) : (d.modSpan s f).ovr = d.ovr := rfl
@[simp] theorem Dev.modSpan_out (d : Dev) (s : Nat) (f : Span → Span) : (d.modSpan s f).out = d.out := rfl
@[simp] theorem Dev.modSpan_free (d : Dev) (s : Nat) (f : Span → Span) : (d.modSpan s f).free = d.free := rfl

/-! `Dev.modRing` changes `ctl` alone. -/

@[simp] theorem Dev.modRing_tick (d : Dev) (r : Nat) (f : Ring → Ring) : (d.modRing r f).tick = d.tick := rfl
@[simp] theorem Dev.modRing_clk (d : Dev) (r : Nat) (f : Ring → Ring) : (d.modRing r f).clk = d.clk := rfl
@[simp] theorem Dev.modRing_regs (d : Dev) (r : Nat) (f : Ring → Ring) : (d.modRing r f).regs = d.regs := rfl
@[simp] theorem Dev.modRing_regw (d : Dev) (r : Nat) (f : Ring → Ring) : (d.modRing r f).regw = d.regw := rfl
@[simp] theorem Dev.modRing_mem (d : Dev) (r : Nat) (f : Ring → Ring) : (d.modRing r f).mem = d.mem := rfl
@[simp] theorem Dev.modRing_pool (d : Dev) (r : Nat) (f : Ring → Ring) : (d.modRing r f).pool = d.pool := rfl
@[simp] theorem Dev.modRing_que (d : Dev) (r : Nat) (f : Ring → Ring) : (d.modRing r f).que = d.que := rfl
@[simp] theorem Dev.modRing_rte (d : Dev) (r : Nat) (f : Ring → Ring) : (d.modRing r f).rte = d.rte := rfl
@[simp] theorem Dev.modRing_sch (d : Dev) (r : Nat) (f : Ring → Ring) : (d.modRing r f).sch = d.sch := rfl
@[simp] theorem Dev.modRing_ses (d : Dev) (r : Nat) (f : Ring → Ring) : (d.modRing r f).ses = d.ses := rfl
@[simp] theorem Dev.modRing_dru (d : Dev) (r : Nat) (f : Ring → Ring) : (d.modRing r f).dru = d.dru := rfl
@[simp] theorem Dev.modRing_spn (d : Dev) (r : Nat) (f : Ring → Ring) : (d.modRing r f).spn = d.spn := rfl
@[simp] theorem Dev.modRing_tp (d : Dev) (r : Nat) (f : Ring → Ring) : (d.modRing r f).tp = d.tp := rfl
@[simp] theorem Dev.modRing_wr (d : Dev) (r : Nat) (f : Ring → Ring) : (d.modRing r f).wr = d.wr := rfl
@[simp] theorem Dev.modRing_rd (d : Dev) (r : Nat) (f : Ring → Ring) : (d.modRing r f).rd = d.rd := rfl
@[simp] theorem Dev.modRing_mot (d : Dev) (r : Nat) (f : Ring → Ring) : (d.modRing r f).mot = d.mot := rfl
@[simp] theorem Dev.modRing_fab (d : Dev) (r : Nat) (f : Ring → Ring) : (d.modRing r f).fab = d.fab := rfl
@[simp] theorem Dev.modRing_pair (d : Dev) (r : Nat) (f : Ring → Ring) : (d.modRing r f).pair = d.pair := rfl
@[simp] theorem Dev.modRing_eth (d : Dev) (r : Nat) (f : Ring → Ring) : (d.modRing r f).eth = d.eth := rfl
@[simp] theorem Dev.modRing_hlt (d : Dev) (r : Nat) (f : Ring → Ring) : (d.modRing r f).hlt = d.hlt := rfl
@[simp] theorem Dev.modRing_age (d : Dev) (r : Nat) (f : Ring → Ring) : (d.modRing r f).age = d.age := rfl
@[simp] theorem Dev.modRing_pins (d : Dev) (r : Nat) (f : Ring → Ring) : (d.modRing r f).pins = d.pins := rfl
@[simp] theorem Dev.modRing_ovr (d : Dev) (r : Nat) (f : Ring → Ring) : (d.modRing r f).ovr = d.ovr := rfl
@[simp] theorem Dev.modRing_out (d : Dev) (r : Nat) (f : Ring → Ring) : (d.modRing r f).out = d.out := rfl
@[simp] theorem Dev.modRing_free (d : Dev) (r : Nat) (f : Ring → Ring) : (d.modRing r f).free = d.free := rfl

/-! `Dev.modQue` changes `que` alone. -/

@[simp] theorem Dev.modQue_tick (d : Dev) (q : Nat) (f : QueSt → QueSt) : (d.modQue q f).tick = d.tick := rfl
@[simp] theorem Dev.modQue_clk (d : Dev) (q : Nat) (f : QueSt → QueSt) : (d.modQue q f).clk = d.clk := rfl
@[simp] theorem Dev.modQue_regs (d : Dev) (q : Nat) (f : QueSt → QueSt) : (d.modQue q f).regs = d.regs := rfl
@[simp] theorem Dev.modQue_regw (d : Dev) (q : Nat) (f : QueSt → QueSt) : (d.modQue q f).regw = d.regw := rfl
@[simp] theorem Dev.modQue_mem (d : Dev) (q : Nat) (f : QueSt → QueSt) : (d.modQue q f).mem = d.mem := rfl
@[simp] theorem Dev.modQue_pool (d : Dev) (q : Nat) (f : QueSt → QueSt) : (d.modQue q f).pool = d.pool := rfl
@[simp] theorem Dev.modQue_ctl (d : Dev) (q : Nat) (f : QueSt → QueSt) : (d.modQue q f).ctl = d.ctl := rfl
@[simp] theorem Dev.modQue_rte (d : Dev) (q : Nat) (f : QueSt → QueSt) : (d.modQue q f).rte = d.rte := rfl
@[simp] theorem Dev.modQue_sch (d : Dev) (q : Nat) (f : QueSt → QueSt) : (d.modQue q f).sch = d.sch := rfl
@[simp] theorem Dev.modQue_ses (d : Dev) (q : Nat) (f : QueSt → QueSt) : (d.modQue q f).ses = d.ses := rfl
@[simp] theorem Dev.modQue_dru (d : Dev) (q : Nat) (f : QueSt → QueSt) : (d.modQue q f).dru = d.dru := rfl
@[simp] theorem Dev.modQue_spn (d : Dev) (q : Nat) (f : QueSt → QueSt) : (d.modQue q f).spn = d.spn := rfl
@[simp] theorem Dev.modQue_tp (d : Dev) (q : Nat) (f : QueSt → QueSt) : (d.modQue q f).tp = d.tp := rfl
@[simp] theorem Dev.modQue_wr (d : Dev) (q : Nat) (f : QueSt → QueSt) : (d.modQue q f).wr = d.wr := rfl
@[simp] theorem Dev.modQue_rd (d : Dev) (q : Nat) (f : QueSt → QueSt) : (d.modQue q f).rd = d.rd := rfl
@[simp] theorem Dev.modQue_mot (d : Dev) (q : Nat) (f : QueSt → QueSt) : (d.modQue q f).mot = d.mot := rfl
@[simp] theorem Dev.modQue_fab (d : Dev) (q : Nat) (f : QueSt → QueSt) : (d.modQue q f).fab = d.fab := rfl
@[simp] theorem Dev.modQue_pair (d : Dev) (q : Nat) (f : QueSt → QueSt) : (d.modQue q f).pair = d.pair := rfl
@[simp] theorem Dev.modQue_eth (d : Dev) (q : Nat) (f : QueSt → QueSt) : (d.modQue q f).eth = d.eth := rfl
@[simp] theorem Dev.modQue_hlt (d : Dev) (q : Nat) (f : QueSt → QueSt) : (d.modQue q f).hlt = d.hlt := rfl
@[simp] theorem Dev.modQue_age (d : Dev) (q : Nat) (f : QueSt → QueSt) : (d.modQue q f).age = d.age := rfl
@[simp] theorem Dev.modQue_pins (d : Dev) (q : Nat) (f : QueSt → QueSt) : (d.modQue q f).pins = d.pins := rfl
@[simp] theorem Dev.modQue_ovr (d : Dev) (q : Nat) (f : QueSt → QueSt) : (d.modQue q f).ovr = d.ovr := rfl
@[simp] theorem Dev.modQue_out (d : Dev) (q : Nat) (f : QueSt → QueSt) : (d.modQue q f).out = d.out := rfl
@[simp] theorem Dev.modQue_free (d : Dev) (q : Nat) (f : QueSt → QueSt) : (d.modQue q f).free = d.free := rfl

/-! `Dev.modCmd` changes `rte` alone. -/

@[simp] theorem Dev.modCmd_tick (d : Dev) (c : Nat) (f : Cmd → Cmd) : (d.modCmd c f).tick = d.tick := rfl
@[simp] theorem Dev.modCmd_clk (d : Dev) (c : Nat) (f : Cmd → Cmd) : (d.modCmd c f).clk = d.clk := rfl
@[simp] theorem Dev.modCmd_regs (d : Dev) (c : Nat) (f : Cmd → Cmd) : (d.modCmd c f).regs = d.regs := rfl
@[simp] theorem Dev.modCmd_regw (d : Dev) (c : Nat) (f : Cmd → Cmd) : (d.modCmd c f).regw = d.regw := rfl
@[simp] theorem Dev.modCmd_mem (d : Dev) (c : Nat) (f : Cmd → Cmd) : (d.modCmd c f).mem = d.mem := rfl
@[simp] theorem Dev.modCmd_pool (d : Dev) (c : Nat) (f : Cmd → Cmd) : (d.modCmd c f).pool = d.pool := rfl
@[simp] theorem Dev.modCmd_que (d : Dev) (c : Nat) (f : Cmd → Cmd) : (d.modCmd c f).que = d.que := rfl
@[simp] theorem Dev.modCmd_ctl (d : Dev) (c : Nat) (f : Cmd → Cmd) : (d.modCmd c f).ctl = d.ctl := rfl
@[simp] theorem Dev.modCmd_sch (d : Dev) (c : Nat) (f : Cmd → Cmd) : (d.modCmd c f).sch = d.sch := rfl
@[simp] theorem Dev.modCmd_ses (d : Dev) (c : Nat) (f : Cmd → Cmd) : (d.modCmd c f).ses = d.ses := rfl
@[simp] theorem Dev.modCmd_dru (d : Dev) (c : Nat) (f : Cmd → Cmd) : (d.modCmd c f).dru = d.dru := rfl
@[simp] theorem Dev.modCmd_spn (d : Dev) (c : Nat) (f : Cmd → Cmd) : (d.modCmd c f).spn = d.spn := rfl
@[simp] theorem Dev.modCmd_tp (d : Dev) (c : Nat) (f : Cmd → Cmd) : (d.modCmd c f).tp = d.tp := rfl
@[simp] theorem Dev.modCmd_wr (d : Dev) (c : Nat) (f : Cmd → Cmd) : (d.modCmd c f).wr = d.wr := rfl
@[simp] theorem Dev.modCmd_rd (d : Dev) (c : Nat) (f : Cmd → Cmd) : (d.modCmd c f).rd = d.rd := rfl
@[simp] theorem Dev.modCmd_mot (d : Dev) (c : Nat) (f : Cmd → Cmd) : (d.modCmd c f).mot = d.mot := rfl
@[simp] theorem Dev.modCmd_fab (d : Dev) (c : Nat) (f : Cmd → Cmd) : (d.modCmd c f).fab = d.fab := rfl
@[simp] theorem Dev.modCmd_pair (d : Dev) (c : Nat) (f : Cmd → Cmd) : (d.modCmd c f).pair = d.pair := rfl
@[simp] theorem Dev.modCmd_eth (d : Dev) (c : Nat) (f : Cmd → Cmd) : (d.modCmd c f).eth = d.eth := rfl
@[simp] theorem Dev.modCmd_hlt (d : Dev) (c : Nat) (f : Cmd → Cmd) : (d.modCmd c f).hlt = d.hlt := rfl
@[simp] theorem Dev.modCmd_age (d : Dev) (c : Nat) (f : Cmd → Cmd) : (d.modCmd c f).age = d.age := rfl
@[simp] theorem Dev.modCmd_pins (d : Dev) (c : Nat) (f : Cmd → Cmd) : (d.modCmd c f).pins = d.pins := rfl
@[simp] theorem Dev.modCmd_ovr (d : Dev) (c : Nat) (f : Cmd → Cmd) : (d.modCmd c f).ovr = d.ovr := rfl
@[simp] theorem Dev.modCmd_out (d : Dev) (c : Nat) (f : Cmd → Cmd) : (d.modCmd c f).out = d.out := rfl
@[simp] theorem Dev.modCmd_free (d : Dev) (c : Nat) (f : Cmd → Cmd) : (d.modCmd c f).free = d.free := rfl

/-! `Dev.modSes` changes `ses` alone. -/

@[simp] theorem Dev.modSes_tick (d : Dev) (n : Nat) (f : Session → Session) : (d.modSes n f).tick = d.tick := rfl
@[simp] theorem Dev.modSes_clk (d : Dev) (n : Nat) (f : Session → Session) : (d.modSes n f).clk = d.clk := rfl
@[simp] theorem Dev.modSes_regs (d : Dev) (n : Nat) (f : Session → Session) : (d.modSes n f).regs = d.regs := rfl
@[simp] theorem Dev.modSes_regw (d : Dev) (n : Nat) (f : Session → Session) : (d.modSes n f).regw = d.regw := rfl
@[simp] theorem Dev.modSes_mem (d : Dev) (n : Nat) (f : Session → Session) : (d.modSes n f).mem = d.mem := rfl
@[simp] theorem Dev.modSes_pool (d : Dev) (n : Nat) (f : Session → Session) : (d.modSes n f).pool = d.pool := rfl
@[simp] theorem Dev.modSes_que (d : Dev) (n : Nat) (f : Session → Session) : (d.modSes n f).que = d.que := rfl
@[simp] theorem Dev.modSes_ctl (d : Dev) (n : Nat) (f : Session → Session) : (d.modSes n f).ctl = d.ctl := rfl
@[simp] theorem Dev.modSes_rte (d : Dev) (n : Nat) (f : Session → Session) : (d.modSes n f).rte = d.rte := rfl
@[simp] theorem Dev.modSes_sch (d : Dev) (n : Nat) (f : Session → Session) : (d.modSes n f).sch = d.sch := rfl
@[simp] theorem Dev.modSes_dru (d : Dev) (n : Nat) (f : Session → Session) : (d.modSes n f).dru = d.dru := rfl
@[simp] theorem Dev.modSes_spn (d : Dev) (n : Nat) (f : Session → Session) : (d.modSes n f).spn = d.spn := rfl
@[simp] theorem Dev.modSes_tp (d : Dev) (n : Nat) (f : Session → Session) : (d.modSes n f).tp = d.tp := rfl
@[simp] theorem Dev.modSes_wr (d : Dev) (n : Nat) (f : Session → Session) : (d.modSes n f).wr = d.wr := rfl
@[simp] theorem Dev.modSes_rd (d : Dev) (n : Nat) (f : Session → Session) : (d.modSes n f).rd = d.rd := rfl
@[simp] theorem Dev.modSes_mot (d : Dev) (n : Nat) (f : Session → Session) : (d.modSes n f).mot = d.mot := rfl
@[simp] theorem Dev.modSes_fab (d : Dev) (n : Nat) (f : Session → Session) : (d.modSes n f).fab = d.fab := rfl
@[simp] theorem Dev.modSes_pair (d : Dev) (n : Nat) (f : Session → Session) : (d.modSes n f).pair = d.pair := rfl
@[simp] theorem Dev.modSes_eth (d : Dev) (n : Nat) (f : Session → Session) : (d.modSes n f).eth = d.eth := rfl
@[simp] theorem Dev.modSes_hlt (d : Dev) (n : Nat) (f : Session → Session) : (d.modSes n f).hlt = d.hlt := rfl
@[simp] theorem Dev.modSes_age (d : Dev) (n : Nat) (f : Session → Session) : (d.modSes n f).age = d.age := rfl
@[simp] theorem Dev.modSes_pins (d : Dev) (n : Nat) (f : Session → Session) : (d.modSes n f).pins = d.pins := rfl
@[simp] theorem Dev.modSes_ovr (d : Dev) (n : Nat) (f : Session → Session) : (d.modSes n f).ovr = d.ovr := rfl
@[simp] theorem Dev.modSes_out (d : Dev) (n : Nat) (f : Session → Session) : (d.modSes n f).out = d.out := rfl
@[simp] theorem Dev.modSes_free (d : Dev) (n : Nat) (f : Session → Session) : (d.modSes n f).free = d.free := rfl

/-! `Dev.modChunk` changes `ses` alone. -/

@[simp] theorem Dev.modChunk_tick (d : Dev) (c : Nat) (f : Chunk → Chunk) : (d.modChunk c f).tick = d.tick := rfl
@[simp] theorem Dev.modChunk_clk (d : Dev) (c : Nat) (f : Chunk → Chunk) : (d.modChunk c f).clk = d.clk := rfl
@[simp] theorem Dev.modChunk_regs (d : Dev) (c : Nat) (f : Chunk → Chunk) : (d.modChunk c f).regs = d.regs := rfl
@[simp] theorem Dev.modChunk_regw (d : Dev) (c : Nat) (f : Chunk → Chunk) : (d.modChunk c f).regw = d.regw := rfl
@[simp] theorem Dev.modChunk_mem (d : Dev) (c : Nat) (f : Chunk → Chunk) : (d.modChunk c f).mem = d.mem := rfl
@[simp] theorem Dev.modChunk_pool (d : Dev) (c : Nat) (f : Chunk → Chunk) : (d.modChunk c f).pool = d.pool := rfl
@[simp] theorem Dev.modChunk_que (d : Dev) (c : Nat) (f : Chunk → Chunk) : (d.modChunk c f).que = d.que := rfl
@[simp] theorem Dev.modChunk_ctl (d : Dev) (c : Nat) (f : Chunk → Chunk) : (d.modChunk c f).ctl = d.ctl := rfl
@[simp] theorem Dev.modChunk_rte (d : Dev) (c : Nat) (f : Chunk → Chunk) : (d.modChunk c f).rte = d.rte := rfl
@[simp] theorem Dev.modChunk_sch (d : Dev) (c : Nat) (f : Chunk → Chunk) : (d.modChunk c f).sch = d.sch := rfl
@[simp] theorem Dev.modChunk_dru (d : Dev) (c : Nat) (f : Chunk → Chunk) : (d.modChunk c f).dru = d.dru := rfl
@[simp] theorem Dev.modChunk_spn (d : Dev) (c : Nat) (f : Chunk → Chunk) : (d.modChunk c f).spn = d.spn := rfl
@[simp] theorem Dev.modChunk_tp (d : Dev) (c : Nat) (f : Chunk → Chunk) : (d.modChunk c f).tp = d.tp := rfl
@[simp] theorem Dev.modChunk_wr (d : Dev) (c : Nat) (f : Chunk → Chunk) : (d.modChunk c f).wr = d.wr := rfl
@[simp] theorem Dev.modChunk_rd (d : Dev) (c : Nat) (f : Chunk → Chunk) : (d.modChunk c f).rd = d.rd := rfl
@[simp] theorem Dev.modChunk_mot (d : Dev) (c : Nat) (f : Chunk → Chunk) : (d.modChunk c f).mot = d.mot := rfl
@[simp] theorem Dev.modChunk_fab (d : Dev) (c : Nat) (f : Chunk → Chunk) : (d.modChunk c f).fab = d.fab := rfl
@[simp] theorem Dev.modChunk_pair (d : Dev) (c : Nat) (f : Chunk → Chunk) : (d.modChunk c f).pair = d.pair := rfl
@[simp] theorem Dev.modChunk_eth (d : Dev) (c : Nat) (f : Chunk → Chunk) : (d.modChunk c f).eth = d.eth := rfl
@[simp] theorem Dev.modChunk_hlt (d : Dev) (c : Nat) (f : Chunk → Chunk) : (d.modChunk c f).hlt = d.hlt := rfl
@[simp] theorem Dev.modChunk_age (d : Dev) (c : Nat) (f : Chunk → Chunk) : (d.modChunk c f).age = d.age := rfl
@[simp] theorem Dev.modChunk_pins (d : Dev) (c : Nat) (f : Chunk → Chunk) : (d.modChunk c f).pins = d.pins := rfl
@[simp] theorem Dev.modChunk_ovr (d : Dev) (c : Nat) (f : Chunk → Chunk) : (d.modChunk c f).ovr = d.ovr := rfl
@[simp] theorem Dev.modChunk_out (d : Dev) (c : Nat) (f : Chunk → Chunk) : (d.modChunk c f).out = d.out := rfl
@[simp] theorem Dev.modChunk_free (d : Dev) (c : Nat) (f : Chunk → Chunk) : (d.modChunk c f).free = d.free := rfl

/-! `Dev.modConn` changes `rte` alone. -/

@[simp] theorem Dev.modConn_tick (d : Dev) (c : Nat) (f : Conn → Conn) : (d.modConn c f).tick = d.tick := rfl
@[simp] theorem Dev.modConn_clk (d : Dev) (c : Nat) (f : Conn → Conn) : (d.modConn c f).clk = d.clk := rfl
@[simp] theorem Dev.modConn_regs (d : Dev) (c : Nat) (f : Conn → Conn) : (d.modConn c f).regs = d.regs := rfl
@[simp] theorem Dev.modConn_regw (d : Dev) (c : Nat) (f : Conn → Conn) : (d.modConn c f).regw = d.regw := rfl
@[simp] theorem Dev.modConn_mem (d : Dev) (c : Nat) (f : Conn → Conn) : (d.modConn c f).mem = d.mem := rfl
@[simp] theorem Dev.modConn_pool (d : Dev) (c : Nat) (f : Conn → Conn) : (d.modConn c f).pool = d.pool := rfl
@[simp] theorem Dev.modConn_que (d : Dev) (c : Nat) (f : Conn → Conn) : (d.modConn c f).que = d.que := rfl
@[simp] theorem Dev.modConn_ctl (d : Dev) (c : Nat) (f : Conn → Conn) : (d.modConn c f).ctl = d.ctl := rfl
@[simp] theorem Dev.modConn_sch (d : Dev) (c : Nat) (f : Conn → Conn) : (d.modConn c f).sch = d.sch := rfl
@[simp] theorem Dev.modConn_ses (d : Dev) (c : Nat) (f : Conn → Conn) : (d.modConn c f).ses = d.ses := rfl
@[simp] theorem Dev.modConn_dru (d : Dev) (c : Nat) (f : Conn → Conn) : (d.modConn c f).dru = d.dru := rfl
@[simp] theorem Dev.modConn_spn (d : Dev) (c : Nat) (f : Conn → Conn) : (d.modConn c f).spn = d.spn := rfl
@[simp] theorem Dev.modConn_tp (d : Dev) (c : Nat) (f : Conn → Conn) : (d.modConn c f).tp = d.tp := rfl
@[simp] theorem Dev.modConn_wr (d : Dev) (c : Nat) (f : Conn → Conn) : (d.modConn c f).wr = d.wr := rfl
@[simp] theorem Dev.modConn_rd (d : Dev) (c : Nat) (f : Conn → Conn) : (d.modConn c f).rd = d.rd := rfl
@[simp] theorem Dev.modConn_mot (d : Dev) (c : Nat) (f : Conn → Conn) : (d.modConn c f).mot = d.mot := rfl
@[simp] theorem Dev.modConn_fab (d : Dev) (c : Nat) (f : Conn → Conn) : (d.modConn c f).fab = d.fab := rfl
@[simp] theorem Dev.modConn_pair (d : Dev) (c : Nat) (f : Conn → Conn) : (d.modConn c f).pair = d.pair := rfl
@[simp] theorem Dev.modConn_eth (d : Dev) (c : Nat) (f : Conn → Conn) : (d.modConn c f).eth = d.eth := rfl
@[simp] theorem Dev.modConn_hlt (d : Dev) (c : Nat) (f : Conn → Conn) : (d.modConn c f).hlt = d.hlt := rfl
@[simp] theorem Dev.modConn_age (d : Dev) (c : Nat) (f : Conn → Conn) : (d.modConn c f).age = d.age := rfl
@[simp] theorem Dev.modConn_pins (d : Dev) (c : Nat) (f : Conn → Conn) : (d.modConn c f).pins = d.pins := rfl
@[simp] theorem Dev.modConn_ovr (d : Dev) (c : Nat) (f : Conn → Conn) : (d.modConn c f).ovr = d.ovr := rfl
@[simp] theorem Dev.modConn_out (d : Dev) (c : Nat) (f : Conn → Conn) : (d.modConn c f).out = d.out := rfl
@[simp] theorem Dev.modConn_free (d : Dev) (c : Nat) (f : Conn → Conn) : (d.modConn c f).free = d.free := rfl

/-! `Dev.modTenant` changes `rte` alone. -/

@[simp] theorem Dev.modTenant_tick (d : Dev) (t : Nat) (f : Tenant → Tenant) : (d.modTenant t f).tick = d.tick := rfl
@[simp] theorem Dev.modTenant_clk (d : Dev) (t : Nat) (f : Tenant → Tenant) : (d.modTenant t f).clk = d.clk := rfl
@[simp] theorem Dev.modTenant_regs (d : Dev) (t : Nat) (f : Tenant → Tenant) : (d.modTenant t f).regs = d.regs := rfl
@[simp] theorem Dev.modTenant_regw (d : Dev) (t : Nat) (f : Tenant → Tenant) : (d.modTenant t f).regw = d.regw := rfl
@[simp] theorem Dev.modTenant_mem (d : Dev) (t : Nat) (f : Tenant → Tenant) : (d.modTenant t f).mem = d.mem := rfl
@[simp] theorem Dev.modTenant_pool (d : Dev) (t : Nat) (f : Tenant → Tenant) : (d.modTenant t f).pool = d.pool := rfl
@[simp] theorem Dev.modTenant_que (d : Dev) (t : Nat) (f : Tenant → Tenant) : (d.modTenant t f).que = d.que := rfl
@[simp] theorem Dev.modTenant_ctl (d : Dev) (t : Nat) (f : Tenant → Tenant) : (d.modTenant t f).ctl = d.ctl := rfl
@[simp] theorem Dev.modTenant_sch (d : Dev) (t : Nat) (f : Tenant → Tenant) : (d.modTenant t f).sch = d.sch := rfl
@[simp] theorem Dev.modTenant_ses (d : Dev) (t : Nat) (f : Tenant → Tenant) : (d.modTenant t f).ses = d.ses := rfl
@[simp] theorem Dev.modTenant_dru (d : Dev) (t : Nat) (f : Tenant → Tenant) : (d.modTenant t f).dru = d.dru := rfl
@[simp] theorem Dev.modTenant_spn (d : Dev) (t : Nat) (f : Tenant → Tenant) : (d.modTenant t f).spn = d.spn := rfl
@[simp] theorem Dev.modTenant_tp (d : Dev) (t : Nat) (f : Tenant → Tenant) : (d.modTenant t f).tp = d.tp := rfl
@[simp] theorem Dev.modTenant_wr (d : Dev) (t : Nat) (f : Tenant → Tenant) : (d.modTenant t f).wr = d.wr := rfl
@[simp] theorem Dev.modTenant_rd (d : Dev) (t : Nat) (f : Tenant → Tenant) : (d.modTenant t f).rd = d.rd := rfl
@[simp] theorem Dev.modTenant_mot (d : Dev) (t : Nat) (f : Tenant → Tenant) : (d.modTenant t f).mot = d.mot := rfl
@[simp] theorem Dev.modTenant_fab (d : Dev) (t : Nat) (f : Tenant → Tenant) : (d.modTenant t f).fab = d.fab := rfl
@[simp] theorem Dev.modTenant_pair (d : Dev) (t : Nat) (f : Tenant → Tenant) : (d.modTenant t f).pair = d.pair := rfl
@[simp] theorem Dev.modTenant_eth (d : Dev) (t : Nat) (f : Tenant → Tenant) : (d.modTenant t f).eth = d.eth := rfl
@[simp] theorem Dev.modTenant_hlt (d : Dev) (t : Nat) (f : Tenant → Tenant) : (d.modTenant t f).hlt = d.hlt := rfl
@[simp] theorem Dev.modTenant_age (d : Dev) (t : Nat) (f : Tenant → Tenant) : (d.modTenant t f).age = d.age := rfl
@[simp] theorem Dev.modTenant_pins (d : Dev) (t : Nat) (f : Tenant → Tenant) : (d.modTenant t f).pins = d.pins := rfl
@[simp] theorem Dev.modTenant_ovr (d : Dev) (t : Nat) (f : Tenant → Tenant) : (d.modTenant t f).ovr = d.ovr := rfl
@[simp] theorem Dev.modTenant_out (d : Dev) (t : Nat) (f : Tenant → Tenant) : (d.modTenant t f).out = d.out := rfl
@[simp] theorem Dev.modTenant_free (d : Dev) (t : Nat) (f : Tenant → Tenant) : (d.modTenant t f).free = d.free := rfl

/-! `Dev.release` changes `pool` alone. -/

@[simp] theorem Dev.release_tick (d : Dev) (h : BitVec 32) (o : Nat) : (d.release h o).tick = d.tick := rfl
@[simp] theorem Dev.release_clk (d : Dev) (h : BitVec 32) (o : Nat) : (d.release h o).clk = d.clk := rfl
@[simp] theorem Dev.release_regs (d : Dev) (h : BitVec 32) (o : Nat) : (d.release h o).regs = d.regs := rfl
@[simp] theorem Dev.release_regw (d : Dev) (h : BitVec 32) (o : Nat) : (d.release h o).regw = d.regw := rfl
@[simp] theorem Dev.release_mem (d : Dev) (h : BitVec 32) (o : Nat) : (d.release h o).mem = d.mem := rfl
@[simp] theorem Dev.release_que (d : Dev) (h : BitVec 32) (o : Nat) : (d.release h o).que = d.que := rfl
@[simp] theorem Dev.release_ctl (d : Dev) (h : BitVec 32) (o : Nat) : (d.release h o).ctl = d.ctl := rfl
@[simp] theorem Dev.release_rte (d : Dev) (h : BitVec 32) (o : Nat) : (d.release h o).rte = d.rte := rfl
@[simp] theorem Dev.release_sch (d : Dev) (h : BitVec 32) (o : Nat) : (d.release h o).sch = d.sch := rfl
@[simp] theorem Dev.release_ses (d : Dev) (h : BitVec 32) (o : Nat) : (d.release h o).ses = d.ses := rfl
@[simp] theorem Dev.release_dru (d : Dev) (h : BitVec 32) (o : Nat) : (d.release h o).dru = d.dru := rfl
@[simp] theorem Dev.release_spn (d : Dev) (h : BitVec 32) (o : Nat) : (d.release h o).spn = d.spn := rfl
@[simp] theorem Dev.release_tp (d : Dev) (h : BitVec 32) (o : Nat) : (d.release h o).tp = d.tp := rfl
@[simp] theorem Dev.release_wr (d : Dev) (h : BitVec 32) (o : Nat) : (d.release h o).wr = d.wr := rfl
@[simp] theorem Dev.release_rd (d : Dev) (h : BitVec 32) (o : Nat) : (d.release h o).rd = d.rd := rfl
@[simp] theorem Dev.release_mot (d : Dev) (h : BitVec 32) (o : Nat) : (d.release h o).mot = d.mot := rfl
@[simp] theorem Dev.release_fab (d : Dev) (h : BitVec 32) (o : Nat) : (d.release h o).fab = d.fab := rfl
@[simp] theorem Dev.release_pair (d : Dev) (h : BitVec 32) (o : Nat) : (d.release h o).pair = d.pair := rfl
@[simp] theorem Dev.release_eth (d : Dev) (h : BitVec 32) (o : Nat) : (d.release h o).eth = d.eth := rfl
@[simp] theorem Dev.release_hlt (d : Dev) (h : BitVec 32) (o : Nat) : (d.release h o).hlt = d.hlt := rfl
@[simp] theorem Dev.release_age (d : Dev) (h : BitVec 32) (o : Nat) : (d.release h o).age = d.age := rfl
@[simp] theorem Dev.release_pins (d : Dev) (h : BitVec 32) (o : Nat) : (d.release h o).pins = d.pins := rfl
@[simp] theorem Dev.release_ovr (d : Dev) (h : BitVec 32) (o : Nat) : (d.release h o).ovr = d.ovr := rfl
@[simp] theorem Dev.release_out (d : Dev) (h : BitVec 32) (o : Nat) : (d.release h o).out = d.out := rfl
@[simp] theorem Dev.release_free (d : Dev) (h : BitVec 32) (o : Nat) : (d.release h o).free = d.free := rfl

/-! `Dev.share` changes `pool` alone. -/

@[simp] theorem Dev.share_tick (d : Dev) (h : BitVec 32) (o : Nat) : (d.share h o).tick = d.tick := rfl
@[simp] theorem Dev.share_clk (d : Dev) (h : BitVec 32) (o : Nat) : (d.share h o).clk = d.clk := rfl
@[simp] theorem Dev.share_regs (d : Dev) (h : BitVec 32) (o : Nat) : (d.share h o).regs = d.regs := rfl
@[simp] theorem Dev.share_regw (d : Dev) (h : BitVec 32) (o : Nat) : (d.share h o).regw = d.regw := rfl
@[simp] theorem Dev.share_mem (d : Dev) (h : BitVec 32) (o : Nat) : (d.share h o).mem = d.mem := rfl
@[simp] theorem Dev.share_que (d : Dev) (h : BitVec 32) (o : Nat) : (d.share h o).que = d.que := rfl
@[simp] theorem Dev.share_ctl (d : Dev) (h : BitVec 32) (o : Nat) : (d.share h o).ctl = d.ctl := rfl
@[simp] theorem Dev.share_rte (d : Dev) (h : BitVec 32) (o : Nat) : (d.share h o).rte = d.rte := rfl
@[simp] theorem Dev.share_sch (d : Dev) (h : BitVec 32) (o : Nat) : (d.share h o).sch = d.sch := rfl
@[simp] theorem Dev.share_ses (d : Dev) (h : BitVec 32) (o : Nat) : (d.share h o).ses = d.ses := rfl
@[simp] theorem Dev.share_dru (d : Dev) (h : BitVec 32) (o : Nat) : (d.share h o).dru = d.dru := rfl
@[simp] theorem Dev.share_spn (d : Dev) (h : BitVec 32) (o : Nat) : (d.share h o).spn = d.spn := rfl
@[simp] theorem Dev.share_tp (d : Dev) (h : BitVec 32) (o : Nat) : (d.share h o).tp = d.tp := rfl
@[simp] theorem Dev.share_wr (d : Dev) (h : BitVec 32) (o : Nat) : (d.share h o).wr = d.wr := rfl
@[simp] theorem Dev.share_rd (d : Dev) (h : BitVec 32) (o : Nat) : (d.share h o).rd = d.rd := rfl
@[simp] theorem Dev.share_mot (d : Dev) (h : BitVec 32) (o : Nat) : (d.share h o).mot = d.mot := rfl
@[simp] theorem Dev.share_fab (d : Dev) (h : BitVec 32) (o : Nat) : (d.share h o).fab = d.fab := rfl
@[simp] theorem Dev.share_pair (d : Dev) (h : BitVec 32) (o : Nat) : (d.share h o).pair = d.pair := rfl
@[simp] theorem Dev.share_eth (d : Dev) (h : BitVec 32) (o : Nat) : (d.share h o).eth = d.eth := rfl
@[simp] theorem Dev.share_hlt (d : Dev) (h : BitVec 32) (o : Nat) : (d.share h o).hlt = d.hlt := rfl
@[simp] theorem Dev.share_age (d : Dev) (h : BitVec 32) (o : Nat) : (d.share h o).age = d.age := rfl
@[simp] theorem Dev.share_pins (d : Dev) (h : BitVec 32) (o : Nat) : (d.share h o).pins = d.pins := rfl
@[simp] theorem Dev.share_ovr (d : Dev) (h : BitVec 32) (o : Nat) : (d.share h o).ovr = d.ovr := rfl
@[simp] theorem Dev.share_out (d : Dev) (h : BitVec 32) (o : Nat) : (d.share h o).out = d.out := rfl
@[simp] theorem Dev.share_free (d : Dev) (h : BitVec 32) (o : Nat) : (d.share h o).free = d.free := rfl

/-! `Dev.modPool` changes `pool` alone. -/

@[simp] theorem Dev.modPool_tick (d : Dev) (p : Nat) (f : PoolSt → PoolSt) : (d.modPool p f).tick = d.tick := rfl
@[simp] theorem Dev.modPool_clk (d : Dev) (p : Nat) (f : PoolSt → PoolSt) : (d.modPool p f).clk = d.clk := rfl
@[simp] theorem Dev.modPool_regs (d : Dev) (p : Nat) (f : PoolSt → PoolSt) : (d.modPool p f).regs = d.regs := rfl
@[simp] theorem Dev.modPool_regw (d : Dev) (p : Nat) (f : PoolSt → PoolSt) : (d.modPool p f).regw = d.regw := rfl
@[simp] theorem Dev.modPool_mem (d : Dev) (p : Nat) (f : PoolSt → PoolSt) : (d.modPool p f).mem = d.mem := rfl
@[simp] theorem Dev.modPool_que (d : Dev) (p : Nat) (f : PoolSt → PoolSt) : (d.modPool p f).que = d.que := rfl
@[simp] theorem Dev.modPool_ctl (d : Dev) (p : Nat) (f : PoolSt → PoolSt) : (d.modPool p f).ctl = d.ctl := rfl
@[simp] theorem Dev.modPool_rte (d : Dev) (p : Nat) (f : PoolSt → PoolSt) : (d.modPool p f).rte = d.rte := rfl
@[simp] theorem Dev.modPool_sch (d : Dev) (p : Nat) (f : PoolSt → PoolSt) : (d.modPool p f).sch = d.sch := rfl
@[simp] theorem Dev.modPool_ses (d : Dev) (p : Nat) (f : PoolSt → PoolSt) : (d.modPool p f).ses = d.ses := rfl
@[simp] theorem Dev.modPool_dru (d : Dev) (p : Nat) (f : PoolSt → PoolSt) : (d.modPool p f).dru = d.dru := rfl
@[simp] theorem Dev.modPool_spn (d : Dev) (p : Nat) (f : PoolSt → PoolSt) : (d.modPool p f).spn = d.spn := rfl
@[simp] theorem Dev.modPool_tp (d : Dev) (p : Nat) (f : PoolSt → PoolSt) : (d.modPool p f).tp = d.tp := rfl
@[simp] theorem Dev.modPool_wr (d : Dev) (p : Nat) (f : PoolSt → PoolSt) : (d.modPool p f).wr = d.wr := rfl
@[simp] theorem Dev.modPool_rd (d : Dev) (p : Nat) (f : PoolSt → PoolSt) : (d.modPool p f).rd = d.rd := rfl
@[simp] theorem Dev.modPool_mot (d : Dev) (p : Nat) (f : PoolSt → PoolSt) : (d.modPool p f).mot = d.mot := rfl
@[simp] theorem Dev.modPool_fab (d : Dev) (p : Nat) (f : PoolSt → PoolSt) : (d.modPool p f).fab = d.fab := rfl
@[simp] theorem Dev.modPool_pair (d : Dev) (p : Nat) (f : PoolSt → PoolSt) : (d.modPool p f).pair = d.pair := rfl
@[simp] theorem Dev.modPool_eth (d : Dev) (p : Nat) (f : PoolSt → PoolSt) : (d.modPool p f).eth = d.eth := rfl
@[simp] theorem Dev.modPool_hlt (d : Dev) (p : Nat) (f : PoolSt → PoolSt) : (d.modPool p f).hlt = d.hlt := rfl
@[simp] theorem Dev.modPool_age (d : Dev) (p : Nat) (f : PoolSt → PoolSt) : (d.modPool p f).age = d.age := rfl
@[simp] theorem Dev.modPool_pins (d : Dev) (p : Nat) (f : PoolSt → PoolSt) : (d.modPool p f).pins = d.pins := rfl
@[simp] theorem Dev.modPool_ovr (d : Dev) (p : Nat) (f : PoolSt → PoolSt) : (d.modPool p f).ovr = d.ovr := rfl
@[simp] theorem Dev.modPool_out (d : Dev) (p : Nat) (f : PoolSt → PoolSt) : (d.modPool p f).out = d.out := rfl
@[simp] theorem Dev.modPool_free (d : Dev) (p : Nat) (f : PoolSt → PoolSt) : (d.modPool p f).free = d.free := rfl

/-! `Dev.modPartner` changes `pair` alone. -/

@[simp] theorem Dev.modPartner_tick (d : Dev) (f : Partner → Partner) : (d.modPartner f).tick = d.tick := rfl
@[simp] theorem Dev.modPartner_clk (d : Dev) (f : Partner → Partner) : (d.modPartner f).clk = d.clk := rfl
@[simp] theorem Dev.modPartner_regs (d : Dev) (f : Partner → Partner) : (d.modPartner f).regs = d.regs := rfl
@[simp] theorem Dev.modPartner_regw (d : Dev) (f : Partner → Partner) : (d.modPartner f).regw = d.regw := rfl
@[simp] theorem Dev.modPartner_mem (d : Dev) (f : Partner → Partner) : (d.modPartner f).mem = d.mem := rfl
@[simp] theorem Dev.modPartner_pool (d : Dev) (f : Partner → Partner) : (d.modPartner f).pool = d.pool := rfl
@[simp] theorem Dev.modPartner_que (d : Dev) (f : Partner → Partner) : (d.modPartner f).que = d.que := rfl
@[simp] theorem Dev.modPartner_ctl (d : Dev) (f : Partner → Partner) : (d.modPartner f).ctl = d.ctl := rfl
@[simp] theorem Dev.modPartner_rte (d : Dev) (f : Partner → Partner) : (d.modPartner f).rte = d.rte := rfl
@[simp] theorem Dev.modPartner_sch (d : Dev) (f : Partner → Partner) : (d.modPartner f).sch = d.sch := rfl
@[simp] theorem Dev.modPartner_ses (d : Dev) (f : Partner → Partner) : (d.modPartner f).ses = d.ses := rfl
@[simp] theorem Dev.modPartner_dru (d : Dev) (f : Partner → Partner) : (d.modPartner f).dru = d.dru := rfl
@[simp] theorem Dev.modPartner_spn (d : Dev) (f : Partner → Partner) : (d.modPartner f).spn = d.spn := rfl
@[simp] theorem Dev.modPartner_tp (d : Dev) (f : Partner → Partner) : (d.modPartner f).tp = d.tp := rfl
@[simp] theorem Dev.modPartner_wr (d : Dev) (f : Partner → Partner) : (d.modPartner f).wr = d.wr := rfl
@[simp] theorem Dev.modPartner_rd (d : Dev) (f : Partner → Partner) : (d.modPartner f).rd = d.rd := rfl
@[simp] theorem Dev.modPartner_mot (d : Dev) (f : Partner → Partner) : (d.modPartner f).mot = d.mot := rfl
@[simp] theorem Dev.modPartner_fab (d : Dev) (f : Partner → Partner) : (d.modPartner f).fab = d.fab := rfl
@[simp] theorem Dev.modPartner_eth (d : Dev) (f : Partner → Partner) : (d.modPartner f).eth = d.eth := rfl
@[simp] theorem Dev.modPartner_hlt (d : Dev) (f : Partner → Partner) : (d.modPartner f).hlt = d.hlt := rfl
@[simp] theorem Dev.modPartner_age (d : Dev) (f : Partner → Partner) : (d.modPartner f).age = d.age := rfl
@[simp] theorem Dev.modPartner_pins (d : Dev) (f : Partner → Partner) : (d.modPartner f).pins = d.pins := rfl
@[simp] theorem Dev.modPartner_ovr (d : Dev) (f : Partner → Partner) : (d.modPartner f).ovr = d.ovr := rfl
@[simp] theorem Dev.modPartner_out (d : Dev) (f : Partner → Partner) : (d.modPartner f).out = d.out := rfl
@[simp] theorem Dev.modPartner_free (d : Dev) (f : Partner → Partner) : (d.modPartner f).free = d.free := rfl

/-! `Dev.modDru` changes `dru` alone. -/

@[simp] theorem Dev.modDru_tick (d : Dev) (i : Nat) (f : Drupelet → Drupelet) : (d.modDru i f).tick = d.tick := rfl
@[simp] theorem Dev.modDru_clk (d : Dev) (i : Nat) (f : Drupelet → Drupelet) : (d.modDru i f).clk = d.clk := rfl
@[simp] theorem Dev.modDru_regs (d : Dev) (i : Nat) (f : Drupelet → Drupelet) : (d.modDru i f).regs = d.regs := rfl
@[simp] theorem Dev.modDru_regw (d : Dev) (i : Nat) (f : Drupelet → Drupelet) : (d.modDru i f).regw = d.regw := rfl
@[simp] theorem Dev.modDru_mem (d : Dev) (i : Nat) (f : Drupelet → Drupelet) : (d.modDru i f).mem = d.mem := rfl
@[simp] theorem Dev.modDru_pool (d : Dev) (i : Nat) (f : Drupelet → Drupelet) : (d.modDru i f).pool = d.pool := rfl
@[simp] theorem Dev.modDru_que (d : Dev) (i : Nat) (f : Drupelet → Drupelet) : (d.modDru i f).que = d.que := rfl
@[simp] theorem Dev.modDru_ctl (d : Dev) (i : Nat) (f : Drupelet → Drupelet) : (d.modDru i f).ctl = d.ctl := rfl
@[simp] theorem Dev.modDru_rte (d : Dev) (i : Nat) (f : Drupelet → Drupelet) : (d.modDru i f).rte = d.rte := rfl
@[simp] theorem Dev.modDru_sch (d : Dev) (i : Nat) (f : Drupelet → Drupelet) : (d.modDru i f).sch = d.sch := rfl
@[simp] theorem Dev.modDru_ses (d : Dev) (i : Nat) (f : Drupelet → Drupelet) : (d.modDru i f).ses = d.ses := rfl
@[simp] theorem Dev.modDru_spn (d : Dev) (i : Nat) (f : Drupelet → Drupelet) : (d.modDru i f).spn = d.spn := rfl
@[simp] theorem Dev.modDru_tp (d : Dev) (i : Nat) (f : Drupelet → Drupelet) : (d.modDru i f).tp = d.tp := rfl
@[simp] theorem Dev.modDru_wr (d : Dev) (i : Nat) (f : Drupelet → Drupelet) : (d.modDru i f).wr = d.wr := rfl
@[simp] theorem Dev.modDru_rd (d : Dev) (i : Nat) (f : Drupelet → Drupelet) : (d.modDru i f).rd = d.rd := rfl
@[simp] theorem Dev.modDru_mot (d : Dev) (i : Nat) (f : Drupelet → Drupelet) : (d.modDru i f).mot = d.mot := rfl
@[simp] theorem Dev.modDru_fab (d : Dev) (i : Nat) (f : Drupelet → Drupelet) : (d.modDru i f).fab = d.fab := rfl
@[simp] theorem Dev.modDru_pair (d : Dev) (i : Nat) (f : Drupelet → Drupelet) : (d.modDru i f).pair = d.pair := rfl
@[simp] theorem Dev.modDru_eth (d : Dev) (i : Nat) (f : Drupelet → Drupelet) : (d.modDru i f).eth = d.eth := rfl
@[simp] theorem Dev.modDru_hlt (d : Dev) (i : Nat) (f : Drupelet → Drupelet) : (d.modDru i f).hlt = d.hlt := rfl
@[simp] theorem Dev.modDru_age (d : Dev) (i : Nat) (f : Drupelet → Drupelet) : (d.modDru i f).age = d.age := rfl
@[simp] theorem Dev.modDru_pins (d : Dev) (i : Nat) (f : Drupelet → Drupelet) : (d.modDru i f).pins = d.pins := rfl
@[simp] theorem Dev.modDru_ovr (d : Dev) (i : Nat) (f : Drupelet → Drupelet) : (d.modDru i f).ovr = d.ovr := rfl
@[simp] theorem Dev.modDru_out (d : Dev) (i : Nat) (f : Drupelet → Drupelet) : (d.modDru i f).out = d.out := rfl
@[simp] theorem Dev.modDru_free (d : Dev) (i : Nat) (f : Drupelet → Drupelet) : (d.modDru i f).free = d.free := rfl

/-! ### The outcomes -/

@[simp] theorem nextDev_ok (s : State) (f : Dev → Dev) (h : s.dev.coreHeld = false) : nextDev s f = .next { s with dev := f s.dev } := by
  simp [nextDev, h]

@[simp] theorem nextAon_ok (s : State) (f : Dev → Dev) (h : s.dev.hlt.vaon = true) : nextAon s f = .next { s with dev := f s.dev } := by
  simp [nextAon, h]

@[simp] theorem nextHd_ok (s : State) (f : Hbm × Dev → Hbm × Dev) (h : s.dev.coreHeld = false) : nextHd s f = .next (s.withHd (f (s.hbm, s.dev))) := by
  simp [nextHd, h, State.hd]

theorem nextDev_held (s : State) (f : Dev → Dev) (h : s.dev.coreHeld = true) : nextDev s f = .next s := by simp [nextDev, h]

theorem nextHd_held (s : State) (f : Hbm × Dev → Hbm × Dev) (h : s.dev.coreHeld = true) : nextHd s f = .next s := by
  simp [nextHd, h, State.withHd, State.hd]

/-- A command over the device alone leaves buffer memory and the queue as they were. -/
theorem nextDev_frame {s t : State} {f : Dev → Dev} (h : nextDev s f = .next t) : t.hbm = s.hbm ∧ t.pending = s.pending := by
  simp only [nextDev, Host.Outcome.next.injEq] at h; subst h; exact ⟨rfl, rfl⟩

theorem nextAon_frame {s t : State} {f : Dev → Dev} (h : nextAon s f = .next t) : t.hbm = s.hbm ∧ t.pending = s.pending := by
  simp only [nextAon, Host.Outcome.next.injEq] at h; subst h; exact ⟨rfl, rfl⟩

theorem nextHd_frame {s t : State} {f : Hbm × Dev → Hbm × Dev} (h : nextHd s f = .next t) : t.pending = s.pending := by
  simp only [nextHd, Host.Outcome.next.injEq] at h; subst h; rfl

@[simp] theorem withHd_pending (s : State) (hd : Hbm × Dev) : (s.withHd hd).pending = s.pending := rfl
@[simp] theorem withHd_hbm (s : State) (hd : Hbm × Dev) : (s.withHd hd).hbm = hd.1 := rfl
@[simp] theorem withHd_dev (s : State) (hd : Hbm × Dev) : (s.withHd hd).dev = hd.2 := rfl
@[simp] theorem hd_fst (s : State) : s.hd.1 = s.hbm := rfl
@[simp] theorem hd_snd (s : State) : s.hd.2 = s.dev := rfl

/-! ### Events and records change only the event queue, the feed and the records' numbers -/

@[simp] theorem Dev.postEvent_regs (d : Dev) (c b i : Nat) (l : List Word64) : (d.postEvent c b i l).regs = d.regs := rfl
@[simp] theorem Dev.postEvent_mem (d : Dev) (c b i : Nat) (l : List Word64) : (d.postEvent c b i l).mem = d.mem := rfl
@[simp] theorem Dev.postEvent_pool (d : Dev) (c b i : Nat) (l : List Word64) : (d.postEvent c b i l).pool = d.pool := rfl
@[simp] theorem Dev.postEvent_que (d : Dev) (c b i : Nat) (l : List Word64) : (d.postEvent c b i l).que = d.que := rfl
@[simp] theorem Dev.postEvent_ses (d : Dev) (c b i : Nat) (l : List Word64) : (d.postEvent c b i l).ses = d.ses := rfl
@[simp] theorem Dev.postEvent_rte (d : Dev) (c b i : Nat) (l : List Word64) : (d.postEvent c b i l).rte = d.rte := rfl
@[simp] theorem Dev.postEvent_spn (d : Dev) (c b i : Nat) (l : List Word64) : (d.postEvent c b i l).spn = d.spn := rfl
@[simp] theorem Dev.postEvent_tp (d : Dev) (c b i : Nat) (l : List Word64) : (d.postEvent c b i l).tp = d.tp := rfl
@[simp] theorem Dev.postEvent_mot (d : Dev) (c b i : Nat) (l : List Word64) : (d.postEvent c b i l).mot = d.mot := rfl
@[simp] theorem Dev.postEvent_hlt (d : Dev) (c b i : Nat) (l : List Word64) : (d.postEvent c b i l).hlt = d.hlt := rfl
@[simp] theorem Dev.postEvent_pins (d : Dev) (c b i : Nat) (l : List Word64) : (d.postEvent c b i l).pins = d.pins := rfl
@[simp] theorem Dev.postEvent_clk (d : Dev) (c b i : Nat) (l : List Word64) : (d.postEvent c b i l).clk = d.clk := rfl
@[simp] theorem Dev.postEvent_tick (d : Dev) (c b i : Nat) (l : List Word64) : (d.postEvent c b i l).tick = d.tick := rfl
@[simp] theorem Dev.postEvent_out (d : Dev) (c b i : Nat) (l : List Word64) : (d.postEvent c b i l).out = d.out := rfl
@[simp] theorem Dev.postEvent_age (d : Dev) (c b i : Nat) (l : List Word64) : (d.postEvent c b i l).age = d.age := rfl
@[simp] theorem Dev.postEvent_fab (d : Dev) (c b i : Nat) (l : List Word64) : (d.postEvent c b i l).fab = d.fab := rfl
@[simp] theorem Dev.postEvent_pair (d : Dev) (c b i : Nat) (l : List Word64) : (d.postEvent c b i l).pair = d.pair := rfl

end Sys2Proof.Machine
end

