-- ==== Sys2Proof/Laws/Tables.lean ====
section
/-! SUPPORT. Tables of numbered entries: what reading after writing gives, and that every operation keeps keys rising. -/

namespace Sys2Proof.Machine

theorem rising_tail {α : Type} {a : Nat × α} {t : Table α} (h : Rising (a :: t) = true) : Rising t = true := by
  cases t with
  | nil => rfl
  | cons b t => simp only [Rising, Bool.and_eq_true] at h; exact h.2

theorem rising_lt {α : Type} {a : Nat × α} {t : Table α} (h : Rising (a :: t) = true) : ∀ x ∈ t, a.1 < x.1 := by
  induction t generalizing a with
  | nil => simp
  | cons b t ih =>
    simp only [Rising, Bool.and_eq_true, decide_eq_true_eq] at h
    intro x hx
    rcases List.mem_cons.1 hx with rfl | hx
    · exact h.1
    · exact h.1.trans (ih h.2 x hx)

theorem rising_cons {α : Type} {a : Nat × α} {t : Table α} (h : Rising t = true) (hlt : ∀ x ∈ t, a.1 < x.1) : Rising (a :: t) = true := by
  cases t with
  | nil => rfl
  | cons b t => simp [Rising, h, hlt b (by simp)]

theorem mem_tput {α : Type} {t : Table α} {k : Nat} {v : α} {x : Nat × α} (h : x ∈ tput t k v) : x = (k, v) ∨ x ∈ t := by
  induction t with
  | nil => simpa [tput] using h
  | cons a t ih =>
    simp only [tput] at h
    split at h
    · simpa using h
    · split at h
      · rcases List.mem_cons.1 h with h | h
        · exact .inl h
        · exact .inr (List.mem_cons_of_mem _ h)
      · rcases List.mem_cons.1 h with h | h
        · exact .inr (h ▸ List.mem_cons_self ..)
        · rcases ih h with h | h
          · exact .inl h
          · exact .inr (List.mem_cons_of_mem _ h)

theorem mem_tdel {α : Type} {t : Table α} {k : Nat} {x : Nat × α} (h : x ∈ tdel t k) : x ∈ t := (List.mem_filter.1 h).1

theorem rising_tput {α : Type} {t : Table α} (k : Nat) (v : α) (h : Rising t = true) : Rising (tput t k v) = true := by
  induction t with
  | nil => rfl
  | cons a t ih =>
    simp only [tput]
    split
    · rename_i hk
      exact rising_cons h fun x hx => by
        rcases List.mem_cons.1 hx with rfl | hx
        · exact hk
        · exact hk.trans (rising_lt h x hx)
    · split
      · rename_i hk
        exact rising_cons (rising_tail h) fun x hx => hk ▸ rising_lt h x hx
      · rename_i h1 h2
        refine rising_cons (ih (rising_tail h)) fun x hx => ?_
        rcases mem_tput hx with rfl | hx
        · show a.1 < k; omega
        · exact rising_lt h x hx

theorem rising_filter {α : Type} {t : Table α} (p : Nat × α → Bool) (h : Rising t = true) : Rising (t.filter p) = true := by
  induction t with
  | nil => rfl
  | cons a t ih =>
    simp only [List.filter]
    split
    · exact rising_cons (ih (rising_tail h)) fun x hx => rising_lt h x (List.mem_filter.1 hx).1
    · exact ih (rising_tail h)

theorem rising_tdel {α : Type} {t : Table α} (k : Nat) (h : Rising t = true) : Rising (tdel t k) = true := rising_filter _ h

theorem rising_tputD {α : Type} [DecidableEq α] {t : Table α} (k : Nat) (d v : α) (h : Rising t = true) : Rising (tputD t k d v) = true := by
  unfold tputD
  split
  · exact rising_tdel k h
  · exact rising_tput k v h

@[simp] theorem tget_tput_self {α : Type} (t : Table α) (k : Nat) (v : α) : tget (tput t k v) k = some v := by
  induction t with
  | nil => simp [tput, tget]
  | cons a t ih =>
    simp only [tput]
    split
    · simp [tget]
    · split
      · simp [tget]
      · rename_i h1 h2
        have : (a.1 == k) = false := by simp; omega
        simpa [tget, List.find?, this] using ih

theorem tget_tput_other {α : Type} (t : Table α) {k j : Nat} (v : α) (h : j ≠ k) : tget (tput t k v) j = tget t j := by
  have hk : (k == j) = false := by simp [Ne.symm h]
  induction t with
  | nil => simp [tput, tget, hk]
  | cons a t ih =>
    simp only [tput]
    split
    · simp [tget, List.find?, hk]
    · split
      · rename_i _ e
        have : (a.1 == j) = false := by rw [← e]; exact hk
        simp [tget, List.find?, hk, this]
      · simp only [tget, List.find?] at ih ⊢
        split
        · rfl
        · exact ih

@[simp] theorem tget_tdel_self {α : Type} (t : Table α) (k : Nat) : tget (tdel t k) k = none := by
  have : (tdel t k).find? (fun p => p.1 == k) = none := by
    rw [List.find?_eq_none]
    intro x hx
    simpa using (List.mem_filter.1 hx).2
  simp [tget, this]

theorem tget_tdel_other {α : Type} (t : Table α) {k j : Nat} (h : j ≠ k) : tget (tdel t k) j = tget t j := by
  induction t with
  | nil => rfl
  | cons a t ih =>
    simp only [tdel, tget, List.filter, List.find?] at ih ⊢
    by_cases e : a.1 = k
    · have hj : (a.1 == j) = false := by rw [e]; simp [Ne.symm h]
      rw [hj, show (a.1 != k) = false by simpa using e]
      exact ih
    · rw [show (a.1 != k) = true by simpa using e]
      simp only [List.find?]
      split
      · rfl
      · exact ih

/-- Reading back what `tputD` wrote. -/
@[simp] theorem tgetD_tputD_self {α : Type} [DecidableEq α] (t : Table α) (k : Nat) (d v : α) : tgetD (tputD t k d v) k d = v := by
  unfold tputD tgetD
  split
  · rename_i e; simp [e]
  · simp

theorem tgetD_tputD_other {α : Type} [DecidableEq α] (t : Table α) {k j : Nat} (d e v : α) (h : j ≠ k) :
    tgetD (tputD t k d v) j e = tgetD t j e := by
  unfold tputD tgetD
  split
  · rw [tget_tdel_other t h]
  · rw [tget_tput_other t v h]

end Sys2Proof.Machine
end

