-- ==== Sys2Proof/Laws/Frames.lean ====
section
/-! SUPPORT. What the shared operations can change, one lemma each: a fabric message only the fabric and what has been emitted, a
completion only its ring and what has been emitted, a tenant's message only its connection beside them, a response only those and the
queue of responses that are due. -/

namespace Sys2Proof.Machine

/-! ### Entries of a table -/

theorem tget_cons {α : Type} (a : Nat × α) (t : Table α) (k : Nat) : tget (a :: t) k = if a.1 = k then some a.2 else tget t k := by
  by_cases h : a.1 = k
  · simp [tget, h]
  · have h' : (a.1 == k) = false := by simp [h]
    simp [tget, h, h']

@[simp] theorem tget_tmod_self {α : Type} (t : Table α) (k : Nat) (f : α → α) : tget (tmod t k f) k = (tget t k).map f := by
  induction t with
  | nil => rfl
  | cons a t ih =>
    simp only [tmod] at ih
    simp only [tmod, List.map_cons, tget_cons, ih]
    by_cases h : a.1 = k
    · simp [h]
    · simp [h]

theorem tget_tmod_other {α : Type} (t : Table α) {k j : Nat} (f : α → α) (h : j ≠ k) : tget (tmod t k f) j = tget t j := by
  induction t with
  | nil => rfl
  | cons a t ih =>
    simp only [tmod] at ih
    simp only [tmod, List.map_cons, tget_cons, ih]
    by_cases h1 : a.1 = k
    · simp [h1, Ne.symm h]
    · simp [h1]

theorem tgetD_tput_self {α : Type} (t : Table α) (k : Nat) (v d : α) : tgetD (tput t k v) k d = v := by simp [tgetD]
theorem tgetD_tput_other {α : Type} (t : Table α) {k j : Nat} (v d : α) (h : j ≠ k) : tgetD (tput t k v) j d = tgetD t j d := by
  simp [tgetD, tget_tput_other t v h]

/-! ### Fabric messages -/

theorem Dev.linkEmit_frame (d : Dev) (l : Nat) (h p : List Byte) : ∃ f o, d.linkEmit l h p = { d with fab := f, out := o } := ⟨_, _, rfl⟩

theorem Dev.modLink_frame {d e : Dev} (l : Nat) (g : Link → Link) (h : ∃ f o, e = { d with fab := f, out := o }) :
    ∃ f o, e.modLink l g = { d with fab := f, out := o } := by
  obtain ⟨f, o, rfl⟩ := h
  exact ⟨_, _, rfl⟩

theorem Dev.linkDrain_frame (d : Dev) (l : Nat) : ∃ f o, d.linkDrain l = { d with fab := f, out := o } := by
  unfold Dev.linkDrain
  split
  · exact ⟨d.fab, d.out, rfl⟩
  · apply Dev.modLink_frame
    suffices h : ∀ (xs : List (List Byte × List Byte)) (x : Dev × List Nat × List (List Byte × List Byte)),
        (∃ f o, x.1 = { d with fab := f, out := o }) → ∃ f o, (xs.foldl (fun (x : Dev × List Nat × List (List Byte × List Byte)) f =>
          let (d, held, left) := x
          let c := headClass f.1
          if ! held.contains c ∧ (d.linkAt l).may c f.2 then (d.linkEmit l f.1 f.2, held, left) else (d, c :: held, left ++ [f])) x).1
          = { d with fab := f, out := o } from h _ _ ⟨d.fab, d.out, rfl⟩
    intro xs
    induction xs with
    | nil => exact fun x hx => hx
    | cons a xs ih =>
      rintro ⟨e, held, left⟩ ⟨f, o, h⟩
      simp only [List.foldl_cons]
      apply ih
      simp only at h ⊢
      split
      · obtain ⟨f', o', h'⟩ := Dev.linkEmit_frame e l a.1 a.2
        exact ⟨f', o', by rw [h', h]⟩
      · exact ⟨f, o, h⟩

theorem Dev.linkQueue_frame (d : Dev) (l : Nat) (h p : List Byte) : ∃ f o, d.linkQueue l h p = { d with fab := f, out := o } := by
  obtain ⟨f, o, e⟩ := Dev.linkDrain_frame (d.modLink l fun k => { k with waiting := k.waiting ++ [(h, p)] }) l
  exact ⟨f, o, e.trans rfl⟩

theorem Dev.fabForward_frame (d : Dev) (h p : List Byte) : ∃ f o, d.fabForward h p = { d with fab := f, out := o } := by
  unfold Dev.fabForward
  split
  · exact Dev.linkQueue_frame ..
  · exact ⟨d.fab, d.out, rfl⟩

theorem Dev.e2eSend_frame (d : Dev) (a c t w : Nat) (p : List Byte) : ∃ f o, d.e2eSend a c t w p = { d with fab := f, out := o } := by
  unfold Dev.e2eSend
  obtain ⟨f, o, e⟩ := Dev.fabForward_frame ({ d with fab := { d.fab with tx := _ } } : Dev) _ _
  exact ⟨f, o, e.trans rfl⟩

/-- A fold of steps that change only the fabric and what is emitted changes nothing else. -/
theorem Dev.foldl_fab_frame {α : Type} {g : Dev → α → Dev} (hg : ∀ d a, ∃ f o, g d a = { d with fab := f, out := o }) (xs : List α) (d : Dev) :
    ∃ f o, xs.foldl g d = { d with fab := f, out := o } := by
  induction xs generalizing d with
  | nil => exact ⟨d.fab, d.out, rfl⟩
  | cons a xs ih =>
    obtain ⟨f, o, h⟩ := hg d a
    obtain ⟨f', o', h'⟩ := ih (g d a)
    exact ⟨f', o', by rw [List.foldl_cons, h', h]⟩

/-- A message over the fabric changes the fabric and what has been emitted, and nothing else. -/
theorem Dev.fabSend_frame (d : Dev) (a c t w : Nat) (m : FabMsg) : ∃ f o, d.fabSend a c t w m = { d with fab := f, out := o } :=
  Dev.foldl_fab_frame (fun d p => Dev.e2eSend_frame d a c t w p) _ d

theorem Dev.nearSend_frame (d : Dev) (l t : Nat) (m : FabMsg) : ∃ f o, d.nearSend l t m = { d with fab := f, out := o } :=
  Dev.foldl_fab_frame (fun _ _ => Dev.linkQueue_frame ..) _ d

/-- A control record of the mirror changes the fabric and what has been emitted, and nothing else. -/
theorem Dev.mirrorControl_frame (d : Dev) (r : MirRec) : ∃ f o, d.mirrorControl r = { d with fab := f, out := o } := by
  unfold Dev.mirrorControl
  split
  · exact Dev.fabSend_frame ..
  · exact ⟨d.fab, d.out, rfl⟩

/-! ### Completions and messages of the tenants -/

/-- A message-signalled interrupt changes the pending bits or what has been emitted. -/
theorem Dev.sendMsix_frame (d : Dev) (v : Nat) : ∃ c o, d.sendMsix v = { d with ctl := c, out := o } := by
  unfold Dev.sendMsix
  split
  · exact ⟨_, d.out, rfl⟩
  · exact ⟨d.ctl, _, rfl⟩

theorem Dev.coalesce_frame (d : Dev) (r : Nat) : ∃ c o, d.coalesce r = { d with ctl := c, out := o } := by
  unfold Dev.coalesce
  simp only
  split
  · obtain ⟨c, o, e⟩ := Dev.sendMsix_frame (d.modRing r fun g => { g with pend := 0 }) (d.fld Fld.pciRingCfgVec r)
    exact ⟨c, o, e.trans rfl⟩
  · exact ⟨_, d.out, rfl⟩

theorem Dev.writeCpl_frame (d : Dev) (r n : Nat) (c : Cpl) : ∃ k o, d.writeCpl r n c = { d with ctl := k, out := o } := by
  unfold Dev.writeCpl
  simp only
  split
  · obtain ⟨k, o, e⟩ := Dev.coalesce_frame ((d.emit _).modRing r _) r
    exact ⟨k, o, e.trans rfl⟩
  · obtain ⟨k, o, e⟩ := Dev.coalesce_frame (((d.emit _).emit _).modRing r _) r
    exact ⟨k, o, e.trans rfl⟩

/-- A completion changes its ring, the interrupts and what has been emitted, and nothing else. -/
theorem Dev.postCpl_frame (d : Dev) (r : Nat) (c : Cpl) : ∃ k o, d.postCpl r c = { d with ctl := k, out := o } := by
  unfold Dev.postCpl
  split
  · exact Dev.writeCpl_frame ..
  · exact ⟨_, d.out, rfl⟩

/-- The completion of an admin command changes its ring, the interrupts and what has been emitted. -/
theorem Dev.adminDone_frame (d : Dev) (t : BitVec 16) (st i : Nat) : ∃ k o, d.adminDone t st i = { d with ctl := k, out := o } := by
  unfold Dev.adminDone
  split
  · exact ⟨d.ctl, d.out, rfl⟩
  · exact Dev.postCpl_frame ..

/-- A message of a connection is emitted and its bytes are counted against the connection's rate, or it is held back: only the held
messages, what has been emitted and the connections change. -/
theorem Dev.emitOn_frame (d : Dev) (c : Nat) (m : Out) :
    ∃ e o cs, d.emitOn c m = { d with eth := e, out := o, rte := { d.rte with conns := cs } } := by
  unfold Dev.emitOn
  split
  · exact ⟨d.eth, _, d.rte.conns, rfl⟩
  · split
    · exact ⟨_, d.out, d.rte.conns, rfl⟩
    · exact ⟨d.eth, _, _, rfl⟩

theorem Dev.modConn_frame {d e : Dev} (c : Nat) (g : Conn → Conn)
    (h : ∃ f x o cs, e = { d with fab := f, eth := x, out := o, rte := { d.rte with conns := cs } }) :
    ∃ f x o cs, e.modConn c g = { d with fab := f, eth := x, out := o, rte := { d.rte with conns := cs } } := by
  obtain ⟨f, x, o, cs, rfl⟩ := h
  exact ⟨_, _, _, _, rfl⟩

/-- A message to a tenant changes the fabric, the held packets, what has been emitted and the connections, and nothing else. -/
theorem Dev.sendMessage_frame (d : Dev) (c n : Nat) (m : Out) (b : List Byte) (x : Option Nat) :
    ∃ f e o cs, d.sendMessage c n m b x = { d with fab := f, eth := e, out := o, rte := { d.rte with conns := cs } } := by
  unfold Dev.sendMessage
  split
  · exact ⟨d.fab, d.eth, d.out, d.rte.conns, rfl⟩
  · rename_i k _
    obtain ⟨f, o, h⟩ := Dev.foldl_fab_frame (fun (d : Dev) (i : Nat) => Dev.mirrorControl_frame d (.psn c (k.sqPsn + BitVec.ofNat 24 i) b x)) (List.range n) d
    apply Dev.modConn_frame
    simp only [h]
    obtain ⟨e, o', cs, h'⟩ := Dev.emitOn_frame ({ d with fab := f, out := o } : Dev) c m
    exact ⟨f, e, o', cs, h'⟩

/-- A capsule to a tenant changes the fabric, the rings, the held packets, what has been emitted and the connections. -/
theorem Dev.sendCap_frame (d : Dev) (key : Nat) (b : List Byte) (y : Bool) :
    ∃ f k e o cs, d.sendCap key b y = { d with fab := f, ctl := k, eth := e, out := o, rte := { d.rte with conns := cs } } := by
  unfold Dev.sendCap
  split
  · obtain ⟨k, o, h⟩ := Dev.postCpl_frame d (key - 16384) _
    exact ⟨d.fab, k, d.eth, o, d.rte.conns, h⟩
  · split
    · obtain ⟨f, e, o, cs, h⟩ := Dev.sendMessage_frame d key 1 (.send key b) b none
      exact ⟨f, d.ctl, e, o, cs, h⟩
    · exact ⟨d.fab, d.ctl, d.eth, d.out, d.rte.conns, rfl⟩

/-- A response or READY capsule that falls due changes what a capsule changes, the tick's counts and the queue of capsules that are
due: no command and no session. -/
theorem Dev.capDue_frame (d : Dev) (key : Nat) (b : List Byte) (y : Bool) :
    ∃ f k e o cs g n q, d.capDue key b y = { d with fab := f, ctl := k, eth := e, out := o, rte := { d.rte with
      conns := cs, grantsSent := g, respsSent := n, dueq := q } } := by
  unfold Dev.capDue
  split
  · obtain ⟨f, k, e, o, cs, h⟩ := Dev.sendCap_frame d key b y
    exact ⟨f, k, e, o, cs, d.rte.grantsSent + b2n y, d.rte.respsSent + b2n (! y), d.rte.dueq, by simp only [Dev.sendCounted, h]⟩
  · exact ⟨d.fab, d.ctl, d.eth, d.out, d.rte.conns, d.rte.grantsSent, d.rte.respsSent, _, rfl⟩

theorem Dev.respond_frame (d : Dev) (key : Nat) (b : List Byte) :
    ∃ f k e o cs g n q, d.respond key b = { d with fab := f, ctl := k, eth := e, out := o, rte := { d.rte with
      conns := cs, grantsSent := g, respsSent := n, dueq := q } } := Dev.capDue_frame d key b false

/-- Answering a command marks it answered, and otherwise changes only what a response changes (R36, R59). -/
theorem Dev.answer_frame {d : Dev} {id : Nat} {k : Cmd} (st fl a b c : Nat) (h : tget d.rte.cmds id = some k) (hk : k.answered = false) :
    ∃ f r e o cs g n q, d.answer id st fl a b c = { d with fab := f, ctl := r, eth := e, out := o, rte := { d.rte with
      cmds := tmod d.rte.cmds id fun k => { k with answered := true }, conns := cs, grantsSent := g, respsSent := n, dueq := q } } := by
  unfold Dev.answer
  simp only [h, hk, Bool.false_eq_true, if_false]
  obtain ⟨f, r, e, o, cs, g, n, q, h'⟩ := Dev.respond_frame (d.modCmd id fun k => { k with answered := true }) k.src
    (responseBytes st k.tag (if k.op = opOpen ∧ st = stOk then a else k.session) fl a b c)
  exact ⟨f, r, e, o, cs, g, n, q, h'.trans rfl⟩

/-- The answer to a capsule that failed a check only joins the capsules that are due (R488). -/
theorem Dev.refuse_frame (d : Dev) (key : Nat) (b : List Byte) : ∃ q, d.refuse key b = { d with rte := { d.rte with dueq := q } } := ⟨_, rfl⟩

/-! ### Events, records and buffer memory -/

/-- What an access to buffer memory may change of the device: counters and registers, its own bookkeeping, events, the feed, records. -/
def Dev.MemOnly (d e : Dev) : Prop := ∃ r m c q h, e = { d with regs := r, mem := m, ctl := c, que := q, hlt := h }

theorem Dev.MemOnly.refl (d : Dev) : d.MemOnly d := ⟨d.regs, d.mem, d.ctl, d.que, d.hlt, rfl⟩
theorem Dev.MemOnly.trans {a b c : Dev} (h : a.MemOnly b) (k : b.MemOnly c) : a.MemOnly c := by
  obtain ⟨_, _, _, _, _, rfl⟩ := h
  obtain ⟨r, m, c, q, h, rfl⟩ := k
  exact ⟨r, m, c, q, h, rfl⟩

theorem Dev.setFld_memOnly (d : Dev) (f : Fld) (i v : Nat) : d.MemOnly (d.setFld f i v) := ⟨_, d.mem, d.ctl, d.que, d.hlt, rfl⟩
theorem Dev.bump_memOnly (d : Dev) (f : Fld) (i n : Nat) : d.MemOnly (d.bump f i n) := Dev.setFld_memOnly ..
theorem Dev.postEvent_memOnly (d : Dev) (c b i : Nat) (l : List Word64) : d.MemOnly (d.postEvent c b i l) := ⟨d.regs, d.mem, _, d.que, d.hlt, rfl⟩

theorem Dev.memLastErr_memOnly (d : Dev) (w c : Nat) : d.MemOnly (d.memLastErr w c) :=
  (Dev.setFld_memOnly ..).trans ((Dev.setFld_memOnly ..).trans (Dev.setFld_memOnly ..))

theorem Dev.modQue_memOnly (d : Dev) (q : Nat) (f : QueSt → QueSt) : d.MemOnly (d.modQue q f) := ⟨d.regs, d.mem, d.ctl, _, d.hlt, rfl⟩

theorem Dev.queStore_memOnly (d : Dev) (q s : Nat) (e : List Byte) : d.MemOnly (d.queStore q s e) := by
  unfold Dev.queStore
  split
  · exact ⟨d.regs, d.mem, d.ctl, _, d.hlt, rfl⟩
  · exact Dev.MemOnly.refl d

theorem Dev.MemOnly.foldl {α : Type} {g : Dev → α → Dev} (hg : ∀ (d : Dev) (a : α), d.MemOnly (g d a)) (xs : List α) (d : Dev) : d.MemOnly (xs.foldl g d) := by
  induction xs generalizing d with
  | nil => exact Dev.MemOnly.refl d
  | cons a xs ih => exact (hg d a).trans (ih _)

theorem Dev.quePush_memOnly (d : Dev) (q : Nat) (it : QItem) : d.MemOnly (d.quePush q it) := by
  unfold Dev.quePush
  exact Dev.MemOnly.trans (Dev.MemOnly.foldl (fun d i => Dev.queStore_memOnly d ..) _ d) (Dev.modQue_memOnly ..)

/-- A dropping write to a queue changes that queue, its counter and the entries that go to its area. -/
theorem Dev.queDropWrite_memOnly (d : Dev) (q : Nat) (b : List Byte) : d.MemOnly (d.queDropWrite q b) := by
  unfold Dev.queDropWrite
  simp only
  repeat' split
  · exact Dev.MemOnly.refl d
  · exact Dev.bump_memOnly ..
  · exact (Dev.quePush_memOnly ..).trans (Dev.bump_memOnly ..)
  · exact (Dev.modQue_memOnly ..).trans (Dev.bump_memOnly ..)
  · exact (Dev.quePush_memOnly ..).trans ((Dev.quePush_memOnly ..).trans ((Dev.modQue_memOnly ..).trans (Dev.bump_memOnly ..)))
  · exact (Dev.quePush_memOnly ..).trans ((Dev.modQue_memOnly ..).trans (Dev.bump_memOnly ..))
  · exact (Dev.modQue_memOnly ..).trans (Dev.bump_memOnly ..)

theorem Dev.cellar_memOnly (d : Dev) (b i c : Nat) (p : List Byte) : d.MemOnly (d.cellar b i c p) := by
  unfold Dev.cellar
  exact Dev.MemOnly.trans ⟨d.regs, d.mem, d.ctl, d.que, _, rfl⟩ (Dev.queDropWrite_memOnly _ _ _)

theorem Dev.postBoth_memOnly (d : Dev) (c b i : Nat) (l : List Word64) : d.MemOnly (d.postBoth c b i l) :=
  (Dev.postEvent_memOnly ..).trans (Dev.cellar_memOnly ..)

theorem Dev.memClass_memOnly (d : Dev) (w k : Nat) (c : MemClass) : d.MemOnly (d.memClass w k c) := by
  unfold Dev.memClass
  cases c
  case corrected =>
    simp only [Dev.memCorrected]
    split
    · exact (Dev.bump_memOnly ..).trans ((Dev.setFld_memOnly ..).trans (Dev.postBoth_memOnly ..))
    · exact (Dev.bump_memOnly ..).trans (Dev.setFld_memOnly ..)
  case uncorrectable =>
    simp only [Dev.memUncorrectable]
    split
    · exact (Dev.bump_memOnly ..).trans (Dev.memLastErr_memOnly ..)
    · exact Dev.MemOnly.trans ((Dev.bump_memOnly ..).trans ((Dev.memLastErr_memOnly ..).trans (Dev.postBoth_memOnly ..))) ⟨_, _, _, _, _, rfl⟩
  case addressFault =>
    simp only [Dev.memAddrFault]
    split
    · exact (Dev.bump_memOnly ..).trans (Dev.memLastErr_memOnly ..)
    · exact Dev.MemOnly.trans ((Dev.bump_memOnly ..).trans ((Dev.memLastErr_memOnly ..).trans (Dev.postBoth_memOnly ..))) ⟨_, _, _, _, _, rfl⟩
  all_goals exact Dev.MemOnly.refl d

theorem Dev.memUnfilled_memOnly (d : Dev) (h : Hbm) (w : Nat) : d.MemOnly (d.memUnfilled h w) := by
  unfold Dev.memUnfilled
  simp only
  split
  · exact Dev.MemOnly.refl d
  · split
    · exact Dev.bump_memOnly ..
    · exact Dev.MemOnly.trans ((Dev.bump_memOnly ..).trans (Dev.postEvent_memOnly ..)) ⟨_, _, _, _, _, rfl⟩

theorem Dev.mashDrop_memOnly (d : Dev) (w : Nat) : d.MemOnly (d.mashDrop w) := ⟨d.regs, _, d.ctl, d.que, d.hlt, rfl⟩

theorem memPut_memOnly (hd : Hbm × Dev) (w : Nat) (b : List Byte) (p : Bool) : hd.2.MemOnly (memPut hd w b p).2 :=
  (Dev.mashDrop_memOnly ..).trans (Dev.memUnfilled_memOnly ..)

theorem mashOut_memOnly (hd : Hbm × Dev) (e : MashEntry) : hd.2.MemOnly (mashOut hd e).2 := by
  simp only [mashOut]
  split
  · exact (Dev.mashDrop_memOnly ..).trans (Dev.memUnfilled_memOnly ..)
  · exact (Dev.mashDrop_memOnly ..).trans ((Dev.memClass_memOnly ..).trans ((Dev.bump_memOnly ..).trans (Dev.memUnfilled_memOnly ..)))

theorem mashMerge_memOnly (hd : Hbm × Dev) (w off : Nat) (b : List Byte) (p : Bool) : hd.2.MemOnly (mashMerge hd w off b p).2 := by
  simp only [mashMerge]
  split
  · exact ⟨_, _, _, _, _, rfl⟩
  · split
    · split
      · exact (mashOut_memOnly hd _).trans ⟨_, _, _, _, _, rfl⟩
      · exact ⟨_, _, _, _, _, rfl⟩
    · exact ⟨_, _, _, _, _, rfl⟩

theorem memPutGo_memOnly (p : Bool) (n : Nat) (hd : Hbm × Dev) (w off : Nat) (b : List Byte) : hd.2.MemOnly (memPutGo p n hd w off b).2 := by
  induction n generalizing hd w off b with
  | zero => exact Dev.MemOnly.refl _
  | succ n ih =>
    simp only [memPutGo]
    split
    · exact Dev.MemOnly.refl _
    · refine Dev.MemOnly.trans ?_ (ih _ _ _ _)
      split
      · exact memPut_memOnly ..
      · exact mashMerge_memOnly ..

/-- A write to buffer memory changes the device only as `Dev.MemOnly` says. -/
theorem memWrite_memOnly (hd : Hbm × Dev) (a : Nat) (b : List Byte) (p : Bool) : hd.2.MemOnly (memWrite hd a b p).2 := memPutGo_memOnly ..
theorem bufWrite_memOnly (hd : Hbm × Dev) (k : BitVec 32) (o : Nat) (b : List Byte) (p : Bool) : hd.2.MemOnly (bufWrite hd k o b p).2 :=
  memWrite_memOnly ..

theorem Dev.memReadWords_memOnly (h : Hbm) (k n : Nat) (d : Dev) (w : Nat) : d.MemOnly (Dev.memReadWords h k n d w).1 := by
  induction n generalizing d w with
  | zero => exact Dev.MemOnly.refl d
  | succ n ih =>
    simp only [Dev.memReadWords]
    refine Dev.MemOnly.trans ?_ (ih _ _)
    simp only [Dev.memRead]
    split <;> exact Dev.memClass_memOnly ..

/-- A read of buffer memory changes the device only as `Dev.MemOnly` says. -/
theorem Dev.memBytes_memOnly (d : Dev) (h : Hbm) (a n k : Nat) : d.MemOnly (d.memBytes h a n k).1 := Dev.memReadWords_memOnly ..
theorem Dev.bufBytes_memOnly (d : Dev) (h : Hbm) (b : BitVec 32) (o n k : Nat) : d.MemOnly (d.bufBytes h b o n k).1 := Dev.memBytes_memOnly ..

end Sys2Proof.Machine
end

