-- ==== Sys2Proof/Laws/Memory.lean ====
section
/-! SUPPORT. Buffer memory: reading after writing, and that every memory operation keeps the canonical form. -/

namespace Sys2Proof.Machine

theorem cellsWf_iff {top : Nat} {dflt : Nat → Byte} {l : List Host.Cell} :
    cellsWf top dflt l = true ↔ Rising l = true ∧ ∀ c ∈ l, c.1 < top ∧ c.2 ≠ dflt c.1 := by
  simp [cellsWf]

theorem cellsWf_tputD {top : Nat} {dflt : Nat → Byte} {l : List Host.Cell} {k : Nat} (v : Byte) (hk : k < top)
    (h : cellsWf top dflt l = true) : cellsWf top dflt (tputD l k (dflt k) v) = true := by
  rw [cellsWf_iff] at h ⊢
  refine ⟨rising_tputD k _ _ h.1, fun c hc => ?_⟩
  unfold tputD at hc
  split at hc
  · exact h.2 c (mem_tdel hc)
  · rename_i hv
    rcases mem_tput hc with rfl | hc
    · exact ⟨hk, hv⟩
    · exact h.2 c hc

theorem Hbm.setByte_wf {h : Hbm} (a : Nat) (v : Byte) (hw : Memory.wf h = true) : Memory.wf (h.setByte a v) = true := by
  unfold Hbm.setByte
  split
  · rename_i ha
    simp only [Memory.wf, Bool.and_eq_true] at hw ⊢
    exact ⟨cellsWf_tputD (dflt := h.dataDefault) v ha hw.1, hw.2⟩
  · exact hw

theorem Hbm.setCheck_wf {h : Hbm} (c : Nat) (v : Byte) (hw : Memory.wf h = true) : Memory.wf (h.setCheck c v) = true := by
  unfold Hbm.setCheck
  split
  · rename_i ha
    simp only [Memory.wf, Bool.and_eq_true] at hw ⊢
    exact ⟨hw.1, cellsWf_tputD (dflt := h.chkDefault) v ha hw.2⟩
  · exact hw

theorem Hbm.setBytes_wf {h : Hbm} (a : Nat) (bs : List Byte) (hw : Memory.wf h = true) : Memory.wf (h.setBytes a bs) = true := by
  induction bs generalizing h a with
  | nil => exact hw
  | cons b bs ih => exact ih (a + 1) (Hbm.setByte_wf a b hw)

theorem Hbm.setChecks_wf {h : Hbm} (c : Nat) (bs : List Byte) (hw : Memory.wf h = true) : Memory.wf (h.setChecks c bs) = true := by
  induction bs generalizing h c with
  | nil => exact hw
  | cons b bs ih => exact ih (c + 1) (Hbm.setCheck_wf c b hw)

theorem Hbm.putWord_wf {h : Hbm} (w : Nat) (data : List Byte) (poison : Bool) (hw : Memory.wf h = true) :
    Memory.wf (h.putWord w data poison) = true := Hbm.setChecks_wf _ _ (Hbm.setBytes_wf _ _ hw)

@[simp] theorem Hbm.empty_wf : Memory.wf Hbm.empty = true := rfl

/-! ### FILL -/

theorem runInsert_find {x : FillRun} {p : FillRun → Bool} (hx : p x = false) (rs : List FillRun) : (runInsert x rs).find? p = rs.find? p := by
  induction rs with
  | nil => simp [runInsert, hx]
  | cons r rs ih =>
    simp only [runInsert]
    split
    · simp [List.find?, hx]
    · simp only [List.find?]; split <;> simp_all

/-- What is left of a run covers exactly the pages that it covered outside the range, with the same contents. -/
theorem runWithout_find {first last page : Nat} (r : FillRun) (hp : page < first ∨ last < page) :
    ((runWithout first last r).find? fun r => decide (r.first ≤ page) && decide (page ≤ r.last)).map (fun x => (x.pattern, x.poison)) =
      if r.first ≤ page ∧ page ≤ r.last then some (r.pattern, r.poison) else none := by
  unfold runWithout
  split
  · rw [List.find?_singleton]; by_cases h : r.first ≤ page ∧ page ≤ r.last <;> simp [h]
  · rename_i hno
    rw [List.find?_append]
    have a1 : (List.find? (fun r => decide (r.first ≤ page) && decide (page ≤ r.last)) (if r.first < first then [{ r with last := first - 1 }] else [])) =
        if r.first ≤ page ∧ page < first then some { r with last := first - 1 } else none := by
      split
      · rw [List.find?_singleton]
        by_cases h : r.first ≤ page ∧ page < first
        · rw [if_pos h, if_pos]; simp; omega
        · rw [if_neg h, if_neg]; simp; omega
      · rw [if_neg (by omega)]; rfl
    have a2 : (List.find? (fun r => decide (r.first ≤ page) && decide (page ≤ r.last)) (if last < r.last then [{ r with first := last + 1 }] else [])) =
        if last < page ∧ page ≤ r.last then some { r with first := last + 1 } else none := by
      split
      · rw [List.find?_singleton]
        by_cases h : last < page ∧ page ≤ r.last
        · rw [if_pos h, if_pos]; simp; omega
        · rw [if_neg h, if_neg]; simp; omega
      · rw [if_neg (by omega)]; rfl
    rw [a1, a2]
    by_cases h : r.first ≤ page ∧ page ≤ r.last
    · rw [if_pos h]
      by_cases h1 : page < first
      · rw [if_pos ⟨h.1, h1⟩]; rfl
      · rw [if_neg (by omega), if_pos (by omega)]; rfl
    · rw [if_neg h, if_neg (by omega), if_neg (by omega)]; rfl

theorem runs_find {first last page : Nat} (rs : List FillRun) (hp : page < first ∨ last < page) :
    ((rs.flatMap (runWithout first last)).find? fun r => decide (r.first ≤ page) && decide (page ≤ r.last)).map (fun x => (x.pattern, x.poison)) =
      (rs.find? fun r => decide (r.first ≤ page) && decide (page ≤ r.last)).map (fun x => (x.pattern, x.poison)) := by
  induction rs with
  | nil => rfl
  | cons r rs ih =>
    rw [List.flatMap_cons, List.find?_append, Option.map_or, runWithout_find r hp, ih]
    by_cases h : r.first ≤ page ∧ page ≤ r.last
    · rw [if_pos h, List.find?_cons_of_pos (by simpa using h)]; rfl
    · rw [if_neg h, List.find?_cons_of_neg (by simpa using h)]; rfl

/-- A page outside the range that FILL writes keeps what FILL had put there before. -/
theorem Hbm.fill_run {h : Hbm} {first last page : Nat} (pat : BitVec 32) (po : Bool) (hp : page < first ∨ last < page) :
    ((h.fill first last pat po).runAt page).map (fun x => (x.pattern, x.poison)) = (h.runAt page).map (fun x => (x.pattern, x.poison)) := by
  simp only [Hbm.fill, Hbm.runAt]
  rw [runInsert_find (by simp; omega)]
  exact runs_find h.runs hp

theorem Hbm.fill_dataDefault {h : Hbm} {first last a : Nat} (pat : BitVec 32) (po : Bool) (hp : a / 4096 < first ∨ last < a / 4096) :
    (h.fill first last pat po).dataDefault a = h.dataDefault a := by
  have e := Hbm.fill_run (h := h) pat po hp
  unfold Hbm.dataDefault
  cases h1 : (h.fill first last pat po).runAt (a / 4096) <;> cases h2 : h.runAt (a / 4096) <;> simp_all

theorem Hbm.fill_chkDefault {h : Hbm} {first last c : Nat} (pat : BitVec 32) (po : Bool) (hp : c / 512 < first ∨ last < c / 512) :
    (h.fill first last pat po).chkDefault c = h.chkDefault c := by
  have e := Hbm.fill_run (h := h) pat po hp
  unfold Hbm.chkDefault
  cases h1 : (h.fill first last pat po).runAt (c / 512) <;> cases h2 : h.runAt (c / 512) <;> simp_all

theorem Hbm.fill_wf {h : Hbm} (first last : Nat) (pat : BitVec 32) (po : Bool) (hw : Memory.wf h = true) :
    Memory.wf (h.fill first last pat po) = true := by
  simp only [Memory.wf, Bool.and_eq_true, cellsWf_iff] at hw ⊢
  refine ⟨⟨rising_filter _ hw.1.1, fun c hc => ?_⟩, ⟨rising_filter _ hw.2.1, fun c hc => ?_⟩⟩
  · obtain ⟨hm, hp⟩ := List.mem_filter.1 hc
    have := hw.1.2 c hm
    exact ⟨this.1, by rw [Hbm.fill_dataDefault pat po (by simpa using hp)]; exact this.2⟩
  · obtain ⟨hm, hp⟩ := List.mem_filter.1 hc
    have := hw.2.2 c hm
    exact ⟨this.1, by rw [Hbm.fill_chkDefault pat po (by simpa using hp)]; exact this.2⟩

/-! ### Reading after writing -/

theorem Hbm.byte_setByte_self (h : Hbm) {a : Nat} (v : Byte) (ha : a < 32 * hbmWords) : (h.setByte a v).byte a = v := by
  simp only [Hbm.setByte, if_pos ha, Hbm.byte]
  exact tgetD_tputD_self h.data a _ v

theorem Hbm.byte_setByte_other (h : Hbm) {a b : Nat} (v : Byte) (hab : b ≠ a) : (h.setByte a v).byte b = h.byte b := by
  unfold Hbm.setByte
  split
  · exact tgetD_tputD_other h.data _ _ v hab
  · rfl

@[simp] theorem Hbm.byte_setCheck (h : Hbm) (c : Nat) (v : Byte) (b : Nat) : (h.setCheck c v).byte b = h.byte b := by
  unfold Hbm.setCheck; split <;> rfl

@[simp] theorem Hbm.check_setByte (h : Hbm) (a : Nat) (v : Byte) (c : Nat) : (h.setByte a v).check c = h.check c := by
  unfold Hbm.setByte; split <;> rfl

@[simp] theorem Hbm.byte_setChecks (h : Hbm) (c : Nat) (bs : List Byte) (b : Nat) : (h.setChecks c bs).byte b = h.byte b := by
  induction bs generalizing h c with
  | nil => rfl
  | cons x bs ih => rw [Hbm.setChecks, ih, Hbm.byte_setCheck]

/-- Bytes stored from `a` on leave every other byte as it was. -/
theorem Hbm.byte_setBytes_other (h : Hbm) (a : Nat) (bs : List Byte) {b : Nat} (hb : b < a ∨ a + bs.length ≤ b) : (h.setBytes a bs).byte b = h.byte b := by
  induction bs generalizing h a with
  | nil => rfl
  | cons x bs ih =>
    simp only [List.length_cons] at hb
    rw [Hbm.setBytes, ih _ _ (by omega), Hbm.byte_setByte_other _ _ (by omega)]

/-- A word that is stored leaves every byte outside it as it was. -/
theorem Hbm.byte_putWord_other (h : Hbm) (w : Nat) (data : List Byte) (poison : Bool) {b : Nat} (hb : b / 32 ≠ w) :
    (h.putWord w data poison).byte b = h.byte b := by
  unfold Hbm.putWord
  rw [Hbm.byte_setChecks, Hbm.byte_setBytes_other]
  have : (data.take 32).length ≤ 32 := by simp
  omega

/-! ### The operations on memory and device -/

/-- A function on memory and device keeps memory in canonical form. -/
def Keeps (f : Hbm × Dev → Hbm × Dev) : Prop := ∀ hd, Memory.wf hd.1 = true → Memory.wf (f hd).1 = true

theorem Keeps.foldl {α : Type} {f : Hbm × Dev → α → Hbm × Dev} (hf : ∀ a, Keeps fun hd => f hd a) (l : List α) : Keeps fun hd => l.foldl f hd := by
  induction l with
  | nil => exact fun _ h => h
  | cons a l ih => exact fun hd h => ih _ (hf a hd h)

theorem Keeps.comp {f g : Hbm × Dev → Hbm × Dev} (hg : Keeps g) (hf : Keeps f) : Keeps fun hd => g (f hd) := fun hd h => hg _ (hf hd h)

theorem keeps_memPut (w : Nat) (data : List Byte) (poison : Bool) : Keeps fun hd => memPut hd w data poison :=
  fun _ h => Hbm.putWord_wf _ _ _ h

theorem keeps_mashOut (e : MashEntry) : Keeps fun hd => mashOut hd e := by
  intro hd h
  simp only [mashOut]
  split <;> exact Hbm.putWord_wf _ _ _ h

theorem keeps_mashMerge (w off : Nat) (bs : List Byte) (poison : Bool) : Keeps fun hd => mashMerge hd w off bs poison := by
  intro hd h
  simp only [mashMerge]
  split
  · exact h
  · split
    · split
      · exact keeps_mashOut _ hd h
      · exact h
    · exact h

theorem keeps_memPutGo (poison : Bool) (n w off : Nat) (bs : List Byte) : Keeps fun hd => memPutGo poison n hd w off bs := by
  induction n generalizing w off bs with
  | zero => exact fun _ h => h
  | succ n ih =>
    intro hd h
    simp only [memPutGo]
    split
    · exact h
    · refine ih _ _ _ _ ?_
      split
      · exact keeps_memPut _ _ _ hd h
      · exact keeps_mashMerge _ _ _ _ hd h

theorem keeps_memWrite (a : Nat) (bs : List Byte) (poison : Bool) : Keeps fun hd => memWrite hd a bs poison := keeps_memPutGo _ _ _ _ _

theorem keeps_bufWrite (b : BitVec 32) (off : Nat) (bs : List Byte) (poison : Bool) : Keeps fun hd => bufWrite hd b off bs poison :=
  fun hd h => keeps_memWrite _ bs poison hd h

theorem keeps_mashFlushAll : Keeps mashFlushAll := fun hd h => Keeps.foldl keeps_mashOut hd.2.mem.mash hd h

theorem keeps_mashFlushFull : Keeps mashFlushFull := fun hd h => Keeps.foldl keeps_mashOut (hd.2.mem.mash.filter _) hd h

/-- A command over memory and device keeps memory canonical when its operation does. -/
theorem nextHd_canonical {s t : State} {f : Hbm × Dev → Hbm × Dev} (hf : Keeps f) (h : nextHd s f = .next t) (hw : Memory.wf s.hbm = true) :
    Memory.wf t.hbm = true := by
  simp only [nextHd, Host.Outcome.next.injEq] at h
  subst h
  show Memory.wf (if s.dev.coreHeld then s.hd else f s.hd).1 = true
  split
  · exact hw
  · exact hf s.hd hw

end Sys2Proof.Machine
end

