-- ==== Sys2Proof/Laws/Registers.lean ====
section
/-! SUPPORT. Registers and their fields: what a read gives after a write. -/

namespace Sys2Proof.Machine

theorem Dev.rawReg_putReg_self (d : Dev) (r : RegId) (i : Nat) (v : Word32) : (d.putReg r i v).rawReg r i = v :=
  tgetD_tputD_self _ _ _ v

theorem Dev.rawReg_putReg_other (d : Dev) {r q : RegId} {i j : Nat} (v : Word32) (h : q.offset j ≠ r.offset i) :
    (d.putReg r i v).rawReg q j = d.rawReg q j := tgetD_tputD_other d.regs _ _ v h

theorem Dev.putReg_rising {d : Dev} (r : RegId) (i : Nat) (v : Word32) (hr : Rising d.regs = true) : Rising (d.putReg r i v).regs = true :=
  rising_tputD _ _ v hr

theorem Dev.setFld_rising {d : Dev} (f : Fld) (i v : Nat) (hr : Rising d.regs = true) : Rising (d.setFld f i v).regs = true :=
  Dev.putReg_rising _ _ _ hr

theorem setBits_parts (old lo w : Nat) :
    ∃ hi l, l < 2 ^ lo ∧ old = (hi * 2 ^ w + bits old lo w) * 2 ^ lo + l ∧ bits old lo w < 2 ^ w := by
  refine ⟨old / 2 ^ lo / 2 ^ w, old % 2 ^ lo, Nat.mod_lt _ (by positivity), ?_, Nat.mod_lt _ (by positivity)⟩
  have h1 : old / 2 ^ lo / 2 ^ w * 2 ^ w + bits old lo w = old / 2 ^ lo := by
    unfold bits; rw [Nat.mul_comm]; exact Nat.div_add_mod _ _
  rw [h1, Nat.mul_comm]; exact (Nat.div_add_mod _ _).symm

theorem setBits_eq (old lo w v : Nat) : ∃ hi l, l < 2 ^ lo ∧ old = (hi * 2 ^ w + bits old lo w) * 2 ^ lo + l ∧
    setBits old lo w v = (hi * 2 ^ w + v % 2 ^ w) * 2 ^ lo + l := by
  obtain ⟨hi, l, hl, ho, hb⟩ := setBits_parts old lo w
  refine ⟨hi, l, hl, ho, ?_⟩
  unfold setBits
  generalize bits old lo w = b at *
  have : old - b * 2 ^ lo = hi * 2 ^ w * 2 ^ lo + l := by
    rw [ho, Nat.add_mul]; omega
  rw [this, Nat.add_mul]; omega

theorem bits_setBits_self (old lo w v : Nat) : bits (setBits old lo w v) lo w = v % 2 ^ w := by
  obtain ⟨hi, l, hl, -, h⟩ := setBits_eq old lo w v
  rw [h]; unfold bits
  rw [Nat.add_comm, Nat.add_mul_div_right _ _ (by positivity), Nat.div_eq_of_lt hl, Nat.zero_add, Nat.add_comm, Nat.add_mul_mod_self_right,
    Nat.mod_mod]

theorem setBits_lt {old lo w v n : Nat} (h : old < 2 ^ n) (hn : lo + w ≤ n) : setBits old lo w v < 2 ^ n := by
  obtain ⟨hi, l, hl, ho, hs⟩ := setBits_eq old lo w v
  rw [hs]
  have hv : v % 2 ^ w < 2 ^ w := Nat.mod_lt _ (by positivity)
  have hpow : 2 ^ n = 2 ^ (n - lo - w) * 2 ^ w * 2 ^ lo := by rw [← pow_add, ← pow_add]; congr 1; omega
  have hhi : hi < 2 ^ (n - lo - w) := by
    by_contra hc
    have : 2 ^ (n - lo - w) * 2 ^ w * 2 ^ lo ≤ hi * 2 ^ w * 2 ^ lo := by
      exact Nat.mul_le_mul_right _ (Nat.mul_le_mul_right _ (by omega))
    rw [Nat.add_mul] at ho; omega
  have : (hi * 2 ^ w + v % 2 ^ w) + 1 ≤ 2 ^ (n - lo - w) * 2 ^ w := by
    have : (hi + 1) * 2 ^ w ≤ 2 ^ (n - lo - w) * 2 ^ w := Nat.mul_le_mul_right _ (by omega)
    rw [Nat.add_mul] at this; omega
  have := Nat.mul_le_mul_right (2 ^ lo) this
  rw [hpow]
  rw [Nat.add_mul] at this; omega

/-- A field reads back what was written to it. -/
theorem Dev.fld_setFld_self (d : Dev) (f : Fld) (i v : Nat) (hf : f.lo + f.width ≤ 32) :
    (d.setFld f i v).fld f i = v % 2 ^ f.width := by
  unfold Dev.fld Dev.setFld
  rw [Dev.rawReg_putReg_self, BitVec.toNat_ofNat, Nat.mod_eq_of_lt (setBits_lt (BitVec.isLt _) hf), bits_setBits_self]

/-- A field of another register is as it was. -/
theorem Dev.fld_setFld_other (d : Dev) {f g : Fld} {i j : Nat} (v : Nat) (h : g.reg.offset j ≠ f.reg.offset i) :
    (d.setFld f i v).fld g j = d.fld g j := by
  unfold Dev.fld Dev.setFld
  rw [Dev.rawReg_putReg_other d _ h]

end Sys2Proof.Machine
end

