-- ==== Sys2Proof/WellFormed.lean ====
section
/-! DEFINITION. Well-formed commands: every number that names an instance lies in the range that the manual gives it. A meaning
never relies on it: a number out of range names nothing, and the command then has no effect. -/

namespace Sys2Proof

/-- What a check of a command's operands is about. -/
inductive Operand where
  | transport | reel | channel | subset | slot | member | ring | vector | port | group | link | queue | connection | core
  | supply | sensors | word | fabricPort | fabricClass | key
  deriving DecidableEq, Repr

/-- One past the largest value of an operand that is a number (R1, R31, R169, R199, R297, R362, R380, R388, R404, R464, R485). -/
def Operand.top : Operand → Nat
  | .transport => 8
  | .reel => 2
  | .channel => 64
  | .subset => 64
  | .slot => 16
  | .member => 32
  | .ring => 256
  | .vector => 2048
  | .port => 16
  | .group => 4
  | .link => 12
  | .queue => 256
  | .connection => 16384
  | .core => 16
  | .supply => 6
  | .sensors => 24
  | .word => 1610612736
  | .fabricPort => 8
  | .fabricClass => 5
  | .key => 65536

/-- A capsule's source exists. -/
def Src.operand : Src → Operand × Nat
  | .conn c => (.connection, c)
  | .ring r => (.ring, r)

/-- The numbered operands of a command. -/
def Instr.operands : Instr → List (Operand × Nat)
  | .tickBoundary _ => []
  | .overrun _ _ _ _ _ => []
  | .writeLeadExhausted t => [(.transport, t)]
  | .ctlWindow c _ => [(.core, c)]
  | .openSession s _ => [s.operand]
  | .closeSession s _ => [s.operand]
  | .writeRecords s _ => [s.operand]
  | .writeMark s _ => [s.operand]
  | .sync s _ => [s.operand]
  | .readRecords s _ => [s.operand]
  | .locateHint s _ => [s.operand]
  | .querySession s _ => [s.operand]
  | .querySlots s _ => [s.operand]
  | .abort s _ => [s.operand]
  | .pushData r _ => [(.ring, r)]
  | .unsupportedOperation c _ => [(.connection, c)]
  | .rdmaWrite c _ _ _ => [(.connection, c)]
  | .rdmaWriteWithImmediate c _ _ _ _ => [(.connection, c)]
  | .cnpReceive c => [(.connection, c)]
  | .ceMarkedPacket c => [(.connection, c)]
  | .rateRecover c => [(.connection, c)]
  | .commandAdmission s _ => [s.operand]
  | .readyGrant s _ => [s.operand]
  | .bufferedResponse s _ => [s.operand]
  | .onTapeResponse s _ => [s.operand]
  | .readDelivery s _ => [s.operand]
  | .grantTimeout _ => []
  | .grantDrainEnd _ => []
  | .meteringSnapshot => []
  | .meteringRecordPost => []
  | .chunkFill _ => []
  | .chunkClose _ => []
  | .chunkHoldExpiry _ => []
  | .chunkAgeExpiry _ => []
  | .chunkDispatch _ => []
  | .chunkSeal _ => []
  | .chunkRefetch _ _ => []
  | .keyFetch i _ => [(.key, i)]
  | .reserveEpochWritten s => [(.slot, s)]
  | .chunkPlace _ => []
  | .rowClose s => [(.slot, s)]
  | .rowAgeExpiry s => [(.slot, s)]
  | .payloadWordRefetch a _ => [(.word, a)]
  | .verifyResult t c _ => [(.transport, t), (.channel, c)]
  | .upstreamCycle t _ => [(.transport, t)]
  | .underrunPersist t => [(.transport, t)]
  | .portUp t => [(.transport, t)]
  | .portDown t => [(.transport, t)]
  | .identityCheck t _ _ => [(.transport, t)]
  | .linkResponse t _ _ _ => [(.transport, t)]
  | .linkRequestTimeout t => [(.transport, t)]
  | .backhitchResume t => [(.transport, t)]
  | .wrapTurn t => [(.transport, t)]
  | .sdsLateRound t s => [(.transport, t), (.subset, s)]
  | .readRetry t => [(.transport, t)]
  | .spanReconstruct s _ => [(.slot, s)]
  | .readAheadResume t => [(.transport, t)]
  | .motStart t _ => [(.transport, t)]
  | .motStop t => [(.transport, t)]
  | .motFloat t => [(.transport, t)]
  | .motClearFault t => [(.transport, t)]
  | .alignEnd t => [(.transport, t)]
  | .handOver t r => [(.transport, t), (.reel, r)]
  | .startFail t r => [(.transport, t), (.reel, r)]
  | .startRetry t => [(.transport, t)]
  | .stopHold t => [(.transport, t)]
  | .clampClear t => [(.transport, t)]
  | .lostRotor t r => [(.transport, t), (.reel, r)]
  | .motReacquired t r => [(.transport, t), (.reel, r)]
  | .predictExhausted t r => [(.transport, t), (.reel, r)]
  | .pauseEnd t => [(.transport, t)]
  | .offTrack t => [(.transport, t)]
  | .onTrack t => [(.transport, t)]
  | .servoLoss t => [(.transport, t)]
  | .servoLossStop t => [(.transport, t)]
  | .motChopFault t => [(.transport, t)]
  | .slowMemberTimeout s m => [(.slot, s), (.member, m)]
  | .journalPeriod s => [(.slot, s)]
  | .rebuild _ => []
  | .rebuildRow s => [(.slot, s)]
  | .shapeChangeStart _ _ => []
  | .shapeChangeCancel _ => []
  | .shapeActive s => [(.slot, s)]
  | .patrolRow s => [(.slot, s)]
  | .memberStatusFrame s _ m _ _ _ => [(.slot, s), (.member, m)]
  | .bucketLeak => []
  | .mashWriteOut w => [(.word, w)]
  | .fill _ => []
  | .fillComplete => []
  | .queueReset q _ => [(.queue, q)]
  | .queueCfgWrite q _ => [(.queue, q)]
  | .queueFlush q => [(.queue, q)]
  | .pfcRepeat p => [(.port, p)]
  | .sqDoorbell r _ _ _ => [(.ring, r)]
  | .cqDoorbell r _ => [(.ring, r)]
  | .completionPost r => [(.ring, r)]
  | .msixCoalesceTimeout r => [(.ring, r)]
  | .eventPost => []
  | .createConn _ => []
  | .destroyConn _ => []
  | .bindRing _ => []
  | .setTenant _ => []
  | .spanLoad _ _ => []
  | .spanMap _ _ => []
  | .spanListLoss _ => []
  | .spanListSuspect _ => []
  | .spanListRowMap _ => []
  | .spanUnload _ => []
  | .initCartridge _ => []
  | .mount _ => []
  | .mountClaimTimeout t => [(.transport, t)]
  | .dismount _ => []
  | .fwStage _ _ => []
  | .fwActivate _ => []
  | .fwActivated => []
  | .fwActFail c => [(.core, c)]
  | .cellarRead _ => []
  | .bootGo => []
  | .bootLoaded _ => []
  | .setupLock => []
  | .kekLoad => []
  | .failingClear t => [(.transport, t)]
  | .retireWrite t _ _ => [(.transport, t)]
  | .tickLoRead => []
  | .ethModeWrite g _ => [(.group, g)]
  | .fabLinkCfgWrite p _ => [(.fabricPort, p)]
  | .avsOffsetWrite _ => []
  | .badBarAccess _ _ => []
  | .registerWrite _ _ => []
  | .frameReceive l _ => [(.link, l)]
  | .linkReplay l => [(.link, l)]
  | .fabLinkUp l => [(.link, l)]
  | .fabLinkDown l _ => [(.link, l)]
  | .lsaReceive l _ _ _ _ _ _ => [(.link, l)]
  | .lsaRefresh => []
  | .lsaExpire _ _ => []
  | .routeCompute => []
  | .e2eGapTimeout _ c => [(.fabricClass, c)]
  | .e2eResendTimeout _ c => [(.fabricClass, c)]
  | .tickFrameReceive l _ _ _ _ _ _ _ => [(.link, l)]
  | .fabSource => []
  | .mirrorBatchCommit _ => []
  | .mirrorAck _ => []
  | .mirrorNak _ => []
  | .heartbeatReceive _ _ _ => []
  | .pairTakeover => []
  | .pairPartition => []
  | .pairSolo => []
  | .takeoverComplete => []
  | .takeoverDeadline t => [(.transport, t)]
  | .arpRepeat => []
  | .pairResync => []
  | .pairProtected => []
  | .smbStatus => []
  | .smbCellarSelect _ _ => []
  | .smbCellarRead => []
  | .smbResetWarm _ => []
  | .smbResetCold _ => []
  | .smbClearPin _ _ => []
  | .cellarScanDone => []
  | .powerFail => []
  | .ageMeasure _ => []
  | .trendSnapshot => []
  | .replanEvaluation => []
  | .sbHeadSend => []
  | .sbDeviceFrame _ => []
  | .sbEndFrame _ => []
  | .sbEndTimeout => []
  | .tapInstructionLoad _ => []
  | .thermalTrip => []
  | .supplyFault n => [(.supply, n)]
  | .powerUp _ => []
  | .powerDown => []
  | .coldReset _ => []
  | .warmReset => []
  | .resetRelease => []
  | .functionLevelReset => []
  | .readInterrupt t => [(.transport, t)]
  | .readInterruptEnd t => [(.transport, t)]
  | .ethPortLinkUp p => [(.port, p)]
  | .ethPortLinkDown p => [(.port, p)]
  | .pcieLinkDown => []
  | .tenantAckReceive c _ _ => [(.connection, c)]
  | .localAckTimeout c => [(.connection, c)]
  | .capsuleOpcodeInvalid s _ => [s.operand]
  | .pushDataDmaComplete r _ _ _ => [(.ring, r)]
  | .pfcFrameReceive p _ _ => [(.port, p)]
  | .arpRequestReceive p _ _ => [(.port, p)]
  | .msixVectorUnmask v => [(.vector, v)]

/-- An operand list that a command carries has the length that the manual gives it: 24 sensors at a boundary (R477), and none
where it carries none. -/
def Instr.lists : Instr → Bool
  | .tickBoundary i => i.sensors.length == Operand.top .sensors
  | .upstreamCycle _ c => c.lanes.length == 3
  | .frameReceive _ f => f.header.length == 32
  | .pfcFrameReceive _ _ q => q.length == 8
  | _ => true

/-- A well-formed command. -/
def Instr.wf (i : Instr) : Bool := i.operands.all (fun x => decide (x.2 < x.1.top)) && i.lists

end Sys2Proof
end

