-- ==== Sys2Proof/Tests/Slice0.lean ====
section
/-! SUPPORT. Tests: ill-formed commands are refused; for every statement with hypotheses a concrete state and operands that meet them;
results worked out by hand from the rules. -/

namespace Sys2Proof.Tests

set_option maxRecDepth 8000
set_option Elab.async false

open Sys2Proof.Machine

/-- The state after reset with its device changed. -/
def st (f : Dev → Dev) : State := { State.reset with dev := f State.reset.dev }

/-- A device with one field of a register set. -/
def fld (f : Fld) (i v : Nat) (d : Dev) : Dev := d.setFld f i v

/-- The state that a command answers. -/
def ans (c : Instr) (s : State) : Option State :=
  match exec c s with
  | .next t => some t
  | .fault _ => none
  | .refused _ => none

/-- The device that a command answers. -/
def dev (c : Instr) (s : State) : Option Dev := (ans c s).map (·.dev)

/-! ### Well-formedness -/

theorem test_wf_transport : (Instr.portUp 8).wf = false := by decide
theorem test_wf_reel : (Instr.handOver 0 2).wf = false := by decide
theorem test_wf_channel : (Instr.verifyResult 0 64 0).wf = false := by decide
theorem test_wf_subset : (Instr.sdsLateRound 0 64).wf = false := by decide
theorem test_wf_slot : (Instr.rowClose 16).wf = false := by decide
theorem test_wf_member : (Instr.slowMemberTimeout 0 32).wf = false := by decide
theorem test_wf_ring : (Instr.cqDoorbell 256 0).wf = false := by decide
theorem test_wf_vector : (Instr.msixVectorUnmask 2048).wf = false := by decide
theorem test_wf_port : (Instr.ethPortLinkUp 16).wf = false := by decide
theorem test_wf_group : (Instr.ethModeWrite 4 0).wf = false := by decide
theorem test_wf_link : (Instr.linkReplay 12).wf = false := by decide
theorem test_wf_queue : (Instr.queueFlush 256).wf = false := by decide
theorem test_wf_connection : (Instr.cnpReceive 16384).wf = false := by decide
theorem test_wf_ring_source : (Instr.sync (.ring 256) []).wf = false := by decide
theorem test_wf_core : (Instr.ctlWindow 16 0).wf = false := by decide
theorem test_wf_supply : (Instr.supplyFault 6).wf = false := by decide
theorem test_wf_word : (Instr.mashWriteOut 1610612736).wf = false := by decide
theorem test_wf_fabric_port : (Instr.fabLinkCfgWrite 8 0).wf = false := by decide
theorem test_wf_fabric_class : (Instr.e2eGapTimeout 0 5).wf = false := by decide
theorem test_wf_key : (Instr.keyFetch 65536 []).wf = false := by decide
theorem test_wf_sensors : (Instr.tickBoundary { sensors := [0], avsOk := true }).wf = false := by decide
theorem test_wf_header : (Instr.frameReceive 0 { header := [], payload := [], crc := 0 }).wf = false := by decide
theorem test_wf_quanta : (Instr.pfcFrameReceive 0 0 []).wf = false := by decide
theorem test_wf_accepts : (Instr.portUp 7).wf = true ∧ (Instr.msixVectorUnmask 2047).wf = true ∧ Instr.pairSolo.wf = true := by decide

/-! ### The step and the machine as a whole -/

theorem witness_StepRunsFrontCommand : ({ State.reset with pending := [.bootGo] } : State).pending = .bootGo :: [] := rfl
theorem witness_TheQueueBelongsToTheStep : State.reset.pending = [] ∧ ans .bootGo State.reset = some (st fun d => { d with regw := [(0x01000010, 1)] }) :=
  ⟨rfl, by decide⟩
theorem witness_OnlyBadAddressStops : Instr.bootGo.outOfMemory = false ∧ hbmWords ≤ 1610612736 := by decide
theorem witness_StepKeepsMemoryCanonical : State.reset.Canonical ∧ step State.reset = .next State.reset := ⟨by rw [State.Canonical]; decide, rfl⟩

/-- A core that is held in reset. -/
def held : State := st fun d => { d with pins := { d.pins with held := true } }
/-- A device without VAON. -/
def dark : State := st fun d => { d with hlt := { d.hlt with vaon := false } }

theorem witness_HeldOrUnpoweredTakesNothing : held.dev.coreHeld = true ∧ Instr.bootGo.alwaysOn = false ∧ ans .bootGo held = some held ∧
    dark.dev.hlt.vaon = false ∧ Instr.warmReset.alwaysOn = true ∧ (∀ k, Instr.warmReset ≠ .powerUp k) ∧ ans .warmReset dark = some dark :=
  ⟨by decide, rfl, by decide, rfl, rfl, nofun, by decide⟩
theorem witness_UnitsLeaveTheRest :
    ans (.motStop 1) State.reset = some (st fun d => { d with regw := [(0x00C01100, 2)] }) ∧ ans (.linkReplay 0) State.reset = some State.reset ∧
      ans (.pfcRepeat 0) State.reset = some State.reset := by decide

/-! ### Registers, doorbells and rings -/

theorem witness_RegisterWritesWait : State.reset.dev.coreHeld = false ∧ 0x01000010 % 4 = 0 ∧ 0x01000010 < bar0End ∧
    ¬ (msixTable ≤ 0x01000010 ∧ 0x01000010 < msixTable + 16 * vectors) ∧ (regAt 0x01000010).isSome = true ∧ 7 < 8 ∧ 3 < 4 ∧ 255 < 256 := by decide
theorem witness_BoundaryAppliesWrites : (1#32).getLsbD 0 = true ∧ State.reset.dev.locked = false ∧ State.reset.dev.dru.kekW.length = 8 ∧ 31 < 32 ∧
    (fld Fld.ctlSetupLockLock 0 1 {}).locked = true := by decide
theorem witness_FieldsFollowTheirAccess :
    (∀ a ∈ [Access.rw, .rws, .rwl, .w1c, .ro, .wo], ∃ r ∈ RegId.all, ∃ f ∈ r.fields, f.access = a ∧ 0 < f.width) ∧
      RegId.ctlBootCtl.offset 0 ≠ RegId.ctlSetupLock.offset 0 := by decide

/-- Ring pair `r` of kind `k`, enabled, with 16 entries. -/
def ring (r k : Nat) (d : Dev) : Dev := fld Fld.pciRingCfgEn r 1 (fld Fld.pciRingCfgKind r k (fld Fld.pciRingCfgSize r 4 d))
/-- A completion. -/
def cpl : Cpl := { kind := 2, tag := 7, status := 0, count := 0, info := 0, cap := [], item := [] }
/-- An event record with `n` events dropped before it. -/
def ev (n : Nat) : EvRec := { before := n, code := 0x13, block := 1, inst := 0, seq := 0, tick := 0, items := [] }
/-- A ring pair with a completion that waits, and one with completions whose message is due. -/
def cplSt : State := st fun d =>
  let d := (ring 1 1 d).modRing 1 fun g => { g with wait := [cpl], pend := 1 }
  { d with clk := 100, ctl := { d.ctl with msixPend := [5], msixWords := [(3, 0#32)] } }
/-- Events and metering records that wait, with rings of their own. -/
def postSt (n : Nat) : State := st fun d =>
  let d := ring 3 3 (ring 2 2 d)
  { d with ctl := { d.ctl with evq := [ev n], metq := [zeros 64] } }

theorem witness_Doorbells : State.reset.dev.coreHeld = false ∧ 255 < 256 ∧ (15#32).toNat < State.reset.dev.ringSize 255 ∧
    State.reset.dev.ringSize 255 ≤ (16#32).toNat ∧ 4092 < 4096 ∧ 4092 % 4 = 0 ∧ 4092 ≠ 4 ∧ 4092 ≠ 0 := by decide
theorem witness_CompletionsEventsAndMeters :
    (cplSt.dev.coreHeld = false ∧ (cplSt.dev.ringAt 1).wait = cpl :: [] ∧ cplSt.dev.ringEn 1 = true ∧ 1 ≤ cplSt.dev.cqRoom 1 ∧ 1 < 256 ∧
      0 < (cplSt.dev.ringAt 1).pend ∧ (cplSt.dev.ringAt 1).pendSince + cplSt.dev.coalTicks 1 ≤ cplSt.dev.clk ∧
      cplSt.dev.vecMasked (cplSt.dev.fld Fld.pciRingCfgVec 1) = false ∧ 5 < vectors ∧ cplSt.dev.ctl.msixPend.contains 5 = true) ∧
    ((postSt 0).dev.coreHeld = false ∧ (postSt 0).dev.ctl.evq = ev 0 :: [] ∧ (ev 0).before = 0 ∧ (postSt 0).dev.outRing 2 = some 2 ∧
      1 ≤ (postSt 0).dev.sqRoom 2 ∧ 1 ≤ (postSt 0).dev.cqRoom 2) ∧
    ((postSt 3).dev.ctl.evq = ev 3 :: [] ∧ 0 < (ev 3).before ∧ (postSt 3).dev.outRing 2 = some 2 ∧ 1 ≤ (postSt 3).dev.cqRoom 2) ∧
    ((postSt 0).dev.ctl.metq = zeros 64 :: [] ∧ (postSt 0).dev.outRing 3 = some 3 ∧ 1 ≤ (postSt 0).dev.sqRoom 3 ∧ 1 ≤ (postSt 0).dev.cqRoom 3) ∧
    cplSt.dev.stalls blkPci 0 0 = false ∧ ∀ n ∈ [0, 3], (postSt n).dev.stalls blkPci 0 0 = false := by decide
theorem witness_TickReadLatchesUpperBits : State.reset.dev.coreHeld = false ∧ RegId.hltTickLo.offset 0 ≠ RegId.hltTickHi.offset 0 := by decide
theorem witness_BadBarAccess : State.reset.dev.coreHeld = false ∧ RegId.hltTickLo.offset 0 ≠ RegId.pciErrCnt.offset 0 := by decide
/-- The scheduler's round has overrun. -/
def schOver : Dev := { ({} : Dev) with sch := { ({} : Dev).sch with overrun := true } }

theorem witness_ControlWindowAndOverruns : State.reset.dev.coreHeld = false ∧ ovrCounter blkRte 0 = some Fld.rteOvrCntCount ∧
    ovrCounter blkMot 7 = some Fld.motOvrCntCount ∧ ovrCounter blkSch 0 = some Fld.schOvrCntCount ∧ blkRte ≠ blkMot ∧ blkRte ≠ blkSch ∧
    stepNamed blkRte (1#8).toNat = true ∧ stepNamed blkMot (1#8).toNat = true ∧ stepNamed blkSch (1#8).toNat = true ∧ stepNamed blkSch (2#8).toNat = false ∧
    schOver.sch.overrun = true := by decide
/-- R9: bits 31:0 are read, and bits 47:32 stand in HLT_TICK_HI. -/
theorem test_tick_read : (dev .tickLoRead (st fun d => { d with tick := 0x123456789ABC })).map (fun d => (d.fld Fld.hltTickHiCount, d.out)) =
    some (0x1234, [.readData [0xBC, 0x9A, 0x78, 0x56]]) := by decide
/-- R377: a read of 8 bytes returns 0xFF in each, a write of 8 bytes is counted. -/
theorem test_bad_access : (dev (.badBarAccess false 8) State.reset).map (·.out) = some [.readData (List.replicate 8 0xFF)] ∧
    (dev (.badBarAccess true 8) State.reset).map (·.fld Fld.pciErrCntBar) = some 1 := by decide

/-! ### The always-on domain -/

/-- SMBus reads of a record: the offset is `o`. -/
def smb (o : Nat) : State := st fun d => { d with hlt := { d.hlt with smbOff := o } }
/-- RESET_N is low. -/
def low : State := st fun d => { d with hlt := { d.hlt with resetN := false } }

theorem witness_SmbusCommands : State.reset.dev.hlt.vaon = true ∧ (smb 192).dev.hlt.smbOff < 224 ∧ (smb 224).dev.hlt.smbOff = 224 ∧
    low.dev.hlt.vaon = true ∧ low.dev.hlt.resetN = false ∧ 0xC2#8 ≠ 0xC1#8 ∧ State.reset.dev.hlt.resetN = true ∧ 4095 < 4096 := by decide
/-- R430: byte 0 of STATUS holds VCORE and RESET_N in bits 0 and 1; NEXT is slot 4,096. -/
theorem test_smb_status : (dev .smbStatus State.reset).map (·.out) = some [.smbData (0x03 :: zeros 12 ++ [0x10, 0x00, 0x00])] := by decide
/-- R430: after byte 255 the index advances. -/
theorem test_smb_read_wraps : (dev .smbCellarRead (st fun d => { d with hlt := { d.hlt with smbIndex := 65535, smbOff := 224 } })).map
    (fun d => (d.hlt.smbIndex, d.hlt.smbOff)) = some (0, 0) := by decide

/-- Two hot boundaries in a row; a supply fault named; a power-fail warning taken. -/
def hot : State := st fun d => { d with pins := { d.pins with hotTicks := 2 } }
def fault3 : State := st fun d => { d with pins := { d.pins with reqTrip := some (7, 3) } }
def pfOld : State := st fun d => { d with pins := { d.pins with pfTaken := true } }

theorem witness_WarningsSuppliesAndResetPins : State.reset.dev.hlt.vaon = true ∧ State.reset.dev.pins.pfTaken = false ∧
    State.reset.dev.pins.pfAt = none ∧ pfOld.dev.pins.pfTaken = true ∧ 2 ≤ hot.dev.pins.hotTicks ∧ 1 ≤ 5 ∧
    (∀ k, State.reset.dev.pins.reqTrip ≠ some (7, k)) ∧ fault3.dev.pins.reqTrip = some (7, 3) ∧ fault3.dev.hlt.vaon = true ∧
    (let d : Dev := { ({} : Dev) with pins := { ({} : Dev).pins with held := true, faulted := true } }; d.pins.held = true ∧ d.pins.faulted = true) :=
  ⟨by decide, by decide, rfl, by decide, by decide, by decide, nofun, rfl, rfl, rfl, rfl⟩
/-- R444, R464: loss of VCORE closes the bypass switches. -/
theorem test_vcore_fault : (dev (.supplyFault 1) State.reset).map (fun d => (d.hlt.vcore, d.pins.bypass, d.pins.reqTrip)) =
    some (false, true, some (7, 1)) := by decide

/-- A cellar record of HLT with SEQ 9, in the main region's last slot. -/
def cellarRec : List Byte := withCrc32c (padTo 252 ([0x05, 0x00, 0x00, 0x00] ++ leBytes 4 9))
def scan : State := st fun d => { d with hlt := { d.hlt with mram := [(65535, cellarRec)] } }

theorem witness_PowerUpAndBootScan : dark.dev.hlt.vaon = false ∧ scan.dev.hlt.vaon = true ∧ scan.dev.hlt.scanning = true ∧
    (65535, cellarRec) ∈ scan.dev.mainSlots ∧ 65535 < 65536 ∧ recOk cellarRec = true ∧ Rising scan.dev.hlt.mram = true ∧
    (∀ x ∈ scan.dev.mainSlots, recOk x.2 = true → x.1 ≠ 65535 → leAt x.2 4 4 < leAt cellarRec 4 4) := by decide +kernel
theorem witness_TapInstructionsAfterLock : State.reset.dev.coreHeld = false ∧ State.reset.dev.locked = false ∧
    (st (fld Fld.ctlSetupLockLock 0 1)).dev.locked = true ∧ TapInstr.highz ∈ [TapInstr.extest, .extestPulse, .extestTrain, .clamp, .highz] := by decide

/-- A DEVICE frame and an END frame whose CRCs are right. -/
def sbDev : List Byte := [0x7E, 0x01] ++ zeros 10 ++ [crc8 (0x01 :: zeros 10)]
def sbEnd2 : List Byte := [0x7E, 0x02, 0x02] ++ [crc8 [0x02, 0x02]]
def head : State := st (fld Fld.hltSbCfgHead 0 1)
def sbWait : State := st fun d => { d with clk := 7, age := { d.age with sbLast := some (3, 5) } }

theorem witness_SidebandChain : head.dev.coreHeld = false ∧ head.dev.flag Fld.hltSbCfgHead = true ∧ head.dev.age.sbNextHead ≤ head.dev.clk ∧
    (sbDev.length = 13 ∧ sbDev.take 2 = [0x7E#8, 0x01#8] ∧ sbDev.getD 12 0#8 = crc8 (slice sbDev 1 11) ∧ State.reset.dev.flag Fld.hltSbCfgHead = false) ∧
    (sbEnd2.length = 4 ∧ sbEnd2.take 2 = [0x7E#8, 0x02#8] ∧ sbEnd2.getD 3 0#8 = crc8 (slice sbEnd2 1 2)) ∧
    (let b := sbDev.set 12 (sbDev.getD 12 0 + 1); b.length = 13 ∧ b.take 2 = [0x7E#8, 0x01#8] ∧ b.getD 12 0#8 ≠ crc8 (slice b 1 11)) ∧
    sbWait.dev.age.sbLast = some (3, 5) ∧ 5 + 2 ≤ sbWait.dev.clk := by decide

/-- The tick of a re-plan evaluation on a device whose cores run; with EN and wear above the first step. -/
def replan (f : Dev → Dev) : State := st fun d => f (fld Fld.ctlBootStatState 0 2 { d with tick := 1500000 })

theorem witness_MeasurementsTrendAndReplan : State.reset.dev.coreHeld = false ∧ 95 < 96 ∧ 16777215 < 2 ^ 24 ∧ 87 < 88 ∧ 1023 < 1024 ∧ 64 ≤ 64 ∧
    511 < 512 ∧ 255 < 256 ∧ 7 < 8 ∧ RegId.hltTickLo.offset 0 ≠ RegId.hltWearStat.offset 95 ∧
    State.reset.dev.tick.toNat % (State.reset.dev.fld1 Fld.hltAgeCfgSnap * 3000000) = 0 ∧
    (let s := replan (fld Fld.hltAgeCfgEn 0 0); s.dev.tick.toNat % 3000000 = 1500000 ∧ s.dev.coresRun = true ∧ s.dev.fld Fld.hltAgeCfgEn = 0) ∧
    (let s := replan (fun d => fld Fld.hltAgeCfgEn 0 1 (fld Fld.hltWearStatDegr 0 0xFFFFFF { d with regs := tput d.regs 0x01400030 0 })); s.dev.coreHeld = false ∧ s.dev.tick.toNat % 3000000 = 1500000 ∧ s.dev.coresRun = true ∧ s.dev.fld Fld.hltAgeCfgEn = 1 ∧
      s.dev.fld Fld.hltAvsStatOffset < 10 ∧ s.dev.flag Fld.hltPwrStatAvsErr = false ∧
      s.dev.fld1 Fld.hltAgeThr0WearStep * (s.dev.fld Fld.hltAvsStatOffset + 1) < s.dev.worstWear) ∧
    State.reset.dev.tick.toNat % 3000000 ≠ 1500000 := by decide +kernel
theorem witness_FunctionLevelReset : State.reset.dev.coreHeld = false ∧ 255 < 256 := by decide


/-! ### Record transport -/

/-- A connection, a record ring with an entry to take, and an open session 1 for each of writes and reads. -/
def wses : Session := { src := 16385, tenant := 3, cls := 2, read := false, comp := false, enc := false, key := 0, span := 1, slot := 0 }
def rses : Session := { wses with read := true }
def rteDev (x : Session) (d : Dev) : Dev :=
  let d := (ring 1 1 d).modRing 1 fun g => { g with sqTail := 1, tenant := some 3 }
  { d with
    rte := { d.rte with conns := [(9, { tenant := 4 })], nextCmd := 50 }
    ses := { d.ses with sessions := [(1, x), (2, { x with src := 9 })], cache := [1, 2] } }
def rteSt (x : Session) : State := st (rteDev x)
/-- A 64-byte capsule: opcode, tag 5, session, and body bytes from 8 on. -/
def cap (op ses : Nat) (body : List Byte) : List Byte := padTo 64 (leBytes 1 op ++ [0x00] ++ leBytes 2 5 ++ leBytes 3 ses ++ [0x00] ++ body)
/-- A capsule of each opcode that passes the checks of R488, in a session of the right mode. -/
def good (op : Nat) : List Byte :=
  if op = 0x01 then cap 0x01 0 []
  else if op = 0x10 then cap 0x10 1 ([0x01, 0x00, 0x00, 0x00] ++ leBytes 4 1024 ++ leBytes 3 1024)
  else if op = 0x11 then cap 0x11 1 [0x02]
  else if op = 0x20 then cap 0x20 1 (zeros 14 ++ [0x01])
  else cap op 1 []

theorem witness_CapsulesAreAccepted : ∀ p ∈ queuedCapsules,
    let s := rteSt (if p.2 = 0x20 ∨ p.2 = 0x21 then rses else wses)
    s.dev.coreHeld = false ∧ ((good p.2).length = 64 ∧ (s.dev.srcTenant (srcKey (.ring 1))).isSome = true ∧
        (isRing (srcKey (.ring 1)) = true → s.dev.ringMay (srcKey (.ring 1) - 16384) = true) ∧
        (isRing (srcKey (.ring 1)) = false → s.dev.slotsUsed (srcKey (.ring 1)) < s.dev.maxCmds)) ∧
      capOpcode (good p.2) = p.2 ∧ s.dev.tagInUse (srcKey (.ring 1)) (capTag (good p.2)) = false ∧
      ((s.dev.sesOf (srcKey (.ring 1)) (sesNo (srcKey (.ring 1)) (capSession (good p.2)))).isSome = true →
        s.dev.ses.cache.contains (sesNo (srcKey (.ring 1)) (capSession (good p.2))) = true) ∧
      s.dev.parseCheck (srcKey (.ring 1)) p.2 (good p.2) = none ∧ 51 ≠ s.dev.rte.nextCmd := by decide +kernel

/-- A command of connection 9 that holds tag 5, and of ring 1. -/
def cmd (src op : Nat) (c : List Byte) : Cmd := { src := src, tag := 5, op := op, session := if src = 9 then 2 else 1, tenant := 3, cls := 2, cap := c, arr := 0 }
def busy (k : Cmd) : State := st fun d => let d := rteDev wses d; { d with rte := { d.rte with cmds := [(0, k)] } }
/-- A connection may hold one capsule, and holds it. -/
def full : State := st fun d => let d := fld Fld.rteConnCfgMaxCmds 0 1 (rteDev wses d); { d with rte := { d.rte with cmds := [(0, cmd 9 0x10 [])] } }
/-- The capsules of the refused rows, for session 2 of connection 9. -/
def good9 (op : Nat) : List Byte := (good op).set 4 (if op = 0x01 then 0x00 else 0x02)

theorem witness_CapsulesAreRefused : (∀ p ∈ queuedCapsules,
      (rteSt wses).dev.srcTenant (srcKey (.conn 9)) = some 4 ∧
      (capNamed 9 p.2 (good9 p.2 ++ [0x00]) = true ∧ isRing 9 = false ∧ 64 < (good9 p.2 ++ [0x00]).length) ∧
      (capNamed 9 p.2 (good9 p.2) = true ∧ (good9 p.2).length ≤ 64 ∧ full.dev.srcTenant 9 = some 4 ∧ full.dev.maxCmds ≤ full.dev.slotsUsed 9) ∧
      ((rteSt wses).dev.slotsUsed 9 < (rteSt wses).dev.maxCmds ∧ capNamed 9 p.2 ((good9 p.2).take 3) = true ∧ ((good9 p.2).take 3).length < 4) ∧
      (capNamed 9 p.2 ((good9 p.2).take 63) = true ∧ 4 ≤ ((good9 p.2).take 63).length ∧ ((good9 p.2).take 63).length < 64) ∧
      ((busy (cmd 9 0x10 [])).dev.coreHeld = false ∧ (good9 p.2).length = 64 ∧ (busy (cmd 9 0x10 [])).dev.slotsUsed 9 < (busy (cmd 9 0x10 [])).dev.maxCmds ∧
        (busy (cmd 9 0x10 [])).dev.tagInUse 9 (capTag (good9 p.2)) = true) ∧
      ((rteSt wses).dev.tagInUse 9 (capTag (good9 p.2)) = false ∧
        ((rteSt wses).dev.parseCheck 9 p.2 ((good9 p.2).set 63 0x01)).isSome = true ∧ capNamed 9 p.2 ((good9 p.2).set 63 0x01) = true)) ∧
    (Src.conn 9 ≠ .ring 0 ∧ capNamed 9 0xFF (cap 0x55 0 []) = true ∧ (rteSt wses).dev.tagInUse 9 (capTag (cap 0x55 0 [])) = false ∧
      (cap 0x55 0 []).length = 64) := by decide +kernel

/-- The control cores run, and the admin ring has an entry to take. -/
def admDev (d : Dev) : Dev := (ring 0 0 (fld Fld.ctlSetupLockLock 0 1 (fld Fld.ctlBootStatState 0 2 d))).modRing 0 fun g => { g with sqTail := 1 }
def adm : State := st admDev

theorem witness_CapsulesAreRefused_admin : adm.dev.coreHeld = false ∧ adm.dev.coresRun = true ∧ adm.dev.ringMay 0 = true ∧
    adminFields (capOpcode (cap 0x55 0 [])) = [] ∧ adm.dev.adminTag (capTag (cap 0x55 0 [])) = false := by decide +kernel

/-- ABORT of tag `n`. -/
def abort_ (n : Nat) : List Byte := (cap 0x3F 0 (leBytes 2 n)).set 2 0x06
/-- An ABORT of tag `n` that has been accepted, alone or beside a command `k` that holds tag 5. -/
def acc (n : Nat) : Cmd := { cmd 16385 0x3F (abort_ n) with tag := 6, session := 0 }
def aborting (k : Cmd) (n : Nat) : Dev := let d := rteDev wses {}; { d with rte := { d.rte with cmds := [(0, k), (1, acc n)] } }

theorem witness_AbortEndsItsTarget :
    (let s := busy (cmd 16385 0x10 [])
     s.dev.coreHeld = false ∧ (abort_ 5).length = 64 ∧ (s.dev.srcTenant 16385).isSome = true ∧ s.dev.ringMay 1 = true ∧
      capOpcode (abort_ 5) = 0x3F ∧ reservedClear 0x3F (abort_ 5) = true ∧ s.dev.tagInUse 16385 (capTag (abort_ 5)) = false ∧
      s.dev.sesOf 16385 (sesNo 16385 (capSession (abort_ 5))) = none) ∧
    ((aborting (cmd 16385 0x10 []) 5).rte.cmds.filter fun c => c.2.op == 0x3F && ! c.2.answered && decide (c.2.arr ≤ (aborting (cmd 16385 0x10 []) 5).clk)) = [(1, acc 5)] ∧
    (aborting (cmd 16385 0x10 []) 7).cmdByTag (acc 7).src (acc 7).target = none ∧
    (aborting (cmd 16385 0x10 []) 6).cmdByTag (acc 6).src (acc 6).target = some (1, acc 6) ∧ (acc 6).op = 0x3F ∧
    (aborting (cmd 16385 0x10 []) 5).cmdByTag (acc 5).src (acc 5).target = some (0, cmd 16385 0x10 []) ∧ (cmd 16385 0x10 []).op ≠ 0x3F ∧
    (tget (aborting (cmd 16385 0x12 []) 5).rte.cmds 0 = some (cmd 16385 0x12 []) ∧ (cmd 16385 0x12 []).answered = false ∧
      (cmd 16385 0x12 []).op ≠ 0x10 ∧ (cmd 16385 0x12 []).op ≠ 0x11 ∧ (cmd 16385 0x12 []).op ≠ 0x20) := by decide +kernel

/-- A write command with an open window of 512 bytes, grant 11. -/
def win : Window := { gid := 11, rkey := 6, va := 4096, len := 512, off := 0, handle := 0x40000000, opened := 0 }
def wcmd (src : Nat) : Cmd := { cmd src 0x10 [] with wr := { total := 512, stepOff := 512, lens := [512], wins := [win] } }
def push : List Byte := cap 0x7F 1 (leBytes 4 11 ++ zeros 4 ++ leBytes 8 0x1000 ++ leBytes 4 512)
def pushed : Push := { ring := 1, gid := 11, addr := 0x1000, len := 512, tag := 5 }
def pushSt : State := st fun d => let d := rteDev wses d; { d with rte := { d.rte with cmds := [(0, wcmd 16385)], pushes := [pushed] } }

theorem witness_PushDataFillsItsWindow :
    (let s := busy (wcmd 16385); s.dev.coreHeld = false ∧ 1 < 256 ∧ push.length = 64 ∧ (s.dev.srcTenant 16385).isSome = true ∧ s.dev.ringMay 1 = true ∧
      capOpcode push = 0x7F ∧ reservedClear 0x7F push = true ∧ s.dev.ses.cache.contains (sesNo 16385 (capSession push)) = true ∧
      s.dev.parseCheck 16385 0x7F push = none ∧ s.dev.cmdByTag 16385 (capTag push) = some (0, wcmd 16385) ∧
      (wcmd 16385).wr.wins.find? (fun x => x.gid == BitVec.ofNat 32 (leAt push 8 4) && ! x.closed) = some win ∧ leAt push 24 4 ≤ win.len) ∧
    (pushSt.dev.coreHeld = false ∧ pushSt.dev.rte.pushes.find? (fun x => x.ring == 1 && x.gid == win.gid) = some pushed ∧
      pushSt.dev.cmdByTag 16385 pushed.tag = some (0, wcmd 16385) ∧ tget pushSt.dev.rte.cmds 0 = some (wcmd 16385) ∧
      (wcmd 16385).wr.wins.find? (·.gid == win.gid) = some win ∧ win.closed = false ∧ win.got = [] ∧ 0 < win.len ∧
      (zeros 512).length = win.len ∧ pushed.len = win.len) := by decide +kernel

/-- A window of connection 9 that drains. -/
def drain : State := st fun d => let d := rteDev wses d; { d with rte := { d.rte with draining := [(9, { win with withdrawn := some 0 })] } }

theorem witness_RdmaWritesFillWindows :
    (let s := busy (wcmd 9); s.dev.coreHeld = false ∧ (s.dev.connLive 9).isSome = true ∧ s.dev.windowAt 9 6 (4600#64).toNat 8 = some (0, win) ∧
      12#32 ≠ win.gid ∧ tget s.dev.rte.cmds 0 = some (wcmd 9) ∧ (wcmd 9).wr.wins.find? (·.gid == win.gid) = some win ∧
      s.dev.windowAt 9 6 (4604#64).toNat 8 = none ∧ s.dev.drainAt 9 6 (4604#64).toNat 8 = false) ∧
    (drain.dev.windowAt 9 6 (4600#64).toNat 8 = none ∧ drain.dev.drainAt 9 6 (4600#64).toNat 8 = true ∧ (drain.dev.connLive 9).isSome = true) ∧
    (({ win with got := [(0, 512)] } : Window).got = [(0, ({ win with got := [(0, 512)] } : Window).len)] ∧ win.got ≠ [(0, win.len)]) := by decide +kernel

/-- Connection 9 with a packet not acknowledged; with CUT, and with a cut in this tick. -/
def conn : Conn := { tenant := 4, port := 2, retry := 0x3F, rate := 400, unacked := [(1, some (.cnp 9))] }
def conn0 : Conn := { conn with retry := 0, cutAt := some 0, cnpSentAt := some 0, quietFrom := 1000 }
def ecn (cut : Nat) (k : Conn) : State := st fun d => let d := fld Fld.rteEcnCfgCut 0 cut d; { d with rte := { d.rte with conns := [(9, k)] } }

theorem witness_CongestionAndAcknowledgements :
    ((ecn 4 conn).dev.coreHeld = false ∧ tget (ecn 4 conn).dev.rte.conns 9 = some conn ∧ conn.err = false ∧ (ecn 4 conn).dev.ecnCut ≠ 0 ∧
      conn.cutAt ≠ some (ecn 4 conn).dev.clk) ∧
    (tget (ecn 4 conn0).dev.rte.conns 9 = some conn0 ∧ conn0.cutAt = some (ecn 4 conn0).dev.clk ∧ conn0.err = false) ∧ (ecn 0 conn).dev.ecnCut = 0 ∧
    (let s : State := { ecn 4 conn with dev := { (ecn 4 conn).dev with clk := 100000 } }
     tget s.dev.rte.conns 9 = some conn ∧ s.dev.ecnCut ≠ 0 ∧ conn.quietFrom + s.dev.fld1 Fld.rteEcnCfgRecover ≤ s.dev.clk) ∧
    (∀ x ∈ conn.cnpSentAt, x + (ecn 4 conn).dev.fld1 Fld.rteEcnCfgCnpGap ≤ (ecn 4 conn).dev.clk) ∧
    ((ecn 4 conn).dev.ethLate conn.port = false ∧ (ecn 4 conn).dev.portPaused conn.port = false ∧ conn.paid = true ∧
      (ecn 4 conn).dev.eth.held.any (·.1 == 9) = false) ∧
    (let s := st fun d => { (ecn 4 conn).dev with eth := { d.eth with held := [(9, .cnp 9)] } }
     s.dev.coreHeld = false ∧ tget s.dev.rte.conns 9 = some conn ∧ s.dev.eth.held.any (·.1 == 9) = true) ∧
    (conn0.cnpSentAt = some 0 ∧ (ecn 4 conn0).dev.clk < 0 + (ecn 4 conn0).dev.fld1 Fld.rteEcnCfgCnpGap) ∧
    ((ecn 4 conn).dev.connLive 9 = some conn ∧ conn.tries < conn.retry % 8 ∧ conn.retry / 8 % 8 = 7 ∧ conn.unacked ≠ []) ∧
    ((ecn 4 conn0).dev.connLive 9 = some conn0 ∧ conn0.retry / 8 % 8 ≠ 7 ∧ conn0.retry / 8 % 8 ≤ conn0.rnrTries ∧ conn0.retry % 8 ≤ conn0.tries) := by decide +kernel


/-! ### Admission, grants, responses and meters -/

/-- A command of connection 9 that a round has taken. -/
def wonStep : WonStep := { cmd := 0, grant := 0, vis := 0 }
def won (k : Cmd) : State := st fun d => let d := rteDev wses d; { d with rte := { d.rte with cmds := [(0, k)] }, sch := { d.sch with won := [wonStep] } }
/-- A span set with a mounted member, of volume 7. -/
def member7 : Member := { vol := 7, mounted := true, write := true }
def span1 : Span := { desc := { id := 1, k := 1, p := 0, members := [0] }, members := [member7] }
def spanDev (s : Span) (d : Dev) : Dev := { d with spn := { d.spn with slots := [(0, s)] } }
def wonMounted (k : Cmd) : State := { won k with dev := spanDev span1 (won k).dev }
/-- A CLOSE behind an earlier command of its session. -/
def closing : State := st fun d => let d := rteDev wses d
  { d with rte := { d.rte with cmds := [(0, { cmd 9 0x10 [] with tag := 6 }), (1, cmd 9 0x02 [])] }, sch := { d.sch with won := [{ wonStep with cmd := 1 }] } }
/-- The hypotheses of every clause: the command holds its tag, waits for admission, and its round has been won. -/
abbrev ready (s : State) (id : Nat) (k : Cmd) (w : WonStep) : Prop :=
  s.dev.coreHeld = false ∧ s.dev.cmdByTag (srcKey (.conn 9)) 5 = some (id, k) ∧ tget s.dev.rte.cmds id = some k ∧ k.adm = none ∧
    s.dev.sch.won.find? (fun w => w.cmd == id && decide (w.vis ≤ s.dev.clk)) = some w

theorem witness_AdmittedCommandsAct : ready (won (cmd 9 opWrite [])) 0 (cmd 9 opWrite []) wonStep ∧
    (won (cmd 9 opWrite [])).dev.takesNoRows (cmd 9 opWrite []).session = false ∧
    (let s : State := { won (cmd 9 opWrite []) with dev := spanDev { span1 with full := true } (won (cmd 9 opWrite [])).dev }
     ready s 0 (cmd 9 opWrite []) wonStep ∧ s.dev.takesNoRows (cmd 9 opWrite []).session = true) ∧
    ready (won (cmd 9 opRead [])) 0 (cmd 9 opRead []) wonStep ∧
    (((won (cmd 9 opRead [])).dev.admitted 0 (cmd 9 opRead []) wonStep).volAt (cmd 9 opRead []).readVol).isNone = true ∧
    ready closing 1 (cmd 9 opClose []) { wonStep with cmd := 1 } ∧
    (closing.dev.admitted 1 (cmd 9 opClose []) { wonStep with cmd := 1 }).earlierOpen 1 2 = true := by decide +kernel
/-- A READ of a mounted volume, and queries and hints. -/
def rcmd : Cmd := cmd 9 opRead (cap 0x20 2 (leBytes 8 7))
theorem witness_AdmittedCommandsAct_reads : ready (wonMounted rcmd) 0 rcmd wonStep ∧ (((wonMounted rcmd).dev.admitted 0 rcmd wonStep).volAt rcmd.readVol).isSome = true ∧
    ready (won (cmd 9 opQuery [])) 0 (cmd 9 opQuery []) wonStep ∧ leAt (cmd 9 opQuery []).cap 8 1 = 0 ∧
    ready (won (cmd 9 opQuery (cap 0x30 2 [0x01]))) 0 (cmd 9 opQuery (cap 0x30 2 [0x01])) wonStep ∧ leAt (cmd 9 opQuery (cap 0x30 2 [0x01])).cap 8 1 ≠ 0 ∧
    ready (won (cmd 9 opHint [])) 0 (cmd 9 opHint []) wonStep ∧
    (((won (cmd 9 opHint [])).dev.admitted 0 (cmd 9 opHint []) wonStep).volAt (BitVec.ofNat 64 (leAt (cmd 9 opHint []).cap 8 8))).isNone = true := by decide +kernel
/-- An OPEN of class 2 with a KEY_INDEX and without ENCRYPT. -/
def ocmd : Cmd := cmd 9 opOpen (cap 0x01 0 [0x00, 0x02, 0x01])
theorem witness_AdmittedCommandsAct_open : ready (won ocmd) 0 ocmd wonStep ∧ ((won ocmd).dev.admitted 0 ocmd wonStep).mayClass ocmd.tenant (leAt ocmd.cap 9 1) = false ∧
    bitOf (leAt ocmd.cap 14 1) 1 = false ∧ leAt ocmd.cap 10 2 ≠ 0 := by decide +kernel
theorem witness_AdmittedCommandsAct_class :
    let s : State := { won ocmd with dev := { (won ocmd).dev with rte := { (won ocmd).dev.rte with tenants := [(3, { classes := 4 })] } } }
    ready s 0 ocmd wonStep ∧ (s.dev.admitted 0 ocmd wonStep).mayClass ocmd.tenant (leAt ocmd.cap 9 1) = true := by decide +kernel

/-- A write command that has asked for a grant, whose buffer POOL has committed. -/
def acmd : Cmd := { cmd 9 0x10 [] with wr := { asked := [(0, 512)] } }
def granted : State := st fun d => let d := rteDev wses d
  { d with rte := { d.rte with cmds := [(0, acmd)], draining := [(9, { win with gid := 12, withdrawn := some 0 })] }, clk := 5000000
           pool := { d.pool with done := [(.grant 0, 0x40000000)] } }

theorem witness_GrantsOpenTimeOutAndDrain :
    (granted.dev.coreHeld = false ∧ granted.dev.cmdByTag 9 5 = some (0, acmd) ∧ tget granted.dev.rte.cmds 0 = some acmd ∧ granted.dev.stallsAny blkRte 0 = false ∧
      granted.dev.pool.done.find? (fun p => p.1 == .grant 0) = some (.grant 0, 0x40000000#32) ∧ acmd.wr.asked = (0, 512) :: [] ∧
      granted.dev.grantsLive.length + granted.dev.partnerGrants.length < 2 ^ 32) ∧
    (∀ b ∈ [true, false], granted.dev.capRoom b = true ∧ granted.dev.rte.dueq = [] ∧
      ({ granted.dev with rte := { granted.dev.rte with grantsSent := 10 ^ 6, respsSent := 10 ^ 6 } } : Dev).capRoom b = false) ∧
    ((busy (wcmd 9)).dev.cmdOfGrant 11 = some (0, win) ∧ (busy (wcmd 9)).dev.clk < win.opened + (busy (wcmd 9)).dev.grantTimeout) ∧
    (let s : State := { busy (wcmd 9) with dev := { (busy (wcmd 9)).dev with clk := 5000000 } }
     s.dev.cmdOfGrant 11 = some (0, win) ∧ win.opened + s.dev.grantTimeout ≤ s.dev.clk) ∧
    (granted.dev.rte.draining.find? (fun w => w.2.gid == 12) = some (9, { win with gid := 12, withdrawn := some 0 }) ∧
      0 + granted.dev.fld1 Fld.schGrantCfgDrain ≤ granted.dev.clk) := by decide +kernel

/-- Commands whose records have all been taken: WRITE, SYNC and READ. -/
def done (op : Nat) : Cmd := { cmd 9 op [] with adm := some 0, wr := { ended := true } }

theorem witness_ResponsesFollowTheirRecords :
    (let s := busy (done opWrite); s.dev.coreHeld = false ∧ s.dev.stallsAny blkRte 0 = false ∧ s.dev.cmdByTag (srcKey (.conn 9)) 5 = some (0, done opWrite) ∧ s.dev.bufferedReady 0 (done opWrite) = true) ∧
    (busy (wcmd 9)).dev.bufferedReady 0 (wcmd 9) = false ∧
    ((done opSync).op = opSync ∧ (done opSync).adm.isSome = true ∧ (busy (done opSync)).dev.cmdByTag 9 5 = some (0, done opSync) ∧
      (done opSync).bound ≤ (busy (done opSync)).dev.settledBelow (done opSync).session ∧
      (busy (done opSync)).dev.unshownRows (done opSync).session (done opSync).bound = [] ∧
      tget (busy (done opSync)).dev.ses.sessions (done opSync).session = some { wses with src := 9 }) ∧
    (let k := { done opSync with bound := 1 }; (busy k).dev.cmdByTag 9 5 = some (0, k) ∧ (busy k).dev.settledBelow k.session < k.bound) ∧
    (busy (done opRead)).dev.cmdByTag 9 5 = some (0, done opRead) ∧
    (tget (busy (done opRead)).dev.rte.cmds 0 = some (done opRead) ∧ (done opRead).answered = false) := by decide +kernel
theorem witness_MetersFillAndReserve :
    (State.reset.dev.coreHeld = false ∧ State.reset.dev.tick.toNat % 3000000 = 0 ∧ State.reset.dev.queuesMeters = true) ∧
    (st fun d => { d with tick := 1 }).dev.tick.toNat % 3000000 ≠ 0 ∧
    (st (fld Fld.fabPairStatState 0 2)).dev.queuesMeters = false ∧
    State.reset.dev.sesLate = false ∧ State.reset.dev.fillCmd 1 = none ∧
    (let s := st (spanDev span1); s.dev.spanAt 0 = some span1 ∧ s.dev.reserveHeld span1 = true) ∧
    (let x : Span := { span1 with desc := { id := 1, k := 1, p := 0, members := [0x8000] } }
     (st (spanDev x)).dev.spanAt 0 = some x ∧ (st (spanDev x)).dev.reserveHeld x = false) := by decide +kernel

/-! ### Chunks and keys -/

/-- A chunk of session 1, its state `c`. -/
def chunk (c : ChunkSt) : Chunk := { session := 1, tenant := 3, span := 0, key := 0, comp := false, enc := false, seq := 4, st := c, orig := some 0x40000000, stored := some 0x40000001, origLen := 100, storedLen := 100 }
def chunkSt (x : Chunk) : State := st fun d => let d := spanDev span1 (rteDev { wses with open_ := some 0 } d); { d with ses := { d.ses with chunks := [(0, x)] } }
def clkAt (n : Nat) (s : State) : State := { s with dev := { s.dev with clk := n } }
/-- SES has overrun in this tick. -/
def sesOver (d : Dev) : Dev := { d with ovr := { d.ovr with stalled := [(blkSes, 0, 1)] } }

theorem witness_ChunksClose :
    (let s := clkAt 1000000 (chunkSt { chunk .filling with dueAt := some 0 })
     s.dev.coreHeld = false ∧ tget s.dev.ses.sessions 1 = some { wses with open_ := some 0 } ∧
      tget s.dev.ses.chunks 0 = some { chunk .filling with dueAt := some 0 } ∧ (chunk .filling).lastByte + s.dev.holdTicks < s.dev.clk ∧
      (chunk .filling).opened + s.dev.ageTicks < s.dev.clk ∧ s.dev.sesLate = false ∧ (chunk .filling).lastByte < s.dev.clk ∧ 0 < s.dev.clk ∧
      s.dev.ses.closures + s.dev.closeBefore 1 0 < 2048) ∧
    (let s := chunkSt (chunk .filling); s.dev.clk ≤ (chunk .filling).lastByte ∧ s.dev.clk ≤ (chunk .filling).lastByte + s.dev.holdTicks ∧ s.dev.clk ≤ (chunk .filling).opened + s.dev.ageTicks) ∧
    (let s := clkAt 1000000 (chunkSt { chunk .filling with dueAt := some 0 }); let d : Dev := { s.dev with ses := { s.dev.ses with closures := 2048 } }
     2048 ≤ d.ses.closures + d.closeBefore 1 0) ∧
    (sesOver (chunkSt (chunk .filling)).dev).sesLate = true := by decide +kernel
theorem witness_ChunksDispatchAndSeal :
    (let s := chunkSt (chunk .closed); s.dev.coreHeld = false ∧ tget s.dev.ses.chunks 0 = some (chunk .closed) ∧ (chunk .closed).st = .closed ∧ (chunk .closed).poisoned = false ∧
      (chunk .closed).stored.isSome = true ∧ s.dev.sesLate = false ∧
      (s.dev.ses.chunks.any fun o => o.2.st == .closed && o.2.stored.isSome && ! o.2.poisoned && o.1 != 0 &&
        (decide (o.2.vis < (chunk .closed).vis) || (o.2.vis == (chunk .closed).vis && decide (o.2.session < (chunk .closed).session)))) = false ∧
      (s.dev.druQueue { rd := false, id := 0 } false).isSome = true) ∧
    (let s := chunkSt (chunk .closed); (fld Fld.druRoleLoWrite 0 0 (fld Fld.druRoleHiWrite 0 0 s.dev)).druQueue { rd := false, id := 0 } false = none) ∧
    ((chunk .ready).st = .ready ∧ (chunk .ready).vis ≤ (chunkSt (chunk .ready)).dev.clk ∧ (chunkSt (chunk .ready)).dev.sesLate = false) ∧ (chunk .closed).st ≠ .ready ∧
    (sesOver (chunkSt (chunk .closed)).dev).sesLate = true ∧
    (let c := { chunk .ready with enc := true }; c.enc = true ∧ (chunkSt c).dev.keyOf c.key c.tenant = none) ∧
    ((chunk .ready).stored = some 0x40000001#32 ∧ (chunk .ready).enc = false) := by decide +kernel
theorem witness_RefetchAndKeyFetch :
    ((chunkSt (chunk .closed)).dev.coreHeld = false ∧ tget (chunkSt (chunk .closed)).dev.ses.chunks 0 = some (chunk .closed) ∧ (chunk .closed).poisoned = false) ∧
    (let c := { chunk .closed with poisoned := true }; tget (chunkSt c).dev.ses.chunks 0 = some c ∧ c.poisoned = true ∧ c.st = .closed ∧ c.orig = some 0x40000000#32) ∧
    (let c := { chunk .placed with poisoned := true }; tget (chunkSt c).dev.ses.chunks 0 = some c ∧ c.poisoned = true ∧ c.st = .placed) ∧
    State.reset.dev.dru.fetching.contains 65535 = false ∧
    (let s := st fun d => { d with dru := { d.dru with fetching := [65535] }, hlt := { d.hlt with kek := some (zeros 32) } }
     s.dev.coreHeld = false ∧ s.dev.dru.fetching.contains 65535 = true ∧ s.dev.hlt.kek = some (zeros 32)) ∧
    (let s := st fun d => { d with dru := { d.dru with fetching := [65535] } }; s.dev.dru.fetching.contains 65535 = true ∧ s.dev.hlt.kek = none) ∧
    leAt (zeros 64) 4 1 % 2 = 0 := by decide +kernel
/-- R99: a closed chunk's CRC is complemented. -/
theorem test_chunk_close : (dev (.chunkClose 1) (clkAt 1 (chunkSt { chunk .filling with dueAt := some 0, crc := 0x12345678 }))).bind
    (fun d => (tget d.ses.chunks 0).map fun c => (c.st, c.crc, c.vis)) = some (.closed, 0xEDCBA987, 2) := by decide +kernel

/-! ### Buffer memory -/

/-- An entry of the mash buffer for word 2 that masks byte 0 alone, and one that is complete. -/
def mash0 : MashEntry := { word := 2, bytes := 0xAA :: zeros 31, mask := true :: List.replicate 31 false, poison := false, born := 0 }
def mash1 : MashEntry := { word := 2, bytes := 0xAA :: zeros 31, mask := List.replicate 32 true, poison := false, born := 0 }
def mashSt (e : MashEntry) (n : Nat) : State := clkAt n (st fun d => { d with mem := { d.mem with mash := [e] } })

theorem witness_OtherCommandsLeaveMemory : mayWriteMemory .bootGo = false ∧ (ans .bootGo State.reset).isSome = true := by decide
theorem witness_MashEntriesAreWrittenOut :
    (mashSt mash0 2).dev.coreHeld = false ∧ 2 < hbmWords ∧ (mashSt mash0 2).dev.mashAt 2 = some mash0 ∧ mash0.born + 2 ≤ (mashSt mash0 2).dev.clk ∧ 3 ≠ 2 ∧ 96 / 32 ≠ 2 ∧
    mash0.mask.all id = false ∧ ((mashSt mash1 2).dev.mashAt 2 = some mash1 ∧ mash1.mask.all id = true ∧ mash1.bytes.length = 32) ∧
    (mashSt mash0 2).dev.stalls blkMem (memGroup 2 % 2) 2 = false ∧
    ({ (mashSt mash0 2).dev with ovr := { (mashSt mash0 2).dev.ovr with stalled := [(blkMem, memGroup 2 % 2, 2)] } } : Dev).stalls blkMem (memGroup 2 % 2) 2 = true ∧
    ((mashSt mash0 1).dev.mashAt 2 = some mash0 ∧ (mashSt mash0 1).dev.clk < mash0.born + 2) ∧ (mashSt mash0 1).dev.mashAt 1 = none := by decide +kernel
/-- R343: the masked byte comes from the entry. -/
theorem test_mash_write_out : (ans (.mashWriteOut 2) (mashSt mash0 2)).map (fun t => (t.hbm.byte 64, t.dev.mashAt 2)) = some (0xAA, none) := by decide +kernel


/-- A poisoned word in a payload buffer that a row holds. -/
def prow : Row := { st := .writing, bufs := [some 0x80000000], firstVer := some 0 }
def span2 : Span := { span1 with rows := [(0, prow)] }
def payW (d : Dev) : Nat := d.bufAddr 0x80000000 / 32

theorem witness_PayloadWordsAndBuckets :
    (let s : State := { st (spanDev span2) with hbm := Hbm.empty.putWord (payW (spanDev span2 {})) (zeros 32) true }; let w := payW s.dev
     s.dev.coreHeld = false ∧ w < hbmWords ∧ (s.dev.payloadAt (32 * w)).isSome = true ∧ (s.hbm.classify w).2.2 = true ∧ 96 / 32 ≠ w) ∧
    (let s : State := { st (spanDev span2) with hbm := { runs := [{ first := 0, last := 131072, pattern := 0, poison := false }] } }; let w := payW s.dev
     w < hbmWords ∧ (s.hbm.classify w).2.2 = false) ∧
    (st fun d => { d with tick := 1 }).dev.tick.toNat % (fld Fld.memBktCfgLeak 0 5 {}).fld1 Fld.memBktCfgLeak ≠ 0 ∧
    State.reset.dev.tick.toNat % State.reset.dev.fld1 Fld.memBktCfgLeak = 0 ∧ 31 < 32 ∧
    (∀ g, g < 32 → RegId.hltTickLo.offset 0 ≠ RegId.memBktStat.offset g) := by decide +kernel
/-- R346: a bucket that stands at 3 stands at 2 after the leak, and one at 0 stays. -/
theorem test_bucket_leak : (dev .bucketLeak (st (fld Fld.memBktStatLevel 31 3))).map (fun d => (d.fld Fld.memBktStatLevel 31, d.fld Fld.memBktStatLevel 0)) =
    some (2, 0) := by decide +kernel

/-! ### Rows and span sets -/

/-- A row that gathers, with its first placement at boundary 0; the span set of one member that holds it. -/
def grow : Row := { st := .gathering, chunks := [[]], firstAt := some 0 }
def gspan : Span := { span1 with rows := [(0, grow)] }
def placing (x : Chunk) : State := st fun d => let d := spanDev gspan (rteDev wses d); { d with ses := { d.ses with chunks := [(0, x)] } }
/-- A chunk so large that it fits no data set. -/
def huge : Chunk := { chunk .sealed with storedLen := 2 ^ 40 }
def wsync : Cmd := { cmd 16385 opSync [] with adm := some 0 }

theorem witness_ChunksArePlacedAndRowsClose :
    (let s := placing (chunk .sealed); s.dev.coreHeld = false ∧ tget s.dev.ses.chunks 0 = some (chunk .sealed) ∧ s.dev.spanAt (chunk .sealed).span = some gspan ∧
      (chunk .sealed).st = .sealed ∧ (chunk .sealed).vis ≤ s.dev.clk ∧ s.dev.inSequence 0 (chunk .sealed) = true ∧ s.dev.spn.placed < 1024 ∧ s.dev.stalls blkPkr 0 1 = false ∧
      tget gspan.rows gspan.openRow = some grow ∧ grow.st = .gathering ∧ s.dev.memberFor gspan grow (chunk .sealed) = some 0 ∧
      tget s.dev.ses.sessions (chunk .sealed).session = some wses) ∧
    (let s := placing huge; tget s.dev.ses.chunks 0 = some huge ∧ s.dev.inSequence 0 huge = true ∧ s.dev.memberFor gspan grow huge = none ∧
      gspan.openRow ≤ gspan.lowest + 32 ∧ s.dev.rowFull 0 gspan grow = true) ∧
    (let s := placing (chunk .filling); s.dev.rowFull 0 gspan grow = false ∧ s.dev.rowForSync 0 gspan = false ∧ s.dev.clk < 0 + s.dev.rowAge) ∧
    (let s := clkAt 5000000 (placing (chunk .filling)); s.dev.spanAt 0 = some gspan ∧ grow.firstAt = some 0 ∧ 0 + s.dev.rowAge ≤ s.dev.clk) ∧
    (let x : Span := { gspan with openRow := 40, rows := [(0, grow), (40, grow)] }; (st (spanDev x)).dev.spanAt 0 = some x ∧ tget x.rows x.openRow = some grow ∧ x.lowest + 32 < x.openRow) := by decide +kernel
theorem witness_ChunksArePlacedAndRowsClose_requests :
    (let c : Chunk := { chunk .placed with pieces := [{ ord := 0, len := 1, first := true, last := true, mark := false, void := false, total := 1, no := 1, cmd := 1 }] }
     let s : State := st fun d => let d := spanDev gspan (rteDev { wses with next := 1 } d)
       { d with ses := { d.ses with chunks := [(0, c)] }, rte := { d.rte with cmds := [(0, { wsync with bound := 1 })] } }
     tget gspan.rows gspan.openRow = some grow ∧ s.dev.spanAt 0 = some gspan ∧ s.dev.rowFull 0 gspan grow = false ∧ s.dev.rowForSync 0 gspan = true) ∧
    (let x : Span := { gspan with closeReq := true }; (st (spanDev x)).dev.spanAt 0 = some x ∧ (st (spanDev x)).dev.rowFull 0 x grow = false ∧
      (st (spanDev x)).dev.rowForSync 0 x = false ∧ x.closeReq = true) := by decide +kernel

/-- A row in which member 0 is slow, and a span set whose C has advanced. -/
def slowSpan (n : Nat) : Span := { span1 with rows := [(0, { st := .writing, firstVer := some 0 })], members := [{ member7 with slow := n }] }

theorem witness_SlowMembersAndJournal :
    (let s := st (spanDev (slowSpan 500000)); s.dev.coreHeld = false ∧ s.dev.spanAt 0 = some (slowSpan 500000) ∧ (slowSpan 500000).lacking.contains 0 = true ∧
      s.dev.slowLimit 0 ≤ (((slowSpan 500000).memsOf (slowSpan 500000).c).getD 0 {}).slow) ∧
    (((slowSpan 0).memsOf (slowSpan 0).c).getD 0 {}).slow < (st (spanDev (slowSpan 0))).dev.slowLimit 0 ∧
    (let x : Span := { span1 with c := 3 }; let s := clkAt 100000000 (st (spanDev x)); s.dev.spanAt 0 = some x ∧ x.jrnlAt + s.dev.fld1 Fld.spnJrnlCfgPeriod ≤ s.dev.clk ∧ x.jrnlC < x.c) ∧
    span1.c ≤ span1.jrnlC := by decide +kernel

/-- A span set of two members on peers, whose member 1 is rebuilt; what the peer has sent of row 0. -/
def reb (ready : Bool) (row : Nat) : Rebuild := { member := 1, tp := 0, vol := 9, row := row, ready := ready }
def peerSpan (r : Rebuild) (data : List (Nat × Nat × List Byte)) : Span :=
  { desc := { id := 1, k := 1, p := 1, members := [0, 1] }, members := [{ member7 with vol := 7 }, { member7 with vol := 8 }], c := 1, rebuild := some r, peerData := data }
/-- A peer that a route reaches. -/
def routed (s : Span) (d : Dev) : Dev := let d := spanDev s d; { d with fab := { d.fab with routes := [(0, [1])] } }

/-- What has been read of row 0 of a span set of two members on peers; two members that have been read alike, or not alike. -/
def reb1 (n : Option Nat) : Rebuild := { reb true 0 with made := n }
def whole : List Byte := zeros 300
def other : List Byte := zeros 299 ++ [0x01]
/-- Patrol of row 0 is on. -/
def patrolled (s : Span) : State := clkAt 100000000 (st fun d => fld Fld.spnSetCfgPatrol 0 1 (fld Fld.spnPatrolCfgEn 0 1 (routed s d)))
/-- SPN's patrol step has overrun. -/
def patrolOver (s : State) : State := { s with dev := { s.dev with ovr := { s.dev.ovr with stalled := [(blkSpn, 0, 3)] } } }
def nospan (data : List (Nat × Nat × List Byte)) : Span := { peerSpan (reb false 0) data with rebuild := none }

theorem witness_RebuildShapeAndPatrol :
    (let x := peerSpan (reb false 0) []; let s := st (spanDev x); s.dev.coreHeld = false ∧ s.dev.spanAt 0 = some x ∧ x.rebuild = some (reb false 0) ∧ (reb false 0).ready = false) ∧
    (let x := peerSpan (reb true 1) []; x.rebuild = some (reb true 1) ∧ x.c ≤ (reb true 1).row ∧ (reb true 1).member < x.members.length) ∧
    (let x := { peerSpan (reb true 0) [] with loss := [{ row := 0, members := 3, cause := 1 }] }; (reb true 0).row < x.c ∧ x.rowLost 0 = true) ∧
    (let x := { peerSpan (reb true 0) [] with voidRows := [0] }; x.rowLost 0 = false ∧ x.rowVoid 0 = true) ∧
    (let x := peerSpan (reb true 0) []; let s := st (spanDev x); s.dev.spanAt 0 = some x ∧ x.rowLost 0 = false ∧ x.rowVoid 0 = false ∧
      (x.descOf 0).p < (s.dev.rowHave s.hbm 0 0 1 x).2.2 + 1) ∧
    (let x := peerSpan (reb true 0) []; let s := st (routed x); s.dev.spanAt 0 = some x ∧ (s.dev.rowHave s.hbm 0 0 1 x).2.2 + 1 ≤ (x.descOf 0).p ∧
      (s.dev.rowHave s.hbm 0 0 1 x).2.1.length < (x.descOf 0).k) ∧
    (∀ n ∈ [none, some 3, some parityTotal], let x := peerSpan (reb1 n) [(0, 0, [0x5A])]; let s := st (routed x); s.dev.spanAt 0 = some x ∧ x.rebuild = some (reb1 n) ∧
      (reb1 n).made = n ∧ (s.dev.rowHave s.hbm 0 0 1 x).2.2 + 1 ≤ (x.descOf 0).p ∧ (x.descOf 0).k ≤ (s.dev.rowHave s.hbm 0 0 1 x).2.1.length ∧
      rebuildMember (x.descOf 0).k (x.descOf 0).p ((s.dev.rowHave s.hbm 0 0 1 x).2.1.take (x.descOf 0).k) 1 = some [0x5A]) ∧ 3 ≠ parityTotal ∧
    (let x := peerSpan (reb1 none) []; let d := spanDev x (({} : Dev).modPool 4 fun p => { p with created := 64 }); d.spanAt 0 = some x ∧ (reb1 none).tp < d.wr.length ∧
      (d.pool.reqs.any fun q => fittingPool q.size == 4 && (q.owner == 1 || q.owner == 4 || q.owner == 10)) = false ∧ d.mayTake 5 4 = true) := by decide +kernel
theorem witness_RebuildShapeAndPatrol_shape :
    (let x : Span := { span1 with phase := 1 }; (st (spanDev x)).dev.spanAt 0 = some x ∧ x.phase = 1 ∧ (st (spanDev x)).dev.shapeReady x = true) ∧ span1.phase ≠ 1 ∧
    (let x : Span := { span1 with phase := 1, newDesc := some { id := 1, k := 1, p := 1, members := [0x8200, 0x8300] }, newMembers := [{}, {}] }; (st (spanDev x)).dev.shapeReady x = false) := by decide +kernel
theorem witness_RebuildShapeAndPatrol_patrol :
    (st (spanDev span1)).dev.patrolOn 0 span1 = false ∧
    (let x := { nospan [] with voidRows := [0] }; let s := patrolled x; s.dev.coreHeld = false ∧ s.dev.spanAt 0 = some x ∧ s.dev.patrolOn 0 x = true ∧
      s.dev.stalls blkSpn 0 3 = false ∧ x.rowVoid x.patrol = true) ∧
    (patrolOver State.reset).dev.stalls blkSpn 0 3 = true ∧
    (let x := nospan []; let s := patrolled x; s.dev.spanAt 0 = some x ∧ s.dev.patrolOn 0 x = true ∧ x.patrolRow = true ∧ x.rowLost 0 = false ∧ x.rowVoid 0 = false ∧
      (s.dev.patrolSrcs s.hbm 0 0 2).2.any DsSrc.awaited = true) ∧
    (let x := nospan [(0, 0, whole), (0, 1, whole)]; let s := patrolled x; s.dev.spanAt 0 = some x ∧ s.dev.patrolOn 0 x = true ∧ x.patrolRow = true ∧ (x.descOf x.patrol).width = 2 ∧
      (s.dev.patrolSrcs s.hbm 0 0 2).2.any DsSrc.awaited = false ∧ (s.dev.patrolSrcs s.hbm 0 0 2).2.any DsSrc.isVoid = false) ∧
    (let x := { span1 with c := 1, desc := { id := 1, k := 1, p := 0, members := [0x8700] }, members := [{ member7 with map := [{ ds := 0, row := 0, count := 8 }] }] }
     let s := clkAt 100000000 (st fun d => fld Fld.spnSetCfgPatrol 0 1 (fld Fld.spnPatrolCfgEn 0 1 ((spanDev x d).modRd 7 fun r => { r with voids := [(0, 8, 0)] })))
     s.dev.spanAt 0 = some x ∧ s.dev.patrolOn 0 x = true ∧ x.patrolRow = true ∧ x.rowLost 0 = false ∧ x.rowVoid 0 = false ∧
      (s.dev.patrolSrcs s.hbm 0 0 1).2.any DsSrc.awaited = false ∧ (s.dev.patrolSrcs s.hbm 0 0 1).2.any DsSrc.isVoid = true) := by decide +kernel
/-- R324: the outcomes of a patrolled row of K 1 and P 1, by what was read of its two members. -/
theorem witness_RebuildShapeAndPatrol_judge :
    let bad := fun got : List (Option (List Byte)) => (got.zipIdx.filter fun y => y.1.isNone).map (·.2)
    ((nospan []).descOf 0).p < (bad [none, none]).length ∧ (bad [none, some whole]).length = ((nospan []).descOf 0).p ∧ bad [none, some whole] ≠ [] ∧
    (bad [some whole, some whole] = [] ∧ parityDiff [whole] false (some whole) = none) ∧
    (bad [some whole, some other] = [] ∧ (parityDiff [whole] false (some other)).toList.min? = some 299) := by decide +kernel

/-- A member on this device's transport 2, one on a peer, and a reconstruction that was asked for. -/
def recon (n : Option Nat) : Recon := { slot := 0, row := 0, member := 1, made := n }
def reconSt (n : Option Nat) (s : State) : State := { s with dev := { s.dev with spn := { s.dev.spn with recons := [recon n] } } }
/-- A row whose members have all been verified. -/
def vrow : Row := { prow with verified := 3 }

theorem witness_PeersAndReconstruction :
    (let x : Span := { span1 with desc := { id := 1, k := 1, p := 0, members := [0x8200] } }; let s := st (spanDev x); s.dev.coreHeld = false ∧ s.dev.spanAt 0 = some x ∧
      (s.dev.memberTp x 0 0).isSome = true ∧ (x.descOf 0).width ≤ 1) ∧
    (let x := { nospan [] with rows := [(0, prow)] }; let s := st (spanDev x); s.dev.spanAt 0 = some x ∧ 1 < (x.descOf 0).width ∧
      s.dev.memberTp x 0 1 = none ∧ tget x.rows 0 = some prow ∧ prow.missing.getLsbD 1 = false ∧ prow.st = .writing ∧ (x.live 0 prow).all prow.verified.getLsbD = false) ∧
    (let x := { nospan [] with rows := [(0, vrow)] }; (spanDev x {}).spanAt 0 = some x ∧ tget x.rows 0 = some vrow ∧ vrow.st = .writing ∧ (x.live 0 vrow).all vrow.verified.getLsbD = true) ∧
    (st (spanDev span1)).dev.spn.recons.find? (fun r => r.slot == 0 && r.row == 0 && r.out.isNone && ! r.failed) = none ∧
    (let x := nospan []; let s := reconSt none (st (routed x)); s.dev.spanAt 0 = some x ∧
      s.dev.spn.recons.find? (fun r => r.slot == 0 && r.row == 0 && r.out.isNone && ! r.failed) = some (recon none) ∧
      (s.dev.rowHave s.hbm 0 0 1 x).2.2 + 1 ≤ (x.descOf 0).p ∧ (s.dev.rowHave s.hbm 0 0 1 x).2.1.length < (x.descOf 0).k) ∧
    (let x := nospan []; let s := reconSt none (st (spanDev x)); s.dev.spanAt 0 = some x ∧ (x.descOf 0).p < (s.dev.rowHave s.hbm 0 0 1 x).2.2 + 1) ∧
    (∀ n ∈ [none, some 3, some parityTotal], let x := nospan [(0, 0, [0x5A])]; let s := reconSt n (st (routed x)); s.dev.spanAt 0 = some x ∧
      s.dev.spn.recons.find? (fun r => r.slot == 0 && r.row == 0 && r.out.isNone && ! r.failed) = some (recon n) ∧ (recon n).made = n ∧
      (s.dev.rowHave s.hbm 0 0 1 x).2.2 + 1 ≤ (x.descOf 0).p ∧ (x.descOf 0).k ≤ (s.dev.rowHave s.hbm 0 0 1 x).2.1.length ∧
      rebuildMember (x.descOf 0).k (x.descOf 0).p ((s.dev.rowHave s.hbm 0 0 1 x).2.1.take (x.descOf 0).k) 1 = some [0x5A]) := by decide +kernel


/-! ### Transport ports -/

/-- A change of transport 7. -/
def tp7 (f : Tp → Tp) (d : Dev) : Dev := d.modTp 7 f
/-- An identity record that is in range, with SERIAL 5, and its link identity. -/
def motor : List Byte := padTo 32 ([0x04] ++ zeros 15 ++ [0x01])
def ident : List Byte := withCrc32c (padTo 252 (leBytes 4 0x54494452 ++ [0x01, 0x00, 0x00, 0x00] ++ leBytes 8 5 ++ leBytes 4 1 ++ leBytes 2 1 ++ [0x40, 0x04] ++ leBytes 4 1000
  ++ leBytes 4 34304 ++ zeros 6 ++ [0x01, 0x01] ++ zeros 24 ++ (List.range 64).map (BitVec.ofNat 8) ++ zeros 8 ++ motor ++ motor ++ [0x00, 0x00, 0x01]))
def link5 : List Byte := leBytes 8 5
/-- The port of transport 7 is up; the link identity has come too. -/
def up7 (d : Dev) : Dev := fld Fld.tpLinkStatUp 7 1 d
def linked7 : State := st fun d => up7 (tp7 (fun p => { p with link := link5 }) d)

theorem witness_PortsAndIdentity :
    (let s := st fun d => fld Fld.tpLinkCfgEnable 7 1 (tp7 (fun p => { p with good := 8 }) d); s.dev.coreHeld = false ∧ s.dev.flag Fld.tpLinkStatUp 7 = false ∧
      s.dev.flag Fld.tpLinkCfgEnable 7 = true ∧ 8 ≤ (s.dev.tpAt 7).good ∧ RegId.tpLinkStat.offset 6 ≠ RegId.tpLinkStat.offset 7) ∧
    (State.reset.dev.tpAt 7).good < 8 ∧
    (let s := st fun d => up7 (tp7 (fun p => { p with miss := 3 }) d); s.dev.flag Fld.tpLinkStatUp 7 = true ∧ 3 ≤ (s.dev.tpAt 7).miss) ∧ (State.reset.dev.tpAt 7).miss < 3 ∧
    State.reset.dev.flag Fld.tpLinkStatUp 7 = false ∧
    (linked7.dev.coreHeld = false ∧ (linked7.dev.tpAt 7).link = link5 ∧ link5 ≠ [] ∧ linked7.dev.flag Fld.tpLinkStatUp 7 = true ∧ ident.length = 256 ∧ crc32cOk ident = true ∧ identRangeOk ident = true ∧ leAt ident 8 8 = leAt link5 0 8 ∧
      7 < linked7.dev.tp.length) ∧
    ([] : List Byte).length ≠ 256 ∧
    (let r := withCrc32c (zeros 252); r.length = 256 ∧ crc32cOk r = true ∧ identRangeOk r = false) ∧ leAt ident 8 8 ≠ leAt (leBytes 8 6) 0 8 := by decide +kernel

/-- A status block whose CRC passes, as 14 blocks. -/
def status : List Byte := withCrc32c (zeros 108)
def stWord (j : Nat) : BitVec 64 := BitVec.ofNat 64 ((slice status (8 * j) 8).foldl (fun a b => 256 * a + b.toNat) 0)
/-- The blocks `hd`, then `m` blocks of zeros. -/
def laneW (hd : List (BitVec 64)) (m : Nat) : List (BitVec 64) := hd ++ List.replicate m 0#64
/-- The three lanes of a cycle with that status, samples of 0 and the last block `x`. -/
def lane0 : List (BitVec 64) := laneW ([0, 3, 6, 9, 12].map stWord) 12328
def lane1 : List (BitVec 64) := laneW ([1, 4, 7, 10, 13].map stWord) 12328
def lane2 : List (BitVec 64) := laneW ([2, 5, 8, 11].map stWord ++ [0]) 12328
def laneOf (ws : List (BitVec 64)) : List LinkBlock := .ctrl 0x2D 0 :: ws.map .data
def cycle (x : BitVec 64) : UpCycle := { lanes := [laneOf (lane0 ++ [0]), laneOf (lane1 ++ [0]), laneOf (lane2 ++ [x])], rtt := 0 }
/-- The blocks of the cycle in order, the last one aside; what its sample CRC covers. -/
def blocks : List (BitVec 64) := threeWay lane0 lane1 lane2 ++ [0, 0]
def sampleCrc : BitVec 32 := crc32c (wordBytes (blocks.drop 14))

theorem laneW_length (hd : List (BitVec 64)) (m : Nat) : (laneW hd m).length = hd.length + m := by simp [laneW]
theorem laneContent_laneOf (ws : List (BitVec 64)) (h : ws.length = laneBlocks) : laneContent (laneOf ws) = some ws := by
  have h2 : (ws.map LinkBlock.data).take laneBlocks = ws.map LinkBlock.data := List.take_of_length_le (by simp [h])
  have h3 : (ws.map LinkBlock.data).filterMap blockWord = ws := by
    rw [List.filterMap_map]; exact List.filterMap_some
  simp only [laneOf, laneContent, h2, h3, startBits, h]
  simp
theorem threeWay_append : ∀ (a b c a' b' c' : List (BitVec 64)), a.length = b.length → b.length = c.length →
    threeWay (a ++ a') (b ++ b') (c ++ c') = threeWay a b c ++ threeWay a' b' c'
  | [], [], [], _, _, _, _, _ => rfl
  | a :: as, b :: bs, c :: cs, a', b', c', h, h' => by
    simp only [List.cons_append, threeWay]
    rw [threeWay_append as bs cs a' b' c' (by simpa using h) (by simpa using h')]
  | [], _ :: _, _, _, _, _, h, _ => by simp at h
  | _ :: _, [], _, _, _, _, h, _ => by simp at h
  | _, [], _ :: _, _, _, _, _, h => by simp at h
  | _, _ :: _, [], _, _, _, _, h => by simp at h
theorem threeWay_length : ∀ (a b c : List (BitVec 64)), a.length = b.length → b.length = c.length → (threeWay a b c).length = 3 * a.length
  | [], [], [], _, _ => rfl
  | a :: as, b :: bs, c :: cs, h, h' => by
    simp only [threeWay, List.length_cons]
    rw [threeWay_length as bs cs (by simpa using h) (by simpa using h')]; omega
  | [], _ :: _, _, h, _ => by simp at h
  | _ :: _, [], _, h, _ => by simp at h
  | _, [], _ :: _, _, h => by simp at h
  | _, _ :: _, [], _, h => by simp at h
theorem lane0_length : lane0.length = 12333 := laneW_length _ _
theorem lane1_length : lane1.length = 12333 := laneW_length _ _
theorem lane2_length : lane2.length = 12333 := laneW_length _ _
theorem blocks_length : blocks.length = 37001 := by
  simp only [blocks, List.length_append, threeWay_length _ _ _ (lane0_length.trans lane1_length.symm) (lane1_length.trans lane2_length.symm), lane0_length]
  rfl
theorem cycle_content (x : BitVec 64) : cycleContent (cycle x) = some (blocks ++ [x]) := by
  have h (ws : List (BitVec 64)) : (laneOf ws).all blockKnown = true := by simp [laneOf, blockKnown]
  have k (l : List (BitVec 64)) (y : BitVec 64) (hl : l.length = 12333) : laneContent (laneOf (l ++ [y])) = some (l ++ [y]) :=
    laneContent_laneOf _ (by rw [List.length_append, hl]; rfl)
  simp only [cycleContent, cycle, List.all_cons, List.all_nil, List.map_cons, List.map_nil, h, k _ _ lane0_length, k _ _ lane1_length, k _ _ lane2_length, Bool.and_self,
    if_true, threeWay_append _ _ _ _ _ _ (lane0_length.trans lane1_length.symm) (lane1_length.trans lane2_length.symm), blocks, List.append_assoc]
  rfl
theorem cycle_status (x : BitVec 64) : statusOk (statusOf (blocks ++ [x])) = true := by
  have h0 : threeWay ([0, 3, 6, 9, 12].map stWord) ([1, 4, 7, 10, 13].map stWord) ([2, 5, 8, 11].map stWord ++ [0]) = (List.range 14).map stWord ++ [0] := rfl
  have h : (blocks ++ [x]).take 14 = (List.range 14).map stWord := by
    rw [List.take_append_of_le_length (by rw [blocks_length]; decide), blocks, lane0, lane1, lane2, laneW, laneW, laneW,
      threeWay_append ([0, 3, 6, 9, 12].map stWord) ([1, 4, 7, 10, 13].map stWord) ([2, 5, 8, 11].map stWord ++ [0]) _ _ _ (by simp) (by simp), h0,
      List.append_assoc, List.append_assoc, List.take_append_of_le_length (by simp), List.take_of_length_le (by simp)]
  rw [statusOf, h]; decide +kernel
theorem cycle_crc (x : BitVec 64) : sampleCrcOk (blocks ++ [x]) = (sampleCrc.toNat == bits x.toNat 0 32) := by
  have h1 : (blocks.drop 14).length = 36987 := by rw [List.length_drop, blocks_length]
  have h2 : blocksAt (blocks ++ [x]) 14 36987 = blocks.drop 14 := by
    rw [blocksAt, List.drop_append_of_le_length (by rw [blocks_length]; decide), List.take_append_of_le_length (le_of_eq h1.symm), List.take_of_length_le (le_of_eq h1)]
  have h3 : (blocks ++ [x]).getD 37001 0 = x := by
    rw [List.getD_eq_getElem?_getD, List.getElem?_append_right (le_of_eq blocks_length), blocks_length]; rfl
  rw [sampleCrcOk, h2, h3, sampleCrc]

theorem crcWord_ok (c : BitVec 32) (b : Bool) : (c.toNat == bits (BitVec.ofNat 64 (c.toNat + if b then 0 else 1)).toNat 0 32) = b := by
  have h : c.toNat < 2 ^ 32 := c.isLt
  cases b <;> simp [bits, BitVec.toNat_ofNat, beq_eq_decide] <;> omega

/-- A cycle whose sample CRC passes, and one whose sample CRC fails. -/
def crcWord (b : Bool) : BitVec 64 := BitVec.ofNat 64 (sampleCrc.toNat + if b then 0 else 1)
theorem crcWord_eq (b : Bool) : crcWord b = BitVec.ofNat 64 (sampleCrc.toNat + if b then 0 else 1) := rfl

/-- A read of 64 bytes that waits for its response, and what the status taken last carries. -/
def req : Req := { use := .readVol 0, op := 3, id := 4, addr := 0, len := 64, data := [], since := 0 }
def rsp (st : BitVec 8) : Rsp := { id := 4, status := st, data := zeros 32 }
def reqSt (r : Req) (st_ : BitVec 8) : State := st (tp7 fun p => { p with req := some r, rsp := rsp st_ })

theorem witness_CyclesAndRequests_cycle (b : Bool) : State.reset.dev.coreHeld = false ∧ cycleContent (cycle (crcWord b)) = some (blocks ++ [crcWord b]) ∧
    statusOk (statusOf (blocks ++ [crcWord b])) = true ∧ sampleCrcOk (blocks ++ [crcWord b]) = b := by
  refine ⟨by decide, cycle_content _, cycle_status _, ?_⟩
  rw [cycle_crc, crcWord_eq]; exact crcWord_ok sampleCrc b
theorem witness_CyclesAndRequests :
    (State.reset.dev.coreHeld = false ∧ cycleContent { lanes := [[.ctrl 0x33 0]], rtt := 0 } = none) ∧
    (∀ x ∈ [0xFF#8, 0x01#8, 0x00#8], let s := reqSt req x; s.dev.coreHeld = false ∧ 7 < s.dev.tp.length ∧ (s.dev.tpAt 7).req = some req ∧ (s.dev.tpAt 7).rsp = rsp x ∧
      s.dev.clk < req.since + 500 ∧ req.tried = none ∧ (s.dev.tpAt 7).lastId = 0 ∧ req.id = (rsp x).id ∧ 32 < req.len ∧ req.op = 3) ∧
    (let r := { req with id := 5 }; ((reqSt r 0).dev.tpAt 7).req = some r ∧ r.id ≠ (rsp 0).id) ∧
    rsp 1 ≠ ((reqSt req 0).dev.tpAt 7).rsp ∧
    (let r := { req with tried := some 3 }; let s := clkAt 500 (reqSt r 0); (s.dev.tpAt 7).req = some r ∧ r.since + 500 ≤ s.dev.clk ∧ r.tried.isSome = true ∧ (s.dev.tpAt 7).waiting = []) := by decide +kernel
/-- R188: the next part of a read follows the first 32 bytes. -/
theorem test_link_response : (dev (.linkResponse 7 4 0 (zeros 32)) (reqSt req 0)).bind (fun d => (d.tpAt 7).req.map fun r => (r.addr, r.len, r.got.length)) =
    some (32, 32, 32) := by decide +kernel

/-! ### Writing -/

/-- A change of the write side of transport 7, and of its motion and reading. -/
def wr7 (f : Wr → Wr) (d : Dev) : Dev := d.modWr 7 f
def mot7 (f : Mot → Mot) (d : Dev) : Dev := d.modMot 7 f
def rd7 (f : Rd → Rd) (d : Dev) : Dev := d.modRd 7 f
def posn : Position := { num := 9, kind := .region, ds := 3, attempt := 0, member := 0, tag := 0, q := 0, wrap := 0, retired := 0, splice := false }
/-- A data set, and one that a staged payload holds. -/
def dset (n : Nat) : DsWr := { no := n, slot := 0, row := 0, member := 0, payload := 0x80000000 }
def mstate (n : Nat) (d : Dev) : Dev := fld Fld.motStatState 7 n d

theorem witness_StreamsEndVerifyAndGoOn :
    (let s := st (wr7 fun w => { w with mode := .streaming, todo := [posn] }); s.dev.coreHeld = false ∧ (s.dev.wrAt 7).mode = .streaming ∧ (s.dev.wrAt 7).todo = posn :: [] ∧
      posn.kind = .region ∧ (s.dev.tpAt 7).fifo = 0 ∧ s.dev.unsent 7 = 0) ∧
    ((st (tp7 fun p => { p with fifo := 1 })).dev.tpAt 7).fifo ≠ 0 ∧
    (let s := st fun d => tp7 (fun p => { p with under := 8 }) (wr7 (fun w => { w with mode := .streaming }) d); 8 ≤ (s.dev.tpAt 7).under ∧ (s.dev.wrAt 7).mode = .streaming) ∧
    (State.reset.dev.tpAt 7).under < 8 ∧
    (let s := st (wr7 fun w => { w with stream := [posn] }); (s.dev.wrAt 7).stream.find? (fun p => p.num == 9) = some posn ∧ 63 < 64 ∧ posn.judged.getLsbD 63 = false ∧
      s.dev.verifyDue 7 posn = false) ∧
    (let s := st fun d => tp7 (fun p => { p with off := 10 ^ 9 }) (wr7 (fun w => { w with stream := [posn] }) d)
     (s.dev.wrAt 7).stream.find? (fun p => p.num == 9) = some posn ∧ s.dev.verifyDue 7 posn = true) ∧
    (let s := st (wr7 fun w => { w with live := [dset 3, dset 4] }); 7 < s.dev.wr.length ∧ dset 3 ∈ (s.dev.wrAt 7).live ∧ (dset 3).no ∈ [3] ∧ (dset 3).no ∉ [4] ∧
      (∀ y ∈ (s.dev.wrAt 7).live, y.attempt < 255) ∧ (s.dev.wrAt 7).lastDs = none) := by decide +kernel
theorem witness_StreamsEndVerifyAndGoOn_goes_on :
    (let s := st fun d => mstate 5 (mot7 (fun m => { m with travel := .park }) (wr7 (fun w => { w with mode := .parked, staged := [{ dset 3 with rebuilt := true }] }) d)); s.dev.coreHeld = false ∧
      (s.dev.wrAt 7).mode = .parked ∧ (s.dev.motAt 7).travel = .park ∧ s.dev.motState 7 = 5 ∧ (s.dev.nextDs 7).isSome = true ∧ (s.dev.rdAt 7).goal = .none) ∧
    (State.reset.dev.nextDs 7).isSome = false ∧
    (let s := st fun d => mstate 3 (mot7 (fun m => { m with wrap := 1 }) (wr7 (fun w => { w with mode := .turning }) d)); (s.dev.wrAt 7).mode = .turning ∧ s.dev.motState 7 = 3 ∧
      (if (s.dev.motAt 7).wrap % 2 = 1 then (s.dev.motAt 7).lpos ≤ 0 else 1000000 * (s.dev.idn 7 16 4 : Int) ≤ (s.dev.motAt 7).lpos)) ∧
    (let s := st fun d => mstate 3 (rd7 (fun r => { r with phase := .run }) (mot7 (fun m => { m with wrap := 1, travel := .read }) d)); (s.dev.rdAt 7).phase = .run ∧ (s.dev.motAt 7).travel = .read ∧
      s.dev.motState 7 = 3 ∧ (s.dev.motAt 7).wrap % 2 = 1 ∧ (s.dev.motAt 7).lpos ≤ 0) ∧
    State.reset.dev.motState 7 ≠ 3 ∧
    (let s := st fun d => mot7 (fun m => { m with pauses := [.offTrack], clear := 50 }) (wr7 (fun w => { w with mode := .stopped }) d); (s.dev.motAt 7).pauses ≠ [] ∧ 50 ≤ (s.dev.motAt 7).clear ∧
      (s.dev.wrAt 7).mode = .stopped) ∧
    ((State.reset.dev.wrAt 7).mode ≠ .streaming ∧ (State.reset.dev.wrAt 7).mode ≠ .stopped ∧ (State.reset.dev.motAt 7).clear < 50) := by decide +kernel

/-! ### Reading -/

/-- A command that waits to read a data set of transport 7, which serves member 0 of span set 0. -/
def rspan : Span := { span1 with desc := { id := 1, k := 1, p := 0, members := [0x8700] } }
def reader : State := st fun d => let d := spanDev rspan d
  { d with rte := { d.rte with cmds := [(0, { rcmd with adm := some 0 })] } }
def taken (s : State) : State := { s with dev := rd7 (fun r => { r with took := some 0 }) (wr7 (fun w => { w with mode := .parked }) s.dev) }

theorem witness_ReadsAndRetries :
    (let s := clkAt 10000000 (st fun d => rd7 (fun r => { r with waitSince := some 0 }) (wr7 (fun w => { w with mode := .streaming }) d)); s.dev.coreHeld = false ∧
      (s.dev.rdAt 7).waitSince = some 0 ∧ (s.dev.wrAt 7).mode = .streaming ∧ (s.dev.rdAt 7).took = none ∧ 0 + s.dev.rdWait 7 ≤ s.dev.clk ∧ State.reset.dev.clk < 0 + s.dev.rdWait 7) ∧
    (let s := taken State.reset; (s.dev.rdAt 7).took = some 0 ∧ (s.dev.wrAt 7).mode = .parked ∧ (s.dev.rdAt 7).goal = .none ∧ ((s.dev.wants s.hbm 7).filter fun w => w.1.rank == 4) = []) ∧
    (let s := taken reader; ((s.dev.wants s.hbm 7).filter fun w => w.1.rank == 4) ≠ [] ∧ s.dev.clk < 0 + s.dev.rdMax 7) ∧
    (∀ n ∈ [0, 100000000], let s := clkAt n (st fun _ => rd7 (fun r => { r with goal := .records 0 }) (taken reader).dev); (s.dev.rdAt 7).took = some 0 ∧ (s.dev.wrAt 7).mode = .parked ∧
      (s.dev.rdAt 7).goal ≠ .none ∧ ((s.dev.wants s.hbm 7).filter fun w => w.1.rank == 4) ≠ []) ∧
    (let s := st fun _ => rd7 (fun r => { r with goal := .patrol 0 }) (taken State.reset).dev; (s.dev.rdAt 7).took = some 0 ∧ (s.dev.rdAt 7).goal ≠ .none ∧
      ((s.dev.wants s.hbm 7).filter fun w => w.1.rank == 4) = []) ∧
    (let s := clkAt 100000000 (taken reader); ((s.dev.wants s.hbm 7).filter fun w => w.1.rank == 4) ≠ [] ∧ 0 + s.dev.rdMax 7 ≤ s.dev.clk) ∧
    (let s := st fun d => mstate 5 (rd7 (fun r => { r with phase := .ahead }) d); (s.dev.rdAt 7).phase = .ahead ∧ s.dev.motState 7 = 5 ∧ s.dev.waitingSets 7 < s.dev.aheadMax 7) := by decide +kernel

/-- A data set whose sub data set `y` is not decoded, and the others are. -/
def dsr (y : Sds) : DsRd := { no := 3, past := true, sds := y :: List.replicate 63 { done := true } }
def stuckRd (y : Sds) (d : Dev) : Dev := rd7 (fun r => { r with sets := [dsr y], chans := List.replicate 64 { start := 10 ^ 9 } }) d

theorem witness_ReadsAndRetries_rounds :
    (let y : Sds := { rounds := 1, iters := 3, grown := true }; let s := st (stuckRd y); s.dev.coreHeld = false ∧
      (s.dev.rdAt 7).sets.find? (fun x => match x.sds[0]? with
        | some y => ! y.done && ! y.active && y.rounds == 1 && y.grown && s.dev.copiesEnded 7 x
        | none => false) = some (dsr y) ∧ (dsr y).sds[0]? = some y) ∧
    (let y : Sds := { rounds := 2, iters := 3 }; let s := st (stuckRd y); ((s.dev.rdAt 7).sets.all fun x => (x.sds.map (·.grown)).head? == some false) = true ∧
      s.dev.stuckSet 7 = some (dsr y) ∧ s.dev.rowOfSet 7 3 = none ∧ (s.dev.nextSlot (s.dev.rdAt 7)).isSome = true) ∧
    State.reset.dev.stuckSet 7 = none ∧
    (let y : Sds := { rounds := 2, iters := 3 }; let s := st fun d => rd7 (fun r => { r with slot := 8 }) (stuckRd y d); s.dev.stuckSet 7 = some (dsr y) ∧ s.dev.rowOfSet 7 3 = none ∧
      s.dev.nextSlot (s.dev.rdAt 7) = none) := by decide +kernel

/-! ### Motion -/

/-- A reel of transport 7. -/
def reel7 (f : Reel → Reel) (d : Dev) : Dev := d.modReel 7 0 f

theorem witness_StartsStopsAndTracking :
    (let s := st fun d => mstate 1 (mot7 (fun m => { m with age := 65535 }) d); s.dev.coreHeld = false ∧ s.dev.motState 7 = 1 ∧ max 500 (s.dev.fld Fld.motStartCfgAlignT 7) ≤ (s.dev.motAt 7).age) ∧
    (State.reset.dev.motAt 7).age < 500 ∧
    (let s := st fun d => mstate 2 (reel7 (fun r => { r with hit := 255 }) d); s.dev.motState 7 = 2 ∧ ((s.dev.motAt 7).reel 0).handed = false ∧
      s.dev.fld1 Fld.motForceCfgHandN 7 ≤ ((s.dev.motAt 7).reel 0).hit ∧ ((s.dev.modReel 7 0 fun r => { r with handed := true }).motAt 7).reels.all (·.handed) = false) ∧
    (let s := st fun d => mstate 2 (reel7 (fun r => { r with hit := 255 }) (mot7 (fun m => { m with reels := [{}, { handed := true }] }) d))
     s.dev.motState 7 = 2 ∧ ((s.dev.motAt 7).reel 0).handed = false ∧ s.dev.fld1 Fld.motForceCfgHandN 7 ≤ ((s.dev.motAt 7).reel 0).hit ∧
      ((s.dev.modReel 7 0 fun r => { r with handed := true }).motAt 7).reels.all (·.handed) = true) ∧
    ((State.reset.dev.motAt 7).reel 0).hit < State.reset.dev.fld1 Fld.motForceCfgHandN 7 ∧
    (∀ b ∈ [true, false], let s := st fun d => mstate 2 (reel7 (fun r => { r with atMin := 10000 }) (mot7 (fun m => { m with retried := b }) d)); s.dev.motState 7 = 2 ∧ (s.dev.motAt 7).off = none ∧
      ((s.dev.motAt 7).reel 0).handed = false ∧ s.dev.handMax 7 ≤ ((s.dev.motAt 7).reel 0).atMin ∧ (s.dev.motAt 7).retried = b) ∧
    (let s := st fun d => mstate 2 (mot7 (fun m => { m with off := some 500 }) d); (s.dev.motAt 7).off = some 500 ∧ s.dev.motState 7 = 2 ∧ 499 < 500 ∧ 7 < s.dev.mot.length) := by decide +kernel
theorem witness_StartsStopsAndTracking_track :
    (let s := st fun d => mstate 4 (mot7 (fun m => { m with slow := 50 }) d); s.dev.motState 7 = 4 ∧ (s.dev.motAt 7).vref = 0 ∧ 50 ≤ (s.dev.motAt 7).slow) ∧
    (State.reset.dev.motAt 7).slow < 50 ∧
    (let s := st fun d => fld Fld.motStatClamped 7 1 (mot7 (fun m => { m with clampOk := 2500 }) d); s.dev.flag Fld.motStatClamped 7 = true ∧ 2500 ≤ (s.dev.motAt 7).clampOk) ∧
    (State.reset.dev.motAt 7).clampOk < 2500 ∧
    (let s := st fun d => fld Fld.motStatOnTrack 7 1 (mot7 (fun m => { m with lat := { m.lat with out := 2 } }) d); s.dev.flag Fld.motStatOnTrack 7 = true ∧ 2 ≤ (s.dev.motAt 7).lat.out) ∧
    (State.reset.dev.motAt 7).lat.out < 2 ∧
    (let s := st (mot7 fun m => { m with lat := { m.lat with inTrack := 8 } }); s.dev.flag Fld.motStatOnTrack 7 = false ∧ 8 ≤ (s.dev.motAt 7).lat.inTrack) ∧
    (State.reset.dev.motAt 7).lat.inTrack < 8 ∧
    (let s := st fun d => (mot7 (fun m => { m with vref := -250000000, lat := { m.lat with noFrame := 100000 } }) d); (s.dev.motAt 7).lat.loss = false ∧
      250000000 ≤ (s.dev.motAt 7).vref.natAbs ∧ s.dev.fld1 Fld.motSrvCfgLossT 7 ≤ (s.dev.motAt 7).lat.noFrame) ∧
    (State.reset.dev.motAt 7).vref.natAbs < 250000000 ∧
    (let s := st (mot7 fun m => { m with lat := { m.lat with loss := true, lossTicks := 1000000 } }); (s.dev.motAt 7).lat.loss = true ∧
      10 * s.dev.fld1 Fld.motSrvCfgLossT 7 ≤ (s.dev.motAt 7).lat.lossTicks) ∧ (State.reset.dev.motAt 7).lat.loss = false := by decide +kernel

/-- Reel A has missed its windows at high speed; the other reel is lost or not. -/
def missed (other : Bool) (n : Nat) : State := st fun d => mstate n (mot7 (fun m => { m with reels := [{ period := 1, missed := 255 }, { lost := other }] }) d)

theorem witness_RotorsAndChopper :
    (∀ b ∈ [true, false], ∀ n ∈ [3, 4], let s := missed b n; s.dev.coreHeld = false ∧ s.dev.motMoving 7 = true ∧ ((s.dev.motAt 7).reel 0).lost = false ∧
      s.dev.fld1 Fld.motZcCfgLostN 7 ≤ ((s.dev.motAt 7).reel 0).missed ∧ ((s.dev.motAt 7).reel 0).period < 2000 * s.dev.fld1 Fld.motForceCfgHandT 7 ∧
      ((s.dev.motAt 7).reel (1 - 0)).lost = b) ∧
    (let s := st fun d => mot7 (fun m => { m with reels := [{ period := 1, missed := 255 }, {}], age := 0 }) (mstate 7 d); s.dev.motState 7 = 7 ∧ (s.dev.motAt 7).age = 0 ∧
      ((s.dev.motAt 7).reel 0).lost = false ∧ s.dev.fld1 Fld.motZcCfgLostN 7 ≤ ((s.dev.motAt 7).reel 0).missed ∧ ((s.dev.motAt 7).reel 0).period < 2000 * s.dev.fld1 Fld.motForceCfgHandT 7) ∧
    ((missed false 3).dev.setFlag (lostFld 0) 7 true).motState 7 = 3 ∧ ((missed false 4).dev.setFlag (lostFld 0) 7 true).motState 7 ≠ 3 ∧
    (let s := st fun d => mstate 6 (reel7 (fun r => { r with lost := true, hit := 255 }) d); ((s.dev.motAt 7).reel 0).lost = true ∧ ((s.dev.motAt 7).reel 0).exhausted = false ∧
      s.dev.fld1 Fld.motZcCfgReacqN 7 ≤ ((s.dev.motAt 7).reel 0).hit ∧ s.dev.motState 7 = 6) ∧
    ((State.reset.dev.motAt 7).reel 0).lost = false ∧
    (let s := st fun d => mstate 6 (reel7 (fun r => { r with lost := true, exhausted := true }) d); s.dev.motState 7 = 6 ∧ ((s.dev.motAt 7).reel 0).lost = true ∧
      ((s.dev.motAt 7).reel 0).exhausted = true) ∧
    (let s := st (mot7 fun m => { m with bus := { m.bus with rising := 65535 } }); 7 < 8 ∧ s.dev.flag Fld.motStatChopFault 7 = false ∧ s.dev.fld1 Fld.motBusCfgFaultN 7 ≤ (s.dev.motAt 7).bus.rising) ∧
    (st (fld Fld.motStatChopFault 7 1)).dev.flag Fld.motStatChopFault 7 = true := by decide +kernel


/-! ### Admin commands -/

/-- A 64-byte admin descriptor with tag 5 and body bytes from 8 on. -/
def adDesc (op : Nat) (body : List Byte) : List Byte := padTo 64 (leBytes 1 op ++ [0x00] ++ leBytes 2 5 ++ zeros 4 ++ body)
/-- A firmware activation is under way. -/
def activating : State := { adm with dev := { adm.dev with ctl := { adm.dev.ctl with activating := some (7, 9, 0) } } }
/-- An admin command with tag 5 is under way. -/
def admBusy : State := { adm with dev := { adm.dev with ctl := { adm.dev.ctl with admin := [{ tag := 5, op := 0x31 }] } } }

theorem witness_AdminCommandsActOrAreRefused :
    adm.dev.coreHeld = false ∧ activating.dev.coreHeld = false ∧ adm.dev.coresRun = true ∧ adm.dev.ringMay 0 = true ∧ activating.dev.coresRun = true ∧
    activating.dev.ringMay 0 = true ∧ admBusy.dev.coresRun = true ∧ admBusy.dev.ringMay 0 = true ∧ adm.dev.ctl.activating = none ∧ activating.dev.ctl.activating.isSome = true ∧
    (∀ op ∈ adminRows.map (·.2.1) ++ adminDataRows.map (·.2.1), capOpcode (adDesc op []) = op ∧ (adDesc op []).length = 64 ∧ adminReservedClear op (adDesc op []) = true ∧
      adm.dev.adminTag (capTag (adDesc op [])) = false ∧ activating.dev.adminTag (capTag (adDesc op [])) = false ∧ admBusy.dev.adminTag (capTag (adDesc op [])) = true ∧
      (adDesc op [] ++ [0x00]).length ≠ 64 ∧ adminReservedClear op ((adDesc op []).set 1 0x01) = false ∧ capOpcode ((adDesc op []).set 1 0x01) = op) ∧
    State.reset.dev.coresRun = false ∧ (st fun d => fld Fld.ctlSetupLockLock 0 1 (fld Fld.ctlBootStatState 0 2 d)).dev.ringMay 0 = false := by decide +kernel

/-- CREATE-CONN of connection 5 for tenant 6 on port 2 with MTU 4. -/
def create (mtu : Byte) : List Byte := adDesc 0x01 (leBytes 2 5 ++ leBytes 2 6 ++ [0x02, 0x01] ++ zeros 2 ++ leBytes 3 0x11 ++ [0x00] ++ leBytes 3 0x22 ++ [0x00] ++ leBytes 3 0x33 ++ [0x00]
  ++ leBytes 3 0x44 ++ [mtu])
def lockedDev (d : Dev) : Dev := fld Fld.ctlSetupLockLock 0 1 (fld Fld.ethPortStatPresent 2 1 d)
def connDev : Dev := { lockedDev {} with rte := { ({} : Dev).rte with conns := [(5, conn)] } }

theorem witness_ConnectionsTenantsFillAndCellarRead :
    (let x := create 0x04; let d := lockedDev {}; d.locked = true ∧ leAt x 8 2 < 16384 ∧ leAt x 10 2 < 16384 ∧ leAt x 12 1 < 16 ∧ leAt x 13 1 < 2 ∧ 1 ≤ leAt x 31 1 ∧ leAt x 31 1 < 6 ∧ leAt x 54 1 < 64 ∧
      tget d.rte.conns (leAt x 8 2) = none ∧ d.flag Fld.ethPortStatPresent (leAt x 12 1) = true) ∧
    6 ≤ leAt (create 0x06) 31 1 ∧ leAt (create 0x00) 31 1 = 0 ∧
    (connDev.locked = true ∧ leAt (create 0x04) 8 2 < 16384 ∧ (tget connDev.rte.conns 5).isSome = true ∧ tget (lockedDev {}).rte.conns 5 = none) ∧
    (let x := adDesc 0x03 [0x05, 0x00, 0x06]; let d := ring 5 1 (lockedDev {}); d.locked = true ∧ 0 < leAt x 8 1 ∧ d.ringKind (leAt x 8 1) = 1 ∧ leAt x 10 2 < 16384) ∧
    (let x := adDesc 0x04 [0x05, 0x00, 0x01, 0x1F]; leAt x 8 2 < 16384 ∧ 1 ≤ leAt x 10 1 ∧ leAt x 11 1 < 32) := by decide +kernel

/-- FILL of the last page, of one past it, and of none; one job that is filled. -/
def fillD (page n : Nat) : List Byte := adDesc 0x10 (leBytes 5 (4096 * page) ++ zeros 3 ++ leBytes 4 n ++ leBytes 4 0x5A5A5A5A ++ [0x01])
def job : FillJob := { first := 0, pages := 2, done := 2, pattern := 0, poison := false, tag := 5 }

theorem witness_ConnectionsTenantsFillAndCellarRead_fill :
    (let x := fillD (hbmPages - 1) 1; leAt x 8 5 % 4096 = 0 ∧ 0 < leAt x 16 4 ∧ leAt x 8 5 / 4096 + leAt x 16 4 ≤ hbmPages ∧ leAt x 8 5 < 2 ^ 36 ∧ leAt x 24 1 < 2) ∧
    hbmPages < leAt (fillD hbmPages 1) 8 5 / 4096 + leAt (fillD hbmPages 1) 16 4 ∧ leAt (fillD 0 0) 16 4 = 0 ∧
    (let s := st fun d => { d with mem := { d.mem with fills := [job] } }; s.dev.coreHeld = false ∧ s.dev.mem.fills.find? (fun j => j.done == j.pages) = some job ∧
      s.dev.ctl.activating = none) ∧
    State.reset.dev.mem.fills.find? (fun j => j.done == j.pages) = none ∧ 0 < leAt (adDesc 0x50 [0x00, 0x00, 0x01]) 10 2 := by decide +kernel
/-- R337: FILL of the last page of the 12,582,912 pages begins; one more page is FIELD_INVALID, and no job begins. -/
theorem test_fill_range : (adm.dev.doFill (fillD 12582911 1)).mem.fills.map (fun j => (j.first, j.pages)) = [(12582911, 1)] ∧
    (adm.dev.doFill (fillD 12582911 2)).mem.fills = [] := by decide +kernel

/-- A descriptor of span set 1, K 2 and P 1, with members on this device's transports 2, 3 and 4. -/
def desc3 : List Byte := withCrc32c (padTo 252 (leBytes 2 1 ++ [0x02, 0x01] ++ zeros 60 ++ leBytes 4 0x8200 ++ leBytes 4 0x8300 ++ leBytes 4 0x8400))
/-- A span set with nothing mounted, and one with a lost row. -/
def idle3 : Span := { desc := parseDesc desc3, members := List.replicate 3 {} }
def mounted3 : Span := { idle3 with members := [member7, {}, {}] }
def load1 : List Byte := adDesc 0x20 [0x01]
def spanAt1 (s : Span) (d : Dev) : Dev := { lockedDev d with spn := { d.spn with slots := [(1, s)] } }

theorem witness_SpanCommands :
    (lockedDev {}).locked = true ∧ leAt load1 8 1 < 16 ∧ (((lockedDev {}).spanAt 1).map (·.isMounted)).getD false = false ∧
    ((lockedDev {}).emit (.hostRead (BitVec.ofNat 64 (leAt load1 16 8)) 256)).descOk (leAt load1 8 1) desc3 = true ∧ (lockedDev {}).descOk 1 (desc3.set 2 0x03) = false ∧
    (((spanAt1 mounted3 {}).spanAt 1).map (·.isMounted)).getD false = true ∧
    (let x := adDesc 0x21 (leBytes 2 0x0201 ++ leBytes 2 4096); (spanAt1 idle3 {}).spanAt (leAt x 8 1) = some idle3 ∧ leAt x 10 2 ≤ 4096 ∧ leAt x 9 1 < idle3.members.length) ∧
    (let sp := { idle3 with loss := [{ row := 4, members := 3, cause := 1 }, { row := 5, members := 3, cause := 1 }] }; let x := adDesc 0x24 [0x01, 0x00, 0x00, 0x00, 0x01]
     (spanAt1 sp {}).spanAt (leAt x 8 1) = some sp ∧ leAt x 9 1 = 0 ∧ leAt x 12 2 < sp.loss.length ∧ leAt x 12 2 ≠ 0) ∧
    (((spanAt1 idle3 {}).spanAt 1).map fun s => s.isMounted || (spanAt1 idle3 {}).writeSessions s).getD false = false := by decide +kernel
/-- R297, R320: a right descriptor fills the slot with its K and P; a descriptor with a wrong CRC leaves the slot empty. -/
theorem test_span_load : (((lockedDev {}).doSpanLoad load1 desc3).spanAt 1).map (fun s => (s.desc.k, s.desc.p, s.members.length)) = some (2, 1, 3) ∧
    (((lockedDev {}).doSpanLoad load1 (desc3.set 2 0x03)).spanAt 1).isNone = true := by decide +kernel

/-- Transport 2 is up with its identity and a cartridge. -/
def usable2 (d : Dev) : Dev := fld Fld.tpLinkStatUp 2 1 (fld Fld.tpLinkStatIdOk 2 1 (fld Fld.tpLinkStatCart 2 1 d))
def mountD : List Byte := adDesc 0x31 [0x02, 0x01, 0x00, 0x01]
def initD (salt : Nat) : List Byte := adDesc 0x30 ([0x02, 0x01, 0x00, 0x00] ++ zeros 4 ++ leBytes 8 salt ++ [0x02, 0x01])
def disD : List Byte := adDesc 0x32 [0x01]
def spanSt (s : Span) : State := st fun d => usable2 (spanAt1 s d)
/-- A MOUNT that waits for the claim of transport 2. -/
def waitM : AdminCmd := { tag := 5, op := 0x31, a := 2, b := 1, stage := 2, since := 10 }
def waitSt (n : Nat) : State := clkAt n { spanSt idle3 with dev := { (spanSt idle3).dev with ctl := { (spanSt idle3).dev.ctl with admin := [waitM] } } }

theorem witness_CartridgeCommands :
    (let s := spanSt idle3; let x := mountD; s.dev.coreHeld = false ∧ s.dev.locked = true ∧ leAt x 8 1 < 8 ∧ leAt x 9 1 < 16 ∧ leAt x 11 1 < 2 ∧ s.dev.spanAt (leAt x 9 1) = some idle3 ∧
      (idle3.desc.members[leAt x 10 1]?).bind s.dev.entryLocal = some (leAt x 8 1) ∧ (s.dev.tpAt (leAt x 8 1)).mounted = none ∧ idle3.dismount = false ∧ s.dev.tpUsable (leAt x 8 1) = true) ∧
    (let s := st (spanAt1 idle3); s.dev.spanAt 1 = some idle3 ∧ s.dev.tpUsable 2 = false ∧ idle3.writing = false) ∧
    (∀ salt ∈ [0, 7], let s := spanSt idle3; let x := initD salt; leAt x 8 1 < 8 ∧ shapeOk (leAt x 24 1) (leAt x 25 1) = true ∧ leAt x 9 1 < leAt x 24 1 + leAt x 25 1 ∧
      (s.dev.tpAt (leAt x 8 1)).mounted = none ∧ s.dev.flag Fld.tpLinkStatCart (leAt x 8 1) = true ∧ s.dev.flag Fld.tpLinkStatUp (leAt x 8 1) = true ∧
      s.dev.flag Fld.tpLinkStatIdOk (leAt x 8 1) = true ∧ leAt x 16 8 = salt) ∧
    (∀ n ∈ [17, 18], (waitSt n).dev.ctl.admin.find? (fun c => c.op == 0x31 && c.stage == 2 && c.a == 2) = some waitM ∧ (waitSt n).dev.flag Fld.tpLinkStatOwner 2 = false) ∧
    (waitSt 18).dev.ctl.activating = none ∧ waitM.since + 8 ≤ (waitSt 18).dev.clk ∧ (waitSt 17).dev.clk < waitM.since + 8 := by decide +kernel
theorem witness_CartridgeCommands_dismount :
    (let s := spanSt mounted3; leAt disD 8 1 < 16 ∧ s.dev.spanAt (leAt disD 8 1) = some mounted3 ∧ s.dev.writeSessions mounted3 = false ∧ mounted3.isMounted = true ∧ mounted3.dismount = false ∧
      mounted3.phase ≠ 1) ∧
    (let s : State := { spanSt mounted3 with dev := { (spanSt mounted3).dev with ses := { (spanSt mounted3).dev.ses with sessions := [(1, wses)] } } }
     s.dev.spanAt 1 = some mounted3 ∧ s.dev.writeSessions mounted3 = true) := by decide +kernel

/-- FW-STAGE of the page at offset 4,096; an activation begun at boundary 0, at boundary `n`. -/
def stageD (off : Nat) : List Byte := adDesc 0x40 (leBytes 4 off ++ leBytes 4 4096)
def fwAt (n : Nat) : State := clkAt n activating

theorem witness_FirmwareAndBoot :
    (leAt (stageD 4096) 8 4 % 4096 = 0 ∧ leAt (stageD 4096) 12 4 = 4096 ∧ leAt (stageD 4096) 8 4 + 4096 ≤ imageMax) ∧ leAt (stageD 4097) 8 4 % 4096 ≠ 0 ∧
    (∀ n ∈ [2499, 2500], (fwAt n).dev.coreHeld = false ∧ (fwAt n).dev.ctl.activating = some (7, 9, 0)) ∧ (fwAt 2500).dev.clk ≤ 0 + activateTicks ∧ 0 + activateTicks ≤ (fwAt 2500).dev.clk ∧
    (fwAt 2499).dev.clk < 0 + activateTicks ∧ State.reset.dev.ctl.activating = none ∧ State.reset.dev.fld Fld.ctlBootStatState ≠ 1 ∧
    (st (fld Fld.ctlBootStatState 0 1)).dev.fld Fld.ctlBootStatState = 1 := by decide +kernel

/-! ### Queues, Ethernet, the fabric and the pair -/

/-- Port `p` is present and enabled, or also up; it takes PFC frames. -/
def port0 (p : Nat) (d : Dev) : Dev := fld Fld.ethPortStatPresent p 1 (fld Fld.ethPortCfgEn p 1 (fld Fld.ethPortCfgPfcRx p 1 d))
def live (p : Nat) (d : Dev) : Dev := fld Fld.ethPortStatUp p 1 (port0 p d)
/-- The service address 7 on port 15 is taken over from the partner. -/
def svc7 : MirRec := .svc 0 0x3D 7 8
def svcDev (d : Dev) : Dev := live 15 { d with pair := { d.pair with svcs := [svc7] } }

theorem witness_QueuesPfcPortsAndAddresses :
    (∀ q ∈ [0, 0xF0, 0xF8], let s := st (fld Fld.queQCfgEn 0 1); s.dev.coreHeld = false ∧ q < 0xFF ∧ s.dev.queEn q = true ∧ s.dev.queLarge q = false) ∧
    (let s := st fun d => fld Fld.queQCfgEn 239 1 (fld Fld.queQCfgSize 239 8 d); s.dev.queEn 239 = true ∧ s.dev.queLarge 239 = true) ∧
    ((st (live 15)).dev.ethLate 15 = false ∧ ({ (live 15 {}) with ovr := { ({} : Dev).ovr with stalled := [(0x12, 3, 1)] } } : Dev).ethLate 15 = true) ∧
    (st (port0 15)).dev.ethLate 15 = false ∧ (fld Fld.queQCfgEn 239 1 (fld Fld.queQCfgSize 239 8 {})).queLarge 239 = true ∧
    ((st (live 15)).dev.portLive 15 = true ∧ 15 < ethPorts ∧ (st (live 15)).dev.flag Fld.ethPortCfgPfcRx 15 = true) ∧
    (State.reset.dev.portLive 15 = false ∧ (st (fld Fld.ethPortCfgPfcRx 15 0)).dev.flag Fld.ethPortCfgPfcRx 15 = false) ∧
    (let s := st (port0 15); s.dev.flag Fld.ethPortStatPresent 15 = true ∧ s.dev.flag Fld.ethPortCfgEn 15 = true ∧ s.dev.flag Fld.ethPortStatUp 15 = false ∧ (∀ l ∈ s.dev.portLanes 15, l < 16)) ∧
    (let s := st (live 15); s.dev.flag Fld.ethPortStatUp 15 = true ∧ (∀ l ∈ s.dev.portLanes 15, l < 16)) := by decide +kernel
theorem witness_QueuesPfcPortsAndAddresses_arp :
    (let s := st svcDev; s.dev.answersFor.find? (fun x => x.port == 15 && x.v6 == false && x.addr == 7) = some { port := 15, v6 := false, addr := 7, mac := 8 } ∧ s.dev.portLive 15 = true) ∧
    (let s := clkAt 50 (st fun d => { d with pair := { d.pair with arpAt := some 0 } }); s.dev.coreHeld = false ∧ s.dev.pair.arpAt = some 0 ∧ s.dev.pair.arpDone = 0 ∧ 0 + 50 ≤ s.dev.clk) ∧
    (let s := clkAt 500 (st fun d => { d with pair := { d.pair with arpAt := some 0, arpDone := 1 } }); s.dev.pair.arpAt = some 0 ∧ s.dev.pair.arpDone = 1 ∧ 0 + 500 ≤ s.dev.clk) := by decide +kernel
/-- R486: a pause of 40 quanta at 100 Gb/s lasts one tick of 20 µs times 5.12 ns × 40 rounded up; no quanta end it at once. -/
theorem test_pfc_pause : (dev (.pfcFrameReceive 15 0x05 [40, 9, 0]) (clkAt 7 (st (live 15)))).map (fun d => (tget d.eth.pause 120, tget d.eth.pause 121, tget d.eth.pause 122)) =
    some (some 8, none, some 7) := by decide +kernel

/-- A change of link 11, and a link that is up with one frame not acknowledged. -/
def link11 (f : Link → Link) (d : Dev) : Dev := d.modLink 11 f
def frameH : List Byte := zeros 18
def upLink : Link := { up := true, replay := [(0, frameH, [])] }
def linkSt (k : Link) : State := st (link11 fun _ => k)
/-- A header of a frame without payload, LINK_SEQ `n`, and its CRC. -/
def frame (n : Nat) : Frame := { header := withCrc32c (zeros 18 ++ leBytes 2 n ++ zeros 8), payload := [], crc := 0 }

theorem witness_FramesReplayAndEndToEnd :
    ((linkSt upLink).dev.coreHeld = false ∧ 11 < fabLinks ∧ ((linkSt upLink).dev.linkAt 11).up = true ∧ (frame 0).header.length = 32 ∧ crc32cOk (frame 0).header = true ∧
      (frame 0).payload.length = leAt (frame 0).header 4 2 ∧ (frame 0).payload = [] ∧ leAt (frame 0).header 18 2 = ((linkSt upLink).dev.linkAt 11).rxNext.toNat) ∧
    leAt (frame 1).header 18 2 ≠ ((linkSt upLink).dev.linkAt 11).rxNext.toNat ∧ ((linkSt upLink).dev.linkAt 11).replay ≠ [] ∧
    (let r : E2eRx := { next := 5, gapSince := some 0 }; let s := clkAt 4 (st fun d => { d with fab := { d.fab with rx := [(e2eKey 3 1, r)] } })
     s.dev.coreHeld = false ∧ tgetD s.dev.fab.rx (e2eKey 3 1) {} = r ∧ r.gapSince = some 0 ∧ 0 + 4 ≤ s.dev.clk) ∧
    (let r : E2eTx := { next := 2, kept := [(1, frameH, [])] }; let s := clkAt 8 (st fun d => { d with fab := { d.fab with tx := [(e2eKey 3 1, r)] } })
     tgetD s.dev.fab.tx (e2eKey 3 1) {} = r ∧ r.kept = (1, frameH, []) :: [] ∧ r.ackAt + 8 ≤ s.dev.clk) := by decide +kernel
/-- R401: a frame with another number than the awaited one changes nothing of the link. -/
theorem test_frame_sequence : (dev (.frameReceive 11 (frame 1)) (linkSt upLink)).map (fun d => d.linkAt 11) = some upLink := by decide +kernel

/-- A tunnel whose port is up. -/
def tunnel (d : Dev) : Dev := live 0 (fld Fld.fabTunCfgEn 3 1 d)
/-- Address 9 is the source, first hop link 11; the device is the candidate of the lowest address. -/
def sourced (lock : Nat) : State := st fun d => fld Fld.ctlSetupLockLock 0 lock (tunnel { d with fab := { d.fab with source := some 9, routes := [(9, [11])] } })
def lsa9 : Lsa := { serial := 1, addr := 9, seq := 5, source := some 9, taken := 0xFF, adj := [], since := 0 }
def heard : State := st fun d => link11 (fun k => { k with up := true }) (fld Fld.fabTunCfgPeer 3 9 { d with fab := { d.fab with lsas := [lsa9], routes := [(9, [11])] } })

theorem witness_FabricLinksTickFramesAndSource :
    (let s := st fun d => tunnel (link11 (fun k => { k with good := 8 }) d); s.dev.coreHeld = false ∧ (s.dev.linkAt 11).up = false ∧ s.dev.linkEn 11 = true ∧ 8 ≤ (s.dev.linkAt 11).good ∧
      s.dev.tunnelPort 11 = true ∧ s.dev.ctl.evq.length < eventQueueMax) ∧
    (let s := linkSt { upLink with quiet := 3, replays := 16 }; (s.dev.linkAt 11).up = true ∧ 3 ≤ (s.dev.linkAt 11).quiet ∧ 16 ≤ (s.dev.linkAt 11).replays) ∧
    ((State.reset.dev.linkAt 11).quiet < 3 ∧ (State.reset.dev.linkAt 11).replays < 16) ∧
    (∀ lock ∈ [0, 1], let s := sourced lock; 11 < s.dev.fab.links.length ∧ s.dev.linkEn 11 = true ∧ s.dev.upstreamLink = some 11 ∧ s.dev.locked = (lock == 1) ∧ (7 : BitVec 48) ≠ s.dev.tick) ∧
    State.reset.dev.upstreamLink ≠ some 11 ∧
    (heard.dev.sourceOk = false ∧ heard.dev.fab.source = none ∧ heard.dev.announced = some 9) ∧
    (let s := st (fld Fld.fabCfgCand 0 1); s.dev.sourceOk = false ∧ s.dev.fab.source = none ∧ s.dev.announced = none ∧ s.dev.flag Fld.fabCfgCand = true ∧ s.dev.lowest = true) ∧
    (sourced 0).dev.sourceOk = true := by decide +kernel
/-- R410: the neighbour sent at 1000 and the frame came at 1064, the other way left at 900 and came at 940: twice the phase is 24, twice the delay 104. -/
theorem test_tick_frame : (dev (.tickFrameReceive 11 9 7 1000 940 1064 900 true) (st tunnel)).map (fun d => ((d.linkAt 11).theta2, (d.linkAt 11).delay2)) = some (24, 104) := by
  decide +kernel

theorem witness_AdvertisementsAndRoutes :
    (heard.dev.coreHeld = false ∧ 11 < fabLinks ∧ (heard.dev.linkAt 11).up = true ∧ (9 : BitVec 7).toNat ≠ heard.dev.fabAddr ∧
      (∀ x ∈ heard.dev.fab.lsas, x.addr = 9 → x.serial = 1 → x.seq < 6) ∧ (∃ x ∈ heard.dev.fab.lsas, x.addr = 9 ∧ x.serial = 1) ∧
      (∀ x ∈ heard.dev.fab.lsas, x.addr = 9 → x.serial = 1 → 5 ≤ x.seq) ∧ (0 : BitVec 7).toNat = heard.dev.fabAddr ∧ heard.dev.fab.mySeq ≤ 1) ∧
    (clkAt 50000 State.reset).dev.fab.lsaAt + 50000 ≤ (clkAt 50000 State.reset).dev.clk ∧
    (let s := clkAt 150000 heard; s.dev.fab.lsas.find? (fun x => x.addr == 9 && x.serial == 1) = some lsa9 ∧ lsa9.since + 150000 ≤ s.dev.clk) ∧
    (let s := st fun d => { d with fab := { d.fab with routeDirty := true } }; s.dev.fab.routeDirty = true ∧ s.dev.stalls 0x13 0 1 = false) ∧
    ({ ({} : Dev) with ovr := { ({} : Dev).ovr with stalled := [(0x13, 0, 1)] } } : Dev).stalls 0x13 0 1 = true ∧
    (st fun d => { d with fab := { d.fab with routeDirty := false } }).dev.fab.routeDirty = false := by decide +kernel
/-- R406: over link 11, of a tunnel to 9, address 9 is reached and no other. -/
theorem test_routes : heard.dev.computeRoutes = [(9, [11])] := by decide +kernel

/-- A batch of one record, and one not whole; the pair is designated. -/
def batch3 (n : Nat) : Batch := { tick := 3, recs := [svc7], fin := some (n, crc32c []) }
def pairDev (b : Nat) (d : Dev) : Dev := fld Fld.fabPairCfgEn 0 1 { d with pair := { d.pair with partner := { d.pair.partner with batches := [batch3 b] }, sent := [(3, [])] } }

theorem witness_MirrorBatches :
    (let s := st (pairDev 1); s.dev.coreHeld = false ∧ s.dev.flag Fld.fabPairCfgEn = true ∧ s.dev.pair.partner.batches.find? (fun y => y.tick == 3) = some (batch3 1) ∧ (batch3 1).whole = true ∧
      (∀ o ∈ s.dev.pair.partner.batches, o.tick ≠ 3 → seqFrom o.tick 3 = false) ∧ s.dev.ctl.evq.length < eventQueueMax ∧
      (s.dev.pair.sent.any fun x => x.1 == 4) = false ∧
      ((s.dev.modPartner fun p => { p with batches := p.batches.filter (·.tick != 3) }).mirrorBuffers [svc7]).isNone = true ∧ (s.dev.pair.sent.any fun x => x.1 == 3) = true ∧ s.dev.pair.backlog = false) ∧
    (let s := st fun d => pairDev 1 (d.modPool 0 fun p => { p with created := 100000 }); s.dev.pair.partner.batches.find? (fun y => y.tick == 3) = some (batch3 1) ∧
      ((s.dev.modPartner fun p => { p with batches := p.batches.filter (·.tick != 3) }).mirrorBuffers [svc7]).isSome = true) ∧
    ((st (pairDev 2)).dev.pair.partner.batches.find? (fun y => y.tick == 3) = some (batch3 2) ∧ (batch3 2).whole = false) ∧
    (let s := st fun d => (pairDev 1 d).modPartner fun p => { p with batches := batch3 1 :: [{ batch3 1 with tick := 2 }] }
     s.dev.pair.partner.batches.find? (fun y => y.tick == 3) = some (batch3 1) ∧ ∃ o ∈ s.dev.pair.partner.batches, o.tick ≠ 3 ∧ seqFrom o.tick 3 = true) ∧
    (st fun d => { d with pair := { d.pair with backlog := true } }).dev.pair.backlog = true := by decide +kernel

/-- Heartbeats are lost, in pair state `n`; the partner's one transport is 2, with or without an owner. -/
def pspan : Span := { desc := { id := 1, k := 1, p := 0, members := [0x8200] }, members := [member7] }
def lostSt (n : Nat) (owned : Bool) : State := st fun d =>
  fld Fld.fabPairCfgEn 0 1 (fld Fld.fabPairStatMissed 0 3 (fld Fld.fabPairStatState 0 n (fld Fld.tpLinkStatUp 2 (b2n owned) ((d.modTp 2 fun p => { p with ownerPort := some 1 }).modPartner fun p =>
    { p with store := [(.span 0 pspan, none)] }))))
def over1 : Takeover := { x := 3, f := 0, tps := [2], claimed := true }
def overSt (own : Nat) (m : Option (Nat × Nat × Bool)) : State := clkAt 15 (st fun d => fld Fld.tpLinkStatOwner 2 own (let e := d.modTp 2 fun p => { p with mounted := m }; { e with pair := { e.pair with takeover := some over1 } }))

theorem witness_PairStates :
    (let s := lostSt 2 false; s.dev.coreHeld = false ∧ s.dev.heartLost = true ∧ s.dev.partnerTps = [2] ∧ s.dev.partnerTps.all s.dev.tpReleased = true) ∧
    (let s := lostSt 2 true; s.dev.heartLost = true ∧ s.dev.fld Fld.fabPairStatState ≤ 2 ∧ s.dev.partnerTps.all s.dev.tpReleased = false) ∧
    (let s := clkAt 10000000 (st fun d => fld Fld.fabPairStatState 0 3 { d with pair := { d.pair with partSince := some 0 } }); s.dev.pair.partSince = some 0 ∧ s.dev.fld Fld.fabPairStatState = 3 ∧
      0 + s.dev.fld1 Fld.fabPairCfgSoloT ≤ s.dev.clk) ∧
    (let s := overSt 1 none; s.dev.pair.takeover = some over1 ∧ over1.claimed = true ∧ (over1.tps.all fun x => s.dev.flag Fld.tpLinkStatOwner x) = true) ∧
    (let s := overSt 0 none; over1.tps.contains 2 = true ∧ over1.f + 15 ≤ s.dev.clk ∧ s.dev.flag Fld.tpLinkStatOwner 2 = false ∧ (s.dev.tpAt 2).mounted = none) ∧
    (let s := overSt 0 (some (0, 0, true)); s.dev.flag Fld.tpLinkStatOwner 2 = false ∧ (s.dev.tpAt 2).mounted = some (0, 0, true)) := by decide +kernel
theorem witness_PairStates_resync :
    (let s := st fun d => (fld Fld.fabPairCfgEn 0 1 d).modPartner fun p => { p with beatRun := 1 }; s.dev.coreHeld = false ∧ s.dev.flag Fld.fabPairCfgEn = true ∧ s.dev.fld Fld.fabPairStatState ≠ 1 ∧
      s.dev.fld Fld.fabPairStatState ≠ 2 ∧ 1 ≤ s.dev.pair.partner.beatRun ∧ s.dev.pair.takeover = none) ∧
    (let s := st fun d => fld Fld.fabPairStatState 0 1 ({ d with pair := { d.pair with resync := some 4, acked := some 4 } }.modPartner fun p => { p with beatRun := 8 })
     s.dev.pair.resync = some 4 ∧ s.dev.pair.acked = some 4 ∧ s.dev.fld Fld.fabPairStatState = 1 ∧ 8 ≤ s.dev.pair.partner.beatRun ∧ seqFrom (4 : BitVec 48) (4 + BitVec.ofNat 48 s.dev.timeOfs) = true) := by
  decide +kernel

/-! ### The tick boundary -/

theorem witness_TickBoundaries :
    (st fun d => { d with hlt := { d.hlt with vaon := false } }).dev.hlt.vaon = false ∧ State.reset.dev.hlt.vaon = true ∧ (∀ x ∈ State.reset.dev.ctl.rings, x.1 < 256) ∧
    (let s := st fun d => { d with pins := { d.pins with held := true } }; s.dev.hlt.vaon = true ∧ s.dev.coreHeld = true ∧ s.dev.regw = []) := by decide +kernel
/-- R7: the boundary after reset is boundary 1, and VAON's loss leaves the counter. -/
theorem test_tick_counter : ({} : Dev).advance.tick = 1 ∧ (dev (.tickBoundary { sensors := [], avsOk := true }) (st fun d => { d with hlt := { d.hlt with vaon := false } })).map (·.tick) = some 0 := by
  decide +kernel
end Sys2Proof.Tests
end

section
/-! SUPPORT. A register written field by field (R4): a field of a word after another field is set, the fields' places in
their registers, and what a plain register write leaves in each field. -/

namespace Sys2Proof.Machine

/-! ### Bits of a word -/

theorem testBit_bits (v lo w k : Nat) : (bits v lo w).testBit k = (decide (k < w) && v.testBit (lo + k)) := by
  rw [bits, Nat.testBit_mod_two_pow, Nat.testBit_div_two_pow, Nat.add_comm]

theorem bits_lt (v lo w : Nat) : bits v lo w < 2 ^ w := Nat.mod_lt _ (Nat.two_pow_pos w)

theorem testBit_setBits_outside (old lo w v : Nat) {k : Nat} (hk : k < lo ∨ lo + w ≤ k) :
    (setBits old lo w v).testBit k = old.testBit k := by
  obtain ⟨hi, l, hl, hold, hset⟩ := setBits_eq old lo w v
  have layers (x : Nat) (hx : x < 2 ^ w) : ((hi * 2 ^ w + x) * 2 ^ lo + l).testBit k =
      if k < lo then l.testBit k else hi.testBit (k - lo - w) := by
    rw [Nat.mul_comm _ (2 ^ lo), Nat.testBit_two_pow_mul_add _ hl, Nat.mul_comm hi, Nat.testBit_two_pow_mul_add _ hx]
    split
    · rfl
    · rw [if_neg (by omega)]
  rw [hset, layers _ (Nat.mod_lt _ (Nat.two_pow_pos w)), ← layers _ (bits_lt old lo w), ← hold]

/-- Setting a field leaves a field that shares no bit with it. -/
theorem bits_setBits_disjoint (old v : Nat) {lo w lo' w' : Nat} (h : lo + w ≤ lo' ∨ lo' + w' ≤ lo) :
    bits (setBits old lo' w' v) lo w = bits old lo w := by
  refine Nat.eq_of_testBit_eq fun k => ?_
  rw [testBit_bits, testBit_bits]
  by_cases hk : k < w
  · rw [testBit_setBits_outside _ _ _ _ (by omega)]
  · simp [hk]

/-! ### Fields in their registers -/

/-- The fields stand one above the other, none sharing a bit with the next, within a 32-bit register. -/
def LaidOut (fs : List FieldInfo) : Prop :=
  fs.Pairwise (fun f g => f.lo + f.width ≤ g.lo) ∧ ∀ f ∈ fs, f.lo + f.width ≤ 32

/-- The layout tables keep the fields of each register apart (R480). -/
theorem fields_laidOut (r : RegId) : LaidOut r.fields := by
  unfold LaidOut
  cases r <;> decide

/-- The word `n` with each field `f` of `fs` set to `new f`, in order. -/
def setFields (new : FieldInfo → Nat) (fs : List FieldInfo) (n : Nat) : Nat :=
  fs.foldl (fun acc f => setBits acc f.lo f.width (new f)) n

theorem valueAfterWrite_eq_setFields (locked : Bool) (fs : List FieldInfo) (old v : Nat) :
    valueAfterWrite locked fs old v = setFields (fieldAfterWrite locked · old v) fs old := rfl

theorem setFields_lt (new : FieldInfo → Nat) {fs : List FieldInfo} {n m : Nat} (hn : n < 2 ^ m)
    (hfs : ∀ f ∈ fs, f.lo + f.width ≤ m) : setFields new fs n < 2 ^ m := by
  induction fs generalizing n with
  | nil => exact hn
  | cons f fs ih =>
    obtain ⟨hf, hfs⟩ := List.forall_mem_cons.1 hfs
    exact ih (setBits_lt hn hf) hfs

/-- Setting fields that stand above the bits `lo + w - 1` to `lo` leaves those bits. -/
theorem bits_setFields_below (new : FieldInfo → Nat) {fs : List FieldInfo} {lo w : Nat} (hfs : ∀ f ∈ fs, lo + w ≤ f.lo)
    (n : Nat) : bits (setFields new fs n) lo w = bits n lo w := by
  induction fs generalizing n with
  | nil => rfl
  | cons f fs ih =>
    obtain ⟨hf, hfs⟩ := List.forall_mem_cons.1 hfs
    exact (ih hfs _).trans (bits_setBits_disjoint _ _ (.inl hf))

/-- Of fields that stand one above the other, each takes its own new value. -/
theorem bits_setFields_of_mem (new : FieldInfo → Nat) {fs : List FieldInfo} {f : FieldInfo}
    (hfs : fs.Pairwise fun f g => f.lo + f.width ≤ g.lo) (hf : f ∈ fs) (n : Nat) :
    bits (setFields new fs n) f.lo f.width = new f % 2 ^ f.width := by
  induction fs generalizing n with
  | nil => cases hf
  | cons g fs ih =>
    obtain ⟨hg, hfs⟩ := List.pairwise_cons.1 hfs
    rcases List.mem_cons.1 hf with rfl | hf
    · exact (bits_setFields_below new hg _).trans (bits_setBits_self _ _ _ _)
    · exact ih hfs hf _

/-! ### A plain register write -/

theorem fieldAfterWrite_lt (locked : Bool) (f : FieldInfo) (old v : Nat) : fieldAfterWrite locked f old v < 2 ^ f.width := by
  have hold := bits_lt old f.lo f.width
  have hnew := bits_lt v f.lo f.width
  unfold fieldAfterWrite
  cases f.access
  case rw | rws => exact hnew
  case ro | wo => exact hold
  case rwl => cases locked <;> assumption
  case w1c => exact Nat.and_le_left.trans_lt hold

/-- A 1 clears its bit of a W1C field, a 0 leaves it (R4). -/
theorem testBit_fieldAfterWrite_w1c (locked : Bool) {f : FieldInfo} (hf : f.access = .w1c) (old v : Nat) {k : Nat}
    (hk : k < f.width) : (fieldAfterWrite locked f old v).testBit k =
      ((bits old f.lo f.width).testBit k && ! (bits v f.lo f.width).testBit k) := by
  simp only [fieldAfterWrite, hf]
  rw [Nat.testBit_and, Nat.sub_sub, Nat.add_comm 1, Nat.testBit_two_pow_sub_succ (bits_lt v f.lo f.width), decide_eq_true hk,
    Bool.true_and]

/-- After a plain write each field of the register holds what its access type says (R4). -/
theorem Dev.bits_storeReg_field (d : Dev) {r : RegId} (i : Nat) (v : Word32) {f : FieldInfo} (hf : f ∈ r.fields) :
    bits ((d.storeReg r i v).rawReg r i).toNat f.lo f.width =
      fieldAfterWrite d.locked f (d.rawReg r i).toNat v.toNat := by
  obtain ⟨hApart, hFit⟩ := fields_laidOut r
  have hword := setFields_lt (fieldAfterWrite d.locked · (d.rawReg r i).toNat v.toNat) (d.rawReg r i).isLt hFit
  rw [Dev.storeReg, Dev.rawReg_putReg_self, valueAfterWrite_eq_setFields, BitVec.toNat_ofNat, Nat.mod_eq_of_lt hword,
    bits_setFields_of_mem _ hApart hf, Nat.mod_eq_of_lt (fieldAfterWrite_lt _ _ _ _)]

theorem Dev.rawReg_storeReg_other (d : Dev) {r q : RegId} {i j : Nat} (v : Word32) (h : q.offset j ≠ r.offset i) :
    (d.storeReg r i v).rawReg q j = d.rawReg q j := Dev.rawReg_putReg_other d _ h

/-- Settles O10: the fields of a register share no bit, so the fold over them leaves in each what its access type says; the
store itself touches one offset. -/
theorem fieldsFollowTheirAccess : Obligations.FieldsFollowTheirAccess := by
  refine ⟨fun d r i v f hf => ?_, fun d r q i j v h => d.rawReg_storeReg_other v h⟩
  have hnow := d.bits_storeReg_field i v hf
  refine ⟨?_, ?_, ?_, ?_⟩
  · rintro (ha | ha) <;> simp only [hnow, fieldAfterWrite, ha]
  · intro ha
    simp only [hnow, fieldAfterWrite, ha]
  · intro ha k hk
    rw [hnow, testBit_fieldAfterWrite_w1c _ ha _ _ hk]
  · rintro (ha | ha) <;> simp only [hnow, fieldAfterWrite, ha]

end Sys2Proof.Machine
end

section
/-! SUPPORT. The step and the queue of commands: what a step does with the queue, what a command leaves of it, the state after reset. -/

namespace Sys2Proof.Machine

/-- Settles O1: by the definition of the step on a queue that is not empty. -/
theorem stepRunsFrontCommand : Obligations.StepRunsFrontCommand := by
  intro c rest s hs
  rw [step, hs]

theorem step_of_empty {s : State} (h : s.pending = []) : step s = .next s := by rw [step, h]

/-- A command that answers a next state leaves the queue as it was: every row answers `s` with the device, or device and memory,
replaced. The tick and the rise of VAON choose between that and `s`; the two rows that name a word of memory may fault instead. -/
theorem exec_pending {c : Instr} {s t : State} (h : exec c s = .next t) : t.pending = s.pending := by
  cases c
  case tickBoundary | powerUp =>
    obtain rfl := Host.Outcome.next.inj h
    split <;> rfl
  case mashWriteOut w | payloadWordRefetch w _ =>
    by_cases hw : hbmWords ≤ w
    · cases (if_pos hw).symm.trans h
    · exact nextHd_frame ((if_neg hw).symm.trans h)
  all_goals
    obtain rfl := Host.Outcome.next.inj h
    rfl

/-- Settles O2: the step idles on an empty queue, and every command leaves the queue alone. -/
theorem theQueueBelongsToTheStep : Obligations.TheQueueBelongsToTheStep :=
  ⟨fun _ => step_of_empty, fun _ _ _ => exec_pending⟩

/-- A register that nothing has written reads its reset value. -/
theorem rawReg_reset (r : RegId) (i : Nat) : State.reset.dev.rawReg r i = r.resetValue i := rfl

/-- Settles O4: every field of the state after reset is its own default. -/
theorem resetState : Obligations.ResetState :=
  ⟨Hbm.empty_wf, rfl, rfl, rfl, by decide, by decide, rfl, rawReg_reset⟩

end Sys2Proof.Machine
end

section
/-! SUPPORT. Register writes: how each row that is one queues it, what the boundary does with those that wait, and the read of the
tick counter. -/

namespace Sys2Proof.Machine

/-! ### Rows that are register writes -/

/-- The offset of one copy of a register as the register map prints it (R480). -/
theorem RegId.offset_eq (r : RegId) (i : Nat) : r.offset i = r.info.base + r.info.stride * i := by rw [RegId.offset, Nat.mul_comm]

/-- A row over the device that queues one register write does so and nothing else (R12). -/
theorem nextDev_queueWrite {s : State} {f : Dev → Dev} {off : Nat} {v : Word32} (hheld : s.dev.coreHeld = false)
    (hf : f s.dev = s.dev.queueWrite off v) :
    nextDev s f = .next { s with dev := { s.dev with regw := s.dev.regw ++ [(off, v)] } } := by
  rw [nextDev_ok s f hheld, hf, Dev.queueWrite]

/-- A guarded write of one copy of a register goes to the offset of R480. -/
theorem guarded_queueWrite (d : Dev) (r : RegId) {i n : Nat} (v : Word32) (h : i < n) :
    (if i < n then d.queueWrite (r.offset i) v else d) = d.queueWrite (r.info.base + r.info.stride * i) v := by
  rw [if_pos h, RegId.offset_eq]

theorem execRegisterWrite_queues {s : State} {off : Nat} (v : Word32) (hheld : s.dev.coreHeld = false) (halign : off % 4 = 0)
    (hbar : off < bar0End) (hmsix : ¬ (msixTable ≤ off ∧ off < msixTable + 16 * vectors)) (hreg : (regAt off).isSome = true) :
    execRegisterWrite off v s = .next { s with dev := { s.dev with regw := s.dev.regw ++ [(off, v)] } } := by
  refine nextDev_queueWrite hheld ?_
  rw [if_neg (by omega), if_neg hmsix, if_pos hreg]

/-- Settles O8: each row queues its own register's offset and value, and the motion commands are writes of MOTn_CMD. -/
theorem registerWritesWait : Obligations.RegisterWritesWait := by
  constructor
  · intro s hheld
    refine ⟨fun off v ha hb hm hr => execRegisterWrite_queues v hheld ha hb hm hr, (nextDev_queueWrite hheld rfl : execBootGo s = _),
      (nextDev_queueWrite hheld rfl : execSetupLock s = _), (nextDev_queueWrite hheld rfl : execKekLoad s = _),
      fun v => (nextDev_queueWrite hheld rfl : execAvsOffsetWrite v s = _), ?_, ?_, ?_, ?_, ?_, ?_, ?_⟩
    · exact fun n hn => (nextDev_queueWrite hheld (guarded_queueWrite s.dev .tpWrStat 0 hn) : execFailingClear n s = _)
    · exact fun n v hn => (nextDev_queueWrite hheld (guarded_queueWrite s.dev .tpRetireLo v hn) : execRetireWrite n false v s = _)
    · exact fun n v hn => (nextDev_queueWrite hheld (guarded_queueWrite s.dev .tpRetireHi v hn) : execRetireWrite n true v s = _)
    · exact fun g v hg => (nextDev_queueWrite hheld (guarded_queueWrite s.dev .ethGrpCfg v hg) : execEthModeWrite g v s = _)
    · exact fun n v hn => (nextDev_queueWrite hheld (guarded_queueWrite s.dev .fabPortCfg v hn) : execFabLinkCfgWrite n v s = _)
    · exact fun q v hq => (nextDev_queueWrite hheld (guarded_queueWrite s.dev .queQCfg v hq) : execQueueCfgWrite q v s = _)
    · exact fun q hq => (nextDev_queueWrite hheld (guarded_queueWrite s.dev .queQCtl 1 hq) : execQueueFlush q s = _)
  · intro s n hheld hn
    have hcmd (v : Word32) := guarded_queueWrite s.dev .motCmd v hn
    exact ⟨(nextDev_queueWrite hheld (hcmd 1#32) : execMotStart n false s = _),
      (nextDev_queueWrite hheld (hcmd 9#32) : execMotStart n true s = _), (nextDev_queueWrite hheld (hcmd 2#32) : execMotStop n s = _),
      (nextDev_queueWrite hheld (hcmd 3#32) : execMotFloat n s = _), (nextDev_queueWrite hheld (hcmd 4#32) : execMotClearFault n s = _)⟩

/-! ### The tick counter -/

/-- Settles O13: the latch is a field of 16 bits, which holds all that a count of 48 bits has above bit 31. -/
theorem tickReadLatchesUpperBits : Obligations.TickReadLatchesUpperBits := by
  intro s hheld
  have hlatch : s.dev.tick.toNat / 2 ^ 32 % 2 ^ 16 = s.dev.tick.toNat / 2 ^ 32 := Nat.mod_eq_of_lt (by omega)
  refine ⟨_, (nextDev_ok s _ hheld : execTickLoRead s = _), rfl, rfl, rfl, rfl, ?_, ?_⟩
  · exact (Dev.fld_setFld_self s.dev Fld.hltTickHiCount 0 _ (by decide)).trans hlatch
  · exact fun q j hq => Dev.rawReg_putReg_other s.dev _ hq

/-! ### The boundary -/

/-- A write that arrived after others takes effect after them, and the tick's refusal after all of them (R12, R13). -/
theorem Dev.regBoundary_append (d : Dev) (ws : List (Nat × Word32)) (w : Nat × Word32) :
    ({ d with regw := ws ++ [w] } : Dev).regBoundary = ((ws.foldl Dev.regApply { d with regw := [] }).regApply w).testRefused := by
  rw [Dev.regBoundary, List.foldl_append]
  rfl

/-- A one-bit field that was set reads as set. -/
theorem Dev.flag_setFlag_true (d : Dev) (f : Fld) (i : Nat) (hfit : f.lo + f.width ≤ 32) (hone : f.width = 1) :
    (d.setFlag f i true).flag f i = true := by
  rw [Dev.flag, Dev.setFlag, Dev.fld_setFld_self d f i _ hfit, hone]
  rfl

theorem Dev.testRefused_of_none {d : Dev} (h : d.age.refused = false) : d.testRefused = d := by
  rw [Dev.testRefused, h, if_neg (by decide)]

theorem Dev.testRefused_of_refused {d : Dev} (h : d.age.refused = true) :
    d.testRefused = ({ d with age := { d.age with refused := false } } : Dev).setFlag Fld.hltTestStatRefused 0 true := by
  rw [Dev.testRefused, if_pos h]

theorem regAt_ctlSetupLock : regAt 0x0100001C = some (.ctlSetupLock, 0) := by decide
theorem regAt_cipKekCtl : regAt 0x00500028 = some (.cipKekCtl, 0) := by decide

theorem Dev.regApply_ctlSetupLock {d : Dev} {v : Word32} (hv : v.getLsbD 0 = true) (h : d.locked = false) :
    d.regApply (0x0100001C, v) = { d.setFlag Fld.ctlSetupLockLock 0 true with
      ctl := { (d.setFlag Fld.ctlSetupLockLock 0 true).ctl with lockPending := true } } := by
  simp only [Dev.regApply, regAt_ctlSetupLock]
  rw [if_neg (by simp [h, hv])]

theorem Dev.regApply_cipKekCtl {d : Dev} {v : Word32} (hv : v.getLsbD 0 = true) (h : d.locked = false) :
    d.regApply (0x00500028, v) = { d.setFlag Fld.cipKekCtlLoaded 0 true with
      hlt := { (d.setFlag Fld.cipKekCtlLoaded 0 true).hlt with kek := some d.kekBytes } } := by
  simp only [Dev.regApply, regAt_cipKekCtl]
  rw [if_neg (by simp [h, hv])]

/-- After the lock the key-encryption key can no longer be loaded (R122). -/
theorem Dev.regApply_cipKekCtl_locked {d : Dev} (v : Word32) (h : d.locked = true) : d.regApply (0x00500028, v) = d := by
  simp only [Dev.regApply, regAt_cipKekCtl]
  rw [if_pos (.inl h)]

/-! ### The bytes of the key registers -/

@[simp] theorem leBytes_length (n v : Nat) : (leBytes n v).length = n := by
  induction n generalizing v with
  | zero => rfl
  | succ n ih => rw [leBytes, List.length_cons, ih]

/-- Byte `k` of a little-endian field is bits `8k` to `8k + 7` of its value (R35). -/
theorem leBytes_getElem? {n k : Nat} (v : Nat) (hk : k < n) : (leBytes n v)[k]? = some (BitVec.ofNat 8 (bits v (8 * k) 8)) := by
  induction n generalizing v k with
  | zero => omega
  | succ n ih =>
    cases k with
    | zero => simp [leBytes, bits, ← BitVec.toNat_inj]
    | succ k =>
      rw [leBytes, List.getElem?_cons_succ, ih _ (by omega), bits, bits, show 8 * (k + 1) = 8 + 8 * k by omega, pow_add,
        ← Nat.div_div_eq_div_mul]
      rfl

/-- Byte `j` of words laid out little-endian is byte `j mod 4` of word `j / 4`. -/
theorem getElem?_flatMap_leBytes (ws : List Word32) {j : Nat} (hj : j < 4 * ws.length) :
    (ws.flatMap fun w => leBytes 4 w.toNat)[j]? = some (BitVec.ofNat 8 (bits (ws.getD (j / 4) 0#32).toNat (8 * (j % 4)) 8)) := by
  induction ws generalizing j with
  | nil => simp at hj
  | cons w ws ih =>
    rw [List.flatMap_cons]
    rcases Nat.lt_or_ge j 4 with h | h
    · rw [List.getElem?_append_left (by simpa using h), leBytes_getElem? _ h, Nat.div_eq_of_lt h, Nat.mod_eq_of_lt h,
        List.getD_cons_zero]
    · rw [List.length_cons] at hj
      obtain ⟨k, rfl⟩ := Nat.exists_eq_add_of_le' h
      rw [List.getElem?_append_right (by simp), leBytes_length, Nat.add_sub_cancel, ih (by omega), Nat.add_div_right k (by decide),
        Nat.add_mod_right, List.getD_cons_succ]

/-- Settles O9: the boundary folds over the writes in arrival order, and the lock decides what the two key registers' writes do. -/
theorem boundaryAppliesWrites : Obligations.BoundaryAppliesWrites := by
  refine ⟨fun d ws w => ⟨rfl, d.regBoundary_append ws w⟩, fun d => ⟨Dev.testRefused_of_none, fun h => ?_⟩, fun d v hv => ?_⟩
  · rw [Dev.testRefused_of_refused h]
    exact ⟨Dev.flag_setFlag_true _ _ _ (by decide) rfl, rfl⟩
  · refine ⟨fun h => ?_, fun h => ⟨?_, fun hw j hj => ?_⟩, Dev.regApply_cipKekCtl_locked v⟩
    · rw [Dev.regApply_ctlSetupLock hv h]
      exact Dev.flag_setFlag_true d _ _ (by decide) rfl
    · rw [Dev.regApply_cipKekCtl hv h]
    · exact getElem?_flatMap_leBytes d.dru.kekW (by omega)

end Sys2Proof.Machine
end

section
/-! SUPPORT. Dropping writes to a queue, overrun reports and the control cores' window (R16 to R20, R24). -/

namespace Sys2Proof.Machine

/-! ### A dropping write -/

theorem Dev.queStore_frame (d : Dev) (q slot : Nat) (e : List Byte) : ∃ k, d.queStore q slot e = { d with que := k } := by
  unfold Dev.queStore
  split
  · exact ⟨_, rfl⟩
  · exact ⟨d.que, rfl⟩

/-- A fold of steps that change only the queues changes only the queues. -/
theorem Dev.foldl_que_frame {α : Type} {g : Dev → α → Dev} (hg : ∀ d a, ∃ k, g d a = { d with que := k }) (xs : List α) (d : Dev) :
    ∃ k, xs.foldl g d = { d with que := k } := by
  induction xs generalizing d with
  | nil => exact ⟨d.que, rfl⟩
  | cons a xs ih =>
    obtain ⟨k, h⟩ := hg d a
    obtain ⟨k', h'⟩ := ih (g d a)
    exact ⟨k', by rw [List.foldl_cons, h', h]⟩

theorem Dev.quePush_frame (d : Dev) (q : Nat) (it : QItem) : ∃ k, d.quePush q it = { d with que := k } := by
  unfold Dev.quePush
  obtain ⟨k, h⟩ := Dev.foldl_que_frame (fun (e : Dev) (i : Nat) => Dev.queStore_frame e q
    (((d.queAt q).head + d.queLevel q + i) % e.queSize q) (slice it.body (64 * i) 64)) (List.range it.n) d
  simp only [h]
  exact ⟨_, rfl⟩

/-- A dropping write leaves the device as it was, or changes the queues and adds to the queue's count of drops (R366). -/
theorem Dev.queDropWrite_cases (d : Dev) (q : Nat) (b : List Byte) :
    d.queDropWrite q b = d ∨ ∃ k n, d.queDropWrite q b = ({ d with que := k } : Dev).bump Fld.queQCntDrops q n := by
  unfold Dev.queDropWrite
  simp only
  repeat' split
  · exact .inl rfl
  · exact .inr ⟨d.que, 1, rfl⟩
  · obtain ⟨k, h⟩ := Dev.quePush_frame d q (framedItem (d.queFramed q) (d.queSize q) b)
    exact .inr ⟨k, _, by rw [h]⟩
  · exact .inr ⟨_, 1, rfl⟩
  · obtain ⟨k, h⟩ := Dev.quePush_frame d q
      { body := gapMarker q (d.queAt q).dropTick (d.queAt q).drop (d.queFramed q), n := 1, closed := true }
    obtain ⟨k', h'⟩ := Dev.quePush_frame { d with que := k } q (framedItem (d.queFramed q) (d.queSize q) b)
    exact .inr ⟨_, _, by rw [h, h']; rfl⟩
  · obtain ⟨k, h⟩ := Dev.quePush_frame d q
      { body := gapMarker q (d.queAt q).dropTick (min ((d.queAt q).drop + 1) dropMax) (d.queFramed q), n := 1, closed := true }
    exact .inr ⟨_, 1, by rw [h]; rfl⟩
  · exact .inr ⟨_, 1, rfl⟩

theorem Dev.queDropWrite_frame (d : Dev) (q : Nat) (b : List Byte) : ∃ k r, d.queDropWrite q b = { d with que := k, regs := r } := by
  rcases d.queDropWrite_cases q b with h | ⟨k, n, h⟩
  · exact ⟨d.que, d.regs, h⟩
  · exact ⟨k, _, h⟩

/-- Every register but the queue's own counter reads as before a dropping write. -/
theorem Dev.rawReg_queDropWrite (d : Dev) (q : Nat) (b : List Byte) {r : RegId} {j : Nat} (h : r.offset j ≠ RegId.queQCnt.offset q) :
    (d.queDropWrite q b).rawReg r j = d.rawReg r j := by
  rcases d.queDropWrite_cases q b with e | ⟨k, n, e⟩
  · rw [e]
  · rw [e]
    exact Dev.rawReg_putReg_other ({ d with que := k } : Dev) _ h

/-! ### Overruns -/

/-- An overrun counter is a whole register of its own. -/
theorem ovrCounter_word {block inst : Nat} {f : Fld} (h : ovrCounter block inst = some f) :
    f.lo = 0 ∧ f.width = 32 ∧ RegId.ctlOvrCfg.offset 0 ≠ f.reg.offset inst := by
  unfold ovrCounter at h
  split at h <;> simp only [Option.ite_none_right_eq_some, Option.some.injEq, reduceCtorEq] at h
  all_goals
    obtain ⟨hi, rfl⟩ := h
    refine ⟨rfl, rfl, ?_⟩
    revert inst
    decide

/-- CTL_OVR_CFG reads as before once an overrun has been counted. -/
theorem Dev.ctlOvrCfg_bump_ovrCounter (d : Dev) {block inst : Nat} {f : Fld} (h : ovrCounter block inst = some f) :
    (d.bump f inst).rawReg .ctlOvrCfg 0 = d.rawReg .ctlOvrCfg 0 :=
  Dev.rawReg_putReg_other d _ (ovrCounter_word h).2.2

theorem ctlOvrCfg_ne_queQCnt (q : Nat) : RegId.ctlOvrCfg.offset 0 ≠ RegId.queQCnt.offset q := by
  simp only [RegId.offset, RegId.info]
  omega

/-- What an overrun that is counted, reported and posted does (R17 to R19), with the settings as they were before it. -/
theorem Dev.countOverrun_eq (d : Dev) {block inst : Nat} {f : Fld} (h : ovrCounter block inst = some f) (step : BitVec 8)
    (excess : BitVec 32) (deferred : BitVec 16) :
    d.countOverrun block inst step.toNat excess.toNat deferred.toNat =
      let d1 := (d.bump f inst).queDropWrite (d.fld Fld.ctlOvrCfgQueue)
        (overrunReport block inst step d.tick excess deferred ((d.bump f inst).fld f inst))
      if d.flag Fld.ctlOvrCfgEvt then
        d1.postEvent 0x12 blkCtl 0 [item block, item inst, item step.toNat, item d.tick.toNat, item excess.toNat]
      else d1 := by
  have hcfg := d.ctlOvrCfg_bump_ovrCounter h
  have hqueue : (d.bump f inst).fld Fld.ctlOvrCfgQueue = d.fld Fld.ctlOvrCfgQueue :=
    congrArg (fun w : Word32 => bits w.toNat 0 8) hcfg
  have hevt (b : List Byte) : ((d.bump f inst).queDropWrite (d.fld Fld.ctlOvrCfgQueue) b).flag Fld.ctlOvrCfgEvt = d.flag Fld.ctlOvrCfgEvt :=
    congrArg (fun w : Word32 => bits w.toNat 8 1 == 1) ((Dev.rawReg_queDropWrite _ _ b (ctlOvrCfg_ne_queQCnt _)).trans hcfg)
  have htick (b : List Byte) : ((d.bump f inst).queDropWrite (d.fld Fld.ctlOvrCfgQueue) b).tick = d.tick := by
    obtain ⟨k, r, e⟩ := Dev.queDropWrite_frame (d.bump f inst) (d.fld Fld.ctlOvrCfgQueue) b
    rw [e]
    rfl
  simp only [Dev.countOverrun, h, BitVec.ofNat_toNat, BitVec.setWidth_eq, hqueue, hevt, htick, Dev.bump_tick]

theorem Dev.countOverrun_frame (d : Dev) (block inst step excess deferred : Nat) :
    ∃ r k c, d.countOverrun block inst step excess deferred = { d with regs := r, que := k, ctl := c } := by
  unfold Dev.countOverrun
  split
  · exact ⟨d.regs, d.que, d.ctl, rfl⟩
  · rename_i f _
    obtain ⟨k, r, e⟩ := Dev.queDropWrite_frame (d.bump f inst) ((d.bump f inst).fld Fld.ctlOvrCfgQueue)
      (overrunReport block inst (BitVec.ofNat 8 step) (d.bump f inst).tick (BitVec.ofNat 32 excess) (BitVec.ofNat 16 deferred)
        ((d.bump f inst).fld f inst))
    simp only [e]
    split
    · exact ⟨_, _, _, rfl⟩
    · exact ⟨_, _, d.ctl, rfl⟩

/-- The device once an overrun has been counted and its step held back from the coming boundary. -/
def Dev.overrunNoted (d : Dev) (block inst : Nat) (step : BitVec 8) (excess : BitVec 32) (deferred : BitVec 16) : Dev :=
  { d.countOverrun block inst step.toNat excess.toNat deferred.toNat with
    ovr := { d.ovr with stalled := (block, inst, step.toNat) :: d.ovr.stalled } }

theorem Dev.overrunNoted_stalls (d : Dev) (block inst : Nat) (step : BitVec 8) (excess : BitVec 32) (deferred : BitVec 16) :
    (d.overrunNoted block inst step excess deferred).stalls block inst step.toNat = true := by
  simp [Dev.overrunNoted, Dev.stalls]

theorem Dev.overrunNoted_frame (d : Dev) (block inst : Nat) (step : BitVec 8) (excess : BitVec 32) (deferred : BitVec 16) :
    ∃ r k c o, d.overrunNoted block inst step excess deferred = { d with regs := r, que := k, ctl := c, ovr := o } := by
  obtain ⟨r, k, c, e⟩ := d.countOverrun_frame block inst step.toNat excess.toNat deferred.toNat
  exact ⟨r, k, c, _, by rw [Dev.overrunNoted, e]⟩

theorem exec_overrun_unnamed {s : State} {block inst : Nat} {step : BitVec 8} (excess : BitVec 32) (deferred : BitVec 16)
    (hheld : s.dev.coreHeld = false) (hstep : stepNamed block step.toNat = false) :
    exec (.overrun block inst step excess deferred) s = .next s := by
  refine (nextDev_ok s _ hheld : execOverrun block inst step excess deferred s = _).trans ?_
  rw [if_pos (.inr (by rw [hstep]; rfl))]

theorem exec_overrun_named {s : State} {block inst : Nat} {f : Fld} {step : BitVec 8} (excess : BitVec 32) (deferred : BitVec 16)
    (hheld : s.dev.coreHeld = false) (hf : ovrCounter block inst = some f) (hstep : stepNamed block step.toNat = true) :
    let d := s.dev.overrunNoted block inst step excess deferred
    exec (.overrun block inst step excess deferred) s =
      .next (s.withDev (if block = blkMot then d.motOverrun inst else if block = blkSch then d.schLate else d)) := by
  refine (nextDev_ok s _ hheld : execOverrun block inst step excess deferred s = _).trans ?_
  obtain ⟨r, k, c, e⟩ := s.dev.countOverrun_frame block inst step.toNat excess.toNat deferred.toNat
  rw [if_neg (by simp [hf, hstep])]
  simp only [Dev.overrunNoted, e]

/-- An overrun round commits one boundary later, and the next tick begins none (R16, R78). -/
theorem Dev.overrunNoted_schLate (d : Dev) (block inst : Nat) (step : BitVec 8) (excess : BitVec 32) (deferred : BitVec 16) :
    (d.overrunNoted block inst step excess deferred).schLate.sch.won =
        d.sch.won.map (fun w => if w.vis = d.nextVis then { w with vis := w.vis + 1 } else w) ∧
      (d.overrunNoted block inst step excess deferred).schLate.sch.overrun = true := by
  obtain ⟨r, k, c, o, e⟩ := d.overrunNoted_frame block inst step excess deferred
  rw [e]
  exact ⟨rfl, rfl⟩

/-- Settles O15: an overrun is counted, reported and posted by the settings that stood before it, and its step is held back; what
follows depends on the block alone. -/
theorem controlWindowAndOverruns : Obligations.ControlWindowAndOverruns := by
  refine ⟨fun s core addr hheld => (nextDev_ok s _ hheld : execCtlWindow core addr s = _), ?_, fun d h => by rw [Dev.schTick, if_pos h]⟩
  intro s block inst f step excess deferred hheld hf
  refine ⟨exec_overrun_unnamed excess deferred hheld, fun hstep => ?_⟩
  intro d0 d1 d2 d3
  have hd3 : d3 = s.dev.overrunNoted block inst step excess deferred := by
    rw [Dev.overrunNoted, s.dev.countOverrun_eq hf]
  have hexec := exec_overrun_named excess deferred hheld hf hstep
  obtain ⟨hlo, hwidth, -⟩ := ovrCounter_word hf
  refine ⟨?_, ?_, ?_, ?_, ?_⟩
  · refine (Dev.fld_setFld_self s.dev f inst _ (by omega)).trans ?_
    rw [hwidth, satAdd]
    omega
  · rw [hd3]
    exact Dev.overrunNoted_stalls ..
  · intro hmot hsch
    rw [hexec, hd3, if_neg hmot, if_neg hsch]
  · intro hmot
    rw [hexec, hd3, if_pos hmot]
  · rintro rfl
    rw [hexec, hd3]
    exact ⟨rfl, Dev.overrunNoted_schLate ..⟩

end Sys2Proof.Machine
end

section
/-! SUPPORT. Power-up and the boot scan of the cellar log (R8, R22, R436). -/

namespace Sys2Proof.Machine

/-! ### Counters -/

theorem Dev.fld_lt (d : Dev) (f : Fld) (i : Nat) : d.fld f i < 2 ^ f.width := bits_lt _ _ _

/-- A counter saturates at the largest value of its field. -/
theorem Dev.fld_bump_self (d : Dev) (f : Fld) (i n : Nat) (hfit : f.lo + f.width ≤ 32) :
    (d.bump f i n).fld f i = min (d.fld f i + n) (2 ^ f.width - 1) := by
  have hpos := Nat.two_pow_pos f.width
  rw [Dev.bump, Dev.fld_setFld_self d f i _ hfit, satAdd, Nat.mod_eq_of_lt (by omega)]

/-- At power-up HLT_BOOT_CNT counts on from what it held (R436). -/
theorem Dev.powerUp_bootCnt (d : Dev) (k : BitVec 2) :
    (d.powerUp k).fld Fld.hltBootCntCount = min (d.fld Fld.hltBootCntCount + 1) (2 ^ 32 - 1) := by
  rw [Dev.powerUp, Dev.fld_setFld_other _ _ (by decide), Dev.fld_bump_self _ _ _ _ (by decide), Dev.fld_setFld_self _ _ _ _ (by decide),
    Nat.mod_eq_of_lt (d.fld_lt _ _)]
  rfl

theorem exec_powerUp {s : State} (k : BitVec 2) (h : s.dev.hlt.vaon = false) :
    exec (.powerUp k) s = .next { s with hbm := Hbm.empty, dev := s.dev.powerUp k } := by
  show execPowerUp k s = _
  rw [execPowerUp, h, if_neg (by decide)]

/-! ### The newest record -/

theorem rising_unique {α : Type} {t : Table α} {x y : Nat × α} (h : Rising t = true) (hx : x ∈ t) (hy : y ∈ t) (hxy : x.1 = y.1) : x = y := by
  induction t with
  | nil => cases hx
  | cons a t ih =>
    have hlt := rising_lt h
    rcases List.mem_cons.1 hx with rfl | hx' <;> rcases List.mem_cons.1 hy with rfl | hy'
    · rfl
    · have := hlt y hy'; omega
    · have := hlt x hx'; omega
    · exact ih (rising_tail h) hx' hy'

/-- `f` keeps the number and the slot of the record with the highest number seen so far. -/
def KeepsNewest (f : Option (Nat × Nat) → Nat × List Byte → Option (Nat × Nat)) : Prop :=
  (∀ x, f none x = some (leAt x.2 4 4, x.1)) ∧
    ∀ a x, f (some a) x = if a.1 < leAt x.2 4 4 then some (leAt x.2 4 4, x.1) else some a

theorem KeepsNewest.foldl_kept {f : Option (Nat × Nat) → Nat × List Byte → Option (Nat × Nat)} (hf : KeepsNewest f)
    {l : List (Nat × List Byte)} {x : Nat × List Byte} (hmax : ∀ y ∈ l, y = x ∨ leAt y.2 4 4 < leAt x.2 4 4) :
    l.foldl f (some (leAt x.2 4 4, x.1)) = some (leAt x.2 4 4, x.1) := by
  induction l with
  | nil => rfl
  | cons y l ih =>
    obtain ⟨hy, hl⟩ := List.forall_mem_cons.1 hmax
    have hle : leAt y.2 4 4 ≤ leAt x.2 4 4 := by
      rcases hy with rfl | hy
      · exact le_rfl
      · exact hy.le
    rw [List.foldl_cons, hf.2, if_neg (Nat.not_lt.2 hle), ih hl]

/-- The fold finds the record whose number is above every other's, from any number below it. -/
theorem KeepsNewest.foldl_eq {f : Option (Nat × Nat) → Nat × List Byte → Option (Nat × Nat)} (hf : KeepsNewest f)
    {l : List (Nat × List Byte)} {x : Nat × List Byte} {acc : Option (Nat × Nat)} (hx : x ∈ l)
    (hmax : ∀ y ∈ l, y = x ∨ leAt y.2 4 4 < leAt x.2 4 4) (hacc : ∀ a, acc = some a → a.1 < leAt x.2 4 4) :
    l.foldl f acc = some (leAt x.2 4 4, x.1) := by
  induction l generalizing acc with
  | nil => cases hx
  | cons y l ih =>
    obtain ⟨hy, hl⟩ := List.forall_mem_cons.1 hmax
    have hstep : f acc y = some (leAt y.2 4 4, y.1) ∨ f acc y = acc ∧ acc ≠ none ∧ y ≠ x := by
      cases acc with
      | none => exact .inl (hf.1 y)
      | some a =>
        rw [hf.2]
        split
        · exact .inl rfl
        · rename_i hlt
          exact .inr ⟨rfl, nofun, fun h => hlt (h ▸ hacc a rfl)⟩
    rw [List.foldl_cons]
    by_cases hyx : y = x
    · rw [hstep.resolve_right fun h => h.2.2 hyx, hyx, hf.foldl_kept hl]
    · refine ih ((List.mem_cons.1 hx).resolve_left (Ne.symm hyx)) hl fun a ha => ?_
      rcases hstep with h | h
      · obtain rfl := Option.some.inj (h.symm.trans ha)
        exact hy.resolve_left hyx
      · exact hacc a (h.1.symm.trans ha)

/-- Among the good slots of the main region only the newest record's own slot holds a record as new. -/
theorem mainSlots_newest {d : Dev} {i : Nat} {b : List Byte} (hrising : Rising d.hlt.mram = true) (hib : (i, b) ∈ d.mainSlots)
    (hmax : ∀ x ∈ d.mainSlots, recOk x.2 = true → x.1 ≠ i → leAt x.2 4 4 < leAt b 4 4) :
    ∀ y ∈ d.mainSlots.filter fun x => recOk x.2, y = (i, b) ∨ leAt y.2 4 4 < leAt b 4 4 := by
  intro y hy
  obtain ⟨hmem, hok⟩ := List.mem_filter.1 hy
  by_cases hyi : y.1 = i
  · exact .inl (rising_unique hrising (List.mem_filter.1 hmem).1 (List.mem_filter.1 hib).1 hyi)
  · exact .inr (hmax y hmem hok hyi)

/-- The device once the scan has ended, with the number and the slot of the newest record and the slots whose CRC fails (R436). -/
def Dev.scanned (d : Dev) (top : Option (Nat × Nat)) (bad : Nat) : Dev :=
  let next := top.elim mainFirst fun a => if a.2 + 1 < cellarSlots then a.2 + 1 else mainFirst
  let d := ((d.setFld Fld.hltCellarStatNext 0 next).setFld Fld.hltCellarErrBadSlots 0 (min 0xFFFF bad)).feedFrom (top.elim 0 fun a => a.1 + 1)
  let d : Dev := { d with hlt := { d.hlt with scanning := false, lastFound := top.elim 0 (·.1) } }
  d.cellarAhead blkHlt 0 0xC4 (itemsPayload [item d.hlt.bootCause, item (top.elim 0 (·.1)), item bad])

/-- The scan folds over the good slots of the main region, keeping the newest record. -/
theorem exec_cellarScanDone {s : State} (hvaon : s.dev.hlt.vaon = true) (hscan : s.dev.hlt.scanning = true) :
    ∃ f bad, KeepsNewest f ∧
      exec .cellarScanDone s = .next (s.withDev (s.dev.scanned ((s.dev.mainSlots.filter fun x => recOk x.2).foldl f none) bad)) := by
  have hgo : ¬ (! s.dev.hlt.scanning) = true := by simp [hscan]
  exact ⟨_, _, ⟨fun _ => rfl, fun _ _ => rfl⟩, (nextAon_ok s _ hvaon : execCellarScanDone s = _).trans
    (congrArg (fun d => Host.Outcome.next (s.withDev d)) (if_neg hgo))⟩

theorem Dev.scanned_next (d : Dev) (n i bad : Nat) :
    (d.scanned (some (n, i)) bad).fld Fld.hltCellarStatNext = if i + 1 < cellarSlots then i + 1 else mainFirst := by
  have hslot : (if i + 1 < cellarSlots then i + 1 else mainFirst) < 2 ^ 16 := by
    unfold cellarSlots mainFirst at *
    split <;> omega
  show ((d.setFld Fld.hltCellarStatNext 0 (if i + 1 < cellarSlots then i + 1 else mainFirst)).setFld
    Fld.hltCellarErrBadSlots 0 (min 0xFFFF bad)).fld Fld.hltCellarStatNext = _
  rw [Dev.fld_setFld_other _ _ (by decide), Dev.fld_setFld_self _ _ _ _ (by decide)]
  exact Nat.mod_eq_of_lt hslot

/-- Settles O18: power-up counts the boot; the scan's fold finds the newest record, and the next slot follows it with wrap. -/
theorem powerUpAndBootScan : Obligations.PowerUpAndBootScan := by
  refine ⟨fun s k h => ⟨_, exec_powerUp k h, rfl, rfl, rfl, rfl, rfl, rfl, rfl, rfl, s.dev.powerUp_bootCnt k⟩, ?_⟩
  intro s i b hvaon hscan hib hi hok hrising hmax
  have hgood : (i, b) ∈ s.dev.mainSlots.filter fun x => recOk x.2 := List.mem_filter.2 ⟨hib, hok⟩
  obtain ⟨f, bad, hf, hrun⟩ := exec_cellarScanDone hvaon hscan
  rw [hf.foldl_eq hgood (mainSlots_newest hrising hib hmax) (fun _ h => by cases h)] at hrun
  refine ⟨_, hrun, rfl, rfl, rfl, rfl, ?_, ?_, ?_⟩
  · refine (s.dev.scanned_next _ i bad).trans ?_
    unfold cellarSlots mainFirst
    split <;> split <;> omega
  · simp [Dev.scanned, Dev.cellarAhead, Dev.takeRec, Dev.feedFrom]
  · simp [Dev.scanned, Dev.cellarAhead, Dev.takeRec]

end Sys2Proof.Machine
end

section
/-! SUPPORT. Streams: what abandoning an attempt leaves of the writing control (R207, R208, R213), and the rows that end, verify and
resume streams. -/

namespace Sys2Proof.Machine

/-! ### The writing control -/

@[simp] theorem Dev.wrAt_modWr_self (d : Dev) {n : Nat} (f : Wr → Wr) (hn : n < d.wr.length) : (d.modWr n f).wrAt n = f (d.wrAt n) := by
  simp [Dev.wrAt, Dev.modWr, lmod, List.getD_eq_getElem?_getD, hn]

theorem Dev.modWr_wr_length (d : Dev) (n : Nat) (f : Wr → Wr) : (d.modWr n f).wr.length = d.wr.length := List.length_modify ..

/-! ### Abandonment -/

/-- `g` leaves the number, the attempt and the reports of every data set. -/
def KeepsReports (g : DsWr → DsWr) : Prop :=
  ∀ x, (g x).no = x.no ∧ (g x).attempt = x.attempt ∧ (g x).written = x.written ∧ (g x).verified = x.verified

/-- Positions that are dropped change of a data set its rewrites to come and its failed rows (R205). -/
theorem Dev.loseCut_wrAt (d : Dev) {n : Nat} (cut : List Position) (hn : n < d.wr.length) :
    ∃ g, KeepsReports g ∧ (d.loseCut n cut).wrAt n = { d.wrAt n with live := (d.wrAt n).live.map g } := by
  refine ⟨_, ?_, Dev.wrAt_modWr_self _ _ hn⟩
  exact fun _ => ⟨rfl, rfl, rfl, rfl⟩

theorem Dev.loseCut_wr_length (d : Dev) (n : Nat) (cut : List Position) : (d.loseCut n cut).wr.length = d.wr.length :=
  Dev.modWr_wr_length ..

/-- The highest attempt made of a data set that `w` still knows of (R213). -/
def Wr.lastAttempt (w : Wr) (x : DsWr) : Nat := ((w.lastDs.filter fun y => y.no == x.no).map (·.attempt)).getD 0

/-- A data set that waits to be written again, as an attempt above every one made of it (R213). -/
def Wr.nextAttempt (w : Wr) (x : DsWr) : DsWr :=
  { x with
    attempt := max x.attempt (w.lastAttempt x) + 1, fails := [], fixed := false, left := 8192, rwLeft := 0
    encoded := false, written := false, verified := false, under := false }

/-- The data sets of `nos` that are being written. -/
def Wr.hit (w : Wr) (nos : List Nat) : List DsWr := w.live.filter fun x => nos.contains x.no

theorem Dev.abandon_of_hit_nil {d : Dev} {n : Nat} (trigger : Nat) {nos : List Nat} (h : (d.wrAt n).hit nos = []) :
    d.abandon n trigger nos = d := if_pos h

/-- The reports of an abandonment, one for each data set (R208). -/
def Dev.reportAbandoned (d : Dev) (t trigger : Nat) (xs : List DsWr) : Dev :=
  xs.foldl (fun d x => (d.bump Fld.tpWrCnt1Abandon t).postEvent 0x40 blkEnc t [item t, item x.no, item x.attempt, item trigger]) d

theorem Dev.reportAbandoned_wr (d : Dev) (t trigger : Nat) (xs : List DsWr) : (d.reportAbandoned t trigger xs).wr = d.wr := by
  induction xs generalizing d with
  | nil => rfl
  | cons x xs ih => exact ih _

/-- The positions of the region under way, which an abandonment drops. -/
def Wr.regionTodo (w : Wr) : List Position := w.todo.filter fun p => p.kind == .region

/-- The writing control once the data sets of `nos` have left the stream and `next` waits to be written again behind a skip gap. -/
def Wr.abandoned (w : Wr) (nos : List Nat) (next : List DsWr) (cut : List Position) : Wr :=
  { w with
    live := w.live.filter fun x => ! nos.contains x.no
    again := (w.again ++ next).mergeSort fun a b => decide (a.no ≤ b.no)
    gapDue := true, todo := w.todo.filter fun p => p.kind != .region, credit := if cut = [] then w.credit else 0
    lastKind := if cut = [] then w.lastKind else .region
    failCnt := List.replicate 64 0, corr := List.replicate 64 0, checked := List.replicate 64 0 }

/-- While no data set would need attempt 256, an abandonment reports, drops the region under way and changes the writing control. -/
theorem Dev.abandon_eq {d : Dev} {n : Nat} (trigger : Nat) {nos : List Nat} (hhit : (d.wrAt n).hit nos ≠ [])
    (hlow : ∀ x ∈ (d.wrAt n).hit nos, ((d.wrAt n).nextAttempt x).attempt < 256) :
    d.abandon n trigger nos = ((d.reportAbandoned n trigger ((d.wrAt n).hit nos)).loseCut n (d.wrAt n).regionTodo).modWr n fun w =>
      w.abandoned nos (((d.wrAt n).hit nos).map (d.wrAt n).nextAttempt) (d.wrAt n).regionTodo := by
  have hany : ¬ ((((d.wrAt n).hit nos).map (d.wrAt n).nextAttempt).any fun x => decide (256 ≤ x.attempt)) = true := by
    simpa using hlow
  exact (if_neg hhit).trans (if_neg hany)

/-- Then what is abandoned has left the stream and waits to be written again, and every other data set stands (R207, R208). -/
theorem Dev.abandon_wrAt {d : Dev} {n : Nat} (trigger : Nat) {nos : List Nat} (hn : n < d.wr.length) (hhit : (d.wrAt n).hit nos ≠ [])
    (hlow : ∀ x ∈ (d.wrAt n).hit nos, ((d.wrAt n).nextAttempt x).attempt < 256) :
    ∃ g, KeepsReports g ∧
      ((d.abandon n trigger nos).wrAt n).live = ((d.wrAt n).live.map g).filter (fun x => ! nos.contains x.no) ∧
      ((d.abandon n trigger nos).wrAt n).again =
        ((d.wrAt n).again ++ ((d.wrAt n).hit nos).map (d.wrAt n).nextAttempt).mergeSort fun a b => decide (a.no ≤ b.no) := by
  have hwr := d.reportAbandoned_wr n trigger ((d.wrAt n).hit nos)
  have hat : (d.reportAbandoned n trigger ((d.wrAt n).hit nos)).wrAt n = d.wrAt n := by rw [Dev.wrAt, hwr, Dev.wrAt]
  obtain ⟨g, hg, hcut⟩ := Dev.loseCut_wrAt (d.reportAbandoned n trigger ((d.wrAt n).hit nos)) (d.wrAt n).regionTodo (hwr ▸ hn)
  rw [Dev.abandon_eq trigger hhit hlow, Dev.wrAt_modWr_self _ _ (by rw [Dev.loseCut_wr_length, hwr]; exact hn), hcut, hat]
  exact ⟨g, hg, rfl, rfl⟩

section Abandoned

variable {d : Dev} {n : Nat} {nos : List Nat} {x : DsWr}

theorem Wr.mem_hit {w : Wr} : x ∈ w.hit nos ↔ x ∈ w.live ∧ x.no ∈ nos := by simp [Wr.hit]

/-- A data set whose attempts all lie below 255 has a next attempt below 256. -/
theorem Wr.nextAttempt_lt {w : Wr} (hx : x.attempt < 255) (hlast : ∀ y, w.lastDs = some y → y.attempt < 255) :
    (w.nextAttempt x).attempt < 256 := by
  have hknown : w.lastAttempt x < 255 := by
    unfold Wr.lastAttempt
    cases hds : w.lastDs with
    | none => simp
    | some y =>
      have := hlast y hds
      by_cases hy : (y.no == x.no) = true <;> simp [Option.filter, hy, this]
  show max x.attempt (w.lastAttempt x) + 1 < 256
  omega

/-- Of the attempts so far none is above 254, so that an abandonment fails no member (R213). -/
def Wr.AttemptsLow (w : Wr) : Prop := ∀ y, y ∈ w.live ∨ w.lastDs = some y → y.attempt < 255

theorem Wr.AttemptsLow.hit_lt {w : Wr} (h : w.AttemptsLow) : ∀ x ∈ w.hit nos, (w.nextAttempt x).attempt < 256 := fun x hx =>
  Wr.nextAttempt_lt (h x (.inl (Wr.mem_hit.1 hx).1)) fun y hy => h y (.inr hy)

theorem Dev.abandon_requeues (trigger : Nat) (hn : n < d.wr.length) (hx : x ∈ (d.wrAt n).live) (hlow : (d.wrAt n).AttemptsLow)
    (hno : x.no ∈ nos) :
    (d.wrAt n).nextAttempt x ∈ ((d.abandon n trigger nos).wrAt n).again ∧
      ∀ y ∈ ((d.abandon n trigger nos).wrAt n).live, y.no ∉ nos := by
  have hmem : x ∈ (d.wrAt n).hit nos := Wr.mem_hit.2 ⟨hx, hno⟩
  obtain ⟨g, -, hlive, hagain⟩ := Dev.abandon_wrAt trigger hn (List.ne_nil_of_mem hmem) hlow.hit_lt
  constructor
  · rw [hagain, List.mem_mergeSort, List.mem_append]
    exact .inr (List.mem_map_of_mem hmem)
  · intro y hy
    rw [hlive] at hy
    simpa using (List.mem_filter.1 hy).2

theorem Dev.abandon_keeps (trigger : Nat) (hn : n < d.wr.length) (hx : x ∈ (d.wrAt n).live) (hlow : (d.wrAt n).AttemptsLow)
    (hno : x.no ∉ nos) :
    ∃ y ∈ ((d.abandon n trigger nos).wrAt n).live,
      y.no = x.no ∧ y.attempt = x.attempt ∧ y.written = x.written ∧ y.verified = x.verified := by
  by_cases hhit : (d.wrAt n).hit nos = []
  · rw [Dev.abandon_of_hit_nil trigger hhit]
    exact ⟨x, hx, rfl, rfl, rfl, rfl⟩
  · obtain ⟨g, hg, hlive, -⟩ := Dev.abandon_wrAt trigger hn hhit hlow.hit_lt
    refine ⟨g x, ?_, hg x⟩
    rw [hlive]
    exact List.mem_filter.2 ⟨List.mem_map_of_mem hx, by simpa [(hg x).1] using hno⟩

end Abandoned

/-! ### The rows -/

section Rows

variable {s : State} {n : Nat} (hheld : s.dev.coreHeld = false)
include hheld

/-- A row over the device whose condition holds does what it says. -/
theorem nextDev_if_pos {c : Prop} [Decidable c] {f : Dev → Dev} {e : Dev} (hf : f s.dev = if c then e else s.dev) (hc : c) :
    nextDev s f = .next (s.withDev e) := by
  rw [nextDev_ok s f hheld, hf, if_pos hc]

/-- A row over the device whose condition does not hold does nothing. -/
theorem nextDev_if_neg {c : Prop} [Decidable c] {f : Dev → Dev} {e : Dev} (hf : f s.dev = if c then e else s.dev) (hc : ¬ c) :
    nextDev s f = .next s := by
  rw [nextDev_ok s f hheld, hf, if_neg hc]

/-- The position that a verify result names is in the stream. -/
theorem execVerifyResult_found {ch pos : Nat} {p : Position} (hfind : (s.dev.wrAt n).stream.find? (fun p => p.num == pos) = some p) :
    execVerifyResult n ch pos s = .next (s.withDev
      (if ch < 64 ∧ ! p.judged.getLsbD ch ∧ s.dev.verifyDue n p then s.dev.verifyOne n ch p else s.dev)) := by
  rw [execVerifyResult, nextDev_ok s _ hheld]
  simp only [hfind]

theorem execVerifyResult_due {ch pos : Nat} {p : Position} (hfind : (s.dev.wrAt n).stream.find? (fun p => p.num == pos) = some p)
    (hch : ch < 64) (hjudged : p.judged.getLsbD ch = false) (hdue : s.dev.verifyDue n p = true) :
    exec (.verifyResult n ch pos) s = .next (s.withDev (s.dev.verifyOne n ch p)) := by
  refine (execVerifyResult_found hheld hfind).trans ?_
  rw [if_pos ⟨hch, by rw [hjudged]; rfl, hdue⟩]

theorem execVerifyResult_not_due {ch pos : Nat} {p : Position} (hfind : (s.dev.wrAt n).stream.find? (fun p => p.num == pos) = some p)
    (h : p.judged.getLsbD ch = true ∨ s.dev.verifyDue n p = false) : exec (.verifyResult n ch pos) s = .next s := by
  refine (execVerifyResult_found hheld hfind).trans ?_
  rw [if_neg]
  rintro ⟨-, hjudged, hdue⟩
  rcases h with h | h <;> simp [h] at hjudged hdue

end Rows

/-- Settles O45: each row acts exactly when its rule's condition holds, and an abandonment moves the data sets that it names. -/
theorem streamsEndVerifyAndGoOn : Obligations.StreamsEndVerifyAndGoOn := by
  refine ⟨fun s n hheld => ⟨?_, ?_, ?_, ?_, ?_⟩, ?_, fun s n hheld => ⟨?_, ?_, ?_, ?_, ?_, ?_⟩⟩
  · intro p ps hmode htodo hkind hfifo hunsent
    refine (nextDev_if_pos hheld rfl ?_ : execWriteLeadExhausted n s = _)
    exact ⟨hmode, by rw [htodo]; simp [hkind], hfifo, hunsent⟩
  · intro hfifo
    exact (nextDev_if_neg hheld rfl (fun h => hfifo h.2.2.1) : execWriteLeadExhausted n s = _)
  · exact fun h8 hmode => (nextDev_if_pos hheld rfl ⟨h8, hmode⟩ : execUnderrunPersist n s = _)
  · exact fun h8 => (nextDev_if_neg hheld rfl (fun h => absurd h.1 (by omega)) : execUnderrunPersist n s = _)
  · intro ch pos p hfind hch
    exact ⟨fun hjudged hdue => execVerifyResult_due hheld hfind hch hjudged hdue, execVerifyResult_not_due hheld hfind⟩
  · intro d n trigger nos x hn hx hlow
    refine ⟨fun hno => ?_, Dev.abandon_keeps trigger hn hx hlow⟩
    obtain ⟨hagain, hlive⟩ := Dev.abandon_requeues trigger hn hx hlow hno
    exact ⟨⟨_, hagain, rfl, rfl, rfl, rfl⟩, hlive⟩
  · exact fun hmode htravel hstate hnext hgoal =>
      (nextDev_if_pos hheld rfl ⟨hmode, htravel, hstate, hnext, hgoal⟩ : execBackhitchResume n s = _)
  · exact fun hnext => (nextDev_if_neg hheld rfl (fun h => by simp [hnext] at h) : execBackhitchResume n s = _)
  · intro hturn hrun hend
    refine (nextDev_if_pos hheld rfl ⟨?_, hrun, hend⟩ : execWrapTurn n s = _)
    simpa using hturn
  · exact fun hrun => (nextDev_if_neg hheld rfl (fun h => hrun h.2.1) : execWrapTurn n s = _)
  · intro hpauses hclear d e
    let next := if (d.wrAt n).mode = .streaming then e else d
    have hgo : execPauseEnd n s = .next (s.withDev (if (next.wrAt n).mode = .stopped then next.reposition n else next)) :=
      nextDev_if_pos hheld rfl ⟨hpauses, hclear⟩
    have hmode : (d.wrAt n).mode = (s.dev.wrAt n).mode := rfl
    refine ⟨fun h => ?_, fun h => ?_, fun h h' => ?_⟩
    · have hnext : next = e := if_pos (hmode.trans h)
      rw [← hnext]
      exact hgo
    · have hnext : next = d := if_neg (by rw [hmode, h]; decide)
      rw [hnext, if_pos (hmode.trans h)] at hgo
      exact hgo
    · have hnext : next = d := if_neg (hmode ▸ h)
      rw [hnext, if_neg (hmode ▸ h')] at hgo
      exact hgo
  · exact fun hclear => (nextDev_if_neg hheld rfl (fun h => absurd h.2 (by omega)) : execPauseEnd n s = _)

end Sys2Proof.Machine
end

section
/-! SUPPORT. What the fabric's, the Ethernet ports' and the motion's commands keep (R5): the device with the fields that a unit may
change blanked is the same before and after. -/

namespace Sys2Proof.Machine

/-! ### What a command keeps -/

/-- From `s` to `t` buffer memory, the queue of commands and what `keep` sees of the device are as they were. -/
def State.Keeps {K : Type} (keep : Dev → K) (s t : State) : Prop :=
  t.hbm = s.hbm ∧ t.pending = s.pending ∧ keep t.dev = keep s.dev

theorem nextDev_keeps {K : Type} {keep : Dev → K} {f : Dev → Dev} {s t : State} (hf : ∀ d, keep (f d) = keep d)
    (h : nextDev s f = .next t) : s.Keeps keep t := by
  obtain ⟨hhbm, hpending⟩ := nextDev_frame h
  refine ⟨hhbm, hpending, ?_⟩
  obtain rfl := Host.Outcome.next.inj h
  show keep (if s.dev.coreHeld then s.dev else f s.dev) = _
  split
  · rfl
  · exact hf _

/-- A fold of steps that keep something keeps it. -/
theorem foldl_keeps {S K α : Type} {keep : S → K} {g : S → α → S} (hg : ∀ d a, keep (g d a) = keep d) (xs : List α) (d : S) :
    keep (xs.foldl g d) = keep d := by
  induction xs generalizing d with
  | nil => rfl
  | cons a xs ih => exact (ih _).trans (hg d a)

theorem Dev.cellar_frame (d : Dev) (b i c : Nat) (p : List Byte) : ∃ k r h, d.cellar b i c p = { d with que := k, regs := r, hlt := h } := by
  obtain ⟨k, r, e⟩ := (d.takeRec b i c p).1.queDropWrite_frame 0xF8 (feedItem (cellarBytes (d.takeRec b i c p).2 0 0))
  exact ⟨k, r, _, e⟩

theorem Dev.postBoth_frame (d : Dev) (c b i : Nat) (l : List Word64) :
    ∃ k r h e, d.postBoth c b i l = { d with que := k, regs := r, hlt := h, ctl := e } := by
  obtain ⟨k, r, h, e⟩ := (d.postEvent c b i l).cellar_frame b i c (itemsPayload l)
  exact ⟨k, r, h, _, e⟩

/-! ### The fabric -/

/-! The first lemmas of each `besides` have `(rfl)` for a proof, not `rfl`: so `simp` cites them, where otherwise the kernel would have to
compare the two devices again, register table and all. -/

/-- The device without what a link that goes down changes, be it a fabric link or the tunnels of a port. -/
def Dev.besidesLinks (d : Dev) : Dev := { d with regs := [], ctl := {}, que := {}, fab := {}, pair := {}, out := [], free := 0 }

/-- The device without the fabric, the pair, and what reports go through. -/
def Dev.besidesFab (d : Dev) : Dev := { d.besidesLinks with hlt := {} }

@[simp] theorem Dev.besidesLinks_setFld (d : Dev) (f : Fld) (i v : Nat) : (d.setFld f i v).besidesLinks = d.besidesLinks := (rfl)
@[simp] theorem Dev.besidesLinks_setFlag (d : Dev) (f : Fld) (i : Nat) (b : Bool) : (d.setFlag f i b).besidesLinks = d.besidesLinks := (rfl)
@[simp] theorem Dev.besidesLinks_bump (d : Dev) (f : Fld) (i n : Nat) : (d.bump f i n).besidesLinks = d.besidesLinks := (rfl)
@[simp] theorem Dev.besidesLinks_fab (d : Dev) (f : Fab) : ({ d with fab := f } : Dev).besidesLinks = d.besidesLinks := (rfl)
@[simp] theorem Dev.besidesLinks_modLink (d : Dev) (l : Nat) (g : Link → Link) : (d.modLink l g).besidesLinks = d.besidesLinks := (rfl)
@[simp] theorem Dev.besidesLinks_spend (d : Dev) : d.spend.besidesLinks = d.besidesLinks := (rfl)
@[simp] theorem Dev.besidesLinks_emit (d : Dev) (o : Out) : (d.emit o).besidesLinks = d.besidesLinks := (rfl)
@[simp] theorem Dev.besidesLinks_lsaChanged (d : Dev) : d.lsaChanged.besidesLinks = d.besidesLinks := (rfl)
@[simp] theorem Dev.besidesLinks_modPartner (d : Dev) (g : Partner → Partner) : (d.modPartner g).besidesLinks = d.besidesLinks := (rfl)
@[simp] theorem Dev.besidesLinks_postEvent (d : Dev) (c b i : Nat) (l : List Word64) :
    (d.postEvent c b i l).besidesLinks = d.besidesLinks := (rfl)

/-- What changes only the fabric and what has been emitted keeps the rest. -/
theorem Dev.besidesLinks_of_fab {d e : Dev} (h : ∃ f o, e = { d with fab := f, out := o }) : e.besidesLinks = d.besidesLinks := by
  obtain ⟨f, o, rfl⟩ := h
  rfl

@[simp] theorem Dev.besidesLinks_fabSend (d : Dev) (a c t w : Nat) (m : FabMsg) : (d.fabSend a c t w m).besidesLinks = d.besidesLinks :=
  Dev.besidesLinks_of_fab (d.fabSend_frame ..)
@[simp] theorem Dev.besidesLinks_nearSend (d : Dev) (l t : Nat) (m : FabMsg) : (d.nearSend l t m).besidesLinks = d.besidesLinks :=
  Dev.besidesLinks_of_fab (d.nearSend_frame ..)
@[simp] theorem Dev.besidesLinks_linkDrain (d : Dev) (l : Nat) : (d.linkDrain l).besidesLinks = d.besidesLinks :=
  Dev.besidesLinks_of_fab (d.linkDrain_frame ..)
@[simp] theorem Dev.besidesLinks_fabForward (d : Dev) (h p : List Byte) : (d.fabForward h p).besidesLinks = d.besidesLinks :=
  Dev.besidesLinks_of_fab (d.fabForward_frame ..)

@[simp] theorem Dev.besidesLinks_flood (d : Dev) (l : Lsa) (skip : Option Nat) : (d.flood l skip).besidesLinks = d.besidesLinks :=
  foldl_keeps (fun d _ => foldl_keeps (fun d _ => Dev.besidesLinks_of_fab (d.linkQueue_frame ..)) _ d) _ d

@[simp] theorem Dev.besidesLinks_e2eResend (d : Dev) (key : Nat) (seq : BitVec 32) : (d.e2eResend key seq).besidesLinks = d.besidesLinks :=
  foldl_keeps (fun d _ => d.besidesLinks_fabForward _ _) _ _

/-- A message of another device changes the fabric and what is held of the partner. -/
theorem Dev.besidesLinks_fabTake (d : Dev) (src link : Nat) (payload : List Byte) (m : FabMsg) :
    (d.fabTake src link payload m).besidesLinks = d.besidesLinks := by
  unfold Dev.fabTake
  cases m
  case e2eNak cls seq => exact d.besidesLinks_e2eResend _ _
  case control | data | batchEnd | resync =>
    dsimp only
    split <;> rfl
  all_goals rfl

@[simp] theorem Dev.besidesLinks_fabAct (d : Dev) (src link type : Nat) (payload : List Byte) :
    (d.fabAct src link type payload).besidesLinks = d.besidesLinks := foldl_keeps (fun d m => d.besidesLinks_fabTake src link payload m) _ d

@[simp] theorem Dev.besidesLinks_e2eDrain (src cls link n : Nat) (d : Dev) : (Dev.e2eDrain src cls link n d).besidesLinks = d.besidesLinks := by
  induction n generalizing d with
  | zero => rfl
  | succ n ih =>
    unfold Dev.e2eDrain
    dsimp only
    split
    · rfl
    · rw [ih, Dev.besidesLinks_fabAct]
      rfl

@[simp] theorem Dev.besidesLinks_e2eArrive (d : Dev) (link : Nat) (head payload : List Byte) :
    (d.e2eArrive link head payload).besidesLinks = d.besidesLinks := by
  unfold Dev.e2eArrive
  dsimp only
  repeat' split
  all_goals simp

@[simp] theorem Dev.besidesLinks_frameBad (d : Dev) (l : Nat) : (d.frameBad l).besidesLinks = d.besidesLinks := by
  unfold Dev.frameBad
  split <;> simp

theorem Dev.besidesLinks_frameIn (d : Dev) (l : Nat) (f : Frame) : (d.frameIn l f).besidesLinks = d.besidesLinks := by
  unfold Dev.frameIn
  dsimp only
  repeat' split
  all_goals simp

@[simp] theorem Dev.besidesLinks_linkDown (d : Dev) (l cause : Nat) : (d.linkDown l cause).besidesLinks = d.besidesLinks := by
  unfold Dev.linkDown
  dsimp only
  repeat' split
  all_goals simp

/-- What keeps the device besides its links keeps it besides the fabric. -/
theorem Dev.besidesFab_of_links {d e : Dev} (h : e.besidesLinks = d.besidesLinks) : e.besidesFab = d.besidesFab :=
  congrArg (fun k : Dev => { k with hlt := {} }) h

@[simp] theorem Dev.besidesFab_fab (d : Dev) (f : Fab) : ({ d with fab := f } : Dev).besidesFab = d.besidesFab := (rfl)
@[simp] theorem Dev.besidesFab_flood (d : Dev) (l : Lsa) (skip : Option Nat) : (d.flood l skip).besidesFab = d.besidesFab :=
  Dev.besidesFab_of_links (d.besidesLinks_flood ..)

@[simp] theorem Dev.besidesFab_conflictCheck (d : Dev) : d.conflictCheck.besidesFab = d.besidesFab := by
  unfold Dev.conflictCheck
  dsimp only
  split
  · obtain ⟨k, r, h, e, hpost⟩ := Dev.postBoth_frame
      { d with fab := { d.fab with conflicts := d.conflictsNow, routeDirty := true } } 0x81 blkFab 0 [item d.fabAddr, Config.serial,
        ((d.fab.lsas.find? fun l => l.addr.toNat == d.fabAddr && l.serial != Config.serial).map (·.serial)).getD 0]
    rw [hpost]
    rfl
  · rfl

theorem execFrameReceive_keeps {link : LinkNo} {f : Frame} {s t : State} (h : execFrameReceive link f s = .next t) :
    s.Keeps Dev.besidesLinks t :=
  nextDev_keeps (fun d => by
    split
    · exact d.besidesLinks_frameIn link f
    · rfl) h

theorem execLinkReplay_keeps {link : LinkNo} {s t : State} (h : execLinkReplay link s = .next t) : s.Keeps Dev.besidesLinks t :=
  nextDev_keeps (fun d => by
    dsimp only
    split
    · rfl
    · refine (foldl_keeps (fun d _ => d.besidesLinks_emit _) _ _).trans ?_
      split <;> simp) h

theorem execFabLinkUp_keeps {link : LinkNo} {s t : State} (h : execFabLinkUp link s = .next t) : s.Keeps Dev.besidesLinks t :=
  nextDev_keeps (fun d => by
    dsimp only
    repeat' split
    all_goals simp) h

theorem execFabLinkDown_keeps {link : LinkNo} {cause : Nat} {s t : State} (h : execFabLinkDown link cause s = .next t) :
    s.Keeps Dev.besidesLinks t :=
  nextDev_keeps (fun d => by
    dsimp only
    split <;> simp) h

theorem execLsaReceive_keeps {link : LinkNo} {ser : BitVec 64} {adr : BitVec 7} {q : BitVec 32} {src : Option Nat} {tk : BitVec 8}
    {adj : List (Nat × Nat)} {s t : State} (h : execLsaReceive link ser adr q src tk adj s = .next t) : s.Keeps Dev.besidesFab t :=
  nextDev_keeps (fun d => by
    dsimp only
    split
    · rfl
    · split
      · split <;> rfl
      · split
        · split <;> simp
        · simp) h

theorem execLsaRefresh_keeps {s t : State} (h : execLsaRefresh s = .next t) : s.Keeps Dev.besidesLinks t :=
  nextDev_keeps (fun d => by
    dsimp only
    split <;> simp) h

theorem execLsaExpire_keeps {adr : BitVec 7} {ser : BitVec 64} {s t : State} (h : execLsaExpire adr ser s = .next t) :
    s.Keeps Dev.besidesFab t :=
  nextDev_keeps (fun d => by
    dsimp only
    split
    · split <;> simp
    · rfl) h

theorem execRouteCompute_keeps {s t : State} (h : execRouteCompute s = .next t) : s.Keeps Dev.besidesLinks t :=
  nextDev_keeps (fun d => by
    dsimp only
    split <;> rfl) h

theorem execE2eGapTimeout_keeps {a cl : Nat} {s t : State} (h : execE2eGapTimeout a cl s = .next t) : s.Keeps Dev.besidesLinks t :=
  nextDev_keeps (fun d => by
    dsimp only
    split
    · split <;> simp
    · rfl) h

theorem execE2eResendTimeout_keeps {a cl : Nat} {s t : State} (h : execE2eResendTimeout a cl s = .next t) : s.Keeps Dev.besidesLinks t :=
  nextDev_keeps (fun d => by
    dsimp only
    split
    · rfl
    · split <;> simp) h

theorem execTickFrameReceive_keeps {link : LinkNo} {nbr : BitVec 7} {cnt : BitVec 48} {x1 x2 x3 x4 : Int} {al : Bool} {s t : State}
    (h : execTickFrameReceive link nbr cnt x1 x2 x3 x4 al s = .next t) : s.Keeps Dev.besidesLinks t :=
  nextDev_keeps (fun d => by
    dsimp only
    repeat' split
    all_goals simp only [Dev.besidesLinks_fab, Dev.besidesLinks_setFld, Dev.besidesLinks_modLink]) h

theorem execFabSource_keeps {s t : State} (h : execFabSource s = .next t) : s.Keeps Dev.besidesLinks t :=
  nextDev_keeps (fun d => by
    have adopt (a : Nat) : (d.adoptSource a).besidesLinks = d.besidesLinks := rfl
    split
    · rfl
    · split
      · exact adopt _
      · split
        · exact adopt _
        · rfl) h

theorem State.Keeps.besidesFab {s t : State} (h : s.Keeps Dev.besidesLinks t) : s.Keeps Dev.besidesFab t :=
  ⟨h.1, h.2.1, Dev.besidesFab_of_links h.2.2⟩

/-- A command that keeps the device besides the fabric changes the fields of the fabric alone. -/
theorem State.Keeps.eq_withFab {s t : State} (h : s.Keeps Dev.besidesFab t) :
    t = s.withDev { s.dev with
      regs := t.dev.regs, ctl := t.dev.ctl, que := t.dev.que, hlt := t.dev.hlt, fab := t.dev.fab, pair := t.dev.pair
      out := t.dev.out, free := t.dev.free } := by
  obtain ⟨hhbm, hpending, hdev⟩ := h
  have hdev : t.dev = { s.dev with
      regs := t.dev.regs, ctl := t.dev.ctl, que := t.dev.que, hlt := t.dev.hlt, fab := t.dev.fab, pair := t.dev.pair
      out := t.dev.out, free := t.dev.free } :=
    congrArg (fun k : Dev => { k with
      regs := t.dev.regs, ctl := t.dev.ctl, que := t.dev.que, hlt := t.dev.hlt, fab := t.dev.fab, pair := t.dev.pair
      out := t.dev.out, free := t.dev.free }) hdev
  rw [State.withDev, ← hdev, ← hhbm, ← hpending]

/-! ### The Ethernet ports -/

/-- The device without the ports, the tunnels over them, and what their reports go through. -/
def Dev.besidesPorts (d : Dev) : Dev := { d.besidesLinks with eth := {}, age := {} }

theorem Dev.besidesPorts_of_links {d e : Dev} (h : e.besidesLinks = d.besidesLinks) : e.besidesPorts = d.besidesPorts :=
  congrArg (fun k : Dev => { k with eth := {}, age := {} }) h

@[simp] theorem Dev.besidesPorts_setFlag (d : Dev) (f : Fld) (i : Nat) (b : Bool) : (d.setFlag f i b).besidesPorts = d.besidesPorts := (rfl)
@[simp] theorem Dev.besidesPorts_setFld (d : Dev) (f : Fld) (i v : Nat) : (d.setFld f i v).besidesPorts = d.besidesPorts := (rfl)
@[simp] theorem Dev.besidesPorts_bump (d : Dev) (f : Fld) (i n : Nat) : (d.bump f i n).besidesPorts = d.besidesPorts := (rfl)
@[simp] theorem Dev.besidesPorts_age (d : Dev) (x : Age) : ({ d with age := x } : Dev).besidesPorts = d.besidesPorts := (rfl)
@[simp] theorem Dev.besidesPorts_eth (d : Dev) (x : Eth) : ({ d with eth := x } : Dev).besidesPorts = d.besidesPorts := (rfl)
@[simp] theorem Dev.besidesPorts_pair (d : Dev) (x : Pair) : ({ d with pair := x } : Dev).besidesPorts = d.besidesPorts := (rfl)

@[simp] theorem Dev.besidesPorts_lanesLock (d : Dev) (ls : List Nat) (b : Bool) : (d.lanesLock ls b).besidesPorts = d.besidesPorts :=
  foldl_keeps (keep := Dev.besidesPorts) (fun d _ => d.besidesPorts_setFld ..) ls d

@[simp] theorem Dev.besidesPorts_trainLanes (d : Dev) (ls : List Nat) : (d.trainLanes ls).besidesPorts = d.besidesPorts :=
  (foldl_keeps (keep := Dev.besidesPorts) (fun d l => d.besidesPorts_bump Fld.hltLaneEyeTrains l 1) _ _).trans (d.besidesPorts_age _)

theorem Dev.besidesPorts_pfcOn (d : Dev) (q p quanta : Nat) : (d.pfcOn q p quanta).besidesPorts = d.besidesPorts := by
  unfold Dev.pfcOn
  dsimp only
  repeat' split
  all_goals rfl

theorem Dev.besidesPorts_announce (d : Dev) (x : Svc) : (d.announce x).besidesPorts = d.besidesPorts := by
  unfold Dev.announce
  split <;> rfl

theorem Dev.besidesPorts_portRise (d : Dev) (p : Nat) : (d.portRise p).besidesPorts = d.besidesPorts :=
  (foldl_keeps (fun d q => d.besidesPorts_pfcOn q p 0xFFFF) _ _).trans (by simp)

theorem Dev.besidesPorts_portFall (d : Dev) (p : Nat) : (d.portFall p).besidesPorts = d.besidesPorts := by
  unfold Dev.portFall
  dsimp only
  split
  · rfl
  · rw [Dev.besidesPorts_trainLanes, foldl_keeps fun d j => Dev.besidesPorts_of_links (d.besidesLinks_linkDown (8 + j) 2)]
    simp

theorem execEthPortLinkUp_keeps {p : Nat} {s t : State} (h : execEthPortLinkUp p s = .next t) : s.Keeps Dev.besidesPorts t :=
  nextDev_keeps (fun d => by
    split
    · exact d.besidesPorts_portRise p
    · rfl) h

theorem execEthPortLinkDown_keeps {p : Nat} {s t : State} (h : execEthPortLinkDown p s = .next t) : s.Keeps Dev.besidesPorts t :=
  nextDev_keeps (fun d => by
    split
    · exact d.besidesPorts_portFall p
    · rfl) h

theorem execPcieLinkDown_keeps {s t : State} (h : execPcieLinkDown s = .next t) : s.Keeps Dev.besidesPorts t :=
  nextDev_keeps (fun d => d.besidesPorts_trainLanes _) h

theorem execPfcFrameReceive_keeps {p : Nat} {e : BitVec 8} {qs : List (BitVec 16)} {s t : State}
    (h : execPfcFrameReceive p e qs s = .next t) : s.Keeps Dev.besidesPorts t :=
  nextDev_keeps (fun d => by
    split
    · exact foldl_keeps (keep := Dev.besidesPorts) (fun d _ => d.besidesPorts_eth _) _ d
    · rfl) h

theorem execPfcRepeat_keeps {p : Nat} {s t : State} (h : execPfcRepeat p s = .next t) : s.Keeps Dev.besidesPorts t :=
  nextDev_keeps (fun d => foldl_keeps (fun d q => d.besidesPorts_pfcOn q p 0xFFFF) _ d) h

theorem execArpRequestReceive_keeps {p : Nat} {v6 : Bool} {a : BitVec 128} {s t : State}
    (h : execArpRequestReceive p v6 a s = .next t) : s.Keeps Dev.besidesPorts t :=
  nextDev_keeps (fun d => by
    split
    · exact d.besidesPorts_announce _
    · rfl) h

theorem execArpRepeat_keeps {s t : State} (h : execArpRepeat s = .next t) : s.Keeps Dev.besidesPorts t :=
  nextDev_keeps (fun d => by
    have round (xs : List Svc) (x : Pair) : (xs.foldl Dev.announce { d with pair := x }).besidesPorts = d.besidesPorts :=
      (foldl_keeps Dev.besidesPorts_announce xs _).trans (d.besidesPorts_pair x)
    split
    · split
      · exact round ..
      · split
        · exact round ..
        · rfl
    · rfl) h

theorem execQueueReset_keeps {q cause : Nat} {s t : State} (h : execQueueReset q cause s = .next t) : s.Keeps Dev.besidesPorts t :=
  nextDev_keeps (fun d => by split <;> rfl) h

/-- A command that keeps the device besides the ports changes the fields of the ports alone. -/
theorem State.Keeps.eq_withPorts {s t : State} (h : s.Keeps Dev.besidesPorts t) :
    t = s.withDev { s.dev with
      regs := t.dev.regs, ctl := t.dev.ctl, que := t.dev.que, fab := t.dev.fab, pair := t.dev.pair, eth := t.dev.eth
      age := t.dev.age, out := t.dev.out, free := t.dev.free } := by
  obtain ⟨hhbm, hpending, hdev⟩ := h
  have hdev : t.dev = { s.dev with
      regs := t.dev.regs, ctl := t.dev.ctl, que := t.dev.que, fab := t.dev.fab, pair := t.dev.pair, eth := t.dev.eth
      age := t.dev.age, out := t.dev.out, free := t.dev.free } :=
    congrArg (fun k : Dev => { k with
      regs := t.dev.regs, ctl := t.dev.ctl, que := t.dev.que, fab := t.dev.fab, pair := t.dev.pair, eth := t.dev.eth
      age := t.dev.age, out := t.dev.out, free := t.dev.free }) hdev
  rw [State.withDev, ← hdev, ← hhbm, ← hpending]

/-! ### Motion -/

/-- The device without the motion controls, the register writes that wait, and what reports go through. -/
def Dev.besidesMot (d : Dev) : Dev := { d with regs := [], regw := [], ctl := {}, que := {}, hlt := {}, mot := [] }

@[simp] theorem Dev.besidesMot_setFld (d : Dev) (f : Fld) (i v : Nat) : (d.setFld f i v).besidesMot = d.besidesMot := (rfl)
@[simp] theorem Dev.besidesMot_setFlag (d : Dev) (f : Fld) (i : Nat) (b : Bool) : (d.setFlag f i b).besidesMot = d.besidesMot := (rfl)
@[simp] theorem Dev.besidesMot_bump (d : Dev) (f : Fld) (i n : Nat) : (d.bump f i n).besidesMot = d.besidesMot := (rfl)
@[simp] theorem Dev.besidesMot_modMot (d : Dev) (n : Nat) (g : Mot → Mot) : (d.modMot n g).besidesMot = d.besidesMot := (rfl)
@[simp] theorem Dev.besidesMot_modReel (d : Dev) (n i : Nat) (g : Reel → Reel) : (d.modReel n i g).besidesMot = d.besidesMot := (rfl)
@[simp] theorem Dev.besidesMot_setMot (d : Dev) (n st : Nat) : (d.setMot n st).besidesMot = d.besidesMot := (rfl)
@[simp] theorem Dev.besidesMot_queueWrite (d : Dev) (off : Nat) (v : Word32) : (d.queueWrite off v).besidesMot = d.besidesMot := (rfl)
@[simp] theorem Dev.besidesMot_postEvent (d : Dev) (c b i : Nat) (l : List Word64) : (d.postEvent c b i l).besidesMot = d.besidesMot := (rfl)

@[simp] theorem Dev.besidesMot_queDropWrite (d : Dev) (q : Nat) (b : List Byte) : (d.queDropWrite q b).besidesMot = d.besidesMot := by
  obtain ⟨k, r, e⟩ := d.queDropWrite_frame q b
  rw [e]
  rfl

@[simp] theorem Dev.besidesMot_cellar (d : Dev) (b i c : Nat) (p : List Byte) : (d.cellar b i c p).besidesMot = d.besidesMot := by
  obtain ⟨k, r, h, e⟩ := d.cellar_frame b i c p
  rw [e]
  rfl

@[simp] theorem Dev.besidesMot_motEvent (d : Dev) (code n : Nat) (rest : List Word64) (b : Bool) :
    (d.motEvent code n rest b).besidesMot = d.besidesMot := by
  unfold Dev.motEvent
  dsimp only
  split <;> simp

@[simp] theorem Dev.besidesMot_motCmdWrite (d : Dev) (n v : Nat) : (d.motCmdWrite n v).besidesMot = d.besidesMot := by
  unfold Dev.motCmdWrite
  split <;> simp

@[simp] theorem Dev.besidesMot_windingMeasure (d : Dev) (n : Nat) : (d.windingMeasure n).besidesMot = d.besidesMot :=
  foldl_keeps (keep := Dev.besidesMot) (fun d x => by
    dsimp only
    split <;> simp) _ d

@[simp] theorem Dev.besidesMot_alignBegin (d : Dev) (n : Nat) : (d.alignBegin n).besidesMot = d.besidesMot := by
  simp [Dev.alignBegin]

@[simp] theorem Dev.besidesMot_forcedBegin (d : Dev) (n : Nat) : (d.forcedBegin n).besidesMot = d.besidesMot := by
  simp [Dev.forcedBegin]

@[simp] theorem Dev.besidesMot_enterHold (d : Dev) (n : Nat) : (d.enterHold n).besidesMot = d.besidesMot := by
  simp [Dev.enterHold]

@[simp] theorem Dev.besidesMot_controlledStop (d : Dev) (n : Nat) : (d.controlledStop n).besidesMot = d.besidesMot := by
  unfold Dev.controlledStop
  dsimp only
  split <;> simp

/-- A write of MOTn_CMD keeps everything besides the motion. -/
theorem motCmdWrite_keeps {n v : Nat} {s t : State} (h : nextDev s (fun d => d.motCmdWrite n v) = .next t) : s.Keeps Dev.besidesMot t :=
  nextDev_keeps (fun d => d.besidesMot_motCmdWrite n v) h

theorem execAlignEnd_keeps {n : Nat} {s t : State} (h : execAlignEnd n s = .next t) : s.Keeps Dev.besidesMot t :=
  nextDev_keeps (fun d => by split <;> simp) h

theorem execHandOver_keeps {n reel : Nat} {s t : State} (h : execHandOver n reel s = .next t) : s.Keeps Dev.besidesMot t :=
  nextDev_keeps (fun d => by
    dsimp only
    repeat' split
    all_goals simp) h

theorem execStartFail_keeps {n reel : Nat} {s t : State} (h : execStartFail n reel s = .next t) : s.Keeps Dev.besidesMot t :=
  nextDev_keeps (fun d => by
    dsimp only
    repeat' split
    all_goals simp) h

theorem execStartRetry_keeps {n : Nat} {s t : State} (h : execStartRetry n s = .next t) : s.Keeps Dev.besidesMot t :=
  nextDev_keeps (fun d => by
    dsimp only
    split
    · split <;> simp
    · rfl) h

theorem execStopHold_keeps {n : Nat} {s t : State} (h : execStopHold n s = .next t) : s.Keeps Dev.besidesMot t :=
  nextDev_keeps (fun d => by
    dsimp only
    split <;> simp) h

theorem execClampClear_keeps {n : Nat} {s t : State} (h : execClampClear n s = .next t) : s.Keeps Dev.besidesMot t :=
  nextDev_keeps (fun d => by split <;> simp) h

theorem execMotReacquired_keeps {n reel : Nat} {s t : State} (h : execMotReacquired n reel s = .next t) : s.Keeps Dev.besidesMot t :=
  nextDev_keeps (fun d => by
    dsimp only
    repeat' split
    all_goals simp) h

theorem execOnTrack_keeps {n : Nat} {s t : State} (h : execOnTrack n s = .next t) : s.Keeps Dev.besidesMot t :=
  nextDev_keeps (fun d => by split <;> simp) h

theorem execServoLossStop_keeps {n : Nat} {s t : State} (h : execServoLossStop n s = .next t) : s.Keeps Dev.besidesMot t :=
  nextDev_keeps (fun d => by
    dsimp only
    split <;> simp) h

/-! ### The obligation -/

theorem motion_keeps {c : Instr} {s t : State}
    (hc : ∃ n reel dir, c ∈ [Instr.motStart n dir, .motStop n, .motFloat n, .motClearFault n, .alignEnd n, .handOver n reel,
      .startFail n reel, .startRetry n, .stopHold n, .clampClear n, .motReacquired n reel, .onTrack n, .servoLossStop n])
    (h : exec c s = .next t) : s.Keeps Dev.besidesMot t := by
  obtain ⟨n, reel, dir, hc⟩ := hc
  simp only [List.mem_cons, List.not_mem_nil, or_false] at hc
  rcases hc with rfl | rfl | rfl | rfl | rfl | rfl | rfl | rfl | rfl | rfl | rfl | rfl | rfl
  · exact motCmdWrite_keeps (h : execMotStart n dir s = _)
  · exact motCmdWrite_keeps (h : execMotStop n s = _)
  · exact motCmdWrite_keeps (h : execMotFloat n s = _)
  · exact motCmdWrite_keeps (h : execMotClearFault n s = _)
  · exact execAlignEnd_keeps h
  · exact execHandOver_keeps h
  · exact execStartFail_keeps h
  · exact execStartRetry_keeps h
  · exact execStopHold_keeps h
  · exact execClampClear_keeps h
  · exact execMotReacquired_keeps h
  · exact execOnTrack_keeps h
  · exact execServoLossStop_keeps h

theorem fabric_keeps {c : Instr} {s t : State}
    (hc : ∃ l f a cl ser adr q src tk adj nbr cnt x1 x2 x3 x4 al cause, c ∈ [Instr.frameReceive l f, .linkReplay l, .fabLinkUp l,
      .fabLinkDown l cause, .lsaReceive l ser adr q src tk adj, .lsaRefresh, .lsaExpire adr ser, .routeCompute, .e2eGapTimeout a cl,
      .e2eResendTimeout a cl, .tickFrameReceive l nbr cnt x1 x2 x3 x4 al, .fabSource])
    (h : exec c s = .next t) : s.Keeps Dev.besidesFab t := by
  obtain ⟨l, f, a, cl, ser, adr, q, src, tk, adj, nbr, cnt, x1, x2, x3, x4, al, cause, hc⟩ := hc
  simp only [List.mem_cons, List.not_mem_nil, or_false] at hc
  rcases hc with rfl | rfl | rfl | rfl | rfl | rfl | rfl | rfl | rfl | rfl | rfl | rfl
  · exact (execFrameReceive_keeps h).besidesFab
  · exact (execLinkReplay_keeps h).besidesFab
  · exact (execFabLinkUp_keeps h).besidesFab
  · exact (execFabLinkDown_keeps h).besidesFab
  · exact execLsaReceive_keeps h
  · exact (execLsaRefresh_keeps h).besidesFab
  · exact execLsaExpire_keeps h
  · exact (execRouteCompute_keeps h).besidesFab
  · exact (execE2eGapTimeout_keeps h).besidesFab
  · exact (execE2eResendTimeout_keeps h).besidesFab
  · exact (execTickFrameReceive_keeps h).besidesFab
  · exact (execFabSource_keeps h).besidesFab

theorem ports_keep {c : Instr} {s t : State}
    (hc : ∃ p v6 a e qs q cause, c ∈ [Instr.ethPortLinkUp p, .ethPortLinkDown p, .pcieLinkDown, .pfcFrameReceive p e qs, .pfcRepeat p,
      .arpRequestReceive p v6 a, .arpRepeat, .queueReset q cause])
    (h : exec c s = .next t) : s.Keeps Dev.besidesPorts t := by
  obtain ⟨p, v6, a, e, qs, q, cause, hc⟩ := hc
  simp only [List.mem_cons, List.not_mem_nil, or_false] at hc
  rcases hc with rfl | rfl | rfl | rfl | rfl | rfl | rfl | rfl
  · exact execEthPortLinkUp_keeps h
  · exact execEthPortLinkDown_keeps h
  · exact execPcieLinkDown_keeps h
  · exact execPfcFrameReceive_keeps h
  · exact execPfcRepeat_keeps h
  · exact execArpRequestReceive_keeps h
  · exact execArpRepeat_keeps h
  · exact execQueueReset_keeps h

/-- Settles O7: each unit's commands keep the device with that unit's fields blanked. -/
theorem unitsLeaveTheRest : Obligations.UnitsLeaveTheRest := by
  refine ⟨fun c s t hc h => ?_, fun c s t h => ⟨fun hc => (fabric_keeps hc h).eq_withFab, fun hc => (ports_keep hc h).eq_withPorts⟩⟩
  obtain ⟨hhbm, hpending, hdev⟩ := motion_keeps hc h
  have kept {K : Type} (part : Dev → K) : part t.dev.besidesMot = part s.dev.besidesMot := congrArg part hdev
  exact ⟨fun a => by rw [hhbm], fun k => by rw [hhbm], hpending, kept Dev.tick, kept Dev.clk, kept Dev.rte, kept Dev.ses, kept Dev.sch,
    kept Dev.dru, kept Dev.spn, kept Dev.pool, kept Dev.fab, kept Dev.pair, kept Dev.mem, kept Dev.pins, kept Dev.rd⟩

end Sys2Proof.Machine
end

section
/-! SUPPORT. The tick boundary: what it shows in the status registers (R349, R375, R398), and what it makes of the tick counter (R7, R411). -/

namespace Sys2Proof.Machine

/-! ### The status registers -/

/-- A fold of steps that keep something, each for the elements of the list, keeps it. -/
theorem foldl_keeps_mem {S K α : Type} {keep : S → K} {g : S → α → S} {xs : List α} (hg : ∀ a ∈ xs, ∀ d, keep (g d a) = keep d) (d : S) :
    keep (xs.foldl g d) = keep d := by
  induction xs generalizing d with
  | nil => rfl
  | cons a xs ih => exact (ih (fun b hb => hg b (List.mem_cons_of_mem _ hb)) _).trans (hg a (List.mem_cons_self ..) d)

/-- The device without its registers. -/
def Dev.besidesRegs (d : Dev) : Dev := { d with regs := [] }

@[simp] theorem Dev.besidesRegs_setFld (d : Dev) (f : Fld) (i v : Nat) : (d.setFld f i v).besidesRegs = d.besidesRegs := (rfl)

theorem Dev.besidesRegs_showSpan (d : Dev) (i : Nat) : (d.showSpan i).besidesRegs = d.besidesRegs := by
  unfold Dev.showSpan
  simp only [Dev.besidesRegs_setFld]

/-- The free buffers of each pool, in POOL_Pp_FREE (R375). -/
def Dev.showPools (d : Dev) (ps : List Nat) : Dev := ps.foldl (fun d p => d.setFld Fld.poolPFreeCount p (d.poolAt p).free) d

@[simp] theorem Dev.besidesRegs_showPools (d : Dev) (ps : List Nat) : (d.showPools ps).besidesRegs = d.besidesRegs :=
  foldl_keeps (keep := Dev.besidesRegs) (fun d _ => d.besidesRegs_setFld ..) ps d

/-- What the span sets and the transports show. -/
def Dev.showUnits (d : Dev) : Dev :=
  tps.foldl (fun d t => d.setFld Fld.tpWrStatRetired t (chCount (d.retired t))) ((List.range 16).foldl Dev.showSpan d)

/-- What the rings show. -/
def Dev.showRings (d : Dev) : Dev :=
  d.ctl.rings.foldl (fun d (r, g) => (d.setFld Fld.pciRingStatSqHead r g.sqHead).setFld Fld.pciRingStatCqTail r g.cqTail) d

/-- What buffer memory shows. -/
def Dev.showMem (h : Hbm) (d : Dev) : Dev :=
  (d.setFld Fld.memFillStatPages 0 (min (2 ^ 24 - 1) h.markedPages)).setFld Fld.memMashStatUsed 0 d.mem.mash.length

theorem showRegs_eq (h : Hbm) (d : Dev) :
    showRegs (h, d) = (h, (((d.setFld Fld.hltTickLoCount 0 d.tick.toNat).showMem h).showPools (List.range 5)).showUnits.showRings) := rfl

@[simp] theorem Dev.besidesRegs_showMem (h : Hbm) (d : Dev) : (d.showMem h).besidesRegs = d.besidesRegs := by
  simp only [Dev.showMem, Dev.besidesRegs_setFld]

@[simp] theorem Dev.besidesRegs_showUnits (d : Dev) : d.showUnits.besidesRegs = d.besidesRegs :=
  (foldl_keeps (keep := Dev.besidesRegs) (fun d _ => d.besidesRegs_setFld ..) _ _).trans
    (foldl_keeps (keep := Dev.besidesRegs) Dev.besidesRegs_showSpan _ d)

@[simp] theorem Dev.besidesRegs_showRings (d : Dev) : d.showRings.besidesRegs = d.besidesRegs :=
  foldl_keeps (keep := Dev.besidesRegs) (fun d x => by simp only [Dev.besidesRegs_setFld]) _ d

theorem Dev.besidesRegs_showRegs (h : Hbm) (d : Dev) : (showRegs (h, d)).2.besidesRegs = d.besidesRegs := by
  simp only [showRegs_eq, Dev.besidesRegs_showRings, Dev.besidesRegs_showUnits, Dev.besidesRegs_showPools, Dev.besidesRegs_showMem,
    Dev.besidesRegs_setFld]

/-- What does not look at the registers sees the same of two devices that differ in them alone. -/
theorem Dev.eq_of_besidesRegs {K : Type} (part : Dev → K) {d e : Dev} (hpart : ∀ d : Dev, part d.besidesRegs = part d)
    (h : e.besidesRegs = d.besidesRegs) : part e = part d := by rw [← hpart e, h, hpart]

theorem Dev.eq_withRegs {d e : Dev} (h : e.besidesRegs = d.besidesRegs) : e = { d with regs := e.regs } :=
  congrArg (fun k : Dev => { k with regs := e.regs }) h

/-- A register that is none of a span set, a transport or a ring. -/
def BesidesTables (r : RegId) (j : Nat) : Prop := 0x00A00000 ≤ r.offset j ∧ (r.offset j < 0x01101020 ∨ 0x01105020 ≤ r.offset j)

theorem Dev.fld_showSpan {g : Fld} {j : Nat} (hg : BesidesTables g.reg j) (d : Dev) {i : Nat} (hi : i < 16) :
    (d.showSpan i).fld g j = d.fld g j := by
  have other (f : Fld) (hf : f.reg.info.base < 0x00702000 ∧ f.reg.info.stride = 0x40) (d : Dev) (v : Nat) :
      (d.setFld f i v).fld g j = d.fld g j := by
    refine Dev.fld_setFld_other d v ?_
    obtain ⟨hlow, -⟩ := hg
    obtain ⟨hbase, hstride⟩ := hf
    have hoff : f.reg.offset i = f.reg.info.base + i * 0x40 := by rw [RegId.offset, hstride]
    omega
  unfold Dev.showSpan
  simp only
  rw [other _ (by decide), other _ (by decide), other _ (by decide), other _ (by decide), other _ (by decide), other _ (by decide),
    other _ (by decide), other _ (by decide), other _ (by decide), other _ (by decide)]

theorem Dev.fld_showUnits {g : Fld} {j : Nat} (hg : BesidesTables g.reg j) (d : Dev) : d.showUnits.fld g j = d.fld g j := by
  have transport (t : Nat) (ht : t ∈ tps) (d : Dev) : (d.setFld Fld.tpWrStatRetired t (chCount (d.retired t))).fld g j = d.fld g j := by
    refine Dev.fld_setFld_other d _ ?_
    obtain ⟨hlow, -⟩ := hg
    have := List.mem_range.1 ht
    rw [show RegId.offset Fld.tpWrStatRetired.reg t = 0x0090002C + t * 0x100 from rfl]
    omega
  exact (foldl_keeps_mem (keep := fun d : Dev => d.fld g j) transport _).trans
    (foldl_keeps_mem (keep := fun d : Dev => d.fld g j) (fun i hi d => d.fld_showSpan hg (List.mem_range.1 hi)) d)

theorem Dev.fld_showRings {g : Fld} {j : Nat} (hg : BesidesTables g.reg j) {d : Dev} (hrings : ∀ x ∈ d.ctl.rings, x.1 < 256) :
    d.showRings.fld g j = d.fld g j := by
  have ring (d : Dev) {r : Nat} (hr : r < 256) (f : Fld) (hf : f.reg = .pciRingStat) (v : Nat) : (d.setFld f r v).fld g j = d.fld g j := by
    refine Dev.fld_setFld_other d v ?_
    obtain ⟨-, hring⟩ := hg
    rw [hf, show RegId.offset .pciRingStat r = 0x01101020 + r * 0x40 from rfl]
    omega
  exact foldl_keeps_mem (keep := fun d : Dev => d.fld g j)
    (fun x hx d => (ring _ (hrings x hx) _ rfl _).trans (ring d (hrings x hx) _ rfl _)) d

/-- A pool's register shows what is free of it, whatever is shown of the pools after it. -/
theorem Dev.fld_showPools_self (d : Dev) {ps : List Nat} {p : Nat} (hp : p ∈ ps) :
    (d.showPools ps).fld Fld.poolPFreeCount p = (d.poolAt p).free % 2 ^ 29 := by
  induction ps using List.reverseRecOn with
  | nil => simp at hp
  | append_singleton ps q ih =>
    have hpools : (d.showPools ps).poolAt = d.poolAt := 
      Dev.eq_of_besidesRegs Dev.poolAt (fun _ => rfl) (d.besidesRegs_showPools ps)
    rw [show d.showPools (ps ++ [q]) = (d.showPools ps).setFld Fld.poolPFreeCount q ((d.showPools ps).poolAt q).free from List.foldl_append,
      hpools]
    by_cases e : p = q
    · subst e
      exact Dev.fld_setFld_self _ _ _ _ (by decide)
    · have hoff : RegId.poolPFree.offset p ≠ RegId.poolPFree.offset q := by
        simp only [RegId.offset, RegId.info]
        omega
      rw [Dev.fld_setFld_other _ _ hoff]
      exact ih (by simpa [e] using hp)

/-- A register besides POOL_Pp_FREE is as it was when the pools have been shown. -/
theorem Dev.fld_showPools_other (d : Dev) (ps : List Nat) {g : Fld} {j : Nat} (hg : 0x00F00000 ≤ g.reg.offset j) (hps : ∀ p ∈ ps, p < 5) :
    (d.showPools ps).fld g j = d.fld g j :=
  foldl_keeps_mem (keep := fun d : Dev => d.fld g j) (fun p hp d => Dev.fld_setFld_other d _ (by
    have := hps p hp
    rw [show RegId.offset Fld.poolPFreeCount.reg p = 0x00E01008 + p * 0x10 from rfl]
    omega)) d

theorem Dev.fld_showRegs {g : Fld} {j : Nat} (hg : BesidesTables g.reg j) (h : Hbm) {d : Dev} (hrings : ∀ x ∈ d.ctl.rings, x.1 < 256) :
    (showRegs (h, d)).2.fld g j =
      (((d.setFld Fld.hltTickLoCount 0 d.tick.toNat).showMem h).showPools (List.range 5)).fld g j := by
  have hkept : (((d.setFld Fld.hltTickLoCount 0 d.tick.toNat).showMem h).showPools (List.range 5)).showUnits.besidesRegs = d.besidesRegs := by
    simp only [Dev.besidesRegs_showUnits, Dev.besidesRegs_showPools, Dev.besidesRegs_showMem, Dev.besidesRegs_setFld]
  have hctl : (((d.setFld Fld.hltTickLoCount 0 d.tick.toNat).showMem h).showPools (List.range 5)).showUnits.ctl = d.ctl :=
    Dev.eq_of_besidesRegs Dev.ctl (fun _ => rfl) hkept
  rw [showRegs_eq]
  exact (Dev.fld_showRings hg (by rwa [hctl])).trans (Dev.fld_showUnits hg _)

theorem Dev.fld_showRegs_tick (h : Hbm) {d : Dev} (hrings : ∀ x ∈ d.ctl.rings, x.1 < 256) :
    (showRegs (h, d)).2.fld Fld.hltTickLoCount = d.tick.toNat % 2 ^ 32 := by
  rw [Dev.fld_showRegs (by unfold BesidesTables; decide) h hrings, Dev.fld_showPools_other _ _ (by decide) (by simp),
    Dev.showMem, Dev.fld_setFld_other _ _ (by decide), Dev.fld_setFld_other _ _ (by decide)]
  exact Dev.fld_setFld_self _ _ _ _ (by decide)

theorem Dev.fld_showRegs_free (h : Hbm) {d : Dev} (hrings : ∀ x ∈ d.ctl.rings, x.1 < 256) {p : Nat} (hp : p < 5) :
    (showRegs (h, d)).2.fld Fld.poolPFreeCount p = (d.poolAt p).free % 2 ^ 29 := by
  have hg : BesidesTables Fld.poolPFreeCount.reg p := by
    unfold BesidesTables
    rw [show RegId.offset Fld.poolPFreeCount.reg p = 0x00E01008 + p * 0x10 from rfl]
    omega
  rw [Dev.fld_showRegs hg h hrings, Dev.fld_showPools_self _ (List.mem_range.2 hp)]
  rfl

end Sys2Proof.Machine
end

section
/-! SUPPORT. The tick counter over a boundary (R7, R411): what runs before it advances leaves it and the count to adopt, and what runs after
it leaves it. -/

namespace Sys2Proof.Machine

/-! ### Before the counter advances -/

/-- The tick counter, the count that alignment adopts, and the register writes that wait. -/
def Dev.clock (d : Dev) : TickCount × Option TickCount × List (Nat × Word32) := (d.tick, d.fab.adopt, d.regw)

@[simp] theorem Dev.clock_setFld (d : Dev) (f : Fld) (i v : Nat) : (d.setFld f i v).clock = d.clock := (rfl)
@[simp] theorem Dev.clock_setFlag (d : Dev) (f : Fld) (i : Nat) (b : Bool) : (d.setFlag f i b).clock = d.clock := (rfl)
@[simp] theorem Dev.clock_bump (d : Dev) (f : Fld) (i n : Nat) : (d.bump f i n).clock = d.clock := (rfl)
@[simp] theorem Dev.clock_pins (d : Dev) (x : Pins) : ({ d with pins := x } : Dev).clock = d.clock := (rfl)
@[simp] theorem Dev.clock_hlt (d : Dev) (x : Hlt) : ({ d with hlt := x } : Dev).clock = d.clock := (rfl)
@[simp] theorem Dev.clock_age (d : Dev) (x : Age) : ({ d with age := x } : Dev).clock = d.clock := (rfl)
@[simp] theorem Dev.clock_modQue (d : Dev) (q : Nat) (g : QueSt → QueSt) : (d.modQue q g).clock = d.clock := (rfl)
@[simp] theorem Dev.clock_modRing (d : Dev) (r : Nat) (g : Ring → Ring) : (d.modRing r g).clock = d.clock := (rfl)
@[simp] theorem Dev.clock_modSpan (d : Dev) (i : Nat) (g : Span → Span) : (d.modSpan i g).clock = d.clock := (rfl)
@[simp] theorem Dev.clock_modMot (d : Dev) (i : Nat) (g : Mot → Mot) : (d.modMot i g).clock = d.clock := (rfl)
@[simp] theorem Dev.clock_setMot (d : Dev) (i st : Nat) : (d.setMot i st).clock = d.clock := (rfl)
@[simp] theorem Dev.clock_avsSend (d : Dev) (n : Nat) : (d.avsSend n).clock = d.clock := (rfl)
@[simp] theorem Dev.clock_queEmpty (d : Dev) (q : Nat) : (d.queEmpty q).clock = d.clock := (rfl)
@[simp] theorem Dev.clock_ringNext (d : Dev) (r : Nat) : (d.ringNext r).clock = d.clock := (rfl)
@[simp] theorem Dev.clock_ringDoorbells (d : Dev) (r : Nat) : (d.ringDoorbells r).clock = d.clock := (rfl)
@[simp] theorem Dev.clock_cellarAhead (d : Dev) (b i c : Nat) (p : List Byte) : (d.cellarAhead b i c p).clock = d.clock := (rfl)

theorem Dev.MemOnly.clock {d e : Dev} (h : d.MemOnly e) : e.clock = d.clock := by
  obtain ⟨_, _, _, _, _, rfl⟩ := h
  rfl

/-- A completion leaves the clock. -/
theorem Dev.clock_of_completion {d e : Dev} (h : ∃ k o, e = { d with ctl := k, out := o }) : e.clock = d.clock := by
  obtain ⟨_, _, rfl⟩ := h
  rfl

theorem Dev.clock_thermBoundary (d : Dev) (sensors : List Int) : (d.thermBoundary sensors).clock = d.clock := by
  unfold Dev.thermBoundary
  cases sensors with
  | nil => rfl
  | cons x xs => simp only [Dev.clock_pins, Dev.clock_setFld, Dev.clock_setFlag]

theorem Dev.clock_avsBoundary (d : Dev) (ok : Bool) : (d.avsBoundary ok).clock = d.clock := by
  unfold Dev.avsBoundary
  dsimp only
  repeat' split
  all_goals simp only [Dev.clock_avsSend, Dev.clock_setFld, Dev.clock_setFlag, Dev.clock_hlt]

theorem Dev.clock_journal (d : Dev) (slot kind : Nat) (ahead : Bool) : (d.journal slot kind ahead).clock = d.clock := by
  unfold Dev.journal
  split
  · rfl
  · rw [Dev.clock_modSpan]
    split
    · exact d.clock_cellarAhead ..
    · exact (d.cellar_memOnly ..).clock

theorem Dev.clock_brakeNow (d : Dev) (n : Nat) (c : BrakeCause) : (d.brakeNow n c).clock = d.clock := by
  unfold Dev.brakeNow
  split
  · rfl
  · simp only [Dev.clock_modMot, Dev.clock_setMot]

theorem Dev.clock_powerFailBoundary (d : Dev) : d.powerFailBoundary.clock = d.clock := by
  have journals (xs : List Nat) (d : Dev) : (xs.foldl (fun d x => d.journal x 7 true) d).clock = d.clock :=
    foldl_keeps (keep := Dev.clock) (fun d x => d.clock_journal x 7 true) xs d
  have brakes (xs : List Nat) (d : Dev) : (xs.foldl (fun d i => d.brakeNow i .power) d).clock = d.clock :=
    foldl_keeps (keep := Dev.clock) (fun d i => d.clock_brakeNow i .power) xs d
  unfold Dev.powerFailBoundary
  split
  · rfl
  · dsimp only
    simp only [apply_ite Dev.clock, ite_self, brakes, journals, Dev.clock_setFlag, Dev.clock_hlt, Dev.clock_cellarAhead]
    rfl

theorem Dev.clock_lockBoundary (d : Dev) : d.lockBoundary.clock = d.clock := by
  unfold Dev.lockBoundary
  split
  · exact (foldl_keeps (keep := Dev.clock) (fun d _ => d.clock_setFld ..) _ _).trans rfl
  · rfl

theorem Dev.clock_testRefused (d : Dev) : d.testRefused.clock = d.clock := by
  unfold Dev.testRefused
  split
  · simp only [Dev.clock_setFlag, Dev.clock_age]
  · rfl

/-- With no register write waiting, the writes' turn leaves the clock. -/
theorem Dev.clock_regBoundary {d : Dev} (h : d.regw = []) : d.regBoundary.clock = d.clock := by
  rw [Dev.regBoundary, Dev.clock_testRefused, h, List.foldl_nil]
  simp [Dev.clock, h]

theorem Dev.clock_queReset (d : Dev) (q cause : Nat) : (d.queReset q cause).clock = d.clock := by
  unfold Dev.queReset
  dsimp only
  rw [(Dev.postBoth_memOnly ..).clock]
  simp only [Dev.clock_bump, Dev.clock_modQue, Dev.clock_queEmpty]

theorem Dev.clock_queBoundary (d : Dev) : d.queBoundary.clock = d.clock :=
  foldl_keeps (keep := Dev.clock) (fun d x => by
    dsimp only
    split
    · exact d.clock_queReset ..
    · split
      · exact d.clock_queEmpty _
      · rfl) _ d

theorem Dev.clock_poisonTake (d : Dev) (r n : Nat) : (d.poisonTake r n).clock = d.clock := by
  induction n generalizing d with
  | zero => rfl
  | succ n ih =>
    unfold Dev.poisonTake
    split
    · refine (ih _).trans ?_
      split
      · simp only [Dev.clock_of_completion (Dev.adminDone_frame ..), Dev.clock_bump, Dev.clock_modRing, Dev.clock_ringNext]
      · simp only [Dev.clock_of_completion (Dev.postCpl_frame ..), Dev.clock_bump, Dev.clock_modRing, Dev.clock_ringNext]
    · rfl

theorem Dev.clock_doorbellBoundary (d : Dev) : d.doorbellBoundary.clock = d.clock :=
  foldl_keeps (keep := Dev.clock) (fun d r => (Dev.clock_poisonTake ..).trans (d.clock_ringDoorbells r)) _ d

theorem Dev.clock_applyBoundary {d : Dev} (h : d.regw = []) : d.applyBoundary.clock = d.clock := by
  have hregw : d.lockBoundary.regw = [] := (congrArg (·.2.2) d.clock_lockBoundary).trans h
  rw [Dev.applyBoundary, Dev.clock_doorbellBoundary, Dev.clock_queBoundary, Dev.clock_regBoundary hregw, Dev.clock_lockBoundary]

/-! ### The counter advances -/

theorem Dev.advance_tick (d : Dev) : d.advance.tick = d.fab.adopt.getD d.tick + 1 := by
  unfold Dev.advance
  cases h : d.fab.adopt <;> rfl

/-- The boundary's work up to the new tick. -/
def Dev.untilAdvance (d : Dev) (i : TickIn) : Dev :=
  (((d.thermBoundary i.sensors).avsBoundary i.avsOk).powerFailBoundary).applyBoundary.advance

theorem Dev.untilAdvance_tick {d : Dev} (i : TickIn) (h : d.regw = []) : (d.untilAdvance i).tick = d.fab.adopt.getD d.tick + 1 := by
  have hclock : ((d.thermBoundary i.sensors).avsBoundary i.avsOk).powerFailBoundary.clock = d.clock := by
    rw [Dev.clock_powerFailBoundary, Dev.clock_avsBoundary, Dev.clock_thermBoundary]
  have happly := (Dev.clock_applyBoundary ((congrArg (·.2.2) hclock).trans h)).trans hclock
  simp only [Dev.clock, Prod.mk.injEq] at happly
  obtain ⟨htick, hadopt, -⟩ := happly
  rw [Dev.untilAdvance, Dev.advance_tick, htick, hadopt]

/-! ### After the counter has advanced -/

theorem Dev.MemOnly.tick {d e : Dev} (h : d.MemOnly e) : e.tick = d.tick := congrArg Prod.fst h.clock

@[simp] theorem Dev.releaseAll_tick (d : Dev) (hs : List (BitVec 32)) (o : Nat) : (d.releaseAll hs o).tick = d.tick :=
  foldl_keeps (keep := Dev.tick) (fun d h => d.release_tick h o) hs d

theorem Dev.postPositions_tick (d : Dev) (n : Nat) (es : List PosEntry) : (d.postPositions n es).tick = d.tick :=
  foldl_keeps (keep := Dev.tick) (fun d _ => d.postEvent_tick ..) es d

theorem Dev.dropSession_tick (d : Dev) (n : Nat) : (d.dropSession n).tick = d.tick := by
  unfold Dev.dropSession
  split
  · rfl
  · split
    · rfl
    · dsimp only
      split <;> simp [Dev.postPositions_tick]

@[simp] theorem Dev.warmSessions_tick (d : Dev) : d.warmSessions.tick = d.tick := by
  unfold Dev.warmSessions
  dsimp only
  split
  · exact foldl_keeps (keep := Dev.tick) (fun d n => d.modSes_tick n _) _ d
  · exact foldl_keeps (keep := Dev.tick) (fun d n => (Dev.modSes_tick ..).trans (d.dropSession_tick n)) _ d

@[simp] theorem Dev.warmWindows_tick (d : Dev) : d.warmWindows.tick = d.tick := Dev.releaseAll_tick ..

theorem Dev.freeStored_tick (d : Dev) (id : Nat) : (d.freeStored id).tick = d.tick := by
  unfold Dev.freeStored
  split <;> simp

theorem Dev.freeOrig_tick (d : Dev) (id : Nat) : (d.freeOrig id).tick = d.tick := by
  unfold Dev.freeOrig
  split <;> simp

theorem Dev.dropChunk_tick (d : Dev) (id why : Nat) : (d.dropChunk id why).tick = d.tick := by
  have hchunk (g : Chunk → Chunk) : ((((d.dropJob { rd := false, id := id }).freeStored id).freeOrig id).modChunk id g).tick = d.tick := by
    rw [Dev.modChunk_tick, Dev.freeOrig_tick, Dev.freeStored_tick]
    rfl
  unfold Dev.dropChunk
  dsimp only
  split
  · exact (Dev.modSes_tick ..).trans (hchunk _)
  · exact hchunk _

theorem Dev.warmChunk_tick (d : Dev) (x : Nat × Chunk) : (d.warmChunk x).tick = d.tick := by
  unfold Dev.warmChunk
  cases x.2.st
  case filling | closed | queued | running | cipher | ready => exact d.dropChunk_tick ..
  all_goals rfl

theorem Dev.warmCore_tick (d : Dev) : d.warmCore.tick = d.tick := by
  have chunks (xs : List (Nat × Chunk)) (d : Dev) : (xs.foldl Dev.warmChunk d).tick = d.tick :=
    foldl_keeps (keep := Dev.tick) Dev.warmChunk_tick xs d
  unfold Dev.warmCore
  dsimp only
  rw [Dev.setFlag_tick]
  split <;> simp [chunks]

theorem resetTake_tick (hd : Hbm × Dev) : (resetTake hd).2.tick = hd.2.tick := by
  unfold resetTake
  dsimp only
  split
  · rfl
  · split
    · rfl
    · split
      · rfl
      · split <;> rfl

theorem mashFlushAll_tick (hd : Hbm × Dev) : (mashFlushAll hd).2.tick = hd.2.tick :=
  foldl_keeps (keep := fun hd : Hbm × Dev => hd.2.tick) (fun hd e => (mashOut_memOnly hd e).tick) _ hd

theorem resetGo_tick (hd : Hbm × Dev) : (resetGo hd).2.tick = hd.2.tick := by
  unfold resetGo
  dsimp only
  split
  · split
    · exact mashFlushAll_tick hd
    · split
      · exact hd.2.warmCore_tick
      · rfl
  · rfl

theorem Dev.resetRelease_tick (d : Dev) : d.resetRelease.tick = d.tick := by
  unfold Dev.resetRelease
  dsimp only
  split
  · split <;> rfl
  · rfl

theorem resetBoundary_tick (hd : Hbm × Dev) : (resetBoundary hd).2.tick = hd.2.tick :=
  (Dev.resetRelease_tick _).trans ((resetGo_tick _).trans (resetTake_tick hd))

theorem Dev.writeCpl_tick (d : Dev) (r n : Nat) (c : Cpl) : (d.writeCpl r n c).tick = d.tick :=
  congrArg Prod.fst (Dev.clock_of_completion (d.writeCpl_frame r n c))

theorem Dev.writeItem_tick (d : Dev) (r : Nat) (entries : List (List Byte)) : (d.writeItem r entries).tick = d.tick :=
  (Dev.writeCpl_tick ..).trans ((Dev.modRing_tick ..).trans
    (foldl_keeps (keep := Dev.tick) (fun d _ => d.emit_tick _) entries.zipIdx d))

theorem Dev.copyGap_tick (d : Dev) : d.copyGap.tick = d.tick := by
  unfold Dev.copyGap
  split
  · split
    · exact d.writeCpl_tick ..
    · rfl
  · rfl

theorem Dev.copyRec_tick (d : Dev) (bs : List Byte) : (d.copyRec bs).tick = d.tick := by
  unfold Dev.copyRec
  split
  · dsimp only
    split
    · exact d.copyGap_tick
    · split
      · rw [Dev.writeItem_tick, Dev.copyGap_tick]
      · exact d.copyGap_tick
  · rfl

theorem Dev.journalShown_tick (d : Dev) (payload : List Byte) : (d.journalShown payload).tick = d.tick := by
  unfold Dev.journalShown
  split <;> rfl

theorem Dev.writeRec_tick (d : Dev) (r : CellarRec) : (d.writeRec r).tick = d.tick := by
  unfold Dev.writeRec
  dsimp only
  repeat' split
  all_goals simp [Dev.journalShown_tick, Dev.copyRec_tick, Dev.mramPut]

theorem Dev.writePinned_tick (d : Dev) (r : CellarRec) : (d.writePinned r).tick = d.tick :=
  congrArg Prod.fst (show (d.writePinned r).clock = d.clock by
    simp only [Dev.writePinned, Dev.mramPut, Dev.clock_hlt, Dev.clock_setFld])

theorem Dev.nextRec_tick {d e : Dev} {r : CellarRec} (h : d.nextRec = some (e, r)) : e.tick = d.tick := by
  unfold Dev.nextRec at h
  split at h
  · cases h
    rfl
  · split at h
    · cases h
    · dsimp only at h
      split at h <;> · cases h; rfl

theorem Dev.cellarGo_tick (n : Nat) (d : Dev) : (Dev.cellarGo n d).1.tick = d.tick := by
  induction n generalizing d with
  | zero => rfl
  | succ n ih =>
    unfold Dev.cellarGo
    split
    · exact (ih _).trans (d.writePinned_tick _)
    · split
      next h => exact (ih _).trans ((Dev.writeRec_tick ..).trans (Dev.nextRec_tick h))
      · rfl

theorem Dev.cellarTick_tick (d : Dev) : d.cellarTick.tick = d.tick := by
  have hgo : (Dev.cellarGo cellarMax d.copyGap).1.tick = d.tick := (Dev.cellarGo_tick ..).trans d.copyGap_tick
  unfold Dev.cellarTick
  split
  · rfl
  · dsimp only
    split
    · rwa [Dev.bump_tick]
    · exact hgo

theorem Dev.poolRequest_tick (d : Dev) (size owner releaser : Nat) (upgrade : Bool) (use : PoolUse) :
    (d.poolRequest size owner releaser upgrade use).tick = d.tick := by
  unfold Dev.poolRequest
  split <;> rfl

theorem Dev.schTick_tick (d : Dev) : d.schTick.tick = d.tick := by
  unfold Dev.schTick
  split
  · rfl
  · unfold Dev.schRound
    dsimp only
    refine (foldl_keeps (keep := Dev.tick) (fun d s => (Dev.poolRequest_tick ..).trans (d.modCmd_tick ..)) _ _).trans ?_
    simp only [apply_ite Dev.tick, Dev.bump_tick, ite_self]

theorem Dev.askOriginal_tick (d : Dev) (n : Nat) : (d.askOriginal n).tick = d.tick := by
  unfold Dev.askOriginal
  split
  · rfl
  · dsimp only
    repeat' split
    all_goals simp [Dev.poolRequest_tick]

theorem Dev.chunkAsks_tick (d : Dev) : d.chunkAsks.tick = d.tick := foldl_keeps (keep := Dev.tick) Dev.askOriginal_tick _ d

theorem showRegs_tick (hd : Hbm × Dev) : (showRegs hd).2.tick = hd.2.tick :=
  Dev.eq_of_besidesRegs Dev.tick (fun _ => rfl) (Dev.besidesRegs_showRegs hd.1 hd.2)

/-! ### The obligation -/

/-- While the core is held in reset, and no register write waits, a boundary advances the counter from the count to adopt. -/
theorem boundary_tick_of_held (i : TickIn) {hd : Hbm × Dev} (hheld : hd.2.coreHeld = true) (hregw : hd.2.regw = []) :
    (boundary i hd).2.tick = hd.2.fab.adopt.getD hd.2.tick + 1 := by
  have hlate (b : Bool) (d : Dev) : (if b then d else d.cellarTick).tick = d.tick := by
    split
    · rfl
    · exact d.cellarTick_tick
  have hcore (d : Dev) : (if d.coreHeld then d else d.schTick.chunkAsks).tick = d.tick := by
    split
    · rfl
    · rw [Dev.chunkAsks_tick, Dev.schTick_tick]
  unfold boundary
  dsimp only
  rw [if_pos hheld, showRegs_tick]
  exact (hcore _).trans ((hlate _ _).trans ((resetBoundary_tick _).trans (Dev.untilAdvance_tick i hregw)))

/-- A boundary ends by showing what it has left. -/
theorem boundary_eq_showRegs (i : TickIn) (hd : Hbm × Dev) : ∃ left, boundary i hd = showRegs left := by
  unfold boundary
  exact ⟨_, rfl⟩

theorem exec_tickBoundary (i : TickIn) (s : State) (hvaon : s.dev.hlt.vaon = true) :
    exec (.tickBoundary i) s = .next (s.withHd (boundary i s.hd)) :=
  congrArg Host.Outcome.next (if_pos hvaon : (if s.dev.hlt.vaon then s.withHd (boundary i s.hd) else s) = _)

/-- Settles O60: a boundary ends by showing the state it leaves, and only `Dev.advance` moves the tick counter. -/
theorem tickBoundaries : Obligations.TickBoundaries := by
  intro i s
  refine ⟨fun hvaon => ?_, fun hvaon => ?_, fun h d hrings => ?_, fun hvaon hheld hregw => ?_, fun d => ⟨d.advance_tick, rfl, rfl⟩⟩
  · exact congrArg Host.Outcome.next (if_neg (by simp [hvaon]) : (if s.dev.hlt.vaon then s.withHd (boundary i s.hd) else s) = s)
  · obtain ⟨⟨h, d⟩, hleft⟩ := boundary_eq_showRegs i s.hd
    exact ⟨h, d, by rw [exec_tickBoundary i s hvaon, hleft]; rfl⟩
  · exact ⟨rfl, Dev.eq_withRegs (Dev.besidesRegs_showRegs h d), Dev.fld_showRegs_tick h hrings,
      fun p hp => Dev.fld_showRegs_free h hrings hp⟩
  · exact ⟨_, exec_tickBoundary i s hvaon, withHd_pending .., boundary_tick_of_held i hheld hregw⟩

end Sys2Proof.Machine
end

section
/-! SUPPORT. Capsules as they arrive (R27, R488): what receiving one keeps, the checks from its receipt on, and the command that one
which passes them becomes. -/

namespace Sys2Proof.Machine

/-! ### What receiving a capsule keeps -/

/-- Packets received on a connection change the connections, the held messages and what has been emitted. -/
theorem Dev.recvPackets_frame (d : Dev) (c n : Nat) :
    ∃ e o cs, d.recvPackets c n = { d with eth := e, out := o, rte := { d.rte with conns := cs } } := by
  unfold Dev.recvPackets
  split
  · exact ⟨d.eth, d.out, d.rte.conns, rfl⟩
  · simp only
    split
    · exact ⟨d.eth, d.out, _, rfl⟩
    · split
      · exact ⟨d.eth, d.out, _, rfl⟩
      · obtain ⟨e, o, cs, h⟩ := Dev.emitOn_frame (d.modConn c _) c (.ack c _)
        exact ⟨e, o, cs, h.trans rfl⟩

theorem received_frame (d : Dev) (src : Src) :
    ∃ k e o cs, received d src = { d with ctl := k, eth := e, out := o, rte := { d.rte with conns := cs } } := by
  unfold received
  split
  · exact ⟨_, d.eth, d.out, d.rte.conns, rfl⟩
  · obtain ⟨e, o, cs, h⟩ := d.recvPackets_frame (srcKey src) 1
    exact ⟨d.ctl, e, o, cs, h⟩

theorem parsed_frame (d : Dev) (src : Src) (cap : List Byte) :
    ∃ k e o cs l, parsed d src cap =
      { d with ctl := k, eth := e, out := o, rte := { d.rte with conns := cs }, ses := { d.ses with cache := l } } := by
  obtain ⟨k, e, o, cs, h⟩ := received_frame d src
  unfold parsed
  split
  · exact ⟨k, e, o, cs, _, by rw [h]; rfl⟩
  · exact ⟨k, e, o, cs, d.ses.cache, h⟩

@[simp] theorem received_tagInUse (d : Dev) (src : Src) (key : Nat) (tag : BitVec 16) :
    (received d src).tagInUse key tag = d.tagInUse key tag := by
  obtain ⟨k, e, o, cs, h⟩ := received_frame d src
  rw [h]; rfl

@[simp] theorem received_ses (d : Dev) (src : Src) : (received d src).ses = d.ses := by
  obtain ⟨k, e, o, cs, h⟩ := received_frame d src
  rw [h]

@[simp] theorem received_sesOf (d : Dev) (src : Src) (key n : Nat) : (received d src).sesOf key n = d.sesOf key n := by
  rw [Dev.sesOf, received_ses, Dev.sesOf]

@[simp] theorem parsed_parseCheck (d : Dev) (src : Src) (cap : List Byte) (key op : Nat) (c : List Byte) :
    (parsed d src cap).parseCheck key op c = d.parseCheck key op c := by
  obtain ⟨k, e, o, cs, l, h⟩ := parsed_frame d src cap
  rw [h]; rfl

@[simp] theorem parsed_cmdByTag (d : Dev) (src : Src) (cap : List Byte) (key : Nat) (tag : BitVec 16) :
    (parsed d src cap).cmdByTag key tag = d.cmdByTag key tag := by
  obtain ⟨k, e, o, cs, l, h⟩ := parsed_frame d src cap
  rw [h]; rfl

@[simp] theorem parsed_cmds (d : Dev) (src : Src) (cap : List Byte) : (parsed d src cap).rte.cmds = d.rte.cmds := by
  obtain ⟨k, e, o, cs, l, h⟩ := parsed_frame d src cap
  rw [h]

@[simp] theorem parsed_nextCmd (d : Dev) (src : Src) (cap : List Byte) : (parsed d src cap).rte.nextCmd = d.rte.nextCmd := by
  obtain ⟨k, e, o, cs, l, h⟩ := parsed_frame d src cap
  rw [h]

@[simp] theorem parsed_pushes (d : Dev) (src : Src) (cap : List Byte) : (parsed d src cap).rte.pushes = d.rte.pushes := by
  obtain ⟨k, e, o, cs, l, h⟩ := parsed_frame d src cap
  rw [h]

@[simp] theorem parsed_clk (d : Dev) (src : Src) (cap : List Byte) : (parsed d src cap).clk = d.clk := by
  obtain ⟨k, e, o, cs, l, h⟩ := parsed_frame d src cap
  rw [h]

@[simp] theorem parsed_sessions (d : Dev) (src : Src) (cap : List Byte) : (parsed d src cap).ses.sessions = d.ses.sessions := by
  obtain ⟨k, e, o, cs, l, h⟩ := parsed_frame d src cap
  rw [h]

/-- Taking a submission entry of a ring emits nothing. -/
theorem parsed_out_of_ring (d : Dev) {src : Src} (cap : List Byte) (hring : isRing (srcKey src) = true) : (parsed d src cap).out = d.out := by
  simp only [parsed, received, hring, if_true]
  split <;> rfl

/-! ### The checks -/

/-- What becomes of a capsule from its receipt on (R27, R488): the checks from the length of the header on, and the action of one
that passes them. -/
def afterReceipt (hd : Hbm × Dev) (key tenant : Nat) (c : List Byte) (op : Nat) (act : Dev → Nat → Nat → Dev) : Hbm × Dev :=
  if c.length < 4 then (hd.1, hd.2.bump Fld.rteBadCapsuleCntCount)
  else if c.length < 64 then (hd.1, hd.2.refuse key (responseBytes stFieldInvalid (capTag c) 0 0 0 0 0))
  else if hd.2.tagInUse key (capTag c) ∧ op ≠ opPush then
    (hd.1, hd.2.refuse key (responseBytes stTagInUse (capTag c) (capSession c) 0 0 0 0))
  else
    let n := sesNo key (capSession c)
    let hd := if (hd.2.sesOf key n).isSome then useContext hd n else hd
    match hd.2.parseCheck key op c with
    | some st => (hd.1, hd.2.refuse key (responseBytes st (capTag c) (capSession c) 0 0 0 0))
    | none => (hd.1, act hd.2 key tenant)

section Arrival
variable {h : Hbm} {d : Dev} {src : Src} {c : List Byte} {op tenant : Nat} {act : Dev → Nat → Nat → Dev}
variable (htenant : d.srcTenant (srcKey src) = some tenant) (hnamed : capNamed (srcKey src) op c = true)
include htenant hnamed

theorem takeCapsule_long (hconn : isRing (srcKey src) = false) (hlong : 64 < c.length) :
    takeCapsule (h, d) src c op act = (h, d.nakInvalid (srcKey src)) := by
  simp [takeCapsule, htenant, hnamed, hconn, hlong]

theorem takeCapsule_no_slot (hconn : isRing (srcKey src) = false) (hshort : c.length ≤ 64)
    (hslots : d.maxCmds ≤ d.slotsUsed (srcKey src)) :
    takeCapsule (h, d) src c op act = (h, d.emitOn (srcKey src) (.rnrNak (srcKey src) (d.fld Fld.rteConnCfgRnrTimer))) := by
  simp [takeCapsule, htenant, hnamed, hconn, hslots, Nat.not_lt.2 hshort]

theorem takeCapsule_conn (hconn : isRing (srcKey src) = false) (hshort : c.length ≤ 64)
    (hslots : d.slotsUsed (srcKey src) < d.maxCmds) :
    takeCapsule (h, d) src c op act = afterReceipt (h, received d src) (srcKey src) tenant c op act := by
  simp only [takeCapsule, htenant, hnamed, hconn, received]
  simp [Nat.not_lt.2 hshort, Nat.not_le.2 hslots]
  rfl

theorem takeCapsule_ring (hring : isRing (srcKey src) = true) (hmay : d.ringMay (srcKey src - 16384) = true) :
    takeCapsule (h, d) src c op act = afterReceipt (h, received d src) (srcKey src) tenant c op act := by
  simp only [takeCapsule, htenant, hnamed, hring, received]
  simp [hmay]
  rfl

theorem takeCapsule_arrived (harrive : mayArrive d src c) :
    takeCapsule (h, d) src c op act = afterReceipt (h, received d src) (srcKey src) tenant c op act := by
  obtain ⟨hlen, -, hring, hconn⟩ := harrive
  cases hkey : isRing (srcKey src)
  · exact takeCapsule_conn htenant hnamed hkey hlen.le (hconn hkey)
  · exact takeCapsule_ring htenant hnamed hkey (hring hkey)

end Arrival

theorem useContext_of_cached (h : Hbm) {d : Dev} {n : Nat} (hses : (tget d.ses.sessions n).isSome = true)
    (hcache : d.ses.cache.contains n = true) : useContext (h, d) n = (h, d.cacheUse n) := by
  obtain ⟨x, hx⟩ := Option.isSome_iff_exists.1 hses
  simp only [useContext, hx, hcache, if_true]

/-- With the context of its session at hand, a capsule's later checks see the device that `parsed` describes (R22, R341). -/
theorem useContext_received (h : Hbm) {d : Dev} {src : Src} {cap : List Byte} (hctx : contextAtHand d src cap) :
    (if ((received d src).sesOf (srcKey src) (sesNo (srcKey src) (capSession cap))).isSome
      then useContext (h, received d src) (sesNo (srcKey src) (capSession cap)) else (h, received d src)) = (h, parsed d src cap) := by
  rw [parsed, received_sesOf]
  split
  next hopen =>
    refine useContext_of_cached h ?_ (by rw [received_ses]; exact hctx hopen)
    rw [received_ses]
    obtain ⟨x, hx⟩ := Option.isSome_iff_exists.1 hopen
    rw [(Option.filter_eq_some_iff.1 hx).1, Option.isSome_some]
  next => rfl

section Checked
variable {h : Hbm} {d : Dev} {src : Src} {c : List Byte} {op tenant : Nat} {act : Dev → Nat → Nat → Dev}

theorem afterReceipt_tiny (key : Nat) (hlen : c.length < 4) :
    afterReceipt (h, d) key tenant c op act = (h, d.bump Fld.rteBadCapsuleCntCount) := if_pos hlen

theorem afterReceipt_short (key : Nat) (hlen : 4 ≤ c.length) (hshort : c.length < 64) :
    afterReceipt (h, d) key tenant c op act = (h, d.refuse key (responseBytes 0x11 (capTag c) 0 0 0 0 0)) := by
  rw [afterReceipt, if_neg (by omega), if_pos hshort]; rfl

theorem afterReceipt_tag_in_use {key : Nat} (hlen : c.length = 64) (htag : d.tagInUse key (capTag c) = true) (hop : op ≠ opPush) :
    afterReceipt (h, d) key tenant c op act = (h, d.refuse key (responseBytes 0x12 (capTag c) (capSession c) 0 0 0 0)) := by
  rw [afterReceipt, if_neg (by omega), if_neg (by omega), if_pos ⟨htag, hop⟩]; rfl

theorem received_tag_free {key : Nat} (htag : d.tagInUse key (capTag c) = false ∨ op = opPush) :
    ¬ ((received d src).tagInUse key (capTag c) = true ∧ op ≠ opPush) := by
  rw [received_tagInUse]
  rintro ⟨huse, hop⟩
  exact htag.elim (fun h => by simp [h] at huse) hop

variable (hlen : c.length = 64) (htag : d.tagInUse (srcKey src) (capTag c) = false ∨ op = opPush) (hctx : contextAtHand d src c)
include hlen htag hctx

theorem afterReceipt_parse_fails {st : Nat} (hparse : d.parseCheck (srcKey src) op c = some st) :
    afterReceipt (h, received d src) (srcKey src) tenant c op act =
      (h, (parsed d src c).refuse (srcKey src) (responseBytes st (capTag c) (capSession c) 0 0 0 0)) := by
  simp only [afterReceipt, if_neg (show ¬ c.length < 4 by omega), if_neg (show ¬ c.length < 64 by omega), if_neg (received_tag_free htag),
    useContext_received h hctx, parsed_parseCheck, hparse]

theorem afterReceipt_passes (hparse : d.parseCheck (srcKey src) op c = none) :
    afterReceipt (h, received d src) (srcKey src) tenant c op act = (h, act (parsed d src c) (srcKey src) tenant) := by
  simp only [afterReceipt, if_neg (show ¬ c.length < 4 by omega), if_neg (show ¬ c.length < 64 by omega), if_neg (received_tag_free htag),
    useContext_received h hctx, parsed_parseCheck, hparse]

end Checked

/-! ### A capsule that is accepted -/

theorem capNamed_of_opcode {key op : Nat} {c : List Byte} (hop : op ≠ 0xFF) (h : capOpcode c = op) : capNamed key op c = true := by
  simp [capNamed, hop, h]

/-- An accepted capsule's command, under the next number (R33, R36). -/
theorem Dev.accept_command (d : Dev) (key tenant op : Nat) (c : List Byte) :
    ∃ k, tget (d.accept key tenant op c).rte.cmds d.rte.nextCmd = some k ∧ k.src = key ∧ k.tag = capTag c ∧ k.op = op ∧
      k.session = (if op = opAbort then 0 else sesNo key (capSession c)) ∧ k.tenant = tenant ∧ k.cap = c ∧ k.arr = d.clk + 1 ∧
      k.adm = none ∧ k.answered = false :=
  ⟨_, tget_tput_self .., rfl, rfl, rfl, rfl, rfl, rfl, rfl, rfl, rfl⟩

theorem Dev.accept_others (d : Dev) (key tenant op : Nat) (c : List Byte) {j : Nat} (hj : j ≠ d.rte.nextCmd) :
    tget (d.accept key tenant op c).rte.cmds j = tget d.rte.cmds j := tget_tput_other _ _ hj

/-- The session of an accepted capsule hands out the ordinals that it takes (R33). -/
theorem Dev.accept_ordinals (d : Dev) (key tenant op : Nat) (c : List Byte) (n : Nat) :
    (tget (d.accept key tenant op c).ses.sessions n).map (·.next) = (tget d.ses.sessions n).map fun x =>
      if n = (if op = opAbort then 0 else sesNo key (capSession c)) then x.next + ordinalsOf op c else x.next := by
  have hses : (d.accept key tenant op c).ses.sessions = tmod d.ses.sessions (if op = opAbort then 0 else sesNo key (capSession c))
      fun x => { x with next := x.next + ordinalsOf op c } := rfl
  rw [hses]
  by_cases hn : n = if op = opAbort then 0 else sesNo key (capSession c)
  · simp only [← hn, tget_tmod_self, Option.map_map, if_true]; rfl
  · simp only [tget_tmod_other _ _ hn, if_neg hn]

/-- What a queued capsule that passes its checks leaves (R33, R36, R488); an ABORT's has session 0 and takes no ordinals (R62). -/
theorem queueCapsule_accepted (h : Hbm) {d : Dev} {src : Src} {c : List Byte} {op : Nat} (harrive : mayArrive d src c)
    (hnamed : capNamed (srcKey src) op c = true) (htag : d.tagInUse (srcKey src) (capTag c) = false) (hctx : contextAtHand d src c)
    (hparse : d.parseCheck (srcKey src) op c = none) :
    ∃ e k, queueCapsule (h, d) src c op = (h, e) ∧ e.rte.nextCmd = d.rte.nextCmd + 1 ∧ tget e.rte.cmds d.rte.nextCmd = some k ∧
      k.src = srcKey src ∧ k.tag = capTag c ∧ k.op = op ∧ k.session = (if op = opAbort then 0 else sesNo (srcKey src) (capSession c)) ∧
      some k.tenant = d.srcTenant (srcKey src) ∧ k.cap = c ∧ k.arr = d.clk + 1 ∧ k.adm = none ∧ k.answered = false ∧
      (∀ j, j ≠ d.rte.nextCmd → tget e.rte.cmds j = tget d.rte.cmds j) ∧
      ∀ n, (tget e.ses.sessions n).map (·.next) = (tget d.ses.sessions n).map fun x =>
        if n = (if op = opAbort then 0 else sesNo (srcKey src) (capSession c)) then x.next + ordinalsOf op c else x.next := by
  obtain ⟨tenant, htenant⟩ := Option.isSome_iff_exists.1 harrive.2.1
  obtain ⟨k, hk, hsrc, hktag, hop, hses, hten, hcap, harr, hrest⟩ := (parsed d src c).accept_command (srcKey src) tenant op c
  rw [parsed_nextCmd] at hk
  rw [parsed_clk] at harr
  refine ⟨(parsed d src c).accept (srcKey src) tenant op c, k, ?_, by rw [← parsed_nextCmd d src c]; rfl, hk, hsrc, hktag, hop, hses,
    by rw [hten, htenant], hcap, harr, hrest.1, hrest.2, fun j hj => ?_, fun n => ?_⟩
  · exact (takeCapsule_arrived htenant hnamed harrive).trans (afterReceipt_passes harrive.1 (.inl htag) hctx hparse)
  · rw [Dev.accept_others _ _ _ _ _ (by rwa [parsed_nextCmd]), parsed_cmds]
  · rw [Dev.accept_ordinals, parsed_sessions]

/-- The rows of the capsules that wait for admission each queue their capsule under their opcode. -/
theorem exec_queuedCapsule {p : (Src → List Byte → Instr) × Nat} (hp : p ∈ queuedCapsules) {s : State} (hheld : s.dev.coreHeld = false)
    (src : Src) (cap : List Byte) : exec (p.1 src cap) s = .next (s.withHd (queueCapsule (s.hbm, s.dev) src cap p.2)) := by
  have hrow : exec (p.1 src cap) s = nextHd s fun hd => queueCapsule hd src cap p.2 := by
    simp only [queuedCapsules, List.mem_cons, List.not_mem_nil, or_false] at hp
    rcases hp with rfl | rfl | rfl | rfl | rfl | rfl | rfl | rfl | rfl <;> rfl
  rw [hrow, nextHd_ok s _ hheld]

theorem queuedCapsules_opcode : ∀ p ∈ queuedCapsules, p.2 ≠ 0xFF ∧ p.2 ≠ opAbort ∧ p.2 ≠ opPush := by decide

/-- Settles O23: a capsule that passes its checks goes to `Dev.accept`, on a device that its receipt has changed only in connections,
rings and the context cache. -/
theorem capsulesAreAccepted : Obligations.CapsulesAreAccepted := by
  intro p hp s src cap hheld harrive hop htag hctx hparse
  obtain ⟨hlisted, habort, -⟩ := queuedCapsules_opcode p hp
  obtain ⟨e, k, he, hnext, hk, hsrc, hktag, hkop, hses, hrest⟩ :=
    queueCapsule_accepted s.hbm harrive (capNamed_of_opcode hlisted hop) htag hctx hparse
  simp only [if_neg habort] at hses hrest
  exact ⟨s.withHd (s.hbm, e), k, by rw [exec_queuedCapsule hp hheld, he], rfl, rfl, hnext, hk, hsrc, hktag, hkop, hses, hrest⟩

/-! ### A capsule that is refused -/

/-- Settles O24: one clause for each check, in the order of R27 and R488. -/
theorem capsulesAreRefused : Obligations.CapsulesAreRefused := by
  refine ⟨fun p hp s src cap tenant hheld htenant hnamed => ?_, fun s cap hheld => ⟨?_, ?_⟩, fun d key bs => rfl⟩
  · obtain ⟨-, -, hpush⟩ := queuedCapsules_opcode p hp
    have hexec {hd : Hbm × Dev} (h : takeCapsule (s.hbm, s.dev) src cap p.2 (fun d key tenant => d.accept key tenant p.2 cap) = hd) :
        exec (p.1 src cap) s = .next (s.withHd hd) := by
      rw [exec_queuedCapsule hp hheld, queueCapsule, h]
    refine ⟨fun hconn hlong => ?_, fun hconn hshort hslots => ?_, fun hconn hslots htiny => ?_, fun hconn hslots hhead hshort => ?_,
      fun harrive htag => ?_, fun st harrive htag hctx hparse => ?_⟩
    · exact hexec (takeCapsule_long htenant hnamed hconn hlong)
    · exact hexec (takeCapsule_no_slot htenant hnamed hconn hshort hslots)
    · exact hexec ((takeCapsule_conn htenant hnamed hconn (by omega) hslots).trans (afterReceipt_tiny _ htiny))
    · exact hexec ((takeCapsule_conn htenant hnamed hconn hshort.le hslots).trans (afterReceipt_short _ hhead hshort))
    · exact hexec ((takeCapsule_arrived htenant hnamed harrive).trans
        (afterReceipt_tag_in_use harrive.1 (by rwa [received_tagInUse]) hpush))
    · exact hexec ((takeCapsule_arrived htenant hnamed harrive).trans (afterReceipt_parse_fails harrive.1 (.inl htag) hctx hparse))
  · intro src hsrc harrive hnamed htag hctx
    obtain ⟨tenant, htenant⟩ := Option.isSome_iff_exists.1 harrive.2.1
    have hrow : exec (.capsuleOpcodeInvalid src cap) s = nextHd s fun hd => takeCapsule hd src cap 0xFF fun d _ _ => d := by
      simp only [exec, execCapsuleOpcodeInvalid, if_neg hsrc]
    rw [hrow, nextHd_ok s _ hheld, takeCapsule_arrived htenant hnamed harrive, afterReceipt_parse_fails harrive.1 (.inl htag) hctx rfl]
    rfl
  · intro hrun hmay hop htag
    have hrow : exec (.capsuleOpcodeInvalid (.ring 0) cap) s =
        nextHd s fun hd => adminTake hd (.capsuleOpcodeInvalid (.ring 0) cap) 0xFF cap id := rfl
    have hnamed : adminNamed 0xFF cap = true := by simp [adminNamed, hop]
    have hfree : (s.dev.ringNext 0).adminTag (capTag cap) = false := htag
    rw [hrow, nextHd_ok s _ hheld]
    simp [adminTake, hrun, hmay, hnamed, hop, hfree, State.withHd]
    rfl

end Sys2Proof.Machine
end

section
/-! SUPPORT. ABORT (R62, R70, R86): what a response marks answered, and that a write command which fails keeps its entry. -/

namespace Sys2Proof.Machine

@[simp] theorem isSome_tget_tmod {α : Type} (t : Table α) (k : Nat) (f : α → α) (j : Nat) :
    (tget (tmod t k f) j).isSome = (tget t j).isSome := by
  by_cases h : j = k
  · subst h; simp
  · rw [tget_tmod_other t f h]

/-! ### A write command that fails keeps its entry -/

/-- A command has an entry. -/
def Dev.hasCmd (d : Dev) (j : Nat) : Bool := (tget d.rte.cmds j).isSome

@[simp] theorem Dev.hasCmd_modCmd (d : Dev) (id : Nat) (f : Cmd → Cmd) (j : Nat) : (d.modCmd id f).hasCmd j = d.hasCmd j :=
  isSome_tget_tmod ..

@[simp] theorem Dev.releaseAll_rte (d : Dev) (hs : List (BitVec 32)) (o : Nat) : (d.releaseAll hs o).rte = d.rte :=
  foldl_keeps (keep := Dev.rte) (fun d h => Dev.release_rte d h o) hs d

@[simp] theorem Dev.hasCmd_releaseAll (d : Dev) (hs : List (BitVec 32)) (o j : Nat) : (d.releaseAll hs o).hasCmd j = d.hasCmd j := by
  rw [Dev.hasCmd, Dev.releaseAll_rte, Dev.hasCmd]

@[simp] theorem Dev.hasCmd_modChunk (d : Dev) (c : Nat) (f : Chunk → Chunk) (j : Nat) : (d.modChunk c f).hasCmd j = d.hasCmd j := rfl

@[simp] theorem Dev.hasCmd_withdrawOpen (d : Dev) (id : Nat) (drain : Bool) (j : Nat) :
    (d.withdrawOpen id drain).hasCmd j = d.hasCmd j := by
  unfold Dev.withdrawOpen
  split
  · rfl
  · simp only
    split
    · simp [Dev.hasCmd, Dev.modCmd]
    · rw [Dev.hasCmd_releaseAll, Dev.hasCmd_modCmd]

@[simp] theorem Dev.hasCmd_dropGrants (d : Dev) (id j : Nat) : (d.dropGrants id).hasCmd j = d.hasCmd j := by
  rw [Dev.dropGrants, Dev.hasCmd_releaseAll]; rfl

@[simp] theorem Dev.hasCmd_freeWindows (d : Dev) (id x keepTo j : Nat) : (d.freeWindows id x keepTo).hasCmd j = d.hasCmd j := by
  unfold Dev.freeWindows
  split
  · rfl
  · rw [Dev.hasCmd_releaseAll, Dev.hasCmd_modCmd]

@[simp] theorem Dev.hasCmd_markTorn (d : Dev) (n ord j : Nat) : (d.markTorn n ord).hasCmd j = d.hasCmd j := by
  unfold Dev.markTorn
  split
  · split <;> rfl
  · rfl

/-- A write command that fails keeps its entry, and so does every other command. -/
@[simp] theorem Dev.hasCmd_failWrite (d : Dev) (id st : Nat) (void drain : Bool) (j : Nat) :
    (d.failWrite id st void drain).hasCmd j = d.hasCmd j := by
  unfold Dev.failWrite
  split
  · rfl
  · split
    · rfl
    · simp only
      repeat' split
      all_goals simp

/-! ### The target of an ABORT -/

/-- Answering a command leaves it answered (R36). -/
theorem Dev.answer_answered {d : Dev} {id : Nat} (h : d.hasCmd id = true) (st fl a b c : Nat) :
    ∃ y, tget (d.answer id st fl a b c).rte.cmds id = some y ∧ y.answered = true := by
  obtain ⟨k, hk⟩ := Option.isSome_iff_exists.1 h
  cases hans : k.answered
  · obtain ⟨f, r, e, o, cs, g, n, q, heq⟩ := Dev.answer_frame st fl a b c hk hans
    exact ⟨{ k with answered := true }, by simp [heq, hk], rfl⟩
  · exact ⟨k, by simp [Dev.answer, hk, hans], hans⟩

theorem Dev.abortCmd_answered {d : Dev} {id : Nat} (k : Cmd) (h : d.hasCmd id = true) :
    ∃ y, tget (d.abortCmd id k).rte.cmds id = some y ∧ y.answered = true := by
  unfold Dev.abortCmd
  split
  · exact Dev.answer_answered (by rwa [Dev.hasCmd_failWrite]) ..
  · split
    · exact Dev.answer_answered (d := d.endRead id) h ..
    · exact Dev.answer_answered h ..

theorem exec_abort {s : State} (hheld : s.dev.coreHeld = false) (src : Src) (cap : List Byte) :
    exec (.abort src cap) s = .next (s.withHd (queueCapsule (s.hbm, s.dev) src cap opAbort)) :=
  (nextHd_ok s _ hheld : execAbort src cap s = _)

/-- An ABORT has no check of its session or fields (R62, R488). -/
theorem Dev.parseCheck_abort (d : Dev) (key : Nat) {c : List Byte} (h : reservedClear 0x3F c = true) : d.parseCheck key 0x3F c = none := by
  simp [Dev.parseCheck, Dev.sessionCheck, Dev.fieldsOk, h, capsuleOpcodes, opOpen, opClose, opWrite, opMark, opSync, opRead, opHint,
    opQuery, opAbort, opPush]

/-- Settles O25: an ABORT is accepted as other capsules are, and acts by what its target's tag names. -/
theorem abortEndsItsTarget : Obligations.AbortEndsItsTarget := by
  refine ⟨fun s src cap hheld harrive hop hclear htag hctx => ?_, fun d id k => ⟨fun htaken => ?_, fun hnone => ?_, fun j x htarget hx => ?_,
    fun j x htarget hx => ?_, fun j x hj hopen => ⟨?_, fun hwrite hmark hread => ?_⟩⟩⟩
  · obtain ⟨e, k, he, hnext, hk, hsrc, hktag, hkop, hses, -, hcap, harr, -, hans, hothers, hords⟩ :=
      queueCapsule_accepted s.hbm harrive (capNamed_of_opcode (by decide) hop) htag hctx (s.dev.parseCheck_abort _ hclear)
    refine ⟨s.withHd (s.hbm, e), k, by rw [exec_abort hheld, opAbort, he], rfl, rfl, hnext, hk, hsrc, hktag, hkop, hses, hcap, harr, hans,
      by rw [Cmd.target, hcap], hothers, fun n => (hords n).trans ?_⟩
    simp [ordinalsOf, opWrite, opMark]
  · have hlist : (d.rte.cmds.filter fun c => c.2.op == opAbort && ! c.2.answered && decide (c.2.arr ≤ d.clk)) = [(id, k)] := htaken
    rw [Dev.abortTick, hlist]; rfl
  · simp only [Dev.abort, hnone]; rfl
  · simp only [Dev.abort, htarget]
    exact if_pos hx
  · simp only [Dev.abort, htarget]
    exact if_neg hx
  · exact Dev.abortCmd_answered x (by rw [Dev.hasCmd, hj, Option.isSome_some])
  · have hnot : ¬ (x.op = opWrite ∨ x.op = opMark) := not_or.2 ⟨hwrite, hmark⟩
    rw [Dev.abortCmd, if_neg hnot, if_neg (show ¬ x.op = opRead from hread)]; rfl

end Sys2Proof.Machine
end

section
/-! SUPPORT. Windows (R43, R66, R67, R80): how bytes reach one, what closing it does, and the rows that bring them. -/

namespace Sys2Proof.Machine

/-! ### A window of a command -/

/-- A command with each of its windows of one grant changed. -/
def Cmd.mapWindow (k : Cmd) (gid : BitVec 32) (f : Window → Window) : Cmd :=
  { k with wr := { k.wr with wins := k.wr.wins.map fun w => if w.gid == gid then f w else w } }

theorem Dev.tget_modWindow (d : Dev) (id : Nat) (gid : BitVec 32) (f : Window → Window) :
    tget (d.modWindow id gid f).rte.cmds id = (tget d.rte.cmds id).map (·.mapWindow gid f) :=
  tget_tmod_self d.rte.cmds id (·.mapWindow gid f)

/-- A change that keeps the grant numbers finds the window of a grant changed. -/
theorem Cmd.find?_mapWindow (k : Cmd) {gid : BitVec 32} {f : Window → Window} (hf : ∀ w, (f w).gid = w.gid) :
    (k.mapWindow gid f).wr.wins.find? (·.gid == gid) = (k.wr.wins.find? (·.gid == gid)).map f := by
  have hkeep : ((fun w : Window => w.gid == gid) ∘ fun w => if w.gid == gid then f w else w) = (·.gid == gid) := by
    funext w
    simp only [Function.comp]
    split <;> simp_all
  rw [Cmd.mapWindow, List.find?_map, hkeep]
  cases hfind : k.wr.wins.find? (·.gid == gid)
  case none => rfl
  case some w =>
    have hgid : w.gid = gid := by simpa using List.find?_some hfind
    simp [hgid]

/-- After a change, a property that the change gives each window of a grant holds of all of them. -/
theorem Cmd.mapWindow_forall (k : Cmd) {gid : BitVec 32} {f : Window → Window} {P : Window → Prop} (hf : ∀ w, P (f w)) :
    ∀ x ∈ (k.mapWindow gid f).wr.wins, x.gid = gid → P x := by
  intro x hx hgid
  obtain ⟨w, -, rfl⟩ := List.mem_map.1 hx
  split
  next => exact hf w
  next hne =>
    rw [if_neg hne] at hgid
    exact absurd (beq_iff_eq.2 hgid) hne

/-- The window of a grant, if it is open, is the open window of that grant that is found first. -/
theorem find?_open {ws : List Window} {gid : BitVec 32} {w : Window} (hfind : ws.find? (·.gid == gid) = some w) (hopen : w.closed = false) :
    ws.find? (fun x => x.gid == gid && ! x.closed) = some w := by
  obtain ⟨hgid, as, bs, rfl, has⟩ := List.find?_eq_some_iff_append.1 hfind
  refine List.find?_eq_some_iff_append.2 ⟨by simp_all, as, bs, rfl, fun a ha => ?_⟩
  simp_all

@[simp] theorem bufWrite_rte (hd : Hbm × Dev) (b : BitVec 32) (off : Nat) (bs : List Byte) (poison : Bool) :
    (bufWrite hd b off bs poison).2.rte = hd.2.rte := by
  obtain ⟨r, m, c, q, h, e⟩ := bufWrite_memOnly hd b off bs poison
  rw [e]

@[simp] theorem bufWrite_clk (hd : Hbm × Dev) (b : BitVec 32) (off : Nat) (bs : List Byte) (poison : Bool) :
    (bufWrite hd b off bs poison).2.clk = hd.2.clk := by
  obtain ⟨r, m, c, q, h, e⟩ := bufWrite_memOnly hd b off bs poison
  rw [e]

/-! ### Closing a window -/

/-- The device once the bytes of a window have been counted for a tenant (R67). -/
def Dev.countReceived (d : Dev) (tenant : Nat) (w : Window) : Dev :=
  d.modTenant tenant fun t => { t with rx := (t.rx + w.bytes) % 2 ^ 64, changed := true }

@[simp] theorem Dev.countReceived_cmds (d : Dev) (tenant : Nat) (w : Window) : (d.countReceived tenant w).rte.cmds = d.rte.cmds := rfl

theorem Dev.countReceived_rx (d : Dev) (tenant : Nat) (w : Window) :
    ((d.countReceived tenant w).tenantAt tenant).rx = ((d.tenantAt tenant).rx + w.bytes) % 2 ^ 64 := by
  simp only [Dev.tenantAt, Dev.countReceived, Dev.modTenant, tgetD_tput_self]

theorem Dev.closeWindow_covered {d : Dev} {id : Nat} {w : Window} {k : Cmd} (hk : tget d.rte.cmds id = some k)
    (hgot : w.got = [(0, w.len)]) : d.closeWindow id w =
      (d.countReceived k.tenant w).modWindow id w.gid fun x => { x with closed := true, got := w.got, vis := d.clk + 1 } := by
  simp only [Dev.closeWindow, hk, if_pos hgot]; rfl

theorem Dev.closeWindow_not_covered {d : Dev} {id : Nat} {w : Window} {k : Cmd} (hk : tget d.rte.cmds id = some k)
    (hgot : w.got ≠ [(0, w.len)]) : d.closeWindow id w = (d.countReceived k.tenant w).failAnswer id 0x30 := by
  simp only [Dev.closeWindow, hk, if_neg hgot]; rfl

theorem Window.bytes_of_covered {w : Window} (hgot : w.got = [(0, w.len)]) : w.bytes = w.len := by simp [Window.bytes, hgot]

/-- A window that its bytes cover closes from the next boundary on, and they count as received (R43, R67). -/
theorem Dev.closeWindow_closes {d : Dev} {id : Nat} {w : Window} {k : Cmd} (hk : tget d.rte.cmds id = some k) (hgot : w.got = [(0, w.len)]) :
    tget (d.closeWindow id w).rte.cmds id =
        some (k.mapWindow w.gid fun x => { x with closed := true, got := w.got, vis := d.clk + 1 }) ∧
      ((d.closeWindow id w).tenantAt k.tenant).rx = ((d.tenantAt k.tenant).rx + w.len) % 2 ^ 64 := by
  rw [Dev.closeWindow_covered hk hgot]
  refine ⟨?_, ?_⟩
  · rw [Dev.tget_modWindow, Dev.countReceived_cmds, hk]; rfl
  · exact (d.countReceived_rx k.tenant w).trans (by rw [Window.bytes_of_covered hgot])

/-! ### PUSH-DATA (R66) -/

theorem isRing_ring {r : Nat} (hr : r < 256) : isRing (srcKey (.ring r)) = true := by
  show (decide (16384 ≤ 16384 + r) && decide (16384 + r < 16640)) = true
  simp only [Bool.and_eq_true, decide_eq_true_eq]
  omega

theorem exec_pushData {s : State} (hheld : s.dev.coreHeld = false) (r : Nat) (cap : List Byte) : exec (.pushData r cap) s =
    .next (s.withHd (takeCapsule (s.hbm, s.dev) (.ring r) cap opPush fun d _ _ => d.pushData r cap)) :=
  (nextHd_ok s _ hheld : execPushData r cap s = _)

/-- The device once it has issued the read of a PUSH-DATA (R66). -/
def Dev.pushAsked (d : Dev) (p : Push) : Dev := { d.emit (.hostRead p.addr p.len) with rte := { d.rte with pushes := d.rte.pushes ++ [p] } }

theorem Dev.pushData_reads {d : Dev} {r id : Nat} {c : List Byte} {k : Cmd} {w : Window}
    (hcmd : d.cmdByTag (16384 + r) (capTag c) = some (id, k))
    (hwin : k.wr.wins.find? (fun x => x.gid == BitVec.ofNat 32 (leAt c 8 4) && ! x.closed) = some w) (hlen : leAt c 24 4 ≤ w.len) :
    d.pushData r c =
      d.pushAsked { ring := r, gid := w.gid, addr := BitVec.ofNat 64 (leAt c 16 8), len := leAt c 24 4, tag := capTag c } := by
  have hgid : w.gid = BitVec.ofNat 32 (leAt c 8 4) := by have := List.find?_some hwin; simp_all
  simp only [Dev.pushData, hcmd, hwin, if_neg (Nat.not_lt.2 hlen), hgid, Dev.pushAsked]

theorem fillWindow_snd (hd : Hbm × Dev) (id : Nat) (w : Window) (off : Nat) (bs : List Byte) (poison : Bool) :
    (fillWindow hd id w off bs poison).2 = (bufWrite hd w.handle off bs poison).2.modWindow id w.gid fun x =>
      { x with got := if bs = [] then x.got else ivAdd x.got off (off + bs.length) } := rfl

@[simp] theorem fillWindow_clk (hd : Hbm × Dev) (id : Nat) (w : Window) (off : Nat) (bs : List Byte) (poison : Bool) :
    (fillWindow hd id w off bs poison).2.clk = hd.2.clk := bufWrite_clk ..

@[simp] theorem fillWindow_pushes (hd : Hbm × Dev) (id : Nat) (w : Window) (off : Nat) (bs : List Byte) (poison : Bool) :
    (fillWindow hd id w off bs poison).2.rte.pushes = hd.2.rte.pushes :=
  (congrArg Rte.pushes (bufWrite_rte hd w.handle off bs poison) :)

@[simp] theorem fillWindow_tenantAt (hd : Hbm × Dev) (id : Nat) (w : Window) (off : Nat) (bs : List Byte) (poison : Bool) (n : Nat) :
    (fillWindow hd id w off bs poison).2.tenantAt n = hd.2.tenantAt n :=
  (congrArg (fun x : Rte => tgetD x.tenants n {}) (bufWrite_rte hd w.handle off bs poison) :)

/-- The device once the bytes of a PUSH-DATA read have come (R66). -/
def Dev.pushCome (d : Dev) (p : Push) : Dev := { d with rte := { d.rte with pushes := d.rte.pushes.erase p } }

/-- Bytes that fill a window of no bytes yet leave it covered. -/
def Window.covered (w : Window) : Window := { w with got := [(0, w.len)] }

section Push
variable {h : Hbm} {d : Dev} {r id : Nat} {p : Push} {k : Cmd} {w : Window} {bs : List Byte}
variable (hcmd : d.cmdByTag (16384 + r) p.tag = some (id, k)) (hk : tget d.rte.cmds id = some k)
  (hwin : k.wr.wins.find? (·.gid == w.gid) = some w) (hopen : w.closed = false) (hgot : w.got = []) (hpos : 0 < w.len)
  (hbs : bs.length = w.len)
include hk hwin hgot hpos hbs

/-- A window that a whole window's bytes reach is covered (R43). -/
theorem fillWindow_covers (bad : Bool) : ∃ k', tget (fillWindow (h, d) id w 0 bs bad).2.rte.cmds id = some k' ∧ k'.tenant = k.tenant ∧
    k'.wr.wins.find? (·.gid == w.gid) = some w.covered := by
  have hne : bs ≠ [] := by rintro rfl; simp at hbs; omega
  refine ⟨k.mapWindow w.gid fun x => { x with got := if bs = [] then x.got else ivAdd x.got 0 (0 + bs.length) }, ?_, rfl, ?_⟩
  · rw [fillWindow_snd, Dev.tget_modWindow, bufWrite_rte, hk]; rfl
  · rw [Cmd.find?_mapWindow, hwin]
    · simp [Window.covered, hne, hgot, hbs, ivAdd]
    · exact fun _ => rfl

include hcmd hopen in
/-- Bytes that fill an open window whole close it (R66). -/
theorem pushArrive_closes (hfind : d.rte.pushes.find? (fun x => x.ring == r && x.gid == w.gid) = some p) (hlen : p.len = w.len)
    (bad : Bool) : pushArrive (h, d) r w.gid bs bad = ((fillWindow (h, d.pushCome p) id w 0 bs bad).1,
      (fillWindow (h, d.pushCome p) id w 0 bs bad).2.closeWindow id w.covered) := by
  have hcmd' : (d.pushCome p).cmdByTag (16384 + r) p.tag = some (id, k) := hcmd
  obtain ⟨k', hk', -, hwin'⟩ := fillWindow_covers (h := h) (d := d.pushCome p) hk hwin hgot hpos hbs bad
  have hall : bs.take p.len = bs := List.take_of_length_le (by omega)
  rw [Dev.pushCome] at hcmd' hk' ⊢
  simp only [pushArrive, hfind, hcmd', find?_open hwin hopen, hall, hk', Option.bind_some, hwin', Option.getD_some]

end Push

/-- Settles O26: the read of the host's bytes, and their arrival in a window that they cover. -/
theorem pushDataFillsItsWindow : Obligations.PushDataFillsItsWindow := by
  refine fun s r w id k hheld hr => ⟨fun cap harrive hop hclear hctx hparse hcmd hwin hlen => ?_,
    fun p bs bad hfind hcmd hk hwin hopen hgot hpos hbs hlen => ?_⟩
  · obtain ⟨tenant, htenant⟩ := Option.isSome_iff_exists.1 harrive.2.1
    let p : Push := { ring := r, gid := w.gid, addr := BitVec.ofNat 64 (leAt cap 16 8), len := leAt cap 24 4, tag := capTag cap }
    have hreads : (parsed s.dev (.ring r) cap).pushData r cap = (parsed s.dev (.ring r) cap).pushAsked p :=
      Dev.pushData_reads (by rw [parsed_cmdByTag]; exact hcmd) hwin hlen
    have hexec : exec (.pushData r cap) s = .next (s.withHd (s.hbm, (parsed s.dev (.ring r) cap).pushAsked p)) := by
      rw [exec_pushData hheld, takeCapsule_arrived htenant (capNamed_of_opcode (op := opPush) (by decide) hop) harrive,
        afterReceipt_passes harrive.1 (.inr rfl) hctx hparse, hreads]
    exact ⟨_, hexec, rfl, parsed_cmds .., congrArg (List.cons (Out.hostRead p.addr p.len)) (parsed_out_of_ring s.dev cap (isRing_ring hr)),
      congrArg (· ++ [p]) (parsed_pushes s.dev (.ring r) cap)⟩
  · have hexec : exec (.pushDataDmaComplete r w.gid bs bad) s = .next (s.withHd (pushArrive (s.hbm, s.dev) r w.gid bs bad)) :=
      (nextHd_ok s _ hheld : execPushDataDmaComplete r w.gid bs bad s = _)
    rw [pushArrive_closes hcmd hk hwin hopen hgot hpos hbs hfind hlen] at hexec
    obtain ⟨k', hk', hten, hwin'⟩ := fillWindow_covers (h := s.hbm) (d := s.dev.pushCome p) hk hwin hgot hpos hbs bad
    obtain ⟨hcmds, hrx⟩ := Dev.closeWindow_closes (w := w.covered) hk' rfl
    refine ⟨_, _, hexec, rfl, ?_, hcmds, ?_, ?_⟩
    · rw [Dev.closeWindow_covered hk' rfl]
      exact fillWindow_pushes (s.hbm, s.dev.pushCome p) id w 0 bs bad
    · refine (Cmd.find?_mapWindow k' ?_).trans ?_
      · exact fun _ => rfl
      · exact (congrArg _ hwin').trans (by rw [fillWindow_clk]; rfl)
    · rw [hten, fillWindow_tenantAt] at hrx
      exact hrx

/-! ### RDMA WRITE (R43) -/

section Rdma
variable {h : Hbm} {d : Dev} {c : Nat} {rk : BitVec 32} {va : BitVec 64} {bs : List Byte} (hlive : (d.connLive c).isSome = true)
include hlive

theorem rdmaArrive_outside (imm : Option (BitVec 32)) (hwin : d.windowAt c rk va.toNat bs.length = none)
    (hdrain : d.drainAt c rk va.toNat bs.length = false) : rdmaArrive (h, d) c rk va bs imm = (h, d.nakAccess c) := by
  obtain ⟨x, hx⟩ := Option.isSome_iff_exists.1 hlive
  simp [rdmaArrive, hx, hwin, hdrain]

theorem rdmaArrive_draining (imm : Option (BitVec 32)) (hwin : d.windowAt c rk va.toNat bs.length = none)
    (hdrain : d.drainAt c rk va.toNat bs.length = true) :
    rdmaArrive (h, d) c rk va bs imm = (h, d.recvPackets c (d.packets c bs.length)) := by
  obtain ⟨x, hx⟩ := Option.isSome_iff_exists.1 hlive
  simp [rdmaArrive, hx, hwin, hdrain]

/-- Memory and device once the bytes of an RDMA WRITE stand in their window (R43). -/
def rdmaFilled (hd : Hbm × Dev) (c : Nat) (va : BitVec 64) (bs : List Byte) (id : Nat) (w : Window) : Hbm × Dev :=
  fillWindow (hd.1, hd.2.recvPackets c (hd.2.packets c bs.length)) id w (va.toNat - w.va.toNat) bs false

variable {id : Nat} {w : Window} (hwin : d.windowAt c rk va.toNat bs.length = some (id, w))
include hwin

theorem rdmaArrive_fills : rdmaArrive (h, d) c rk va bs none = rdmaFilled (h, d) c va bs id w := by
  obtain ⟨x, hx⟩ := Option.isSome_iff_exists.1 hlive
  simp only [rdmaArrive, hx, hwin, rdmaFilled]

theorem rdmaArrive_mismatch {g : BitVec 32} (hg : g ≠ w.gid) : rdmaArrive (h, d) c rk va bs (some g) =
    ((rdmaFilled (h, d) c va bs id w).1, (rdmaFilled (h, d) c va bs id w).2.failAnswer id 0x31) := by
  obtain ⟨x, hx⟩ := Option.isSome_iff_exists.1 hlive
  simp only [rdmaArrive, hx, hwin, if_pos hg, rdmaFilled]; rfl

theorem rdmaArrive_closes {k : Cmd} {w' : Window} (hk : tget (rdmaFilled (h, d) c va bs id w).2.rte.cmds id = some k)
    (hw' : k.wr.wins.find? (·.gid == w.gid) = some w') : rdmaArrive (h, d) c rk va bs (some w.gid) =
    ((rdmaFilled (h, d) c va bs id w).1, (rdmaFilled (h, d) c va bs id w).2.closeWindow id w') := by
  obtain ⟨x, hx⟩ := Option.isSome_iff_exists.1 hlive
  rw [rdmaFilled] at hk ⊢
  simp only [rdmaArrive, hx, hwin, ne_eq, not_true_eq_false, if_false, hk, Option.bind_some, hw', Option.getD_some]

end Rdma

theorem exec_rdmaWrite {s : State} (hheld : s.dev.coreHeld = false) (c : Nat) (rk : BitVec 32) (va : BitVec 64) (bs : List Byte) :
    exec (.rdmaWrite c rk va bs) s = .next (s.withHd (rdmaArrive (s.hbm, s.dev) c rk va bs none)) :=
  (nextHd_ok s _ hheld : execRdmaWrite c rk va bs s = _)

theorem exec_rdmaWriteWithImmediate {s : State} (hheld : s.dev.coreHeld = false) (c : Nat) (rk : BitVec 32) (va : BitVec 64)
    (bs : List Byte) (g : BitVec 32) :
    exec (.rdmaWriteWithImmediate c rk va bs g) s = .next (s.withHd (rdmaArrive (s.hbm, s.dev) c rk va bs (some g))) :=
  (nextHd_ok s _ hheld : execRdmaWriteWithImmediate c rk va bs g s = _)

/-- Settles O27: an RDMA WRITE fills its window, or is refused or discarded, and a window closes by whether its bytes cover it. -/
theorem rdmaWritesFillWindows : Obligations.RdmaWritesFillWindows := by
  refine ⟨fun s c rk va bs hheld hlive => ⟨fun id w hwin => ⟨?_, rfl, fun g hg => ?_, fun k w' hk hw' => ?_⟩,
    fun hwin hdrain => ⟨?_, fun g => ?_⟩, fun hwin hdrain => ?_⟩, fun d id w k hk => ⟨fun hgot => ?_, fun hgot => ?_⟩⟩
  · rw [exec_rdmaWrite hheld, rdmaArrive_fills hlive hwin]; rfl
  · rw [exec_rdmaWriteWithImmediate hheld, rdmaArrive_mismatch hlive hwin hg]; rfl
  · rw [exec_rdmaWriteWithImmediate hheld, rdmaArrive_closes hlive hwin hk hw']; rfl
  · rw [exec_rdmaWrite hheld, rdmaArrive_outside hlive none hwin hdrain]; rfl
  · rw [exec_rdmaWriteWithImmediate hheld, rdmaArrive_outside hlive (some g) hwin hdrain]; rfl
  · rw [exec_rdmaWrite hheld, rdmaArrive_draining hlive none hwin hdrain]; rfl
  · obtain ⟨hcmds, hrx⟩ := Dev.closeWindow_closes hk hgot
    exact ⟨_, hcmds, k.mapWindow_forall (P := fun x => x.closed = true) fun _ => rfl, hrx⟩
  · exact Dev.closeWindow_not_covered hk hgot

end Sys2Proof.Machine
end

section
/-! SUPPORT. Congestion and acknowledgements of a connection (R28, R29, R397, R424): what a message that leaves or waits does, and the
rows of a connection. -/

namespace Sys2Proof.Machine

/-! ### A connection and its messages -/

theorem Dev.tget_modConn (d : Dev) (c : Nat) (f : Conn → Conn) : tget (d.modConn c f).rte.conns c = (tget d.rte.conns c).map f :=
  tget_tmod_self d.rte.conns c f

theorem Dev.connLive_eq_some {d : Dev} {c : Nat} {k : Conn} : d.connLive c = some k ↔ tget d.rte.conns c = some k ∧ k.err = false := by
  simp [Dev.connLive, Option.filter_eq_some_iff]

/-- A change of a live connection that leaves it out of the error state. -/
theorem Dev.connLive_modConn {d : Dev} {c : Nat} {k : Conn} {f : Conn → Conn} (hlive : d.connLive c = some k) (hf : (f k).err = k.err) :
    (d.modConn c f).connLive c = some (f k) := by
  obtain ⟨hk, herr⟩ := Dev.connLive_eq_some.1 hlive
  exact Dev.connLive_eq_some.2 ⟨by rw [Dev.tget_modConn, hk]; rfl, hf.trans herr⟩

/-- A connection sends what has not been acknowledged again while it may (R397). -/
theorem Dev.retryConn_sends {d : Dev} {c : Nat} {k : Conn} (hlive : d.connLive c = some k) (htries : k.tries < k.retry % 8) :
    d.retryConn c = (k.unacked.filterMap (·.2)).foldl (fun d o => d.emitOn c o) (d.modConn c fun k => { k with tries := k.tries + 1 }) := by
  simp only [Dev.retryConn, hlive, if_pos htries]

theorem Dev.retryConn_gives_up {d : Dev} {c : Nat} {k : Conn} (hlive : d.connLive c = some k) (htries : k.retry % 8 ≤ k.tries) :
    d.retryConn c = d.qpError c 3 := by
  simp only [Dev.retryConn, hlive, if_neg (Nat.not_lt.2 htries)]

section Messages
variable {d : Dev} {c : Nat} {k : Conn} (hk : tget d.rte.conns c = some k)
include hk

/-- A message waits behind the others of its connection when something holds it back (R16, R28, R486). -/
theorem Dev.emitOn_waits (o : Out) (hwait : d.ethLate k.port = true ∨ d.portPaused k.port = true ∨ k.paid = false ∨
    d.eth.held.any (·.1 == c) = true) : d.emitOn c o = { d with eth := { d.eth with held := d.eth.held ++ [(c, o)] } } := by
  simp only [Dev.emitOn, hk]
  refine if_pos ?_
  simpa only [Bool.not_eq_true'] using hwait

/-- A message that nothing holds back leaves at once, and its bytes count against R (R28). -/
theorem Dev.emitOn_leaves (o : Out) (hlate : d.ethLate k.port = false) (hpause : d.portPaused k.port = false) (hpaid : k.paid = true)
    (hheld : d.eth.held.any (·.1 == c) = false) :
    d.emitOn c o = (d.emit o).modConn c fun k => { k with debt := k.debt + (o.load : Rat) } := by
  simp only [Dev.emitOn, hk]
  refine if_neg ?_
  simp only [hlate, hpause, hpaid, hheld]
  decide

/-- A message without a load leaves its connection as it was, whether it leaves or waits. -/
theorem Dev.emitOn_conn_of_load_zero {o : Out} (hload : o.load = 0) : tget (d.emitOn c o).rte.conns c = some k := by
  simp only [Dev.emitOn, hk]
  split
  · exact hk
  · rw [Dev.tget_modConn]
    simp [Dev.emit, hk, hload]

end Messages

/-! ### The rows -/

section Rows
variable {s : State} (hheld : s.dev.coreHeld = false)
include hheld

/-- A row over the device does what its operation does to it. -/
theorem nextDev_of_eq {f : Dev → Dev} {e : Dev} (hf : f s.dev = e) : nextDev s f = .next (s.withDev e) := by
  rw [nextDev_ok s f hheld, hf]

variable {c : Nat} {k : Conn}

theorem exec_rateRecover : exec (.rateRecover c) s = .next (s.withDev (s.dev.modConn c fun k =>
    if s.dev.ecnCut = 0 then { k with rate := s.dev.lineRate k.port }
    else if k.quietFrom + s.dev.fld1 Fld.rteEcnCfgRecover ≤ s.dev.clk then
      { k with
        rate := k.rate + (s.dev.lineRate k.port - k.rate) * ((s.dev.fld Fld.rteEcnCfgStep : Nat) : Rat) / 16, quietFrom := s.dev.clk }
    else k)) := (nextDev_of_eq hheld rfl : execRateRecover c s = _)

theorem exec_cnpReceive (hcut : s.dev.ecnCut ≠ 0) : exec (.cnpReceive c) s = .next (s.withDev (s.dev.modConn c fun k =>
    if k.cutAt = some s.dev.clk then { k with quietFrom := s.dev.clk }
    else { k with
      rate := max (k.rate * ((8 - s.dev.ecnCut : Nat) : Rat) / 8) ((s.dev.fld1 Fld.rteEcnCfgMin : Nat) : Rat)
      cutAt := some s.dev.clk, quietFrom := s.dev.clk })) := (nextDev_of_eq hheld (if_neg hcut) : execCnpReceive c s = _)

variable (hlive : s.dev.connLive c = some k)
include hlive

theorem exec_ceMarkedPacket_answers (hgap : ∀ x, k.cnpSentAt = some x → x + s.dev.fld1 Fld.rteEcnCfgCnpGap ≤ s.dev.clk) :
    exec (.ceMarkedPacket c) s =
      .next (s.withDev ((s.dev.emitOn c (.cnp c)).modConn c fun k => { k with cnpSentAt := some s.dev.clk })) := by
  refine (nextDev_of_eq hheld ?_ : execCeMarkedPacket c s = _)
  simp only [hlive]
  cases hsent : k.cnpSentAt with
  | none => rfl
  | some x => simp [hgap x hsent]

theorem exec_ceMarkedPacket_early {x : Nat} (hsent : k.cnpSentAt = some x) (hgap : s.dev.clk < x + s.dev.fld1 Fld.rteEcnCfgCnpGap) :
    exec (.ceMarkedPacket c) s = .next s := by
  refine (nextDev_of_eq hheld (e := s.dev) ?_ : execCeMarkedPacket c s = _)
  simp [hlive, hsent, Nat.not_le.2 hgap]

theorem exec_unsupportedOperation (op : RoceOp) :
    exec (.unsupportedOperation c op) s = .next (s.withDev (s.dev.nakInvalid c)) := by
  refine (nextDev_of_eq hheld ?_ : execUnsupportedOperation c op s = _)
  have hnak : s.dev.unsupported c = s.dev.nakInvalid c := if_pos (by rw [hlive, Option.isSome_some])
  cases op <;> exact hnak

theorem exec_tenantAck (psn : BitVec 24) : exec (.tenantAckReceive c .ack psn) s = .next (s.withDev (s.dev.modConn c fun x =>
    { x with unacked := ackUpTo x.unacked psn, tries := 0, rnrTries := 0 })) := by
  refine (nextDev_of_eq hheld ?_ : execTenantAckReceive c .ack psn s = _)
  simp only [hlive]

theorem exec_tenantNakSequence (psn : BitVec 24) : exec (.tenantAckReceive c .nakSequence psn) s =
    .next (s.withDev ((s.dev.modConn c fun x => { x with
      unacked := if x.unacked.any (·.1 == psn) then x.unacked.dropWhile (·.1 != psn) else x.unacked }).retryConn c)) := by
  refine (nextDev_of_eq hheld ?_ : execTenantAckReceive c .nakSequence psn s = _)
  simp only [hlive]

theorem exec_tenantNakOther (psn : BitVec 24) :
    exec (.tenantAckReceive c .nakOther psn) s = .next (s.withDev (s.dev.qpError c 2)) := by
  refine (nextDev_of_eq hheld ?_ : execTenantAckReceive c .nakOther psn s = _)
  simp only [hlive]

theorem exec_tenantRnrNak (psn : BitVec 24) : exec (.tenantAckReceive c .rnrNak psn) s = .next (s.withDev
    (if k.retry / 8 % 8 = 7 ∨ k.rnrTries < k.retry / 8 % 8 then (k.unacked.filterMap (·.2)).foldl (fun d o => d.emitOn c o)
      (s.dev.modConn c fun x => { x with rnrTries := x.rnrTries + 1 })
    else s.dev.qpError c 3)) := by
  refine (nextDev_of_eq hheld ?_ : execTenantAckReceive c .rnrNak psn s = _)
  simp only [hlive]

theorem exec_localAckTimeout (hunacked : k.unacked ≠ []) :
    exec (.localAckTimeout c) s = .next (s.withDev (s.dev.retryConn c)) := by
  refine (nextDev_of_eq hheld ?_ : execLocalAckTimeout c s = _)
  simp only [hlive, if_neg hunacked]

end Rows

/-- Settles O28: the rows of congestion control change the connection as R28 and R29 say, and the acknowledgements free, repeat or give
up what waits for them (R397, R424). -/
theorem congestionAndAcknowledgements : Obligations.CongestionAndAcknowledgements := by
  constructor
  · intro s c k hheld hk herr
    have hlive : s.dev.connLive c = some k := Dev.connLive_eq_some.2 ⟨hk, herr⟩
    refine ⟨fun hcut hfirst => ?_, fun hcut hagain => ?_, fun hcut => ⟨?_, ?_⟩, fun hcut hquiet => ?_, fun hgap => ?_,
      fun o hwait => Dev.emitOn_waits hk o hwait, fun o hlate hpause hpaid hwait => ?_, fun x hsent hgap =>
      exec_ceMarkedPacket_early hheld hlive hsent hgap⟩
    · exact ⟨_, exec_cnpReceive hheld hcut, rfl, rfl, by rw [Dev.tget_modConn, hk, Option.map_some, if_neg hfirst]⟩
    · exact ⟨_, exec_cnpReceive hheld hcut, by rw [Dev.tget_modConn, hk, Option.map_some, if_pos hagain]⟩
    · exact (nextDev_of_eq hheld (if_pos hcut) : execCnpReceive c s = _)
    · exact ⟨_, exec_rateRecover hheld, by rw [Dev.tget_modConn, hk, Option.map_some, if_pos hcut]⟩
    · exact ⟨_, exec_rateRecover hheld, by rw [Dev.tget_modConn, hk, Option.map_some, if_neg hcut, if_pos hquiet]⟩
    · refine ⟨_, exec_ceMarkedPacket_answers hheld hlive hgap, rfl, ?_, rfl, fun hlate hpause hpaid hwait => ?_⟩
      · rw [Dev.tget_modConn, Dev.emitOn_conn_of_load_zero hk rfl]; rfl
      · exact congrArg Dev.out (Dev.emitOn_leaves hk (.cnp c) hlate hpause hpaid hwait)
    · rw [Dev.emitOn_leaves hk o hlate hpause hpaid hwait]
      exact ⟨rfl, by rw [Dev.tget_modConn]; exact congrArg (Option.map _) hk⟩
  · intro s c k psn hheld hlive
    refine ⟨exec_unsupportedOperation hheld hlive, exec_tenantAck hheld hlive psn, fun htries => ?_, exec_tenantNakOther hheld hlive psn,
      fun hrnr => ?_, fun hseven hrnr => ?_, fun hunacked htries => ?_, fun hunacked htries => ?_⟩
    · rw [exec_tenantNakSequence hheld hlive]
      have hlive' := Dev.connLive_modConn (f := fun x => { x with
        unacked := if x.unacked.any (·.1 == psn) then x.unacked.dropWhile (·.1 != psn) else x.unacked }) hlive rfl
      rw [Dev.retryConn_sends hlive' htries]
    · rw [exec_tenantRnrNak hheld hlive, if_pos hrnr]
    · rw [exec_tenantRnrNak hheld hlive, if_neg (by omega)]
    · rw [exec_localAckTimeout hheld hlive hunacked, Dev.retryConn_sends hlive htries]
    · rw [exec_localAckTimeout hheld hlive hunacked, Dev.retryConn_gives_up hlive htries]

end Sys2Proof.Machine
end

section
/-! SUPPORT. Grants (R41, R42, R63, R80): a grant number that nobody else uses, the window that a READY capsule announces, and its end. -/

namespace Sys2Proof.Machine

/-! ### A grant number that nobody uses -/

/-- Of more than as many consecutive numbers as are used, one is not used. -/
theorem exists_unused (c : BitVec 32) {used : List (BitVec 32)} (hused : used.length < 2 ^ 32) :
    ∃ g ∈ (List.range (used.length + 1)).map (fun i => c + BitVec.ofNat 32 i), g ∉ used := by
  by_contra hall
  push Not at hall
  have hnodup : ((List.range (used.length + 1)).map fun i => c + BitVec.ofNat 32 i).Nodup := by
    refine List.nodup_range.map_on fun i hi j hj hij => ?_
    rw [List.mem_range] at hi hj
    have : BitVec.ofNat 32 i = BitVec.ofNat 32 j := by simpa using hij
    have := congrArg BitVec.toNat this
    simp only [BitVec.toNat_ofNat] at this
    omega
  have := (hnodup.subperm hall).length_le
  simp at this

/-- The number of a new grant is that of no grant that is outstanding or drains, nor of one of the partner's (R42). -/
theorem Dev.newGrant_unused {d : Dev} (hroom : d.grantsLive.length + d.partnerGrants.length < 2 ^ 32) :
    (∀ g ∈ d.grantsLive, g.2.gid ≠ d.newGrant) ∧ ∀ g ∈ d.partnerGrants, g ≠ d.newGrant := by
  let used := (d.grantsLive.map fun w => w.2.gid) ++ d.partnerGrants
  obtain ⟨g, hg, hgood⟩ := exists_unused (BitVec.setWidth 32 d.fresh) (used := used) (by simpa [used] using hroom)
  obtain ⟨n, hn⟩ := Option.isSome_iff_exists.1
    (List.find?_isSome (p := fun g => ! used.contains g).2 ⟨g, hg, by simpa using hgood⟩)
  have hnew : d.newGrant = n := by rw [Dev.newGrant, hn, Option.getD_some]
  have hunused : n ∉ used := by simpa using List.find?_some hn
  simp only [used, List.mem_append, List.mem_map, not_or, not_exists, not_and] at hunused
  rw [hnew]
  exact ⟨hunused.1, fun g hg hgn => hunused.2 (hgn ▸ hg)⟩

/-! ### READY_GRANT -/

/-- The device once a command has taken the buffer that POOL has committed for its grant. -/
def Dev.grantTaken (d : Dev) (id : Nat) (h : BitVec 32) : Dev := { d with pool := { d.pool with done := d.pool.done.erase (.grant id, h) } }

/-- The window of a new grant of `len` bytes from `off` on in the buffer `h` (R42). -/
def Dev.newReady (d : Dev) (src off len : Nat) (h : BitVec 32) : Window :=
  { gid := d.newGrant, rkey := if isRing src then 0#32 else (d.newWindow len).1, va := if isRing src then 0#64 else (d.newWindow len).2
    len := len, off := off, handle := h, opened := d.clk }

theorem Dev.takeGrant_eq {d : Dev} {id : Nat} {h : BitVec 32} (hdone : d.pool.done.find? (fun p => p.1 == .grant id) = some (.grant id, h)) :
    d.takeGrant id = some (h, d.grantTaken id h) := by
  rw [Dev.takeGrant, hdone]; rfl

/-- The command once its next window is open (R41). -/
def Cmd.opened (k : Cmd) (rest : List (Nat × Nat)) (w : Window) : Cmd := { k with wr := { k.wr with asked := rest, wins := k.wr.wins ++ [w] } }

theorem Dev.tget_modCmd (d : Dev) (id : Nat) (f : Cmd → Cmd) : tget (d.modCmd id f).rte.cmds id = (tget d.rte.cmds id).map f :=
  tget_tmod_self d.rte.cmds id f

/-- The device once the window `w` of a command is open and the partner has its control record (R41, R415). -/
def Dev.grantOpened (d : Dev) (id : Nat) (k : Cmd) (rest : List (Nat × Nat)) (w : Window) : Dev :=
  (((d.grantTaken id w.handle).spend 3).modCmd id (·.opened rest w)).mirrorControl (.cmd id (k.opened rest w))

theorem Dev.readyGrant_opens {d : Dev} {id : Nat} {k : Cmd} {h : BitVec 32} {off len : Nat} {rest : List (Nat × Nat)} {w : Window}
    (hdone : d.pool.done.find? (fun p => p.1 == .grant id) = some (.grant id, h)) (hasked : k.wr.asked = (off, len) :: rest)
    (hk : tget d.rte.cmds id = some k) (hw : w = (d.grantTaken id h).newReady k.src off len h) :
    d.readyGrant id k = (d.grantOpened id k rest w).capDue k.src (readyBytes k.tag k.session w.gid w.rkey w.va w.len w.off) true := by
  have hopened : tget (((d.grantTaken id h).spend 3).modCmd id (·.opened rest w)).rte.cmds id = some (k.opened rest w) := by
    rw [Dev.tget_modCmd]
    exact congrArg (Option.map _) hk
  subst hw
  simp only [Cmd.opened, Dev.newReady] at hopened
  simp only [Dev.readyGrant, Dev.takeGrant_eq hdone, hasked, hopened]
  rfl

/-- Opening a window leaves the responses that wait, the counts of the tick and the boundary as they were. -/
theorem Dev.grantOpened_frame (d : Dev) (id : Nat) (k : Cmd) (rest : List (Nat × Nat)) (w : Window) :
    ∃ f o, d.grantOpened id k rest w =
      { ((d.grantTaken id w.handle).spend 3).modCmd id (·.opened rest w) with fab := f, out := o } := Dev.mirrorControl_frame ..

/-- A response or READY capsule that falls due leaves commands and buffers as they were. -/
theorem Dev.capDue_keeps (d : Dev) (key : Nat) (bs : List Byte) (ready : Bool) :
    (d.capDue key bs ready).rte.cmds = d.rte.cmds ∧ (d.capDue key bs ready).pool = d.pool := by
  obtain ⟨f, k, e, o, cs, g, n, q, h⟩ := d.capDue_frame key bs ready
  rw [h]
  exact ⟨rfl, rfl⟩

/-! ### The tick's budget of capsules (R15, R63) -/

theorem Dev.capDue_goes {d : Dev} {ready : Bool} (key : Nat) (bs : List Byte) (hroom : d.capRoom ready = true)
    (hfirst : ∀ q ∈ d.rte.dueq, q.ready = ready → d.clk < q.vis) : d.capDue key bs ready = d.sendCounted key bs ready := by
  refine if_pos ⟨hroom, ?_⟩
  rw [List.any_eq_false]
  intro q hq hdue
  simp only [Bool.and_eq_true, beq_iff_eq, decide_eq_true_eq] at hdue
  exact absurd (hfirst q hq hdue.1) (Nat.not_lt.2 hdue.2)

theorem Dev.capDue_waits {d : Dev} {ready : Bool} (key : Nat) (bs : List Byte)
    (hwait : d.capRoom ready = false ∨ ∃ q ∈ d.rte.dueq, q.ready = ready ∧ q.vis ≤ d.clk) :
    d.capDue key bs ready = d.queueCap { src := key, bytes := bs, ready := ready, vis := d.clk } := by
  refine if_neg ?_
  rintro ⟨hroom, hnone⟩
  rcases hwait with hfull | ⟨q, hq, hready, hvis⟩
  · rw [hfull] at hroom
    exact absurd hroom (by decide)
  · rw [List.any_eq_false] at hnone
    exact hnone q hq (by simp [hready, hvis])

/-- Settles O30: a committed buffer becomes the next window under an unused number, a capsule goes out or waits, and a window lapses or
drains after its time. -/
theorem grantsOpenTimeOutAndDrain : Obligations.GrantsOpenTimeOutAndDrain := by
  refine ⟨fun s src tag id k h off len rest hheld htag hk hstall hdone hasked hroom => ?_, fun d key bs ready =>
    ⟨Dev.capDue_goes key bs, Dev.capDue_waits key bs⟩, fun s g hheld => ⟨fun id w hgrant hlapsed => ?_, fun id w hgrant hearly => ?_,
      fun w x hdrain hwithdrawn hdrained => ?_⟩⟩
  · let w := (s.dev.grantTaken id h).newReady k.src off len h
    have hexec : exec (.readyGrant src tag) s = .next (s.withDev ((s.dev.grantOpened id k rest w).capDue k.src
        (readyBytes k.tag k.session w.gid w.rkey w.va w.len w.off) true)) := by
      refine (nextDev_of_eq hheld ?_ : execReadyGrant src tag s = _)
      simp only [htag, hstall, Bool.false_eq_true, if_false]
      exact Dev.readyGrant_opens hdone hasked hk rfl
    obtain ⟨f, o, hframe⟩ := s.dev.grantOpened_frame id k rest w
    obtain ⟨hcmds, hpool⟩ := (s.dev.grantOpened id k rest w).capDue_keeps k.src
      (readyBytes k.tag k.session w.gid w.rkey w.va w.len w.off) true
    obtain ⟨hlive, hpartner⟩ := Dev.newGrant_unused (d := s.dev.grantTaken id h) hroom
    refine ⟨_, w, k.opened rest w, s.dev.grantOpened id k rest w, hexec, rfl, rfl, by rw [hframe]; rfl, by rw [hframe]; rfl, by rw [hframe]; rfl,
      ?_, ?_, rfl, rfl, rfl, rfl, rfl, rfl, rfl, rfl, hlive, hpartner, fun hring => ⟨if_pos hring, if_pos hring⟩⟩
    · rw [State.withDev, hpool, hframe]; rfl
    · rw [State.withDev, hcmds, hframe]
      exact (Dev.tget_modCmd ..).trans (congrArg (Option.map _) hk)
  · refine (nextDev_of_eq hheld ?_ : execGrantTimeout g s = _)
    simp only [hgrant, if_pos hlapsed]; rfl
  · refine (nextDev_of_eq hheld (e := s.dev) ?_ : execGrantTimeout g s = _)
    simp only [hgrant, if_neg (Nat.not_le.2 hearly)]
  · have hexec : exec (.grantDrainEnd g) s = .next (s.withDev
        (({ s.dev with rte := { s.dev.rte with draining := s.dev.rte.draining.erase w } } : Dev).release w.2.handle 1)) := by
      refine (nextDev_of_eq hheld ?_ : execGrantDrainEnd g s = _)
      simp only [hdrain, hwithdrawn, if_pos hdrained]
    exact ⟨_, hexec, rfl, rfl⟩

end Sys2Proof.Machine
end

section
/-! SUPPORT. Responses (R47, R48, R54, R59): what answering a command changes, and when each response goes out. -/

namespace Sys2Proof.Machine

/-! ### Answering a command -/

/-- The bytes of a 16-bit field spell it. -/
theorem leNat_leBytes_two {n : Nat} (h : n < 2 ^ 16) : leNat (leBytes 2 n) = n := by
  simp only [leBytes, leNat, BitVec.toNat_ofNat]
  omega

/-- A response carries the tag of its command (R59). -/
theorem capTag_responseBytes (st : Nat) (tag : BitVec 16) (ses fl a b c : Nat) : capTag (responseBytes st tag ses fl a b c) = tag := by
  have hfield : slice (responseBytes st tag ses fl a b c) 2 2 = leBytes 2 tag.toNat := rfl
  rw [capTag, leAt, hfield, leNat_leBytes_two tag.isLt, BitVec.ofNat_toNat, BitVec.setWidth_eq]

section Answer
variable {d : Dev} {id : Nat} {k : Cmd} (hk : tget d.rte.cmds id = some k) (hopen : k.answered = false)
include hk hopen

theorem Dev.answer_responds (st fl a b c : Nat) : d.answer id st fl a b c =
    (d.modCmd id fun k => { k with answered := true }).respond k.src
      (responseBytes st k.tag (if k.op = opOpen ∧ st = stOk then a else k.session) fl a b c) := by
  simp only [Dev.answer, hk, hopen, Bool.false_eq_true, if_false]

theorem Dev.answer_self (st fl a b c : Nat) : tget (d.answer id st fl a b c).rte.cmds id = some { k with answered := true } := by
  obtain ⟨f, r, e, o, cs, g, n, q, heq⟩ := Dev.answer_frame st fl a b c hk hopen
  rw [heq, tget_tmod_self, hk]; rfl

theorem Dev.answer_others (st fl a b c : Nat) {j : Nat} (hj : j ≠ id) :
    tget (d.answer id st fl a b c).rte.cmds j = tget d.rte.cmds j := by
  obtain ⟨f, r, e, o, cs, g, n, q, heq⟩ := Dev.answer_frame st fl a b c hk hopen
  rw [heq, tget_tmod_other _ _ hj]

theorem Dev.answer_ses (st fl a b c : Nat) : (d.answer id st fl a b c).ses = d.ses := by
  obtain ⟨f, r, e, o, cs, g, n, q, heq⟩ := Dev.answer_frame st fl a b c hk hopen
  rw [heq]

end Answer

/-! ### The rows -/

section Rows
variable {s : State} {src : Src} {tag : BitVec 16} {id : Nat} {k : Cmd} (hheld : s.dev.coreHeld = false)
  (htag : s.dev.cmdByTag (srcKey src) tag = some (id, k))
include hheld htag

theorem exec_bufferedResponse : exec (.bufferedResponse src tag) s = .next (s.withDev
    (if (k.op = opWrite ∨ k.op = opMark) ∧ s.dev.bufferedReady id k ∧ s.dev.stallsAny blkRte 0 = false then
      s.dev.answer id (s.dev.bufferedStatus id) (if s.dev.bufferedStatus id = stOk then flBuffered else 0)
        (s.dev.writeResults id k).1 (s.dev.writeResults id k).2.1 (s.dev.writeResults id k).2.2
    else s.dev)) := by
  refine (nextDev_of_eq hheld ?_ : execBufferedResponse src tag s = _)
  simp only [htag]

theorem exec_onTapeResponse {ses : Session} (hses : tget s.dev.ses.sessions k.session = some ses) :
    exec (.onTapeResponse src tag) s = .next (s.withDev
      (if k.op = opSync ∧ k.adm.isSome ∧ k.bound ≤ s.dev.settledBelow k.session ∧ s.dev.unshownRows k.session k.bound = [] then
        s.dev.syncDone id k ses
      else s.dev)) := by
  refine (nextDev_of_eq hheld ?_ : execOnTapeResponse src tag s = _)
  simp only [htag, hses]

theorem exec_onTapeResponse_waits (hwait : s.dev.settledBelow k.session < k.bound ∨ s.dev.unshownRows k.session k.bound ≠ []) :
    exec (.onTapeResponse src tag) s = .next s := by
  cases hses : tget s.dev.ses.sessions k.session with
  | none =>
    refine (nextDev_of_eq hheld (e := s.dev) ?_ : execOnTapeResponse src tag s = _)
    simp only [htag, hses]
  | some ses =>
    rw [exec_onTapeResponse hheld htag hses, if_neg]
    rintro ⟨-, -, hsettled, hshown⟩
    exact hwait.elim (fun h => absurd hsettled (Nat.not_le.2 h)) fun h => h hshown

theorem exec_readDelivery (hop : k.op = opRead) :
    exec (.readDelivery src tag) s = .next (s.withDev (Dev.readGo s.hbm id 65536 s.dev)) := by
  refine (nextDev_of_eq hheld ?_ : execReadDelivery src tag s = _)
  simp only [htag, if_pos hop]

end Rows

/-- Settles O31: each response goes out when its condition holds and waits otherwise, and answering frees one tag alone. -/
theorem responsesFollowTheirRecords : Obligations.ResponsesFollowTheirRecords := by
  refine ⟨fun s src tag id k hheld htag => ⟨fun hop hready hstall => ?_, fun hwait => ?_, fun hop hadm hsettled hshown ses hses => ?_,
    exec_onTapeResponse_waits hheld htag, exec_readDelivery hheld htag⟩, fun d id k st fl a b c hk hopen =>
    ⟨Dev.answer_self hk hopen .., fun j hj => Dev.answer_others hk hopen _ _ _ _ _ hj, Dev.answer_ses hk hopen .., Dev.answer_responds hk hopen ..,
      capTag_responseBytes ..⟩⟩
  · exact (exec_bufferedResponse hheld htag).trans (by rw [if_pos ⟨hop, hready, hstall⟩]; rfl)
  · rw [exec_bufferedResponse hheld htag, if_neg]
    rintro ⟨-, hready, hstall⟩
    rcases hwait with h | h <;> simp [h] at hready hstall
  · rw [exec_onTapeResponse hheld htag hses, if_pos ⟨hop, hadm, hsettled, hshown⟩]

end Sys2Proof.Machine
end

section
/-! SUPPORT. Metering snapshots (R67, R68, R418), chunk filling (R93) and the epoch reserve (R119). -/

namespace Sys2Proof.Machine

/-! ### Metering snapshots -/

theorem Dev.tenantAt_modTenant_self (d : Dev) (n : Nat) (f : Tenant → Tenant) : (d.modTenant n f).tenantAt n = f (d.tenantAt n) :=
  tgetD_tput_self ..

theorem Dev.tenantAt_modTenant_other (d : Dev) {n j : Nat} (f : Tenant → Tenant) (h : j ≠ n) :
    (d.modTenant n f).tenantAt j = d.tenantAt j := tgetD_tput_other _ _ _ h

/-- The counters that a record reports come from the tenant's own and the partner's mirror alone (R418). -/
theorem Dev.meterTotal_congr {d e : Dev} {n : Nat} (htenant : e.tenantAt n = d.tenantAt n) (hstore : e.pair.partner = d.pair.partner) :
    e.meterTotal n = d.meterTotal n := by
  simp only [Dev.meterTotal, Dev.partnerMeter, htenant, hstore]

/-- One tenant's record joins those that wait, and its changes begin again (R68). -/
def Dev.meterOne (d : Dev) (n : Nat) : Dev :=
  ({ d with ctl := { d.ctl with metq := d.ctl.metq ++ [meterBytes n (d.meterTotal n) d.tick] } } : Dev).modTenant n fun x =>
    x.metered (((d.meterTotal n).seq + 1) % 2 ^ 32)

theorem Dev.tenantAt_foldl_other {g : Dev → Nat → Dev} (hg : ∀ d n j, j ≠ n → (g d n).tenantAt j = d.tenantAt j) {ns : List Nat} {j : Nat}
    (hj : j ∉ ns) (d : Dev) : (ns.foldl g d).tenantAt j = d.tenantAt j := by
  induction ns generalizing d with
  | nil => rfl
  | cons n ns ih =>
    obtain ⟨hne, hj⟩ := List.ne_and_not_mem_of_not_mem_cons hj
    rw [List.foldl_cons, ih hj, hg d n j hne]

theorem Dev.meterOne_other (d : Dev) (n j : Nat) (h : j ≠ n) : (d.meterOne n).tenantAt j = d.tenantAt j :=
  Dev.tenantAt_modTenant_other _ _ h

theorem Dev.meterOne_total_other (d : Dev) {n j : Nat} (h : j ≠ n) : (d.meterOne n).meterTotal j = d.meterTotal j :=
  Dev.meterTotal_congr (d.meterOne_other n j h) rfl

/-- Records for tenants that are all different each carry the counters of the moment before the first (R68). -/
theorem Dev.meterAll {ns : List Nat} (hns : ns.Nodup) (d : Dev) :
    (ns.foldl Dev.meterOne d).ctl.metq = d.ctl.metq ++ ns.map (fun n => meterBytes n (d.meterTotal n) d.tick) ∧
      ∀ n ∈ ns, (ns.foldl Dev.meterOne d).tenantAt n = (d.tenantAt n).metered (((d.meterTotal n).seq + 1) % 2 ^ 32) := by
  induction ns generalizing d with
  | nil => simp
  | cons m ns ih =>
    obtain ⟨hm, hns⟩ := List.nodup_cons.1 hns
    obtain ⟨hq, hten⟩ := ih hns (d.meterOne m)
    have hother : ∀ n ∈ ns, (d.meterOne m).meterTotal n = d.meterTotal n := fun n hn =>
      d.meterOne_total_other (by rintro rfl; exact hm hn)
    refine ⟨?_, fun n hn => ?_⟩
    · have hlater : ns.map (fun n => meterBytes n ((d.meterOne m).meterTotal n) (d.meterOne m).tick) =
          ns.map fun n => meterBytes n (d.meterTotal n) d.tick :=
        List.map_congr_left fun n hn => by rw [hother n hn]; rfl
      rw [List.foldl_cons, hq, hlater]
      exact List.append_assoc ..
    · rcases List.mem_cons.1 hn with rfl | hlater
      · rw [List.foldl_cons, Dev.tenantAt_foldl_other Dev.meterOne_other hm]
        exact Dev.tenantAt_modTenant_self ..
      · rw [List.foldl_cons, hten n hlater, hother n hlater, d.meterOne_other m n (by rintro rfl; exact hm hlater)]

/-- The changes of a tenant that no record reports begin again (R418). -/
def Dev.meterSkip (d : Dev) (n : Nat) : Dev := d.modTenant n fun m => m.metered m.seq

theorem Dev.meterSkip_other (d : Dev) (n j : Nat) (h : j ≠ n) : (d.meterSkip n).tenantAt j = d.tenantAt j :=
  Dev.tenantAt_modTenant_other _ _ h

theorem Dev.meterSkipAll (ns : List Nat) (d : Dev) (n : Nat) : (ns.foldl Dev.meterSkip d).tenantAt n =
    if n ∈ ns then (d.tenantAt n).metered (d.tenantAt n).seq else d.tenantAt n := by
  induction ns generalizing d with
  | nil => simp
  | cons m ns ih =>
    rw [List.foldl_cons, ih]
    by_cases hn : n = m
    · subst hn
      have hself : (d.meterSkip n).tenantAt n = (d.tenantAt n).metered (d.tenantAt n).seq := Dev.tenantAt_modTenant_self ..
      rw [hself, if_pos (List.mem_cons_self ..)]
      split <;> rfl
    · simp only [d.meterSkip_other m n hn, List.mem_cons, hn, false_or]

theorem Dev.meteredTenants_nodup (d : Dev) : d.meteredTenants.Nodup := List.nodup_dedup _

/-- The device once its meters have been taken for what the partner's were at this snapshot. -/
def Dev.metersSeen (d : Dev) : Dev := { d with pair := { d.pair with metered := d.partnerMeters } }

theorem exec_meteringSnapshot {s : State} (hheld : s.dev.coreHeld = false) : exec .meteringSnapshot s = .next (s.withDev
    (if s.dev.tick.toNat % 3000000 = 0 ∧ s.dev.queuesMeters then s.dev.meteredTenants.foldl Dev.meterOne s.dev.metersSeen
    else if s.dev.tick.toNat % 3000000 = 0 then s.dev.meteredTenants.foldl Dev.meterSkip s.dev.metersSeen
    else s.dev)) := (nextDev_of_eq hheld rfl : execMeteringSnapshot s = _)

/-! ### Filling and the reserve -/

theorem fillGo_of_none {h : Hbm} {d : Dev} {n : Nat} (hnone : d.fillCmd n = none) (fuel : Nat) : fillGo n fuel (h, d) = (h, d) := by
  have hstep : fillStep (h, d) n = ((h, d), false) := by simp only [fillStep, hnone]
  cases fuel with
  | zero => rfl
  | succ fuel => simp only [fillGo, hstep, Bool.false_eq_true, if_false]

theorem exec_chunkFill {s : State} (hheld : s.dev.coreHeld = false) (n : Nat) : exec (.chunkFill n) s =
    .next (s.withHd (if s.dev.sesLate then (s.hbm, s.dev) else fillGo n (s.dev.fillFuel n) (s.hbm, s.dev))) :=
  (nextHd_ok s _ hheld : execChunkFill n s = _)

theorem exec_reserveEpochWritten {s : State} (hheld : s.dev.coreHeld = false) {i : Nat} {sp : Span} (hsp : s.dev.spanAt i = some sp) :
    exec (.reserveEpochWritten i) s = .next (s.withDev
      (if s.dev.reserveHeld sp then s.dev.modSpan i fun x => { x with epoch := { x.epoch with waiting := false } } else s.dev)) := by
  refine (nextDev_of_eq hheld ?_ : execReserveEpochWritten i s = _)
  simp only [hsp]

/-- Settles O32: the tenants of a snapshot are all different, so each record is made of the counters of the boundary. -/
theorem metersFillAndReserve : Obligations.MetersFillAndReserve := by
  refine ⟨fun s hheld => ⟨fun htick => ?_, fun htick hqueues => ?_, fun htick hqueues => ?_⟩, fun s hheld => ⟨fun n hlate => ?_, fun n hidle => ?_,
    fun i sp hsp hhave => ?_, fun i sp hsp hlacks => ?_⟩⟩
  · rw [exec_meteringSnapshot hheld, if_neg (fun h => htick h.1), if_neg htick]
  · obtain ⟨hq, hten⟩ := Dev.meterAll s.dev.meteredTenants_nodup s.dev.metersSeen
    have hexec := exec_meteringSnapshot hheld
    rw [if_pos ⟨htick, hqueues⟩] at hexec
    exact ⟨_, hexec, rfl, hq, hten, fun n hn => Dev.tenantAt_foldl_other Dev.meterOne_other hn _⟩
  · have hexec := exec_meteringSnapshot hheld
    rw [if_neg (by simp [hqueues]), if_pos htick] at hexec
    refine ⟨_, hexec, rfl, ?_, fun n => Dev.meterSkipAll s.dev.meteredTenants s.dev.metersSeen n⟩
    exact foldl_keeps (keep := fun d : Dev => d.ctl.metq) (g := Dev.meterSkip) (fun _ _ => rfl) s.dev.meteredTenants s.dev.metersSeen
  · rw [exec_chunkFill hheld, hlate]; rfl
  · rw [exec_chunkFill hheld]
    rcases hidle with hlate | hnone
    · rw [if_pos hlate]; rfl
    · rw [fillGo_of_none hnone, ite_self]; rfl
  · rw [exec_reserveEpochWritten hheld hsp, if_pos hhave]
  · rw [exec_reserveEpochWritten hheld hsp, if_neg (by simp [hlacks])]

end Sys2Proof.Machine
end

section
/-! SUPPORT. Admitted commands (R71): the boundary of an admission, and what each kind of command does at once. -/

namespace Sys2Proof.Machine

/-! ### The admission itself -/

/-- An admission marks one command, takes one step off the round's list, and tells the partner (R71, R415). -/
theorem Dev.admitted_frame (d : Dev) (id : Nat) (k : Cmd) (w : WonStep) :
    ∃ f o, d.admitted id k w = { d.modCmd id fun k => { k with adm := some d.clk } with
      sch := { d.sch with won := d.sch.won.erase w }, fab := f, out := o } := Dev.mirrorControl_frame ..

@[simp] theorem Dev.admitted_won (d : Dev) (id : Nat) (k : Cmd) (w : WonStep) : (d.admitted id k w).sch.won = d.sch.won.erase w := by
  obtain ⟨f, o, h⟩ := d.admitted_frame id k w
  rw [h]

@[simp] theorem Dev.admitted_clk (d : Dev) (id : Nat) (k : Cmd) (w : WonStep) : (d.admitted id k w).clk = d.clk := by
  obtain ⟨f, o, h⟩ := d.admitted_frame id k w
  rw [h]; rfl

theorem Dev.admitted_cmds (d : Dev) (id : Nat) (k : Cmd) (w : WonStep) :
    (d.admitted id k w).rte.cmds = tmod d.rte.cmds id fun k => { k with adm := some d.clk } := by
  obtain ⟨f, o, h⟩ := d.admitted_frame id k w
  rw [h]; rfl

theorem Dev.admitted_self {d : Dev} {id : Nat} {k : Cmd} (hk : tget d.rte.cmds id = some k) (w : WonStep) :
    tget (d.admitted id k w).rte.cmds id = some { k with adm := some d.clk } := by
  rw [Dev.admitted_cmds, tget_tmod_self, hk]; rfl

theorem Dev.admitted_others (d : Dev) {id : Nat} (k : Cmd) (w : WonStep) {j : Nat} (hj : j ≠ id) :
    tget (d.admitted id k w).rte.cmds j = tget d.rte.cmds j := by
  rw [Dev.admitted_cmds, tget_tmod_other _ _ hj]

/-! ### What each kind of command does at once -/

/-- What a command does in the step that admits it (R71): a READ starts, the others act or wait. -/
def admittedActs (hd : Hbm × Dev) (id : Nat) (k : Cmd) : Hbm × Dev :=
  if k.op = opRead then (hd.1, hd.2.actRead id k) else actAdmitted hd id k

section Kinds
variable {h : Hbm} {d : Dev} {id : Nat} {k : Cmd}

/-- WRITE and SYNC commands wait for their data. -/
theorem admittedActs_waits (hop : k.op = opSync ∨ k.op = opWrite ∨ k.op = opMark) : admittedActs (h, d) id k = (h, d) := by
  rcases hop with hop | hop | hop <;> simp [admittedActs, actAdmitted, hop, opSync, opWrite, opMark, opRead, opOpen, opClose, opQuery, opHint]

theorem admittedActs_read (hop : k.op = opRead) : admittedActs (h, d) id k = (h, d.actRead id k) := if_pos hop

theorem admittedActs_open (hop : k.op = opOpen) : admittedActs (h, d) id k = actOpen (h, d) id k := by
  simp [admittedActs, actAdmitted, hop, opRead, opOpen]

theorem admittedActs_close (hop : k.op = opClose) : admittedActs (h, d) id k = (h, d.actClose id k) := by
  simp [admittedActs, actAdmitted, hop, opRead, opOpen, opClose]

theorem admittedActs_query (hop : k.op = opQuery) : admittedActs (h, d) id k = (h, d.actQuery id k) := by
  simp [admittedActs, actAdmitted, hop, opRead, opOpen, opClose, opQuery]

theorem admittedActs_hint (hop : k.op = opHint) : admittedActs (h, d) id k = (h, d.actHint id k) := by
  simp [admittedActs, actAdmitted, hop, opRead, opOpen, opClose, opQuery, opHint]

/-- A READ of a volume that is not mounted is refused (R52). -/
theorem Dev.actRead_unmounted (hvol : d.volAt k.readVol = none) : d.actRead id k = d.answer id stNotMounted 0 0 0 0 := by
  simp [Dev.actRead, hvol]

/-- A READ of a mounted volume starts at the data set that it names (R52). -/
theorem Dev.actRead_mounted (hvol : (d.volAt k.readVol).isSome = true) :
    d.actRead id k = d.modCmd id fun k => { k with rd := { k.rd with ds := leAt k.cap 16 6, next := k.firstOrd } } := by
  rw [Dev.actRead, if_neg (by simpa using Option.isSome_iff_ne_none.1 hvol)]

/-- A CLOSE waits for earlier commands of its session (R39). -/
theorem Dev.actClose_waits (hearlier : d.earlierOpen id k.session = true) : d.actClose id k = d := if_pos hearlier

/-- A HINT for a volume that is not mounted is refused (R58). -/
theorem Dev.actHint_unmounted (hvol : d.volAt (BitVec.ofNat 64 (leAt k.cap 8 8)) = none) :
    d.actHint id k = d.answer id stNotMounted 0 0 0 0 := by
  simp [Dev.actHint, hvol]

/-- The tenant may not use the class (R38). -/
theorem actOpen_class_denied (hclass : d.mayClass k.tenant (leAt k.cap 9 1) = false) :
    actOpen (h, d) id k = (h, d.answer id stClassDenied 0 0 0 0) := by
  simp [actOpen, hclass]

/-- A KEY_INDEX without ENCRYPT (R38). -/
theorem actOpen_key_denied (hclass : d.mayClass k.tenant (leAt k.cap 9 1) = true) (henc : bitOf (leAt k.cap 14 1) 1 = false)
    (hindex : leAt k.cap 10 2 ≠ 0) : actOpen (h, d) id k = (h, d.answer id stKeyDenied 0 0 0 0) := by
  simp [actOpen, hclass, henc, hindex]

end Kinds

/-! ### COMMAND_ADMISSION -/

/-- A write command of a span set that takes no more rows (R313, R314). -/
abbrev Dev.exhausts (d : Dev) (k : Cmd) : Prop := (k.op = opWrite ∨ k.op = opMark) ∧ d.takesNoRows k.session

/-- A command whose round has been won either finds its span set full or is admitted and acts (R71). -/
theorem exec_commandAdmission {s : State} {src : Src} {tag : BitVec 16} {id : Nat} {k : Cmd} {w : WonStep}
    (hheld : s.dev.coreHeld = false) (htag : s.dev.cmdByTag (srcKey src) tag = some (id, k)) (hadm : k.adm = none)
    (hwon : s.dev.sch.won.find? (fun w => w.cmd == id && decide (w.vis ≤ s.dev.clk)) = some w) :
    exec (.commandAdmission src tag) s = .next (s.withHd
      (if s.dev.exhausts k then
        (s.hbm, ({ s.dev with sch := { s.dev.sch with won := s.dev.sch.won.erase w } } : Dev).failAnswer id stSpanExhausted)
      else admittedActs (s.hbm, s.dev.admitted id k w) id k)) := by
  have hrow : exec (.commandAdmission src tag) s = execCommandAdmission src tag s := rfl
  rw [hrow, execCommandAdmission, nextHd_ok _ _ hheld]
  simp only [htag, hadm, hwon, Option.isSome_none, Bool.false_eq_true, if_false]
  rfl

theorem Dev.not_exhausts_of_room {d : Dev} {k : Cmd} (hroom : d.takesNoRows k.session = false) : ¬ d.exhausts k := by
  simp [hroom]

theorem Dev.not_exhausts_of_op {d : Dev} {k : Cmd} (hwrite : k.op ≠ opWrite) (hmark : k.op ≠ opMark) : ¬ d.exhausts k :=
  fun hfull => hfull.1.elim hwrite hmark

/-- Settles O29: the admission leaves `Dev.admitted`, on which the command's kind decides what it does at once. -/
theorem admittedCommandsAct : Obligations.AdmittedCommandsAct := by
  intro s src tag id k w hheld htag hk hadm hwon d
  have hacts (hroom : ¬ s.dev.exhausts k) {e : Dev} (he : admittedActs (s.hbm, d) id k = (s.hbm, e)) :
      exec (.commandAdmission src tag) s = .next (s.withDev e) := by
    rw [exec_commandAdmission hheld htag hadm hwon, if_neg hroom, he]; rfl
  have hother {op : Nat} (hop : k.op = op) (hwrite : op ≠ opWrite) (hmark : op ≠ opMark) : ¬ s.dev.exhausts k :=
    Dev.not_exhausts_of_op (hop ▸ hwrite) (hop ▸ hmark)
  have hread (hop : k.op = opRead) := hother hop (by decide) (by decide)
  have hquery (hop : k.op = opQuery) := hother hop (by decide) (by decide)
  have hopen (hop : k.op = opOpen) := hother hop (by decide) (by decide)
  refine ⟨⟨Dev.admitted_self hk w, Dev.admitted_won .., Dev.admitted_clk .., fun j hj => Dev.admitted_others _ k w hj⟩,
    ?_, ?_, ?_, ?_, ?_, ?_, ?_, ?_, ?_, ?_⟩
  · rintro (hop | ⟨hop, hroom⟩)
    · exact hacts (hother hop (by decide) (by decide)) (admittedActs_waits (.inl hop))
    · exact hacts (Dev.not_exhausts_of_room hroom) (admittedActs_waits (.inr hop))
  · exact fun hop hfull => by rw [exec_commandAdmission hheld htag hadm hwon, if_pos ⟨hop, hfull⟩]; rfl
  · exact fun hop hvol => hacts (hread hop) ((admittedActs_read hop).trans (by rw [Dev.actRead_unmounted hvol]; rfl))
  · exact fun hop hvol => hacts (hread hop) ((admittedActs_read hop).trans (by rw [Dev.actRead_mounted hvol]))
  · exact fun hop hearlier => hacts (hother hop (by decide) (by decide))
      ((admittedActs_close hop).trans (by rw [Dev.actClose_waits hearlier]))
  · exact fun hop hkind => hacts (hquery hop) ((admittedActs_query hop).trans (by rw [Dev.actQuery, if_pos hkind]; rfl))
  · exact fun hop hkind => hacts (hquery hop) ((admittedActs_query hop).trans (by rw [Dev.actQuery, if_neg hkind]; rfl))
  · exact fun hop hvol => hacts (hother hop (by decide) (by decide))
      ((admittedActs_hint hop).trans (by rw [Dev.actHint_unmounted hvol]; rfl))
  · exact fun hop hclass => hacts (hopen hop) ((admittedActs_open hop).trans (actOpen_class_denied hclass))
  · exact fun hop hclass henc hindex => hacts (hopen hop) ((admittedActs_open hop).trans (actOpen_key_denied hclass henc hindex))

end Sys2Proof.Machine
end

section
/-! SUPPORT. Admin descriptors (R90, R384, R385, R394): one rule for each outcome of taking one from ring 0, and the rows that do. -/

namespace Sys2Proof.Machine

/-! ### Taking a descriptor -/

/-- While the cores do not run, or ring 0 may not be served, nothing is taken. -/
theorem adminTake_idle (h : Hbm) {d : Dev} (i : Instr) (op : Nat) (x : List Byte) (act : Hbm × Dev → Hbm × Dev)
    (hidle : d.coresRun = false ∨ d.ringMay 0 = false) : adminTake (h, d) i op x act = (h, d) := by
  refine if_pos ?_
  rcases hidle with hidle | hidle <;> simp [hidle]

@[simp] theorem Dev.ringNext_adminTag (d : Dev) (r : Nat) (tag : BitVec 16) : (d.ringNext r).adminTag tag = d.adminTag tag := rfl

theorem adminNamed_of_listed {op : Nat} {x : List Byte} (hlisted : adminFields op ≠ []) (hop : capOpcode x = op) :
    adminNamed op x = true := by
  have : op ≠ 0xFF := fun h => hlisted (h ▸ rfl)
  simp [adminNamed, this, hop]

section Take
variable {h : Hbm} {d : Dev} {i : Instr} {op : Nat} {x : List Byte} {act : Hbm × Dev → Hbm × Dev}
  (hlisted : adminFields op ≠ []) (harrive : adminArrives d op x)
include hlisted harrive

/-- A listed descriptor that arrives is taken from ring 0 and checked (R384, R385). -/
theorem adminTake_arrived : adminTake (h, d) i op x act =
    if d.adminTag (capTag x) then (h, (d.ringNext 0).adminDone (capTag x) stTagInUse 0)
    else if x.length ≠ 64 ∨ ! adminReservedClear op x then (h, (d.ringNext 0).adminDone (capTag x) stFieldInvalid 0)
    else if d.ctl.activating.isSome then
      (h, { d.ringNext 0 with ctl := { (d.ringNext 0).ctl with held := d.ctl.held ++ [i] } })
    else act (h, d.ringNext 0) := by
  obtain ⟨hrun, hmay, hop⟩ := harrive
  have hserved : ¬ (! d.coresRun ∨ ! d.ringMay 0 ∨ ! adminNamed op x) := by
    simp [hrun, hmay, adminNamed_of_listed hlisted hop]
  have hfields : ¬ adminFields (capOpcode x) = [] := by rwa [hop]
  simp only [adminTake, if_neg hserved, if_neg hfields, Dev.ringNext_adminTag]
  rfl

theorem adminTake_tag_in_use (htag : d.adminTag (capTag x) = true) :
    adminTake (h, d) i op x act = (h, (d.ringNext 0).adminDone (capTag x) stTagInUse 0) :=
  (adminTake_arrived hlisted harrive).trans (if_pos htag)

theorem adminTake_malformed (htag : d.adminTag (capTag x) = false) (hbad : x.length ≠ 64 ∨ adminReservedClear op x = false) :
    adminTake (h, d) i op x act = (h, (d.ringNext 0).adminDone (capTag x) stFieldInvalid 0) := by
  rw [adminTake_arrived hlisted harrive, if_neg (by simp [htag]), if_pos (by simpa using hbad)]

/-- A descriptor that passes its checks acts, unless firmware is being activated: then it is held (R90, R394). -/
theorem adminTake_valid (hvalid : adminValid d op x) : adminTake (h, d) i op x act =
    if d.ctl.activating.isSome then
      (h, { d.ringNext 0 with ctl := { (d.ringNext 0).ctl with held := d.ctl.held ++ [i] } })
    else act (h, d.ringNext 0) := by
  obtain ⟨htag, hlen, hclear⟩ := hvalid
  rw [adminTake_arrived hlisted harrive, if_neg (by simp [htag]), if_neg (by simp [hlen, hclear])]

end Take

/-! ### The rows -/

/-- The command `i` is one of the admin rows: it has the control cores take `x` under the listed opcode `op` and do `act` (R385). -/
def TakesDescriptor (i : Instr) (op : Nat) (x : List Byte) (act : Dev → Dev) : Prop :=
  adminFields op ≠ [] ∧ ∀ s, exec i s = nextHd s fun hd => adminTake hd i op x fun hd => (hd.1, act hd.2)

theorem adminRows_listed : ∀ p ∈ adminRows, adminFields p.2.1 ≠ [] := by simp [adminRows, adminFields]

theorem adminDataRows_listed : ∀ p ∈ adminDataRows, adminFields p.2.1 ≠ [] := by simp [adminDataRows, adminFields]

theorem adminRows_takeDescriptor {p : (List Byte → Instr) × Nat × (Dev → List Byte → Dev)} (hp : p ∈ adminRows) (x : List Byte) :
    TakesDescriptor (p.1 x) p.2.1 x (p.2.2 · x) := by
  refine ⟨adminRows_listed p hp, fun s => ?_⟩
  simp only [adminRows, List.mem_cons, List.not_mem_nil, or_false] at hp
  rcases hp with rfl | rfl | rfl | rfl | rfl | rfl | rfl | rfl | rfl | rfl | rfl | rfl | rfl | rfl | rfl | rfl <;> rfl

theorem adminDataRows_takeDescriptor {p : (List Byte → List Byte → Instr) × Nat × (Dev → List Byte → List Byte → Dev)}
    (hp : p ∈ adminDataRows) (x y : List Byte) : TakesDescriptor (p.1 x y) p.2.1 x (p.2.2 · x y) := by
  refine ⟨adminDataRows_listed p hp, fun s => ?_⟩
  simp only [adminDataRows, List.mem_cons, List.not_mem_nil, or_false] at hp
  rcases hp with rfl | rfl | rfl | rfl <;> rfl

namespace TakesDescriptor
variable {i : Instr} {op : Nat} {x : List Byte} {act : Dev → Dev} (hrow : TakesDescriptor i op x act)
  {s : State} (hheld : s.dev.coreHeld = false)
include hrow hheld

/-- What the control cores leave is what the row leaves, and memory as it was. -/
theorem exec_eq {e : Dev} (htake : adminTake (s.hbm, s.dev) i op x (fun hd => (hd.1, act hd.2)) = (s.hbm, e)) :
    exec i s = .next (s.withDev e) := by
  rw [hrow.2, nextHd_ok s _ hheld, htake]; rfl

theorem exec_acts (harrive : adminArrives s.dev op x) (hvalid : adminValid s.dev op x) (hcalm : s.dev.ctl.activating = none) :
    exec i s = .next (s.withDev (act (s.dev.ringNext 0))) :=
  hrow.exec_eq hheld ((adminTake_valid hrow.1 harrive hvalid).trans (if_neg (by simp [hcalm])))

theorem exec_held (harrive : adminArrives s.dev op x) (hvalid : adminValid s.dev op x) (hact : s.dev.ctl.activating.isSome = true) :
    exec i s = .next (s.withDev { s.dev.ringNext 0 with
      ctl := { (s.dev.ringNext 0).ctl with held := s.dev.ctl.held ++ [i] } }) :=
  hrow.exec_eq hheld ((adminTake_valid hrow.1 harrive hvalid).trans (if_pos hact))

end TakesDescriptor

/-- Settles O49: every admin row has the control cores take its descriptor, so one rule for each outcome serves all rows. -/
theorem adminCommandsActOrAreRefused : Obligations.AdminCommandsActOrAreRefused := by
  refine ⟨⟨fun p hp s x hheld harrive hvalid => ?_, fun p hp s x y hheld harrive hvalid => ?_⟩, fun p hp s x hheld => ?_⟩
  · have hrow := adminRows_takeDescriptor hp x
    exact ⟨hrow.exec_acts hheld harrive hvalid, fun hact => ⟨_, hrow.exec_held hheld harrive hvalid hact, rfl, rfl, rfl, rfl, rfl⟩⟩
  · have hrow := adminDataRows_takeDescriptor hp x y
    exact ⟨hrow.exec_acts hheld harrive hvalid, fun hact => ⟨_, hrow.exec_held hheld harrive hvalid hact, rfl, rfl, rfl, rfl, rfl⟩⟩
  · have hrow := adminRows_takeDescriptor hp x
    exact ⟨fun harrive htag => hrow.exec_eq hheld (adminTake_tag_in_use hrow.1 harrive htag),
      fun harrive htag hbad => hrow.exec_eq hheld (adminTake_malformed hrow.1 harrive htag hbad),
      fun hidle => hrow.exec_eq hheld (adminTake_idle s.hbm _ _ _ _ hidle)⟩

end Sys2Proof.Machine
end

section
/-! SUPPORT. Closing, dispatching and sealing chunks (R95 to R99, R113). -/

namespace Sys2Proof.Machine

/-! ### A change of one entry -/

theorem Dev.tget_modChunk (d : Dev) (id : Nat) (f : Chunk → Chunk) : tget (d.modChunk id f).ses.chunks id = (tget d.ses.chunks id).map f :=
  tget_tmod_self d.ses.chunks id f

theorem Dev.tget_modChunk_other (d : Dev) {id j : Nat} (f : Chunk → Chunk) (h : j ≠ id) :
    tget (d.modChunk id f).ses.chunks j = tget d.ses.chunks j := tget_tmod_other d.ses.chunks f h

@[simp] theorem Dev.modChunk_sessions (d : Dev) (id : Nat) (f : Chunk → Chunk) : (d.modChunk id f).ses.sessions = d.ses.sessions := rfl

theorem Dev.tget_modSes (d : Dev) (n : Nat) (f : Session → Session) :
    tget (d.modSes n f).ses.sessions n = (tget d.ses.sessions n).map f := tget_tmod_self d.ses.sessions n f

@[simp] theorem bufWrite_ses (hd : Hbm × Dev) (b : BitVec 32) (off : Nat) (bs : List Byte) (poison : Bool) :
    (bufWrite hd b off bs poison).2.ses = hd.2.ses := by
  obtain ⟨r, m, c, q, h, e⟩ := bufWrite_memOnly hd b off bs poison
  rw [e]

/-- A row over memory and the device does what its operation does to them. -/
theorem nextHd_of_eq {s : State} (hheld : s.dev.coreHeld = false) {f : Hbm × Dev → Hbm × Dev} {e : Hbm × Dev}
    (hf : f (s.hbm, s.dev) = e) : nextHd s f = .next (s.withHd e) := by
  rw [nextHd_ok s f hheld, hf]

/-! ### Closing (R95, R96) -/

/-- The rows by which the open chunk of a session closes (R95). -/
def closingRows (n : Nat) : List Instr := [.chunkClose n, .chunkHoldExpiry n, .chunkAgeExpiry n]

/-- The cause of a closing row holds for the open chunk `c` of session `n` (R95). -/
def Dev.closeCause (d : Dev) (n : Nat) (c : Chunk) : Instr → Bool
  | .chunkClose _ => d.closeWanted n c
  | .chunkHoldExpiry _ => decide (c.lastByte + d.holdTicks < d.clk)
  | .chunkAgeExpiry _ => decide (c.opened + d.ageTicks < d.clk)
  | _ => false

theorem Dev.closeWanted_iff (d : Dev) (n : Nat) (c : Chunk) : d.closeWanted n c = true ↔
    c.lastByte < d.clk ∧ ((∃ b, c.dueAt = some b ∧ b < d.clk) ∨ c.origLen = 65536 ∨ d.closeForSync n = true) := by
  simp [Dev.closeWanted, chunkMax, or_assoc, Option.any_eq_true]

/-- The device once the open chunk of session `n` has closed (R95, R99). -/
def Dev.chunkClosed (d : Dev) (n cid : Nat) : Dev :=
  (({ d with ses := { d.ses with closures := d.ses.closures + 1 } } : Dev).modSes n fun s => { s with open_ := none }).modChunk cid fun c =>
    { c with st := .closed, crc := c.crc ^^^ 0xFFFFFFFF#32, dueAt := some d.clk, vis := d.clk + 1 }

theorem Dev.chunkClosed_chunk (d : Dev) (n cid : Nat) : tget (d.chunkClosed n cid).ses.chunks cid =
    (tget d.ses.chunks cid).map fun c => { c with st := .closed, crc := c.crc ^^^ 0xFFFFFFFF#32, dueAt := some d.clk, vis := d.clk + 1 } := by
  rw [Dev.chunkClosed, Dev.tget_modChunk]; rfl

theorem Dev.chunkClosed_session (d : Dev) (n cid : Nat) :
    tget (d.chunkClosed n cid).ses.sessions n = (tget d.ses.sessions n).map fun x => { x with open_ := none } := by
  rw [Dev.chunkClosed, Dev.modChunk_sessions, Dev.tget_modSes]

section Open
variable {n cid : Nat} {x : Session} {c : Chunk}

/-- While closures are left in the tick the chunk closes (R96). -/
theorem Dev.closeChunk_closes {d : Dev} (hc : tget d.ses.chunks cid = some c)
    (hroom : d.ses.closures + d.closeBefore n (c.dueAt.getD d.clk) < 2048) : d.closeChunk n cid = d.chunkClosed n cid := by
  simp only [Dev.closeChunk, hc, Option.bind_some]
  exact if_neg (Nat.not_le.2 hroom)

/-- Once no closure is left in the tick the chunk stays open and due (R96). -/
theorem Dev.closeChunk_waits {d : Dev} (hc : tget d.ses.chunks cid = some c)
    (hfull : 2048 ≤ d.ses.closures + d.closeBefore n (c.dueAt.getD d.clk)) :
    d.closeChunk n cid = d.modChunk cid fun h => { h with dueAt := some (c.dueAt.getD d.clk) } := by
  simp only [Dev.closeChunk, hc, Option.bind_some]
  exact if_pos hfull

theorem Dev.openOf_eq {d : Dev} (hx : tget d.ses.sessions n = some x) (hopen : x.open_ = some cid) (hc : tget d.ses.chunks cid = some c) :
    d.openOf n = some (cid, c) := by
  simp only [Dev.openOf, hx, hopen, hc, Option.bind_some, Option.map_some]

variable {s : State} {i : Instr} (hheld : s.dev.coreHeld = false) (hfound : s.dev.openOf n = some (cid, c)) (hi : i ∈ closingRows n)
include hheld hfound hi

theorem exec_closingRow : exec i s =
    .next (s.withDev (if s.dev.closeCause n c i = true ∧ s.dev.sesLate = false then s.dev.closeChunk n cid else s.dev)) := by
  simp only [closingRows, List.mem_cons, List.not_mem_nil, or_false] at hi
  rcases hi with rfl | rfl | rfl
  · refine (nextDev_of_eq hheld ?_ : execChunkClose n s = _)
    simp only [hfound]
    rfl
  · refine (nextDev_of_eq hheld ?_ : execChunkHoldExpiry n s = _)
    simp only [hfound, Dev.closeCause, decide_eq_true_eq]
  · refine (nextDev_of_eq hheld ?_ : execChunkAgeExpiry n s = _)
    simp only [hfound, Dev.closeCause, decide_eq_true_eq]

theorem exec_closingRow_acts (hcause : s.dev.closeCause n c i = true) (hlate : s.dev.sesLate = false) :
    exec i s = .next (s.withDev (s.dev.closeChunk n cid)) := by
  rw [exec_closingRow hheld hfound hi, if_pos ⟨hcause, hlate⟩]

theorem exec_closingRow_waits (h : s.dev.closeCause n c i = false ∨ s.dev.sesLate = true) : exec i s = .next s := by
  rw [exec_closingRow hheld hfound hi, if_neg]
  rcases h with h | h <;> simp [h]

end Open

/-- Settles O33: the three closing rows differ in their cause alone, and the tick's closures decide between closing and waiting.
That a cause needs whole ticks is the model's choice (entries 30 and 31). -/
theorem chunksClose : Obligations.ChunksClose := by
  intro s n cid x c hheld hx hopen hc
  have hfound := Dev.openOf_eq hx hopen hc
  have hacts {i : Instr} := exec_closingRow_acts (i := i) hheld hfound
  have hwaits {i : Instr} := exec_closingRow_waits (i := i) hheld hfound
  refine ⟨fun hlate i hi => hwaits hi (.inr hlate), fun hlate i hi hwanted hhold hage => ?_, fun h => ?_, fun h => ?_, fun h => ?_⟩
  · have hcause : s.dev.closeCause n c i = true := by
      simp only [List.mem_cons, List.not_mem_nil, or_false] at hi
      rcases hi with rfl | rfl | rfl
      · exact (s.dev.closeWanted_iff n c).2 (hwanted rfl)
      · exact decide_eq_true (hhold rfl)
      · exact decide_eq_true (hage rfl)
    refine ⟨_, hacts hi hcause hlate, rfl, fun hroom => ?_, fun hfull => ?_⟩
    · rw [Dev.closeChunk_closes hc hroom]
      exact ⟨by rw [Dev.chunkClosed_chunk, hc]; rfl, by rw [Dev.chunkClosed_session, hx]; rfl, rfl⟩
    · rw [Dev.closeChunk_waits hc hfull]
      exact ⟨by rw [Dev.tget_modChunk, hc]; rfl, rfl⟩
  · refine hwaits (by simp [closingRows]) (.inl ?_)
    simp [Dev.closeCause, Dev.closeWanted, h]
  · refine hwaits (by simp [closingRows]) (.inl ?_)
    simpa [Dev.closeCause] using h
  · refine hwaits (by simp [closingRows]) (.inl ?_)
    simpa [Dev.closeCause] using h

/-! ### The drupelet that takes a job (R113) -/

/-- `best` is one of the candidates with the least measure, and is none only when there is no candidate. -/
def LeastBy (m : Nat → Nat) (cands : List Nat) : Option Nat → Prop
  | none => cands = []
  | some i => i ∈ cands ∧ ∀ j ∈ cands, m i ≤ m j

theorem Dev.druBest_leastBy (d : Dev) (m : Nat → Nat) (cands : List Nat) :
    LeastBy m cands (d.druBest cands (fun a b => decide (a < b)) m) := by
  induction cands using List.reverseRecOn with
  | nil => rfl
  | append_singleton cands k ih =>
    unfold Dev.druBest at ih ⊢
    rw [List.foldl_append]
    generalize List.foldl _ none cands = best at ih ⊢
    cases best with
    | none =>
      obtain rfl : cands = [] := ih
      simp [LeastBy]
    | some j =>
      obtain ⟨hj, hleast⟩ := ih
      simp only [List.foldl_cons, List.foldl_nil, decide_eq_true_eq]
      split
      · refine ⟨by simp, fun l hl => ?_⟩
        rcases List.mem_append.1 hl with hl | hl
        · have := hleast l hl; omega
        · rw [List.mem_singleton.1 hl]
      · refine ⟨List.mem_append_left _ hj, fun l hl => ?_⟩
        rcases List.mem_append.1 hl with hl | hl
        · exact hleast l hl
        · rw [List.mem_singleton.1 hl]; omega

/-- A write job goes behind the others of a drupelet of the write role that has room and the fewest pending quanta. -/
theorem Dev.druQueue_write {d e : Dev} {j : Job} (hj : j.rd = false) (h : d.druQueue j false = some e) :
    ∃ i, i < 48 ∧ d.druWrite i = true ∧ (d.druAt i).queue.length < 8 ∧ e = d.modDru i (fun u => { u with queue := u.queue ++ [j] }) ∧
      ∀ k, k < 48 → d.druWrite k = true → (d.druAt k).queue.length < 8 → d.pending (d.druAt i) ≤ d.pending (d.druAt k) := by
  simp only [Dev.druQueue, Option.map_eq_some_iff] at h
  obtain ⟨i, hbest, rfl⟩ := h
  have hleast := d.druBest_leastBy (fun i => d.pending (d.druAt i))
    ((List.range 48).filter fun i => d.druWrite i != j.rd && decide ((d.druAt i).queue.length < 8))
  rw [hbest] at hleast
  obtain ⟨hi, hleast⟩ := hleast
  simp only [List.mem_filter, List.mem_range, hj, Bool.bne_false, Bool.and_eq_true, decide_eq_true_eq] at hi hleast
  obtain ⟨hlt, hrole, hroom⟩ := hi
  exact ⟨i, hlt, hrole, hroom, rfl, fun k hk hkrole hkroom => hleast k ⟨hk, hkrole, hkroom⟩⟩

/-! ### Dispatch (R97) -/

/-- Another closed chunk with its stored buffer goes before `c` (R97). -/
def Dev.closedEarlier (d : Dev) (id : Nat) (c : Chunk) : Bool :=
  d.ses.chunks.any fun o => o.2.st == .closed && o.2.stored.isSome && ! o.2.poisoned && o.1 != id &&
    (decide (o.2.vis < c.vis) || (o.2.vis == c.vis && decide (o.2.session < c.session)))

/-- The device once the chunk has gone to a drupelet, or waits for one with room. -/
def Dev.dispatched (d : Dev) (id : Nat) : Dev :=
  (d.druQueue { rd := false, id := id } false).elim d fun e => e.modChunk id fun c => { c with st := .queued, vis := d.clk + 1 }

section Rows
variable {s : State} {id : Nat} {c : Chunk} (hheld : s.dev.coreHeld = false) (hc : tget s.dev.ses.chunks id = some c)
include hheld hc

theorem exec_chunkDispatch : exec (.chunkDispatch id) s = .next (s.withDev
    (if c.st = .closed ∧ ! c.poisoned ∧ c.stored.isSome ∧ ! s.dev.closedEarlier id c ∧ s.dev.sesLate = false then s.dev.dispatched id
    else s.dev)) := by
  refine (nextDev_of_eq hheld ?_ : execChunkDispatch id s = _)
  simp only [hc]
  refine if_congr Iff.rfl ?_ rfl
  rw [Dev.dispatched]
  cases hqueue : s.dev.druQueue { rd := false, id := id } false with
  | none => rfl
  | some e =>
    obtain ⟨i, -, -, -, rfl, -⟩ := Dev.druQueue_write rfl hqueue
    rfl

theorem exec_chunkSeal : exec (.chunkSeal id) s = .next (s.withHd
    (if c.st = .ready ∧ c.vis ≤ s.dev.clk ∧ s.dev.sesLate = false then sealChunk (s.hbm, s.dev) id c else (s.hbm, s.dev))) := by
  refine (nextHd_of_eq hheld ?_ : execChunkSeal id s = _)
  simp only [hc]

end Rows

/-! ### The seal (R98, R99, R123) -/

/-- An encrypted chunk waits for its key (R123). -/
theorem sealChunk_of_keyOf_none (h : Hbm) {d : Dev} (id : Nat) {c : Chunk} (henc : c.enc = true) (hkey : d.keyOf c.key c.tenant = none) :
    sealChunk (h, d) id c = (h, d) := by
  unfold sealChunk
  cases c.stored <;> simp [henc, hkey]

theorem sealChunk_plain (hd : Hbm × Dev) (id : Nat) {c : Chunk} {b : BitVec 32} (hb : c.stored = some b) (henc : c.enc = false) :
    sealChunk hd id c = sealHeader hd id c b := by
  simp [sealChunk, hb, henc]

theorem sealHeader_chunk (hd : Hbm × Dev) (id : Nat) (c : Chunk) (b : BitVec 32) :
    tget (sealHeader hd id c b).2.ses.chunks id = (tget hd.2.ses.chunks id).map fun c => { c with st := .sealed } := by
  rw [sealHeader, Dev.tget_modChunk, Dev.modTenant_ses, bufWrite_ses]

theorem sealHeader_cmp (hd : Hbm × Dev) (id : Nat) (c : Chunk) (b : BitVec 32) :
    ((sealHeader hd id c b).2.tenantAt c.tenant).cmp = ((hd.2.tenantAt c.tenant).cmp + c.storedLen + 32) % 2 ^ 64 := by
  have hmeter (d : Dev) (f : Tenant → Tenant) (g : Chunk → Chunk) :
      ((d.modTenant c.tenant f).modChunk id g).tenantAt c.tenant = f (d.tenantAt c.tenant) := Dev.tenantAt_modTenant_self d _ f
  rw [sealHeader, hmeter, Dev.tenantAt, bufWrite_rte, ← Dev.tenantAt]

/-- Settles O34: the fold over the drupelets keeps one with the fewest pending quanta, and each row acts exactly when its rule's
condition holds. -/
theorem chunksDispatchAndSeal : Obligations.ChunksDispatchAndSeal := by
  refine ⟨fun s id c hheld hc => ?_, fun h d id c henc hkey => sealChunk_of_keyOf_none h id henc hkey, fun h d id c b hc hb henc => ?_⟩
  · have hdispatch := exec_chunkDispatch hheld hc
    have hseal := exec_chunkSeal hheld hc
    refine ⟨fun hst hgood hstored hlate hfirst => ?_, fun d => Dev.druQueue_write rfl, fun hst hvis hlate => ?_, fun hwait => ?_, fun hlate => ?_⟩
    · rw [if_pos ⟨hst, by simp [hgood], hstored, by simpa [Dev.closedEarlier] using hfirst, hlate⟩] at hdispatch
      exact ⟨fun d hd => by rw [hdispatch, Dev.dispatched, hd]; rfl, fun hfull => by rw [hdispatch, Dev.dispatched, hfull]; rfl⟩
    · rw [hseal, if_pos ⟨hst, hvis, hlate⟩]
    · rw [hseal, if_neg]
      · rfl
      · rintro ⟨hst, hvis, hlate⟩
        rcases hwait with h | h | h
        · exact h hst
        · omega
        · simp [h] at hlate
    · rw [hdispatch, if_neg]
      simp [hlate]
  · rw [sealChunk_plain _ id hb henc]
    exact ⟨rfl, by rw [sealHeader_chunk, hc]; rfl, sealHeader_cmp ..⟩

end Sys2Proof.Machine
end

section
/-! SUPPORT. Poisoned chunks that run again, and key entries that arrive (R121 to R124, R127). -/

namespace Sys2Proof.Machine

/-! ### CHUNK_REFETCH (R127) -/

@[simp] theorem Dev.poolRequest_ses (d : Dev) (size owner releaser : Nat) (upgrade : Bool) (use : PoolUse) :
    (d.poolRequest size owner releaser upgrade use).ses = d.ses := by
  unfold Dev.poolRequest
  split <;> rfl

/-- What CHUNK_REFETCH does to a chunk by its poison and its stage (R127). -/
theorem exec_chunkRefetch {s : State} {id : Nat} {c : Chunk} (hheld : s.dev.coreHeld = false) (hc : tget s.dev.ses.chunks id = some c)
    (stream : Option (List Byte)) : exec (.chunkRefetch id stream) s = .next (s.withHd
      (if c.poisoned = false then (s.hbm, s.dev)
      else if c.st = .closed then stream.elim (s.hbm, s.dev.dropChunk id 0x46) (refetchChunk (s.hbm, s.dev) id c)
      else if c.st = .placed then
        stream.elim (s.hbm, s.dev.modChunk id fun c => { c with st := .lost, why := 0x46 }) (refetchPlaced (s.hbm, s.dev) id c)
      else (s.hbm, s.dev))) := by
  refine (nextHd_of_eq hheld ?_ : execChunkRefetch id stream s = _)
  simp only [hc, Bool.not_eq_true']
  cases stream <;> rfl

/-- A chunk that waits with its original Kilderkin takes the stream that comes back. -/
theorem refetchChunk_of_orig (h : Hbm) (d : Dev) (id : Nat) {c : Chunk} {b : BitVec 32} (hb : c.orig = some b) (bs : List Byte) :
    refetchChunk (h, d) id c bs = ((bufWrite (h, d) b 0 bs false).1,
      ((bufWrite (h, d) b 0 bs false).2.modChunk id fun c => { c with orig := some b, poisoned := false, vis := 0 }).poolRequest
        65536 2 4 false (.stored id)) := by
  simp only [refetchChunk, hb]

theorem refetchChunk_hbm (h : Hbm) (d : Dev) (id : Nat) {c : Chunk} {b : BitVec 32} (hb : c.orig = some b) (bs : List Byte) :
    (refetchChunk (h, d) id c bs).1 = (bufWrite (h, d) b 0 bs false).1 := by
  rw [refetchChunk_of_orig h d id hb]

theorem refetchChunk_chunk (h : Hbm) (d : Dev) (id : Nat) {c : Chunk} {b : BitVec 32} (hb : c.orig = some b) (bs : List Byte) :
    tget (refetchChunk (h, d) id c bs).2.ses.chunks id =
      (tget d.ses.chunks id).map fun c => { c with orig := some b, poisoned := false, vis := 0 } := by
  rw [refetchChunk_of_orig h d id hb, Dev.poolRequest_ses, Dev.tget_modChunk, bufWrite_ses]

/-! ### KEY_FETCH (R121, R123) -/

/-- The device once the entry of key `i` that was asked for has come. -/
def Dev.keyCame (d : Dev) (i : Nat) : Dev := { d with dru := { d.dru with fetching := d.dru.fetching.erase i } }

/-- The device once the entry of key `i` counts as empty: no earlier key of the index stands, and the index has failed (R124). -/
def Dev.keyBad (d : Dev) (i : Nat) : Dev :=
  ({ d with dru := { d.dru with keys := d.dru.keys.filter (·.index != i), badKeys := i :: d.dru.badKeys } } : Dev).keyFails i

/-- The device once key `i` of a tenant is in the cache, where others see it from the next boundary on (R11, R123). -/
def Dev.keyGood (d : Dev) (i : Nat) (x : Nat × List Byte) : Dev :=
  (d.cacheKey { index := i, tenant := x.1, key := x.2, vis := d.clk + 1 }).keyFails i

theorem Dev.keyArrives_unwraps {d : Dev} {i : Nat} {e kek : List Byte} {x : Nat × List Byte} (hkek : d.hlt.kek = some kek)
    (hx : entryKey kek e i = some x) : d.keyArrives i e = (d.keyCame i).keyGood i x := by
  simp only [Dev.keyArrives, hkek, Option.bind_some, hx]
  rfl

theorem Dev.keyArrives_fails {d : Dev} {i : Nat} {e : List Byte} (h : (d.hlt.kek.bind fun kek => entryKey kek e i) = none) :
    d.keyArrives i e = (d.keyCame i).keyBad i := by
  simp only [Dev.keyArrives, h]
  rfl

theorem exec_keyFetch {s : State} (hheld : s.dev.coreHeld = false) (i : Nat) (e : List Byte) : exec (.keyFetch i e) s =
    .next (s.withDev (if s.dev.dru.fetching.contains i then s.dev.keyArrives i e else s.dev)) :=
  (nextDev_of_eq hheld rfl : execKeyFetch i e s = _)

/-- An entry that is not valid or has index 0, a tenant out of range or another index than its own is not usable (R121). -/
theorem entryKey_of_invalid {e : List Byte} {i : Nat} (h : leAt e 4 1 % 2 = 0 ∨ i = 0 ∨ 16384 ≤ leAt e 0 2 ∨ leAt e 2 2 ≠ i)
    (kek : List Byte) : entryKey kek e i = none := by
  refine if_neg ?_
  rintro ⟨hvalid, hpos, htenant, hindex⟩
  omega

/-- Settles O35: what a poisoned chunk does follows from its stage, and what a key entry does from whether it unwraps. That an entry
of another index does not is the model's choice (entry 169). -/
theorem refetchAndKeyFetch : Obligations.RefetchAndKeyFetch := by
  refine ⟨fun s id c hheld hc => ?_, fun s i e hheld => ⟨fun hidle => ?_, fun hasked => ?_, entryKey_of_invalid⟩⟩
  · have hexec := exec_chunkRefetch hheld hc
    refine ⟨fun hgood bs => ?_, fun hbad hst => ?_, fun hbad hst => ?_⟩
    · rw [hexec, if_pos hgood]; rfl
    · simp only [hbad, hst, Bool.true_eq_false, if_false, if_true] at hexec
      refine ⟨hexec none, fun bs b hb => ⟨_, hexec (some bs), refetchChunk_hbm s.hbm s.dev id hb bs, ?_⟩⟩
      exact (refetchChunk_chunk s.hbm s.dev id hb bs).trans (by rw [hc]; rfl)
    · simp only [hbad, hst, Bool.true_eq_false, reduceCtorEq, if_false, if_true] at hexec
      refine ⟨⟨_, hexec none, rfl, ?_⟩, fun bs => hexec (some bs)⟩
      exact (Dev.tget_modChunk ..).trans (by rw [hc]; rfl)
  · rw [exec_keyFetch hheld, hidle]; rfl
  · have hexec := exec_keyFetch hheld i e
    rw [if_pos hasked] at hexec
    refine ⟨fun kek hkek => ?_, fun hkek => ?_⟩
    · cases hx : entryKey kek e i with
      | none => rw [hexec, Dev.keyArrives_fails (by rw [hkek]; exact hx)]; rfl
      | some x => rw [hexec, Dev.keyArrives_unwraps hkek hx]; rfl
    · rw [hexec, Dev.keyArrives_fails (by rw [hkek]; rfl)]; rfl

end Sys2Proof.Machine
end

section
/-! SUPPORT. Placing chunks in the open row and closing it (R115, R137, R138, R302). -/

namespace Sys2Proof.Machine

/-! ### Placing a chunk (R135, R137) -/

/-- An open row once chunk `id` stands last in member `m`'s data set (R135). -/
def Row.takes (r : Row) (id m clk : Nat) : Row :=
  { r with chunks := lmod r.chunks m (· ++ [id]), firstAt := some (r.firstAt.getD clk) }

/-- A span set once its open row is `r` and the session whose member was `old` has gone to member `m` (R137). -/
def Span.takes (x : Span) (old : Option Nat) (m : Nat) (r : Row) : Span :=
  { x with lastMember := if old = some m then x.lastMember else some m, rows := tput x.rows x.openRow r }

/-- A chunk once it stands at place `dir` of member `m`'s data set. -/
def Chunk.placedIn (c : Chunk) (m row dir vis : Nat) : Chunk :=
  { c with st := .placed, member := m, row := row, dir := dir, vis := vis }

section Place
variable (d : Dev) (id slot m : Nat) (c : Chunk) (s : Span) (r : Row)

theorem Dev.placeIn_chunk : tget (d.placeIn id slot m c s r).ses.chunks id =
    (tget d.ses.chunks id).map (·.placedIn m s.openRow (r.chunks.getD m []).length (d.clk + 1)) :=
  tget_tmod_self d.ses.chunks id (·.placedIn m s.openRow (r.chunks.getD m []).length (d.clk + 1))

theorem Dev.placeIn_otherChunk {j : Nat} (h : j ≠ id) :
    tget (d.placeIn id slot m c s r).ses.chunks j = tget d.ses.chunks j := Dev.tget_modChunk_other _ _ h

theorem Dev.placeIn_session : tget (d.placeIn id slot m c s r).ses.sessions c.session =
    (tget d.ses.sessions c.session).map fun x => { x with member := some m } :=
  Dev.tget_modSes d c.session fun x => { x with member := some m }

theorem Dev.placeIn_spanAt : (d.placeIn id slot m c s r).spanAt slot =
    (d.spanAt slot).map (·.takes ((tget d.ses.sessions c.session).bind (·.member)) m (r.takes id m d.clk)) :=
  tget_tmod_self d.spn.slots slot (·.takes ((tget d.ses.sessions c.session).bind (·.member)) m (r.takes id m d.clk))

theorem Dev.placeIn_openRow (hs : d.spanAt slot = some s) :
    (((d.placeIn id slot m c s r).spanAt slot).bind fun x => tget x.rows s.openRow) = some (r.takes id m d.clk) := by
  rw [Dev.placeIn_spanAt, hs]
  exact tget_tput_self ..

end Place

section Rows
variable {s : State} {sp : Span} {r : Row} (hheld : s.dev.coreHeld = false)
include hheld

/-- A chunk whose turn it is goes to the member that takes it, or waits (R115, R137). -/
theorem exec_chunkPlace {id : Nat} {c : Chunk} (hc : tget s.dev.ses.chunks id = some c) (hsp : s.dev.spanAt c.span = some sp)
    (hready : c.st = .sealed ∧ c.vis ≤ s.dev.clk ∧ s.dev.inSequence id c = true ∧ s.dev.spn.placed < placeMax ∧
      ! s.dev.stalls blkPkr 0 1)
    (hr : tget sp.rows sp.openRow = some r) (hopen : r.st = .gathering) : exec (.chunkPlace id) s =
      .next (s.withDev ((s.dev.memberFor sp r c).elim s.dev fun m => s.dev.placeIn id c.span m c sp r)) := by
  refine (nextDev_of_eq hheld ?_ : execChunkPlace id s = _)
  simp only [hc, hsp, if_pos hready, hr, if_pos hopen]
  cases s.dev.memberFor sp r c <;> rfl

variable {slot : Nat} (hsp : s.dev.spanAt slot = some sp) (hr : tget sp.rows sp.openRow = some r)
include hsp hr

theorem exec_rowClose : exec (.rowClose slot) s = .next (s.withDev
    (if r.st = .gathering ∧ sp.mayClose = true then
      if s.dev.rowFull slot sp r then s.dev.closeRow slot false false
      else if s.dev.rowForSync slot sp then s.dev.closeRow slot true true
      else if sp.closeReq then s.dev.closeRow slot true false
      else s.dev
    else s.dev)) := by
  refine (nextDev_of_eq hheld ?_ : execRowClose slot s = _)
  simp only [hsp, hr]

theorem exec_rowAgeExpiry_empty (hempty : r.firstAt = none) : exec (.rowAgeExpiry slot) s = .next s := by
  refine (nextDev_of_eq hheld ?_ : execRowAgeExpiry slot s = _)
  simp only [hsp, hr, Option.bind_some, hempty]

theorem exec_rowAgeExpiry {x : Nat} (hfirst : r.firstAt = some x) : exec (.rowAgeExpiry slot) s = .next (s.withDev
    (if x + s.dev.rowAge ≤ s.dev.clk ∧ sp.mayClose = true then s.dev.closeRow slot true false else s.dev)) := by
  refine (nextDev_of_eq hheld ?_ : execRowAgeExpiry slot s = _)
  simp only [hsp, hr, Option.bind_some, hfirst]

/-- A row beyond the skew limit stays open (R302). -/
theorem exec_row_held (hskew : sp.mayClose = false) :
    exec (.rowClose slot) s = .next s ∧ exec (.rowAgeExpiry slot) s = .next s := by
  constructor
  · rw [exec_rowClose hheld hsp hr, if_neg (by simp [hskew])]
  · cases hfirst : r.firstAt with
    | none => exact exec_rowAgeExpiry_empty hheld hsp hr hfirst
    | some x => rw [exec_rowAgeExpiry hheld hsp hr hfirst, if_neg (by simp [hskew])]

end Rows

/-- Settles O39: a placement changes the chunk, its session and the open row, and the causes of R138 are tried in their order while
the skew limit lets the row close. -/
theorem chunksArePlacedAndRowsClose : Obligations.ChunksArePlacedAndRowsClose := by
  constructor
  · intro s id c sp r hheld hc hsp hst hvis hseq hbudget hlate hr hopen
    have hexec := exec_chunkPlace hheld hc hsp ⟨hst, hvis, hseq, hbudget, by simp [hlate]⟩ hr hopen
    refine ⟨fun m hm => ?_, fun hnone => by rw [hexec, hnone, Option.elim_none]⟩
    rw [hm] at hexec
    refine ⟨_, hexec, rfl, ?_, fun j hj => s.dev.placeIn_otherChunk id c.span m c sp r hj, s.dev.placeIn_openRow id c.span m c sp r hsp, ?_, rfl⟩
    · exact (s.dev.placeIn_chunk id c.span m c sp r).trans (by rw [hc]; rfl)
    · intro x hx
      have hses := s.dev.placeIn_session id c.span m c sp r
      rw [hx] at hses
      exact congrArg (Option.bind · (·.member)) hses
  · intro s slot sp r hheld hsp hr
    have hclose := exec_rowClose hheld hsp hr
    refine ⟨fun hskew hopen => ?_, fun hskew => exec_row_held hheld hsp hr (decide_eq_false (by omega)), fun x hfirst hage => ?_⟩
    · have hmay : sp.mayClose = true := decide_eq_true hskew
      rw [if_pos ⟨hopen, hmay⟩] at hclose
      refine ⟨fun hfull => ?_, fun hfull hsync => ?_, fun hfull hsync hreq => ?_, fun x hfirst hage => ?_⟩
      · rw [hclose, if_pos hfull]
      · rw [hclose, if_neg (by simp [hfull]), if_pos hsync]
      · rw [hclose, if_neg (by simp [hfull]), if_neg (by simp [hsync]), if_pos hreq]
      · rw [exec_rowAgeExpiry hheld hsp hr hfirst, if_pos ⟨hage, hmay⟩]
    · rw [exec_rowAgeExpiry hheld hsp hr hfirst, if_neg (by omega)]

end Sys2Proof.Machine
end

section
/-! SUPPORT. Transport ports and their identity (R186, R190): what a port that comes up changes, the identity records that may be used
and the cause of the others, and the rows of the port. -/

namespace Sys2Proof.Machine

/-! ### A port that comes up (R186, R190) -/

/-- Port `n` once it is up: the control cores ask for the identity record and the link identity. -/
def Dev.portRaised (d : Dev) (n : Nat) : Dev :=
  (((d.setFlag Fld.tpLinkStatUp n true).modTp n fun p => { p with link := [] }).emit (.smbusRead n 0x50 0 256)).request n .identity 3 0 32 []

/-- Of the registers, UP alone changes. -/
theorem Dev.portRaised_regs (d : Dev) (n : Nat) : (d.portRaised n).regs = (d.setFlag Fld.tpLinkStatUp n true).regs := rfl

/-- Devices with the same registers read alike. -/
theorem Dev.rawReg_of_regs {d e : Dev} (h : e.regs = d.regs) (q : RegId) (j : Nat) : e.rawReg q j = d.rawReg q j := by
  rw [Dev.rawReg, h, Dev.rawReg]

theorem Dev.flag_of_regs {d e : Dev} (h : e.regs = d.regs) (f : Fld) (i : Nat) : e.flag f i = d.flag f i := by
  rw [Dev.flag, Dev.fld, Dev.rawReg_of_regs h, Dev.flag, Dev.fld]

theorem Dev.portRaised_up (d : Dev) (n : Nat) : (d.portRaised n).flag Fld.tpLinkStatUp n = true := by
  rw [Dev.flag_of_regs (d.portRaised_regs n)]
  exact Dev.flag_setFlag_true _ _ _ (by decide) rfl

theorem Dev.portRaised_rawReg_other (d : Dev) {n j : Nat} {q : RegId} (h : q.offset j ≠ RegId.tpLinkStat.offset n) :
    (d.portRaised n).rawReg q j = d.rawReg q j :=
  (Dev.rawReg_of_regs (d.portRaised_regs n) q j).trans (Dev.rawReg_putReg_other d _ h)

/-! ### The identity record (R190) -/

section Identity
variable {r l : List Byte}

theorem identCause_usable (hlen : r.length = 256) (hcrc : crc32cOk r = true) (hrange : identRangeOk r = true)
    (hserial : leAt r 8 8 = leAt l 0 8) : identCause r l = none := by
  simp [identCause, hlen, hcrc, hrange, hserial]

theorem identCause_damaged (h : r.length ≠ 256 ∨ crc32cOk r = false) : identCause r l = some 1 :=
  if_pos (h.imp_right fun hcrc => by rw [hcrc]; rfl)

theorem identCause_outOfRange (hlen : r.length = 256) (hcrc : crc32cOk r = true) (hrange : identRangeOk r = false) :
    identCause r l = some 2 := by
  simp [identCause, hlen, hcrc, hrange]

theorem identCause_otherSerial (hlen : r.length = 256) (hcrc : crc32cOk r = true) (hrange : identRangeOk r = true)
    (hserial : leAt r 8 8 ≠ leAt l 0 8) : identCause r l = some 3 := by
  simp [identCause, hlen, hcrc, hrange, hserial]

end Identity

@[simp] theorem Dev.tpAt_modTp_self (d : Dev) {n : Nat} (f : Tp → Tp) (hn : n < d.tp.length) : (d.modTp n f).tpAt n = f (d.tpAt n) := by
  simp [Dev.tpAt, Dev.modTp, lmod, List.getD_eq_getElem?_getD, hn]

/-- A transport whose identity has been accepted: its record and the number of its port are known, and ID_OK is set. -/
def Dev.identified (d : Dev) (n : Nat) (r : List Byte) : Dev :=
  (d.modTp n fun p => { p with ident := r, myPort := bitOf (leAt (d.tpAt n).link 8 1) 0 }).setFlag Fld.tpLinkStatIdOk n true

theorem Dev.identified_idOk (d : Dev) (n : Nat) (r : List Byte) : (d.identified n r).flag Fld.tpLinkStatIdOk n = true :=
  Dev.flag_setFlag_true _ _ _ (by decide) rfl

theorem Dev.identified_tpAt (d : Dev) {n : Nat} (r : List Byte) (hn : n < d.tp.length) :
    (d.identified n r).tpAt n = { d.tpAt n with ident := r, myPort := bitOf (leAt (d.tpAt n).link 8 1) 0 } :=
  Dev.tpAt_modTp_self d _ hn

/-! ### The rows -/

section Rows
variable {s : State} {n : Nat} (hheld : s.dev.coreHeld = false)
include hheld

theorem exec_portUp (hn : n < 8) (hdown : s.dev.flag Fld.tpLinkStatUp n = false) (hen : s.dev.flag Fld.tpLinkCfgEnable n = true)
    (hgood : 8 ≤ (s.dev.tpAt n).good) : exec (.portUp n) s = .next (s.withDev (s.dev.portRaised n)) :=
  (nextDev_if_pos hheld rfl ⟨hn, by rw [hdown]; rfl, hen, hgood⟩ : execPortUp n s = _)

/-- Fewer than eight valid cycles, or a port that is not enabled, bring no port up. -/
theorem exec_portUp_waits (h : (s.dev.tpAt n).good < 8 ∨ s.dev.flag Fld.tpLinkCfgEnable n = false) :
    exec (.portUp n) s = .next s := by
  refine (nextDev_if_neg hheld rfl ?_ : execPortUp n s = _)
  rintro ⟨-, -, hen, hgood⟩
  rcases h with hfew | hoff
  · omega
  · rw [hoff] at hen; cases hen

/-- With fewer than three ticks without a valid cycle the port stays as it is. -/
theorem exec_portDown_waits (h : (s.dev.tpAt n).miss < 3) : exec (.portDown n) s = .next s :=
  (nextDev_if_neg hheld rfl (fun hdown => absurd hdown.2 (by omega)) : execPortDown n s = _)

variable {r : List Byte}

/-- Bytes of another address, of a port that is down, or before the link identity is known, are no identity record. -/
theorem exec_identityCheck_ignored {a : Nat}
    (h : a ≠ 0 ∨ s.dev.flag Fld.tpLinkStatUp n = false ∨ (s.dev.tpAt n).link = []) : exec (.identityCheck n r a) s = .next s := by
  refine (nextDev_if_neg hheld rfl ?_ : execIdentityCheck n r a s = _)
  rintro ⟨haddr, hup, hlink⟩
  rcases h with h | h | h
  · exact h haddr
  · rw [h] at hup; cases hup
  · exact hlink h

variable (hup : s.dev.flag Fld.tpLinkStatUp n = true) (hlink : (s.dev.tpAt n).link ≠ [])
include hup hlink

theorem exec_identityCheck_accepts (hcause : identCause r (s.dev.tpAt n).link = none) :
    exec (.identityCheck n r 0) s = .next (s.withDev (s.dev.identified n r)) := by
  refine (nextDev_if_pos hheld rfl ⟨rfl, hup, hlink⟩ : execIdentityCheck n r 0 s = _).trans ?_
  rw [hcause, Dev.identified]

theorem exec_identityCheck_rejects {c : Nat} (hcause : identCause r (s.dev.tpAt n).link = some c) :
    exec (.identityCheck n r 0) s =
      .next (s.withDev ((s.dev.setFlag Fld.tpLinkStatIdOk n false).postEvent 0x14 blkTp n [item n, item c])) := by
  refine (nextDev_if_pos hheld rfl ⟨rfl, hup, hlink⟩ : execIdentityCheck n r 0 s = _).trans ?_
  rw [hcause]

end Rows

/-- Settles O43: the port's rows act exactly when their counts and flags say so, and a record is judged by its cause alone. -/
theorem portsAndIdentity : Obligations.PortsAndIdentity := by
  refine ⟨fun s n hheld hn => ⟨?_, exec_portUp_waits hheld, ?_, exec_portDown_waits hheld⟩, fun s n r l hheld hl => ?_⟩
  · intro hdown hen hgood
    exact ⟨_, exec_portUp hheld hn hdown hen hgood, rfl, s.dev.portRaised_up n, rfl, fun q j h => s.dev.portRaised_rawReg_other h⟩
  · exact fun hup hmiss => (nextDev_if_pos hheld rfl ⟨hup, hmiss⟩ : execPortDown n s = _)
  · subst hl
    refine ⟨fun a h => exec_identityCheck_ignored hheld h, ?_, ?_⟩
    · intro hup hlink hlen hcrc hrange hserial
      refine ⟨_, exec_identityCheck_accepts hheld hup hlink (identCause_usable hlen hcrc hrange hserial), rfl,
        s.dev.identified_idOk n r, fun hn => ?_⟩
      have hat := s.dev.identified_tpAt r hn
      exact ⟨congrArg Tp.ident hat, congrArg Tp.myPort hat⟩
    · intro c hup hlink hcause
      refine exec_identityCheck_rejects hheld hup hlink ?_
      rcases hcause with ⟨h, rfl⟩ | ⟨⟨hlen, hcrc, hrange⟩, rfl⟩ | ⟨⟨hlen, hcrc, hrange, hserial⟩, rfl⟩
      · exact identCause_damaged h
      · exact identCause_outOfRange hlen hcrc hrange
      · exact identCause_otherSerial hlen hcrc hrange hserial

end Sys2Proof.Machine
end

section
/-! SUPPORT. The motion controller's rows (R266, R267, R274, R275, R281, R284 to R287): what STATE and the flags of MOTn_STAT read
after one of them is set, the outcomes of a hand-over, a failed start, a lost rotor and its return, and the rows that wait. -/

namespace Sys2Proof.Machine

/-! ### STATE and the flags of MOTn_STAT -/

/-- A one-bit field reads as it was set. -/
theorem Dev.flag_setFlag_self (d : Dev) (f : Fld) (i : Nat) (b : Bool) (hfit : f.lo + f.width ≤ 32) (hone : f.width = 1) :
    (d.setFlag f i b).flag f i = b := by
  rw [Dev.flag, Dev.setFlag, Dev.fld_setFld_self d f i _ hfit, hone]
  cases b <;> rfl

/-- A field of the same register that shares no bit with the one set is as it was. -/
theorem Dev.fld_setFld_apart (d : Dev) {f g : Fld} (i v : Nat) (hreg : g.reg = f.reg) (hfit : f.lo + f.width ≤ 32)
    (hapart : g.lo + g.width ≤ f.lo ∨ f.lo + f.width ≤ g.lo) : (d.setFld f i v).fld g i = d.fld g i := by
  rw [Dev.fld, Dev.fld, Dev.setFld, hreg, Dev.rawReg_putReg_self, BitVec.toNat_ofNat,
    Nat.mod_eq_of_lt (setBits_lt (BitVec.isLt _) hfit), bits_setBits_disjoint _ _ hapart]

theorem Dev.flag_setFlag_apart (d : Dev) {f g : Fld} (i : Nat) (b : Bool) (hreg : g.reg = f.reg) (hfit : f.lo + f.width ≤ 32)
    (hapart : g.lo + g.width ≤ f.lo ∨ f.lo + f.width ≤ g.lo) : (d.setFlag f i b).flag g i = d.flag g i := by
  rw [Dev.flag, Dev.setFlag, Dev.fld_setFld_apart d i _ hreg hfit hapart, Dev.flag]

theorem Dev.flag_setFlag_other (d : Dev) {f g : Fld} {i j : Nat} (b : Bool) (h : g.reg.offset j ≠ f.reg.offset i) :
    (d.setFlag f i b).flag g j = d.flag g j := by
  rw [Dev.flag, Dev.setFlag, Dev.fld_setFld_other d _ h, Dev.flag]

/-- STATE reads as it was entered; the change of the controller touches no register. -/
theorem Dev.motState_setMot (d : Dev) (n : Nat) {st : Nat} (hst : st < 16) : (d.setMot n st).motState n = st :=
  (Dev.fld_setFld_self d Fld.motStatState n st (by decide)).trans (Nat.mod_eq_of_lt hst)

/-- Entering a STATE leaves the other fields of MOTn_STAT. -/
theorem Dev.flag_setMot (d : Dev) (n st : Nat) {g : Fld} (hreg : g.reg = .motStat) (hlo : 4 ≤ g.lo) :
    (d.setMot n st).flag g n = d.flag g n := by
  have hfld : (d.setMot n st).fld g n = d.fld g n := Dev.fld_setFld_apart d (f := Fld.motStatState) n st hreg (by decide) (.inr hlo)
  rw [Dev.flag, hfld, Dev.flag]

/-- MOTn_STAT and TPt_SPD_STAT stand at different offsets, whatever the transport. -/
theorem motStat_offset_ne_tpSpdStat (n : Nat) : RegId.motStat.offset n ≠ RegId.tpSpdStat.offset n := by
  simp only [RegId.offset, RegId.info]
  omega

/-! ### The controller of a transport -/

theorem Dev.modMot_mot_length (d : Dev) (n : Nat) (f : Mot → Mot) : (d.modMot n f).mot.length = d.mot.length := List.length_modify ..

@[simp] theorem Dev.motAt_modMot_self (d : Dev) {n : Nat} (f : Mot → Mot) (hn : n < d.mot.length) :
    (d.modMot n f).motAt n = f (d.motAt n) := by
  simp [Dev.motAt, Dev.modMot, lmod, List.getD_eq_getElem?_getD, hn]

theorem Dev.motAt_setMot (d : Dev) {n : Nat} (st : Nat) (hn : n < d.mot.length) :
    (d.setMot n st).motAt n = { d.motAt n with age := 0 } :=
  Dev.motAt_modMot_self (d.setFld Fld.motStatState n st) _ hn

/-! ### HOLD, the clamp and align -/

theorem Dev.enterHold_motState (d : Dev) (n : Nat) : (d.enterHold n).motState n = 5 := Dev.motState_setMot _ n (by decide)

/-- No rotor counts as lost in HOLD (R275). -/
theorem Dev.enterHold_lost (d : Dev) (n : Nat) :
    (d.enterHold n).flag Fld.motStatLostA n = false ∧ (d.enterHold n).flag Fld.motStatLostB n = false := by
  constructor
  · rw [Dev.enterHold, Dev.flag_setMot _ n _ rfl (by decide),
      Dev.flag_setFlag_apart (f := Fld.motStatLostB) (g := Fld.motStatLostA) _ n _ rfl (by decide) (.inl (by decide))]
    exact Dev.flag_setFlag_self _ _ n _ (by decide) rfl
  · rw [Dev.enterHold, Dev.flag_setMot _ n _ rfl (by decide)]
    exact Dev.flag_setFlag_self _ _ n _ (by decide) rfl

/-- The device with the clamp of transport `n` lifted in both its registers (R274). -/
def Dev.unclamped (d : Dev) (n : Nat) : Dev := (d.setFlag Fld.motStatClamped n false).setFlag Fld.tpSpdStatClamped n false

theorem Dev.unclamped_motStat (d : Dev) (n : Nat) : (d.unclamped n).flag Fld.motStatClamped n = false := by
  rw [Dev.unclamped, Dev.flag_setFlag_other _ _ (motStat_offset_ne_tpSpdStat n)]
  exact Dev.flag_setFlag_self d _ n _ (by decide) rfl

theorem Dev.unclamped_tpSpdStat (d : Dev) (n : Nat) : (d.unclamped n).flag Fld.tpSpdStatClamped n = false :=
  Dev.flag_setFlag_self _ _ n _ (by decide) rfl

/-- The device with the start of transport `n` begun again from align, as its one repeat (R267). -/
def Dev.startRepeated (d : Dev) (n : Nat) : Dev := (d.modMot n fun m => { m.fromRest m.dir with retried := true }).alignBegin n

theorem Dev.startRepeated_motState (d : Dev) (n : Nat) : (d.startRepeated n).motState n = 1 := Dev.motState_setMot _ n (by decide)

/-- The repeat is marked as such and starts in the first tick of align, with no gates turned off. -/
theorem Dev.startRepeated_motAt (d : Dev) {n : Nat} (hn : n < d.mot.length) :
    ((d.startRepeated n).motAt n).retried = true ∧ ((d.startRepeated n).motAt n).off = none ∧ ((d.startRepeated n).motAt n).age = 0 := by
  have inRange (d : Dev) (f : Mot → Mot) (hn : n < d.mot.length) : n < (d.modMot n f).mot.length := by rwa [Dev.modMot_mot_length]
  rw [Dev.startRepeated, Dev.alignBegin, Dev.motAt_setMot _ _ (inRange _ _ (inRange _ _ hn)), Dev.motAt_modMot_self _ _ (inRange _ _ hn),
    Dev.motAt_modMot_self _ _ hn]
  exact ⟨rfl, rfl, rfl⟩

/-! ### Starts and stops: the rows -/

section Starts
variable {s : State} {n reel : Nat} (hheld : s.dev.coreHeld = false)
include hheld

/-- Align goes on before its 500th tick, and where there is none ALIGN_END does nothing. -/
theorem exec_alignEnd_waits (h : (s.dev.motAt n).age < 500 ∨ s.dev.motState n ≠ 1) : exec (.alignEnd n) s = .next s := by
  refine (nextDev_if_neg hheld rfl ?_ : execAlignEnd n s = _)
  rintro ⟨hst, hage⟩
  rcases h with hyoung | hother
  · omega
  · exact hother hst

/-- A reel hands over; with it the last, STATE is RUN from the measured speed on (R266). -/
theorem exec_handOver (hreel : reel < 2) (hst : s.dev.motState n = 2) (hnot : ((s.dev.motAt n).reel reel).handed = false)
    (hhit : s.dev.fld1 Fld.motForceCfgHandN n ≤ ((s.dev.motAt n).reel reel).hit) {d : Dev}
    (hd : d = s.dev.modReel n reel fun r => { r with handed := true }) :
    exec (.handOver n reel) s = .next (s.withDev
      (if (d.motAt n).reels.all (·.handed) then
        (d.setMot n 3).modMot n fun m => { m with vref := m.vIn.floor, acc := 0, sumV := 0, sumT := 0, steady := 0 }
      else d)) := by
  subst hd
  exact (nextDev_if_pos hheld rfl ⟨hst, hreel, congrArg not hnot, hhit⟩ : execHandOver n reel s = _)

theorem exec_handOver_waits (hfew : ((s.dev.motAt n).reel reel).hit < s.dev.fld1 Fld.motForceCfgHandN n) :
    exec (.handOver n reel) s = .next s :=
  (nextDev_if_neg hheld rfl (fun ⟨_, _, _, hhit⟩ => absurd hhit (by omega)) : execHandOver n reel s = _)

/-- A start that fails is repeated once, after its gates have been off; the repeat that fails is reported (R267). -/
theorem exec_startFail (hreel : reel < 2) (hst : s.dev.motState n = 2) (hoff : (s.dev.motAt n).off = none)
    (hnot : ((s.dev.motAt n).reel reel).handed = false) (hmax : s.dev.handMax n ≤ ((s.dev.motAt n).reel reel).atMin) :
    exec (.startFail n reel) s = .next (s.withDev
      (if (s.dev.motAt n).retried then ((s.dev.setMot n 8).bump Fld.motErrCntStart n).motEvent 0x55 n [item reel] true
      else s.dev.modMot n fun m => { m with off := some 0 })) :=
  (nextDev_if_pos hheld rfl ⟨hst, hreel, Option.isNone_iff_eq_none.2 hoff, congrArg not hnot, hmax⟩ : execStartFail n reel s = _)

/-- With the gates off for `k` ticks, the start is repeated from the 500th on (R267). -/
theorem exec_startRetry {k : Nat} (hoff : (s.dev.motAt n).off = some k) (hst : s.dev.motState n = 2) :
    exec (.startRetry n) s = .next (s.withDev (if 500 ≤ k then s.dev.startRepeated n else s.dev)) := by
  have hrow : exec (.startRetry n) s = execStartRetry n s := rfl
  have hforced : s.dev.motState n = msForced := hst
  rw [hrow, execStartRetry, nextDev_ok _ _ hheld]
  simp only [hoff, hforced, true_and, Dev.startRepeated]

theorem exec_stopHold_waits (h : (s.dev.motAt n).slow < 50 ∨ (s.dev.motAt n).vref ≠ 0) : exec (.stopHold n) s = .next s := by
  refine (nextDev_if_neg hheld rfl ?_ : execStopHold n s = _)
  rintro ⟨-, hvref, hslow⟩
  rcases h with hshort | hruns
  · omega
  · exact hruns hvref

end Starts

/-- Settles O47: each row acts when its counts have been reached and waits before; HOLD, the repeat of a start and the lifted clamp
are read off the fields last set. -/
theorem startsStopsAndTracking : Obligations.StartsStopsAndTracking := by
  refine ⟨fun s n reel hheld hreel => ⟨?_, exec_alignEnd_waits hheld, ?_, exec_handOver_waits hheld, ?_, ?_⟩,
    fun s n hheld => ⟨?_, exec_stopHold_waits hheld, ?_, ?_, ?_, ?_, ?_, ?_, ?_, ?_, ?_, ?_⟩⟩
  · exact fun hst hage => (nextDev_if_pos hheld rfl ⟨hst, hage⟩ : execAlignEnd n s = _)
  · intro hst hnot hhit d
    rw [exec_handOver hheld hreel hst hnot hhit (d := d) rfl]
    exact ⟨fun hall => by rw [if_pos hall], fun hsome => by rw [hsome, if_neg Bool.false_ne_true]⟩
  · intro hst hoff hnot hmax
    rw [exec_startFail hheld hreel hst hoff hnot hmax]
    exact ⟨fun hfirst => by rw [hfirst, if_neg Bool.false_ne_true], fun hrepeat => by rw [if_pos hrepeat]⟩
  · intro k hoff hst
    rw [exec_startRetry hheld hoff hst]
    refine ⟨fun hearly => by rw [if_neg (by omega)], fun hdue => ?_⟩
    rw [if_pos hdue]
    exact ⟨_, rfl, rfl, s.dev.startRepeated_motState n, s.dev.startRepeated_motAt⟩
  · exact fun hst hvref hslow => ⟨_, (nextDev_if_pos hheld rfl ⟨hst, hvref, hslow⟩ : execStopHold n s = _), rfl,
      s.dev.enterHold_motState n, s.dev.enterHold_lost n⟩
  · exact fun hclamped hok => ⟨_, (nextDev_if_pos hheld rfl ⟨hclamped, hok⟩ : execClampClear n s = _), rfl, s.dev.unclamped_motStat n,
      s.dev.unclamped_tpSpdStat n⟩
  · exact fun hshort => (nextDev_if_neg hheld rfl (fun ⟨_, hok⟩ => absurd hok (by omega)) : execClampClear n s = _)
  · exact fun hon hout => (nextDev_if_pos hheld rfl ⟨hon, hout⟩ : execOffTrack n s = _)
  · exact fun hfew => (nextDev_if_neg hheld rfl (fun ⟨_, hout⟩ => absurd hout (by omega)) : execOffTrack n s = _)
  · exact fun hoff hin => ⟨_, (nextDev_if_pos hheld rfl ⟨congrArg not hoff, hin⟩ : execOnTrack n s = _), rfl,
      s.dev.flag_setFlag_true _ n (by decide) rfl⟩
  · exact fun hfew => (nextDev_if_neg hheld rfl (fun ⟨_, hin⟩ => absurd hin (by omega)) : execOnTrack n s = _)
  · exact fun hloss hfast hno =>
      (nextDev_if_pos hheld rfl ⟨congrArg not hloss, decide_eq_true hfast, hno⟩ : execServoLoss n s = _)
  · exact fun hslow =>
      (nextDev_if_neg hheld rfl (fun ⟨_, hfast, _⟩ => absurd (of_decide_eq_true hfast) (by omega)) : execServoLoss n s = _)
  · exact fun hloss hlong => (nextDev_if_pos hheld rfl ⟨hloss, hlong⟩ : execServoLossStop n s = _)
  · exact fun hnone => (nextDev_if_neg hheld rfl (fun ⟨hloss, _⟩ => by rw [hnone] at hloss; cases hloss) : execServoLossStop n s = _)

/-! ### Rotors and the chopper -/

/-- What the loops find is reported while the tape moves and in the tick in which a ratio brake takes the reels over (R284). -/
theorem Dev.motReports_of (d : Dev) {n : Nat} (h : d.motMoving n = true ∨ d.motState n = 7 ∧ (d.motAt n).age = 0) :
    d.motReports n = true := by
  rcases h with hmoving | ⟨hbrake, hage⟩
  · simp [Dev.motReports, hmoving]
  · simp [Dev.motReports, hbrake, hage, msBrake]

/-- The device with rotor `reel` declared lost: LOST set, counted and posted, its windows begun anew, and writing paused (R285, R286). -/
def Dev.rotorLost (d : Dev) (n reel : Nat) : Dev :=
  ((((d.setFlag (lostFld reel) n true).bump Fld.motErrCntLost n).motEvent 0x50 n
    [item reel, item (rnd ((d.motAt n).reel reel).period).toNat, speedItem (d.motAt n).vIn] true).modReel n reel
    fun r => { r with lost := true, predicted := 0, exhausted := false, hit := 0, vAt := (d.motAt n).vIn }).pauseFor n .lostRotor 1

/-- The device with rotor `reel` found again, and posted so (R286). -/
def Dev.rotorBack (d : Dev) (n reel : Nat) : Dev :=
  ((d.setFlag (lostFld reel) n false).motEvent 0x51 n [item reel, item ((d.motAt n).reel reel).predicted] false).modReel n reel
    fun r => { r with lost := false, predicted := 0, missed := 0 }

section Rotors
variable {s : State} {n reel : Nat} (hheld : s.dev.coreHeld = false)
include hheld

/-- A rotor is lost: with the other lost already a ratio brake follows, and of a reel in RUN the crossings are predicted (R286). -/
theorem exec_lostRotor (hreel : reel < 2) (hreports : s.dev.motReports n = true) (hnot : ((s.dev.motAt n).reel reel).lost = false)
    (hmissed : s.dev.fld1 Fld.motZcCfgLostN n ≤ ((s.dev.motAt n).reel reel).missed)
    (hfast : ((s.dev.motAt n).reel reel).period < 2000 * s.dev.fld1 Fld.motForceCfgHandT n) {d : Dev} (hd : d = s.dev.rotorLost n reel) :
    exec (.lostRotor n reel) s = .next (s.withDev
      (if ((s.dev.motAt n).reel (1 - reel)).lost then d.brakeNow n .lost else if d.motState n = 3 then d.setMot n 6 else d)) := by
  subst hd
  exact (nextDev_if_pos hheld rfl ⟨hreel, hreports, congrArg not hnot, hmissed, hfast⟩ : execLostRotor n reel s = _)

/-- A rotor that is lost already is not lost again. -/
theorem exec_lostRotor_again (hlost : ((s.dev.motAt n).reel reel).lost = true) : exec (.lostRotor n reel) s = .next s :=
  (nextDev_if_neg hheld rfl (fun ⟨_, _, hnot, _⟩ => by rw [hlost] at hnot; cases hnot) : execLostRotor n reel s = _)

/-- A rotor comes back; with none lost any more, prediction ends (R286). -/
theorem exec_motReacquired (hreel : reel < 2) (hlost : ((s.dev.motAt n).reel reel).lost = true)
    (hnot : ((s.dev.motAt n).reel reel).exhausted = false)
    (hhit : s.dev.fld1 Fld.motZcCfgReacqN n ≤ ((s.dev.motAt n).reel reel).hit) {d : Dev} (hd : d = s.dev.rotorBack n reel) :
    exec (.motReacquired n reel) s = .next (s.withDev
      (if d.motState n = 6 ∧ ! (d.motAt n).reels.any (·.lost) then d.setMot n 3 else d)) := by
  subst hd
  exact (nextDev_if_pos hheld rfl ⟨hreel, hlost, congrArg not hnot, hhit⟩ : execMotReacquired n reel s = _)

/-- A rotor that is not lost does not come back, and no prediction of it is exhausted. -/
theorem exec_found (hnot : ((s.dev.motAt n).reel reel).lost = false) :
    exec (.motReacquired n reel) s = .next s ∧ exec (.predictExhausted n reel) s = .next s :=
  ⟨(nextDev_if_neg hheld rfl (fun ⟨_, hlost, _⟩ => by rw [hnot] at hlost; cases hlost) : execMotReacquired n reel s = _),
    (nextDev_if_neg hheld rfl (fun ⟨_, _, hlost, _⟩ => by rw [hnot] at hlost; cases hlost) : execPredictExhausted n reel s = _)⟩

/-- A chopper fault in force is not raised again. -/
theorem exec_motChopFault_again (hfault : s.dev.flag Fld.motStatChopFault n = true) : exec (.motChopFault n) s = .next s :=
  (nextDev_if_neg hheld rfl (fun ⟨_, hnot, _⟩ => by rw [hfault] at hnot; cases hnot) : execMotChopFault n s = _)

end Rotors

/-- Settles O48: a lost rotor is answered by what the other reel and STATE are, one that is back by whether any is still lost.
The units and the rounding of the events' items are the model's choice (entries 40, 46). -/
theorem rotorsAndChopper : Obligations.RotorsAndChopper := by
  intro s n reel hheld hreel
  refine ⟨?_, exec_lostRotor_again hheld, ?_, exec_found hheld, ?_, ?_, exec_motChopFault_again hheld⟩
  · intro hmoves hnot hmissed hfast d
    rw [exec_lostRotor hheld hreel (s.dev.motReports_of hmoves) hnot hmissed hfast (d := d) rfl]
    refine ⟨fun hother => ?_, fun hother hrun => ?_, fun hother hrun => ?_⟩
    · rw [if_pos hother]
    · rw [hother, if_neg Bool.false_ne_true, if_pos hrun]
    · rw [hother, if_neg Bool.false_ne_true, if_neg hrun]
  · intro hlost hnot hhit d
    rw [exec_motReacquired hheld hreel hlost hnot hhit (d := d) rfl]
    refine ⟨fun hpredict hnone => ?_, fun hstays => ?_⟩
    · rw [if_pos ⟨hpredict, congrArg not hnone⟩]
    · rw [if_neg]
      rintro ⟨hpredict, hnone⟩
      rcases hstays with hother | hany
      · exact hother hpredict
      · rw [hany] at hnone; cases hnone
  · exact fun hst hlost hexhausted => (nextDev_if_pos hheld rfl ⟨hreel, hst, hlost, hexhausted⟩ : execPredictExhausted n reel s = _)
  · exact fun hn hnot hrising => (nextDev_if_pos hheld rfl ⟨hn, congrArg not hnot, hrising⟩ : execMotChopFault n s = _)

end Sys2Proof.Machine
end

section
/-! SUPPORT. Span slots: reading one back, what the shared operations leave of the span engine, the JOURNAL record, and the data sets
of a row that can be had (R305, R306, R316). -/

namespace Sys2Proof.Machine

/-! ### Reading a slot back -/

@[simp] theorem Dev.spanAt_modSpan (d : Dev) (slot : Nat) (f : Span → Span) : (d.modSpan slot f).spanAt slot = (d.spanAt slot).map f :=
  tget_tmod_self d.spn.slots slot f

theorem Dev.spanAt_of_spn {d e : Dev} (h : e.spn = d.spn) (slot : Nat) : e.spanAt slot = d.spanAt slot := by
  rw [Dev.spanAt, h, Dev.spanAt]

/-- A change of a slot that something seen of span sets does not see. -/
theorem Dev.spanAt_modSpan_keeps {β : Type} {keep : Span → β} {f : Span → Span} (hf : ∀ x, keep (f x) = keep x) (d : Dev) (slot : Nat) :
    ((d.modSpan slot f).spanAt slot).map keep = (d.spanAt slot).map keep := by
  rw [Dev.spanAt_modSpan, Option.map_map, show keep ∘ f = keep from funext hf]

/-! ### What leaves the span engine as it was -/

theorem Dev.MemOnly.spn {d e : Dev} (h : d.MemOnly e) : e.spn = d.spn := by obtain ⟨_, _, _, _, _, rfl⟩ := h; rfl
theorem Dev.MemOnly.wr {d e : Dev} (h : d.MemOnly e) : e.wr = d.wr := by obtain ⟨_, _, _, _, _, rfl⟩ := h; rfl
theorem Dev.MemOnly.clk {d e : Dev} (h : d.MemOnly e) : e.clk = d.clk := by obtain ⟨_, _, _, _, _, rfl⟩ := h; rfl
theorem Dev.MemOnly.spanAt {d e : Dev} (h : d.MemOnly e) (slot : Nat) : e.spanAt slot = d.spanAt slot := Dev.spanAt_of_spn h.spn slot

@[simp] theorem Dev.postEvent_spanAt (d : Dev) (c b i : Nat) (l : List Word64) (slot : Nat) :
    (d.postEvent c b i l).spanAt slot = d.spanAt slot := (d.postEvent_memOnly c b i l).spanAt slot
@[simp] theorem Dev.postBoth_spanAt (d : Dev) (c b i : Nat) (l : List Word64) (slot : Nat) :
    (d.postBoth c b i l).spanAt slot = d.spanAt slot := (d.postBoth_memOnly c b i l).spanAt slot
@[simp] theorem Dev.bump_spanAt (d : Dev) (f : Fld) (i n slot : Nat) : (d.bump f i n).spanAt slot = d.spanAt slot := rfl
@[simp] theorem Dev.spanAt_share (d : Dev) (b : BitVec 32) (o slot : Nat) : (d.share b o).spanAt slot = d.spanAt slot := rfl
@[simp] theorem Dev.spanAt_stage (d : Dev) (n : Nat) (x : DsWr) (slot : Nat) : (d.stage n x).spanAt slot = d.spanAt slot := rfl
@[simp] theorem Dev.spanAt_modChunk (d : Dev) (c : Nat) (f : Chunk → Chunk) (slot : Nat) : (d.modChunk c f).spanAt slot = d.spanAt slot := rfl
@[simp] theorem Dev.spanAt_modTenant (d : Dev) (n : Nat) (f : Tenant → Tenant) (slot : Nat) : (d.modTenant n f).spanAt slot = d.spanAt slot := rfl

@[simp] theorem Dev.releaseAll_spn (d : Dev) (hs : List (BitVec 32)) (o : Nat) : (d.releaseAll hs o).spn = d.spn :=
  foldl_keeps (keep := Dev.spn) (g := fun d b => d.release b o) (fun _ _ => rfl) hs d

@[simp] theorem Dev.adminDone_spn (d : Dev) (tag : BitVec 16) (st info : Nat) : (d.adminDone tag st info).spn = d.spn := by
  obtain ⟨_, _, h⟩ := d.adminDone_frame tag st info
  rw [h]

@[simp] theorem bufWrite_spanAt (hd : Hbm × Dev) (b : BitVec 32) (off : Nat) (bs : List Byte) (poison : Bool) (slot : Nat) :
    (bufWrite hd b off bs poison).2.spanAt slot = hd.2.spanAt slot := (bufWrite_memOnly hd b off bs poison).spanAt slot

/-! ### The JOURNAL record (R305) -/

/-- A span set once a JOURNAL record of it has been produced at boundary `clk`. -/
def Span.journaled (x : Span) (clk : Nat) : Span := { x with jrnlAt := clk, jrnlC := x.c }

/-- A JOURNAL record on the feed is one record, and the span set notes that it has been produced. -/
theorem Dev.journal_of_spanAt {d : Dev} {slot : Nat} {x : Span} (hx : d.spanAt slot = some x) (kind : Nat) : d.journal slot kind false =
    (d.cellar blkSpn 0 0xC0 (x.journalBytes kind d.commitTick)).modSpan slot (·.journaled d.clk) := by
  simp [Dev.journal, hx, (d.cellar_memOnly ..).clk, Span.journaled]

@[simp] theorem Dev.spanAt_journal (d : Dev) (slot kind : Nat) : (d.journal slot kind false).spanAt slot =
    (d.spanAt slot).map (·.journaled d.clk) := by
  cases hx : d.spanAt slot with
  | none => simp [Dev.journal, hx]
  | some x => rw [Dev.journal_of_spanAt hx, Dev.spanAt_modSpan, (d.cellar_memOnly ..).spanAt, hx]

@[simp] theorem Dev.journal_wr (d : Dev) (slot kind : Nat) : (d.journal slot kind false).wr = d.wr := by
  cases hx : d.spanAt slot with
  | none => simp [Dev.journal, hx]
  | some x => rw [Dev.journal_of_spanAt hx, Dev.modSpan_wr, (d.cellar_memOnly ..).wr]

/-! ### The data sets of a row (R316) -/

/-- A fold that carries the device beside a result changes the device only as `Dev.MemOnly` says when each step does. -/
theorem memOnly_foldl_fst {α β : Type} {g : Dev × β → α → Dev × β} (hg : ∀ (y : Dev × β) (a : α), y.1.MemOnly (g y a).1) (xs : List α) (y : Dev × β) :
    y.1.MemOnly (xs.foldl g y).1 := by
  induction xs generalizing y with
  | nil => exact Dev.MemOnly.refl y.1
  | cons a xs ih => exact (hg y a).trans (ih _)

/-- Only a payload that stands in buffer memory is read to say where a data set can be had. The number of its words is made a
variable first: the kernel would otherwise carry out the read of all of them. -/
theorem Dev.rowSrc_memOnly (d : Dev) (h : Hbm) (slot n i : Nat) : d.MemOnly (d.rowSrc h slot n i).1 := by
  unfold Dev.rowSrc
  obtain ⟨words, hwords⟩ : ∃ words, payloadLen / 32 = words := ⟨_, rfl⟩
  rw [hwords]
  split
  · exact Dev.MemOnly.refl d
  · split
    · exact Dev.memReadWords_memOnly ..
    · dsimp only
      repeat' split
      all_goals exact Dev.MemOnly.refl d

theorem Dev.rowHave_memOnly (d : Dev) (h : Hbm) (slot n i : Nat) (x : Span) : d.MemOnly (d.rowHave h slot n i x).1 := by
  refine memOnly_foldl_fst ?_ (x.others n i) (d, [], 0)
  intro y a
  have hsrc := y.1.rowSrc_memOnly h slot n a
  dsimp only
  repeat' split
  all_goals exact hsrc

end Sys2Proof.Machine
end

section
/-! SUPPORT. The span commands (R297, R315, R320, R385): what each leaves in the slots. -/

namespace Sys2Proof.Machine

/-! ### Slots that a command fills or empties -/

/-- A slot once a descriptor has been loaded into it (R297). -/
def Desc.loaded (x : Desc) : Span := { desc := x, members := List.replicate x.width {} }

/-- The device with span set `s` in a slot. -/
def Dev.putSpan (d : Dev) (slot : Nat) (s : Span) : Dev := { d with spn := { d.spn with slots := tput d.spn.slots slot s } }

theorem Dev.spanAt_putSpan_self (d : Dev) (slot : Nat) (s : Span) : (d.putSpan slot s).spanAt slot = some s := tget_tput_self ..
theorem Dev.spanAt_putSpan_other (d : Dev) {slot i : Nat} (s : Span) (h : i ≠ slot) : (d.putSpan slot s).spanAt i = d.spanAt i :=
  tget_tput_other _ s h

/-- The device with a slot empty. -/
def Dev.delSpan (d : Dev) (slot : Nat) : Dev := { d with spn := { d.spn with slots := tdel d.spn.slots slot } }

theorem Dev.spanAt_delSpan_self (d : Dev) (slot : Nat) : (d.delSpan slot).spanAt slot = none := tget_tdel_self ..
theorem Dev.spanAt_delSpan_other (d : Dev) {slot i : Nat} (h : i ≠ slot) : (d.delSpan slot).spanAt i = d.spanAt i := tget_tdel_other _ h

/-- A completion leaves every slot as it was. -/
@[simp] theorem Dev.adminDone_spanAt (d : Dev) (tag : BitVec 16) (st info i : Nat) : (d.adminDone tag st info).spanAt i = d.spanAt i :=
  Dev.spanAt_of_spn (d.adminDone_spn tag st info) i

/-! ### The commands -/

section Commands
variable {d : Dev} {x : List Byte} (hslot : leAt x 8 1 < 16)
include hslot

theorem Dev.doSpanLoad_mounted (y : List Byte) (hmounted : ((d.spanAt (leAt x 8 1)).map (·.isMounted)).getD false = true) :
    d.doSpanLoad x y = d.adminDone (capTag x) 0x51 0 :=
  (if_neg (Nat.not_le.2 hslot)).trans (if_pos (.inr hmounted))

variable (hlocked : d.locked = true)
include hlocked

/-- SPAN-LOAD for a slot that is not mounted reads the descriptor and judges it by R297. -/
theorem Dev.doSpanLoad_idle (y : List Byte) (hidle : ((d.spanAt (leAt x 8 1)).map (·.isMounted)).getD false = false) :
    d.doSpanLoad x y =
      let e := d.emit (.hostRead (BitVec.ofNat 64 (leAt x 16 8)) 256)
      if e.descOk (leAt x 8 1) y then (e.putSpan (leAt x 8 1) (parseDesc y).loaded).adminDone (capTag x) 0x00 0
      else e.adminDone (capTag x) 0x50 0 := by
  simp only [Dev.doSpanLoad, spanSlots, if_neg (Nat.not_le.2 hslot), hlocked, hidle, Bool.not_true, Bool.false_eq_true, or_self, if_false]
  cases Dev.descOk _ (leAt x 8 1) y <;> rfl

/-- SPAN-UNLOAD empties a slot that is not in use. -/
theorem Dev.doSpanUnload_idle (hidle : ((d.spanAt (leAt x 8 1)).map fun s => s.isMounted || d.writeSessions s).getD false = false) :
    d.doSpanUnload x = (d.delSpan (leAt x 8 1)).adminDone (capTag x) 0x00 0 := by
  refine (if_neg (Nat.not_le.2 hslot)).trans (if_neg ?_)
  simp [hlocked, hidle]

variable {sp : Span} (hsp : d.spanAt (leAt x 8 1) = some sp)
include hsp

/-- SPAN-MAP gives a member's volume the row map that the command's extents spell, and no other field of the slot changes (R315). -/
theorem Dev.doSpanMap_spanAt (y : List Byte) (hcount : leAt x 10 2 ≤ 4096) (hmember : leAt x 9 1 < sp.members.length) :
    (d.doSpanMap x y).spanAt (leAt x 8 1) = some { sp with
      members := lmod sp.members (leAt x 9 1) fun m => { m with map := parseExtents (leAt x 10 2) y } } := by
  have hargs : ¬ (spanSlots ≤ leAt x 8 1 ∨ extentMax < leAt x 10 2) := not_or.2 ⟨Nat.not_le.2 hslot, Nat.not_lt.2 hcount⟩
  simp only [Dev.doSpanMap, if_neg hargs, hsp, hlocked, Bool.not_true, Bool.false_eq_true, if_false, if_neg (Nat.not_le.2 hmember),
    Dev.adminDone_spanAt, Dev.spanAt_modSpan]
  split
  · rw [hsp]; rfl
  · exact congrArg (Option.map _) hsp

/-- SPAN-LIST for the loss list writes MAX entries of a longer list and completes with their number (R320). -/
theorem Dev.doListLoss_longer (hlist : leAt x 9 1 = 0) (hmax : leAt x 12 2 < sp.loss.length) :
    d.doListLoss x = (if leAt x 12 2 = 0 then d else d.emit (.hostWrite (BitVec.ofNat 64 (leAt x 16 8))
      ((sp.loss.map lossBytes).take (leAt x 12 2)).flatten false)).adminDone (capTag x) 0x00 (leAt x 12 2) := by
  have hargs : ¬ (spanSlots ≤ leAt x 8 1 ∨ leAt x 9 1 ≠ 0) := not_or.2 ⟨Nat.not_le.2 hslot, not_not.2 hlist⟩
  have hlength : ((sp.loss.map lossBytes).take (leAt x 12 2)).length = leAt x 12 2 := by simp; omega
  have hempty : (sp.loss.map lossBytes).take (leAt x 12 2) = [] ↔ leAt x 12 2 = 0 := by rw [← List.length_eq_zero_iff, hlength]
  simp only [Dev.doListLoss, Dev.doSpanList, if_neg hargs, hsp, hlocked, Bool.not_true, Bool.false_eq_true, if_false, hempty, hlength]
  rfl

end Commands

/-- Settles O51: set-up being locked and the slot in range, each command's outcome turns on whether the slot is in use and on the
descriptor. That a slot is in use when it is mounted, and the layout of a list's entries, are the model's choice (entries 76, 79). -/
theorem spanCommands : Obligations.SpanCommands := by
  intro d x y hlocked hslot
  refine ⟨fun hidle => ?_, d.doSpanLoad_mounted hslot y, fun sp hsp hcount hmember => ?_,
    fun sp hsp => Dev.doListLoss_longer hslot hlocked hsp, fun hidle => ?_⟩
  · have hload := Dev.doSpanLoad_idle hslot hlocked y hidle
    refine ⟨fun hok => ?_, fun hbad => hload.trans (if_neg (by simp [hbad]))⟩
    rw [hload.trans (if_pos hok)]
    exact ⟨(Dev.adminDone_spanAt ..).trans (Dev.spanAt_putSpan_self ..),
      fun i hi => (Dev.adminDone_spanAt ..).trans (Dev.spanAt_putSpan_other _ _ hi)⟩
  · rw [Dev.doSpanMap_spanAt hslot hlocked hsp y hcount hmember]
    simp [lmod, List.getD, List.getElem?_eq_getElem hmember]
  · rw [Dev.doSpanUnload_idle hslot hlocked hidle]
    exact ⟨(Dev.adminDone_spanAt ..).trans (Dev.spanAt_delSpan_self ..),
      fun i hi => (Dev.adminDone_spanAt ..).trans (Dev.spanAt_delSpan_other _ hi)⟩

end Sys2Proof.Machine
end

section
/-! SUPPORT. Slow members and the periodic JOURNAL record (R305, R310). -/

namespace Sys2Proof.Machine

section Rows
variable {s : State} {slot : Nat} {sp : Span} (hheld : s.dev.coreHeld = false) (hsp : s.dev.spanAt slot = some sp)
include hheld hsp

/-- A member fails when it lacks VERIFIED of row C and its count has reached TIMEOUT (R310). -/
theorem exec_slowMemberTimeout (m : Nat) : exec (.slowMemberTimeout slot m) s = .next (s.withDev
    (if sp.lacking.contains m = true ∧ s.dev.slowLimit slot ≤ ((sp.memsOf sp.c).getD m {}).slow then
      s.dev.memberFail slot m (if s.dev.unreachable ((sp.descOf sp.c).members.getD m 0) then 5 else 1)
    else s.dev)) := by
  refine (nextDev_of_eq hheld ?_ : execSlowMemberTimeout slot m s = _)
  simp only [hsp]

/-- A periodic record is produced when PERIOD ticks have passed and C has advanced (R305). -/
theorem exec_journalPeriod : exec (.journalPeriod slot) s = .next (s.withDev
    (if sp.jrnlAt + s.dev.fld1 Fld.spnJrnlCfgPeriod ≤ s.dev.clk ∧ sp.jrnlC < sp.c then s.dev.journal slot 1 false else s.dev)) := by
  refine (nextDev_of_eq hheld ?_ : execJournalPeriod slot s = _)
  simp only [hsp]

end Rows

/-- TIMEOUT lies within its limits whatever its field holds (R310, R328). -/
theorem Dev.slowLimit_within (d : Dev) (slot : Nat) : 500 ≤ d.slowLimit slot ∧ d.slowLimit slot ≤ 500000 :=
  ⟨Nat.le_max_left .., Nat.max_le.2 ⟨by decide, Nat.min_le_left ..⟩⟩

/-- Settles O40: each row acts exactly when its rule's condition holds, and a record notes its boundary and the C that it shows. -/
theorem slowMembersAndJournal : Obligations.SlowMembersAndJournal := by
  intro s slot m sp hheld hsp
  have hslow := exec_slowMemberTimeout hheld hsp m
  have hperiod := exec_journalPeriod hheld hsp
  refine ⟨fun hlacks hcount => ?_, fun hcount => ?_, s.dev.slowLimit_within slot, fun hdue hadvanced => ?_, fun hsame => ?_⟩
  · rw [hslow, if_pos ⟨hlacks, hcount⟩]
  · rw [hslow, if_neg fun h => Nat.not_le.2 hcount h.2]
  · rw [if_pos ⟨hdue, hadvanced⟩] at hperiod
    refine ⟨_, hperiod, rfl, rfl, ?_, ?_⟩ <;> simp [hsp, Span.journaled]
  · rw [hperiod, if_neg fun h => Nat.not_lt.2 hsame h.2]

end Sys2Proof.Machine
end

section
/-! SUPPORT. Members on peers, the completion of a row, and the reconstruction of a row (R299 to R301, R316, R326). -/

namespace Sys2Proof.Machine

/-! ### A change upon a change -/

theorem tmod_tmod {α : Type} (t : Table α) (k : Nat) (f g : α → α) : tmod (tmod t k f) k g = tmod t k fun x => g (f x) := by
  rw [tmod, tmod, List.map_map]
  refine List.map_congr_left fun p _ => ?_
  by_cases h : p.1 = k <;> simp [h]

theorem Dev.modSpan_modSpan (d : Dev) (slot : Nat) (f g : Span → Span) :
    (d.modSpan slot f).modSpan slot g = d.modSpan slot fun x => g (f x) := by
  rw [Dev.modSpan, Dev.modSpan, tmod_tmod, Dev.modSpan]

@[simp] theorem Span.modMember_rows (x : Span) (n i : Nat) (f : Member → Member) : (x.modMember n i f).rows = x.rows := by
  unfold Span.modMember
  split <;> rfl

@[simp] theorem Span.modMember_peerData (x : Span) (n i : Nat) (f : Member → Member) : (x.modMember n i f).peerData = x.peerData := by
  unfold Span.modMember
  split <;> rfl

/-! ### The status of a member on a peer (R326) -/

/-- A row once the data set of member `m` is WRITTEN, with its time on tape (R67). -/
def Row.writtenIn (r : Row) (m time : Nat) : Row := { r with written := mset r.written m, times := r.times.set m time }

/-- A row once the data set of member `m` is VERIFIED, the first of them at boundary `vis` (R310). -/
def Row.verifiedIn (r : Row) (m vis : Nat) : Row := { r with verified := mset r.verified m, firstVer := some (r.firstVer.getD vis) }

/-- What a span set holds of peers' payloads once member `m` of a row has returned one. -/
def Span.peerPayload (x : Span) (row m : Nat) (bs : List Byte) : Span :=
  { x with peerData := x.peerData.filter (fun y => ! (y.1 == row && y.2.1 == m)) ++ [(row, m, bs)] }

/-- The device once the wrap that a peer reports stands with its member (R131). -/
def Dev.peerWrap (d : Dev) (slot row m wrap : Nat) : Dev :=
  d.modSpan slot fun x => x.modMember row m fun y => { y with wrap := some (wrap % 65536) }

@[simp] theorem Dev.peerWrap_clk (d : Dev) (slot row m wrap : Nat) : (d.peerWrap slot row m wrap).clk = d.clk := rfl

theorem Dev.peerWrap_spanAt {d : Dev} {slot : Nat} {x : Span} (hx : d.spanAt slot = some x) (row m wrap : Nat) :
    (d.peerWrap slot row m wrap).spanAt slot = some (x.modMember row m fun y => { y with wrap := some (wrap % 65536) }) := by
  rw [Dev.peerWrap, Dev.spanAt_modSpan, hx]; rfl

/-- The device once a peer's WRITTEN stands in its row. -/
def Dev.peerWritten (d : Dev) (slot row m time : Nat) : Dev :=
  d.modSpan slot fun x => { x with rows := tmod x.rows row (·.writtenIn m time) }

/-- The time on tape and WRITTEN come to a row as one change. -/
theorem Dev.peerWritten_eq (d : Dev) (slot row m time : Nat) :
    (d.modSpan slot fun x => { x with rows := tmod x.rows row fun r => { r with times := r.times.set m time } }).memberWritten slot row m =
      d.peerWritten slot row m time := by
  rw [Dev.memberWritten, Dev.modSpan_modSpan]
  simp only [tmod_tmod]
  rfl

/-- VERIFIED of a live member stands in its row, which is then looked at (R301). -/
theorem Dev.memberVerified_of_live {d : Dev} {slot row m : Nat} {x : Span} {r : Row} (hx : d.spanAt slot = some x)
    (hr : tget x.rows row = some r) (hlive : r.missing.getLsbD m = false) : d.memberVerified slot row m =
      (d.modSpan slot fun x => { x with rows := tput x.rows row (r.verifiedIn m (d.clk + 1)) }).checkRow slot row := by
  simp only [Dev.memberVerified, hx, hr, hlive, Bool.false_eq_true, if_false]
  rfl

section Status
variable {s : State} {slot row m : Nat} {sp : Span} (hheld : s.dev.coreHeld = false) (hsp : s.dev.spanAt slot = some sp)
include hheld hsp

theorem exec_memberStatusFrame_local (hlocal : (s.dev.memberTp sp row m).isSome = true ∨ (sp.descOf row).width ≤ m)
    (w : PeerReport) (v : Bool) (p : Option (List Byte)) : exec (.memberStatusFrame slot row m w v p) s = .next s := by
  refine (nextDev_of_eq hheld (e := s.dev) ?_ : execMemberStatusFrame slot row m w v p s = _)
  simp only [hsp, if_pos hlocal.symm]

/-- A status frame of a member on a peer: its wrap, then WRITTEN, VERIFIED and the payload as the frame has them (R326). -/
theorem exec_memberStatusFrame (hm : m < (sp.descOf row).width) (hpeer : s.dev.memberTp sp row m = none)
    (w : PeerReport) (v : Bool) (p : Option (List Byte)) : exec (.memberStatusFrame slot row m w v p) s = .next (s.withDev
      (let wrapped := s.dev.peerWrap slot row m w.wrap
       let written := w.written.elim wrapped (wrapped.peerWritten slot row m ·)
       let verified := if v then written.memberVerified slot row m else written
       p.elim verified fun bs => verified.modSpan slot (·.peerPayload row m bs))) := by
  refine (nextDev_of_eq hheld ?_ : execMemberStatusFrame slot row m w v p s = _)
  have hknown : ¬ ((sp.descOf row).width ≤ m ∨ (s.dev.memberTp sp row m).isSome = true) := by simp [hpeer, hm]
  simp only [hsp, if_neg hknown, Dev.peerWritten_eq]
  cases w.written <;> cases p <;> rfl

end Status

/-! ### The completion of a row (R301, R303) -/

/-- The state of row `n`. -/
def Span.rowSt (x : Span) (n : Nat) : Option RowSt := (tget x.rows n).map (·.st)

/-- The state of row `n` of a slot. -/
def Dev.rowSt (d : Dev) (slot n : Nat) : Option (Option RowSt) := (d.spanAt slot).map (·.rowSt n)

/-- A change of the entries that keeps their keys and something of each keeps that of every entry. -/
theorem tget_map_keeps {α β : Type} {f : Nat × α → Nat × α} {keep : α → β} (hkey : ∀ x, (f x).1 = x.1)
    (hf : ∀ x, keep (f x).2 = keep x.2) (t : Table α) (k : Nat) : (tget (t.map f) k).map keep = (tget t k).map keep := by
  induction t with
  | nil => rfl
  | cons a t ih =>
    rw [List.map_cons, tget_cons, tget_cons, hkey]
    split
    · exact congrArg some (hf a)
    · exact ih

/-- A JOURNAL record notes at most that a row has been shown (R305). -/
theorem Dev.rowSt_journal (d : Dev) (slot kind : Nat) (ahead : Bool) (n : Nat) : (d.journal slot kind ahead).rowSt slot n = d.rowSt slot n := by
  cases hx : d.spanAt slot with
  | none => simp [Dev.journal, hx]
  | some x =>
    simp only [Dev.journal, hx]
    refine (Dev.spanAt_modSpan_keeps (fun x => tget_map_keeps ?_ ?_ x.rows n) _ slot).trans ?_
    · intro r; split <;> rfl
    · intro r; split <;> rfl
    · cases ahead
      · rw [if_neg Bool.false_ne_true, (d.cellar_memOnly ..).spanAt]; rfl
      · rfl

/-- The release of the payloads below C leaves the rows' states (R303). -/
theorem Dev.rowSt_passRows (d : Dev) (slot n : Nat) : (d.passRows slot).rowSt slot n = d.rowSt slot n := by
  cases hx : d.spanAt slot with
  | none => simp [Dev.passRows, hx]
  | some x =>
    simp only [Dev.passRows, hx, Dev.rowSt, Dev.spanAt_of_spn (Dev.releaseAll_spn ..)]
    rw [← hx]
    refine Dev.spanAt_modSpan_keeps (fun x => tget_map_keeps ?_ ?_ x.rows n) d slot
    · intro r; split <;> rfl
    · intro r; split <;> rfl

/-- A shape change that is done leaves the rows (R322). -/
theorem Dev.rowSt_shapeDone (d : Dev) (slot n : Nat) : (d.shapeDone slot).rowSt slot n = d.rowSt slot n := by
  cases hx : d.spanAt slot with
  | none => simp [Dev.shapeDone, hx]
  | some x =>
    simp only [Dev.shapeDone, hx]
    split
    · rfl
    · split
      · refine (congrArg _ (Dev.postBoth_spanAt ..)).trans ((Dev.rowSt_journal ..).trans ?_)
        refine (Dev.spanAt_modSpan_keeps ?_ _ slot).trans (foldl_keeps (keep := fun d : Dev => d.rowSt slot n) ?_ _ d)
        all_goals intros; rfl
      · rfl

theorem Dev.meterRow_spanAt (d : Dev) (r : Row) (slot : Nat) : (d.meterRow r).spanAt slot = d.spanAt slot := by
  refine foldl_keeps (keep := fun d : Dev => d.spanAt slot) (fun d y => ?_) r.chunks.zipIdx d
  refine foldl_keeps (keep := fun d : Dev => d.spanAt slot) ?_ _ d
  intros; rfl

section Check
variable {d : Dev} {slot n : Nat} {x : Span} {r : Row} (hx : d.spanAt slot = some x) (hr : tget x.rows n = some r)
include hx hr

theorem Dev.checkRow_waits (h : r.st ≠ .writing ∨ (x.live n r).all r.verified.getLsbD = false) : d.checkRow slot n = d := by
  simp only [Dev.checkRow, hx, hr]
  refine if_neg ?_
  rintro ⟨hst, hall⟩
  rcases h with h | h
  · exact h hst
  · rw [hall] at h; cases h

/-- A row whose live members all hold VERIFIED is complete, whatever follows from that (R301). -/
theorem Dev.checkRow_completes (hst : r.st = .writing) (hall : (x.live n r).all r.verified.getLsbD = true) :
    (d.checkRow slot n).rowSt slot n = some (some .complete) := by
  simp only [Dev.checkRow, hx, hr, if_pos (And.intro hst hall)]
  have hput (e : Dev) (he : e.spanAt slot = some x) :
      (e.modSpan slot fun x => { x with rows := tput x.rows n { r with st := .complete } }).rowSt slot n = some (some .complete) := by
    simp [Dev.rowSt, he, Span.rowSt]
  have hpassed (e : Dev) : ((e.meterRow r).passRows slot).rowSt slot n = e.rowSt slot n :=
    (Dev.rowSt_passRows ..).trans (congrArg _ (Dev.meterRow_spanAt ..))
  rw [Dev.rowSt_shapeDone]
  split
  all_goals
    simp only [Dev.rowSt_journal, hpassed]
    refine (foldl_keeps (keep := fun d : Dev => d.rowSt slot n) ?_ _ _).trans (hput d hx)
    intros; rfl

end Check

/-! ### The reconstruction of a row (R299, R300, R316) -/

/-- The device with the reconstruction of a row for member `m` changed. -/
def Dev.modRecon (d : Dev) (slot row m : Nat) (f : Recon → Recon) : Dev :=
  { d with spn := { d.spn with recons := d.spn.recons.map fun q => if q.slot = slot ∧ q.row = row ∧ q.member = m then f q else q } }

/-- What the end of a reconstruction changes: the reconstruction, and beside it no more than events and a transport's read data sets. -/
def Dev.ReconEnds (d : Dev) (slot row m : Nat) (f : Recon → Recon) (e : Dev) : Prop := e.spn = (d.modRecon slot row m f).spn

/-- The identity part that a reconstructed data set of member `m` gets, from that of the first data set that is had (R134). -/
def Span.reconIdent (x : Span) (row m : Nat) (got : List (Nat × List Byte)) : List Byte :=
  let other := (got.head?.map fun y => y.2.take 256).getD []
  identFor other m (x.descOf row).k (((x.memsOf row)[m]?.map (·.vol)).getD 0) (((x.memsOf row)[m]?.bind fun y => mapDs y.map row).getD 0)
    (leAt other 22 2) false

section Recon
variable {s : State} {slot row : Nat} {sp : Span} (hheld : s.dev.coreHeld = false) (hsp : s.dev.spanAt slot = some sp)
include hheld hsp

/-- Nothing is reconstructed that was not asked for. -/
theorem exec_spanReconstruct_idle
    (hnone : s.dev.spn.recons.find? (fun r => r.slot == slot && r.row == row && r.out.isNone && ! r.failed) = none) :
    exec (.spanReconstruct slot row) s = .next s := by
  refine (nextDev_of_eq hheld (e := s.dev) ?_ : execSpanReconstruct slot row s = _)
  simp only [hsp, hnone]

variable {r : Recon} (hfind : s.dev.spn.recons.find? (fun r => r.slot == slot && r.row == row && r.out.isNone && ! r.failed) = some r)
  {d : Dev} {got : List (Nat × List Byte)} {gone : Nat} (hhave : s.dev.rowHave s.hbm slot row r.member sp = (d, got, gone))
include hfind hhave

theorem exec_spanReconstruct_fails (hgone : (sp.descOf row).p < gone + 1) :
    ∃ e, exec (.spanReconstruct slot row) s = .next (s.withDev e) ∧ d.ReconEnds slot row r.member (fun q => { q with failed := true }) e := by
  refine ⟨_, (nextDev_of_eq hheld rfl : execSpanReconstruct slot row s = _), ?_⟩
  simp only [hsp, hfind, hhave, if_pos hgone]
  repeat' split
  all_goals rfl

variable (hgone : ¬ (sp.descOf row).p < gone + 1)
include hgone

theorem exec_spanReconstruct_waits (hfew : got.length < (sp.descOf row).k) :
    exec (.spanReconstruct slot row) s = .next (s.withDev d) := by
  refine (nextDev_of_eq hheld ?_ : execSpanReconstruct slot row s = _)
  simp only [hsp, hfind, hhave, if_neg hgone, if_pos hfew]

variable (henough : ¬ got.length < (sp.descOf row).k)
include henough

theorem exec_spanReconstruct_begins (hmade : r.made = none) :
    exec (.spanReconstruct slot row) s = .next (s.withDev (d.modRecon slot row r.member fun q => { q with made := some 0 })) := by
  refine (nextDev_of_eq hheld ?_ : execSpanReconstruct slot row s = _)
  simp only [hsp, hfind, hhave, if_neg hgone, if_neg henough, hmade, Option.isNone_none, if_true]
  rfl

theorem exec_spanReconstruct_goes_on {n : Nat} (hmade : r.made = some n) (hn : n ≠ parityTotal) :
    exec (.spanReconstruct slot row) s = .next (s.withDev d) := by
  refine (nextDev_of_eq hheld ?_ : execSpanReconstruct slot row s = _)
  have hleft : some n ≠ some parityTotal := fun h => hn (Option.some.inj h)
  simp only [hsp, hfind, hhave, if_neg hgone, if_neg henough, hmade, Option.isNone_some, Bool.false_eq_true, if_false, if_pos hleft]

/-- Once the budget has covered it, the member's payload is there, behind an identity part of its own (R134). -/
theorem exec_spanReconstruct_ends {bs : List Byte} (hmade : r.made = some parityTotal)
    (hbs : rebuildMember (sp.descOf row).k (sp.descOf row).p (got.take (sp.descOf row).k) r.member = some bs) :
    ∃ e, exec (.spanReconstruct slot row) s = .next (s.withDev e) ∧
      d.ReconEnds slot row r.member (fun q => { q with out := some (sp.reconIdent row r.member got ++ bs.drop 256) }) e := by
  refine ⟨_, (nextDev_of_eq hheld rfl : execSpanReconstruct slot row s = _), ?_⟩
  simp only [hsp, hfind, hhave, if_neg hgone, if_neg henough, hmade, Option.isNone_some, Bool.false_eq_true, if_false, ne_eq,
    not_true_eq_false, hbs]
  repeat' split
  all_goals rfl

end Recon

/-- Settles O42: a frame's parts change the row and the member that it names; a row's completion turns on its live members' VERIFIED, and
a reconstruction's outcome on the data sets that are had and the budget. That a frame carries the wrap and the time on tape is the
model's choice (entry 171). -/
theorem peersAndReconstruction : Obligations.PeersAndReconstruction := by
  refine ⟨fun s slot row m wrap time sp hheld hsp => ⟨fun hlocal => exec_memberStatusFrame_local hheld hsp hlocal, fun hm hpeer => ?_⟩,
    fun d slot n sp r hsp hr => ⟨Dev.checkRow_waits hsp hr, fun hst hall => ?_⟩, fun s slot row sp hheld hsp =>
    ⟨exec_spanReconstruct_idle hheld hsp, fun r hfind => ?_⟩⟩
  · have hframe := exec_memberStatusFrame hheld hsp hm hpeer
    have hwrapped := Dev.peerWrap_spanAt hsp row m wrap
    refine ⟨hframe { wrap := wrap, written := none } false none, ?_, fun r hr => ⟨_, hframe _ _ _, rfl, ?_, fun j hj => ?_⟩,
      fun r hr hlive => ⟨_, _, hframe _ _ _, rfl, Dev.memberVerified_of_live hwrapped ?_ hlive, ?_⟩, fun bs => ⟨_, hframe _ _ _, rfl, ?_⟩⟩
    · exact (congrArg (Option.map _) hwrapped).trans (congrArg some (Span.modMember_rows ..))
    · simp [Dev.peerWritten, hwrapped, hr, Row.writtenIn]
    · simp [Dev.peerWritten, hwrapped, tget_tmod_other _ _ hj]
    · rw [Span.modMember_rows, hr]
    · simp [hwrapped, Row.verifiedIn]
    · simp [hwrapped, Span.peerPayload]
  · have hcomplete := Dev.checkRow_completes hsp hr hst hall
    rw [Dev.rowSt] at hcomplete
    obtain ⟨x, hx, hrow⟩ := Option.map_eq_some_iff.1 hcomplete
    rw [hx]
    exact hrow
  · intro y x at_
    have hrecons (e : Dev) (f : Recon → Recon) (h : y.1.ReconEnds slot row r.member f e) : e.spn.recons = at_ f := by
      rw [h, Dev.modRecon, (s.dev.rowHave_memOnly ..).spn]
    refine ⟨fun hgone => ?_, fun hgone hfew => exec_spanReconstruct_waits hheld hsp hfind rfl (Nat.not_lt.2 hgone) hfew,
      fun hgone henough => ⟨fun hmade => ?_, fun n hmade hn => ?_, fun bs hmade hbs => ?_⟩⟩
    · obtain ⟨e, hexec, hend⟩ := exec_spanReconstruct_fails hheld hsp hfind rfl hgone
      exact ⟨_, hexec, rfl, hrecons e _ hend⟩
    · exact ⟨_, exec_spanReconstruct_begins hheld hsp hfind rfl (Nat.not_lt.2 hgone) (Nat.not_lt.2 henough) hmade, rfl, hrecons _ _ rfl⟩
    · exact exec_spanReconstruct_goes_on hheld hsp hfind rfl (Nat.not_lt.2 hgone) (Nat.not_lt.2 henough) hmade hn
    · obtain ⟨e, hexec, hend⟩ := exec_spanReconstruct_ends hheld hsp hfind rfl (Nat.not_lt.2 hgone) (Nat.not_lt.2 henough) hmade hbs
      exact ⟨_, _, hexec, rfl, hrecons e _ hend⟩

end Sys2Proof.Machine
end

section
/-! SUPPORT. What a JOURNAL record spells, patrol, and the shape change that becomes active (R306, R322, R324). -/

namespace Sys2Proof.Machine

/-! ### Fields of a record -/

/-- The bytes of a field spell its value (R35). -/
theorem leNat_leBytes (n v : Nat) : leNat (leBytes n v) = v % 256 ^ n := by
  induction n generalizing v with
  | zero => rw [pow_zero, Nat.mod_one]; rfl
  | succ n ih => rw [leBytes, leNat, ih, BitVec.toNat_ofNat, pow_succ' 256 n, Nat.mod_mul]

/-- A field that stands first. -/
theorem leAt_leBytes_append (n v : Nat) (bs : List Byte) : leAt (leBytes n v ++ bs) 0 n = v % 256 ^ n := by
  rw [leAt, slice, List.drop_zero, List.take_left' (leBytes_length n v), leNat_leBytes]

/-- A field behind the first bytes. -/
theorem leAt_append_right {as : List Byte} {off : Nat} (h : as.length ≤ off) (bs : List Byte) (n : Nat) :
    leAt (as ++ bs) off n = leAt bs (off - as.length) n := by
  rw [leAt, slice, List.drop_append, List.drop_eq_nil_of_le h, List.nil_append]; rfl

/-- KIND, PHASE and B of a JOURNAL record (R306). -/
theorem Span.journalBytes_fields (x : Span) (kind : Nat) (tick : TickCount) :
    leAt (x.journalBytes kind tick) 2 1 = kind % 256 ∧ leAt (x.journalBytes kind tick) 3 1 = x.phase % 256 ∧
      leAt (x.journalBytes kind tick) 24 6 = x.boundary % 2 ^ 48 := by
  have hgap : (zeros 2).length = 2 := rfl
  simp only [Span.journalBytes, List.append_assoc]
  refine ⟨?_, ?_, ?_⟩ <;> simp [leAt_append_right, leAt_leBytes_append, hgap]

/-! ### Patrol (R324) -/

/-- The members whose data sets are undecodable. -/
def undecodable (got : List (Option (List Byte))) : List Nat := (got.zipIdx.filter fun y => y.1.isNone).map (·.2)

/-- Where P as it was read first differs from P over the data members. -/
def Desc.diffP (x : Desc) (got : List (Option (List Byte))) : Option Nat :=
  parityDiff ((got.take x.k).map fun y => y.getD []) false (if 1 ≤ x.p then (got[x.k]?).getD none else none)

/-- Where Q as it was read first differs from Q over the data members. -/
def Desc.diffQ (x : Desc) (got : List (Option (List Byte))) : Option Nat :=
  parityDiff ((got.take x.k).map fun y => y.getD []) true (if 2 ≤ x.p then (got[x.k + 1]?).getD none else none)

section Judge
variable (d : Dev) (slot n : Nat) (x : Span) (got : List (Option (List Byte)))

theorem Dev.patrolJudge_loses (h : (x.descOf n).p < (undecodable got).length) : d.patrolJudge slot n x got =
    (d.lossAdd slot { row := n, members := (undecodable got).foldl mset 0, cause := 3 }).journal slot 4 false := if_pos h

/-- A row whose data sets all decode is suspect where P or Q first differs. -/
theorem Dev.patrolJudge_decoded (h : undecodable got = []) : d.patrolJudge slot n x got =
    (((x.descOf n).diffP got).toList ++ ((x.descOf n).diffQ got).toList).min?.elim d fun a => d.suspectAdd x.desc.id
      { slot := slot, row := n, p := ((x.descOf n).diffP got).isSome, q := ((x.descOf n).diffQ got).isSome, sds := a / sdsBytes, cause := 1 } := by
  have hnone : (undecodable got).length = 0 := by rw [h]; rfl
  refine (if_neg (by rw [← undecodable, hnone]; omega)).trans ((if_pos hnone).trans ?_)
  show (match (((x.descOf n).diffP got).toList ++ ((x.descOf n).diffQ got).toList).min? with | some a => _ | none => d) = _
  cases (((x.descOf n).diffP got).toList ++ ((x.descOf n).diffQ got).toList).min? <;> rfl

theorem Dev.patrolJudge_undecodable (hsome : undecodable got ≠ []) (h : (undecodable got).length = (x.descOf n).p) :
    d.patrolJudge slot n x got =
      d.suspectAdd x.desc.id { slot := slot, row := n, p := false, q := false, sds := 0xFF, cause := 3 } := by
  have hlength : (undecodable got).length ≠ 0 := fun h => hsome (List.length_eq_zero_iff.1 h)
  exact (if_neg (Nat.not_lt.2 h.le)).trans ((if_neg hlength).trans (if_pos h))

end Judge

/-! ### Shape change (R322) -/

/-- The next row to open: the open row has opened unless the span set is full or read-only. -/
def Span.nextToOpen (x : Span) : Nat := if (tget x.rows x.openRow).isSome then x.openRow + 1 else x.openRow

/-- The device once a slot's shape change is active from row `b` on, as SPN_SHAPE tells (R327). -/
def Dev.shapeActivated (d : Dev) (slot : Nat) (x : Span) (b : Nat) : Dev :=
  (d.modSpan slot fun y => { y with phase := 2, boundary := b }).postShape x 2 b ((x.newDesc.map (·.epoch)).getD 0)

theorem Dev.shapeActivated_spanAt {d : Dev} {slot : Nat} {x : Span} (hx : d.spanAt slot = some x) (b : Nat) :
    (d.shapeActivated slot x b).spanAt slot = some { x with phase := 2, boundary := b } := by
  rw [Dev.shapeActivated, Dev.postShape, Dev.postBoth_spanAt, Dev.spanAt_modSpan, hx]; rfl

/-! ### The rows -/

section Rows
variable {s : State} {slot : Nat} {sp : Span} (hheld : s.dev.coreHeld = false) (hsp : s.dev.spanAt slot = some sp)
include hheld hsp

/-- Patrol that is off or late reads nothing (R16, R324). -/
theorem exec_patrolRow_idle (h : s.dev.patrolOn slot sp = false ∨ s.dev.stalls blkSpn 0 3 = true) : exec (.patrolRow slot) s = .next s := by
  refine (nextDev_of_eq hheld (e := s.dev) ?_ : execPatrolRow slot s = _)
  simp only [hsp]
  exact if_pos (by simpa using h)

/-- Patrol that is on passes a row over, waits for its data sets, or judges it (R324, R325). -/
theorem exec_patrolRow (hon : s.dev.patrolOn slot sp = true) (hlate : s.dev.stalls blkSpn 0 3 = false) {d : Dev} {srcs : List DsSrc}
    (hsrcs : s.dev.patrolSrcs s.hbm slot sp.patrol (sp.descOf sp.patrol).width = (d, srcs)) :
    exec (.patrolRow slot) s = .next (s.withDev
      (if sp.patrolRow = false ∨ sp.rowLost sp.patrol = true ∨ sp.rowVoid sp.patrol = true then s.dev.patrolNext slot
      else if srcs.any DsSrc.awaited then d
      else if srcs.any DsSrc.isVoid then d.patrolNext slot
      else (d.patrolJudge slot sp.patrol sp (srcs.map DsSrc.whole)).patrolNext slot)) := by
  refine (nextDev_of_eq hheld ?_ : execPatrolRow slot s = _)
  simp only [hsp, hon, hlate, hsrcs, Bool.not_true, Bool.false_eq_true, or_self, if_false, Bool.not_eq_true']

/-- A shape change whose new volumes are ready becomes active at the next row to open (R322). -/
theorem exec_shapeActive (hphase : sp.phase = 1) (hvols : s.dev.shapeReady sp = true) : exec (.shapeActive slot) s =
    .next (s.withDev ((s.dev.shapeActivated slot sp sp.nextToOpen).journal slot 5 false)) := by
  refine (nextDev_of_eq hheld ?_ : execShapeActive slot s = _)
  simp only [hsp]
  exact if_pos ⟨hphase, hvols⟩

theorem exec_shapeActive_waits (h : sp.phase ≠ 1 ∨ s.dev.shapeReady sp = false) : exec (.shapeActive slot) s = .next s := by
  refine (nextDev_of_eq hheld (e := s.dev) ?_ : execShapeActive slot s = _)
  simp only [hsp]
  refine if_neg ?_
  rintro ⟨hphase, hvols⟩
  rcases h with h | h
  · exact h hphase
  · rw [hvols] at h; cases h

end Rows

end Sys2Proof.Machine
end

section
/-! SUPPORT. The rebuild cursor: the row that it names, the data set that it writes, and the member that joins (R317 to R320). -/

namespace Sys2Proof.Machine

/-! ### The cursor (R319) -/

/-- A rebuild once its cursor has moved on, `mark` rows past its last checkpoint. -/
def Rebuild.moved (r : Rebuild) (fresh : Bool) (mark : Nat) : Rebuild :=
  { r with row := r.row + 1, fresh := r.fresh || fresh, mark := mark, made := none }

/-- The cursor moves on; a checkpoint also notes its JOURNAL record. -/
theorem Dev.cursorMove_spanAt {d : Dev} {slot : Nat} {x : Span} {r : Rebuild} (hx : d.spanAt slot = some x) (hr : x.rebuild = some r)
    (fresh : Bool) : ∃ mark a c, (d.cursorMove slot fresh).spanAt slot =
      some { x with rebuild := some (r.moved fresh mark), jrnlAt := a, jrnlC := c } := by
  simp only [Dev.cursorMove, Dev.spanAt_modSpan, hx, hr, Option.map_some, Option.bind_some]
  split
  · exact ⟨0, d.clk, x.c, by simp [hx, hr, Rebuild.moved, Span.journaled]⟩
  · exact ⟨r.mark + 1, x.jrnlAt, x.jrnlC, by simp [hx, hr, Rebuild.moved]⟩

@[simp] theorem Dev.cursorMove_wr (d : Dev) (slot : Nat) (fresh : Bool) : (d.cursorMove slot fresh).wr = d.wr := by
  simp only [Dev.cursorMove]
  repeat' split
  · exact Dev.journal_wr ..
  · rfl
  · rfl

/-- The row that the cursor of a slot names. -/
def Dev.cursor (d : Dev) (slot : Nat) : Option Nat := ((d.spanAt slot).bind (·.rebuild)).map (·.row)

theorem Dev.cursor_cursorMove {d : Dev} {slot : Nat} {x : Span} {r : Rebuild} (hx : d.spanAt slot = some x) (hr : x.rebuild = some r)
    (fresh : Bool) : (d.cursorMove slot fresh).cursor slot = some (r.row + 1) := by
  obtain ⟨_, _, _, h⟩ := Dev.cursorMove_spanAt hx hr fresh
  rw [Dev.cursor, h]
  rfl

/-! ### A row that is lost (R320) -/

/-- The loss list once an entry has been added, while it has room. -/
def Span.lose (x : Span) (l : Loss) : Span := { x with loss := if x.loss.length < lossMax then x.loss ++ [l] else x.loss }

theorem Dev.lossAdd_spanAt {d : Dev} {slot : Nat} {x : Span} (hx : d.spanAt slot = some x) (l : Loss) :
    (d.lossAdd slot l).spanAt slot = some (x.lose l) := by
  simp only [Dev.lossAdd, hx, Dev.postBoth_spanAt, Span.lose]
  split
  · rw [Dev.spanAt_modSpan, hx]; rfl
  · exact hx

theorem Dev.rebuildLost_spanAt {d : Dev} {slot : Nat} {x : Span} {r : Rebuild} (hx : d.spanAt slot = some x) (hr : x.rebuild = some r) :
    ∃ mark a c, (d.rebuildLost slot r).spanAt slot = some { x.lose { row := r.row, members := mset 0 r.member, cause := 1 } with
      rebuild := some (r.moved true mark), jrnlAt := a, jrnlC := c } :=
  Dev.cursorMove_spanAt (x := (x.lose _).journaled _) ((Dev.spanAt_journal ..).trans (by rw [Dev.lossAdd_spanAt hx]; rfl)) hr true

/-! ### A row that is written (R317) -/

@[simp] theorem Dev.allocate_spn (d : Dev) (p owner releaser : Nat) : (d.allocate p owner releaser).1.spn = d.spn := by
  simp only [Dev.allocate]
  repeat' split
  all_goals rfl

@[simp] theorem Dev.allocate_wr (d : Dev) (p owner releaser : Nat) : (d.allocate p owner releaser).1.wr = d.wr := by
  simp only [Dev.allocate]
  repeat' split
  all_goals rfl

/-- The data set that a rebuild stages in buffer `b`. -/
def Rebuild.dataSet (r : Rebuild) (slot : Nat) (b : BitVec 32) : DsWr :=
  { no := r.next, slot := slot, row := r.row, member := r.member, payload := b, rebuilt := true }

/-- A rebuild once the replacement's volume has taken its next data set. -/
def Rebuild.wrote (r : Rebuild) : Rebuild := { r with next := r.next + 1, map := mapAdd r.map r.next r.row r.fresh, fresh := false }

/-- The device once the cursor's row stands in buffer `b`: its data set is staged and the cursor moves on. -/
def Dev.rebuildStaged (d : Dev) (slot id : Nat) (r : Rebuild) (b : BitVec 32) : Dev :=
  let d := d.stage r.tp (r.dataSet slot b)
  let d := if extends_ r.map r.next r.row r.fresh then d else d.postExtent id r.vol { ds := r.next, row := r.row, count := 1 }
  (d.modSpan slot fun x => { x with rebuild := x.rebuild.map (·.wrote) }).cursorMove slot false

/-- The payload that a rebuild regenerates: its bytes behind the replacement's identity part (R134). -/
def Rebuild.payload (r : Rebuild) (k wrap : Nat) (got : List (Nat × List Byte)) (bs : List Byte) : List Byte :=
  identFor ((got.head?.map fun y => y.2.take 256).getD []) r.member k r.vol r.next wrap true ++ bs.drop 256

/-- The device once a rebuild's buffer has been taken and filled. -/
def Dev.rebuildFilled (d : Dev) (h : Hbm) (pay : List Byte) : Dev :=
  (bufWrite (h, (d.allocate 4 5 5).1) (d.allocate 4 5 5).2 0 pay false).2

@[simp] theorem Dev.rebuildFilled_spn (d : Dev) (h : Hbm) (pay : List Byte) : (d.rebuildFilled h pay).spn = d.spn :=
  (bufWrite_memOnly ..).spn.trans (Dev.allocate_spn ..)

@[simp] theorem Dev.rebuildFilled_wr (d : Dev) (h : Hbm) (pay : List Byte) : (d.rebuildFilled h pay).wr = d.wr :=
  (bufWrite_memOnly ..).wr.trans (Dev.allocate_wr ..)

/-- With a buffer of R453 the row's payload is written to it and staged. -/
theorem rebuildWrite_takes (h : Hbm) {d : Dev} (slot : Nat) (sp : Span) (r : Rebuild) (x : Desc) (got : List (Nat × List Byte))
    (bs : List Byte) (hfree : (d.pool.reqs.any fun q => fittingPool q.size == 4 && (q.owner == 1 || q.owner == 4 || q.owner == 10)) = false)
    (hmay : d.mayTake 5 4 = true) : (rebuildWrite (h, d) slot sp r x got bs).2 =
      (d.rebuildFilled h (r.payload x.k ((d.allocate 4 5 5).1.wrAt r.tp).wrap got bs)).rebuildStaged slot sp.desc.id r
        (d.allocate 4 5 5).2 := by
  simp only [rebuildWrite, hfree, hmay, Bool.not_true, Bool.false_eq_true, or_self, if_false]
  rfl

section Staged
variable {d : Dev} {slot id : Nat} {r : Rebuild} {b : BitVec 32}

theorem Dev.rebuildStaged_staged (htp : r.tp < d.wr.length) :
    ((d.rebuildStaged slot id r b).wrAt r.tp).staged = (d.wrAt r.tp).staged ++ [r.dataSet slot b] := by
  have hwr : (d.rebuildStaged slot id r b).wr = (d.stage r.tp (r.dataSet slot b)).wr := by
    simp only [Dev.rebuildStaged, Dev.cursorMove_wr, Dev.modSpan_wr]
    split <;> rfl
  rw [Dev.wrAt, hwr, ← Dev.wrAt, Dev.stage, Dev.wrAt_modWr_self _ _ htp]

theorem Dev.rebuildStaged_spanAt {x : Span} (hx : d.spanAt slot = some x) (hr : x.rebuild = some r) :
    ∃ mark a c, (d.rebuildStaged slot id r b).spanAt slot =
      some { x with rebuild := some (r.wrote.moved false mark), jrnlAt := a, jrnlC := c } := by
  refine Dev.cursorMove_spanAt (x := { x with rebuild := some r.wrote }) ?_ rfl false
  rw [Dev.spanAt_modSpan]
  split
  · rw [Dev.spanAt_stage, hx, Option.map_some, hr]; rfl
  · rw [Dev.postExtent, Dev.postEvent_spanAt, Dev.spanAt_stage, hx, Option.map_some, hr]; rfl

end Staged

/-! ### A member that joins (R318) -/

/-- What a join decides of a span set: its rebuild, its missing members, C, and each member's volume and whether it is written. -/
def Span.joined (x : Span) : Option Rebuild × BitVec 32 × Nat × List (BitVec 64 × Bool) :=
  (x.rebuild, x.failed, x.c, x.members.map fun m => (m.vol, m.write))

/-- A change of one member that keeps something of it keeps that of all. -/
theorem map_lmod_keeps {α β : Type} {f : α → α} {keep : α → β} (hf : ∀ a, keep (f a) = keep a) (l : List α) (i : Nat) :
    (lmod l i f).map keep = l.map keep := by
  refine List.ext_getElem? fun j => ?_
  rw [lmod, List.getElem?_map, List.getElem?_map, List.getElem?_modify]
  cases l[j]? with
  | none => rfl
  | some a =>
    by_cases h : i = j
    · simp [h, hf]
    · simp [h]

theorem putIdent_spanAt (hd : Hbm × Dev) (r : Row) (k i : Nat) (ident : List Byte) (slot : Nat) :
    (putIdent hd r k i ident).2.spanAt slot = hd.2.spanAt slot := by
  unfold putIdent
  split
  · exact bufWrite_spanAt ..
  · rfl

/-- What has been decided of a slot's span set. -/
def Dev.joined (d : Dev) (slot : Nat) : Option (Option Rebuild × BitVec 32 × Nat × List (BitVec 64 × Bool)) := (d.spanAt slot).map (·.joined)

theorem Dev.joined_of_spanAt {d e : Dev} {slot : Nat} (h : e.spanAt slot = d.spanAt slot) : e.joined slot = d.joined slot :=
  congrArg (Option.map _) h

@[simp] theorem Dev.joined_journal (d : Dev) (slot kind : Nat) : (d.journal slot kind false).joined slot = d.joined slot := by
  rw [Dev.joined, Dev.spanAt_journal, Option.map_map]; rfl

theorem Dev.joined_modSpan {f : Span → Span} (hf : ∀ x, (f x).joined = x.joined) (d : Dev) (slot : Nat) :
    (d.modSpan slot f).joined slot = d.joined slot := Dev.spanAt_modSpan_keeps hf d slot

/-- Numbers and row maps of the members are not decided by a join. -/
theorem Span.joined_lmod {f : Member → Member} (hf : ∀ m, ((f m).vol, (f m).write) = (m.vol, m.write)) (x : Span) (i : Nat) :
    ({ x with members := lmod x.members i f } : Span).joined = x.joined :=
  congrArg (fun ms => (x.rebuild, x.failed, x.c, ms)) (map_lmod_keeps hf x.members i)

/-- A span set as member `r.member` joins in place of `old`, before its data sets are renumbered. -/
def Span.takesMember (x : Span) (r : Rebuild) (entry : Nat) (old : Member) : Span :=
  { x with
    desc := { x.desc with members := x.desc.members.set r.member entry }
    members := x.members.set r.member { vol := r.vol, next := r.next, mounted := true, write := true, map := r.map }
    oldVols := x.oldVols ++ [{ vol := old.vol, member := r.member, map := old.map }]
    failed := mclr x.failed r.member, rebuild := none
    rows := x.rows.map fun y => if x.c ≤ y.1 then (y.1, { y.2 with missing := mclr y.2.missing r.member }) else y }

theorem Span.joined_takesMember (x : Span) (r : Rebuild) (entry : Nat) (old : Member) : (x.takesMember r entry old).joined =
    (none, mclr x.failed r.member, x.c, (x.members.map fun m => (m.vol, m.write)).set r.member (r.vol, true)) := by
  rw [Span.joined, Span.takesMember, List.map_set]

/-- A data set that is staged, and a payload that is shared, leave the slots. -/
theorem Dev.spanAt_handOver (d : Dev) (kept : Option (BitVec 32)) (staged : Bool) (n : Nat) (y : DsWr) (slot : Nat) :
    (if staged then ((kept.map fun b => d.share b 6).getD d).stage n y else (kept.map fun b => d.share b 6).getD d).spanAt slot =
      d.spanAt slot := by
  cases kept <;> cases staged <;> rfl

/-- Only the first of a join's steps decides: the data sets that it renumbers change the members' next numbers and row maps alone. -/
theorem joinMember_joined (h : Hbm) {d : Dev} {slot : Nat} {x : Span} (hx : d.spanAt slot = some x) (r : Rebuild) :
    (joinMember (h, d) slot x r).2.joined slot = some (none, mclr x.failed r.member, x.c,
      (x.members.map fun m => (m.vol, m.write)).set r.member (r.vol, true)) := by
  let entry := 0x8000 + d.fld Fld.fabCfgAddr + 256 * r.tp
  have hfirst : (d.modSpan slot (·.takesMember r entry (x.members.getD r.member {}))).joined slot = some (none, mclr x.failed r.member, x.c,
      (x.members.map fun m => (m.vol, m.write)).set r.member (r.vol, true)) := by
    rw [Dev.joined, Dev.spanAt_modSpan, hx, ← x.joined_takesMember r entry (x.members.getD r.member {})]; rfl
  simp only [joinMember, Dev.joined_journal]
  generalize List.map _ (List.filter _ x.rows) = redo
  refine (Dev.joined_of_spanAt (Dev.postEvent_spanAt ..)).trans ?_
  cases redo with
  | nil => exact (Dev.joined_modSpan (fun y => Span.joined_lmod (fun _ => by rfl) y r.member) _ slot).trans hfirst
  | cons z zs =>
    refine (Dev.joined_of_spanAt (Dev.postEvent_spanAt ..)).trans ?_
    refine (foldl_keeps (keep := fun hd : Hbm × Dev => hd.2.joined slot) (fun hd y => ?_) _ _).trans hfirst
    refine (Dev.joined_of_spanAt (Dev.spanAt_handOver ..)).trans ?_
    refine (Dev.joined_modSpan (fun z => ?_) _ slot).trans (Dev.joined_of_spanAt (putIdent_spanAt ..))
    exact Span.joined_lmod (fun _ => by rfl) z r.member

/-- The span set that a join leaves: no rebuild, the member not missing, C as it was, and the member's volume the replacement's. -/
theorem joinMember_spanAt (h : Hbm) {d : Dev} {slot : Nat} {x : Span} (hx : d.spanAt slot = some x) (r : Rebuild) :
    ∃ y, (joinMember (h, d) slot x r).2.spanAt slot = some y ∧ y.rebuild = none ∧ y.failed = mclr x.failed r.member ∧ y.c = x.c ∧
      (r.member < x.members.length → (y.members.getD r.member {}).vol = r.vol ∧ (y.members.getD r.member {}).write = true) := by
  obtain ⟨y, hy, hjoined⟩ := Option.map_eq_some_iff.1 (joinMember_joined h hx r)
  simp only [Span.joined, Prod.mk.injEq] at hjoined
  obtain ⟨hrebuild, hfailed, hc, hmembers⟩ := hjoined
  refine ⟨y, hy, hrebuild, hfailed, hc, fun hlt => ?_⟩
  have hmember := congrArg (·[r.member]?) hmembers
  simp only [List.getElem?_map, List.getElem?_set_self (show r.member < (x.members.map _).length by simpa using hlt),
    Option.map_eq_some_iff, Prod.mk.injEq] at hmember
  obtain ⟨m, hm, hvol, hwrite⟩ := hmember
  rw [List.getD, hm]
  exact ⟨hvol, hwrite⟩

/-! ### The rows -/

section Rows
variable {s : State} {slot : Nat} {sp : Span} {r : Rebuild} (hheld : s.dev.coreHeld = false) (hsp : s.dev.spanAt slot = some sp)
  (hr : sp.rebuild = some r)
include hheld hsp hr

theorem exec_rebuildRow_unready (hready : r.ready = false) : exec (.rebuildRow slot) s = .next s := by
  refine (nextHd_of_eq hheld (e := (s.hbm, s.dev)) ?_ : execRebuildRow slot s = _)
  simp only [hsp, hr, hready, Bool.not_false, if_true]

/-- The row that the cursor names, its replacement being ready: what C, the lists, the data sets that are had and the budget say of it
(R317 to R320). -/
theorem exec_rebuildRow (hready : r.ready = true) {d : Dev} {got : List (Nat × List Byte)} {gone : Nat}
    (hhave : s.dev.rowHave s.hbm slot r.row r.member sp = (d, got, gone)) : exec (.rebuildRow slot) s = .next (s.withHd
      (if sp.c ≤ r.row then joinMember (s.hbm, s.dev) slot sp r
      else if sp.rowLost r.row then (s.hbm, s.dev.cursorMove slot true)
      else if sp.rowVoid r.row then (s.hbm, s.dev.cursorMove slot false)
      else if (sp.descOf r.row).p < gone + 1 then (s.hbm, d.rebuildLost slot r)
      else if got.length < (sp.descOf r.row).k then (s.hbm, d)
      else if r.made = none then (s.hbm, d.modSpan slot fun x => { x with rebuild := x.rebuild.map fun r => { r with made := some 0 } })
      else if r.made ≠ some parityTotal then (s.hbm, d)
      else (rebuildMember (sp.descOf r.row).k (sp.descOf r.row).p (got.take (sp.descOf r.row).k) r.member).elim
        (s.hbm, d.rebuildLost slot r) (rebuildWrite (s.hbm, d) slot sp r (sp.descOf r.row) got))) := by
  refine (nextHd_of_eq hheld ?_ : execRebuildRow slot s = _)
  simp only [hsp, hr, hready, hhave, Bool.not_true, Bool.false_eq_true, if_false, Option.isNone_iff_eq_none]
  cases rebuildMember (sp.descOf r.row).k (sp.descOf r.row).p (got.take (sp.descOf r.row).k) r.member <;> rfl

/-- A row that is lost or void is passed over. -/
theorem exec_rebuildRow_passes (hready : r.ready = true) (hc : r.row < sp.c) (h : sp.rowLost r.row = true ∨ sp.rowVoid r.row = true) :
    exec (.rebuildRow slot) s = .next (s.withDev (s.dev.cursorMove slot (sp.rowLost r.row))) := by
  rw [exec_rebuildRow hheld hsp hr hready rfl, if_neg (Nat.not_le.2 hc)]
  cases hlost : sp.rowLost r.row with
  | true => rw [if_pos rfl]; rfl
  | false => rw [if_neg Bool.false_ne_true, if_pos (h.resolve_left (by simp [hlost]))]; rfl

variable (hready : r.ready = true) (hc : r.row < sp.c) (hlost : sp.rowLost r.row = false) (hvoid : sp.rowVoid r.row = false)
  {d : Dev} {got : List (Nat × List Byte)} {gone : Nat} (hhave : s.dev.rowHave s.hbm slot r.row r.member sp = (d, got, gone))
include hready hc hlost hvoid hhave

theorem exec_rebuildRow_loses (hgone : (sp.descOf r.row).p < gone + 1) :
    exec (.rebuildRow slot) s = .next (s.withDev (d.rebuildLost slot r)) := by
  rw [exec_rebuildRow hheld hsp hr hready hhave, if_neg (Nat.not_le.2 hc), if_neg (by simp [hlost]), if_neg (by simp [hvoid]), if_pos hgone]
  rfl

variable (hgone : gone + 1 ≤ (sp.descOf r.row).p)
include hgone

/-- Of a row that is neither lost nor void nor beyond regeneration, what the data sets that are had and the budget say. -/
theorem exec_rebuildRow_regenerates : exec (.rebuildRow slot) s = .next (s.withHd
    (if got.length < (sp.descOf r.row).k then (s.hbm, d)
    else if r.made = none then (s.hbm, d.modSpan slot fun x => { x with rebuild := x.rebuild.map fun r => { r with made := some 0 } })
    else if r.made ≠ some parityTotal then (s.hbm, d)
    else (rebuildMember (sp.descOf r.row).k (sp.descOf r.row).p (got.take (sp.descOf r.row).k) r.member).elim
      (s.hbm, d.rebuildLost slot r) (rebuildWrite (s.hbm, d) slot sp r (sp.descOf r.row) got))) := by
  rw [exec_rebuildRow hheld hsp hr hready hhave, if_neg (Nat.not_le.2 hc), if_neg (by simp [hlost]), if_neg (by simp [hvoid]),
    if_neg (Nat.not_lt.2 hgone)]

theorem exec_rebuildRow_waits (h : got.length < (sp.descOf r.row).k ∨
    (sp.descOf r.row).k ≤ got.length ∧ ∃ n, r.made = some n ∧ n ≠ parityTotal) : exec (.rebuildRow slot) s = .next (s.withDev d) := by
  rw [exec_rebuildRow_regenerates hheld hsp hr hready hc hlost hvoid hhave hgone]
  rcases h with hfew | ⟨henough, n, hmade, hn⟩
  · rw [if_pos hfew]; rfl
  · rw [if_neg (Nat.not_lt.2 henough), hmade, if_neg (by simp), if_pos (by simpa using hn)]; rfl

variable (henough : (sp.descOf r.row).k ≤ got.length)
include henough

theorem exec_rebuildRow_begins (hmade : r.made = none) : exec (.rebuildRow slot) s = .next (s.withDev
    (d.modSpan slot fun x => { x with rebuild := x.rebuild.map fun r => { r with made := some 0 } })) := by
  rw [exec_rebuildRow_regenerates hheld hsp hr hready hc hlost hvoid hhave hgone, if_neg (Nat.not_lt.2 henough), if_pos hmade]
  rfl

theorem exec_rebuildRow_writes {bs : List Byte} (hmade : r.made = some parityTotal)
    (hbs : rebuildMember (sp.descOf r.row).k (sp.descOf r.row).p (got.take (sp.descOf r.row).k) r.member = some bs) :
    exec (.rebuildRow slot) s = .next (s.withHd (rebuildWrite (s.hbm, d) slot sp r (sp.descOf r.row) got bs)) := by
  rw [exec_rebuildRow_regenerates hheld hsp hr hready hc hlost hvoid hhave hgone, if_neg (Nat.not_lt.2 henough), hmade,
    if_neg (by simp), if_neg (by simp), hbs, Option.elim_some]

end Rows

/-- Settles O41: the cursor's row is judged by C, the lists, the data sets that are had and the budget, in that order; a shape change by
its new volumes; a patrolled row by its undecodable data sets and by where the parity differs. -/
theorem rebuildShapeAndPatrol : Obligations.RebuildShapeAndPatrol := by
  refine ⟨fun s slot sp r hheld hsp hr => ⟨exec_rebuildRow_unready hheld hsp hr, fun hready hc => ?_, fun lost hready hc hlost hpass => ?_,
      fun hready hc hlost hvoid => ?_⟩, fun h d slot sp r x got bs hsp hr htp hfree hmay => ?_,
    fun s slot sp hheld hsp => ⟨fun hphase hvols => ?_, exec_shapeActive_waits hheld hsp, exec_patrolRow_idle hheld hsp, fun hon hlate => ?_⟩,
    fun d slot n sp got => ?_, fun d slot kind x hx => ?_⟩
  · obtain ⟨y, hy, hjoined⟩ := joinMember_spanAt s.hbm hsp r
    exact ⟨_, y, (exec_rebuildRow hheld hsp hr hready rfl).trans (by rw [if_pos hc]), rfl, hy, hjoined⟩
  · subst hlost
    exact ⟨_, exec_rebuildRow_passes hheld hsp hr hready hc hpass, rfl, Dev.cursor_cursorMove hsp hr _⟩
  · have hspan := ((s.dev.rowHave_memOnly s.hbm slot r.row r.member sp).spanAt slot).trans hsp
    rcases hhave : s.dev.rowHave s.hbm slot r.row r.member sp with ⟨d, got, gone⟩
    rw [hhave] at hspan
    refine ⟨fun hgone => ?_, fun hgone hfew => exec_rebuildRow_waits hheld hsp hr hready hc hlost hvoid hhave hgone (.inl hfew),
      fun hgone henough => ⟨fun hmade => ?_, fun n hmade hn =>
        exec_rebuildRow_waits hheld hsp hr hready hc hlost hvoid hhave hgone (.inr ⟨henough, n, hmade, hn⟩),
      fun bs => exec_rebuildRow_writes hheld hsp hr hready hc hlost hvoid hhave hgone henough⟩⟩
    · obtain ⟨mark, a, c, hafter⟩ := Dev.rebuildLost_spanAt hspan hr
      refine ⟨_, exec_rebuildRow_loses hheld hsp hr hready hc hlost hvoid hhave hgone, rfl, ?_, ?_⟩
      · exact congrArg (fun z : Option Span => (z.bind (·.rebuild)).map (·.row)) hafter
      · exact congrArg (Option.map (·.loss)) hafter
    · exact ⟨_, exec_rebuildRow_begins hheld hsp hr hready hc hlost hvoid hhave hgone henough hmade, rfl, by simp [hspan, hr]⟩
  · intro e
    have he : e = _ := rebuildWrite_takes h slot sp r x got bs hfree hmay
    have hfilled (pay : List Byte) := (Dev.spanAt_of_spn (d.rebuildFilled_spn h pay) slot).trans hsp
    obtain ⟨mark, a, c, hafter⟩ := Dev.rebuildStaged_spanAt (id := sp.desc.id) (b := (d.allocate 4 5 5).2) (hfilled _) hr
    rw [he]
    refine ⟨⟨(d.allocate 4 5 5).2, ?_⟩, congrArg (fun z : Option Span => (z.bind (·.rebuild)).map fun q => (q.row, q.next)) hafter⟩
    rw [Dev.rebuildStaged_staged (by rwa [Dev.rebuildFilled_wr]), Dev.wrAt, Dev.rebuildFilled_wr]; rfl
  · have hactive := Dev.shapeActivated_spanAt hsp sp.nextToOpen
    refine ⟨_, _, _, exec_shapeActive hheld hsp hphase hvols, rfl, rfl, hactive, rfl, ?_⟩
    rw [Dev.spanAt_journal, hactive]; rfl
  · rcases hsrcs : s.dev.patrolSrcs s.hbm slot sp.patrol (sp.descOf sp.patrol).width with ⟨d, srcs⟩
    have hexec := exec_patrolRow hheld hsp hon hlate hsrcs
    refine ⟨fun hover => hexec.trans (by rw [if_pos hover]; rfl), fun hrow hlost hvoid => ?_⟩
    rw [if_neg (by simp [hrow, hlost, hvoid])] at hexec
    refine ⟨fun hawaits => ?_, fun hread hholds => ?_, fun hread hholds => ?_⟩
    · rw [hexec, if_pos hawaits]
    · rw [hexec, if_neg (by simp [hread]), if_pos hholds]
    · rw [hexec, if_neg (by simp [hread]), if_neg (by simp [hholds])]
  · refine ⟨d.patrolJudge_loses slot n sp got, fun hbad hdp hdq => ?_, fun a hbad hfirst => ?_, d.patrolJudge_undecodable slot n sp got⟩
    · rw [d.patrolJudge_decoded slot n sp got hbad, show (sp.descOf n).diffP got = none from hdp, show (sp.descOf n).diffQ got = none from hdq]
      rfl
    · rw [d.patrolJudge_decoded slot n sp got hbad]
      exact congrArg (fun z : Option Nat => z.elim d _) hfirst
  · rw [Dev.journal_of_spanAt hx]
    exact ⟨rfl, rfl, x.journalBytes_fields kind d.commitTick⟩

end Sys2Proof.Machine
end

section
/-! SUPPORT. Which commands stop the machine (R329), and which leave buffer memory as it was: those of the admin ring and the resync run over
memory and device, but change the device alone. -/

namespace Sys2Proof.Machine

/-- Settles O3: only the two rows that name a word of memory can do anything but answer a next state, and they do where the word does
not exist. -/
theorem onlyBadAddressStops : Obligations.OnlyBadAddressStops := by
  intro c s
  refine ⟨fun hc => ?_, fun w hw => if_pos hw, fun w bs hw => if_pos hw⟩
  cases c
  case mashWriteOut w | payloadWordRefetch w _ => exact ⟨_, if_neg (by simpa [Instr.outOfMemory] using hc)⟩
  all_goals exact ⟨_, rfl⟩

theorem adminTake_fst (hd : Hbm × Dev) (i : Instr) (op : Nat) (x : List Byte) {act : Hbm × Dev → Hbm × Dev}
    (hact : ∀ hd, (act hd).1 = hd.1) : (adminTake hd i op x act).1 = hd.1 := by
  unfold adminTake
  dsimp only
  repeat' split
  case isFalse.isFalse.isFalse.isFalse.isFalse => exact hact _
  all_goals rfl

/-- A command over memory and device that leaves memory as it was. -/
theorem withHd_unheld_hbm {s : State} {hd : Hbm × Dev} (hhbm : hd.1 = s.hbm) :
    (s.withHd (if s.dev.coreHeld then s.hd else hd)).hbm = s.hbm := by
  rw [withHd_hbm]
  split
  · rfl
  · exact hhbm

theorem execPairResync_hbm {s t : State} (h : execPairResync s = .next t) : t.hbm = s.hbm := by
  obtain rfl := Host.Outcome.next.inj h
  refine withHd_unheld_hbm ?_
  dsimp only
  split <;> rfl

/-- Of the commands that do not write memory those of the admin ring and the resync run over memory and device, the others over the
device alone. -/
theorem exec_hbm {c : Instr} {s t : State} (hc : mayWriteMemory c = false) (h : exec c s = .next t) : t.hbm = s.hbm := by
  cases c
  case createConn | destroyConn | bindRing | setTenant | fill | cellarRead | spanLoad | spanMap | spanListLoss | spanListSuspect
      | spanListRowMap | spanUnload | rebuild | shapeChangeStart | shapeChangeCancel | initCartridge | mount | dismount | fwStage
      | fwActivate =>
    obtain rfl := Host.Outcome.next.inj h
    exact withHd_unheld_hbm (adminTake_fst _ _ _ _ fun _ => rfl)
  case pairResync => exact execPairResync_hbm h
  case tickBoundary | powerUp | openSession | closeSession | writeRecords | writeMark | sync | readRecords | locateHint | querySession
      | querySlots | abort | pushData | rdmaWrite | rdmaWriteWithImmediate | pushDataDmaComplete | capsuleOpcodeInvalid
      | commandAdmission | chunkFill | chunkSeal | chunkRefetch | payloadWordRefetch | rebuildRow | mashWriteOut | fwActivated
      | fwActFail => cases hc
  all_goals
    obtain rfl := Host.Outcome.next.inj h
    rfl

/-- Settles O36: no command but those of `mayWriteMemory` replaces buffer memory. -/
theorem otherCommandsLeaveMemory : Obligations.OtherCommandsLeaveMemory := by
  intro c s t hc h
  have hhbm := exec_hbm hc h
  exact ⟨hhbm, fun a => by rw [hhbm], fun k => by rw [hhbm], fun p => by rw [hhbm]⟩

end Sys2Proof.Machine
end

section
/-! SUPPORT. Buffer memory stays canonical on the data path (R329, R333): sessions and capsules, the windows of write commands, chunks from the
first piece to the seal. -/

namespace Sys2Proof.Machine

/-! ### Folds and words -/

/-- A fold that carries a result beside memory and device keeps memory canonical when each step does. -/
theorem Keeps.foldl_fst {α β : Type} {f : (Hbm × Dev) × β → α → (Hbm × Dev) × β} (hf : ∀ b a, Keeps fun hd => (f (hd, b) a).1)
    (l : List α) (b : β) : Keeps fun hd => (l.foldl f (hd, b)).1 := by
  induction l generalizing b with
  | nil => exact fun _ h => h
  | cons a l ih => exact fun hd h => ih (f (hd, b) a).2 (f (hd, b) a).1 (hf b a hd h)

theorem keeps_memPutWords (ps : List Bool) (a : Nat) (bs : List Byte) : Keeps fun hd => memPutWords ps hd a bs := by
  induction ps generalizing a bs with
  | nil => exact keeps_memWrite a bs false
  | cons p ps ih => exact Keeps.comp (ih _ _) (keeps_memWrite a (bs.take 32) p)

theorem keeps_bufPutWords (b : BitVec 32) (w : Words) : Keeps fun hd => bufPutWords hd b w :=
  fun hd h => keeps_memPutWords w.poison _ w.bytes hd h

/-! ### Sessions and capsules -/

theorem keeps_useContext (n : Nat) : Keeps fun hd => useContext hd n := by
  intro hd h
  unfold useContext
  dsimp only
  repeat' split
  case h_2.isFalse.isFalse.isTrue => exact keeps_memWrite _ _ _ (hd.1, _) h
  all_goals exact h

theorem keeps_writeContext (n : Nat) (s : Session) : Keeps fun hd => writeContext hd n s :=
  fun hd h => keeps_memWrite _ _ _ (hd.1, _) h

theorem keeps_contextTick : Keeps contextTick := fun hd h =>
  Keeps.foldl (f := fun hd (x : Nat × Session) => writeContext hd x.1 x.2) (fun x => keeps_writeContext x.1 x.2) _ hd h

/-- Of the checks of a capsule only the consumption of its session's context writes memory. -/
theorem keeps_takeCapsule (src : Src) (c : List Byte) (op : Nat) (act : Dev → Nat → Nat → Dev) :
    Keeps fun hd => takeCapsule hd src c op act := by
  intro hd h
  have hcontext (p : Prop) [Decidable p] (d : Dev) (n : Nat) : Memory.wf (if p then useContext (hd.1, d) n else (hd.1, d)).1 = true := by
    split
    · exact keeps_useContext n (hd.1, d) h
    · exact h
  show Memory.wf (takeCapsule hd src c op act).1 = true
  unfold takeCapsule
  extract_lets key d served hd₁ taken hd₂ n used
  have hused : Memory.wf used.1 = true := hcontext ..
  split
  · exact h
  · repeat' split
    case h_1 | h_2 => exact hused
    all_goals exact h

theorem keeps_queueCapsule (src : Src) (c : List Byte) (op : Nat) : Keeps fun hd => queueCapsule hd src c op :=
  keeps_takeCapsule src c op _

theorem keeps_rdmaArrive (conn : Nat) (rkey : BitVec 32) (va : BitVec 64) (data : List Byte) (imm : Option (BitVec 32)) :
    Keeps fun hd => rdmaArrive hd conn rkey va data imm := by
  intro hd h
  have hfill (d : Dev) (w : Window) (off : Nat) : Memory.wf (bufWrite (hd.1, d) w.handle off data false).1 = true :=
    keeps_bufWrite w.handle off data false (hd.1, d) h
  unfold rdmaArrive
  dsimp only
  split
  · exact h
  · split
    · split <;> exact h
    · split
      · exact hfill ..
      · split <;> exact hfill ..

theorem keeps_pushArrive (ring : Nat) (gid : BitVec 32) (data : List Byte) (poisoned : Bool) :
    Keeps fun hd => pushArrive hd ring gid data poisoned := by
  intro hd h
  unfold pushArrive
  dsimp only
  split
  · exact h
  · split
    · exact h
    · split
      · exact h
      · exact keeps_bufWrite _ 0 _ poisoned (hd.1, _) h

/-! ### Chunks -/

theorem keeps_appendPiece (cid : Nat) (p : Piece) (data : List Byte) (poison : Bool) : Keeps fun hd => appendPiece hd cid p data poison := by
  intro hd h
  unfold appendPiece
  dsimp only
  split
  · exact h
  · split
    · exact keeps_bufWrite _ _ _ poison hd h
    · exact h

/-- A piece that finds a place leaves memory canonical. -/
theorem placePiece_wf {hd r : Hbm × Dev} {n id need : Nat} {p : Piece} {data : List Byte} {poison : Bool}
    (hr : placePiece hd n id p need data poison = some r) (h : Memory.wf hd.1 = true) : Memory.wf r.1 = true := by
  unfold placePiece at hr
  dsimp only at hr
  split at hr
  · obtain ⟨x, -, rfl⟩ := Option.map_eq_some_iff.1 hr
    exact keeps_appendPiece _ _ data poison (hd.1, _) h
  · iterate 2
      split at hr
      · cases hr
    split at hr
    · obtain rfl := Option.some.inj hr
      exact keeps_appendPiece _ _ data poison hd h
    · cases hr

theorem keeps_fillStep (n : Nat) : Keeps fun hd => (fillStep hd n).1 := by
  intro hd h
  unfold fillStep
  dsimp only
  iterate 3
    split
    · exact h
  split
  · split
    · exact h
    · split
      · split
        next hplace =>
          have hplaced := placePiece_wf hplace h
          exact hplaced
        · exact h
      · exact h
  · split
    · exact h
    · split
      · split <;> exact h
      next hplace =>
        have hplaced := placePiece_wf hplace h
        exact hplaced

theorem keeps_fillGo (n fuel : Nat) : Keeps (fillGo n fuel) := by
  induction fuel with
  | zero => exact fun _ h => h
  | succ fuel ih =>
    intro hd h
    unfold fillGo
    dsimp only
    split
    · exact ih _ (keeps_fillStep n hd h)
    · exact keeps_fillStep n hd h

theorem keeps_writeStored (c : Chunk) (bs : List Byte) : Keeps fun hd => writeStored hd c bs := by
  intro hd h
  unfold writeStored
  dsimp only
  split
  · exact h
  · exact Keeps.foldl_fst (fun bs o => keeps_bufWrite o 0 (bs.take (poolSize (hPool o))) false) _ _ _ (keeps_bufWrite _ 32 _ false hd h)

theorem keeps_finishWrite (i id : Nat) (out : List Byte) : Keeps fun hd => finishWrite hd i id out := by
  intro hd h
  unfold finishWrite
  dsimp only
  split
  · exact h
  · exact keeps_writeStored _ out hd h

theorem keeps_writeQuantum (i : Nat) (r : DruRun) (bi bo : Nat) : Keeps fun hd => (writeQuantum hd i r bi bo).1 := by
  intro hd h
  show Memory.wf (writeQuantum hd i r bi bo).1.1 = true
  unfold writeQuantum
  split
  split
  · exact h
  · extract_lets
    split
    split
    · exact h
    · extract_lets
      split
      split
      · exact h
      · split
        · exact keeps_finishWrite i _ _ (_, _) h
        · exact h

theorem keeps_druRunGo (i fuel bi bo : Nat) : Keeps (druRunGo i fuel bi bo) := by
  induction fuel generalizing bi bo with
  | zero => exact fun _ h => h
  | succ fuel ih =>
    intro hd h
    unfold druRunGo
    dsimp only
    split
    · exact h
    · split
      · have hrun (r : DruRun) : Memory.wf (if r.job.rd then ((hd.1, (hd.2.readQuantum i r bi bo).1), (hd.2.readQuantum i r bi bo).2)
            else writeQuantum hd i r bi bo).1.1 = true := by
          split
          · exact h
          · exact keeps_writeQuantum i r bi bo hd h
        split
        · exact hrun _
        · exact ih _ _ _ (hrun _)
      · split
        · exact h
        · split
          · exact ih bi bo (hd.1, _) h
          · exact h

theorem keeps_cipWriteDone (id : Nat) : Keeps fun hd => cipWriteDone hd id := by
  intro hd h
  unfold cipWriteDone
  dsimp only
  repeat' split
  all_goals exact h

theorem keeps_cipWork (i : Nat) (j : Job) (n budget : Nat) : Keeps fun hd => (cipWork i j n budget hd).1 := by
  intro hd h
  unfold cipWork
  dsimp only
  split
  · exact h
  · split
    · split <;> exact h
    · have hdone := keeps_cipWriteDone j.id (hd.1, hd.2.modUnit i {}) h
      split <;> exact hdone

theorem keeps_cipContinue (units : List Nat) : Keeps fun hd => (cipContinue units hd).1 := by
  refine Keeps.foldl_fst (fun left i hd h => ?_) units []
  dsimp only
  split
  · exact h
  · exact keeps_cipWork _ _ _ _ hd h

theorem keeps_cipStart (fuel : Nat) (left : List (Nat × Nat)) : Keeps (cipStart fuel left) := by
  induction fuel generalizing left with
  | zero => exact fun _ h => h
  | succ fuel ih =>
    intro hd h
    unfold cipStart
    dsimp only
    split
    · exact h
    · split
      · exact h
      · exact ih _ _ (keeps_cipWork _ _ _ _ (hd.1, _) h)

theorem keeps_cipTick : Keeps cipTick := by
  intro hd h
  rw [cipTick]
  exact keeps_cipStart _ _ _ (keeps_cipContinue _ hd h)

theorem keeps_sealHeader (id : Nat) (c : Chunk) (b : BitVec 32) : Keeps fun hd => sealHeader hd id c b := by
  intro hd h
  unfold sealHeader
  exact keeps_bufWrite b 0 c.header false hd h

theorem keeps_sealChunk (id : Nat) (c : Chunk) : Keeps fun hd => sealChunk hd id c := by
  intro hd h
  unfold sealChunk
  dsimp only
  split
  · exact h
  · split
    · split
      · split
        · exact h
        · exact keeps_sealHeader _ _ _ _ (keeps_writeStored _ _ (hd.1, _) h)
      · exact h
    · exact keeps_sealHeader _ _ _ hd h

theorem keeps_refetchChunk (id : Nat) (c : Chunk) (bs : List Byte) : Keeps fun hd => refetchChunk hd id c bs := by
  intro hd h
  unfold refetchChunk
  dsimp only
  split
  · exact h
  · exact keeps_bufWrite _ 0 bs false (hd.1, _) h

theorem keeps_refetchPlaced (id : Nat) (c : Chunk) (bs : List Byte) : Keeps fun hd => refetchPlaced hd id c bs := by
  intro hd h
  have hput (out : List Byte) : Memory.wf (match c.stored with
      | some b => bufWrite (writeStored hd c out) b 0 c.header false
      | none => writeStored hd c out).1 = true := by
    split
    · exact keeps_bufWrite _ 0 _ false _ (keeps_writeStored c out hd h)
    · exact keeps_writeStored c out hd h
  unfold refetchPlaced
  dsimp only
  split
  · split
    · exact hput _
    · exact h
  · exact hput _

end Sys2Proof.Machine
end

section
/-! SUPPORT. Buffer memory stays canonical on the way to and from tape: rows and their parity, the encoder, the detector's sample rings. -/

namespace Sys2Proof.Machine

/-! ### Rows, parity and the write path -/

theorem keeps_assembleRow (slot n fuel budget : Nat) : Keeps fun hd => (assembleRow hd slot n fuel budget).1 := by
  induction fuel generalizing budget with
  | zero => exact fun _ h => h
  | succ fuel ih =>
    intro hd h
    unfold assembleRow
    dsimp only
    iterate 5
      split
      · exact h
    exact ih _ (_, _) (keeps_bufWrite _ _ _ false (hd.1, _) h)

theorem keeps_assembleTick : Keeps assembleTick := fun hd h =>
  Keeps.foldl_fst (f := fun acc (x : Nat × Nat) => assembleRow acc.1 x.1 x.2 4 acc.2) (fun budget x => keeps_assembleRow x.1 x.2 4 budget) _ _ hd h

theorem keeps_payloadLost (w : Nat) : Keeps fun hd => payloadLost hd w := by
  intro hd h
  unfold payloadLost
  dsimp only
  split
  · exact h
  · dsimp only
    exact keeps_memPut w (zeros 32) false hd h

theorem keeps_payloadPoison (words : List Nat) : Keeps fun hd => (payloadPoison hd words).1 := by
  intro hd h
  unfold payloadPoison
  dsimp only
  repeat' split
  case isFalse.isFalse => exact Keeps.foldl keeps_payloadLost words hd h
  all_goals exact h

theorem keeps_parityRow (s : Span) (n : Nat) (r : Row) (t : Nat) : Keeps fun hd => parityRow hd s n r t := by
  intro hd h
  show Memory.wf (parityRow hd s n r t).1 = true
  unfold parityRow
  extract_lets
  split
  refine Keeps.foldl (fun j hd h => ?_) _ (_, _) h
  dsimp only
  split
  · exact keeps_bufWrite _ _ _ false hd h
  · exact h

theorem keeps_parityGo (s : Span) (n : Nat) (r : Row) (m t : Nat) : Keeps fun hd => (parityGo s n r m hd t).1 := by
  induction m generalizing t with
  | zero => exact fun _ h => h
  | succ m ih =>
    intro hd h
    unfold parityGo
    dsimp only
    split
    · exact ih _ _ (keeps_parityRow s n r t _ (keeps_payloadPoison _ hd h))
    · exact keeps_payloadPoison _ hd h

theorem keeps_parityTick (slot : Nat) : Keeps fun hd => (parityTick hd slot).1 := by
  intro hd h
  unfold parityTick
  dsimp only
  split
  · exact h
  · split
    · exact h
    · exact keeps_parityGo _ _ _ _ _ hd h

theorem keeps_queStoreAll : Keeps queStoreAll := fun hd h =>
  Keeps.foldl (f := fun hd (x : Nat × List Byte) => memWrite hd x.1 x.2 false) (fun x => keeps_memWrite x.1 x.2 false) _ (hd.1, _) h

theorem keeps_c2Pass (t : Nat) : Keeps fun hd => c2Pass hd t := by
  intro hd h
  unfold c2Pass
  dsimp only
  split <;> exact h

theorem keeps_encodePoison (t : Nat) (p : Position) : Keeps fun hd => (encodePoison hd t p).1 := fun hd h => keeps_payloadPoison _ hd h

theorem keeps_encodeGo (t n budget : Nat) : Keeps (encodeGo t n budget) := by
  induction n generalizing budget with
  | zero => exact fun _ h => h
  | succ n ih =>
    intro hd h
    have hencode (d : Dev) (p : Position) : Memory.wf (encodePoison (hd.1, d) t p).1.1 = true := keeps_encodePoison t p (hd.1, d) h
    unfold encodeGo
    extract_lets d
    split
    · exact h
    split
    · iterate 2
        split
        · exact h
      exact ih _ (_, _) h
    · split
      · exact h
      extract_lets d'
      iterate 4
        split
        · exact h
      split
      next hpoison =>
        have hleft := hpoison ▸ hencode d' _
        split
        · exact ih _ (_, _) hleft
        · exact hleft

theorem keeps_encodeTick (t : Nat) : Keeps fun hd => encodeTick hd t := keeps_encodeGo t 6 encodeMax

/-! ### The read path -/

theorem keeps_ringStore (t : Nat) (x : UpIn) : Keeps fun hd => ringStore hd t x := by
  intro hd h
  unfold ringStore
  dsimp only
  split
  · exact h
  · exact keeps_bufWrite _ 0 _ false _ (keeps_bufWrite _ _ _ false hd h)

theorem keeps_detectOne (t : Nat) (x : UpIn) : Keeps fun hd => detectOne hd t x := by
  intro hd h
  have hlatched (key : Option (Nat × Nat)) (p : Prop) [Decidable p] :
      Memory.wf (if p then (hd.1, hd.2.latchProfile t key) else hd).1 = true := by
    split <;> exact h
  show Memory.wf (detectOne hd t x).1 = true
  unfold detectOne
  extract_lets reading key latched
  have hring : Memory.wf (if reading then ringStore latched t x else latched).1 = true := by
    split
    · exact keeps_ringStore t x latched (hlatched ..)
    · exact hlatched ..
  split
  next hstored =>
    rw [hstored] at hring
    extract_lets
    split <;> exact hring

theorem keeps_detectTick (plan : List Nat) (t : Nat) : Keeps fun hd => detectTick hd plan t := by
  intro hd h
  unfold detectTick
  dsimp only
  split
  · exact h
  · exact Keeps.foldl (keeps_detectOne t) _ (hd.1, _) h

end Sys2Proof.Machine
end

section
/-! SUPPORT. Buffer memory stays canonical under admission and the control cores, under rebuilding, a takeover by the pair and a reset. -/

namespace Sys2Proof.Machine

/-! ### Admission and admin descriptors -/

theorem openSession_fst (hd : Hbm × Dev) (id : Nat) (k : Cmd) : (openSession hd id k).1 = hd.1 := by
  unfold openSession
  dsimp only
  repeat' split
  all_goals rfl

theorem actOpen_fst (hd : Hbm × Dev) (id : Nat) (k : Cmd) : (actOpen hd id k).1 = hd.1 := by
  unfold actOpen
  dsimp only
  split
  · rfl
  split
  · split
    · rfl
    · exact openSession_fst hd id k
  iterate 4
    split
    · rfl
  exact openSession_fst hd id k

theorem actAdmitted_fst (hd : Hbm × Dev) (id : Nat) (k : Cmd) : (actAdmitted hd id k).1 = hd.1 := by
  unfold actAdmitted
  dsimp only
  split
  · exact actOpen_fst hd id k
  · repeat' split
    all_goals rfl

theorem adminRun_fst (i : Instr) (hd : Hbm × Dev) : (adminRun i hd).1 = hd.1 := by
  unfold adminRun
  split
  split <;> rfl

theorem resumeHeld_fst (n : Nat) (hd : Hbm × Dev) : (resumeHeld n hd).1 = hd.1 := by
  induction n generalizing hd with
  | zero => rfl
  | succ n ih =>
    unfold resumeHeld
    split
    · rfl
    · split
      · rfl
      · exact (ih _).trans (adminRun_fst _ (hd.1, _))

theorem activationEnd_fst (hd : Hbm × Dev) : (activationEnd hd).1 = hd.1 := resumeHeld_fst _ (hd.1, _)

/-- A function that leaves memory as it was keeps it canonical. -/
theorem keeps_actWaiting : Keeps actWaiting := by
  refine fun hd h => Keeps.foldl (fun x hd h => ?_) _ hd h
  dsimp only
  split
  · split
    · exact h
    · rwa [actAdmitted_fst]
  · exact h

theorem keeps_fillTick : Keeps fillTick := by
  intro hd h
  unfold fillTick
  split
  · exact h
  · split
    · exact h
    · exact Hbm.fill_wf _ _ _ _ h

/-! ### Rebuilding and the pair -/

theorem keeps_putIdent (r : Row) (k i : Nat) (ident : List Byte) : Keeps fun hd => putIdent hd r k i ident := by
  intro hd h
  unfold putIdent
  dsimp only
  split
  · exact keeps_bufWrite _ 0 _ false hd h
  · exact h

theorem keeps_rebuildWrite (slot : Nat) (s : Span) (r : Rebuild) (x : Desc) (got : List (Nat × List Byte)) (bs : List Byte) :
    Keeps fun hd => rebuildWrite hd slot s r x got bs := by
  intro hd h
  unfold rebuildWrite
  dsimp only
  split
  · exact h
  · dsimp only
    exact keeps_bufWrite _ 0 _ false (hd.1, _) h

theorem keeps_joinMember (slot : Nat) (s : Span) (r : Rebuild) : Keeps fun hd => joinMember hd slot s r := by
  intro hd h
  refine Keeps.foldl (fun x hd h => ?_) _ (hd.1, _) h
  exact keeps_putIdent _ _ _ _ hd h

theorem keeps_takeWindow (p : Partner) (id : Nat) (w : Window) : Keeps fun hd => (takeWindow p id hd w).1 := by
  intro hd h
  unfold takeWindow
  dsimp only
  split
  · exact keeps_bufPutWords _ _ (hd.1, _) h
  · exact h

theorem keeps_takeCmd (p : Partner) (m : TakeMap) (id : Nat) (k : Cmd) : Keeps fun hd => takeCmd p m hd id k :=
  fun hd h => Keeps.foldl_fst (f := fun (acc : (Hbm × Dev) × List Window) w =>
    ((takeWindow p id acc.1 w).1, acc.2 ++ [(takeWindow p id acc.1 w).2])) (fun _ w => keeps_takeWindow p id w) _ _ hd h

theorem keeps_takeSession (m : TakeMap) (n : Nat) (s : Session) : Keeps fun hd => takeSession m hd n s := fun _ h => h

theorem keeps_takeChunk (p : Partner) (m : TakeMap) (id : Nat) (c : Chunk) (stream : Words) :
    Keeps fun hd => takeChunk p m hd id c stream := by
  intro hd h
  unfold takeChunk
  dsimp only
  iterate 3
    split
    · exact h
  exact keeps_bufPutWords _ stream (_, _) h

theorem keeps_rewriteRow (p : Partner) (m : TakeMap) (old slot n : Nat) : Keeps fun hd => rewriteRow p m old slot hd n := by
  intro hd h
  unfold rewriteRow
  dsimp only
  iterate 2
    split
    · exact h
  refine Keeps.foldl (fun i hd h => ?_) _ (_, _) h
  exact keeps_bufPutWords _ _ (hd.1, _) h

theorem keeps_takeSpan (p : Partner) (m : TakeMap) (old : Nat) (s : Span) : Keeps fun hd => takeSpan p m hd old s := by
  intro hd h
  unfold takeSpan
  dsimp only
  split
  · exact h
  · exact Keeps.foldl (keeps_rewriteRow p m old _) _ (hd.1, _) h

theorem keeps_pairClaim (k : Takeover) : Keeps fun hd => pairClaim hd k := by
  intro hd h
  unfold pairClaim
  dsimp only
  refine Keeps.foldl (fun r hd h => ?_) _ _ ?_
  · dsimp only
    split
    · exact keeps_takeChunk _ _ _ _ _ hd h
    · exact h
  refine Keeps.foldl ?_ _ _ ?_
  · exact fun x => keeps_takeCmd _ _ x.1 x.2
  refine Keeps.foldl (fun r hd h => ?_) _ _ ?_
  · dsimp only
    split
    case h_2 => exact keeps_takeSession _ _ _ hd h
    all_goals exact h
  refine Keeps.foldl ?_ _ (hd.1, _) h
  exact fun x => keeps_takeSpan _ _ x.1 x.2

theorem keeps_pairTick : Keeps pairTick := by
  intro hd h
  have hclaimed : Memory.wf (match hd.2.pair.takeover with
    | some k => if ! k.claimed then pairClaim hd k else hd
    | none => hd).1 = true := by
    split
    · split
      · exact keeps_pairClaim _ hd h
      · exact h
    · exact h
  exact hclaimed

/-! ### Resets -/

theorem keeps_resetTake : Keeps resetTake := by
  intro hd h
  unfold resetTake
  dsimp only
  split
  · exact h
  · split
    · exact h
    · split
      · exact h
      · split
        · exact Hbm.empty_wf
        · exact h

theorem keeps_resetGo : Keeps resetGo := by
  intro hd h
  unfold resetGo
  dsimp only
  split
  · split
    · exact keeps_mashFlushAll hd h
    · split <;> exact h
  · exact h

theorem keeps_resetBoundary : Keeps resetBoundary := fun hd h => keeps_resetGo _ (keeps_resetTake hd h)

end Sys2Proof.Machine
end

section
/-! SUPPORT. Buffer memory stays canonical over a boundary (R10), and so over every command: the steps of a tick in their order, then the rows
of `mayWriteMemory`. -/

namespace Sys2Proof.Machine

/-! ### The scrubber -/

theorem keeps_scrubWord (w : Nat) : Keeps fun hd => scrubWord hd w := by
  intro hd h
  unfold scrubWord
  dsimp only
  split
  · exact h
  · split
    case h_1 | h_2 => exact Hbm.putWord_wf w _ _ h
    all_goals exact h

theorem keeps_scrubGo (n : Nat) : Keeps (scrubGo n) := by
  induction n with
  | zero => exact fun _ h => h
  | succ n ih =>
    intro hd h
    unfold scrubGo
    dsimp only
    split
    · exact ih (_, _) (keeps_scrubWord _ hd h)
    · exact ih (_, _) (keeps_scrubWord _ (hd.1, _) h)
    · exact h

theorem keeps_scrubTick : Keeps scrubTick := by
  intro hd h
  unfold scrubTick
  split
  · exact keeps_scrubGo _ hd h
  · exact h

/-! ### The steps of a tick -/

theorem keeps_givePeer (src t row : Nat) (b : BitVec 32) : Keeps fun hd => givePeer hd src t row b := by
  intro hd h
  unfold givePeer
  dsimp only
  split
  · exact h
  · exact keeps_bufPutWords b _ hd h

theorem keeps_give (x : PoolUse × BitVec 32) : Keeps fun hd => give hd x := by
  intro hd h
  unfold give
  dsimp only
  split
  case h_8 => exact keeps_givePeer _ _ _ _ hd h
  case h_1 => split <;> exact h
  all_goals exact h

theorem keeps_poolTick : Keeps poolTick := by
  intro hd h
  unfold poolTick
  dsimp only
  split
  · exact h
  · exact Keeps.foldl keeps_give _ (hd.1, _) h

theorem Keeps.onDev (g : Dev → Dev) : Keeps (onDev g) := fun _ h => h

theorem Keeps.ite {f g : Hbm × Dev → Hbm × Dev} {p : Hbm × Dev → Prop} [∀ hd, Decidable (p hd)] (hf : Keeps f) (hg : Keeps g) :
    Keeps fun hd => if p hd then f hd else g hd := by
  intro hd h
  dsimp only
  split
  · exact hf hd h
  · exact hg hd h

theorem Keeps.stepOf {f : Hbm × Dev → Hbm × Dev} (block inst step : Nat) (hf : Keeps f) : Keeps (stepOf block inst step f) :=
  Keeps.ite (fun _ h => h) hf

theorem Keeps.each {f : Nat → Hbm × Dev → Hbm × Dev} (hf : ∀ i, Keeps (f i)) (l : List Nat) : Keeps (each l f) := Keeps.foldl hf l

theorem keeps_spanTick (slot : Nat) : Keeps (spanTick slot) := fun hd h => keeps_parityTick slot hd h

@[simp] theorem onDev_fst (g : Dev → Dev) (hd : Hbm × Dev) : (onDev g hd).1 = hd.1 := rfl

theorem keeps_frontTick : Keeps frontTick := by
  intro hd h
  have hrte := Keeps.stepOf blkRte 0 0 (Keeps.comp (Keeps.onDev Dev.abortTick) (Keeps.comp keeps_actWaiting (Keeps.onDev Dev.drainDue))) hd h
  rw [frontTick, onDev_fst]
  exact keeps_poolTick _ hrte

theorem keeps_drupelet (i : Nat) : Keeps fun hd => if hd.2.stallsAny blkDru i then hd else druRunGo i 20 quantum quantum hd :=
  Keeps.ite (fun _ h => h) (keeps_druRunGo i 20 quantum quantum)

theorem keeps_chunkTick : Keeps chunkTick := by
  intro hd h
  rw [chunkTick, onDev_fst, onDev_fst]
  exact Keeps.each keeps_drupelet _ _ (keeps_cipTick hd h)

theorem keeps_writeTick (t : Nat) : Keeps (writeTick t) := by
  intro hd h
  rw [writeTick]
  exact Keeps.stepOf blkEnc 0 2 (keeps_c2Pass t) _ (Keeps.stepOf blkEnc 0 1 (keeps_encodeTick t) (hd.1, _) h)

theorem keeps_decodeTick : Keeps decodeTick := by
  intro hd h
  rw [decodeTick]
  exact Keeps.stepOf blkDec 0 2 (Keeps.onDev _) _ (Keeps.stepOf blkDec 0 1 (Keeps.onDev _) hd h)

theorem keeps_moveTick (t : Nat) : Keeps (moveTick t) := by
  intro hd h
  rw [moveTick, onDev_fst]
  refine Keeps.stepOf blkMot t 1 (Keeps.onDev _) _ ?_
  rw [onDev_fst]
  exact h

theorem keeps_backTick : Keeps backTick := by
  intro hd h
  rw [backTick]
  refine Keeps.stepOf blkMem 0 2 (Keeps.stepOf blkMem 1 2 keeps_mashFlushFull) _ ?_
  rw [onDev_fst]
  refine keeps_pairTick _ ?_
  rw [onDev_fst]
  refine Keeps.stepOf blkMem 0 1 (Keeps.stepOf blkMem 1 1 keeps_scrubTick) _ ?_
  refine Keeps.stepOf blkMem 0 3 (Keeps.stepOf blkMem 1 3 keeps_fillTick) _ ?_
  exact Keeps.stepOf blkCtl 0 0 (Keeps.onDev _) _ h

theorem keeps_coreTick : Keeps coreTick := by
  intro hd h
  rw [coreTick]
  refine keeps_queStoreAll _ (keeps_contextTick _ ?_)
  rw [onDev_fst]
  refine keeps_backTick _ (Keeps.each keeps_moveTick tps _ ?_)
  refine Keeps.each (fun t => Keeps.stepOf blkRdc 0 1 (keeps_detectTick _ t)) tps _ (keeps_decodeTick _ ?_)
  refine Keeps.stepOf blkPkr 0 2 keeps_assembleTick _ ?_
  refine Keeps.each (fun s => Keeps.stepOf blkSpn 0 1 (keeps_spanTick s)) _ _ (Keeps.each keeps_writeTick tps _ ?_)
  exact keeps_chunkTick _ (keeps_frontTick hd h)

theorem keeps_boundary (i : TickIn) : Keeps (boundary i) := by
  have hcore : Keeps fun hd => if hd.2.coreHeld then hd else coreTick hd := Keeps.ite (fun _ h => h) keeps_coreTick
  intro hd h
  rw [boundary, showRegs, onDev_fst, onDev_fst]
  refine keeps_resetBoundary _ ?_
  rw [onDev_fst]
  exact hcore hd h

/-! ### Commands -/

section Commands
variable {s t : State} (hw : Memory.wf s.hbm = true)
include hw

theorem execTickBoundary_canonical {i : TickIn} (h : execTickBoundary i s = .next t) : Memory.wf t.hbm = true := by
  obtain rfl := Host.Outcome.next.inj h
  split
  · rw [withHd_hbm]
    exact keeps_boundary i s.hd hw
  · exact hw

theorem execPowerUp_canonical {strap : BitVec 2} (h : execPowerUp strap s = .next t) : Memory.wf t.hbm = true := by
  obtain rfl := Host.Outcome.next.inj h
  split
  · exact hw
  · exact Hbm.empty_wf

theorem execCapsuleOpcodeInvalid_canonical {src : Src} {cap : List Byte} (h : execCapsuleOpcodeInvalid src cap s = .next t) :
    Memory.wf t.hbm = true := by
  refine nextHd_canonical (fun hd hw => ?_) h hw
  split
  · rwa [adminTake_fst (act := id) hd _ _ _ fun _ => rfl]
  · exact keeps_takeCapsule _ _ _ _ hd hw

theorem execCommandAdmission_canonical {src : Src} {tag : BitVec 16} (h : execCommandAdmission src tag s = .next t) :
    Memory.wf t.hbm = true := by
  refine nextHd_canonical (fun hd hw => ?_) h hw
  dsimp only
  split
  · exact hw
  split
  · rwa [actAdmitted_fst]
  iterate 3
    split
    · exact hw
  rwa [actAdmitted_fst]

theorem execChunkFill_canonical {n : Nat} (h : execChunkFill n s = .next t) : Memory.wf t.hbm = true := by
  refine nextHd_canonical (fun hd hw => ?_) h hw
  split
  · exact hw
  · exact keeps_fillGo _ _ hd hw

theorem execChunkSeal_canonical {id : Nat} (h : execChunkSeal id s = .next t) : Memory.wf t.hbm = true := by
  refine nextHd_canonical (fun hd hw => ?_) h hw
  split
  · split
    · exact keeps_sealChunk _ _ hd hw
    · exact hw
  · exact hw

theorem execChunkRefetch_canonical {id : Nat} {stream : Option (List Byte)} (h : execChunkRefetch id stream s = .next t) :
    Memory.wf t.hbm = true := by
  refine nextHd_canonical (fun hd hw => ?_) h hw
  split
  · exact hw
  · split
    · exact hw
    · split
      · split
        · exact keeps_refetchChunk _ _ _ hd hw
        · exact hw
      · split
        · split
          · exact keeps_refetchPlaced _ _ _ hd hw
          · exact hw
        · exact hw

theorem execPayloadWordRefetch_canonical {w : Nat} {bs : Option (List Byte)} (h : execPayloadWordRefetch w bs s = .next t) :
    Memory.wf t.hbm = true := by
  unfold execPayloadWordRefetch at h
  split at h
  · cases h
  · refine nextHd_canonical (fun hd hw => ?_) h hw
    split
    · split
      · exact keeps_memPut _ _ _ hd hw
      · exact keeps_payloadLost _ hd hw
    · exact hw

theorem execMashWriteOut_canonical {w : Nat} (h : execMashWriteOut w s = .next t) : Memory.wf t.hbm = true := by
  unfold execMashWriteOut at h
  split at h
  · cases h
  · refine nextHd_canonical (fun hd hw => ?_) h hw
    split
    · split
      · exact keeps_mashOut _ hd hw
      · exact hw
    · exact hw

theorem execRebuildRow_canonical {slot : Nat} (h : execRebuildRow slot s = .next t) : Memory.wf t.hbm = true := by
  refine nextHd_canonical (fun hd hw => ?_) h hw
  dsimp only
  iterate 3
    split
    · exact hw
  split
  · exact keeps_joinMember _ _ _ hd hw
  iterate 7
    split
    · exact hw
  exact keeps_rebuildWrite _ _ _ _ _ _ (hd.1, _) hw

theorem execFwActivated_canonical (h : execFwActivated s = .next t) : Memory.wf t.hbm = true := by
  refine nextHd_canonical (fun hd hw => ?_) h hw
  dsimp only
  split
  · split
    · rwa [activationEnd_fst]
    · exact hw
  · exact hw

theorem execFwActFail_canonical {core : Nat} (h : execFwActFail core s = .next t) : Memory.wf t.hbm = true := by
  refine nextHd_canonical (fun hd hw => ?_) h hw
  dsimp only
  split
  · split
    · rwa [activationEnd_fst]
    · exact hw
  · exact hw

end Commands

theorem exec_canonical {c : Instr} {s t : State} (h : exec c s = .next t) (hw : Memory.wf s.hbm = true) : Memory.wf t.hbm = true := by
  cases hc : mayWriteMemory c
  case false => rwa [exec_hbm hc h]
  cases c
  case tickBoundary => exact execTickBoundary_canonical hw h
  case powerUp => exact execPowerUp_canonical hw h
  case openSession src cap | closeSession src cap | writeRecords src cap | writeMark src cap | sync src cap | readRecords src cap
      | locateHint src cap | querySession src cap | querySlots src cap | abort src cap =>
    exact nextHd_canonical (keeps_queueCapsule src cap _) h hw
  case pushData => exact nextHd_canonical (keeps_takeCapsule _ _ _ _) h hw
  case rdmaWrite => exact nextHd_canonical (keeps_rdmaArrive _ _ _ _ _) h hw
  case rdmaWriteWithImmediate => exact nextHd_canonical (keeps_rdmaArrive _ _ _ _ _) h hw
  case pushDataDmaComplete => exact nextHd_canonical (keeps_pushArrive _ _ _ _) h hw
  case capsuleOpcodeInvalid => exact execCapsuleOpcodeInvalid_canonical hw h
  case commandAdmission => exact execCommandAdmission_canonical hw h
  case chunkFill => exact execChunkFill_canonical hw h
  case chunkSeal => exact execChunkSeal_canonical hw h
  case chunkRefetch => exact execChunkRefetch_canonical hw h
  case payloadWordRefetch => exact execPayloadWordRefetch_canonical hw h
  case rebuildRow => exact execRebuildRow_canonical hw h
  case mashWriteOut => exact execMashWriteOut_canonical hw h
  case fwActivated => exact execFwActivated_canonical hw h
  case fwActFail => exact execFwActFail_canonical hw h
  all_goals cases hc

/-- Settles O5: every write to buffer memory goes through the words' and the fill map's own operations, which keep the canonical form,
and no command reaches memory past them. -/
theorem stepKeepsMemoryCanonical : Obligations.StepKeepsMemoryCanonical := by
  intro s t hs h
  cases hpending : s.pending with
  | nil =>
    obtain rfl := Host.Outcome.next.inj ((step_of_empty hpending).symm.trans h)
    exact hs
  | cons c rest =>
    rw [stepRunsFrontCommand c rest s hpending] at h
    exact exec_canonical h hs

end Sys2Proof.Machine
end

section
/-! SUPPORT. The mash buffer (R342, R343): what the write-out of an entry leaves in its word, in the other words and in the buffer. -/

namespace Sys2Proof.Machine

/-! ### The bytes of a word that is stored -/

theorem Hbm.byte_setBytes_self (h : Hbm) (a : Nat) (bs : List Byte) {i : Nat} (hi : i < bs.length) (hfit : a + bs.length ≤ 32 * hbmWords) :
    (h.setBytes a bs).byte (a + i) = bs.getD i 0#8 := by
  induction bs generalizing h a i with
  | nil => simp at hi
  | cons b bs ih =>
    simp only [List.length_cons] at hi hfit
    rw [Hbm.setBytes]
    cases i with
    | zero =>
      rw [Hbm.byte_setBytes_other _ _ _ (by omega), Nat.add_zero, Hbm.byte_setByte_self h b (by omega)]
      rfl
    | succ i =>
      rw [← Nat.add_assoc, Nat.add_right_comm, ih _ _ (by omega) (by omega)]
      rfl

theorem Hbm.byte_putWord_self (h : Hbm) {w i : Nat} {data : List Byte} (poison : Bool) (hw : w < hbmWords) (hdata : data.length = 32)
    (hi : i < 32) : (h.putWord w data poison).byte (32 * w + i) = data.getD i 0#8 := by
  rw [Hbm.putWord, Hbm.byte_setChecks, List.take_of_length_le (by omega), Hbm.byte_setBytes_self _ _ _ (by omega) (by omega)]

@[simp] theorem mashOver_length (mask : List Bool) (top under : List Byte) : (mashOver mask top under).length = 32 := by simp [mashOver]

theorem mashOver_getD (mask : List Bool) (top under : List Byte) {i : Nat} (hi : i < 32) :
    (mashOver mask top under).getD i 0#8 = if mask.getD i false then top.getD i 0#8 else under.getD i 0#8 := by
  simp [mashOver, List.getD_eq_getElem?_getD, hi]

/-! ### The mash buffer -/

@[simp] theorem Dev.postBoth_mem (d : Dev) (c b i : Nat) (l : List Word64) : (d.postBoth c b i l).mem = d.mem := by
  obtain ⟨_, _, _, _, h⟩ := d.postBoth_frame c b i l
  rw [h]

/-- A read's class and an unfilled write change MEM's record of what it has posted, not the mash buffer. -/
theorem Dev.memClass_mash (d : Dev) (w k : Nat) (c : MemClass) : (d.memClass w k c).mem.mash = d.mem.mash := by
  unfold Dev.memClass
  cases c
  case corrected =>
    simp only [Dev.memCorrected]
    split <;> simp
  case uncorrectable =>
    simp only [Dev.memUncorrectable]
    split <;> simp [Dev.memLastErr]
  case addressFault =>
    simp only [Dev.memAddrFault]
    split <;> simp [Dev.memLastErr]
  all_goals rfl

theorem Dev.memUnfilled_mash (d : Dev) (h : Hbm) (w : Nat) : (d.memUnfilled h w).mem.mash = d.mem.mash := by
  have hbump : (d.bump Fld.memErrCnt1Unfilled).mem.mash = d.mem.mash := congrArg Mem.mash (Dev.bump_mem ..)
  unfold Dev.memUnfilled
  dsimp only
  split
  · rfl
  · split <;> exact hbump

theorem Dev.mashAt_of_mash {d e : Dev} (h : e.mem.mash = d.mem.mash) (v : Nat) : e.mashAt v = d.mashAt v := by
  rw [Dev.mashAt, h, Dev.mashAt]

theorem Dev.mashAt_mashDrop_self (d : Dev) (w : Nat) : (d.mashDrop w).mashAt w = none := by
  rw [Dev.mashAt, Dev.mashDrop, List.find?_filter, List.find?_eq_none]
  simp

theorem Dev.mashAt_mashDrop_other (d : Dev) {w v : Nat} (hv : v ≠ w) : (d.mashDrop w).mashAt v = d.mashAt v := by
  rw [Dev.mashAt, Dev.mashDrop, List.find?_filter, Dev.mashAt]
  refine congrArg (List.find? · d.mem.mash) (funext fun e => ?_)
  by_cases he : e.word = v
  · simp [he, hv]
  · simp [he]

theorem mashOut_mash (hd : Hbm × Dev) (e : MashEntry) : (mashOut hd e).2.mem.mash = (hd.2.mashDrop e.word).mem.mash := by
  simp only [mashOut]
  split
  · exact Dev.memUnfilled_mash ..
  · exact (Dev.memUnfilled_mash ..).trans (Dev.memClass_mash ..)

/-- Writing an entry out stores a word of 32 bytes: the entry's, or the entry's masked bytes over those of memory. -/
theorem mashOut_fst (hd : Hbm × Dev) (e : MashEntry) : ∃ poison, (mashOut hd e).1 = hd.1.putWord e.word
    (if e.mask.all id then e.bytes else mashOver e.mask e.bytes (hd.1.classify e.word).2.1) poison := by
  simp only [mashOut]
  split
  · exact ⟨_, rfl⟩
  · exact ⟨_, rfl⟩

theorem Dev.mashAt_word {d : Dev} {w : Nat} {e : MashEntry} (h : d.mashAt w = some e) : e.word = w := by
  simpa using List.find?_some h

section WriteOut
variable {s : State} {w : Nat} (hheld : s.dev.coreHeld = false) (hw : w < hbmWords)
include hheld hw

theorem exec_mashWriteOut : exec (.mashWriteOut w) s = .next (s.withHd (match s.dev.mashAt w with
      | some e => if e.born + 2 ≤ s.dev.clk ∧ ! s.dev.stalls blkMem (memGroup w % 2) 2 then mashOut (s.hbm, s.dev) e else (s.hbm, s.dev)
      | none => (s.hbm, s.dev))) :=
  (if_neg (Nat.not_le.2 hw)).trans (nextHd_ok s _ hheld)

theorem exec_mashWriteOut_none (hnone : s.dev.mashAt w = none) : exec (.mashWriteOut w) s = .next s := by
  rw [exec_mashWriteOut hheld hw, hnone]; rfl

theorem exec_mashWriteOut_some {e : MashEntry} (he : s.dev.mashAt w = some e) : exec (.mashWriteOut w) s = .next (s.withHd
    (if e.born + 2 ≤ s.dev.clk ∧ ! s.dev.stalls blkMem (memGroup w % 2) 2 then mashOut (s.hbm, s.dev) e else (s.hbm, s.dev))) := by
  rw [exec_mashWriteOut hheld hw, he]

end WriteOut

/-- What an entry leaves in its word: its own bytes where its mask is complete, otherwise its masked bytes over those of memory (R343). -/
theorem mashOut_byte_self {h : Hbm} {d : Dev} {e : MashEntry} {i : Nat} (hw : e.word < hbmWords) (hi : i < 32) :
    (e.mask.all id = true → e.bytes.length = 32 → (mashOut (h, d) e).1.byte (32 * e.word + i) = e.bytes.getD i 0#8) ∧
      (e.mask.all id = false → (mashOut (h, d) e).1.byte (32 * e.word + i) =
        if e.mask.getD i false then e.bytes.getD i 0#8 else (h.classify e.word).2.1.getD i 0#8) := by
  obtain ⟨poison, hout⟩ := mashOut_fst (h, d) e
  rw [hout]
  refine ⟨fun hall hlen => ?_, fun hall => ?_⟩
  · rw [if_pos hall, Hbm.byte_putWord_self _ _ hw hlen hi]
  · rw [if_neg (by simp [hall]), Hbm.byte_putWord_self _ _ hw (mashOver_length ..) hi, mashOver_getD _ _ _ hi]

/-- Settles O37: an entry that is due goes out through `mashOut`, which drops it and stores one word; in every other case the row leaves
the state alone. -/
theorem mashEntriesAreWrittenOut : Obligations.MashEntriesAreWrittenOut := by
  intro s w hheld hw
  refine ⟨fun hstall => ?_, fun e he hdue hstall => ?_, fun e he hyoung => ?_, exec_mashWriteOut_none hheld hw⟩
  · cases he : s.dev.mashAt w with
    | none => exact exec_mashWriteOut_none hheld hw he
    | some e => rw [exec_mashWriteOut_some hheld hw he, if_neg (by simp [hstall])]; rfl
  · have hexec := exec_mashWriteOut_some hheld hw he
    rw [if_pos ⟨hdue, by simp [hstall]⟩] at hexec
    obtain rfl := Dev.mashAt_word he
    have hmash := Dev.mashAt_of_mash (mashOut_mash (s.hbm, s.dev) e)
    refine ⟨_, hexec, withHd_pending .., (hmash _).trans (Dev.mashAt_mashDrop_self ..),
      fun v hv => (hmash v).trans (Dev.mashAt_mashDrop_other _ hv), fun a ha => ?_,
      fun hall hlen i hi => (mashOut_byte_self hw hi).1 hall hlen, fun hall i hi => (mashOut_byte_self hw hi).2 hall⟩
    obtain ⟨poison, hout⟩ := mashOut_fst (s.hbm, s.dev) e
    rw [withHd_hbm, hout, Hbm.byte_putWord_other _ _ _ _ ha]
  · rw [exec_mashWriteOut_some hheld hw he, if_neg (by omega)]; rfl

end Sys2Proof.Machine
end

section
/-! SUPPORT. Poisoned payload words that the partner returns or does not have (R340), and the leak of the correctable-error buckets (R346). -/

namespace Sys2Proof.Machine

/-! ### Payload words -/

section Payload
variable {s : State} {w : Nat} (hheld : s.dev.coreHeld = false) (hw : w < hbmWords)
include hheld hw

theorem exec_payloadWordRefetch (bs : Option (List Byte)) : exec (.payloadWordRefetch w bs) s = .next (s.withHd
    (if (s.dev.payloadAt (32 * w)).isSome ∧ (s.hbm.classify w).2.2 then
      match bs with
      | some bs => memPut (s.hbm, s.dev) w (padTo 32 bs) false
      | none => payloadLost (s.hbm, s.dev) w
    else (s.hbm, s.dev))) :=
  (if_neg (Nat.not_le.2 hw)).trans (nextHd_ok s _ hheld)

theorem exec_payloadWordRefetch_untouched (h : (s.dev.payloadAt (32 * w)).isSome = false ∨ (s.hbm.classify w).2.2 = false)
    (bs : Option (List Byte)) : exec (.payloadWordRefetch w bs) s = .next s := by
  have hno : ¬ ((s.dev.payloadAt (32 * w)).isSome ∧ (s.hbm.classify w).2.2) := by
    rcases h with h | h <;> simp [h]
  rw [exec_payloadWordRefetch hheld hw, if_neg hno]; rfl

variable (hpayload : (s.dev.payloadAt (32 * w)).isSome = true) (hpoison : (s.hbm.classify w).2.2 = true)
include hpayload hpoison

theorem exec_payloadWordRefetch_some (bs : List Byte) :
    exec (.payloadWordRefetch w (some bs)) s = .next (s.withHd (memPut (s.hbm, s.dev) w (padTo 32 bs) false)) := by
  rw [exec_payloadWordRefetch hheld hw, if_pos ⟨hpayload, hpoison⟩]

theorem exec_payloadWordRefetch_none :
    exec (.payloadWordRefetch w none) s = .next (s.withHd (payloadLost (s.hbm, s.dev) w)) := by
  rw [exec_payloadWordRefetch hheld hw, if_pos ⟨hpayload, hpoison⟩]

end Payload

theorem memPut_mashAt_self (hd : Hbm × Dev) (w : Nat) (data : List Byte) (poison : Bool) : (memPut hd w data poison).2.mashAt w = none :=
  (Dev.mashAt_of_mash (Dev.memUnfilled_mash ..) w).trans (Dev.mashAt_mashDrop_self ..)

/-! ### The correctable-error buckets -/

/-- The bucket of group `g` loses 1, or stays at 0 (R346). -/
def Dev.leakBucket (d : Dev) (g : Nat) : Dev := d.setFld Fld.memBktStatLevel g (d.fld Fld.memBktStatLevel g - 1)

/-- The buckets below `n` leak. -/
def Dev.leakBuckets (d : Dev) (n : Nat) : Dev := (List.range n).foldl Dev.leakBucket d

theorem exec_bucketLeak {s : State} (hheld : s.dev.coreHeld = false) : exec .bucketLeak s = .next (s.withDev
    (if s.dev.tick.toNat % s.dev.fld1 Fld.memBktCfgLeak = 0 then s.dev.leakBuckets 32 else s.dev)) := nextDev_ok s _ hheld

theorem memBktStat_offset_ne {g j : Nat} (h : j ≠ g) : RegId.memBktStat.offset j ≠ RegId.memBktStat.offset g := by
  have hinfo : RegId.memBktStat.info = ⟨0x00D01000, 0x4, 32⟩ := rfl
  rw [RegId.offset, RegId.offset, hinfo]
  dsimp only
  omega

theorem Dev.level_leakBucket_self (d : Dev) (g : Nat) : (d.leakBucket g).fld Fld.memBktStatLevel g = d.fld Fld.memBktStatLevel g - 1 := by
  have hlevel : d.fld Fld.memBktStatLevel g < 2 ^ Fld.memBktStatLevel.width := bits_lt ..
  rw [Dev.leakBucket, Dev.fld_setFld_self _ _ _ _ (by decide), Nat.mod_eq_of_lt (by omega)]

theorem Dev.level_leakBucket_other (d : Dev) {g j : Nat} (h : j ≠ g) :
    (d.leakBucket g).fld Fld.memBktStatLevel j = d.fld Fld.memBktStatLevel j :=
  Dev.fld_setFld_other d _ (memBktStat_offset_ne h)

/-- Leaking the buckets below `n` takes 1 from each of them. -/
theorem Dev.level_leakBuckets (d : Dev) (n g : Nat) : (d.leakBuckets n).fld Fld.memBktStatLevel g =
    if g < n then d.fld Fld.memBktStatLevel g - 1 else d.fld Fld.memBktStatLevel g := by
  induction n with
  | zero => rfl
  | succ n ih =>
    rw [Dev.leakBuckets, List.range_succ, List.foldl_append, List.foldl_cons, List.foldl_nil, ← Dev.leakBuckets]
    by_cases hg : g = n
    · subst hg
      rw [Dev.level_leakBucket_self, ih, if_neg (Nat.lt_irrefl g), if_pos (Nat.lt_succ_self g)]
    · rw [Dev.level_leakBucket_other _ hg, ih]
      simp only [show g < n + 1 ↔ g < n by omega]

theorem Dev.rawReg_leakBuckets_other (d : Dev) {n j : Nat} {q : RegId} (h : ∀ g, g < n → q.offset j ≠ RegId.memBktStat.offset g) :
    (d.leakBuckets n).rawReg q j = d.rawReg q j :=
  foldl_keeps_mem (keep := fun d : Dev => d.rawReg q j)
    (fun g hg d => Dev.rawReg_putReg_other d (r := .memBktStat) _ (h g (List.mem_range.1 hg))) d

theorem Dev.leakBuckets_mem (d : Dev) (n : Nat) : (d.leakBuckets n).mem = d.mem :=
  foldl_keeps (keep := Dev.mem) (fun d g => d.setFld_mem Fld.memBktStatLevel g _) _ d

theorem Dev.leakBuckets_out (d : Dev) (n : Nat) : (d.leakBuckets n).out = d.out :=
  foldl_keeps (keep := Dev.out) (fun d g => d.setFld_out Fld.memBktStatLevel g _) _ d

/-- Settles O38: the row of a payload word stores what came back or loses the word; a leak sets the level field of one bucket after the
other, and their registers lie apart. -/
theorem payloadWordsAndBuckets : Obligations.PayloadWordsAndBuckets := by
  refine ⟨fun s w hheld hw => ⟨fun hpayload hpoison => ⟨fun bs => ?_, exec_payloadWordRefetch_none hheld hw hpayload hpoison⟩,
    exec_payloadWordRefetch_untouched hheld hw⟩, fun s hheld => ⟨fun htick => ?_, fun htick => ?_⟩⟩
  · exact ⟨_, exec_payloadWordRefetch_some hheld hw hpayload hpoison bs, withHd_pending .., rfl,
      memPut_mashAt_self (s.hbm, s.dev) w (padTo 32 bs) false, fun a ha => Hbm.byte_putWord_other _ _ _ _ ha⟩
  · rw [exec_bucketLeak hheld, if_neg htick]
  · refine ⟨_, exec_bucketLeak hheld, ?_⟩
    rw [if_pos htick]
    refine ⟨rfl, fun g hg => ?_, fun q j h => s.dev.rawReg_leakBuckets_other h, s.dev.leakBuckets_mem 32, s.dev.leakBuckets_out 32⟩
    rw [Dev.level_leakBuckets, if_pos hg]

end Sys2Proof.Machine
end

section
/-! SUPPORT. Queues: what a dropping write leaves of the other queues, a queue's reset (R369, R370), and where an entry of a large queue
is stored (R364). -/

namespace Sys2Proof.Machine

/-! ### A change of one queue -/

@[simp] theorem Dev.queAt_modQue_self (d : Dev) (q : Nat) (f : QueSt → QueSt) : (d.modQue q f).queAt q = f (d.queAt q) :=
  tgetD_tput_self ..

theorem Dev.queAt_modQue_other (d : Dev) {q k : Nat} (f : QueSt → QueSt) (h : k ≠ q) : (d.modQue q f).queAt k = d.queAt k :=
  tgetD_tput_other _ _ _ h

@[simp] theorem Dev.queAt_bump (d : Dev) (f : Fld) (i n k : Nat) : (d.bump f i n).queAt k = d.queAt k := (rfl)

theorem Dev.queAt_queStore (d : Dev) (q slot : Nat) (e : List Byte) (k : Nat) : (d.queStore q slot e).queAt k = d.queAt k := by
  unfold Dev.queStore
  split <;> rfl

theorem Dev.queAt_quePush_other (d : Dev) {q k : Nat} (it : QItem) (h : k ≠ q) : (d.quePush q it).queAt k = d.queAt k :=
  (Dev.queAt_modQue_other _ _ h).trans (foldl_keeps (keep := fun d : Dev => d.queAt k) (fun d _ => d.queAt_queStore q _ _ k) _ d)

/-- A dropping write leaves every queue but its own (R366). -/
theorem Dev.queAt_queDropWrite_other (d : Dev) {q k : Nat} (b : List Byte) (h : k ≠ q) : (d.queDropWrite q b).queAt k = d.queAt k := by
  unfold Dev.queDropWrite
  dsimp only
  repeat' split
  all_goals simp only [Dev.queAt_bump, Dev.queAt_modQue_other _ _ h, Dev.queAt_quePush_other _ _ h]

/-- An event that is also a record goes to the cellar feed, queue 0xF8, alone (R397, R435). -/
theorem Dev.queAt_postBoth_other (d : Dev) (c b i : Nat) (l : List Word64) {k : Nat} (h : k ≠ 0xF8) :
    (d.postBoth c b i l).queAt k = d.queAt k :=
  Dev.queAt_queDropWrite_other _ _ h

/-- Every register but the feed's own counter reads as before an event that is also a record. -/
theorem Dev.fld_postBoth (d : Dev) (c b i : Nat) (l : List Word64) {g : Fld} {j : Nat} (h : g.reg.offset j ≠ RegId.queQCnt.offset 0xF8) :
    (d.postBoth c b i l).fld g j = d.fld g j :=
  congrArg (fun w : Word32 => bits w.toNat g.lo g.width) (Dev.rawReg_queDropWrite _ _ _ h)

/-! ### The reset of a queue (R369, R370) -/

theorem queQCnt_offset_ne {q k : Nat} (h : q ≠ k) : RegId.queQCnt.offset q ≠ RegId.queQCnt.offset k := by
  simp only [RegId.offset, RegId.info]
  omega

theorem Dev.queReset_items (d : Dev) {q : Nat} (c : Nat) (hq : q ≠ 0xF8) : ((d.queReset q c).queAt q).items = [] := by
  rw [Dev.queReset, Dev.queAt_postBoth_other _ _ _ _ _ hq]
  simp only [Dev.queAt_bump, Dev.queAt_modQue_self, Dev.queEmpty]

/-- DROPS, counted after RESETS, stands beside it in QUE_Qq_CNT. -/
theorem Dev.resets_queReset (d : Dev) {q : Nat} (c : Nat) (hq : q ≠ 0xF8) :
    (d.queReset q c).fld Fld.queQCntResets q = min (d.fld Fld.queQCntResets q + 1) (2 ^ Fld.queQCntResets.width - 1) := by
  rw [Dev.queReset, Dev.fld_postBoth _ _ _ _ _ (queQCnt_offset_ne hq), Dev.bump,
    Dev.fld_setFld_apart _ (f := Fld.queQCntDrops) (g := Fld.queQCntResets) q _ rfl (by decide) (.inr (by decide)),
    Dev.fld_bump_self _ _ _ _ (by decide)]
  rfl

theorem exec_queueReset {s : State} {q c : Nat} (hheld : s.dev.coreHeld = false) (hq : q < 0xFF) (hen : s.dev.queEn q = true)
    (hc : c = if s.dev.queLarge q then 2 else 1) :
    exec (.queueReset q c) s = .next (s.withDev (s.dev.modQue q fun x => { x with broken := c })) := by
  refine nextDev_if_pos (f := fun d => if d.queEn q ∧ q ≠ 0xFF ∧ (c = 1 ∧ ! d.queLarge q ∨ c = 2 ∧ d.queLarge q) then
    d.modQue q fun x => { x with broken := c } else d) hheld rfl ⟨hen, by omega, ?_⟩
  cases hlarge : s.dev.queLarge q <;> simp [hc, hlarge]

/-! ### Entries of a large queue (R364) -/

theorem Dev.queAddr_within (d : Dev) (q off : Nat) : queRegion ≤ d.queAddr q off ∧ d.queAddr q off < queRegion + queRegionLen :=
  ⟨Nat.le_add_right .., Nat.add_lt_add_left (Nat.mod_lt _ (by decide)) _⟩

theorem Dev.quePush_out {d : Dev} {q : Nat} {it : QItem} (hlarge : d.queLarge q = true) (hone : it.n = 1) :
    let slot := ((d.queAt q).head + d.queLevel q) % d.queSize q
    (d.quePush q it).que.out = d.que.out ++
      [(d.queAddr q (64 * slot), slice it.body 0 64), (d.queAddr q (64 * d.queSize q + 8 * slot), laneChecks (slice it.body 0 64))] := by
  simp only [Dev.quePush, hone, List.range_one, List.foldl_cons, List.foldl_nil, Dev.queStore, if_pos hlarge]
  rfl

end Sys2Proof.Machine
end

section
/-! SUPPORT. Flow control (R373, R486): the frames that a port sends for the queues above their mark, and the pauses that it takes. -/

namespace Sys2Proof.Machine

/-- A table after an entry has been written for each element of a list, under keys that differ. -/
theorem tget_foldl_tput {α : Type} {key : Nat → Nat} (hkey : Function.Injective key) (val : Nat → α) (xs : List Nat) (t : Table α) (x : Nat) :
    tget (xs.foldl (fun t x => tput t (key x) (val x)) t) (key x) = if x ∈ xs then some (val x) else tget t (key x) := by
  induction xs generalizing t with
  | nil => simp
  | cons a xs ih =>
    rw [List.foldl_cons, ih]
    by_cases h : x = a
    · subst h
      simp
    · simp [h, tget_tput_other t (val a) (hkey.ne h)]

/-! ### PFC frames that are sent (R373) -/

/-- The frame that port `p` sends for queue `q`. -/
def Dev.pfcFrame (d : Dev) (p quanta q : Nat) : Out := .pfc p (d.fld Fld.queQCfgPfcPri q) quanta

/-- The queues above their mark that hold their priority paused. -/
def Dev.pfcQueues (d : Dev) : List Nat := (List.range 249).filter fun q => d.queAbove q && d.flag Fld.queQCfgPfcEn q

@[simp] theorem Dev.pfcOn_regs (d : Dev) (q p quanta : Nat) : (d.pfcOn q p quanta).regs = d.regs := by
  unfold Dev.pfcOn
  dsimp only
  repeat' split
  all_goals rfl

section Fold

variable {d : Dev} {p quanta : Nat} (qs : List Nat)

/-- A port that is not live sends nothing. -/
theorem Dev.foldl_pfcOn_dead (hlive : d.portLive p = false) : qs.foldl (fun d q => d.pfcOn q p quanta) d = d := by
  induction qs with
  | nil => rfl
  | cons q qs ih =>
    have hone : d.pfcOn q p quanta = d := by simp [Dev.pfcOn, hlive]
    rw [List.foldl_cons, hone, ih]

/-- On a port whose lane group has overrun the frames wait (R16). -/
theorem Dev.foldl_pfcOn_late (hlive : d.portLive p = true) (hlate : d.ethLate p = true) : qs.foldl (fun d q => d.pfcOn q p quanta) d =
    { d with eth := { d.eth with late := d.eth.late ++ qs.map (d.pfcFrame p quanta) } } := by
  induction qs generalizing d with
  | nil => simp
  | cons q qs ih =>
    have hone : d.pfcOn q p quanta = { d with eth := { d.eth with late := d.eth.late ++ [d.pfcFrame p quanta q] } } := by
      simp [Dev.pfcOn, hlive, hlate, Dev.pfcFrame]
    rw [List.foldl_cons, hone, List.map_cons, List.append_cons _ _ (qs.map _)]
    exact ih hlive hlate

/-- The frames leave a live port in the queues' order, and the boundary is noted for each. -/
theorem Dev.foldl_pfcOn_sent (hlive : d.portLive p = true) (hlate : d.ethLate p = false) : qs.foldl (fun d q => d.pfcOn q p quanta) d =
    { d with
      out := (qs.map (d.pfcFrame p quanta)).reverse ++ d.out
      eth := { d.eth with pfcAt := qs.foldl (fun t q => tput t (256 * p + q) d.clk) d.eth.pfcAt } } := by
  induction qs generalizing d with
  | nil => rfl
  | cons q qs ih =>
    have hone : d.pfcOn q p quanta =
        { d with out := d.pfcFrame p quanta q :: d.out, eth := { d.eth with pfcAt := tput d.eth.pfcAt (256 * p + q) d.clk } } := by
      simp [Dev.pfcOn, hlive, hlate, Dev.pfcFrame, Dev.emit]
    rw [List.foldl_cons, hone, List.map_cons, List.reverse_cons, List.append_assoc, List.singleton_append]
    exact ih hlive hlate

end Fold

/-- The queues whose frame on port `p` is to be repeated. -/
def Dev.pfcDue (d : Dev) (p : Nat) : List Nat :=
  (List.range 249).filter fun q =>
    d.queAbove q && d.flag Fld.queQCfgPfcEn q && decide (tgetD d.eth.pfcAt (256 * p + q) 0 + 2 ≤ d.clk)

theorem exec_pfcRepeat {s : State} (hheld : s.dev.coreHeld = false) (p : Nat) :
    exec (.pfcRepeat p) s = .next (s.withDev ((s.dev.pfcDue p).foldl (fun d q => d.pfcOn q p 0xFFFF) s.dev)) :=
  nextDev_of_eq hheld (f := fun d => (d.pfcDue p).foldl (fun d q => d.pfcOn q p 0xFFFF) d) rfl

/-! ### PFC frames that are taken (R486) -/

/-- The pauses of port `p` once a frame with the priorities `xs` has been taken. -/
def Dev.paused (d : Dev) (p : Nat) (quanta : List (BitVec 16)) (xs : List Nat) : Table Nat :=
  xs.foldl (fun t i => tput t (8 * p + i) (d.clk + d.pauseTicks p (quanta.getD i 0).toNat)) d.eth.pause

theorem Dev.foldl_pause (d : Dev) (p : Nat) (quanta : List (BitVec 16)) (xs : List Nat) :
    xs.foldl (fun (d : Dev) i =>
      { d with eth := { d.eth with pause := tput d.eth.pause (8 * p + i) (d.clk + d.pauseTicks p (quanta.getD i 0).toNat) } }) d =
    { d with eth := { d.eth with pause := d.paused p quanta xs } } := by
  induction xs generalizing d with
  | nil => rfl
  | cons i xs ih =>
    rw [List.foldl_cons, ih]
    rfl

section Taken

variable {s : State} {p : Nat} {e : BitVec 8} {quanta : List (BitVec 16)} (hheld : s.dev.coreHeld = false)
include hheld

theorem exec_pfcFrameReceive (hp : p < ethPorts) (hlive : s.dev.portLive p = true) (hrx : s.dev.flag Fld.ethPortCfgPfcRx p = true) :
    exec (.pfcFrameReceive p e quanta) s = .next (s.withDev { s.dev with
      eth := { s.dev.eth with pause := s.dev.paused p quanta ((List.range 8).filter e.getLsbD) } }) := by
  rw [← Dev.foldl_pause]
  exact nextDev_if_pos hheld rfl ⟨hp, hlive, hrx⟩

theorem exec_pfcFrameReceive_ignored (hrx : s.dev.flag Fld.ethPortCfgPfcRx p = false) :
    exec (.pfcFrameReceive p e quanta) s = .next s :=
  nextDev_if_neg hheld rfl (by simp [hrx])

end Taken

end Sys2Proof.Machine
end

section
/-! SUPPORT. Ethernet ports that come up and fall (R373, R403, R439): the lanes' LOCK, their re-training, the tunnels, and the answers for
service addresses (R421). -/

namespace Sys2Proof.Machine

/-! ### Lanes -/

@[simp] theorem Dev.lanesLock_ovr (d : Dev) (ls : List Nat) (b : Bool) : (d.lanesLock ls b).ovr = d.ovr :=
  foldl_keeps (keep := Dev.ovr) (fun d _ => d.setFld_ovr ..) ls d
@[simp] theorem Dev.lanesLock_out (d : Dev) (ls : List Nat) (b : Bool) : (d.lanesLock ls b).out = d.out :=
  foldl_keeps (keep := Dev.out) (fun d _ => d.setFld_out ..) ls d
@[simp] theorem Dev.lanesLock_fab (d : Dev) (ls : List Nat) (b : Bool) : (d.lanesLock ls b).fab = d.fab :=
  foldl_keeps (keep := Dev.fab) (fun d _ => d.setFld_fab ..) ls d
@[simp] theorem Dev.lanesLock_age (d : Dev) (ls : List Nat) (b : Bool) : (d.lanesLock ls b).age = d.age :=
  foldl_keeps (keep := Dev.age) (fun d _ => d.setFld_age ..) ls d

/-- The lanes' LOCK stands in the registers of the four lane groups. -/
theorem Dev.fld_lanesLock (d : Dev) {ls : List Nat} (b : Bool) {g : Fld} {j : Nat} (hls : ∀ l ∈ ls, l < 16)
    (hg : g.reg.offset j < 0x01200000 ∨ 0x01201000 ≤ g.reg.offset j) : (d.lanesLock ls b).fld g j = d.fld g j :=
  foldl_keeps_mem (keep := fun d : Dev => d.fld g j) (fun l hl d => Dev.fld_setFld_other d _ (by
    have := hls l hl
    rw [show RegId.offset Fld.ethGrpStatLock.reg (l / 4) = 0x01200004 + l / 4 * 0x10 from rfl]
    omega)) d

@[simp] theorem Dev.trainLanes_fab (d : Dev) (ls : List Nat) : (d.trainLanes ls).fab = d.fab :=
  foldl_keeps (keep := Dev.fab) (fun d l => d.bump_fab Fld.hltLaneEyeTrains l 1) _ _

/-- Lanes that are trained no longer wait for it (R439). -/
theorem Dev.trainLanes_retrain (d : Dev) (ls : List Nat) :
    (d.trainLanes ls).age.retrain = d.age.retrain.filter fun l => ! ls.contains l :=
  congrArg Age.retrain (foldl_keeps (keep := Dev.age) (fun d l => d.bump_age Fld.hltLaneEyeTrains l 1) _ _)

/-- Training changes the lanes' counters and the list of those that wait, and nothing else. -/
theorem Dev.trainLanes_frame (d : Dev) (ls : List Nat) :
    d.trainLanes ls = { d with regs := (d.trainLanes ls).regs, age := (d.trainLanes ls).age } := by
  have hregs : d.trainLanes ls = { d with
      age := { d.age with retrain := d.age.retrain.filter fun l => ! ls.contains l }, regs := (d.trainLanes ls).regs } :=
    Dev.eq_withRegs (foldl_keeps (keep := Dev.besidesRegs) (fun d l => d.besidesRegs_setFld Fld.hltLaneEyeTrains l _) _ _)
  rw [hregs]

/-- The lanes' counters stand in the registers from HLT_LANE0_EYE on. -/
theorem Dev.fld_trainLanes (d : Dev) (ls : List Nat) {g : Fld} {j : Nat} (hg : g.reg.offset j < 0x01402000) :
    (d.trainLanes ls).fld g j = d.fld g j :=
  foldl_keeps (keep := fun d : Dev => d.fld g j) (fun d l => Dev.fld_setFld_other d _ (by
    rw [show RegId.offset Fld.hltLaneEyeTrains.reg l = 0x01402000 + l * 0x4 from rfl]
    omega)) _ _

/-! ### Tunnels (R403) -/

/-- A link that has gone down (R402). -/
def Link.fallen (k : Link) : Link := { k with up := false, good := 0, quiet := 0, replay := [], waiting := [], replays := 0 }

theorem Dev.linkDown_links (d : Dev) (l cause : Nat) :
    (d.linkDown l cause).fab.links = if (d.linkAt l).up then lmod d.fab.links l Link.fallen else d.fab.links := by
  unfold Dev.linkDown
  cases (d.linkAt l).up
  · rfl
  · simp only [Bool.not_true, Bool.false_eq_true, if_false, if_true]
    repeat' split
    all_goals rfl

/-- A link that goes down is not up, and no other link changes. -/
theorem Dev.up_linkDown (d : Dev) (l cause k : Nat) : ((d.linkDown l cause).linkAt k).up = (decide (k ≠ l) && (d.linkAt k).up) := by
  rw [Dev.linkAt, Dev.linkDown_links]
  by_cases h : k = l
  · subst h
    cases hup : (d.linkAt k).up
    · simpa [Dev.linkAt] using hup
    · cases hk : d.fab.links[k]? <;> simp [lmod, List.getD_eq_getElem?_getD, hk, Link.fallen]
  · split <;> simp [Dev.linkAt, lmod, List.getD_eq_getElem?_getD, h, Ne.symm h]

/-- What falls with a port: the tunnels of the list, and no other link. -/
theorem Dev.up_foldl_linkDown (d : Dev) (js : List Nat) (k : Nat) :
    ((js.foldl (fun d j => d.linkDown (8 + j) 2) d).linkAt k).up = (decide (∀ j ∈ js, k ≠ 8 + j) && (d.linkAt k).up) := by
  induction js generalizing d with
  | nil => simp
  | cons j js ih =>
    rw [List.foldl_cons, ih, Dev.up_linkDown]
    simp [Bool.decide_and, Bool.and_assoc, Bool.and_left_comm]

/-- A tunnel has no register of a fabric port. -/
theorem Dev.linkDown_tunnel_regs (d : Dev) (j cause : Nat) : (d.linkDown (8 + j) cause).regs = d.regs := by
  have htunnel : ¬ 8 + j < 8 := by omega
  unfold Dev.linkDown
  split
  · rfl
  · simp only [htunnel, false_and, if_false]
    rfl

theorem Dev.foldl_linkDown_age (d : Dev) (js : List Nat) : (js.foldl (fun d j => d.linkDown (8 + j) 2) d).age = d.age :=
  foldl_keeps (keep := Dev.age) (fun d j => by
    have hage : (d.linkDown (8 + j) 2).besidesLinks.age = d.besidesLinks.age := by rw [Dev.besidesLinks_linkDown]
    exact hage) js d

theorem Dev.fld_foldl_linkDown (d : Dev) (js : List Nat) (g : Fld) (i : Nat) :
    (js.foldl (fun d j => d.linkDown (8 + j) 2) d).fld g i = d.fld g i :=
  foldl_keeps (keep := fun d : Dev => d.fld g i)
    (fun d j => by rw [Dev.fld, Dev.rawReg, Dev.linkDown_tunnel_regs, ← Dev.rawReg, ← Dev.fld]) js d

/-! ### The status of a port -/

/-- Port `p` with UP, and its lanes with LOCK, as `b` says. -/
def Dev.portSet (d : Dev) (p : Nat) (b : Bool) : Dev := (d.setFlag Fld.ethPortStatUp p b).lanesLock (d.portLanes p) b

theorem ethPortStat_offset (p : Nat) : RegId.ethPortStat.offset p = 0x01201004 + p * 0x40 := rfl

section Set

variable {d : Dev} {p : Nat} (b : Bool) (hlanes : ∀ l ∈ d.portLanes p, l < 16)
include hlanes

/-- In ETH_PORTp_STAT the lanes' LOCK changes nothing. -/
theorem Dev.flag_portSet (g : Fld) (hg : g.reg = .ethPortStat) :
    (d.portSet p b).flag g p = (d.setFlag Fld.ethPortStatUp p b).flag g p := by
  rw [Dev.flag, Dev.portSet, Dev.fld_lanesLock _ _ hlanes (.inr (by rw [hg, ethPortStat_offset]; omega)), Dev.flag]

theorem Dev.up_portSet : (d.portSet p b).flag Fld.ethPortStatUp p = b :=
  (Dev.flag_portSet b hlanes _ rfl).trans (d.flag_setFlag_self Fld.ethPortStatUp p b (by decide) rfl)

theorem Dev.fld_portSet_other {g : Fld} {j : Nat} (hg : g.reg.offset j < 0x01200000 ∨ 0x01201000 ≤ g.reg.offset j)
    (hne : g.reg.offset j ≠ RegId.ethPortStat.offset p) : (d.portSet p b).fld g j = d.fld g j :=
  (Dev.fld_lanesLock _ b hlanes hg).trans (d.fld_setFld_other _ hne)

/-- A queue's settings and status are as they were. -/
theorem Dev.fld_portSet_queue {g : Fld} (hg : g.reg = .queQCfg ∨ g.reg = .queQStat) {q : Nat} (hq : q < 249) :
    (d.portSet p b).fld g q = d.fld g q := by
  have hlow : g.reg.offset q < 0x01200000 := by
    rcases hg with hg | hg <;> rw [hg] <;> simp only [RegId.offset, RegId.info] <;> omega
  exact Dev.fld_portSet_other b hlanes (.inl hlow) (by rw [ethPortStat_offset]; omega)

theorem Dev.pfcQueues_portSet : (d.portSet p b).pfcQueues = d.pfcQueues :=
  List.filter_congr fun q hq => by
    rw [Dev.queAbove, Dev.flag, Dev.flag, Dev.fld_portSet_queue b hlanes (.inr rfl) (List.mem_range.1 hq),
      Dev.fld_portSet_queue b hlanes (.inl rfl) (List.mem_range.1 hq), ← Dev.flag, ← Dev.flag, ← Dev.queAbove]

theorem Dev.pfcFrames_portSet (quanta : Nat) :
    d.pfcQueues.map ((d.portSet p b).pfcFrame p quanta) = d.pfcQueues.map (d.pfcFrame p quanta) :=
  List.map_congr_left fun q hq => by
    rw [Dev.pfcFrame, Dev.fld_portSet_queue b hlanes (.inl rfl) (List.mem_range.1 (List.mem_filter.1 hq).1), ← Dev.pfcFrame]

/-- A port that is present and enabled is live once it is up. -/
theorem Dev.portLive_portSet (hpresent : d.flag Fld.ethPortStatPresent p = true) (hen : d.flag Fld.ethPortCfgEn p = true) :
    (d.portSet p true).portLive p = true := by
  have hpresent' : (d.portSet p true).flag Fld.ethPortStatPresent p = true := by
    rw [Dev.flag_portSet true hlanes _ rfl,
      Dev.flag_setFlag_apart d (f := Fld.ethPortStatUp) (g := Fld.ethPortStatPresent) p true rfl (by decide) (.inr (by decide)), hpresent]
  have hoff : RegId.offset Fld.ethPortCfgEn.reg p = 0x01201000 + p * 0x40 := rfl
  have hen' : (d.portSet p true).flag Fld.ethPortCfgEn p = true := by
    rw [Dev.flag, Dev.fld_portSet_other true hlanes (.inr (by omega)) (by rw [ethPortStat_offset]; omega), ← Dev.flag, hen]
  rw [Dev.portLive, hpresent', hen', Dev.up_portSet true hlanes]
  rfl

end Set

theorem Dev.ethLate_portSet (d : Dev) (p : Nat) (b : Bool) : (d.portSet p b).ethLate p = d.ethLate p := by
  rw [Dev.ethLate, Dev.portSet, Dev.lanesLock_ovr, Dev.setFlag_ovr, ← Dev.ethLate]

/-! ### A port that comes up (R373) -/

theorem Dev.portRise_eq (d : Dev) (p : Nat) :
    d.portRise p = (d.portSet p true).pfcQueues.foldl (fun d q => d.pfcOn q p 0xFFFF) (d.portSet p true) := rfl

theorem Dev.up_portRise {d : Dev} {p : Nat} (hlanes : ∀ l ∈ d.portLanes p, l < 16) : (d.portRise p).flag Fld.ethPortStatUp p = true := by
  rw [Dev.portRise_eq, Dev.flag, Dev.fld, Dev.rawReg, foldl_keeps (keep := Dev.regs) fun d q => d.pfcOn_regs q p 0xFFFF]
  exact Dev.up_portSet true hlanes

/-- The first frames of the queues above their mark leave as the port comes up. -/
theorem Dev.portRise_out {d : Dev} {p : Nat} (hlanes : ∀ l ∈ d.portLanes p, l < 16) (hpresent : d.flag Fld.ethPortStatPresent p = true)
    (hen : d.flag Fld.ethPortCfgEn p = true) (hlate : d.ethLate p = false) :
    (d.portRise p).out = (d.pfcQueues.map (d.pfcFrame p 0xFFFF)).reverse ++ d.out := by
  rw [Dev.portRise_eq, Dev.foldl_pfcOn_sent _ (Dev.portLive_portSet hlanes hpresent hen) ((d.ethLate_portSet p true).trans hlate),
    Dev.pfcQueues_portSet true hlanes, Dev.pfcFrames_portSet true hlanes]
  dsimp only
  rw [Dev.portSet, Dev.lanesLock_out, Dev.setFlag_out]

/-! ### A port that falls (R403, R439) -/

/-- Port `p` down, its lanes without LOCK, and no frame of its own to repeat. -/
def Dev.portDark (d : Dev) (p : Nat) : Dev :=
  { d.portSet p false with
    eth := { (d.portSet p false).eth with pfcAt := (d.portSet p false).eth.pfcAt.filter fun x => x.1 / 256 != p } }

/-- The tunnels that run over port `p`. -/
def Dev.tunnelsOn (d : Dev) (p : Nat) : List Nat := (List.range 4).filter fun j => d.fld Fld.fabTunCfgPort j == p

theorem Dev.portFall_eq {d : Dev} {p : Nat} (hup : d.flag Fld.ethPortStatUp p = true) :
    d.portFall p = (((d.portDark p).tunnelsOn p).foldl (fun d j => d.linkDown (8 + j) 2) (d.portDark p)).trainLanes (d.portLanes p) := by
  rw [Dev.portFall, hup]
  rfl

section Fall

variable {d : Dev} {p : Nat} (hup : d.flag Fld.ethPortStatUp p = true)
include hup

theorem Dev.up_portFall (hp : p < ethPorts) (hlanes : ∀ l ∈ d.portLanes p, l < 16) :
    (d.portFall p).flag Fld.ethPortStatUp p = false := by
  have hoff : RegId.offset Fld.ethPortStatUp.reg p < 0x01402000 := by
    rw [show RegId.offset Fld.ethPortStatUp.reg p = _ from ethPortStat_offset p]
    have : p < 16 := hp
    omega
  rw [Dev.portFall_eq hup, Dev.flag, Dev.fld_trainLanes _ _ hoff, Dev.fld_foldl_linkDown]
  exact Dev.up_portSet false hlanes

/-- Every tunnel over the port has gone down. -/
theorem Dev.tunnel_portFall (hp : p < ethPorts) (hlanes : ∀ l ∈ d.portLanes p, l < 16) {j : Nat} (hj : j < 4)
    (hport : d.fld Fld.fabTunCfgPort j = p) : ((d.portFall p).linkAt (8 + j)).up = false := by
  have hoff : RegId.offset Fld.fabTunCfgPort.reg j = 0x01303000 + j * 0x10 := rfl
  have hp' : p < 16 := hp
  have hcfg : (d.portDark p).fld Fld.fabTunCfgPort j = p :=
    (Dev.fld_portSet_other false hlanes (.inr (by omega)) (by rw [ethPortStat_offset]; omega)).trans hport
  have hmem : j ∈ (d.portDark p).tunnelsOn p := List.mem_filter.2 ⟨List.mem_range.2 hj, beq_iff_eq.2 hcfg⟩
  rw [Dev.portFall_eq hup, Dev.linkAt, Dev.trainLanes_fab, ← Dev.linkAt, Dev.up_foldl_linkDown,
    decide_eq_false fun hnone => hnone j hmem rfl]
  rfl

theorem Dev.portFall_retrain : (d.portFall p).age.retrain = d.age.retrain.filter fun l => ! (d.portLanes p).contains l := by
  rw [Dev.portFall_eq hup, Dev.trainLanes_retrain, Dev.foldl_linkDown_age]
  exact congrArg (fun a : Age => a.retrain.filter fun l => ! (d.portLanes p).contains l) (Dev.lanesLock_age ..)

end Fall

/-- The lanes of PCIe are 16 to 31. -/
theorem contains_pcieLanes (l : Nat) : ((List.range 16).map (16 + ·)).contains l = (decide (16 ≤ l) && decide (l < 32)) := by
  rw [Bool.eq_iff_iff]
  simp only [List.contains_iff_mem, List.mem_map, List.mem_range, Bool.and_eq_true, decide_eq_true_eq]
  exact ⟨by rintro ⟨k, hk, rfl⟩; omega, fun h => ⟨l - 16, by omega, by omega⟩⟩

/-! ### The rows -/

section Rows

variable {s : State} {p : Nat} (hheld : s.dev.coreHeld = false)
include hheld

theorem exec_ethPortLinkUp (hp : p < ethPorts) (hpresent : s.dev.flag Fld.ethPortStatPresent p = true)
    (hen : s.dev.flag Fld.ethPortCfgEn p = true) (hup : s.dev.flag Fld.ethPortStatUp p = false) :
    exec (.ethPortLinkUp p) s = .next (s.withDev (s.dev.portRise p)) :=
  nextDev_if_pos (f := fun d =>
    if p < ethPorts ∧ d.flag Fld.ethPortStatPresent p ∧ d.flag Fld.ethPortCfgEn p ∧ ! d.flag Fld.ethPortStatUp p then d.portRise p else d)
    hheld rfl ⟨hp, hpresent, hen, by rw [hup]; rfl⟩

theorem exec_ethPortLinkDown (hp : p < ethPorts) : exec (.ethPortLinkDown p) s = .next (s.withDev (s.dev.portFall p)) :=
  nextDev_if_pos (f := fun d => if p < ethPorts then d.portFall p else d) hheld rfl hp

theorem exec_pcieLinkDown : exec .pcieLinkDown s = .next (s.withDev (s.dev.trainLanes ((List.range 16).map (16 + ·)))) :=
  nextDev_of_eq hheld (f := fun d => d.trainLanes ((List.range 16).map (16 + ·))) rfl

theorem exec_arpRequestReceive {v6 : Bool} {a : BitVec 128} {x : Svc}
    (hfind : s.dev.answersFor.find? (fun x => x.port == p && x.v6 == v6 && x.addr == a) = some x) (hlive : s.dev.portLive x.port = true) :
    exec (.arpRequestReceive p v6 a) s = .next (s.withDev { s.dev with out := .arp x.port x.v6 x.addr x.mac :: s.dev.out }) := by
  show execArpRequestReceive p v6 a s = _
  rw [execArpRequestReceive, nextDev_ok s _ hheld]
  simp only [hfind, Dev.announce, hlive, if_true]
  rfl

variable {x0 : Nat} (hat : s.dev.pair.arpAt = some x0)
include hat

theorem exec_arpRepeat_first (hdone : s.dev.pair.arpDone = 0) (hdue : x0 + 50 ≤ s.dev.clk) : exec .arpRepeat s =
    .next (s.withDev (s.dev.partnerSvcs.foldl Dev.announce { s.dev with pair := { s.dev.pair with arpDone := 1 } })) := by
  show execArpRepeat s = _
  rw [execArpRepeat, nextDev_ok s _ hheld]
  simp only [hat, hdone, hdue, and_self, if_true]

theorem exec_arpRepeat_second (hdone : s.dev.pair.arpDone = 1) (hdue : x0 + 500 ≤ s.dev.clk) : exec .arpRepeat s =
    .next (s.withDev (s.dev.partnerSvcs.foldl Dev.announce { s.dev with pair := { s.dev.pair with arpDone := 2, arpAt := none } })) := by
  show execArpRepeat s = _
  rw [execArpRepeat, nextDev_ok s _ hheld]
  simp only [hat, hdone, hdue, Nat.one_ne_zero, false_and, and_self, if_false, if_true]

end Rows

/-- Settles O54: a queue's reset and its report touch different queues and counters; the fold over a port's queues sends each one's
frame, puts it off or does nothing, as the port and its lane group stand; a port's status, its lanes, its tunnels and the queues lie
in registers apart. The model's own choices in it: log entries 107, 109 and 183. -/
theorem queuesPfcPortsAndAddresses : Obligations.QueuesPfcPortsAndAddresses := by
  refine ⟨fun s hheld => ⟨?reset, ?emptied, ?repeated, ?paused, fun p e qs => exec_pfcFrameReceive_ignored hheld⟩,
    fun s hheld => ⟨?rise, ?fall, ?pcie, fun p v6 a x => exec_arpRequestReceive hheld, fun x0 => exec_arpRepeat_first hheld,
      fun x0 => exec_arpRepeat_second hheld⟩,
    fun d q it hlarge => ⟨Dev.quePush_out hlarge, d.queAddr_within q⟩⟩
  case reset => exact fun q c hq => exec_queueReset hheld hq
  case emptied => exact fun d q c hq => ⟨d.queReset_items c (by omega), d.resets_queReset c (by omega)⟩
  case repeated =>
    refine fun p => ⟨_, exec_pfcRepeat hheld p, ?_⟩
    cases hlive : s.dev.portLive p
    · rw [Dev.foldl_pfcOn_dead _ hlive]
      exact ⟨rfl, fun _ => rfl, nofun, nofun⟩
    cases hlate : s.dev.ethLate p
    · rw [Dev.foldl_pfcOn_sent _ hlive hlate]
      refine ⟨rfl, nofun, nofun, fun _ _ => ⟨rfl, rfl, fun q hq => ?_⟩⟩
      exact (tget_foldl_tput (add_right_injective (256 * p)) _ _ _ q).trans (if_pos hq)
    · rw [Dev.foldl_pfcOn_late _ hlive hlate]
      exact ⟨rfl, nofun, fun _ _ => ⟨rfl, rfl⟩, nofun⟩
  case paused =>
    refine fun p e qs hp hlive hrx => ⟨_, exec_pfcFrameReceive hheld hp hlive hrx, rfl, fun i hi => ?_⟩
    refine (tget_foldl_tput (add_right_injective (8 * p)) _ _ _ i).trans ?_
    simp [hi]
  case rise =>
    exact fun p hp hpresent hen hup hlanes => ⟨_, exec_ethPortLinkUp hheld hp hpresent hen hup, rfl, Dev.up_portRise hlanes,
      Dev.portRise_out hlanes hpresent hen⟩
  case fall =>
    exact fun p hp hup hlanes => ⟨_, exec_ethPortLinkDown hheld hp, rfl, Dev.up_portFall hup hp hlanes,
      fun j => Dev.tunnel_portFall hup hp hlanes, Dev.portFall_retrain hup⟩
  case pcie =>
    refine ⟨_, exec_pcieLinkDown hheld, congrArg s.withDev (Dev.trainLanes_frame _ _), ?_⟩
    simp only [Dev.trainLanes_retrain, contains_pcieLanes]

end Sys2Proof.Machine
end

section
/-! SUPPORT. BAR accesses and doorbells (R377, R378): each is discarded and counted, or takes effect as its rule says. -/

namespace Sys2Proof.Machine

section Rows
variable {s : State} (hheld : s.dev.coreHeld = false)
include hheld

theorem exec_badBarRead (n : Nat) :
    exec (.badBarAccess false n) s = .next (s.withDev (s.dev.emit (.readData (List.replicate n 0xFF#8)))) :=
  (nextDev_ok s _ hheld : execBadBarAccess false n s = _)

theorem exec_badBarWrite (n : Nat) : exec (.badBarAccess true n) s = .next (s.withDev (s.dev.bump Fld.pciErrCntBar)) :=
  (nextDev_ok s _ hheld : execBadBarAccess true n s = _)

/-- A write in a doorbell page, at a place of 32 bits that is not the CQ_DB, is discarded and counted or waits (R378). -/
theorem exec_sqDoorbell {r off : Nat} (v : BitVec 32) (n : Nat) (hr : r < 256) (hoff : off < 4096) (halign : off % 4 = 0) (hcq : off ≠ 4) :
    exec (.sqDoorbell r off v n) s = .next (s.withDev (
      if off ≠ 0 ∨ s.dev.ringSize r ≤ v.toNat then s.dev.bump Fld.pciErrCntDoorbell
      else s.dev.modRing r fun g => { g with sqDb := some v.toNat, poison := g.poison + n })) := by
  refine (nextDev_ok s _ hheld : execSqDoorbell r off v n s = _).trans ?_
  rw [if_neg (by omega)]

theorem exec_cqDoorbell {r : Nat} (v : BitVec 32) (hr : r < 256) :
    exec (.cqDoorbell r v) s = .next (s.withDev (
      if s.dev.ringSize r ≤ v.toNat then s.dev.bump Fld.pciErrCntDoorbell
      else s.dev.modRing r fun g => { g with cqDb := some v.toNat })) := by
  refine (nextDev_ok s _ hheld : execCqDoorbell r v s = _).trans ?_
  rw [if_neg (Nat.not_le.2 hr)]

end Rows

/-- Settles O14: a read only answers, and a write only bumps a counter, which saturates and stands in a register of its own. -/
theorem badBarAccess : Obligations.BadBarAccess := by
  intro s n hheld
  refine ⟨exec_badBarRead hheld n, _, exec_badBarWrite hheld n, rfl, rfl, rfl, ?_, ?_⟩
  · exact Dev.fld_bump_self s.dev Fld.pciErrCntBar 0 1 (by decide)
  · exact fun q j hq => Dev.rawReg_putReg_other s.dev _ hq

/-- Settles O11: a doorbell's place in its page and its index against the ring's size decide whether it waits or is counted. How many
poisoned descriptors it brings is the model's own account (log entry 100). -/
theorem doorbells : Obligations.Doorbells := by
  intro s r v hheld hr
  refine ⟨fun n hin => ?_, fun hin => ?_, fun hout => ?_, fun off n hoff halign hcq hbad => ?_⟩
  · exact (exec_sqDoorbell hheld v n hr (by decide) rfl (by decide)).trans (by rw [if_neg (by omega)])
  · exact (exec_cqDoorbell hheld v hr).trans (by rw [if_neg (by omega)])
  · exact (exec_cqDoorbell hheld v hr).trans (by rw [if_pos hout])
  · exact (exec_sqDoorbell hheld v n hr hoff halign hcq).trans (by rw [if_pos hbad])

end Sys2Proof.Machine
end

section
/-! SUPPORT. The function level reset (R86, R395): what ending the commands and sessions of a record ring leaves, and the ring pairs that
are no longer enabled. -/

namespace Sys2Proof.Machine

/-! ### What the end of a command or session leaves -/

/-- What a function level reset leaves as it was: connections, tenants, span sets, transports and the fabric (R395). -/
def Dev.keptByFlr (d : Dev) : Table Conn × Table Tenant × Spn × List Tp × List Wr × Fab :=
  (d.rte.conns, d.rte.tenants, d.spn, d.tp, d.wr, d.fab)

@[simp] theorem Dev.keptByFlr_modCmd (d : Dev) (id : Nat) (f : Cmd → Cmd) : (d.modCmd id f).keptByFlr = d.keptByFlr := rfl
@[simp] theorem Dev.keptByFlr_modChunk (d : Dev) (id : Nat) (f : Chunk → Chunk) : (d.modChunk id f).keptByFlr = d.keptByFlr := rfl
@[simp] theorem Dev.keptByFlr_modSes (d : Dev) (n : Nat) (f : Session → Session) : (d.modSes n f).keptByFlr = d.keptByFlr := rfl
@[simp] theorem Dev.keptByFlr_postEvent (d : Dev) (c b i : Nat) (l : List Word64) : (d.postEvent c b i l).keptByFlr = d.keptByFlr := rfl

@[simp] theorem Dev.keptByFlr_releaseAll (d : Dev) (hs : List (BitVec 32)) (o : Nat) : (d.releaseAll hs o).keptByFlr = d.keptByFlr :=
  foldl_keeps (keep := Dev.keptByFlr) (g := fun d h => d.release h o) (fun _ _ => rfl) hs d

@[simp] theorem Dev.keptByFlr_withdrawOpen (d : Dev) (id : Nat) (drain : Bool) : (d.withdrawOpen id drain).keptByFlr = d.keptByFlr := by
  unfold Dev.withdrawOpen
  split
  · rfl
  · cases drain
    · exact (Dev.keptByFlr_releaseAll ..).trans (d.keptByFlr_modCmd ..)
    · rfl

@[simp] theorem Dev.keptByFlr_dropGrants (d : Dev) (id : Nat) : (d.dropGrants id).keptByFlr = d.keptByFlr :=
  (Dev.keptByFlr_releaseAll ..).trans rfl

@[simp] theorem Dev.keptByFlr_freeWindows (d : Dev) (id x keepTo : Nat) : (d.freeWindows id x keepTo).keptByFlr = d.keptByFlr := by
  unfold Dev.freeWindows
  split
  · rfl
  · exact (Dev.keptByFlr_releaseAll ..).trans (d.keptByFlr_modCmd ..)

@[simp] theorem Dev.keptByFlr_markTorn (d : Dev) (n ord : Nat) : (d.markTorn n ord).keptByFlr = d.keptByFlr := by
  unfold Dev.markTorn
  split
  · split <;> rfl
  · rfl

@[simp] theorem Dev.keptByFlr_failWrite (d : Dev) (id st : Nat) (void drain : Bool) :
    (d.failWrite id st void drain).keptByFlr = d.keptByFlr := by
  unfold Dev.failWrite
  split
  · rfl
  · split
    · rfl
    · dsimp only
      repeat' split
      all_goals simp

@[simp] theorem Dev.keptByFlr_orphanAll (d : Dev) (key : Nat) : (d.orphanAll key).keptByFlr = d.keptByFlr :=
  foldl_keeps (keep := Dev.keptByFlr) (fun d _ => (Dev.keptByFlr_modCmd ..).trans (d.keptByFlr_failWrite ..)) _ d

theorem Dev.keptByFlr_postPositions (d : Dev) (n : Nat) (es : List PosEntry) : (d.postPositions n es).keptByFlr = d.keptByFlr :=
  foldl_keeps (keep := Dev.keptByFlr) (fun d _ => d.keptByFlr_postEvent ..) es d

theorem Dev.keptByFlr_dropSession (d : Dev) (n : Nat) : (d.dropSession n).keptByFlr = d.keptByFlr := by
  unfold Dev.dropSession
  split
  · rfl
  · split
    · rfl
    · dsimp only
      split <;> simp [Dev.keptByFlr_postPositions]

@[simp] theorem Dev.keptByFlr_dropSessionsOf (d : Dev) (key : Nat) : (d.dropSessionsOf key).keptByFlr = d.keptByFlr :=
  foldl_keeps (keep := Dev.keptByFlr) Dev.keptByFlr_dropSession _ d

@[simp] theorem Dev.keptByFlr_freeDraining (d : Dev) (key : Nat) : (d.freeDraining key).keptByFlr = d.keptByFlr :=
  (Dev.keptByFlr_releaseAll ..).trans rfl

/-- The reset ends the commands and sessions of a record ring, and frees its windows, without a change of the rest. -/
theorem Dev.keptByFlr_flrRing (d : Dev) (r : Nat) : (d.flrRing r).keptByFlr = d.keptByFlr := by
  have hreports (ns : List Nat) (e : Dev) :
      (ns.foldl (fun d n => d.modSes n fun s => { s with report := true }) e).keptByFlr = e.keptByFlr :=
    foldl_keeps (keep := Dev.keptByFlr) (fun d n => d.keptByFlr_modSes n _) ns e
  exact (hreports _ _).trans (by simp)

/-! ### The ring pairs -/

/-- A flag cleared in some copies of its register reads 0 there. -/
theorem Dev.flag_foldl_clear {f : Fld} (hinj : Function.Injective f.reg.offset) (hfit : f.lo + f.width ≤ 32) (hone : f.width = 1)
    {rs : List Nat} {r : Nat} (hr : r ∈ rs) (d : Dev) : (rs.foldl (fun d i => d.setFlag f i false) d).flag f r = false := by
  induction rs using List.reverseRecOn with
  | nil => cases hr
  | append_singleton rs i ih =>
    rw [List.foldl_append]
    by_cases hi : r = i
    · exact hi ▸ Dev.flag_setFlag_self _ f r false hfit hone
    · exact (Dev.flag_setFlag_other _ _ (hinj.ne hi)).trans (ih ((List.mem_append.1 hr).resolve_right (by simpa using hi)))

theorem pciRingCfg_offset_injective : Function.Injective RegId.pciRingCfg.offset := by
  intro i j h
  have : 0x01101018 + i * 0x40 = 0x01101018 + j * 0x40 := h
  omega

/-- The device once the record rings have ended and no ring pair is enabled. -/
def Dev.flrStopped (d : Dev) : Dev :=
  (List.range 256).foldl (fun d r => d.setFlag Fld.pciRingCfgEn r false)
    (((List.range 256).filter fun r => d.ringKind r == 1).foldl Dev.flrRing d)

theorem Dev.flrStopped_disabled (d : Dev) {r : Nat} (hr : r < 256) : d.flrStopped.flag Fld.pciRingCfgEn r = false :=
  Dev.flag_foldl_clear pciRingCfg_offset_injective (by decide) rfl (List.mem_range.2 hr) _

theorem Dev.flrStopped_keptByFlr (d : Dev) : d.flrStopped.keptByFlr = d.keptByFlr :=
  (foldl_keeps (keep := Dev.keptByFlr) (g := fun d r => d.setFlag Fld.pciRingCfgEn r false) (fun _ _ => rfl) _ _).trans
    (foldl_keeps (keep := Dev.keptByFlr) Dev.keptByFlr_flrRing _ d)

/-- The reset stops the rings and then changes the control plane alone: no vector has a table word or a pending bit, and the admin
commands in progress have no completion. -/
theorem exec_functionLevelReset {s : State} (hheld : s.dev.coreHeld = false) :
    ∃ (e : Dev) (k : Ctl), exec .functionLevelReset s = .next (s.withDev { e with ctl := k }) ∧
      e.keptByFlr = s.dev.keptByFlr ∧ (∀ r, r < 256 → e.flag Fld.pciRingCfgEn r = false) ∧
      k.msixWords = [] ∧ k.msixPend = [] ∧ ∀ c ∈ k.admin, c.quiet = true := by
  refine ⟨s.dev.flrStopped, _, (nextDev_ok s _ hheld : execFunctionLevelReset s = _), s.dev.flrStopped_keptByFlr,
    fun r => s.dev.flrStopped_disabled, rfl, rfl, fun c hc => ?_⟩
  obtain ⟨a, -, rfl⟩ := List.mem_map.1 hc
  rfl

/-- A vector without a table word is masked (R482). -/
theorem Dev.vecMasked_of_no_words {d : Dev} (h : d.ctl.msixWords = []) (v : Nat) : d.vecMasked v = true := by
  rw [Dev.vecMasked, h]
  exact (by decide : bitOf (1#32).toNat 0 = true)

/-- Settles O22: ending a record ring's commands and sessions keeps `Dev.keptByFlr`, and the rest of the reset writes EN and the control
plane. -/
theorem functionLevelReset : Obligations.FunctionLevelReset := by
  intro s hheld
  obtain ⟨e, k, hexec, hkept, hoff, hwords, hpend, hquiet⟩ := exec_functionLevelReset hheld
  simp only [Dev.keptByFlr, Prod.mk.injEq] at hkept
  exact ⟨_, hexec, rfl, rfl, hoff, Dev.vecMasked_of_no_words hwords, hpend, hquiet, hkept⟩

end Sys2Proof.Machine
end

section
/-! SUPPORT. Firmware staging, activation and boot (R389, R393, R394): what a completion leaves of the control plane, and the rows of each. -/

namespace Sys2Proof.Machine

/-! ### What a completion leaves of the control plane -/

/-- The control plane without its rings and the pending bits of its vectors. -/
def Dev.ctlBesidesRings (d : Dev) : Ctl := { d.ctl with rings := [], msixPend := [] }

theorem Dev.ctlBesidesRings_modRing (d : Dev) (r : Nat) (f : Ring → Ring) : (d.modRing r f).ctlBesidesRings = d.ctlBesidesRings := rfl

theorem Dev.ctlBesidesRings_sendMsix (d : Dev) (v : Nat) : (d.sendMsix v).ctlBesidesRings = d.ctlBesidesRings := by
  unfold Dev.sendMsix
  split <;> rfl

theorem Dev.ctlBesidesRings_coalesce (d : Dev) (r : Nat) : (d.coalesce r).ctlBesidesRings = d.ctlBesidesRings := by
  unfold Dev.coalesce
  dsimp only
  split
  · exact (Dev.ctlBesidesRings_sendMsix ..).trans (d.ctlBesidesRings_modRing ..)
  · exact d.ctlBesidesRings_modRing ..

theorem Dev.ctlBesidesRings_writeCpl (d : Dev) (r n : Nat) (c : Cpl) : (d.writeCpl r n c).ctlBesidesRings = d.ctlBesidesRings := by
  unfold Dev.writeCpl
  dsimp only
  rw [Dev.ctlBesidesRings_coalesce]
  split <;> rfl

theorem Dev.ctlBesidesRings_postCpl (d : Dev) (r : Nat) (c : Cpl) : (d.postCpl r c).ctlBesidesRings = d.ctlBesidesRings := by
  unfold Dev.postCpl
  split
  · exact d.ctlBesidesRings_writeCpl ..
  · exact d.ctlBesidesRings_modRing ..

theorem Dev.ctlBesidesRings_adminDone (d : Dev) (tag : BitVec 16) (st info : Nat) :
    (d.adminDone tag st info).ctlBesidesRings = d.ctlBesidesRings := by
  unfold Dev.adminDone
  split
  · rfl
  · exact d.ctlBesidesRings_postCpl ..

/-- A completion leaves the staged image. -/
theorem Dev.adminDone_staged (d : Dev) (tag : BitVec 16) (st info : Nat) : (d.adminDone tag st info).ctl.staged = d.ctl.staged :=
  congrArg (·.staged) (d.ctlBesidesRings_adminDone tag st info)

/-! ### Staging (R393) -/

/-- A segment of one page goes to its place in the staged image. -/
theorem Dev.doFwStage_page (d : Dev) {x : List Byte} (y : List Byte) (halign : leAt x 8 4 % 4096 = 0) (hlen : leAt x 12 4 = 4096)
    (hfits : leAt x 8 4 + 4096 ≤ imageMax) :
    (d.doFwStage x y).ctl.staged = tput d.ctl.staged (leAt x 8 4 / 4096) (padTo 4096 (slice y 0 4096)) := by
  have hargs : ¬ (leAt x 8 4 % 4096 ≠ 0 ∨ leAt x 12 4 % 4096 ≠ 0 ∨ imageMax < leAt x 8 4 + leAt x 12 4) := by omega
  rw [Dev.doFwStage, if_neg hargs, Dev.adminDone_staged, hlen]
  rfl

theorem Dev.doFwStage_misaligned (d : Dev) {x : List Byte} (y : List Byte) (h : leAt x 8 4 % 4096 ≠ 0) :
    d.doFwStage x y = d.adminDone (capTag x) 0x11 0 := if_pos (.inl h)

/-! ### Boot (R389) -/

/-- The device once a boot image has been accepted: the cores run it, and restore the voltage offset (R440). -/
def Dev.booted (d : Dev) (img : List Byte) : Dev :=
  ((d.setFld Fld.ctlBootStatState 0 2).setFld Fld.ctlFwVerVersion 0 (Config.imageVersion img).toNat).setFld Fld.hltAvsStatOffset 0
    (min 10 d.replanOffset)

theorem Dev.booted_state (d : Dev) (img : List Byte) : (d.booted img).fld Fld.ctlBootStatState = 2 := by
  rw [Dev.booted, Dev.fld_setFld_other _ _ (by decide), Dev.fld_setFld_other _ _ (by decide), Dev.fld_setFld_self _ _ _ _ (by decide)]
  rfl

theorem Dev.booted_version (d : Dev) (img : List Byte) :
    (d.booted img).fld Fld.ctlFwVerVersion = (Config.imageVersion img).toNat := by
  rw [Dev.booted, Dev.fld_setFld_other _ _ (by decide), Dev.fld_setFld_self _ _ _ _ (by decide)]
  exact Nat.mod_eq_of_lt (Config.imageVersion img).isLt

/-- Boot writes registers alone. -/
theorem Dev.booted_regs (d : Dev) (img : List Byte) : d.booted img = { d with regs := (d.booted img).regs } :=
  Dev.eq_withRegs (by simp only [Dev.booted, Dev.besidesRegs_setFld])

/-! ### The rows -/

section Rows
variable {s : State} (hheld : s.dev.coreHeld = false)
include hheld

section Activating
variable {v : BitVec 32} {tag : BitVec 16} {since : Nat} (hact : s.dev.ctl.activating = some (v, tag, since))
include hact

theorem exec_fwActivated (hdue : s.dev.clk ≤ since + activateTicks) : exec .fwActivated s = .next (s.withHd (activationEnd (s.hbm,
    ((s.dev.setFld Fld.ctlFwVerVersion 0 v.toNat).postBoth 0x15 blkCtl 0 [item (s.dev.fld Fld.ctlFwVerVersion), item v.toNat]).adminEnd
      tag 0x00 v.toNat))) := by
  refine (nextHd_of_eq hheld ?_ : execFwActivated s = _)
  simp only [hact, if_pos hdue]
  rfl

theorem exec_fwActFail {core : Nat} (hdue : since + activateTicks ≤ s.dev.clk) (hcore : core < 16) : exec (.fwActFail core) s =
    let d := s.dev.postBoth 0x16 blkCtl 0 [item v.toNat, item core]
    .next (s.withHd (activationEnd (s.hbm, (d.adminEnd tag (1 + d.fresh.toNat % 255) 0).spend))) := by
  refine (nextHd_of_eq hheld ?_ : execFwActFail core s = _)
  simp only [hact, if_pos (And.intro hdue hcore)]

theorem exec_fwActFail_early (core : Nat) (hearly : s.dev.clk < since + activateTicks) : exec (.fwActFail core) s = .next s := by
  refine (nextHd_of_eq hheld (e := (s.hbm, s.dev)) ?_ : execFwActFail core s = _)
  simp only [hact, if_neg (fun h : _ ∧ _ => absurd h.1 (Nat.not_le.2 hearly))]

end Activating

theorem exec_fwActivated_idle (hact : s.dev.ctl.activating = none) : exec .fwActivated s = .next s := by
  refine (nextHd_of_eq hheld (e := (s.hbm, s.dev)) ?_ : execFwActivated s = _)
  simp only [hact]

theorem exec_fwActFail_idle (hact : s.dev.ctl.activating = none) (core : Nat) : exec (.fwActFail core) s = .next s := by
  refine (nextHd_of_eq hheld (e := (s.hbm, s.dev)) ?_ : execFwActFail core s = _)
  simp only [hact]

theorem exec_bootLoaded_idle (img : List Byte) (h : s.dev.fld Fld.ctlBootStatState ≠ 1) : exec (.bootLoaded img) s = .next s :=
  (nextDev_ok s _ hheld : execBootLoaded img s = _).trans (by rw [if_pos h])

/-- The image that has come while the cores wait for it. -/
theorem exec_bootLoaded (img : List Byte) (h : s.dev.fld Fld.ctlBootStatState = 1) : exec (.bootLoaded img) s = .next (s.withDev (
    if img.length = s.dev.fld Fld.ctlBootLenBytes ∧ img.length ≤ imageMax ∧ Config.imageOk img = true then s.dev.booted img
    else s.dev.setFld Fld.ctlBootStatState 0 3)) :=
  (nextDev_ok s _ hheld : execBootLoaded img s = _).trans (by rw [if_neg (not_not.2 h)]; rfl)

end Rows

/-- Settles O53: a page of a segment is one entry of the staged image, which its completion leaves; an activation ends by whether the
2,500th tick has been reached, and a boot image by its length and content. The status of a failed activation is a free value other than 0,
the model's choice (log entry 121). -/
theorem firmwareAndBoot : Obligations.FirmwareAndBoot := by
  intro s hheld
  refine ⟨fun x y halign hlen hfits => ?_, fun x y => s.dev.doFwStage_misaligned y, fun v tag since hact => ?_, fun hact => ?_,
    fun img => exec_bootLoaded_idle hheld img, fun img hwaits => ?_⟩
  · rw [s.dev.doFwStage_page y halign hlen hfits]
    exact ⟨tget_tput_self .., fun i hi => tget_tput_other _ _ hi⟩
  · exact ⟨exec_fwActivated hheld hact, fun core hcore hdue => exec_fwActFail hheld hact hdue hcore,
      fun core => exec_fwActFail_early hheld hact core⟩
  · exact ⟨exec_fwActivated_idle hheld hact, exec_fwActFail_idle hheld hact⟩
  · refine ⟨_, exec_bootLoaded hheld img hwaits, rfl, rfl, ?_⟩
    split
    · exact ⟨s.dev.booted_regs img, s.dev.booted_state img, s.dev.booted_version img⟩
    · exact ⟨rfl, Dev.fld_setFld_self s.dev Fld.ctlBootStatState 0 3 (by decide)⟩

end Sys2Proof.Machine
end

section
/-! SUPPORT. Cartridge commands (R387, R390, R391): each outcome of MOUNT, INIT-CARTRIDGE and DISMOUNT when it begins, and the end of a
MOUNT whose claim is not granted. -/

namespace Sys2Proof.Machine

/-! ### MOUNT (R390) -/

/-- The admin command that a MOUNT begins as. -/
def mountCmd (x : List Byte) : AdminCmd :=
  { tag := capTag x, op := 0x31, a := leAt x 8 1, b := leAt x 9 1, c := leAt x 10 1, addr := BitVec.ofNat 64 (leAt x 16 8), stage := 1, desc := x }

section Mount
variable {d : Dev} {x : List Byte} {sp : Span} (hlocked : d.locked = true) (htp : leAt x 8 1 < 8) (hslot : leAt x 9 1 < 16)
  (hmode : leAt x 11 1 < 2) (hsp : d.spanAt (leAt x 9 1) = some sp)
  (hmember : (sp.desc.members[leAt x 10 1]?).bind d.entryLocal = some (leAt x 8 1)) (hfree : (d.tpAt (leAt x 8 1)).mounted = none)
  (hstays : sp.dismount = false)
include hlocked htp hslot hmode hsp hmember hfree hstays

/-- A MOUNT of a member on its own free transport turns on whether the transport is usable, and on the member's identity if not. -/
theorem Dev.doMount_free : d.doMount x =
    if ! d.tpUsable (leAt x 8 1) then
      (if sp.writing ∧ d.flag Fld.tpLinkStatUp (leAt x 8 1) ∧ ! d.flag Fld.tpLinkStatIdOk (leAt x 8 1) then
        d.memberFail (leAt x 9 1) (leAt x 10 1) 4 else d).adminDone (capTag x) 0x53 0
    else (d.readVols (leAt x 8 1)).adminBegin (mountCmd x) := by
  have hargs : ¬ (8 ≤ leAt x 8 1 ∨ spanSlots ≤ leAt x 9 1 ∨ 2 ≤ leAt x 11 1) := by
    rintro (h | h | h)
    · omega
    · exact Nat.not_le.2 hslot h
    · omega
  have hmay : ¬ ((d.tpAt (leAt x 8 1)).mounted.isSome ∨ sp.dismount) := by simp [hfree, hstays]
  simp only [Dev.doMount, if_neg hargs, hlocked, Bool.not_true, Bool.false_eq_true, if_false, hsp, hmember, ne_eq, not_true_eq_false,
    if_neg hmay]
  rfl

theorem Dev.doMount_usable (husable : d.tpUsable (leAt x 8 1) = true) :
    d.doMount x = (d.readVols (leAt x 8 1)).adminBegin (mountCmd x) :=
  (Dev.doMount_free hlocked htp hslot hmode hsp hmember hfree hstays).trans (if_neg (by simp [husable]))

theorem Dev.doMount_unusable (husable : d.tpUsable (leAt x 8 1) = false) (hwriting : sp.writing = false) :
    d.doMount x = d.adminDone (capTag x) 0x53 0 := by
  rw [Dev.doMount_free hlocked htp hslot hmode hsp hmember hfree hstays, if_pos (by simp [husable]), if_neg (by simp [hwriting])]

end Mount

section ClaimTimeout
variable {s : State} {n : Nat} {c : AdminCmd} (hheld : s.dev.coreHeld = false)
  (hfind : s.dev.ctl.admin.find? (fun c => c.op == 0x31 && c.stage == 2 && c.a == n) = some c)
include hheld hfind

theorem exec_mountClaimTimeout : exec (.mountClaimTimeout n) s = .next (s.withDev (
    if c.since + 8 ≤ s.dev.clk ∧ ! s.dev.flag Fld.tpLinkStatOwner n ∧ s.dev.ctl.activating.isNone then
      (s.dev.setFlag Fld.tpTokenClaim n false).mountFail c 0x53
    else s.dev)) := by
  refine (nextDev_ok s _ hheld : execMountClaimTimeout n s = _).trans ?_
  simp only [hfind]
  rfl

theorem exec_mountClaimTimeout_due (hdue : c.since + 8 ≤ s.dev.clk) (howner : s.dev.flag Fld.tpLinkStatOwner n = false)
    (hcalm : s.dev.ctl.activating = none) :
    exec (.mountClaimTimeout n) s = .next (s.withDev ((s.dev.setFlag Fld.tpTokenClaim n false).mountFail c 0x53)) := by
  rw [exec_mountClaimTimeout hheld hfind, if_pos ⟨hdue, by rw [howner]; rfl, by rw [hcalm]; rfl⟩]

theorem exec_mountClaimTimeout_waits
    (h : s.dev.clk < c.since + 8 ∨ s.dev.flag Fld.tpLinkStatOwner n = true ∨ s.dev.ctl.activating.isSome = true) :
    exec (.mountClaimTimeout n) s = .next s := by
  rw [exec_mountClaimTimeout hheld hfind, if_neg]
  rintro ⟨hdue, howner, hcalm⟩
  rcases h with h | h | h
  · omega
  · simp [h] at howner
  · rw [Option.isNone_iff_eq_none.1 hcalm] at h
    cases h

end ClaimTimeout

/-! ### INIT-CARTRIDGE (R387) -/

section Init
variable {d : Dev} {x : List Byte} (htp : leAt x 8 1 < 8) (hshape : shapeOk (leAt x 24 1) (leAt x 25 1) = true)
  (hmember : leAt x 9 1 < leAt x 24 1 + leAt x 25 1) (hfree : (d.tpAt (leAt x 8 1)).mounted = none)
  (hcart : d.flag Fld.tpLinkStatCart (leAt x 8 1) = true) (hup : d.flag Fld.tpLinkStatUp (leAt x 8 1) = true)
  (hid : d.flag Fld.tpLinkStatIdOk (leAt x 8 1) = true)
include htp hshape hmember hfree hcart hup hid

/-- INIT-CARTRIDGE of a cartridge on a free transport turns on its volume identifier (R387). -/
theorem Dev.doInitCartridge_free : d.doInitCartridge x =
    if leAt x 16 8 = 0 ∨ leAt x 16 8 = 2 ^ 64 - 1 then d.adminDone (capTag x) 0x50 0
    else ((d.claim (leAt x 8 1)).readVols (leAt x 8 1)).adminBegin { tag := capTag x, op := 0x30, a := leAt x 8 1, stage := 1, desc := x } := by
  have hargs : ¬ (8 ≤ leAt x 8 1 ∨ ! shapeOk (leAt x 24 1) (leAt x 25 1) ∨ leAt x 24 1 + leAt x 25 1 ≤ leAt x 9 1) := by
    rintro (h | h | h)
    · omega
    · simp [hshape] at h
    · omega
  have hmay : ¬ ((d.tpAt (leAt x 8 1)).mounted.isSome ∨ ! d.flag Fld.tpLinkStatCart (leAt x 8 1)) := by simp [hfree, hcart]
  have hlink : ¬ (! d.flag Fld.tpLinkStatUp (leAt x 8 1) ∨ ! d.flag Fld.tpLinkStatIdOk (leAt x 8 1)) := by simp [hup, hid]
  simp only [Dev.doInitCartridge, if_neg hargs, if_neg hmay, if_neg hlink]
  rfl

end Init

/-! ### DISMOUNT (R391) -/

/-- A span set once its DISMOUNT has begun: the open row is to close, and a rebuild ends. -/
def Span.dismounting (x : Span) : Span := { x with dismount := true, rebuild := none, closeReq := true }

/-- Where no shape change is being prepared, there is none to cancel (R322). -/
theorem Dev.spanAt_shapeCancel {d : Dev} {slot : Nat} {x : Span} (hx : d.spanAt slot = some x) (hphase : x.phase ≠ 1) :
    (d.shapeCancel slot).spanAt slot = some x := by
  rw [Dev.shapeCancel, Dev.spanAt_modSpan, hx, Option.map_some, if_neg hphase]

section Dismount
variable {d : Dev} {x : List Byte} {sp : Span} (hlocked : d.locked = true) (hslot : leAt x 8 1 < 16) (hsp : d.spanAt (leAt x 8 1) = some sp)
include hslot hsp

theorem Dev.doDismount_open (hopen : d.writeSessions sp = true) : d.doDismount x = d.adminDone (capTag x) 0x51 0 := by
  simp only [Dev.doDismount, if_neg (show ¬ spanSlots ≤ leAt x 8 1 from Nat.not_le.2 hslot), hsp, hopen, or_true, if_true]
  rfl

include hlocked

/-- A DISMOUNT of a mounted span set that no write session uses begins. -/
theorem Dev.doDismount_begins (hopen : d.writeSessions sp = false) (hmounted : sp.isMounted = true) (hstays : sp.dismount = false) :
    d.doDismount x = ((d.modSpan (leAt x 8 1) Span.dismounting).shapeCancel (leAt x 8 1)).adminBegin
      { tag := capTag x, op := 0x32, b := leAt x 8 1, stage := 1, desc := x } := by
  have hmay : ¬ (! d.locked ∨ ! sp.isMounted ∨ sp.dismount ∨ d.writeSessions sp) := by simp [hlocked, hmounted, hstays, hopen]
  simp only [Dev.doDismount, if_neg (show ¬ spanSlots ≤ leAt x 8 1 from Nat.not_le.2 hslot), hsp, if_neg hmay]
  rfl

end Dismount

/-- Settles O52: each command's outcome is the branch of its rule that the transport and the span set fall into, and a MOUNT's claim lapses
exactly when its 8 ticks have passed without an owner or an activation. That INIT-CARTRIDGE claims its transport is the model's choice (log
entry 78). -/
theorem cartridgeCommands : Obligations.CartridgeCommands := by
  intro s x sp hheld hlocked
  refine ⟨fun htp hslot hmode hsp hmember hfree hstays => ?mount, fun htp hshape hmember hfree hcart hup hid => ?init,
    fun n c hfind => ?claim, fun hslot hsp => ?dismount⟩
  case mount =>
    exact ⟨Dev.doMount_usable hlocked htp hslot hmode hsp hmember hfree hstays,
      Dev.doMount_unusable hlocked htp hslot hmode hsp hmember hfree hstays⟩
  case init =>
    have hinit := Dev.doInitCartridge_free htp hshape hmember hfree hcart hup hid
    exact ⟨fun hzero => hinit.trans (if_pos (.inl hzero)), fun hzero hones => hinit.trans (if_neg (not_or.2 ⟨hzero, hones⟩))⟩
  case claim => exact ⟨exec_mountClaimTimeout_due hheld hfind, exec_mountClaimTimeout_waits hheld hfind⟩
  case dismount =>
    refine ⟨Dev.doDismount_open hslot hsp, fun hopen hmounted hstays hphase => ?_⟩
    rw [Dev.doDismount_begins hlocked hslot hsp hopen hmounted hstays]
    have hspan : ((s.dev.modSpan (leAt x 8 1) Span.dismounting).shapeCancel (leAt x 8 1)).spanAt (leAt x 8 1) = some sp.dismounting :=
      Dev.spanAt_shapeCancel (by rw [Dev.spanAt_modSpan, hsp]; rfl) hphase
    exact ⟨_, rfl, rfl, rfl, rfl, rfl, congrArg (Option.map Span.dismount) hspan, congrArg (Option.map Span.closeReq) hspan⟩

end Sys2Proof.Machine
end

section
/-! SUPPORT. Who takes a command: the TAP before and after the lock (R13, R443), a held core and a device without VAON (R428, R444, R467). -/

namespace Sys2Proof.Machine

/-! ### TAP instructions -/

section Tap

variable {s : State} {i : TapInstr} (hheld : s.dev.coreHeld = false)
include hheld

theorem exec_tapInstructionLoad_honoured (h : s.dev.locked = false ∨ tapDrives i = false) :
    exec (.tapInstructionLoad i) s = .next { s with dev := { s.dev with age := { s.dev.age with tap := i } } } := by
  refine (nextDev_of_eq hheld (if_neg ?_) : execTapInstructionLoad i s = _)
  rintro ⟨hlocked, hdrives⟩
  rcases h with h | h <;> simp [h] at hlocked hdrives

theorem exec_tapInstructionLoad_refused (hlocked : s.dev.locked = true) (hdrives : tapDrives i = true) :
    exec (.tapInstructionLoad i) s = .next { s with dev := { s.dev with age := { s.dev.age with tap := .bypass, refused := true } } } :=
  (nextDev_of_eq hheld (if_pos ⟨hlocked, hdrives⟩) : execTapInstructionLoad i s = _)

end Tap

theorem tapDrives_of_mem {i : TapInstr} (h : i ∈ [TapInstr.extest, .extestPulse, .extestTrain, .clamp, .highz]) : tapDrives i = true := by
  cases i <;> simp [tapDrives] at h ⊢

theorem not_tapDrives_of_mem {i : TapInstr} (h : i ∈ [TapInstr.bypass, .idcode, .samplePreload]) : tapDrives i = false := by
  cases i <;> simp [tapDrives] at h ⊢

/-- A refusal that the tick has noted sets HLT_TEST_STAT.REFUSED (R443). -/
theorem Dev.testRefused_flag {d : Dev} (h : d.age.refused = true) : d.testRefused.flag Fld.hltTestStatRefused = true := by
  rw [Dev.testRefused_of_refused h]
  exact Dev.flag_setFlag_true _ _ _ (by decide) rfl

/-- Settles O19: the instructions that drive pins are those that the lock takes away, and the boundary shows the refusal last. -/
theorem tapInstructionsAfterLock : Obligations.TapInstructionsAfterLock := by
  intro s i hheld
  refine ⟨fun h => exec_tapInstructionLoad_honoured hheld (h.imp_right not_tapDrives_of_mem), fun hlocked hi => ?_⟩
  exact ⟨_, exec_tapInstructionLoad_refused hheld hlocked (tapDrives_of_mem hi), rfl, Dev.testRefused_flag rfl, rfl⟩

/-! ### A held core, and a device without VAON -/

/-- Every row that is not of the always-on domain runs over the device, or over memory and device, of a core that is not held; the two
rows that name a word of memory may fault instead. -/
theorem exec_of_held {c : Instr} {s t : State} (hheld : s.dev.coreHeld = true) (hc : c.alwaysOn = false) (h : exec c s = .next t) :
    t = s := by
  cases c
  case tickBoundary | smbStatus | smbCellarSelect | smbCellarRead | smbResetWarm | smbResetCold | smbClearPin | cellarScanDone
      | powerFail | thermalTrip | supplyFault | powerUp | powerDown | coldReset | warmReset | resetRelease => cases hc
  case mashWriteOut w | payloadWordRefetch w _ =>
    by_cases hw : hbmWords ≤ w
    · cases (if_pos hw).symm.trans h
    · exact Host.Outcome.next.inj ((((if_neg hw).symm.trans h).symm).trans (nextHd_held s _ hheld))
  case openSession | closeSession | writeRecords | writeMark | sync | readRecords | locateHint | querySession | querySlots | abort
      | rdmaWrite | rdmaWriteWithImmediate | pushData | pushDataDmaComplete | chunkFill | chunkSeal | chunkRefetch | commandAdmission
      | createConn | destroyConn | bindRing | setTenant | fill | cellarRead | spanLoad | spanMap | spanListLoss | spanListSuspect
      | spanListRowMap | spanUnload | rebuild | rebuildRow | shapeChangeStart | shapeChangeCancel | initCartridge | mount | dismount
      | capsuleOpcodeInvalid | fwStage | fwActivate | fwActivated | fwActFail | pairResync =>
    obtain rfl := Host.Outcome.next.inj h
    exact congrArg s.withHd (if_pos hheld)
  all_goals
    obtain rfl := Host.Outcome.next.inj h
    exact congrArg s.withDev (if_pos hheld)

/-- The rows of the always-on domain run while VAON is applied; only the rise of VAON acts without it. -/
theorem exec_of_dark {c : Instr} {s t : State} (hdark : s.dev.hlt.vaon = false) (hc : c.alwaysOn = true)
    (hrise : ∀ k, c ≠ .powerUp k) (h : exec c s = .next t) : t = s := by
  cases c
  case powerUp k => exact absurd rfl (hrise k)
  case tickBoundary i => exact Host.Outcome.next.inj (h.symm.trans ((tickBoundaries i s).1 hdark))
  case smbStatus | smbCellarSelect | smbCellarRead | smbResetWarm | smbResetCold | smbClearPin | cellarScanDone | powerFail
      | thermalTrip | supplyFault | powerDown | coldReset | warmReset | resetRelease =>
    obtain rfl := Host.Outcome.next.inj h
    exact congrArg s.withDev (if_neg (by simp [hdark]))
  all_goals cases hc

/-- Settles O6: the outcome of each row asks for the core, or for VAON, before its meaning. -/
theorem heldOrUnpoweredTakesNothing : Obligations.HeldOrUnpoweredTakesNothing :=
  ⟨fun _ _ _ => exec_of_held, fun _ _ _ => exec_of_dark⟩

end Sys2Proof.Machine
end

section
/-! SUPPORT. The always-on domain's rows: SMBus (R429, R430), the cellar log's pinned region (R434), warnings, supplies and the reset pin
(R444, R464, R467, R470, R477). -/

namespace Sys2Proof.Machine

/-! ### SMBus -/

theorem tget_filter_of_true {α : Type} (t : Table α) {p : Nat → Bool} {k : Nat} (hk : p k = true) :
    tget (t.filter fun x => p x.1) k = tget t k := by
  rw [tget, tget, List.find?_filter]
  congr 2
  funext x
  by_cases hx : x.1 = k
  · simp [hx, hk]
  · simp [hx]

theorem tget_filter_of_false {α : Type} (t : Table α) {p : Nat → Bool} {k : Nat} (hk : p k = false) :
    tget (t.filter fun x => p x.1) k = none := by
  rw [tget, List.find?_eq_none.2, Option.map_none]
  intro x hx hxk
  rw [List.mem_filter, eq_of_beq hxk, hk] at hx
  cases hx.2

/-- The device once the pinned region of the cellar MRAM has been emptied (R434). -/
def Dev.clearPins (d : Dev) : Dev :=
  ({ d with hlt := { d.hlt with mram := d.hlt.mram.filter fun x => decide (mainFirst ≤ x.1) } } : Dev).setFld Fld.hltCellarStatPinned 0 0

theorem Dev.clearPins_mram_pinned (d : Dev) {i : Nat} (h : i < 4096) : tget d.clearPins.hlt.mram i = none :=
  tget_filter_of_false (p := fun i => decide (mainFirst ≤ i)) d.hlt.mram (decide_eq_false (Nat.not_le.2 h))

theorem Dev.clearPins_mram_main (d : Dev) {i : Nat} (h : 4096 ≤ i) : tget d.clearPins.hlt.mram i = tget d.hlt.mram i :=
  tget_filter_of_true (p := fun i => decide (mainFirst ≤ i)) d.hlt.mram (decide_eq_true h)

theorem Dev.clearPins_used (d : Dev) : d.clearPins.fld Fld.hltCellarStatPinned = 0 := Dev.fld_setFld_self _ _ _ _ (by decide)

section Smbus

variable {s : State} (hvaon : s.dev.hlt.vaon = true)
include hvaon

theorem exec_smbClearPin (v : BitVec 8) : exec (.smbClearPin v true) s =
    .next (s.withDev ((if v = 0xC1#8 ∧ ! s.dev.hlt.resetN then s.dev.clearPins else s.dev).emit .smbAck)) :=
  (nextAon_ok s _ hvaon : execSmbClearPin v true s = _)

/-- A read that does not end the record moves the offset on (R430). -/
theorem exec_smbCellarRead_within (h : s.dev.hlt.smbOff < 224) : exec .smbCellarRead s = .next { s with dev := { s.dev with
    hlt := { s.dev.hlt with smbOff := s.dev.hlt.smbOff + 32 }
    out := .smbData (slice (s.dev.cellarRec s.dev.hlt.smbIndex) s.dev.hlt.smbOff 32) :: s.dev.out } } := by
  refine (nextAon_ok s _ hvaon : execSmbCellarRead s = _).trans ?_
  simp only [decide_eq_false (Nat.not_le.2 h)]
  rfl

/-- A read that ends the record moves on to the next one, with wrap (R430). -/
theorem exec_smbCellarRead_last (h : s.dev.hlt.smbOff = 224) : exec .smbCellarRead s = .next { s with dev := { s.dev with
    hlt := { s.dev.hlt with smbOff := 0, smbIndex := (s.dev.hlt.smbIndex + 1) % 65536 }
    out := .smbData (slice (s.dev.cellarRec s.dev.hlt.smbIndex) 224 32) :: s.dev.out } } := by
  refine (nextAon_ok s _ hvaon : execSmbCellarRead s = _).trans ?_
  simp only [h]
  rfl

theorem exec_smbWrite_bad {c : Instr} (hc : c ∈ [Instr.smbCellarSelect 0 false, .smbResetWarm false, .smbResetCold false, .smbClearPin 0xC1 false]) :
    exec c s = .next { s with dev := { s.dev with out := .smbNack :: s.dev.out } } := by
  simp only [List.mem_cons, List.not_mem_nil, or_false] at hc
  rcases hc with rfl | rfl | rfl | rfl
  · exact (nextAon_ok s _ hvaon : execSmbCellarSelect 0 false s = _)
  · exact (nextAon_ok s _ hvaon : execSmbResetWarm false s = _)
  · exact (nextAon_ok s _ hvaon : execSmbResetCold false s = _)
  · exact (nextAon_ok s _ hvaon : execSmbClearPin 0xC1 false s = _)

end Smbus

/-- Settles O16: each command is its row's effect while VAON is applied, and CLEAR_PIN keeps of the MRAM what its filter keeps. -/
theorem smbusCommands : Obligations.SmbusCommands := by
  refine ⟨fun s hvaon => ⟨?status, fun i => ?select, exec_smbCellarRead_within hvaon, exec_smbCellarRead_last hvaon, ?warm, ?cold,
    fun c => exec_smbWrite_bad hvaon⟩, fun s v hvaon => ⟨fun hv hlow => ?_, fun h => ?_⟩⟩
  case status => exact (nextAon_ok s _ hvaon : execSmbStatus s = _)
  case select => exact (nextAon_ok s _ hvaon : execSmbCellarSelect i true s = _)
  case warm => exact (nextAon_ok s _ hvaon : execSmbResetWarm true s = _)
  case cold => exact (nextAon_ok s _ hvaon : execSmbResetCold true s = _)
  · refine ⟨_, exec_smbClearPin hvaon v, ?_⟩
    rw [if_pos ⟨hv, by simp [hlow]⟩]
    exact ⟨rfl, rfl, rfl, fun i => s.dev.clearPins_mram_pinned, fun i => s.dev.clearPins_mram_main, s.dev.clearPins_used⟩
  · rw [exec_smbClearPin hvaon, if_neg]
    · rfl
    · rintro ⟨hv, hlow⟩
      rcases h with h | h
      · exact h hv
      · simp [h] at hlow

/-! ### Warnings, supplies and the reset pin -/

/-- The supply that a fault names: one that an earlier fault has named stays (R464). -/
def Dev.faultNamed (d : Dev) (n : Nat) : Nat :=
  match d.pins.reqTrip with
  | some (7, k) => k
  | _ => n

theorem Dev.faultNamed_first {d : Dev} (n : Nat) (h : ∀ k, d.pins.reqTrip ≠ some (7, k)) : d.faultNamed n = n := by
  unfold Dev.faultNamed
  split
  case h_1 k hk => exact absurd hk (h k)
  case h_2 => rfl

theorem Dev.faultNamed_again {d : Dev} (n : Nat) {k : Nat} (h : d.pins.reqTrip = some (7, k)) : d.faultNamed n = k := by
  simp only [Dev.faultNamed, h]

/-- With RESET_N low the bypass switches are closed, whatever VCORE is (R444). -/
theorem Dev.setBypass_of_low {d : Dev} (h : d.hlt.resetN = false) : d.setBypass = { d with pins := { d.pins with bypass := true } } := by
  rw [Dev.setBypass, h, Bool.not_false, Bool.or_true]

section Supplies

variable {s : State} (hvaon : s.dev.hlt.vaon = true)
include hvaon

theorem exec_supplyFault {n : Nat} (hlow : 1 ≤ n) (hhigh : n ≤ 5) : exec (.supplyFault n) s = .next { s with dev := { s.dev with
    hlt := { s.dev.hlt with vcore := s.dev.hlt.vcore && n != 1 }
    pins := { s.dev.pins with
      reqTrip := some (7, s.dev.faultNamed n), faulted := true, bypass := ! (s.dev.hlt.vcore && n != 1) || ! s.dev.hlt.resetN } } } := by
  refine (nextAon_ok s _ hvaon : execSupplyFault n s = _).trans ?_
  rw [if_neg (by omega)]
  rfl

/-- Only the first fall of PWR_FAIL_N is noted (R470). -/
theorem exec_powerFail : exec .powerFail s = .next (s.withDev (if s.dev.pins.pfTaken ∨ s.dev.pins.pfAt.isSome then s.dev
    else { s.dev with pins := { s.dev.pins with pfAt := some s.dev.tick.toNat } })) :=
  (nextAon_ok s _ hvaon : execPowerFail s = _)

theorem exec_thermalTrip (hhot : 2 ≤ s.dev.pins.hotTicks) : exec .thermalTrip s = .next { s with dev := { s.dev with
    pins := { s.dev.pins with tripped := true, thermN := false, reqTrip := some (s.dev.pins.reqTrip.getD (6, 0)) } } } := by
  refine (nextAon_ok s _ hvaon : execThermalTrip s = _).trans ?_
  rw [if_pos hhot]

end Supplies

/-- A supply fault holds the core in reset until the supplies are in range again (R464). -/
theorem Dev.resetRelease_of_faulted {d : Dev} (h : d.pins.faulted = true) : d.resetRelease = d := by
  rw [Dev.resetRelease, if_neg (by simp [h])]

/-- Settles O17: each row is its pin's effect while VAON is applied, and sets the bypass switches from VCORE and RESET_N. That a supply fault's
name stands over a thermal trip's is the model's choice (log entries 136 and 143). -/
theorem warningsSuppliesAndResetPins : Obligations.WarningsSuppliesAndResetPins := by
  refine ⟨fun s hvaon => ⟨fun htaken hat => ?_, fun h => ?_, exec_thermalTrip hvaon⟩,
    fun s hvaon => ⟨fun k => ?cold, ?warm, ?release, ?down, fun n hlow hhigh hfirst => ?_, fun n k hlow hhigh hnamed => ?_⟩,
    fun d _ hfault => Dev.resetRelease_of_faulted hfault⟩
  · rw [exec_powerFail hvaon, if_neg (by simp [htaken, hat])]
  · rw [exec_powerFail hvaon, if_pos h]
  case cold =>
    refine (nextAon_ok s _ hvaon : execColdReset k s = _).trans ?_
    rw [Dev.setBypass_of_low rfl]
  case warm =>
    refine (nextAon_ok s _ hvaon : execWarmReset s = _).trans ?_
    rw [Dev.setBypass_of_low rfl]
  case release => exact (nextAon_ok s _ hvaon : execResetRelease s = _)
  case down => exact (nextAon_ok s _ hvaon : execPowerDown s = _)
  · rw [exec_supplyFault hvaon hlow hhigh, Dev.faultNamed_first n hfirst]
  · rw [← Dev.faultNamed_again n hnamed]
    exact ⟨_, exec_supplyFault hvaon hlow hhigh, rfl, rfl, rfl⟩

end Sys2Proof.Machine
end

section
/-! SUPPORT. The sideband chain (R446, R447). -/

namespace Sys2Proof.Machine

/-- The own frame names the device by its serial number and its fabric address: no working field of the chain is part of it. -/
theorem Dev.sbDevice_congr {d e : Dev} (pos : Nat) (hlocked : e.locked = d.locked) (haddr : e.fld Fld.fabCfgAddr = d.fld Fld.fabCfgAddr) :
    e.sbDevice pos = d.sbDevice pos := by
  rw [Dev.sbDevice, Dev.sbDevice, hlocked, haddr]

theorem Dev.sbDevice_setStatPos (d : Dev) (n pos : Nat) : (d.setFld Fld.hltSbStatPos 0 n).sbDevice pos = d.sbDevice pos := by
  refine Dev.sbDevice_congr pos ?_ (Dev.fld_setFld_other _ _ (by decide))
  rw [Dev.locked, Dev.flag, Dev.fld_setFld_other _ _ (by decide)]
  rfl

/-- What the chain has heard of END is no part of the own frame. -/
theorem Dev.sbDevice_setLast (d : Dev) (l : Option (Nat × Nat)) (pos : Nat) :
    ({ d with age := { d.age with sbLast := l } } : Dev).sbDevice pos = d.sbDevice pos := Dev.sbDevice_congr pos rfl rfl

theorem Dev.sbSend_out (d : Dev) (pos count : Nat) :
    (d.sbSend pos count).out = .sideband (sbEnd count) :: .sideband (d.sbDevice pos) :: d.out := rfl

section Rows

variable {s : State} {bs : List Byte} (hheld : s.dev.coreHeld = false)
include hheld

theorem exec_sbHeadSend (hhead : s.dev.flag Fld.hltSbCfgHead = true) (hdue : s.dev.age.sbNextHead ≤ s.dev.clk) :
    exec .sbHeadSend s = .next { s with dev := { s.dev with
      age := { s.dev.age with sbNextHead := s.dev.clk + 50000 }
      out := .sideband (sbEnd 1) :: .sideband (s.dev.sbDevice 0) :: s.dev.out } } := by
  refine (nextDev_ok s _ hheld : execSbHeadSend s = _).trans ?_
  rw [if_pos ⟨hhead, hdue⟩]
  rfl

section Device

variable (hlen : bs.length = 13) (hstart : bs.take 2 = [0x7E#8, 0x01#8])
include hlen hstart

theorem exec_sbDeviceFrame_forwards (hcrc : bs.getD 12 0#8 = crc8 (slice bs 1 11)) (hhead : s.dev.flag Fld.hltSbCfgHead = false) :
    exec (.sbDeviceFrame bs) s = .next { s with dev := { s.dev with
      age := { s.dev.age with sbLast := some (leAt bs 2 1, s.dev.clk) }, out := .sideband bs :: s.dev.out } } := by
  refine (nextDev_ok s _ hheld : execSbDeviceFrame bs s = _).trans ?_
  rw [if_neg (by simp [hlen, hstart]), if_neg (not_not.2 hcrc), if_neg (by simp [hhead])]
  rfl

theorem exec_sbDeviceFrame_drops (hcrc : bs.getD 12 0#8 ≠ crc8 (slice bs 1 11)) :
    exec (.sbDeviceFrame bs) s = .next (s.withDev s.dev.sbDrop) := by
  refine (nextDev_ok s _ hheld : execSbDeviceFrame bs s = _).trans ?_
  rw [if_neg (by simp [hlen, hstart]), if_pos hcrc]

end Device

theorem exec_sbEndFrame_answers (hlen : bs.length = 4) (hstart : bs.take 2 = [0x7E#8, 0x02#8])
    (hcrc : bs.getD 3 0#8 = crc8 (slice bs 1 2)) (hhead : s.dev.flag Fld.hltSbCfgHead = false) :
    exec (.sbEndFrame bs) s = .next (s.withDev
      ((({ s.dev with age := { s.dev.age with sbLast := none } } : Dev).setFld Fld.hltSbStatPos 0 (leAt bs 2 1)).sbSend (leAt bs 2 1)
        ((leAt bs 2 1 + 1) % 256))) := by
  refine (nextDev_ok s _ hheld : execSbEndFrame bs s = _).trans ?_
  rw [if_neg (by simp [hlen, hstart]), if_neg (not_not.2 hcrc), if_neg (by simp [hhead])]

theorem exec_sbEndTimeout {p t0 : Nat} (hlast : s.dev.age.sbLast = some (p, t0)) (hdue : t0 + 2 ≤ s.dev.clk) :
    exec .sbEndTimeout s = .next (s.withDev
      (({ s.dev with age := { s.dev.age with sbLast := none } } : Dev).sbSend (s.dev.fresh.toNat % 256) ((p + 1) % 256)).spend) := by
  refine (nextDev_ok s _ hheld : execSbEndTimeout s = _).trans ?_
  simp only [hlast, if_pos hdue]

end Rows

theorem leAt_one_lt (bs : List Byte) (i : Nat) : leAt bs i 1 < 256 := by
  rw [leAt, slice]
  cases bs.drop i with
  | nil => simp [leNat]
  | cons b _ => simpa [leNat] using b.isLt

/-- Settles O20: a frame goes the way that its start, its CRC and HEAD give it. That a dropped frame counts 1, and that the own frame of an END
time-out has a free POS, is the model's choice (log entry 127). -/
theorem sidebandChain : Obligations.SidebandChain := by
  intro s bs hheld
  refine ⟨exec_sbHeadSend hheld, exec_sbDeviceFrame_forwards hheld, fun hlen hstart hcrc hhead => ?_, exec_sbDeviceFrame_drops hheld,
    fun p t0 hlast hdue => ⟨_, exec_sbEndTimeout hheld hlast hdue, rfl, rfl, ?timeout⟩⟩
  case timeout => exact (Dev.sbSend_out ..).trans (by rw [Dev.sbDevice_setLast])
  refine ⟨_, exec_sbEndFrame_answers hheld hlen hstart hcrc hhead, rfl, rfl, ?_, ?_⟩
  · refine (Dev.fld_setFld_self ({ s.dev with age := { s.dev.age with sbLast := none } } : Dev) Fld.hltSbStatPos 0 (leAt bs 2 1) (by decide)).trans ?_
    exact Nat.mod_eq_of_lt (leAt_one_lt bs 2)
  · exact (Dev.sbSend_out ..).trans (by rw [Dev.sbDevice_setStatPos, Dev.sbDevice_setLast]; rfl)

end Sys2Proof.Machine
end

section
/-! SUPPORT. Reads that interrupt writing (R451), read-ahead (R253), late rounds (R245) and read retries (R251). -/

namespace Sys2Proof.Machine

/-- The reads of item 4 of R449 that wait for a transport. -/
def Dev.readsWaiting (d : Dev) (h : Hbm) (n : Nat) : List (RdGoal × Nat) := (d.wants h n).filter fun w => w.1.rank == 4

/-- Writing may resume on transport `n`: an interrupting read that had not begun gives the transport up, one that reads stops. -/
def Dev.interruptEnded (d : Dev) (n : Nat) : Dev :=
  let d := d.modWr n fun w => { w with stopReq := false }
  if (d.rdAt n).goal = .none then d.modRd n fun r => { r with took := none } else d.rdStop n

theorem Dev.interruptEnded_of_none {d : Dev} {n : Nat} (h : (d.rdAt n).goal = .none) : d.interruptEnded n =
    (d.modWr n fun w => { w with stopReq := false }).modRd n fun r => { r with took := none } := if_pos h

theorem Dev.interruptEnded_of_goal {d : Dev} {n : Nat} (h : (d.rdAt n).goal ≠ .none) : d.interruptEnded n =
    (d.modWr n fun w => { w with stopReq := false }).rdStop n := if_neg h

@[simp] theorem Dev.releaseAll_clk (d : Dev) (hs : List (BitVec 32)) (o : Nat) : (d.releaseAll hs o).clk = d.clk :=
  foldl_keeps (keep := Dev.clk) (g := fun d h => d.release h o) (fun _ _ => rfl) hs d

@[simp] theorem Dev.controlledStop_clk (d : Dev) (n : Nat) : (d.controlledStop n).clk = d.clk :=
  (congrArg Dev.clk (d.besidesMot_controlledStop n) :)

@[simp] theorem Dev.toWrap_clk (d : Dev) (n w : Nat) : (d.toWrap n w).clk = d.clk := rfl

@[simp] theorem Dev.rdStop_clk (d : Dev) (n : Nat) : (d.rdStop n).clk = d.clk := by
  unfold Dev.rdStop
  dsimp only
  split <;> simp

theorem Dev.interruptEnded_clk (d : Dev) (n : Nat) : (d.interruptEnded n).clk = d.clk := by
  unfold Dev.interruptEnded
  dsimp only
  split <;> simp

/-- The data set that a late round of sub data set `i` takes (R245). -/
def Dev.lateSet (d : Dev) (n i : Nat) : Option DsRd :=
  (d.rdAt n).sets.find? fun x => match x.sds[i]? with
    | some y => ! y.done && ! y.active && y.rounds == 1 && y.grown && d.copiesEnded n x
    | none => false

/-- No sub data set of number `i` has gained from later copies: none is taken for a late round. -/
theorem Dev.lateSet_of_not_grown {d : Dev} {n i : Nat} (h : ∀ x ∈ (d.rdAt n).sets, ∀ y, x.sds[i]? = some y → y.grown = false) :
    d.lateSet n i = none := by
  refine List.find?_eq_none.2 fun x hx => ?_
  cases hy : x.sds[i]? with
  | none => simp
  | some y => simp [h x hx y hy]

section Rows

variable {s : State} {n : Nat} (hheld : s.dev.coreHeld = false)
include hheld

/-! ### Interruptions -/

theorem exec_readInterrupt {a : Nat} (hwait : (s.dev.rdAt n).waitSince = some a) (hmode : (s.dev.wrAt n).mode = .streaming)
    (htook : (s.dev.rdAt n).took = none) : exec (.readInterrupt n) s = .next (s.withDev
      (if a + s.dev.rdWait n ≤ s.dev.clk then (s.dev.modWr n fun w => { w with stopReq := true }).modRd n fun r =>
          { r with took := some s.dev.clk, held := some (r.held.getD s.dev.clk) }
        else s.dev)) := by
  refine (nextDev_of_eq hheld ?_ : execReadInterrupt n s = _)
  simp only [hwait, hmode, htook, Option.isNone_none, and_true]

section End

variable {a : Nat} (htook : (s.dev.rdAt n).took = some a) (hparked : (s.dev.wrAt n).mode = .parked)
include htook hparked

theorem exec_readInterruptEnd : exec (.readInterruptEnd n) s = .next (s.withDev
    (if s.dev.readsWaiting s.hbm n == [] ∨ a + s.dev.rdMax n ≤ s.dev.clk then
      if s.dev.readsWaiting s.hbm n == [] then s.dev.interruptEnded n
      else (s.dev.interruptEnded n).modRd n fun r => { r with waitSince := some s.dev.clk }
    else s.dev)) := by
  refine (nextDev_of_eq hheld ?_ : execReadInterruptEnd n s = _)
  simp only [htook, hparked, beq_self_eq_true, true_and]
  rw [← s.dev.interruptEnded_clk n]
  rfl

theorem exec_readInterruptEnd_served (hnone : s.dev.readsWaiting s.hbm n = []) :
    exec (.readInterruptEnd n) s = .next (s.withDev (s.dev.interruptEnded n)) := by
  rw [exec_readInterruptEnd hheld htook hparked, hnone]
  rfl

theorem exec_readInterruptEnd_expired (hsome : s.dev.readsWaiting s.hbm n ≠ []) (hmax : a + s.dev.rdMax n ≤ s.dev.clk) :
    exec (.readInterruptEnd n) s = .next (s.withDev
      ((s.dev.interruptEnded n).modRd n fun r => { r with waitSince := some s.dev.clk })) := by
  rw [exec_readInterruptEnd hheld htook hparked, if_pos (.inr hmax), if_neg (by simp [hsome])]

theorem exec_readInterruptEnd_waits (hsome : s.dev.readsWaiting s.hbm n ≠ []) (hmax : s.dev.clk < a + s.dev.rdMax n) :
    exec (.readInterruptEnd n) s = .next s := by
  rw [exec_readInterruptEnd hheld htook hparked, if_neg]
  simp [hsome, hmax]

end End

/-! ### Late rounds and retries -/

theorem exec_sdsLateRound (i : Nat) : exec (.sdsLateRound n i) s = .next (s.withDev ((s.dev.lateSet n i).elim s.dev fun x =>
    s.dev.modRd n fun r => r.modSet x.no fun x => { x with sds := lmod x.sds i fun y => { y with rounds := 2, iters := 0, grown := false } })) := by
  refine (nextDev_of_eq hheld ?_ : execSdsLateRound n i s = _)
  show (match s.dev.lateSet n i with | some x => _ | none => s.dev) = _
  cases s.dev.lateSet n i <;> rfl

theorem exec_readRetry_idle (hstuck : s.dev.stuckSet n = none) : exec (.readRetry n) s = .next s := by
  refine (nextDev_of_eq hheld ?_ : execReadRetry n s = _)
  simp only [hstuck]

section Stuck

variable {x : DsRd} (hstuck : s.dev.stuckSet n = some x) (hrow : s.dev.rowOfSet n x.no = none)
include hstuck hrow

theorem exec_readRetry_again {i : Nat} (hslot : s.dev.nextSlot (s.dev.rdAt n) = some i) :
    exec (.readRetry n) s = .next (s.withDev (s.dev.retryPass n i x)) := by
  refine (nextDev_of_eq hheld ?_ : execReadRetry n s = _)
  simp only [hstuck, hrow, hslot]

theorem exec_readRetry_fails (hslot : s.dev.nextSlot (s.dev.rdAt n) = none) : exec (.readRetry n) s = .next (s.withDev
    ((s.dev.modRd n fun r => r.modSet x.no fun x => { x with bad := true }).postBoth 0x4A blkDec n
      [item n, item x.no, item (sdsMap x.undecoded)])) := by
  refine (nextDev_of_eq hheld ?_ : execReadRetry n s = _)
  simp only [hstuck, hrow, hslot]

end Stuck

/-! ### Read-ahead -/

theorem exec_readAheadResume : exec (.readAheadResume n) s = .next (s.withDev
    (if (s.dev.rdAt n).phase = .ahead ∧ s.dev.motState n = msHold ∧ s.dev.waitingSets n < s.dev.aheadMax n then
      (s.dev.rdGoto n (s.dev.estimate_ n (((s.dev.rdAt n).lastNo.getD (s.dev.rdAt n).target) + 1) - s.dev.regionNm n)).modRd n fun r =>
        { r with locating := false }
    else s.dev)) := (nextDev_ok s _ hheld : execReadAheadResume n s = _)

end Rows

/-- Settles O46: each row acts exactly when its rule's condition holds. -/
theorem readsAndRetries : Obligations.ReadsAndRetries := by
  refine ⟨fun s n hheld => ⟨fun a hwait hmode htook => ⟨fun hdue => ?_, fun hearly => ?_⟩, fun a htook hparked hgoal => ?_,
      fun a htook hparked hgoal => ?_, fun hphase hstate hfew => ?_, fun hmany => ?_⟩,
    fun s n hheld => ⟨fun i x y hfind hy => ?_, fun i h => ?_, exec_readRetry_idle hheld, fun x i hstuck hrow => exec_readRetry_again hheld hstuck hrow,
      fun x => exec_readRetry_fails hheld⟩⟩
  · rw [exec_readInterrupt hheld hwait hmode htook, if_pos hdue]
  · rw [exec_readInterrupt hheld hwait hmode htook, if_neg (Nat.not_le.2 hearly)]
  · rw [← Dev.interruptEnded_of_none hgoal]
    exact ⟨exec_readInterruptEnd_served hheld htook hparked, exec_readInterruptEnd_expired hheld htook hparked,
      exec_readInterruptEnd_waits hheld htook hparked⟩
  · dsimp only
    rw [← Dev.interruptEnded_of_goal hgoal]
    exact ⟨exec_readInterruptEnd_served hheld htook hparked, exec_readInterruptEnd_expired hheld htook hparked⟩
  · rw [exec_readAheadResume hheld, if_pos ⟨hphase, hstate, hfew⟩]
  · rw [exec_readAheadResume hheld, if_neg fun h => absurd h.2.2 (Nat.not_lt.2 hmany)]
  · have hlate : s.dev.lateSet n i = some x := hfind
    rw [exec_sdsLateRound hheld, hlate]
    rfl
  · rw [exec_sdsLateRound hheld, Dev.lateSet_of_not_grown h]
    rfl

end Sys2Proof.Machine
end

section
/-! SUPPORT. Links (R400, R401): one link of the device after a change, and what traffic leaves of a link: the number that it awaits and every
frame of its replay buffer. -/

namespace Sys2Proof.Machine

/-! ### One link -/

/-- A link that is not a default one is one of the device's. -/
theorem Dev.link_lt {d : Dev} {l : Nat} (h : d.linkAt l ≠ {}) : l < d.fab.links.length := by
  by_contra hl
  exact h (List.getD_eq_default _ _ (Nat.not_lt.1 hl))

theorem Dev.link_lt_of_up {d : Dev} {l : Nat} (h : (d.linkAt l).up = true) : l < d.fab.links.length :=
  Dev.link_lt fun hl => by simp [hl] at h

section Changed

variable {d e : Dev} {l : Nat} {g : Link → Link} (hlinks : e.fab.links = lmod d.fab.links l g)
include hlinks

theorem Dev.linkAt_changed_self (hl : l < d.fab.links.length) : e.linkAt l = g (d.linkAt l) := by
  simp [Dev.linkAt, hlinks, lmod, List.getD_eq_getElem?_getD, hl]

theorem Dev.linkAt_changed_other {k : Nat} (hk : k ≠ l) : e.linkAt k = d.linkAt k := by
  simp [Dev.linkAt, hlinks, lmod, List.getD_eq_getElem?_getD, Ne.symm hk]

end Changed

theorem Dev.linkAt_modLink_self {d : Dev} {l : Nat} (g : Link → Link) (hl : l < d.fab.links.length) :
    (d.modLink l g).linkAt l = g (d.linkAt l) := Dev.linkAt_changed_self rfl hl

theorem Dev.linkAt_modLink_other (d : Dev) {l k : Nat} (g : Link → Link) (hk : k ≠ l) : (d.modLink l g).linkAt k = d.linkAt k :=
  Dev.linkAt_changed_other rfl hk

/-- A link beyond the device's is a default one before and after. -/
theorem Dev.modLink_of_not_lt {d : Dev} {l : Nat} (g : Link → Link) (hl : ¬ l < d.fab.links.length) : d.modLink l g = d := by
  rw [Dev.modLink, lmod, List.modify_eq_self (Nat.not_lt.1 hl)]

/-! ### What traffic leaves of a link -/

/-- From `k` to `k'` a link awaits the same number, has been heard as before, and keeps every frame of its replay buffer. -/
structure Link.Sends (k k' : Link) : Prop where
  rxNext : k'.rxNext = k.rxNext
  heard : k'.heard = k.heard
  replay : ∀ x ∈ k.replay, x ∈ k'.replay

/-- Every link only sends from `d` to `e`. -/
structure Dev.LinksSend (d e : Dev) : Prop where
  link : ∀ l, (d.linkAt l).Sends (e.linkAt l)

theorem Dev.LinksSend.refl (d : Dev) : d.LinksSend d := ⟨fun _ => ⟨rfl, rfl, fun _ h => h⟩⟩

theorem Dev.LinksSend.trans {a b c : Dev} (h : a.LinksSend b) (h' : b.LinksSend c) : a.LinksSend c where
  link l := ⟨(h'.link l).rxNext.trans (h.link l).rxNext, (h'.link l).heard.trans (h.link l).heard,
    fun x hx => (h'.link l).replay x ((h.link l).replay x hx)⟩

theorem Dev.LinksSend.of_links {d e : Dev} (h : e.fab.links = d.fab.links) : d.LinksSend e where
  link l := by
    rw [show e.linkAt l = d.linkAt l by rw [Dev.linkAt, h, Dev.linkAt]]
    exact (Dev.LinksSend.refl d).link l

theorem Dev.LinksSend.foldl {α : Type} {g : Dev → α → Dev} (hg : ∀ (d : Dev) a, d.LinksSend (g d a)) (xs : List α) (d : Dev) :
    d.LinksSend (xs.foldl g d) := by
  induction xs generalizing d with
  | nil => exact .refl d
  | cons a xs ih => exact (hg d a).trans (ih _)

theorem Dev.modLink_linksSend (d : Dev) (l : Nat) {g : Link → Link} (hg : ∀ k : Link, k.Sends (g k)) : d.LinksSend (d.modLink l g) := by
  by_cases hl : l < d.fab.links.length
  · refine ⟨fun k => ?_⟩
    by_cases hk : k = l
    · rw [hk, Dev.linkAt_modLink_self g hl]
      exact hg _
    · rw [Dev.linkAt_modLink_other d g hk]
      exact (Dev.LinksSend.refl d).link k
  · rw [Dev.modLink_of_not_lt g hl]
    exact .refl d

theorem Dev.linkEmit_linksSend (d : Dev) (l : Nat) (h p : List Byte) : d.LinksSend (d.linkEmit l h p) := by
  unfold Dev.linkEmit
  refine Dev.LinksSend.trans ?_ (Dev.modLink_linksSend _ l fun k => ⟨rfl, rfl, fun x hx => List.mem_append_left _ hx⟩)
  exact .of_links rfl

/-- What sending one frame and naming those left to wait keep, draining a link keeps. -/
theorem Dev.linkDrain_induct {P : Dev → Prop} {l : Nat} (hemit : ∀ e h p, P e → P (e.linkEmit l h p))
    (hwait : ∀ e ws, P e → P (e.modLink l fun k => { k with waiting := ws })) {d : Dev} (hd : P d) : P (d.linkDrain l) := by
  unfold Dev.linkDrain
  split
  · exact hd
  · refine hwait _ _ ?_
    suffices h : ∀ (fs : List (List Byte × List Byte)) (x : Dev × List Nat × List (List Byte × List Byte)), P x.1 →
        P (fs.foldl (fun (x : Dev × List Nat × List (List Byte × List Byte)) f =>
          let (d, held, left) := x
          let c := headClass f.1
          if ! held.contains c ∧ (d.linkAt l).may c f.2 then (d.linkEmit l f.1 f.2, held, left) else (d, c :: held, left ++ [f])) x).1 from
      h _ _ hd
    intro fs
    induction fs with
    | nil => exact fun _ hx => hx
    | cons f fs ih =>
      rintro ⟨e, held, left⟩ he
      rw [List.foldl_cons]
      refine ih _ ?_
      dsimp only
      split
      · exact hemit e f.1 f.2 he
      · exact he

theorem Dev.linkDrain_linksSend (d : Dev) (l : Nat) : d.LinksSend (d.linkDrain l) :=
  Dev.linkDrain_induct (P := d.LinksSend) (fun e h p he => he.trans (e.linkEmit_linksSend l h p))
    (fun e _ he => he.trans (e.modLink_linksSend l fun _ => ⟨rfl, rfl, fun _ hx => hx⟩)) (.refl d)

theorem Dev.linkQueue_linksSend (d : Dev) (l : Nat) (h p : List Byte) : d.LinksSend (d.linkQueue l h p) := by
  refine .trans ?_ (Dev.linkDrain_linksSend _ l)
  exact d.modLink_linksSend l fun _ => ⟨rfl, rfl, fun _ hx => hx⟩

theorem Dev.fabForward_linksSend (d : Dev) (h p : List Byte) : d.LinksSend (d.fabForward h p) := by
  unfold Dev.fabForward
  split
  · exact d.linkQueue_linksSend _ h p
  · exact .refl d

theorem Dev.e2eSend_linksSend (d : Dev) (dst c t w : Nat) (p : List Byte) : d.LinksSend (d.e2eSend dst c t w p) := by
  refine .trans ?_ (Dev.fabForward_linksSend _ _ _)
  exact .of_links rfl

theorem Dev.fabSend_linksSend (d : Dev) (dst c t w : Nat) (m : FabMsg) : d.LinksSend (d.fabSend dst c t w m) :=
  .foldl (fun d p => d.e2eSend_linksSend dst c t w p) _ d

theorem Dev.nearSend_linksSend (d : Dev) (l t : Nat) (m : FabMsg) : d.LinksSend (d.nearSend l t m) :=
  .foldl (fun d _ => d.linkQueue_linksSend l _ _) _ d

theorem Dev.e2eResend_linksSend (d : Dev) (key : Nat) (seq : BitVec 32) : d.LinksSend (d.e2eResend key seq) := by
  refine .trans ?_ (.foldl (fun (d : Dev) (f : BitVec 32 × List Byte × List Byte) => d.fabForward_linksSend f.2.1 f.2.2) _ _)
  exact .of_links rfl

/-! ### Delivery -/

/-- A message that is delivered gives a link credit, has frames sent again, or goes to the tables of the fabric or the pair. -/
theorem Dev.fabTake_linksSend (d : Dev) (src link : Nat) (payload : List Byte) (m : FabMsg) : d.LinksSend (d.fabTake src link payload m) := by
  unfold Dev.fabTake
  cases m
  case credit cls n => exact d.modLink_linksSend link fun _ => ⟨rfl, rfl, fun _ hx => hx⟩
  case e2eNak cls seq => exact d.e2eResend_linksSend _ seq
  case control | data | batchEnd | resync =>
    dsimp only
    split <;> exact .of_links rfl
  case e2eAck | memberData | heartbeat | mirrorAck | mirrorNak | lsa | memberStatus => exact .of_links rfl

theorem Dev.fabAct_linksSend (d : Dev) (src link type : Nat) (payload : List Byte) : d.LinksSend (d.fabAct src link type payload) :=
  .foldl (fun d m => d.fabTake_linksSend src link payload m) _ d

theorem Dev.e2eDrain_linksSend (src cls link n : Nat) (d : Dev) : d.LinksSend (Dev.e2eDrain src cls link n d) := by
  induction n generalizing d with
  | zero => exact .refl d
  | succ n ih =>
    unfold Dev.e2eDrain
    dsimp only
    split
    · exact .of_links rfl
    · refine .trans ?_ ((Dev.fabAct_linksSend ..).trans (ih _))
      exact .of_links rfl

theorem Dev.e2eArrive_linksSend (d : Dev) (link : Nat) (head payload : List Byte) : d.LinksSend (d.e2eArrive link head payload) := by
  unfold Dev.e2eArrive
  dsimp only
  split
  · exact Dev.fabAct_linksSend ..
  · split
    · exact Dev.fabSend_linksSend ..
    · split
      · split <;> exact .of_links rfl
      · refine .trans ?_ ((Dev.fabAct_linksSend ..).trans ((Dev.e2eDrain_linksSend ..).trans (Dev.fabSend_linksSend ..)))
        exact .of_links rfl

/-! ### A frame that comes (R400, R401, R427) -/

/-- What a link asks of a frame: both CRCs, the length, and the number that it awaits. -/
def Link.Takes (k : Link) (f : Frame) : Prop :=
  f.header.length = 32 ∧ crc32cOk f.header = true ∧ f.payload.length = leAt f.header 4 2 ∧ (f.payload ≠ [] → f.crc = crc32c f.payload) ∧
    leAt f.header 18 2 = k.rxNext.toNat

/-- The checks of FRAME_RECEIVE are those of `Link.Takes`. -/
theorem Link.takes_iff {k : Link} {f : Frame} : k.Takes f ↔ ¬ (f.header.length ≠ 32 ∨ ! crc32cOk f.header ∨ f.payload.length ≠ leAt f.header 4 2 ∨
    leAt f.header 4 2 ≠ 0 ∧ f.crc ≠ crc32c f.payload ∨ leAt f.header 18 2 ≠ k.rxNext.toNat) := by
  simp only [Link.Takes, not_or, not_not, not_and, Bool.not_eq_true', Bool.not_eq_false, ne_eq]
  refine and_congr_right fun _ => and_congr_right fun _ => and_congr_right fun hlen => ?_
  rw [← hlen, List.length_eq_zero_iff]

/-- The frames of the replay buffer that the LINK_ACK of a frame does not cover. -/
def Link.unacked (k : Link) (f : Frame) : List (BitVec 16 × List Byte × List Byte) :=
  k.replay.filter fun r => ! seqFrom r.1 (BitVec.ofNat 16 (leAt f.header 20 2))

/-- The link once it has taken a frame, with the replay buffer that is left. -/
def Link.took (left : List (BitVec 16 × List Byte × List Byte)) (k : Link) : Link :=
  { k with rxNext := k.rxNext + 1, heard := true, replay := left, replays := if left.length < k.replay.length then 0 else k.replays }

/-- The device once link `l` has taken a frame. -/
def Dev.frameTaken (d : Dev) (l : Nat) (f : Frame) : Dev := d.modLink l (Link.took ((d.linkAt l).unacked f))

/-- What a frame leaves on its link: credit for the neighbour, and what waits for the room that LINK_ACK has made (R401). -/
def Dev.frameCredit (d : Dev) (l : Nat) (f : Frame) : Dev :=
  (if headClass f.header = 0 then d else d.nearSend l 0x03 (.credit (headClass f.header) (frameBytes f.payload))).linkDrain l

/-- A frame goes to the device itself, or on to its destination with one hop less (R400, R405, R407). -/
def Dev.frameDeliver (d : Dev) (l : Nat) (f : Frame) : Dev :=
  if d.fab.conflicts.contains (leAt f.header 0 1) then d
  else if d.isMine (leAt f.header 0 1) then d.e2eArrive l f.header f.payload
  else if leAt f.header 6 1 - 1 = 0 then d
  else d.fabForward (overwrite (f.header.take 18) 6 (leBytes 1 (leAt f.header 6 1 - 1))) f.payload

theorem Dev.frameCredit_linksSend (d : Dev) (l : Nat) (f : Frame) : d.LinksSend (d.frameCredit l f) := by
  refine .trans ?_ (Dev.linkDrain_linksSend _ l)
  split
  · exact .refl d
  · exact d.nearSend_linksSend ..

theorem Dev.frameDeliver_linksSend (d : Dev) (l : Nat) (f : Frame) : d.LinksSend (d.frameDeliver l f) := by
  unfold Dev.frameDeliver
  split
  · exact .refl d
  · split
    · exact d.e2eArrive_linksSend ..
    · split
      · exact .refl d
      · exact d.fabForward_linksSend ..

theorem Dev.frameIn_takes {d : Dev} {l : Nat} {f : Frame} (hup : (d.linkAt l).up = true) (htakes : (d.linkAt l).Takes f) :
    d.frameIn l f = ((d.frameTaken l f).frameCredit l f).frameDeliver l f := by
  unfold Dev.frameIn
  dsimp only
  rw [if_neg (by simp [hup]), if_neg (Link.takes_iff.1 htakes)]
  rfl

theorem Dev.frameIn_discards {d : Dev} {l : Nat} {f : Frame} (hup : (d.linkAt l).up = true) (hbad : ¬ (d.linkAt l).Takes f) :
    d.frameIn l f = d.frameBad l := by
  unfold Dev.frameIn
  dsimp only
  rw [if_neg (by simp [hup]), if_pos (not_not.1 (mt Link.takes_iff.2 hbad))]

theorem exec_frameReceive {s : State} {l : Nat} (hheld : s.dev.coreHeld = false) (hl : l < fabLinks) (f : Frame) :
    exec (.frameReceive l f) s = .next (s.withDev (s.dev.frameIn l f)) :=
  (nextDev_of_eq hheld (if_pos hl) : execFrameReceive l f s = _)

/-! ### Replay (R401, R403) -/

/-- Frames that are emitted one after the other leave in their order. -/
theorem Dev.foldl_emit_frames (l : Nat) (h : BitVec 16 × List Byte × List Byte → List Byte) (rs : List (BitVec 16 × List Byte × List Byte))
    (d : Dev) : rs.foldl (fun d r => d.emit (d.frameOut l (h r) r.2.2)) d =
      { d with out := (rs.map fun r => d.frameOut l (h r) r.2.2).reverse ++ d.out } := by
  induction rs generalizing d with
  | nil => rfl
  | cons r rs ih =>
    rw [List.foldl_cons, ih, List.map_cons, List.reverse_cons, List.append_assoc]
    rfl

/-- The device as a replay of link `l` begins: the port's counter, and the replays of the link. -/
def Dev.replayCounted (d : Dev) (l : Nat) : Dev :=
  (if l < 8 then d.bump Fld.fabPortErrReplay l else d).modLink l fun k => { k with replays := k.replays + 1 }

/-- Counting a replay changes nothing that a frame carries: a port's frame names no register, and a tunnel has no counter. -/
theorem Dev.frameOut_replayCounted (d : Dev) (l : Nat) (h p : List Byte) : (d.replayCounted l).frameOut l h p = d.frameOut l h p := by
  unfold Dev.replayCounted
  by_cases hl : l < 8
  · rw [Dev.frameOut, Dev.frameOut, if_pos hl, if_pos hl]
  · rw [if_neg hl]
    rfl

theorem Dev.replayCounted_links (d : Dev) (l : Nat) :
    (d.replayCounted l).fab.links = lmod d.fab.links l fun k => { k with replays := k.replays + 1 } := by
  unfold Dev.replayCounted
  split <;> rfl

theorem Dev.replayCounted_out (d : Dev) (l : Nat) : (d.replayCounted l).out = d.out := by
  unfold Dev.replayCounted
  split <;> rfl

theorem exec_linkReplay {s : State} {l : Nat} (hheld : s.dev.coreHeld = false) (hup : (s.dev.linkAt l).up = true)
    (hreplay : (s.dev.linkAt l).replay ≠ []) : exec (.linkReplay l) s = .next (s.withDev { s.dev.replayCounted l with
      out := ((s.dev.linkAt l).replay.map fun r =>
        s.dev.frameOut l (frameHeader r.2.1 r.1 ((s.dev.linkAt l).rxNext - 1)) r.2.2).reverse ++ s.dev.out }) := by
  refine (nextDev_of_eq hheld ?_ : execLinkReplay l s = _)
  dsimp only
  rw [if_neg (by simp [hup, hreplay])]
  refine (Dev.foldl_emit_frames l _ _ (s.dev.replayCounted l)).trans ?_
  simp only [Dev.frameOut_replayCounted, Dev.replayCounted_out]

/-! ### End to end (R407) -/

section EndToEnd

variable {s : State} {a c : Nat} (hheld : s.dev.coreHeld = false)
include hheld

theorem exec_e2eGapTimeout {r : E2eRx} {x0 : Nat} (hr : tgetD s.dev.fab.rx (e2eKey a c) {} = r) (hgap : r.gapSince = some x0)
    (hdue : x0 + 4 ≤ s.dev.clk) : exec (.e2eGapTimeout a c) s = .next (s.withDev
      (({ s.dev with fab := { s.dev.fab with rx := tput s.dev.fab.rx (e2eKey a c) { r with gapSince := some s.dev.clk } } } : Dev).fabSend
        a 0 0x04 0 (.e2eNak c r.next))) := by
  refine (nextDev_of_eq hheld ?_ : execE2eGapTimeout a c s = _)
  simp only [hr, hgap, if_pos hdue]

theorem exec_e2eResendTimeout {r : E2eTx} {f : BitVec 32 × List Byte × List Byte} {fs : List (BitVec 32 × List Byte × List Byte)}
    (hr : tgetD s.dev.fab.tx (e2eKey a c) {} = r) (hkept : r.kept = f :: fs) (hdue : r.ackAt + 8 ≤ s.dev.clk) :
    exec (.e2eResendTimeout a c) s = .next (s.withDev (((f :: fs).filter fun x => seqFrom f.1 x.1).foldl (fun d x => d.fabForward x.2.1 x.2.2)
      { s.dev with fab := { s.dev.fab with tx := tput s.dev.fab.tx (e2eKey a c) { r with ackAt := s.dev.clk } } })) := by
  refine (nextDev_of_eq hheld ?_ : execE2eResendTimeout a c s = _)
  simp only [hr, hkept, if_pos hdue, Dev.e2eResend]

end EndToEnd

/-- Settles O55: a frame passes the checks or is counted as discarded, and nothing that its delivery sends takes a frame from a replay
buffer. -/
theorem framesReplayAndEndToEnd : Obligations.FramesReplayAndEndToEnd := by
  refine ⟨fun s l hheld hl hup => ⟨fun f => ⟨fun hbad => ?_, fun hgood => ?_⟩, fun hreplay => ?_⟩,
    fun s a c hheld => ⟨fun r x0 => exec_e2eGapTimeout hheld, fun r f fs => exec_e2eResendTimeout hheld⟩⟩
  · rw [exec_frameReceive hheld hl, Dev.frameIn_discards hup hbad]
    rfl
  · have hsends := ((Dev.frameCredit_linksSend (s.dev.frameTaken l f) l f).trans (Dev.frameDeliver_linksSend _ l f)).link l
    rw [← Dev.frameIn_takes hup hgood, Dev.frameTaken, Dev.linkAt_modLink_self _ (Dev.link_lt_of_up hup)] at hsends
    refine ⟨_, exec_frameReceive hheld hl f, rfl, rfl, hsends.rxNext, hsends.heard, fun x hx => ?_⟩
    by_cases hcovered : seqFrom x.1 (BitVec.ofNat 16 (leAt f.header 20 2)) = true
    · exact .inr hcovered
    · exact .inl (hsends.replay x (List.mem_filter.2 ⟨hx, by simpa using hcovered⟩))
  · have hlink := Dev.linkAt_changed_self (s.dev.replayCounted_links l) (Dev.link_lt_of_up hup)
    exact ⟨_, exec_linkReplay hheld hup hreplay, rfl, rfl, (congrArg Link.replay hlink :), (congrArg Link.replays hlink :)⟩

end Sys2Proof.Machine
end

section
/-! SUPPORT. Links that come up and go down (R401 to R403), TICK frames (R410, R411) and the source (R409). -/

namespace Sys2Proof.Machine

/-! ### Up and down -/

/-- Setting a field changes the registers alone. -/
theorem Dev.setFld_frame (d : Dev) (f : Fld) (i v : Nat) : ∃ r, d.setFld f i v = { d with regs := r } := ⟨_, rfl⟩

theorem Dev.setFld_setFld_frame (d : Dev) (f : Fld) (i v : Nat) (g : Fld) (j w : Nat) :
    ∃ r, (d.setFld f i v).setFld g j w = { d with regs := r } := by
  obtain ⟨r, hr⟩ := d.setFld_frame f i v
  obtain ⟨r', hr'⟩ := ({ d with regs := r } : Dev).setFld_frame g j w
  exact ⟨r', by rw [hr, hr']⟩

/-- A link that has come up (R401, R402): numbers from 0 and full credit. -/
def Link.risen (k : Link) : Link :=
  { k with up := true, quiet := 0, txSeq := 0, rxNext := 0, replay := [], replays := 0, credit := List.replicate 4 creditMax }

/-- The device once link `l` has come up. -/
def Dev.linkRisen (d : Dev) (l : Nat) : Dev :=
  let d := d.modLink l Link.risen
  (if l < 8 then (d.setFlag Fld.fabPortStatUp l true).setFld Fld.fabPortStatLanes l 0xF else d).lsaChanged

/-- A link that comes up or goes down leaves the device's advertisement and the routes to be made anew, whatever registers show it. -/
theorem Dev.linkRisen_eq (d : Dev) (l : Nat) : ∃ r, d.linkRisen l = { d with
    regs := r, fab := { d.fab with links := lmod d.fab.links l Link.risen, lsaDirty := true, routeDirty := true } } := by
  unfold Dev.linkRisen
  dsimp only
  split
  · obtain ⟨r, hr⟩ := (d.modLink l Link.risen).setFld_setFld_frame Fld.fabPortStatUp l (b2n true) Fld.fabPortStatLanes l 0xF
    exact ⟨r, congrArg Dev.lsaChanged hr⟩
  · exact ⟨d.regs, rfl⟩

/-- A port whose link has gone down shows it and counts it (R402, R427). -/
def Dev.portFallen (d : Dev) (l : Nat) : Dev :=
  if l < 8 then (d.setFlag Fld.fabPortStatUp l false).bump Fld.fabPortErrDown l else d

/-- Lanes of a port whose block lock is lost: which of them is a free value. -/
def Dev.lanesLost (d : Dev) (l cause : Nat) : Dev :=
  if l < 8 ∧ cause = 2 then (d.setFld Fld.fabPortStatLanes l (d.fresh.toNat % 15)).spend else d

theorem Dev.portFallen_frame (d : Dev) (l : Nat) : ∃ r, d.portFallen l = { d with regs := r } := by
  unfold Dev.portFallen
  split
  · exact ⟨_, rfl⟩
  · exact ⟨d.regs, rfl⟩

theorem Dev.lanesLost_frame (d : Dev) (l cause : Nat) : ∃ r n, d.lanesLost l cause = { d with regs := r, free := n } := by
  unfold Dev.lanesLost
  split
  · exact ⟨_, _, rfl⟩
  · exact ⟨d.regs, d.free, rfl⟩

theorem Dev.linkDown_eq {d : Dev} {l : Nat} (cause : Nat) (hup : (d.linkAt l).up = true) : ∃ r n, d.linkDown l cause =
    ({ d with regs := r, free := n
              fab := { d.fab with links := lmod d.fab.links l Link.fallen, lsaDirty := true, routeDirty := true } } : Dev).postEvent
      0x80 blkFab 0 [item l, item cause] := by
  have hdown : d.linkDown l cause =
      ((((d.modLink l Link.fallen).portFallen l).lanesLost l cause).lsaChanged).postEvent 0x80 blkFab 0 [item l, item cause] :=
    if_neg (by simp [hup])
  obtain ⟨r, hr⟩ := (d.modLink l Link.fallen).portFallen_frame l
  obtain ⟨r', n, hn⟩ := ({ d.modLink l Link.fallen with regs := r } : Dev).lanesLost_frame l cause
  exact ⟨r', n, by rw [hdown, hr, hn]; rfl⟩

/-- An event that finds room waits behind the others (R384, R396). -/
theorem Dev.postEvent_waits {d : Dev} (code block inst : Nat) (items : List Word64) (hroom : d.ctl.evq.length < eventQueueMax) :
    ∃ e, (d.postEvent code block inst items).ctl.evq = d.ctl.evq ++ [e] ∧ e.code = code ∧ e.items = items := by
  refine ⟨{ before := d.ctl.evDrop, code := code, block := block, inst := inst, seq := d.ctl.evSeq, tick := d.commitTick, items := items },
    ?_, rfl, rfl⟩
  simp [Dev.postEvent, hroom]

section Rows

variable {s : State} {l : Nat} (hheld : s.dev.coreHeld = false) (hl : l < fabLinks)
include hheld hl

theorem exec_fabLinkUp (hdown : (s.dev.linkAt l).up = false) (hen : s.dev.linkEn l = true) (hgood : 8 ≤ (s.dev.linkAt l).good)
    (hport : 8 ≤ l → s.dev.tunnelPort l = true) : exec (.fabLinkUp l) s = .next (s.withDev (s.dev.linkRisen l)) := by
  refine (nextDev_of_eq hheld ?_ : execFabLinkUp l s = _)
  dsimp only
  rw [if_neg]
  · rfl
  · rintro (h | h | h | h | ⟨h, hp⟩)
    · omega
    · simp [hdown] at h
    · simp [hen] at h
    · omega
    · simp [hport h] at hp

theorem exec_fabLinkDown {c : Nat} (hc : c = 1 ∧ 3 ≤ (s.dev.linkAt l).quiet ∨ c = 2 ∨ c = 3 ∧ 16 ≤ (s.dev.linkAt l).replays) :
    exec (.fabLinkDown l c) s = .next (s.withDev (s.dev.linkDown l c)) :=
  (nextDev_of_eq hheld (if_pos ⟨hl, hc⟩) : execFabLinkDown l c s = _)

end Rows

theorem exec_fabLinkDown_stays {s : State} {l c : Nat} (hheld : s.dev.coreHeld = false)
    (hc : ¬ (c = 1 ∧ 3 ≤ (s.dev.linkAt l).quiet ∨ c = 2 ∨ c = 3 ∧ 16 ≤ (s.dev.linkAt l).replays)) :
    exec (.fabLinkDown l c) s = .next s :=
  (nextDev_of_eq hheld (if_neg fun h => hc h.2) : execFabLinkDown l c s = _)

/-! ### TICK frames -/

/-- What a link knows of its neighbour once a TICK frame has come (R410). -/
def Link.told (nbr : BitVec 7) (cnt : BitVec 48) (theta2 delay2 : Int) (aligned : Bool) (k : Link) : Link :=
  { k with heard := true, heardTick := true, neighbour := nbr, count := cnt, theta2 := theta2, delay2 := delay2, aligned := aligned }

/-- The device once a TICK frame has told link `l` of its neighbour; a fabric port shows it in FAB_PORTn_STAT. -/
def Dev.tickTold (d : Dev) (l : Nat) (nbr : BitVec 7) (cnt : BitVec 48) (theta2 delay2 : Int) (aligned : Bool) : Dev :=
  let d := d.modLink l (Link.told nbr cnt theta2 delay2 aligned)
  if l < 8 then (d.setFld Fld.fabPortStatNeighbour l nbr.toNat).setFld Fld.fabPortStatDelay l (ofSigned 16 (rnd ((delay2 : Rat) / 2))) else d

/-- The device once its upstream neighbour has told it its count (R410, R411): before the lock the count is taken at the next boundary, after
it the difference is held. -/
def Dev.upstreamTold (d : Dev) (cnt : BitVec 48) (theta2 : Int) : Dev :=
  let d := d.setFld Fld.fabTimeStatPhase 0 (ofSigned 16 (rnd ((theta2 : Rat) / 2)))
  if ! d.locked then (if cnt ≠ d.tick then { d with fab := { d.fab with adopt := some cnt } } else d)
  else (d.setFld Fld.fabTimeOfsLoOffset 0 ((cnt - d.tick).toNat % 2 ^ 32)).setFld Fld.fabTimeOfsHiOffset 0 ((cnt - d.tick).toNat / 2 ^ 32)

section Told

variable (d : Dev) (l : Nat) (nbr : BitVec 7) (cnt : BitVec 48) (theta2 delay2 : Int) (aligned : Bool)

theorem Dev.tickTold_eq : ∃ r, d.tickTold l nbr cnt theta2 delay2 aligned = { d with
    regs := r, fab := { d.fab with links := lmod d.fab.links l (Link.told nbr cnt theta2 delay2 aligned) } } := by
  unfold Dev.tickTold
  dsimp only
  split
  · exact Dev.setFld_setFld_frame ..
  · exact ⟨d.regs, rfl⟩

/-- Every register but FAB_PORTn_STAT reads as before. -/
theorem Dev.fld_tickTold {g : Fld} {j : Nat} (hg : g.reg.offset j < 0x01301000) :
    (d.tickTold l nbr cnt theta2 delay2 aligned).fld g j = d.fld g j := by
  have hport : g.reg.offset j ≠ RegId.fabPortStat.offset l := by
    rw [show RegId.fabPortStat.offset l = 0x01301004 + l * 0x10 from rfl]
    omega
  unfold Dev.tickTold
  dsimp only
  split
  · exact (Dev.fld_setFld_other _ _ hport).trans (Dev.fld_setFld_other _ _ hport)
  · rfl

theorem Dev.locked_tickTold : (d.tickTold l nbr cnt theta2 delay2 aligned).locked = d.locked := by
  rw [Dev.locked, Dev.flag, Dev.fld_tickTold _ _ _ _ _ _ _ (by decide)]
  rfl

theorem Dev.timeOfs_tickTold : (d.tickTold l nbr cnt theta2 delay2 aligned).timeOfs = d.timeOfs := by
  rw [Dev.timeOfs, Dev.fld_tickTold _ _ _ _ _ _ _ (by decide), Dev.fld_tickTold _ _ _ _ _ _ _ (by decide)]
  rfl

/-- Which neighbour is upstream depends on the source and the routes, which no TICK frame changes. -/
theorem Dev.upstreamLink_tickTold : (d.tickTold l nbr cnt theta2 delay2 aligned).upstreamLink = d.upstreamLink := by
  have haddr : (d.tickTold l nbr cnt theta2 delay2 aligned).fabAddr = d.fabAddr := Dev.fld_tickTold _ _ _ _ _ _ _ (by decide)
  obtain ⟨r, hr⟩ := d.tickTold_eq l nbr cnt theta2 delay2 aligned
  unfold Dev.upstreamLink
  rw [haddr, hr]

end Told

section Upstream

variable {d : Dev} {cnt : BitVec 48} (theta2 : Int)

theorem Dev.locked_setPhase (d : Dev) (v : Nat) : (d.setFld Fld.fabTimeStatPhase 0 v).locked = d.locked := by
  rw [Dev.locked, Dev.flag, Dev.fld_setFld_other _ _ (by decide)]
  rfl

theorem Dev.upstreamTold_before (hlocked : d.locked = false) : ∃ r, d.upstreamTold cnt theta2 =
    { d with regs := r, fab := { d.fab with adopt := if cnt ≠ d.tick then some cnt else d.fab.adopt } } := by
  obtain ⟨r, hr⟩ := d.setFld_frame Fld.fabTimeStatPhase 0 (ofSigned 16 (rnd ((theta2 : Rat) / 2)))
  refine ⟨r, ?_⟩
  unfold Dev.upstreamTold
  dsimp only
  rw [Dev.locked_setPhase, hlocked, Bool.not_false, if_pos rfl, hr]
  split <;> rfl

theorem Dev.upstreamTold_after (hlocked : d.locked = true) : ∃ r, d.upstreamTold cnt theta2 = { d with regs := r } := by
  unfold Dev.upstreamTold
  dsimp only
  rw [Dev.locked_setPhase, hlocked, if_neg (by decide)]
  obtain ⟨r, hr⟩ := d.setFld_frame Fld.fabTimeStatPhase 0 (ofSigned 16 (rnd ((theta2 : Rat) / 2)))
  rw [hr]
  exact Dev.setFld_setFld_frame ..

/-- The difference of the counts fits the 48 bits of FAB_TIME_OFS (R411). -/
theorem Dev.timeOfs_upstreamTold (hlocked : d.locked = true) : (d.upstreamTold cnt theta2).timeOfs = (cnt - d.tick).toNat := by
  unfold Dev.upstreamTold
  dsimp only
  rw [Dev.locked_setPhase, hlocked, if_neg (by decide), Dev.setFld_tick]
  have hofs : (cnt - d.tick).toNat < 2 ^ 48 := BitVec.isLt _
  generalize (cnt - d.tick).toNat = o at hofs
  rw [Dev.timeOfs, Dev.fld_setFld_other _ _ (by decide), Dev.fld_setFld_self _ _ _ _ (by decide), Dev.fld_setFld_self _ _ _ _ (by decide),
    show Fld.fabTimeOfsLoOffset.width = 32 from rfl, show Fld.fabTimeOfsHiOffset.width = 16 from rfl]
  omega

end Upstream

/-- The device once a TICK frame has come on link `l`. -/
def Dev.tickHeard (d : Dev) (l : Nat) (nbr : BitVec 7) (cnt : BitVec 48) (theta2 delay2 : Int) (aligned : Bool) : Dev :=
  if d.upstreamLink = some l then (d.tickTold l nbr cnt theta2 delay2 aligned).upstreamTold cnt theta2
  else d.tickTold l nbr cnt theta2 delay2 aligned

theorem exec_tickFrameReceive {s : State} {l : Nat} (hheld : s.dev.coreHeld = false) (hl : l < fabLinks) (hen : s.dev.linkEn l = true)
    (nbr : BitVec 7) (cnt : BitVec 48) (sent b a prev : Int) (al : Bool) : exec (.tickFrameReceive l nbr cnt sent b a prev al) s =
      .next (s.withDev (s.dev.tickHeard l nbr cnt ((a - sent) - (b - prev)) ((a - sent) + (b - prev)) al)) := by
  refine (nextDev_of_eq hheld ?_ : execTickFrameReceive l nbr cnt sent b a prev al s = _)
  dsimp only
  rw [if_neg (by simp [Nat.not_le.2 hl, hen]), Dev.tickHeard,
    ← Dev.upstreamLink_tickTold s.dev l nbr cnt ((a - sent) - (b - prev)) ((a - sent) + (b - prev)) al]
  rfl

section Heard

variable (d : Dev) (l : Nat) (nbr : BitVec 7) (cnt : BitVec 48) (theta2 delay2 : Int) (aligned : Bool)

/-- A TICK frame changes the registers, its own link, and the count to adopt: that one only where it comes from upstream before the lock. -/
theorem Dev.tickHeard_eq : ∃ r, d.tickHeard l nbr cnt theta2 delay2 aligned = { d with
    regs := r, fab := { d.fab with
      links := lmod d.fab.links l (Link.told nbr cnt theta2 delay2 aligned)
      adopt := if d.upstreamLink = some l ∧ d.locked = false ∧ cnt ≠ d.tick then some cnt else d.fab.adopt } } := by
  obtain ⟨r, hr⟩ := d.tickTold_eq l nbr cnt theta2 delay2 aligned
  have hlocked := d.locked_tickTold l nbr cnt theta2 delay2 aligned
  unfold Dev.tickHeard
  rw [hr] at hlocked ⊢
  by_cases hup : d.upstreamLink = some l
  · rw [if_pos hup]
    cases h : d.locked
    · obtain ⟨r', h'⟩ := Dev.upstreamTold_before (cnt := cnt) theta2 (hlocked.trans h)
      exact ⟨r', by simp [h', hup]⟩
    · obtain ⟨r', h'⟩ := Dev.upstreamTold_after (cnt := cnt) theta2 (hlocked.trans h)
      exact ⟨r', by simp [h']⟩
  · exact ⟨r, by simp [hup]⟩

theorem Dev.timeOfs_tickHeard_after (hup : d.upstreamLink = some l) (hlocked : d.locked = true) :
    (d.tickHeard l nbr cnt theta2 delay2 aligned).timeOfs = (cnt - d.tick).toNat := by
  obtain ⟨r, hr⟩ := d.tickTold_eq l nbr cnt theta2 delay2 aligned
  rw [Dev.tickHeard, if_pos hup, Dev.timeOfs_upstreamTold theta2 ((d.locked_tickTold ..).trans hlocked), hr]

theorem Dev.timeOfs_tickHeard_other (hup : d.upstreamLink ≠ some l) :
    (d.tickHeard l nbr cnt theta2 delay2 aligned).timeOfs = d.timeOfs := by
  rw [Dev.tickHeard, if_neg hup, Dev.timeOfs_tickTold]

end Heard

/-! ### The source (R409) -/

theorem exec_fabSource {s : State} (hheld : s.dev.coreHeld = false) : exec .fabSource s = .next (s.withDev
    (if s.dev.sourceOk ∨ s.dev.fab.source.isSome ∧ s.dev.fab.sourceLost < 500 then s.dev
    else s.dev.announced.elim (if s.dev.flag Fld.fabCfgCand ∧ s.dev.lowest then s.dev.adoptSource s.dev.fabAddr else s.dev)
      s.dev.adoptSource)) := by
  refine (nextDev_of_eq hheld ?_ : execFabSource s = _)
  refine if_congr Iff.rfl rfl ?_
  cases s.dev.announced <;> rfl

theorem Dev.not_sourced (d : Dev) (hlost : d.sourceOk = false) (hsource : d.fab.source = none ∨ 500 ≤ d.fab.sourceLost) :
    ¬ (d.sourceOk ∨ d.fab.source.isSome ∧ d.fab.sourceLost < 500) := by
  rintro (h | ⟨hsome, hlate⟩)
  · simp [hlost] at h
  · rcases hsource with h | h
    · simp [h] at hsome
    · omega

/-- Settles O56: a link's state and what the device knows of its neighbours change as the row says, in the fabric and its registers alone. That
FAB_LINK_DOWN names the tunnels 8 to 11 is the model's choice (log entry 98). -/
theorem fabricLinksTickFramesAndSource : Obligations.FabricLinksTickFramesAndSource := by
  refine ⟨fun s l hheld hl => ⟨fun hdown hen hgood hport => ?up, fun c hup hc => ?down, fun hquiet => ?_, fun hreplays => ?_⟩,
    fun s hheld => ⟨fun l nbr cnt sent b a prev al hlen hl hen => ?tick, fun hlost hsource => ⟨fun a ha => ?_, fun hnone hcand hlow => ?_⟩,
      fun hok => ?_, fun d a => ⟨rfl, rfl⟩⟩⟩
  case up =>
    obtain ⟨r, hr⟩ := s.dev.linkRisen_eq l
    have hlinks : (s.dev.linkRisen l).fab.links = lmod s.dev.fab.links l Link.risen := by rw [hr]
    have hself := Dev.linkAt_changed_self hlinks (Dev.link_lt fun h => by simp [h] at hgood)
    refine ⟨_, exec_fabLinkUp hheld hl hdown hen hgood hport, ?_, ?_⟩
    · rw [hr]
    · exact ⟨congrArg Link.up hself, congrArg Link.txSeq hself, congrArg Link.rxNext hself, congrArg Link.replay hself,
        congrArg Link.credit hself, by rw [hr], by rw [hr], fun k hk => Dev.linkAt_changed_other hlinks hk⟩
  case down =>
    obtain ⟨r, n, hr⟩ := Dev.linkDown_eq c hup
    have hlinks : (s.dev.linkDown l c).fab.links = lmod s.dev.fab.links l Link.fallen := by rw [hr]; rfl
    have hself := Dev.linkAt_changed_self hlinks (Dev.link_lt_of_up hup)
    refine ⟨_, exec_fabLinkDown hheld hl hc, ?_, ?_⟩
    · rw [hr]; rfl
    · refine ⟨congrArg Link.up hself, congrArg Link.replay hself, congrArg Link.waiting hself, by rw [hr]; rfl, by rw [hr]; rfl,
        fun k hk => Dev.linkAt_changed_other hlinks hk, fun hroom => ?_⟩
      rw [hr]
      exact Dev.postEvent_waits _ _ _ _ hroom
  case tick =>
    have hexec := exec_tickFrameReceive hheld hl hen nbr cnt sent b a prev al
    obtain ⟨r, hr⟩ := s.dev.tickHeard_eq l nbr cnt ((a - sent) - (b - prev)) ((a - sent) + (b - prev)) al
    have hlinks := congrArg (fun d => d.fab.links) hr
    refine ⟨_, hexec, by rw [hr], Dev.linkAt_changed_self hlinks hlen, fun hup hlocked hcnt => ?_, fun hup hlocked => ⟨?_, ?_⟩,
      fun hup => ⟨?_, ?_⟩⟩
    · rw [hr]
      exact if_pos ⟨hup, hlocked, hcnt⟩
    · exact s.dev.timeOfs_tickHeard_after _ _ _ _ _ _ hup hlocked
    · rw [hr]
      exact if_neg fun h => by simp [hlocked] at h
    · exact s.dev.timeOfs_tickHeard_other _ _ _ _ _ _ hup
    · rw [hr]
      exact if_neg fun h => hup h.1
  · exact exec_fabLinkDown_stays hheld (by omega)
  · exact exec_fabLinkDown_stays hheld (by omega)
  · rw [exec_fabSource hheld, if_neg (s.dev.not_sourced hlost hsource), ha]
    rfl
  · rw [exec_fabSource hheld, if_neg (s.dev.not_sourced hlost hsource), hnone]
    exact congrArg (fun d => Host.Outcome.next (s.withDev d)) (if_pos ⟨hcand, hlow⟩)
  · rw [exec_fabSource hheld, if_pos (.inl hok)]

end Sys2Proof.Machine
end

section
/-! SUPPORT. Advertisements and routes (R404 to R406). -/

namespace Sys2Proof.Machine

/-! ### What a flood leaves as it was -/

/-- From `d` to `e` only links and what has been emitted change. -/
def Dev.OnLinks (d e : Dev) : Prop := ∃ ls o, e = { d with fab := { d.fab with links := ls }, out := o }

theorem Dev.OnLinks.refl (d : Dev) : d.OnLinks d := ⟨d.fab.links, d.out, rfl⟩

theorem Dev.OnLinks.trans {a b c : Dev} (h : a.OnLinks b) (h' : b.OnLinks c) : a.OnLinks c := by
  obtain ⟨ls, o, rfl⟩ := h
  obtain ⟨ls', o', rfl⟩ := h'
  exact ⟨ls', o', rfl⟩

theorem Dev.OnLinks.foldl {α : Type} {g : Dev → α → Dev} (hg : ∀ (d : Dev) a, d.OnLinks (g d a)) (xs : List α) (d : Dev) :
    d.OnLinks (xs.foldl g d) := by
  induction xs generalizing d with
  | nil => exact .refl d
  | cons a xs ih => exact (hg d a).trans (ih _)

theorem Dev.linkQueue_onLinks (d : Dev) (l : Nat) (h p : List Byte) : d.OnLinks (d.linkQueue l h p) :=
  Dev.linkDrain_induct (P := d.OnLinks) (fun _ _ _ he => he.trans ⟨_, _, rfl⟩) (fun e _ he => he.trans ⟨_, e.out, rfl⟩) ⟨_, d.out, rfl⟩

theorem Dev.flood_onLinks (d : Dev) (l : Lsa) (skip : Option Nat) : d.OnLinks (d.flood l skip) :=
  .foldl (fun d _ => .foldl (fun d _ => d.linkQueue_onLinks _ _ _) _ d) _ d

theorem Dev.flood_lsas (d : Dev) (l : Lsa) (skip : Option Nat) : (d.flood l skip).fab.lsas = d.fab.lsas := by
  obtain ⟨ls, o, h⟩ := d.flood_onLinks l skip
  rw [h]

theorem Dev.flood_routeDirty (d : Dev) (l : Lsa) (skip : Option Nat) : (d.flood l skip).fab.routeDirty = d.fab.routeDirty := by
  obtain ⟨ls, o, h⟩ := d.flood_onLinks l skip
  rw [h]

/-- A search for conflicts renews the list of them and leaves the routes to be computed (R405, R406). -/
theorem Dev.conflictCheck_fab (d : Dev) : d.conflictCheck.fab = { d.fab with conflicts := d.conflictsNow, routeDirty := true } := by
  unfold Dev.conflictCheck
  dsimp only
  split
  · exact congrArg Dev.fab (Dev.postBoth_frame _ _ _ _ _).choose_spec.choose_spec.choose_spec.choose_spec
  · rfl

/-! ### LSA_RECEIVE (R404) -/

/-- The stored copy of a device's advertisement. -/
def Dev.storedLsa (d : Dev) (a : BitVec 7) (ser : BitVec 64) : Option Lsa := d.fab.lsas.find? fun x => x.addr == a && x.serial == ser

theorem Dev.storedLsa_key {d : Dev} {a : BitVec 7} {ser : BitVec 64} {x : Lsa} (h : d.storedLsa a ser = some x) :
    x.addr = a ∧ x.serial = ser := by
  have := List.find?_some h
  simpa using this

/-- The device once an advertisement has replaced the stored copy. -/
def Dev.lsaStored (d : Dev) (l : Lsa) : Dev :=
  { d with fab := { d.fab with lsas := d.fab.lsas.filter (fun x => ! (x.addr == l.addr && x.serial == l.serial)) ++ [l] } }

section Receive

variable {s : State} {l : LinkNo} {ser : BitVec 64} {a : BitVec 7} {q : BitVec 32} {src : Option Nat} {tk : BitVec 8}
  {adj : List (Nat × Nat)} (hheld : s.dev.coreHeld = false) (hl : l < fabLinks) (hup : (s.dev.linkAt l).up = true)
include hheld hl hup

theorem exec_lsaReceive_own (hser : ser = Config.serial) (ha : a.toNat = s.dev.fabAddr) (hq : s.dev.fab.mySeq ≤ q) :
    exec (.lsaReceive l ser a q src tk adj) s =
      .next (s.withDev { s.dev with fab := { s.dev.fab with mySeq := q + 1, lsaDirty := true } }) := by
  refine (nextDev_of_eq hheld ?_ : execLsaReceive l ser a q src tk adj s = _)
  dsimp only
  rw [if_neg (by simp [Nat.not_le.2 hl, hup]), if_pos ⟨hser, ha⟩, if_pos hq]

section Other

variable (hother : ¬ (ser = Config.serial ∧ a.toNat = s.dev.fabAddr))
include hother

theorem exec_lsaReceive_newer (hnew : ∀ x ∈ s.dev.storedLsa a ser, x.seq < q) :
    let x : Lsa := { serial := ser, addr := a, seq := q, source := src, taken := tk, adj := adj, since := s.dev.clk }
    exec (.lsaReceive l ser a q src tk adj) s = .next (s.withDev ((s.dev.lsaStored x).conflictCheck.flood x (some l))) := by
  intro x
  refine (nextDev_of_eq hheld ?_ : execLsaReceive l ser a q src tk adj s = _)
  dsimp only
  rw [if_neg (by simp [Nat.not_le.2 hl, hup]), if_neg hother]
  rw [if_pos]
  · rfl
  · cases hfind : s.dev.storedLsa a ser with
    | none => rw [Dev.storedLsa] at hfind; simp only [hfind]
    | some y =>
      have hseq := hnew y hfind
      rw [Dev.storedLsa] at hfind
      simpa only [hfind] using decide_eq_true hseq

theorem exec_lsaReceive_dropped {x : Lsa} (hx : s.dev.storedLsa a ser = some x) (hold : q ≤ x.seq) :
    exec (.lsaReceive l ser a q src tk adj) s = .next s := by
  refine (nextDev_of_eq hheld ?_ : execLsaReceive l ser a q src tk adj s = _)
  dsimp only
  rw [if_neg (by simp [Nat.not_le.2 hl, hup]), if_neg hother]
  rw [Dev.storedLsa] at hx
  simp only [hx]
  exact if_neg (by simpa using hold)

end Other

end Receive

/-! ### The device's own, and copies that age (R404) -/

section Rows

variable {s : State} (hheld : s.dev.coreHeld = false)
include hheld

theorem exec_lsaRefresh (hdue : s.dev.fab.lsaDirty = true ∨ s.dev.fab.lsaAt + 50000 ≤ s.dev.clk) : exec .lsaRefresh s = .next (s.withDev
    (({ s.dev with fab := { s.dev.fab with mySeq := s.dev.fab.mySeq + 1, lsaAt := s.dev.clk, lsaDirty := false } } : Dev).flood
      s.dev.ownLsa none)) :=
  (nextDev_of_eq hheld (if_pos hdue) : execLsaRefresh s = _)

theorem exec_lsaExpire {a : BitVec 7} {ser : BitVec 64} {x : Lsa} (hx : s.dev.storedLsa a ser = some x) (hdue : x.since + 150000 ≤ s.dev.clk) :
    exec (.lsaExpire a ser) s = .next (s.withDev
      ({ s.dev with fab := { s.dev.fab with lsas := s.dev.fab.lsas.erase x } } : Dev).conflictCheck) := by
  refine (nextDev_of_eq hheld ?_ : execLsaExpire a ser s = _)
  rw [Dev.storedLsa] at hx
  simp only [hx]
  exact if_pos hdue

theorem exec_routeCompute : exec .routeCompute s = .next (s.withDev
    (if s.dev.fab.routeDirty ∧ ! s.dev.stalls blkFab 0 1 then
      { s.dev with fab := { s.dev.fab with routes := s.dev.computeRoutes, routeDirty := false } }
    else s.dev)) := (nextDev_ok s _ hheld : execRouteCompute s = _)

end Rows

/-- An entry of the forwarding table names an address of the fabric besides the device's own, and one to four first hops (R406). -/
theorem Dev.computeRoutes_entry (d : Dev) : ∀ x ∈ d.computeRoutes, x.1 ≠ d.fabAddr ∧ x.1 < 128 ∧ x.2 ≠ [] ∧ x.2.length ≤ 4 := by
  unfold Dev.computeRoutes
  dsimp only
  split
  · simp
  · intro x hx
    obtain ⟨a, ha, hentry⟩ := List.mem_filterMap.1 hx
    split at hentry
    · cases hentry
    · rename_i hreach
      obtain rfl := Option.some.inj hentry
      rw [not_or] at hreach
      refine ⟨hreach.1, List.mem_range.1 ha, ?_, ?_⟩
      · rw [← List.length_pos_iff, List.length_take, List.length_mergeSort]
        exact lt_min (by decide) (List.length_pos_iff.2 hreach.2)
      · exact List.length_take_le 4 _

/-- Settles O57, row by row: what is received, what goes out, what ages, and what is computed. -/
theorem advertisementsAndRoutes : Obligations.AdvertisementsAndRoutes := by
  unfold Obligations.AdvertisementsAndRoutes
  intro s hheld
  refine ⟨fun l ser a q src tk adj hl hup => ⟨fun hother hnew => ?_, fun hother hex hold => ?_, fun ⟨hser, ha⟩ hq => ?_⟩,
    exec_lsaRefresh hheld, fun a ser x hx hdue => ?_, fun hdirty hstall => ?_, fun hidle => ?_, s.dev.computeRoutes_entry⟩
  · have hstored : ∀ x ∈ s.dev.storedLsa a ser, x.seq < q := fun x hx => by
      obtain ⟨haddr, hserial⟩ := Dev.storedLsa_key hx
      exact hnew x (List.mem_of_find?_eq_some hx) haddr hserial
    refine ⟨_, exec_lsaReceive_newer hheld hl hup hother hstored, rfl, ?_, ?_⟩
    · exact (Dev.flood_lsas _ _ _).trans (congrArg Fab.lsas (Dev.conflictCheck_fab _))
    · exact (Dev.flood_routeDirty _ _ _).trans (congrArg Fab.routeDirty (Dev.conflictCheck_fab _))
  · obtain ⟨y, hy, haddr, hserial⟩ := hex
    obtain ⟨x, hx⟩ : ∃ x, s.dev.storedLsa a ser = some x :=
      Option.isSome_iff_exists.1 (List.find?_isSome.2 ⟨y, hy, by simp [haddr, hserial]⟩)
    obtain ⟨hxa, hxs⟩ := Dev.storedLsa_key hx
    exact exec_lsaReceive_dropped hheld hl hup hother hx (hold x (List.mem_of_find?_eq_some hx) hxa hxs)
  · exact exec_lsaReceive_own hheld hl hup hser ha hq
  · exact ⟨_, exec_lsaExpire hheld hx hdue, rfl, congrArg Fab.lsas (Dev.conflictCheck_fab _),
      congrArg Fab.routeDirty (Dev.conflictCheck_fab _)⟩
  · rw [exec_routeCompute hheld, if_pos (by simpa [blkFab] using ⟨hdirty, hstall⟩)]
  · rw [exec_routeCompute hheld, if_neg (by rcases hidle with h | h <;> simp [blkFab, h])]

end Sys2Proof.Machine
end

section
/-! SUPPORT. Mirror batches (R416), acknowledgements (R417) and heartbeats (R419). -/

namespace Sys2Proof.Machine

/-! ### Buffers and the store (R415) -/

@[simp] theorem Dev.allocate_pair (d : Dev) (p owner releaser : Nat) : (d.allocate p owner releaser).1.pair = d.pair := by
  simp only [Dev.allocate]
  repeat' split
  all_goals rfl

@[simp] theorem Dev.releaseAll_pair (d : Dev) (hs : List (BitVec 32)) (o : Nat) : (d.releaseAll hs o).pair = d.pair :=
  foldl_keeps (keep := Dev.pair) (fun d h => Dev.release_pair d h o) hs d

/-- Buffers for a batch: one for each of its records, in their order, and what is held of the partner is as it was. -/
theorem Dev.mirrorBuffers_spec {d d2 : Dev} {rs : List MirRec} {got : List (MirRec × Option (BitVec 32))}
    (h : d.mirrorBuffers rs = some (d2, got)) : got.map (·.1) = rs ∧ (∀ g ∈ got, g.2.isSome = true) ∧ d2.pair = d.pair := by
  induction rs generalizing d got with
  | nil =>
    obtain ⟨rfl, rfl⟩ := Prod.mk.inj (Option.some.inj h)
    exact ⟨rfl, by simp, rfl⟩
  | cons r rs ih =>
    rw [Dev.mirrorBuffers] at h
    dsimp only at h
    split at h
    · cases h
    · obtain ⟨⟨e, rest⟩, hrest, heq⟩ := Option.map_eq_some_iff.1 h
      obtain ⟨rfl, rfl⟩ := Prod.mk.inj heq
      obtain ⟨hrecs, hsome, hpair⟩ := ih hrest
      exact ⟨congrArg (r :: ·) hrecs, by simpa using hsome, hpair.trans (d.allocate_pair ..)⟩

/-- What stands in the store after a batch is of the batch, or stood there before and no record of the batch replaces it. -/
theorem Dev.mirrorStore_mem {d : Dev} {got : List (MirRec × Option (BitVec 32))} {g : MirRec × Option (BitVec 32)}
    (h : g ∈ (d.mirrorStore got).pair.partner.store) :
    g ∈ got ∨ g ∈ d.pair.partner.store ∧ ∀ r ∈ got.map (·.1), r.same g.1 = false := by
  have hkept : g ∈ d.pair.partner.store.filter (fun x => ! got.any fun y => y.1.same x.1) ++ got := by
    rw [Dev.mirrorStore, Dev.releaseAll_pair] at h
    exact List.mem_of_mem_filter h
  obtain hold | hgot := List.mem_append.1 hkept
  · obtain ⟨hstore, hsame⟩ := List.mem_filter.1 hold
    exact .inr ⟨hstore, by simpa using hsame⟩
  · exact .inl hgot

/-! ### MIRROR_BATCH_COMMIT (R416) -/

/-- The device once batch `b` waits no more. -/
def Dev.batchTaken (d : Dev) (b : BitVec 48) : Dev := d.modPartner fun p => { p with batches := p.batches.filter (·.tick != b) }

/-- Nothing keeps a batch back that has come whole and that no other precedes. -/
theorem mirrorBatchCommit_due {d : Dev} {b : BitVec 48} {x : Batch} (hen : d.flag Fld.fabPairCfgEn = true) (hwhole : x.whole = true)
    (hfirst : ∀ o ∈ d.pair.partner.batches, o.tick ≠ b → seqFrom o.tick b = false) : ¬ ((! d.flag Fld.fabPairCfgEn) = true ∨ (! x.whole) = true ∨
    d.pair.partner.batches.any (fun o => o.tick != b && seqFrom o.tick b) = true) := by
  simpa [hen, hwhole] using hfirst

section Commit

variable {s : State} {b : BitVec 48} {x : Batch} (hheld : s.dev.coreHeld = false)
  (hx : s.dev.pair.partner.batches.find? (fun y => y.tick == b) = some x)
include hheld hx

theorem exec_mirrorBatchCommit_waits
    (hwait : x.whole = false ∨ ∃ o ∈ s.dev.pair.partner.batches, o.tick ≠ b ∧ seqFrom o.tick b = true) :
    exec (.mirrorBatchCommit b) s = .next s := by
  refine (nextDev_of_eq hheld ?_ : execMirrorBatchCommit b s = _)
  simp only [hx]
  refine if_pos (.inr ?_)
  simpa using hwait

section Whole

variable (hen : s.dev.flag Fld.fabPairCfgEn = true) (hwhole : x.whole = true)
  (hfirst : ∀ o ∈ s.dev.pair.partner.batches, o.tick ≠ b → seqFrom o.tick b = false)
include hen hwhole hfirst

theorem exec_mirrorBatchCommit_refused (hnone : (s.dev.batchTaken b).mirrorBuffers x.recs = none) :
    exec (.mirrorBatchCommit b) s = .next (s.withDev ((s.dev.batchTaken b).fabSend s.dev.partnerAddr 1 0x12 0 (.mirrorNak b))) := by
  refine (nextDev_of_eq hheld ?_ : execMirrorBatchCommit b s = _)
  rw [Dev.batchTaken] at hnone
  simp only [hx]
  rw [if_neg (mirrorBatchCommit_due hen hwhole hfirst)]
  simp only [hnone]
  rfl

theorem exec_mirrorBatchCommit_stored {d2 : Dev} {got : List (MirRec × Option (BitVec 32))}
    (hsome : (s.dev.batchTaken b).mirrorBuffers x.recs = some (d2, got)) : exec (.mirrorBatchCommit b) s = .next (s.withDev
      (((d2.mirrorStore got).modPartner fun p => { p with committed := b }).fabSend s.dev.partnerAddr 1 0x11 0 (.mirrorAck b))) := by
  refine (nextDev_of_eq hheld ?_ : execMirrorBatchCommit b s = _)
  rw [Dev.batchTaken] at hsome
  simp only [hx]
  rw [if_neg (mirrorBatchCommit_due hen hwhole hfirst)]
  simp only [hsome]

end Whole

end Commit

/-! ### Acknowledgements that wait on connections (R417) -/

/-- Whether an acknowledgement that waits for batch `w` no longer waits. -/
def ackGoes (upTo : Option (BitVec 48)) (w : BitVec 48) : Bool := match upTo with
  | some t => seqFrom w t
  | none => true

/-- One connection's step of a release of acknowledgements. -/
def Dev.connRelease (upTo : Option (BitVec 48)) (d : Dev) (x : Nat × Conn) : Dev :=
  let go := x.2.ackWait.filter fun w => ackGoes upTo w.2
  match go.getLast? with
  | none => d
  | some w => (d.modConn x.1 fun k => { k with ackWait := k.ackWait.filter fun y => ! go.contains y }).emitOn x.1 (.ack x.1 w.1)

theorem Dev.releaseAcks_eq (d : Dev) (upTo : Option (BitVec 48)) : d.releaseAcks upTo = d.rte.conns.foldl (Dev.connRelease upTo) d := rfl

theorem Dev.connRelease_frame (upTo : Option (BitVec 48)) (d : Dev) (x : Nat × Conn) :
    ∃ e o cs, d.connRelease upTo x = { d with eth := e, out := o, rte := { d.rte with conns := cs } } := by
  unfold Dev.connRelease
  dsimp only
  split
  · exact ⟨d.eth, d.out, d.rte.conns, rfl⟩
  · obtain ⟨e, o, cs, h⟩ := (d.modConn x.1 _).emitOn_frame x.1 _
    exact ⟨e, o, cs, h⟩

@[simp] theorem Dev.releaseAcks_pair (d : Dev) (upTo : Option (BitVec 48)) : (d.releaseAcks upTo).pair = d.pair := by
  rw [Dev.releaseAcks_eq]
  exact foldl_keeps (keep := Dev.pair) (fun d x => by obtain ⟨e, o, cs, h⟩ := d.connRelease_frame upTo x; rw [h]) _ d

@[simp] theorem Dev.releaseAcks_regs (d : Dev) (upTo : Option (BitVec 48)) : (d.releaseAcks upTo).regs = d.regs := by
  rw [Dev.releaseAcks_eq]
  exact foldl_keeps (keep := Dev.regs) (fun d x => by obtain ⟨e, o, cs, h⟩ := d.connRelease_frame upTo x; rw [h]) _ d

/-! ### MIRROR_ACK, MIRROR_NAK, heartbeats -/

section Rows

variable {s : State} {b : BitVec 48} (hheld : s.dev.coreHeld = false)
include hheld

theorem exec_mirrorAck_unsent (hnot : (s.dev.pair.sent.any fun x => x.1 == b) = false) : exec (.mirrorAck b) s = .next s :=
  (nextDev_of_eq hheld (if_neg (by simp [hnot])) : execMirrorAck b s = _)

theorem exec_mirrorNak_unsent (hnot : (s.dev.pair.sent.any fun x => x.1 == b) = false) : exec (.mirrorNak b) s = .next s :=
  (nextDev_of_eq hheld (if_neg (by simp [hnot])) : execMirrorNak b s = _)

section Designated

variable (hen : s.dev.flag Fld.fabPairCfgEn = true)
include hen

theorem exec_heartbeatReceive (x c a : BitVec 48) : exec (.heartbeatReceive x c a) s =
    .next (s.withDev (s.dev.modPartner fun p => { p with beat := true, theirCommit := c, theirAck := a })) :=
  (nextDev_of_eq hheld (if_pos ⟨hen, x.isLt⟩) : execHeartbeatReceive x c a s = _)

section Sent

variable (hsent : (s.dev.pair.sent.any fun x => x.1 == b) = true)
include hsent

/-- The pair once the partner has acknowledged batch `b` under the own number `own`. -/
def Pair.ackedTo (p : Pair) (b own : BitVec 48) : Pair :=
  { p with acked := some own, backlog := false, sent := p.sent.filter fun x => ! seqFrom x.1 b }

theorem exec_mirrorAck : ∃ t, exec (.mirrorAck b) s = .next t ∧ t.hbm = s.hbm ∧
    t.dev.pair = s.dev.pair.ackedTo b (b - BitVec.ofNat 48 s.dev.timeOfs) :=
  ⟨_, (nextDev_of_eq hheld (if_pos ⟨hen, hsent⟩) : execMirrorAck b s = _), rfl, Dev.releaseAcks_pair _ _⟩

theorem exec_mirrorNak : exec (.mirrorNak b) s = .next (s.withDev { s.dev with
    pair := { s.dev.pair with backlog := true, resend := s.dev.pair.resend ++ [b] }
    ctl := if s.dev.pair.backlog then s.dev.ctl else (s.dev.postEvent 0x87 blkFab 0 [item s.dev.partnerAddr, item b.toNat]).ctl }) := by
  refine (nextDev_of_eq hheld ?_ : execMirrorNak b s = _)
  rw [if_pos ⟨hen, hsent⟩]
  cases s.dev.pair.backlog <;> rfl

end Sent

end Designated

end Rows

/-- Settles O58, row by row: what a batch that has come whole does, and what its answers and a heartbeat note. -/
theorem mirrorBatches : Obligations.MirrorBatches := by
  unfold Obligations.MirrorBatches
  intro s hheld hen
  refine ⟨fun b x hx => ⟨fun hwhole hfirst => ⟨?_, fun d2 got => ?_⟩, exec_mirrorBatchCommit_waits hheld hx⟩,
    fun d d2 rs got hgot => ?_, fun b hsent => ?_, fun b hsent => ?_,
    fun b hnot => ⟨exec_mirrorAck_unsent hheld hnot, exec_mirrorNak_unsent hheld hnot⟩, exec_heartbeatReceive hheld hen⟩
  · exact exec_mirrorBatchCommit_refused hheld hx hen hwhole hfirst
  · exact exec_mirrorBatchCommit_stored hheld hx hen hwhole hfirst
  · obtain ⟨hrecs, hsome, hpair⟩ := Dev.mirrorBuffers_spec hgot
    refine ⟨hrecs, hsome, fun g hg => ?_⟩
    rw [← hpair, ← hrecs]
    exact Dev.mirrorStore_mem hg
  · obtain ⟨t, ht, hhbm, hpair⟩ := exec_mirrorAck hheld hen hsent
    exact ⟨t, ht, hhbm, congrArg Pair.acked hpair, congrArg Pair.backlog hpair, congrArg Pair.sent hpair⟩
  · refine ⟨_, exec_mirrorNak hheld hen hsent, rfl, rfl, rfl, fun hback => ?_, fun hback hroom => ?_⟩
    · exact if_pos hback
    · obtain ⟨e, hevq, hcode, hitems⟩ := Dev.postEvent_waits 0x87 blkFab 0 [item s.dev.partnerAddr, item b.toNat] hroom
      exact ⟨e, (congrArg Ctl.evq (if_neg (Bool.not_eq_true _ ▸ hback))).trans hevq, hcode, hitems⟩

end Sys2Proof.Machine
end

section
/-! SUPPORT. Pair states (R413, R420 to R423). -/

namespace Sys2Proof.Machine

/-! ### Acknowledgements that a device in solo no longer holds back (R422) -/

theorem Dev.tget_modConn_cases {d : Dev} {c j : Nat} {f : Conn → Conn} {k' : Conn} (h : tget (d.modConn c f).rte.conns j = some k') :
    ∃ k, tget d.rte.conns j = some k ∧ k' = if j = c then f k else k := by
  by_cases hj : j = c
  · subst hj
    rw [Dev.tget_modConn] at h
    obtain ⟨k, hk, rfl⟩ := Option.map_eq_some_iff.1 h
    exact ⟨k, hk, (if_pos rfl).symm⟩
  · exact ⟨k', (tget_tmod_other _ f hj).symm.trans h, (if_neg hj).symm⟩

/-- What leaves on a connection changes no list of acknowledgements that wait. -/
theorem Dev.emitOn_ackWait {d : Dev} {c j : Nat} {o : Out} {k' : Conn} (h : tget (d.emitOn c o).rte.conns j = some k') :
    ∃ k, tget d.rte.conns j = some k ∧ k'.ackWait = k.ackWait := by
  unfold Dev.emitOn at h
  split at h
  · exact ⟨k', h, rfl⟩
  · split at h
    · exact ⟨k', h, rfl⟩
    · obtain ⟨k, hk, rfl⟩ := Dev.tget_modConn_cases h
      exact ⟨k, hk, by split <;> rfl⟩

/-- A release for connection `x.1` adds to no list, and leaves on its own nothing of what waited in `x.2`. -/
theorem Dev.connRelease_ackWait {d : Dev} {x : Nat × Conn} {j : Nat} {k' : Conn}
    (h : tget (d.connRelease none x).rte.conns j = some k') :
    ∃ k, tget d.rte.conns j = some k ∧ k'.ackWait ⊆ k.ackWait ∧ (j = x.1 → ∀ w ∈ x.2.ackWait, w ∉ k'.ackWait) := by
  have hgo : x.2.ackWait.filter (fun w => ackGoes none w.2) = x.2.ackWait := List.filter_eq_self.2 fun _ _ => rfl
  unfold Dev.connRelease at h
  dsimp only at h
  rw [hgo] at h
  split at h
  · next hnone => exact ⟨k', h, List.Subset.refl _, fun _ w hw => by simp [List.getLast?_eq_none_iff.1 hnone] at hw⟩
  · obtain ⟨k1, hk1, hack⟩ := Dev.emitOn_ackWait h
    obtain ⟨k, hk, rfl⟩ := Dev.tget_modConn_cases hk1
    refine ⟨k, hk, ?_, fun hj w hw => ?_⟩
    · rw [hack]
      split
      · exact fun w hw => List.mem_of_mem_filter hw
      · exact List.Subset.refl _
    · rw [hack, if_pos hj]
      simp [hw]

theorem Dev.connRelease_foldl_ackWait {xs : List (Nat × Conn)} {d : Dev} {j : Nat} {k' : Conn}
    (h : tget (xs.foldl (Dev.connRelease none) d).rte.conns j = some k') :
    ∃ k, tget d.rte.conns j = some k ∧ k'.ackWait ⊆ k.ackWait ∧ ∀ x ∈ xs, j = x.1 → ∀ w ∈ x.2.ackWait, w ∉ k'.ackWait := by
  induction xs generalizing d with
  | nil => exact ⟨k', h, List.Subset.refl _, by simp⟩
  | cons x xs ih =>
    obtain ⟨k1, hk1, hsub, hgone⟩ := ih h
    obtain ⟨k, hk, hsub1, hgone1⟩ := Dev.connRelease_ackWait hk1
    refine ⟨k, hk, fun w hw => hsub1 (hsub hw), List.forall_mem_cons.2 ⟨fun hj w hw hmem => hgone1 hj w hw (hsub hmem), hgone⟩⟩

/-- A release of every acknowledgement leaves none to wait. -/
theorem Dev.releaseAcks_none {d : Dev} {j : Nat} {k' : Conn} (h : tget (d.releaseAcks none).rte.conns j = some k') : k'.ackWait = [] := by
  rw [Dev.releaseAcks_eq] at h
  obtain ⟨k, hk, hsub, hgone⟩ := Dev.connRelease_foldl_ackWait h
  obtain ⟨x, hx, rfl⟩ := Option.map_eq_some_iff.1 hk
  have hkey : x.1 = j := by simpa using List.find?_some hx
  exact List.eq_nil_iff_forall_not_mem.2 fun w hw => hgone x (List.mem_of_find?_eq_some hx) hkey.symm w (hsub hw) hw

/-! ### The field that shows the pair's state -/

theorem Dev.fld_of_regs {d e : Dev} (h : e.regs = d.regs) (f : Fld) (i : Nat) : e.fld f i = d.fld f i := by
  rw [Dev.fld, Dev.rawReg_of_regs h, Dev.fld]

/-- An event and a record of a state that the pair enters leave the state as it is shown. -/
theorem Dev.pairState_postBoth (d : Dev) {n : Nat} (hn : n < 8) (c b i : Nat) (l : List Word64) :
    ((d.setFld Fld.fabPairStatState 0 n).postBoth c b i l).fld Fld.fabPairStatState = n := by
  rw [Dev.fld_postBoth _ _ _ _ _ (by decide), Dev.fld_setFld_self _ _ _ _ (by decide)]
  exact Nat.mod_eq_of_lt hn

theorem Dev.postBoth_pair (d : Dev) (c b i : Nat) (l : List Word64) : (d.postBoth c b i l).pair = d.pair := by
  obtain ⟨k, r, h, e, heq⟩ := d.postBoth_frame c b i l
  rw [heq]

/-! ### Takeover and partition (R420 to R422) -/

section Rows

variable {s : State} (hheld : s.dev.coreHeld = false)
include hheld

section Lost

variable (hlost : s.dev.heartLost = true)
include hlost

/-- The pair once a takeover has been declared. -/
def Dev.takeoverPair (d : Dev) : Pair :=
  { d.pair with
    takeover := some { x := d.clk, f := d.clk - d.fld Fld.fabPairStatMissed, tps := d.partnerTps }, partSince := none
    partner := { d.pair.partner with batches := [] } }

theorem exec_pairTakeover (hfree : s.dev.partnerTps.all s.dev.tpReleased = true) :
    exec .pairTakeover s = .next (s.withDev { s.dev with pair := s.dev.takeoverPair }) :=
  (nextDev_of_eq hheld (if_pos ⟨hlost, hfree⟩) : execPairTakeover s = _)

/-- The device once the pair is a partition. -/
def Dev.pairSplit (d : Dev) : Dev :=
  let e := (d.setFld Fld.fabPairStatState 0 3).postBoth 0x84 blkFab 0
    [item d.partnerAddr, item ((d.pair.acked.getD 0) + BitVec.ofNat 48 d.timeOfs).toNat]
  { e with pair := { e.pair with partSince := some e.clk } }

theorem exec_pairPartition (hstate : s.dev.fld Fld.fabPairStatState ≤ 2) (howned : s.dev.partnerTps.all s.dev.tpReleased = false) :
    exec .pairPartition s = .next (s.withDev s.dev.pairSplit) :=
  (nextDev_of_eq hheld (if_pos ⟨hlost, hstate, by simp [howned]⟩) : execPairPartition s = _)

end Lost

theorem exec_pairSolo {x0 : Nat} (hsince : s.dev.pair.partSince = some x0) (hstate : s.dev.fld Fld.fabPairStatState = 3)
    (hdue : x0 + s.dev.fld1 Fld.fabPairCfgSoloT ≤ s.dev.clk) : exec .pairSolo s = .next (s.withDev (s.dev.enterSolo 1)) := by
  refine (nextDev_of_eq hheld ?_ : execPairSolo s = _)
  simp only [hsince]
  exact if_pos ⟨hstate, hdue⟩

theorem exec_takeoverComplete {k : Takeover} (hk : s.dev.pair.takeover = some k) (hclaimed : k.claimed = true)
    (howned : (k.tps.all fun x => s.dev.flag Fld.tpLinkStatOwner x) = true) :
    exec .takeoverComplete s = .next (s.withDev { s.dev with pair := { s.dev.pair with takeover := none } }) := by
  refine (nextDev_of_eq hheld ?_ : execTakeoverComplete s = _)
  simp only [hk]
  exact if_pos ⟨hclaimed, howned⟩

section Deadline

variable {k : Takeover} {tp : Nat}

/-- The device once it has given up a transport of its takeover. -/
def Dev.tpGivenUp (d : Dev) (k : Takeover) (tp : Nat) : Dev :=
  { d with pair := { d.pair with takeover := some { k with tps := k.tps.filter (· != tp) } } }

theorem exec_takeoverDeadline (hk : s.dev.pair.takeover = some k) (hclaimed : k.claimed = true) (htp : k.tps.contains tp = true)
    (hdue : k.f + 15 ≤ s.dev.clk) (howner : s.dev.flag Fld.tpLinkStatOwner tp = false) :
    exec (.takeoverDeadline tp) s = .next (s.withDev (match (s.dev.tpAt tp).mounted with
      | some (slot, i, _) => (s.dev.tpGivenUp k tp).spend.memberFail slot i (1 + (s.dev.tpGivenUp k tp).fresh.toNat % 5)
      | none => s.dev.tpGivenUp k tp)) := by
  refine (nextDev_of_eq hheld ?_ : execTakeoverDeadline tp s = _)
  simp only [hk]
  rw [if_pos ⟨hclaimed, htp, hdue, by simp [howner]⟩]
  rfl

end Deadline

/-! ### Resync and protection (R413, R423) -/

/-- The records that a resync sends. -/
def Dev.resyncSent (d : Dev) (rs : List MirRec) : Dev := rs.foldl (fun d r => d.fabSend d.partnerAddr 2 0x23 0 (.resync r)) d

/-- The device once a resync has begun. -/
def Dev.resyncBegun (d : Dev) (h : Hbm) : Dev :=
  let now := d.mirrorNow h
  let e := (d.setFld Fld.fabPairStatState 0 1).resyncSent now
  ({ e with
    fab := { e.fab with taken := 0xFF }
    pair := { e.pair with
      last := now, sent := [], resend := [], acked := none, partSince := none, resync := some (BitVec.ofNat 48 e.fabTickNow) } } : Dev).lsaChanged

theorem exec_pairResync (hen : s.dev.flag Fld.fabPairCfgEn = true) (h1 : s.dev.fld Fld.fabPairStatState ≠ 1)
    (h2 : s.dev.fld Fld.fabPairStatState ≠ 2) (hbeat : 1 ≤ s.dev.pair.partner.beatRun) (hno : s.dev.pair.takeover = none) :
    exec .pairResync s = .next (s.withHd (s.hbm, s.dev.resyncBegun s.hbm)) := by
  refine (nextHd_of_eq hheld ?_ : execPairResync s = _)
  dsimp only
  rw [if_pos ⟨hen, h1, h2, hbeat, by simp [hno]⟩]
  unfold Dev.resyncBegun Dev.resyncSent
  rfl

theorem exec_pairProtected {r a : BitVec 48} (hr : s.dev.pair.resync = some r) (ha : s.dev.pair.acked = some a)
    (hstate : s.dev.fld Fld.fabPairStatState = 1) (hbeat : 8 ≤ s.dev.pair.partner.beatRun)
    (hcommitted : seqFrom r (a + BitVec.ofNat 48 s.dev.timeOfs) = true) : exec .pairProtected s = .next (s.withDev
      ((({ s.dev with pair := { s.dev.pair with resync := none, tookOver := false } } : Dev).setFld Fld.fabPairStatState 0 2).postEvent
        0x86 blkFab 0 [item s.dev.partnerAddr])) := by
  refine (nextDev_of_eq hheld ?_ : execPairProtected s = _)
  simp only [hr, ha]
  exact if_pos ⟨hstate, hbeat, hcommitted⟩

end Rows

theorem Dev.pairSplit_spec (d : Dev) : d.pairSplit.fld Fld.fabPairStatState = 3 ∧ d.pairSplit.pair.partSince = some d.clk := by
  refine ⟨(Dev.fld_of_regs rfl _ _).trans (d.pairState_postBoth (by decide) _ _ _ _), ?_⟩
  obtain ⟨k, r, h, e, heq⟩ := (d.setFld Fld.fabPairStatState 0 3).postBoth_frame 0x84 blkFab 0
    [item d.partnerAddr, item ((d.pair.acked.getD 0) + BitVec.ofNat 48 d.timeOfs).toNat]
  exact (congrArg (fun d => some d.clk) heq :)

theorem Dev.enterSolo_spec (d : Dev) (cause : Nat) : (d.enterSolo cause).fld Fld.fabPairStatState = 4 ∧
    (d.enterSolo cause).pair.partSince = none ∧ ∀ c k, tget (d.enterSolo cause).rte.conns c = some k → k.ackWait = [] := by
  refine ⟨?_, ?_, fun c k hk => Dev.releaseAcks_none hk⟩
  · rw [Dev.enterSolo, Dev.fld_of_regs (Dev.releaseAcks_regs _ _)]
    exact Dev.pairState_postBoth _ (by decide) _ _ _ _
  · rw [Dev.enterSolo, Dev.releaseAcks_pair, Dev.postBoth_pair]
    rfl

/-- Sending a resync changes the fabric and what has been emitted, and nothing else. -/
theorem Dev.resyncSent_frame (d : Dev) (rs : List MirRec) : ∃ f o, d.resyncSent rs = { d with fab := f, out := o } :=
  Dev.foldl_fab_frame (fun d r => d.fabSend_frame d.partnerAddr 2 0x23 0 (.resync r)) rs d

theorem Dev.resyncBegun_spec (d : Dev) (h : Hbm) : (d.resyncBegun h).fld Fld.fabPairStatState = 1 ∧ (d.resyncBegun h).fab.taken = 0xFF ∧
    (d.resyncBegun h).pair.last = d.mirrorNow h ∧ (d.resyncBegun h).pair.acked = none := by
  obtain ⟨f, o, heq⟩ := (d.setFld Fld.fabPairStatState 0 1).resyncSent_frame (d.mirrorNow h)
  refine ⟨?_, rfl, rfl, rfl⟩
  have hregs : (d.resyncBegun h).regs = (d.setFld Fld.fabPairStatState 0 1).regs := by
    rw [Dev.resyncBegun, heq]
    rfl
  rw [Dev.fld_of_regs hregs, Dev.fld_setFld_self _ _ _ _ (by decide)]
  rfl

/-- Settles O59, row by row. Three clauses are the model's choice: the free cause of a member that a takeover's deadline gives up (log entry
117), the states in which a resync begins and what it does to TAKEN, and the batch whose acknowledgement protects the pair (log entry 119). -/
theorem pairStates : Obligations.PairStates := by
  unfold Obligations.PairStates
  intro s hheld
  refine ⟨fun hlost hfree => ⟨_, exec_pairTakeover hheld hlost hfree, rfl, rfl, rfl⟩, fun hlost hstate howned => ?_,
    fun x0 hsince hstate hdue => ?_, fun k hk hclaimed howned => exec_takeoverComplete hheld hk hclaimed howned,
    fun k tp hk hclaimed htp hdue howner => ?_, fun hen h1 h2 hbeat hno => ?_, fun r a hr ha hstate hbeat hcommitted => ?_⟩
  · exact ⟨_, exec_pairPartition hheld hlost hstate howned, rfl, s.dev.pairSplit_spec⟩
  · exact ⟨_, exec_pairSolo hheld hsince hstate hdue, rfl, s.dev.enterSolo_spec 1⟩
  · have hrow := exec_takeoverDeadline hheld hk hclaimed htp hdue howner
    exact ⟨fun hm => by rw [hrow, hm]; rfl, fun slot i w hm => by rw [hrow, hm]; rfl⟩
  · exact ⟨_, exec_pairResync hheld hen h1 h2 hbeat hno, rfl, s.dev.resyncBegun_spec s.hbm⟩
  · refine ⟨_, exec_pairProtected hheld hr ha hstate hbeat hcommitted, rfl, ?_, rfl, rfl⟩
    exact (Dev.fld_of_regs rfl _ _).trans (Dev.fld_setFld_self s.dev Fld.fabPairStatState 0 2 (by decide))

end Sys2Proof.Machine
end
